-- ==== Sys2Proof/Word.lean ====
section
/-! DEFINITION. The word types of the Ritil CF4 and the names that index its resources. -/

namespace Sys2Proof

/-- A 64-bit register or memory word (R16, R45). -/
abbrev Word := BitVec 64

/-- A docent instruction word (R73). -/
abbrev Word32 := BitVec 32

/-- One byte of storage. -/
abbrev Byte := BitVec 8

/-- X0-X31 (R16). -/
abbrev XReg := Fin 32

/-- H0-H15 (R16). -/
abbrev HReg := Fin 16

/-- A physical core, 0-159 (R2). -/
abbrev CoreId := Fin 160

/-- A docent context K0-K7 (R13). -/
abbrev CtxId := Fin 8

/-- A catalogue handle, 0-255 (R271). -/
abbrev Handle := Fin 256

/-- A signal counter C0-C255 (R26). -/
abbrev CtrNum := Fin 256

/-- A bound register B0-B63 (R16). -/
abbrev BNum := Fin 64

/-- A link queue Q0-Q15 (R24). -/
abbrev QNum := Fin 16

/-- A group G0-G255 (R28). -/
abbrev GroupNum := Fin 256

/-- A guard, 0-31 (R160). -/
abbrev GuardNum := Fin 32

/-- A partition, 0-15 (R394). -/
abbrev PartNum := Fin 16

/-- A compute die D0-D3 (R9). -/
abbrev DieNum := Fin 4

/-- A switch plane and the station that connects to it (R345). -/
abbrev Plane := Fin 16

/-- A device identifier, 0-1023 (R344). -/
abbrev DevNum := BitVec 10

/-- One docent context of one core. -/
structure CtxRef where
  core : CoreId
  ctx : CtxId
  deriving DecidableEq, Repr

end Sys2Proof
end

