-- ==== Sys2Proof/Syntax.lean ====
section
/-! DEFINITION. The instructions and steps of the Ritil CF4: one constructor of `Instr` per row of the opcode table.
Docent words (Table 3.2, Table 3.3) carry the fields of their word; kernel words (Table 3.4) and engine records
(Table 3.8, Table 3.10) carry one structure of fields each; the other steps carry what identifies them. -/

namespace Sys2Proof

/-- Access size of a docent load or store, `fn[7:6]` (R118). -/
inductive Size where
  | b | h | w | d
  deriving DecidableEq, Repr

/-- Size of an atomic, `fn[4]` of AMO or `fn[5]` of FAMO (R132, R134). -/
inductive ASize where
  | w | d
  deriving DecidableEq, Repr

/-- Scope of a fence or atomic (Table 10.4). -/
inductive Scope where
  | core | cluster | die | package | fabric
  deriving DecidableEq, Repr

/-- Comparison of WAITA (Table 3.3). -/
inductive Cmp where
  | eq | ne | lt | ge | ltn | gen
  deriving DecidableEq, Repr

/-- Operation of an integer atomic (Table 4.6). -/
inductive AmoOp where
  | add | and | or | xor | min | max | minn | maxn | swap
  deriving DecidableEq, Repr

/-- Operation of a floating-point atomic (R134). -/
inductive FamoOp where
  | add | min | max
  deriving DecidableEq, Repr

/-- Rounding modes 000-110 (Table 2.8). -/
inductive Rm where
  | rne | rtz | rup | rdn | rna | rsr | rno
  deriving DecidableEq, Repr

/-- Task kinds 0-5 (Table 1.1). -/
inductive Kind where
  | docent | vector | matrix | transpose | copy | join
  deriving DecidableEq, Repr

/-- The fields of a kernel word but for OP (Table 3.4). -/
structure VWord where
  rm : BitVec 3
  pred : BitVec 3
  type : BitVec 5
  dst : BitVec 8
  a : BitVec 8
  b : BitVec 8
  c : BitVec 8
  aux : BitVec 13
  deriving DecidableEq, Repr

/-- A descriptor (Table 3.10). -/
abbrev Desc := BitVec 112

/-- The fields of an engine record but for OP (Table 3.8, R87, R88). -/
structure Rec where
  fa : BitVec 5
  fb : BitVec 5
  fc : BitVec 5
  rm : BitVec 3
  cb : Bool
  ce : Bool
  ord : Bool
  sat : Bool
  sa : Bool
  sb : Bool
  spec : BitVec 32
  trips : BitVec 64
  a : Desc
  b : Desc
  c : Desc
  tail : BitVec 48
  deriving DecidableEq, Repr

/-- What a HOME_ACCESS step serves: the outstanding load or atomic of a context, or its WAITA (R121, R141). -/
inductive HomeReq where
  | load (u : CtxRef) (seq : Nat)
  | waita (u : CtxRef) (seq : Nat)
  deriving DecidableEq, Repr

/-- Where a task packet comes from and goes to (R351, R440, R398). -/
structure Packet where
  srcDev : DevNum
  srcPart : PartNum
  /-- The context whose POSTR sent it, when it is of this device. -/
  sender : Option (CtxRef × Nat)
  /-- Sent by the host through a command queue. -/
  host : Bool
  part : PartNum
  /-- Logical core of the aperture. -/
  core : Nat
  words : List Word
  /-- Its sequence number, when it comes from another device (R347). -/
  seq : BitVec 32
  /-- The sender's vector clock (R316). -/
  clock : Vector Word 4
  /-- The plane on which it arrives from another device (R346). -/
  plane : Option Plane
  deriving DecidableEq, Repr

/-- A request of another device: its source and sequence number (R347, R440). -/
structure FabricSrc where
  dev : DevNum
  part : PartNum
  seq : BitVec 32
  plane : Plane
  deriving DecidableEq, Repr

/-- A link-queue control or fill line: the sending end and the receiving aperture (R355). -/
structure QLine where
  sDev : DevNum
  sPart : PartNum
  sCore : Nat
  sQ : QNum
  part : PartNum
  core : Nat
  q : QNum
  word : Word
  /-- Its sequence number, when it comes from another device (R347). -/
  seq : BitVec 32
  /-- The sender's vector clock (R316). -/
  clock : Vector Word 4
  /-- The plane on which it arrives from another device (R346). -/
  plane : Option Plane
  deriving DecidableEq, Repr

/-- Who writes an aperture line: a copy record of a core, or another device (R349). -/
inductive Writer where
  | record (core : CoreId)
  | fabric (src : FabricSrc)
  deriving DecidableEq, Repr

/-- A command queue: one of a partition's four, or the device queue (R397). -/
inductive CmdQ where
  | part (p : PartNum) (q : Fin 4)
  | device
  deriving DecidableEq, Repr

/-- A command packet's operands with the queue that fetched it (R398). -/
structure Cmd where
  q : CmdQ
  irq : Bool
  a : BitVec 16
  b : BitVec 32
  c : Word
  deriving DecidableEq, Repr

/-- A firmware part as the boot ROM meets it: its bytes, its two signatures and its security version (R409). -/
structure Firmware where
  image : List Byte
  ed25519 : List Byte
  mldsa : List Byte
  version : Nat
  deriving DecidableEq, Repr

/-- The steps of the machine, in the order of the opcode table. -/
inductive Instr where
  -- ALU group, Table 4.1
  | add (d a b : XReg) | sub (d a b : XReg) | mul (d a b : XReg) | mulh (d a b : XReg) | mulhn (d a b : XReg)
  | div (d a b : XReg) | divn (d a b : XReg) | rem (d a b : XReg) | remn (d a b : XReg)
  | and (d a b : XReg) | or (d a b : XReg) | xor (d a b : XReg) | andn (d a b : XReg)
  | shl (d a b : XReg) | shr (d a b : XReg) | sra (d a b : XReg) | rotl (d a b : XReg)
  | min (d a b : XReg) | max (d a b : XReg) | minn (d a b : XReg) | maxn (d a b : XReg)
  | slt (d a b : XReg) | sltn (d a b : XReg) | seq (d a b : XReg)
  | clz (d a : XReg) | ctz (d a : XReg) | popc (d a : XReg)
  | sel (d c a b : XReg)
  -- immediate forms, Table 4.2
  | addi (d a : XReg) (imm : BitVec 16) | andi (d a : XReg) (imm : BitVec 16) | ori (d a : XReg) (imm : BitVec 16)
  | xori (d a : XReg) (imm : BitVec 16) | shli (d a : XReg) (sh : BitVec 6) | shri (d a : XReg) (sh : BitVec 6)
  | srai (d a : XReg) (sh : BitVec 6) | slti (d a : XReg) (imm : BitVec 16) | lil (d : XReg) (imm : BitVec 16)
  | lih (d : XReg) (imm : BitVec 16)
  | exts (d a : XReg) (pos w : BitVec 6) | extz (d a : XReg) (pos w : BitVec 6) | insf (d a : XReg) (pos w : BitVec 6)
  -- branches, Table 4.3
  | b (off : BitVec 26) | bl (off : BitVec 26)
  | beq (a b : XReg) (off : BitVec 16) | bne (a b : XReg) (off : BitVec 16) | blt (a b : XReg) (off : BitVec 16)
  | bge (a b : XReg) (off : BitVec 16) | bltn (a b : XReg) (off : BitVec 16) | bgen (a b : XReg) (off : BitVec 16)
  | bz (a : XReg) (off : BitVec 16) | bnz (a : XReg) (off : BitVec 16)
  | br (a : XReg) | blr (a : XReg)
  -- loads and stores, Table 4.4
  | ldB (d a : XReg) (imm : BitVec 16) | ldBn (d a : XReg) (imm : BitVec 16) | ldH (d a : XReg) (imm : BitVec 16)
  | ldHn (d a : XReg) (imm : BitVec 16) | ldW (d a : XReg) (imm : BitVec 16) | ldWn (d a : XReg) (imm : BitVec 16)
  | ldD (d a : XReg) (imm : BitVec 16)
  | stB (a b : XReg) (imm : BitVec 16) | stH (a b : XReg) (imm : BitVec 16) | stW (a b : XReg) (imm : BitVec 16)
  | stD (a b : XReg) (imm : BitVec 16) | stloc (a b : XReg) (imm : BitVec 16)
  | ldx (d a b : XReg) (z : Size) (nat : Bool) (s : BitVec 2)
  | stx (d a b : XReg) (z : Size) (s : BitVec 2)
  | ldt (d a b : XReg) (z : Size) (nat : Bool)
  | stt (d a b : XReg) (z : Size)
  -- atomics, R132-R134
  | amo (d a b : XReg) (op : AmoOp) (z : ASize) (s : Scope)
  | amoi (a b : XReg) (op : AmoOp) (z : ASize) (s : Scope)
  | cas (d a b : XReg) (z : ASize) (s : Scope)
  | famo (d a b : XReg) (op : FamoOp) (rm : Rm) (z : ASize) (s : Scope) (reord : Bool)
  -- system group, Table 4.7
  | nop | fence (s : Scope) | tfence (s : Scope) | waita (d a b : XReg) (c : Cmp) | notify (a b : XReg)
  | trap | eret | brk | yield | done | time (d : XReg) | tcoord (d : XReg)
  | sysr (d : XReg) (r : BitVec 10) | sysw (d : XReg) (r : BitVec 10)
  -- task group, Table 5.1
  | tset (w : Fin 32) (a : XReg) | treg (n : Fin 8) (a b : XReg) | tclr
  | post (d : XReg) | trypost (d : XReg) | postl (d a b : XReg) | postr (d a b : XReg) | join (mask : BitVec 5)
  | gnew (d : XReg) | gok (a : XReg) | gno (a : XReg) | setb (n : BNum) (a : XReg) | getb (d : XReg) (n : BNum)
  | tseti (w : Fin 32) (imm : BitVec 16)
  -- counters, groups, references, queues
  | armc (n : CtrNum) (a : XReg) | armcInit (n : CtrNum) (a : XReg) | arrc (n : CtrNum) (a : XReg)
  | waitc (n : CtrNum) (p : Bool) | readc (d : XReg) (n : CtrNum)
  | gbar (g : GroupNum) | grank (d : XReg) (g : GroupNum) | gsize (d : XReg) (g : GroupNum) | prio (c : BitVec 2)
  | cash (d : HReg) (a : XReg) (b : HReg) | refeq (d : XReg) (a b : HReg) | mkref (d : HReg) (a : XReg)
  | pin (d : XReg) (a : HReg) | unpin (a : HReg)
  | ldref (d : HReg) (a : XReg) (imm : BitVec 16) | stref (a : XReg) (b : HReg) (imm : BitVec 16)
  | ldh (d : XReg) (a : HReg) (imm : BitVec 16) | sth (a : HReg) (b : XReg) (imm : BitVec 16)
  | qopen (n : QNum) (a : XReg) | qclose (n : QNum) | qstat (d : XReg) (n : QNum)
  | imx (payload : BitVec 26)
  -- events of a docent context
  | loadReply (u : CtxRef) (seq : Nat) (v : Word)
  | storePerformed (u : CtxRef)
  | delayedFault (u : CtxRef) (h : Handle) (gen : BitVec 16) (cause : BitVec 8) (va : Word)
  | waitaReply (u : CtxRef) (seq : Nat) (evicted : Bool)
  | turnExpiry (core : CoreId)
  | parkedPostResume (core : CoreId)
  | heldPacketAccept (core : CoreId)
  | postrReply (u : CtxRef) (seq : Nat) (reply : BitVec 3)
  | qcloseCompletion (u : CtxRef) (q : QNum)
  -- vector arithmetic, Table 6.2
  | vadd (f : VWord) | vsub (f : VWord) | vmul (f : VWord) | vfma (f : VWord) | vfms (f : VWord) | vfnma (f : VWord)
  | vfnms (f : VWord) | vdiv (f : VWord) | vsqrt (f : VWord) | vrcp (f : VWord) | vrsq (f : VWord) | vmin (f : VWord)
  | vmax (f : VWord) | vminm (f : VWord) | vmaxm (f : VWord) | vabs (f : VWord) | vneg (f : VWord) | vcps (f : VWord)
  | vscl (f : VWord) | vrnd (f : VWord) | vcls (f : VWord) | vcmp (f : VWord)
  -- bounded functions, Table 6.5
  | vexp (f : VWord) | vexp2 (f : VWord) | vlog (f : VWord) | vlog2 (f : VWord) | vsin (f : VWord) | vcos (f : VWord)
  | vtanh (f : VWord) | vsigm (f : VWord) | verf (f : VWord)
  -- vector integer, Table 6.8
  | viadd (f : VWord) | visub (f : VWord) | vimul (f : VWord) | vimulh (f : VWord) | vimad (f : VWord)
  | vimin (f : VWord) | vimax (f : VWord) | viabs (f : VWord) | vshl (f : VWord) | vshr (f : VWord) | vsra (f : VWord)
  | vand (f : VWord) | vor (f : VWord) | vxor (f : VWord) | vnot (f : VWord)
  -- vector movement, Table 7.4 and Table 7.5
  | vmov (f : VWord) | vbcast (f : VWord) | vld (f : VWord) | vst (f : VWord) | vldl (f : VWord) | vstl (f : VWord)
  | vgath (f : VWord) | vscat (f : VWord) | vtrn (f : VWord)
  -- reductions, conversions, selection
  | vredr (f : VWord) | vredc (f : VWord) | vscan (f : VWord) | vcvt (f : VWord) | vpack (f : VWord) | vunpk (f : VWord)
  | vqnt (f : VWord) | vsel (f : VWord)
  -- predicates and control
  | pand (f : VWord) | por (f : VWord) | pxor (f : VWord) | pnot (f : VWord) | pset (f : VWord)
  | vshape (f : VWord) | loop (f : VWord) | loopIterationEnd (core : CoreId) | rot (f : VWord) | vsets (f : VWord)
  | vdone (f : VWord)
  -- engine records, Table 3.9
  | mma (r : Rec) | dmma (r : Rec) | mzero (r : Rec) | mldc (r : Rec) | mdrain (r : Rec) | trn (r : Rec)
  | cpy (r : Rec) | cpyx (r : Rec) | ring (r : Rec) | mcast (r : Rec) | fill (r : Rec) | cpya (r : Rec) | cpyq (r : Rec)
  | ldbnd (r : Rec) | scanref (r : Rec) | reloc (r : Rec)
  | relocSettle (core : CoreId) | gangStart (core : CoreId) | ringStart (core : CoreId)
  -- the registrar
  | taskRelease (core : CoreId) (k : Kind) | taskCompletion (core : CoreId) (h : Handle)
  | homingCopy (core : CoreId) (e : Fin 64) | renameRetire (core : CoreId) (e : Fin 64)
  | primingCopy (core : CoreId) (e : Fin 64)
  | taskAging (core : CoreId) (h : Handle) | taskStarvation (core : CoreId) (h : Handle) | timerWheelTick
  -- homes, reduction deadlines, undefined words
  | homeAccess (r : HomeReq)
  | reductionDeadline (s : BNum)
  | illegalInstruction (w : Word32) (reserved : Bool)
  -- The steps below come from outside the unit that they reach: their operands stand in `State.arg` (an `Arg`).
  -- faults and the fabric
  | faultRecordWrite | signalPacket | postPacket | fabricRead | fabricWrite | fabricAtomic | errorCompletion
  | planeDown | planeUp | fenceMarker | fenceMarkerAnswer
  -- link queues on the wire
  | queuePermit | queueFill | queueFillLine | queueClose | queueBreak | queueSuspend | queueResume
  | tileWalkSend | tileWalkSlotAnswered
  -- reduction slots and appraisers
  | reductionAllocate | reductionContribute | appraiserConfiguration | appraiserWeightWrite | routeLineWrite
  -- errors and the host
  | coreFailure | linePoison | hostWrite | hostRead
  | restore | save | quiesce | resetPart | signal | write | fenceCommand | link | replay | timebase | tagload | partcfg
  | cqtailDoorbell | cqheadWrite | commandQueueRun | commandQueueStop | lselWrite | flconsWrite | ovfClear | istatClear
  | lostarrClear | steppedClear | ptpcfgWrite | registerWrite
  -- keepers, power, time, attestation
  | leaseRenewal | leaderStop | leaseTakeover | powerUp | clockStepChange | sensorUpdate | ptpSync | ptpMasterLoss
  | getMeasurements | getCertificate | challenge | keeperFailure | correctedSoftError
  deriving DecidableEq, Repr

/-- The operands of a step that comes from outside the unit it reaches. -/
inductive Arg where
  | none
  /-- A command packet (R398). -/
  | cmd (c : Cmd)
  /-- A command queue's register, with the value the host writes (Table 14.2). -/
  | queueReg (q : CmdQ) (v : BitVec 32)
  /-- A partition, with a value. -/
  | part (p : PartNum) (v : BitVec 32)
  /-- A value that the host writes to a register of the device block (Table 14.9). -/
  | reg (v : Word)
  /-- A host write through BAR0: the offset, the number of bytes and the value (R394). -/
  | bar (addr bytes : Nat) (v : Word)
  | keeper (k : DieNum)
  | firmware (k : DieNum) (trusted untrusted : Firmware)
  | clocks (steps : List (Fin 20 × Fin 9))
  | sensors (values : List (BitVec 16 × Word))
  | ptp (offset : Word) (ppm : Int)
  | nonce (n : List Byte)
  | certificate (slot : Nat)
  | core (c : CoreId)
  | line (n : Nat)
  /-- A host access: its die, address in device memory and data (R412). -/
  | host (die : DieNum) (pa : Nat) (data : List Byte)
  | packet (k : Packet)
  | read (s : FabricSrc) (va : Word) (size : Nat)
  | store (s : FabricSrc) (va : Word) (data : List Byte) (tags : List Word)
  | atomic (s : FabricSrc) (va : Word) (op : Option AmoOp) (z : ASize) (v cmp : Word)
  | completion (seq : BitVec 32) (reply : BitVec 3)
  /-- A plane that loses one device, or all of them (R348). -/
  | down (p : Plane) (dev : Option DevNum)
  | up (p : Plane) (devs : List DevNum)
  | marker (s : FabricSrc) (word : Word)
  | markerAnswer (u : CtxRef) (dev : DevNum) (p : Plane) (fseq : BitVec 32)
  /-- A link-queue line, its data and line tag (R355, R356). -/
  | qline (l : QLine) (data : List Byte) (tag : Word)
  /-- A queue of a core, with a slot. -/
  | queue (c : CoreId) (q : QNum) (slot : Fin 8)
  /-- A line written to a reduction slot's aperture (R362, R364), with the clock it was sent with (R316). -/
  | slot (s : BNum) (w : Writer) (line : List Byte) (clock : Vector Word 4)
  /-- A line written to an appraiser's aperture: the offset, the data and the line tag (R368, R369). -/
  | appraiser (t : Plane) (w : Writer) (off : Nat) (line : List Byte) (tag : Word)
  deriving DecidableEq, Repr

end Sys2Proof
end

