-- ==== Sys2Proof/Decode.lean ====
section
/-! DEFINITION. The decoders of docent words (R75-R80), kernel words (R81-R84), engine records (R86-R88) and command
packets (R398), total on any bits; the encoders written from the same tables; and the load checks of a kernel word
(R84). -/

namespace Sys2Proof

/-- Bits [lo+len-1:lo] of a word. -/
def bits (w lo len : Nat) : Nat := (w >>> lo) % 2 ^ len

/-- A register field (R75). -/
def xAt (w lo : Nat) : XReg := Fin.ofNat 32 (w >>> lo)

/-- An H field: bits [3:0] of a register field (R75). -/
def hAt (w lo : Nat) : HReg := Fin.ofNat 16 (w >>> lo)

/-- Whether an H field has its bit [4] set, which R78 refuses. -/
def hBad (w lo : Nat) : Bool := bits w (lo + 4) 1 != 0

/-- What a docent word is (R78): an instruction, undefined (cause 0x01), or reserved bits set (cause 0x02). -/
inductive Decoded where
  | ok (i : Instr)
  | undefined
  | reserved
  deriving DecidableEq, Repr

/-- `i` unless a must-be-zero field is set (R78, fate 4). -/
def okIf (c : Bool) (i : Instr) : Decoded := if c then .ok i else .reserved

def sizeOf (n : Nat) : Size :=
  match n with
  | 0 => .b
  | 1 => .h
  | 2 => .w
  | _ => .d

def sizeCode : Size → Nat
  | .b => 0
  | .h => 1
  | .w => 2
  | .d => 3

def asizeOf (n : Nat) : ASize := if n = 0 then .w else .d

def asizeCode : ASize → Nat
  | .w => 0
  | .d => 1

/-- Scope codes; 5-7 are reserved (Table 10.4). -/
def scopeOf (n : Nat) : Option Scope :=
  match n with
  | 0 => some .core
  | 1 => some .cluster
  | 2 => some .die
  | 3 => some .package
  | 4 => some .fabric
  | _ => none

def scopeCode : Scope → Nat
  | .core => 0
  | .cluster => 1
  | .die => 2
  | .package => 3
  | .fabric => 4

/-- Comparison codes; 6 and 7 are reserved (Table 3.3). -/
def cmpOf (n : Nat) : Option Cmp :=
  match n with
  | 0 => some .eq
  | 1 => some .ne
  | 2 => some .lt
  | 3 => some .ge
  | 4 => some .ltn
  | 5 => some .gen
  | _ => none

def cmpCode : Cmp → Nat
  | .eq => 0
  | .ne => 1
  | .lt => 2
  | .ge => 3
  | .ltn => 4
  | .gen => 5

/-- Integer atomic operations (Table 4.6); 9-15 are undefined. -/
def amoOf (n : Nat) : Option AmoOp :=
  match n with
  | 0 => some .add
  | 1 => some .and
  | 2 => some .or
  | 3 => some .xor
  | 4 => some .min
  | 5 => some .max
  | 6 => some .minn
  | 7 => some .maxn
  | 8 => some .swap
  | _ => none

def amoCode : AmoOp → Nat
  | .add => 0
  | .and => 1
  | .or => 2
  | .xor => 3
  | .min => 4
  | .max => 5
  | .minn => 6
  | .maxn => 7
  | .swap => 8

def famoOf (n : Nat) : Option FamoOp :=
  match n with
  | 0 => some .add
  | 1 => some .min
  | 2 => some .max
  | _ => none

def famoCode : FamoOp → Nat
  | .add => 0
  | .min => 1
  | .max => 2

/-- Rounding modes; 111 is illegal (Table 2.8). -/
def rmOf (n : Nat) : Option Rm :=
  match n with
  | 0 => some .rne
  | 1 => some .rtz
  | 2 => some .rup
  | 3 => some .rdn
  | 4 => some .rna
  | 5 => some .rsr
  | 6 => some .rno
  | _ => none

def rmCode : Rm → Nat
  | .rne => 0
  | .rtz => 1
  | .rup => 2
  | .rdn => 3
  | .rna => 4
  | .rsr => 5
  | .rno => 6

/-- Major 0x00, the ALU group (Table 3.3). -/
def decodeAlu (w : Nat) : Decoded :=
  let d := xAt w 21
  let a := xAt w 16
  let b := xAt w 11
  let one (i : Instr) : Decoded := okIf (bits w 11 5 == 0) i
  match bits w 0 11 with
  | 0x001 => .ok (.add d a b)
  | 0x002 => .ok (.sub d a b)
  | 0x003 => .ok (.mul d a b)
  | 0x004 => .ok (.mulh d a b)
  | 0x005 => .ok (.mulhn d a b)
  | 0x006 => .ok (.div d a b)
  | 0x007 => .ok (.divn d a b)
  | 0x008 => .ok (.rem d a b)
  | 0x009 => .ok (.remn d a b)
  | 0x00A => .ok (.and d a b)
  | 0x00B => .ok (.or d a b)
  | 0x00C => .ok (.xor d a b)
  | 0x00D => .ok (.andn d a b)
  | 0x00E => .ok (.shl d a b)
  | 0x00F => .ok (.shr d a b)
  | 0x010 => .ok (.sra d a b)
  | 0x011 => .ok (.rotl d a b)
  | 0x012 => .ok (.min d a b)
  | 0x013 => .ok (.max d a b)
  | 0x014 => .ok (.minn d a b)
  | 0x015 => .ok (.maxn d a b)
  | 0x016 => .ok (.slt d a b)
  | 0x017 => .ok (.sltn d a b)
  | 0x018 => .ok (.seq d a b)
  | 0x019 => one (.clz d a)
  | 0x01A => one (.ctz d a)
  | 0x01B => one (.popc d a)
  | _ => .undefined

/-- Majors 0x06-0x08: imm16[15:6] must be zero (Table 3.2). -/
def decodeShift (w : Nat) (f : XReg → XReg → BitVec 6 → Instr) : Decoded :=
  okIf (bits w 6 10 == 0) (f (xAt w 21) (xAt w 16) (BitVec.ofNat 6 w))

/-- Majors 0x0C-0x0E: [15:12] zero and pos + width ≤ 64 (Table 3.2). -/
def decodeField (w : Nat) (f : XReg → XReg → BitVec 6 → BitVec 6 → Instr) : Decoded :=
  okIf (bits w 12 4 == 0 && bits w 6 6 + (bits w 0 6 + 1) ≤ 64)
    (f (xAt w 21) (xAt w 16) (BitVec.ofNat 6 (bits w 6 6)) (BitVec.ofNat 6 w))

/-- Major 0x1A: BR and BLR. -/
def decodeBr (w : Nat) : Decoded :=
  let z := bits w 21 5 == 0 && bits w 11 5 == 0
  match bits w 0 11 with
  | 0 => okIf z (.br (xAt w 16))
  | 1 => okIf z (.blr (xAt w 16))
  | _ => .undefined

/-- Major 0x2D: indexed and tile-store access (Table 3.2). -/
def decodeIndexed (w : Nat) : Decoded :=
  let d := xAt w 21
  let a := xAt w 16
  let b := xAt w 11
  let z := sizeOf (bits w 6 2)
  let nat := bits w 5 1 == 1
  let s := BitVec.ofNat 2 (bits w 2 3)
  let low := bits w 0 2 == 0
  match bits w 8 3 with
  | 0 => okIf (low && decide (bits w 2 3 < 4)) (.ldx d a b z nat s)
  | 1 => okIf (low && decide (bits w 2 3 < 4) && !nat) (.stx d a b z s)
  | 2 => okIf (low && bits w 2 3 == 0) (.ldt d a b z nat)
  | 3 => okIf (low && bits w 2 3 == 0 && !nat) (.stt d a b z)
  | _ => .undefined

/-- Major 0x2E: integer atomics (Table 3.2). -/
def decodeAmo (w : Nat) : Decoded :=
  let d := xAt w 21
  let a := xAt w 16
  let b := xAt w 11
  let z := asizeOf (bits w 4 1)
  let low := bits w 0 1 == 0
  match bits w 9 2, scopeOf (bits w 1 3), amoOf (bits w 5 4) with
  | 0, some s, some op => okIf low (.amo d a b op z s)
  | 1, some s, some op => okIf (low && bits w 21 5 == 0) (.amoi a b op z s)
  | 2, some s, _ => okIf (low && bits w 5 4 == 0) (.cas d a b z s)
  | _, _, _ => .undefined

/-- Major 0x2F: floating-point atomics; min and max must carry mode 000 (R134). -/
def decodeFamo (w : Nat) : Decoded :=
  let z := asizeOf (bits w 5 1)
  let reord := bits w 1 1 == 1
  match famoOf (bits w 9 2), rmOf (bits w 6 3), scopeOf (bits w 2 3) with
  | some op, some rm, some s =>
    if op = .add ∨ rm = .rne then
      okIf (bits w 0 1 == 0 && (op == .add || !reord)) (.famo (xAt w 21) (xAt w 16) (xAt w 11) op rm z s reord)
    else .undefined
  | _, _, _ => .undefined

/-- Major 0x30: the system group (Table 4.7). -/
def decodeSystem (w : Nat) : Decoded :=
  let low := bits w 0 1 == 0
  let d0 := bits w 21 5 == 0
  let a0 := bits w 16 5 == 0
  let b0 := bits w 11 5 == 0
  let s0 := bits w 1 3 == 0
  match bits w 4 7 with
  | 0 => okIf (low && d0 && a0 && b0 && s0) .nop
  | 1 => match scopeOf (bits w 1 3) with
    | some s => okIf (low && d0 && a0 && b0) (.fence s)
    | none => .undefined
  | 2 => match scopeOf (bits w 1 3) with
    | some s => okIf (low && d0 && a0 && b0) (.tfence s)
    | none => .undefined
  | 3 => match cmpOf (bits w 1 3) with
    | some c => okIf low (.waita (xAt w 21) (xAt w 16) (xAt w 11) c)
    | none => .undefined
  | 4 => okIf (low && d0 && s0) (.notify (xAt w 16) (xAt w 11))
  | 5 => okIf (low && d0 && a0 && b0 && s0) .trap
  | 6 => okIf (low && d0 && a0 && b0 && s0) .eret
  | 7 => okIf (low && d0 && a0 && b0 && s0) .brk
  | 8 => okIf (low && d0 && a0 && b0 && s0) .yield
  | 9 => okIf (low && d0 && a0 && b0 && s0) .done
  | 10 => okIf (low && a0 && b0 && s0) (.time (xAt w 21))
  | 11 => okIf (low && a0 && b0 && s0) (.tcoord (xAt w 21))
  | _ => .undefined

/-- Major 0x31: SYSR and SYSW, form Y. -/
def decodeSys (w : Nat) : Decoded :=
  match bits w 0 11 with
  | 0 => .ok (.sysr (xAt w 21) (BitVec.ofNat 10 (w >>> 11)))
  | 1 => .ok (.sysw (xAt w 21) (BitVec.ofNat 10 (w >>> 11)))
  | _ => .undefined

/-- Major 0x32: the task group (Table 3.3). -/
def decodeTask (w : Nat) : Decoded :=
  let d := xAt w 21
  let a := xAt w 16
  let b := xAt w 11
  let d0 := bits w 21 5 == 0
  let a0 := bits w 16 5 == 0
  let b0 := bits w 11 5 == 0
  let p0 := bits w 0 6 == 0
  match bits w 6 5 with
  | 0 => okIf (b0 && p0) (.tset d a)
  | 1 => okIf (p0 && decide (bits w 21 5 < 8)) (.treg (Fin.ofNat 8 (w >>> 21)) a b)
  | 2 => okIf (d0 && a0 && b0 && p0) .tclr
  | 3 => okIf (a0 && b0 && p0) (.post d)
  | 4 => okIf (a0 && b0 && p0) (.trypost d)
  | 5 => okIf p0 (.postl d a b)
  | 6 => okIf p0 (.postr d a b)
  | 7 => okIf (d0 && a0 && b0 && bits w 5 1 == 0) (.join (BitVec.ofNat 5 w))
  | 8 => okIf (a0 && b0 && p0) (.gnew d)
  | 9 => okIf (d0 && b0 && p0) (.gok a)
  | 10 => okIf (d0 && b0 && p0) (.gno a)
  | 11 => okIf (d0 && b0) (.setb (Fin.ofNat 64 w) a)
  | 12 => okIf (a0 && b0) (.getb d (Fin.ofNat 64 w))
  | _ => .undefined

/-- Major 0x34: the counter group (Table 5.3). -/
def decodeCounter (w : Nat) : Decoded :=
  let n : CtrNum := Fin.ofNat 256 w
  let d0 := bits w 21 5 == 0
  let a0 := bits w 16 5 == 0
  let b0 := bits w 11 5 == 0
  match bits w 8 3 with
  | 0 => okIf (d0 && b0) (.armc n (xAt w 16))
  | 1 => okIf (d0 && b0) (.armcInit n (xAt w 16))
  | 2 => okIf (d0 && b0) (.arrc n (xAt w 16))
  | 3 => okIf (a0 && b0 && decide (bits w 21 5 < 2)) (.waitc n (bits w 21 5 == 1))
  | 4 => okIf (a0 && b0) (.readc (xAt w 21) n)
  | _ => .undefined

/-- Major 0x35: the group group (Table 5.5). -/
def decodeGroup (w : Nat) : Decoded :=
  let g : GroupNum := Fin.ofNat 256 w
  let d0 := bits w 21 5 == 0
  let a0 := bits w 16 5 == 0
  let b0 := bits w 11 5 == 0
  match bits w 8 3 with
  | 0 => okIf (d0 && a0 && b0) (.gbar g)
  | 1 => okIf (a0 && b0) (.grank (xAt w 21) g)
  | 2 => okIf (a0 && b0) (.gsize (xAt w 21) g)
  | 3 => okIf (a0 && b0 && bits w 0 8 == 0 && decide (bits w 21 5 < 4)) (.prio (BitVec.ofNat 2 (w >>> 21)))
  | _ => .undefined

/-- Major 0x36: the reference group (Table 5.6). -/
def decodeRef (w : Nat) : Decoded :=
  let d0 := bits w 21 5 == 0
  let b0 := bits w 11 5 == 0
  let p0 := bits w 0 6 == 0
  match bits w 6 5 with
  | 0 => okIf (p0 && !hBad w 21 && !hBad w 11) (.cash (hAt w 21) (xAt w 16) (hAt w 11))
  | 1 => okIf (p0 && !hBad w 16 && !hBad w 11) (.refeq (xAt w 21) (hAt w 16) (hAt w 11))
  | 2 => okIf (p0 && b0 && !hBad w 21) (.mkref (hAt w 21) (xAt w 16))
  | 3 => okIf (p0 && b0 && !hBad w 16) (.pin (xAt w 21) (hAt w 16))
  | 4 => okIf (p0 && d0 && b0 && !hBad w 16) (.unpin (hAt w 16))
  | _ => .undefined

/-- Major 0x3B: link-queue instructions (R176). -/
def decodeQueue (w : Nat) : Decoded :=
  let n : QNum := Fin.ofNat 16 w
  let d0 := bits w 21 5 == 0
  let a0 := bits w 16 5 == 0
  let b0 := bits w 11 5 == 0
  let m0 := bits w 4 2 == 0
  match bits w 6 5 with
  | 0 => okIf (d0 && b0 && m0) (.qopen n (xAt w 16))
  | 1 => okIf (d0 && a0 && b0 && m0) (.qclose n)
  | 2 => okIf (a0 && b0 && m0) (.qstat (xAt w 21) n)
  | _ => .undefined

/-- The docent decoder (Table 3.2). -/
def decodeDocent (word : Word32) : Decoded :=
  let w := word.toNat
  let hi := xAt w 21
  let lo := xAt w 16
  let imm := BitVec.ofNat 16 w
  let loZ := bits w 16 5 == 0
  match bits w 26 6 with
  | 0x00 => decodeAlu w
  | 0x01 => okIf (bits w 0 6 == 0) (.sel hi (xAt w 6) lo (xAt w 11))
  | 0x02 => .ok (.addi hi lo imm)
  | 0x03 => .ok (.andi hi lo imm)
  | 0x04 => .ok (.ori hi lo imm)
  | 0x05 => .ok (.xori hi lo imm)
  | 0x06 => decodeShift w .shli
  | 0x07 => decodeShift w .shri
  | 0x08 => decodeShift w .srai
  | 0x09 => .ok (.slti hi lo imm)
  | 0x0A => okIf loZ (.lil hi imm)
  | 0x0B => okIf loZ (.lih hi imm)
  | 0x0C => decodeField w .exts
  | 0x0D => decodeField w .extz
  | 0x0E => decodeField w .insf
  | 0x10 => .ok (.b (BitVec.ofNat 26 w))
  | 0x11 => .ok (.bl (BitVec.ofNat 26 w))
  | 0x12 => .ok (.beq hi lo imm)
  | 0x13 => .ok (.bne hi lo imm)
  | 0x14 => .ok (.blt hi lo imm)
  | 0x15 => .ok (.bge hi lo imm)
  | 0x16 => .ok (.bltn hi lo imm)
  | 0x17 => .ok (.bgen hi lo imm)
  | 0x18 => okIf loZ (.bz hi imm)
  | 0x19 => okIf loZ (.bnz hi imm)
  | 0x1A => decodeBr w
  | 0x20 => .ok (.ldB hi lo imm)
  | 0x21 => .ok (.ldBn hi lo imm)
  | 0x22 => .ok (.ldH hi lo imm)
  | 0x23 => .ok (.ldHn hi lo imm)
  | 0x24 => .ok (.ldW hi lo imm)
  | 0x25 => .ok (.ldWn hi lo imm)
  | 0x26 => .ok (.ldD hi lo imm)
  | 0x28 => .ok (.stB hi lo imm)
  | 0x29 => .ok (.stH hi lo imm)
  | 0x2A => .ok (.stW hi lo imm)
  | 0x2B => .ok (.stD hi lo imm)
  | 0x2C => .ok (.stloc hi lo imm)
  | 0x2D => decodeIndexed w
  | 0x2E => decodeAmo w
  | 0x2F => decodeFamo w
  | 0x30 => decodeSystem w
  | 0x31 => decodeSys w
  | 0x32 => decodeTask w
  | 0x33 => okIf loZ (.tseti hi imm)
  | 0x34 => decodeCounter w
  | 0x35 => decodeGroup w
  | 0x36 => decodeRef w
  | 0x37 => okIf (!hBad w 21) (.ldref (hAt w 21) lo imm)
  | 0x38 => okIf (!hBad w 16) (.stref hi (hAt w 16) imm)
  | 0x39 => okIf (!hBad w 16) (.ldh hi (hAt w 16) imm)
  | 0x3A => okIf (!hBad w 21) (.sth (hAt w 21) lo imm)
  | 0x3B => decodeQueue w
  | 0x3F => .ok (.imx (BitVec.ofNat 26 w))
  | _ => .undefined

/-- Form A (Table 3.1). -/
def formA (major d a b fn : Nat) : Nat := major <<< 26 ||| d <<< 21 ||| a <<< 16 ||| b <<< 11 ||| fn

/-- Forms I and S (Table 3.1): two register fields and imm16. -/
def formI (major r1 r2 imm : Nat) : Nat := major <<< 26 ||| r1 <<< 21 ||| r2 <<< 16 ||| imm

/-- The docent encoder (Table 3.1-Table 3.3). -/
def encodeDocent : Instr → Option Nat
  | .add d a b => some (formA 0x00 d a b 0x001)
  | .sub d a b => some (formA 0x00 d a b 0x002)
  | .mul d a b => some (formA 0x00 d a b 0x003)
  | .mulh d a b => some (formA 0x00 d a b 0x004)
  | .mulhn d a b => some (formA 0x00 d a b 0x005)
  | .div d a b => some (formA 0x00 d a b 0x006)
  | .divn d a b => some (formA 0x00 d a b 0x007)
  | .rem d a b => some (formA 0x00 d a b 0x008)
  | .remn d a b => some (formA 0x00 d a b 0x009)
  | .and d a b => some (formA 0x00 d a b 0x00A)
  | .or d a b => some (formA 0x00 d a b 0x00B)
  | .xor d a b => some (formA 0x00 d a b 0x00C)
  | .andn d a b => some (formA 0x00 d a b 0x00D)
  | .shl d a b => some (formA 0x00 d a b 0x00E)
  | .shr d a b => some (formA 0x00 d a b 0x00F)
  | .sra d a b => some (formA 0x00 d a b 0x010)
  | .rotl d a b => some (formA 0x00 d a b 0x011)
  | .min d a b => some (formA 0x00 d a b 0x012)
  | .max d a b => some (formA 0x00 d a b 0x013)
  | .minn d a b => some (formA 0x00 d a b 0x014)
  | .maxn d a b => some (formA 0x00 d a b 0x015)
  | .slt d a b => some (formA 0x00 d a b 0x016)
  | .sltn d a b => some (formA 0x00 d a b 0x017)
  | .seq d a b => some (formA 0x00 d a b 0x018)
  | .clz d a => some (formA 0x00 d a 0 0x019)
  | .ctz d a => some (formA 0x00 d a 0 0x01A)
  | .popc d a => some (formA 0x00 d a 0 0x01B)
  | .sel d c a b => some (formA 0x01 d a b (c.val <<< 6))
  | .addi d a i => some (formI 0x02 d a i.toNat)
  | .andi d a i => some (formI 0x03 d a i.toNat)
  | .ori d a i => some (formI 0x04 d a i.toNat)
  | .xori d a i => some (formI 0x05 d a i.toNat)
  | .shli d a s => some (formI 0x06 d a s.toNat)
  | .shri d a s => some (formI 0x07 d a s.toNat)
  | .srai d a s => some (formI 0x08 d a s.toNat)
  | .slti d a i => some (formI 0x09 d a i.toNat)
  | .lil d i => some (formI 0x0A d 0 i.toNat)
  | .lih d i => some (formI 0x0B d 0 i.toNat)
  | .exts d a p w => some (formI 0x0C d a (p.toNat <<< 6 ||| w.toNat))
  | .extz d a p w => some (formI 0x0D d a (p.toNat <<< 6 ||| w.toNat))
  | .insf d a p w => some (formI 0x0E d a (p.toNat <<< 6 ||| w.toNat))
  | .b o => some (0x10 <<< 26 ||| o.toNat)
  | .bl o => some (0x11 <<< 26 ||| o.toNat)
  | .beq a b o => some (formI 0x12 a b o.toNat)
  | .bne a b o => some (formI 0x13 a b o.toNat)
  | .blt a b o => some (formI 0x14 a b o.toNat)
  | .bge a b o => some (formI 0x15 a b o.toNat)
  | .bltn a b o => some (formI 0x16 a b o.toNat)
  | .bgen a b o => some (formI 0x17 a b o.toNat)
  | .bz a o => some (formI 0x18 a 0 o.toNat)
  | .bnz a o => some (formI 0x19 a 0 o.toNat)
  | .br a => some (formA 0x1A 0 a 0 0)
  | .blr a => some (formA 0x1A 0 a 0 1)
  | .ldB d a i => some (formI 0x20 d a i.toNat)
  | .ldBn d a i => some (formI 0x21 d a i.toNat)
  | .ldH d a i => some (formI 0x22 d a i.toNat)
  | .ldHn d a i => some (formI 0x23 d a i.toNat)
  | .ldW d a i => some (formI 0x24 d a i.toNat)
  | .ldWn d a i => some (formI 0x25 d a i.toNat)
  | .ldD d a i => some (formI 0x26 d a i.toNat)
  | .stB a b i => some (formI 0x28 a b i.toNat)
  | .stH a b i => some (formI 0x29 a b i.toNat)
  | .stW a b i => some (formI 0x2A a b i.toNat)
  | .stD a b i => some (formI 0x2B a b i.toNat)
  | .stloc a b i => some (formI 0x2C a b i.toNat)
  | .ldx d a b z n s => some (formA 0x2D d a b (0 <<< 8 ||| sizeCode z <<< 6 ||| n.toNat <<< 5 ||| s.toNat <<< 2))
  | .stx d a b z s => some (formA 0x2D d a b (1 <<< 8 ||| sizeCode z <<< 6 ||| s.toNat <<< 2))
  | .ldt d a b z n => some (formA 0x2D d a b (2 <<< 8 ||| sizeCode z <<< 6 ||| n.toNat <<< 5))
  | .stt d a b z => some (formA 0x2D d a b (3 <<< 8 ||| sizeCode z <<< 6))
  | .amo d a b op z s => some (formA 0x2E d a b (amoCode op <<< 5 ||| asizeCode z <<< 4 ||| scopeCode s <<< 1))
  | .amoi a b op z s =>
    some (formA 0x2E 0 a b (1 <<< 9 ||| amoCode op <<< 5 ||| asizeCode z <<< 4 ||| scopeCode s <<< 1))
  | .cas d a b z s => some (formA 0x2E d a b (2 <<< 9 ||| asizeCode z <<< 4 ||| scopeCode s <<< 1))
  | .famo d a b op rm z s r =>
    some (formA 0x2F d a b
      (famoCode op <<< 9 ||| rmCode rm <<< 6 ||| asizeCode z <<< 5 ||| scopeCode s <<< 2 ||| r.toNat <<< 1))
  | .nop => some (formA 0x30 0 0 0 0)
  | .fence s => some (formA 0x30 0 0 0 (1 <<< 4 ||| scopeCode s <<< 1))
  | .tfence s => some (formA 0x30 0 0 0 (2 <<< 4 ||| scopeCode s <<< 1))
  | .waita d a b c => some (formA 0x30 d a b (3 <<< 4 ||| cmpCode c <<< 1))
  | .notify a b => some (formA 0x30 0 a b (4 <<< 4))
  | .trap => some (formA 0x30 0 0 0 (5 <<< 4))
  | .eret => some (formA 0x30 0 0 0 (6 <<< 4))
  | .brk => some (formA 0x30 0 0 0 (7 <<< 4))
  | .yield => some (formA 0x30 0 0 0 (8 <<< 4))
  | .done => some (formA 0x30 0 0 0 (9 <<< 4))
  | .time d => some (formA 0x30 d 0 0 (10 <<< 4))
  | .tcoord d => some (formA 0x30 d 0 0 (11 <<< 4))
  | .sysr d r => some (0x31 <<< 26 ||| d.val <<< 21 ||| r.toNat <<< 11 ||| 0)
  | .sysw d r => some (0x31 <<< 26 ||| d.val <<< 21 ||| r.toNat <<< 11 ||| 1)
  | .tset w a => some (formA 0x32 w a 0 0)
  | .treg n a b => some (formA 0x32 n a b (1 <<< 6))
  | .tclr => some (formA 0x32 0 0 0 (2 <<< 6))
  | .post d => some (formA 0x32 d 0 0 (3 <<< 6))
  | .trypost d => some (formA 0x32 d 0 0 (4 <<< 6))
  | .postl d a b => some (formA 0x32 d a b (5 <<< 6))
  | .postr d a b => some (formA 0x32 d a b (6 <<< 6))
  | .join m => some (formA 0x32 0 0 0 (7 <<< 6 ||| m.toNat))
  | .gnew d => some (formA 0x32 d 0 0 (8 <<< 6))
  | .gok a => some (formA 0x32 0 a 0 (9 <<< 6))
  | .gno a => some (formA 0x32 0 a 0 (10 <<< 6))
  | .setb n a => some (formA 0x32 0 a 0 (11 <<< 6 ||| n))
  | .getb d n => some (formA 0x32 d 0 0 (12 <<< 6 ||| n))
  | .tseti w i => some (formI 0x33 w 0 i.toNat)
  | .armc n a => some (formA 0x34 0 a 0 (0 <<< 8 ||| n))
  | .armcInit n a => some (formA 0x34 0 a 0 (1 <<< 8 ||| n))
  | .arrc n a => some (formA 0x34 0 a 0 (2 <<< 8 ||| n))
  | .waitc n p => some (formA 0x34 p.toNat 0 0 (3 <<< 8 ||| n))
  | .readc d n => some (formA 0x34 d 0 0 (4 <<< 8 ||| n))
  | .gbar g => some (formA 0x35 0 0 0 (0 <<< 8 ||| g))
  | .grank d g => some (formA 0x35 d 0 0 (1 <<< 8 ||| g))
  | .gsize d g => some (formA 0x35 d 0 0 (2 <<< 8 ||| g))
  | .prio c => some (formA 0x35 c.toNat 0 0 (3 <<< 8))
  | .cash d a b => some (formA 0x36 d a b (0 <<< 6))
  | .refeq d a b => some (formA 0x36 d a b (1 <<< 6))
  | .mkref d a => some (formA 0x36 d a 0 (2 <<< 6))
  | .pin d a => some (formA 0x36 d a 0 (3 <<< 6))
  | .unpin a => some (formA 0x36 0 a 0 (4 <<< 6))
  | .ldref d a i => some (formI 0x37 d a i.toNat)
  | .stref a b i => some (formI 0x38 a b i.toNat)
  | .ldh d a i => some (formI 0x39 d a i.toNat)
  | .sth a b i => some (formI 0x3A a b i.toNat)
  | .qopen n a => some (formA 0x3B 0 a 0 (0 <<< 6 ||| n))
  | .qclose n => some (formA 0x3B 0 0 0 (1 <<< 6 ||| n))
  | .qstat d n => some (formA 0x3B d 0 0 (2 <<< 6 ||| n))
  | .imx p => some (0x3F <<< 26 ||| p.toNat)
  | _ => none

/-- The fields of a kernel word (Table 3.4). -/
def vwordOf (w : Nat) : VWord where
  rm := BitVec.ofNat 3 (w >>> 53)
  pred := BitVec.ofNat 3 (w >>> 50)
  type := BitVec.ofNat 5 (w >>> 45)
  dst := BitVec.ofNat 8 (w >>> 37)
  a := BitVec.ofNat 8 (w >>> 29)
  b := BitVec.ofNat 8 (w >>> 21)
  c := BitVec.ofNat 8 (w >>> 13)
  aux := BitVec.ofNat 13 w

/-- The kernel word of an opcode and its fields (Table 3.4). -/
def vwordCode (op : Nat) (f : VWord) : Nat :=
  op <<< 56 ||| f.rm.toNat <<< 53 ||| f.pred.toNat <<< 50 ||| f.type.toNat <<< 45 ||| f.dst.toNat <<< 37
    ||| f.a.toNat <<< 29 ||| f.b.toNat <<< 21 ||| f.c.toNat <<< 13 ||| f.aux.toNat

/-- The vector opcode map (Table 3.7). -/
def vectorOp (op : Nat) (f : VWord) : Option Instr :=
  match op with
  | 0x01 => some (.vadd f)
  | 0x02 => some (.vsub f)
  | 0x03 => some (.vmul f)
  | 0x04 => some (.vfma f)
  | 0x05 => some (.vfms f)
  | 0x06 => some (.vfnma f)
  | 0x07 => some (.vfnms f)
  | 0x08 => some (.vdiv f)
  | 0x09 => some (.vsqrt f)
  | 0x0A => some (.vrcp f)
  | 0x0B => some (.vrsq f)
  | 0x0C => some (.vmin f)
  | 0x0D => some (.vmax f)
  | 0x0E => some (.vminm f)
  | 0x0F => some (.vmaxm f)
  | 0x10 => some (.vabs f)
  | 0x11 => some (.vneg f)
  | 0x12 => some (.vcps f)
  | 0x13 => some (.vscl f)
  | 0x14 => some (.vrnd f)
  | 0x15 => some (.vcls f)
  | 0x16 => some (.vcmp f)
  | 0x20 => some (.vexp f)
  | 0x21 => some (.vexp2 f)
  | 0x22 => some (.vlog f)
  | 0x23 => some (.vlog2 f)
  | 0x24 => some (.vsin f)
  | 0x25 => some (.vcos f)
  | 0x26 => some (.vtanh f)
  | 0x27 => some (.vsigm f)
  | 0x28 => some (.verf f)
  | 0x30 => some (.viadd f)
  | 0x31 => some (.visub f)
  | 0x32 => some (.vimul f)
  | 0x33 => some (.vimulh f)
  | 0x34 => some (.vimad f)
  | 0x35 => some (.vimin f)
  | 0x36 => some (.vimax f)
  | 0x37 => some (.viabs f)
  | 0x38 => some (.vshl f)
  | 0x39 => some (.vshr f)
  | 0x3A => some (.vsra f)
  | 0x3B => some (.vand f)
  | 0x3C => some (.vor f)
  | 0x3D => some (.vxor f)
  | 0x3E => some (.vnot f)
  | 0x40 => some (.vmov f)
  | 0x41 => some (.vbcast f)
  | 0x42 => some (.vld f)
  | 0x43 => some (.vst f)
  | 0x44 => some (.vldl f)
  | 0x45 => some (.vstl f)
  | 0x46 => some (.vgath f)
  | 0x47 => some (.vscat f)
  | 0x48 => some (.vtrn f)
  | 0x50 => some (.vredr f)
  | 0x51 => some (.vredc f)
  | 0x52 => some (.vscan f)
  | 0x58 => some (.vcvt f)
  | 0x59 => some (.vpack f)
  | 0x5A => some (.vunpk f)
  | 0x5B => some (.vqnt f)
  | 0x5C => some (.vsel f)
  | 0x60 => some (.pand f)
  | 0x61 => some (.por f)
  | 0x62 => some (.pxor f)
  | 0x63 => some (.pnot f)
  | 0x64 => some (.pset f)
  | 0x70 => some (.vshape f)
  | 0x71 => some (.loop f)
  | 0x72 => some (.rot f)
  | 0x73 => some (.vsets f)
  | 0x74 => some (.vdone f)
  | _ => none

/-- The kernel decoder (R81, R83). -/
def decodeKernel (w : Word) : Option Instr := vectorOp (bits w.toNat 56 8) (vwordOf w.toNat)

/-- The opcode and fields of a kernel instruction (Table 3.7). -/
def kernelFields : Instr → Option (Nat × VWord)
  | .vadd f => some (0x01, f)
  | .vsub f => some (0x02, f)
  | .vmul f => some (0x03, f)
  | .vfma f => some (0x04, f)
  | .vfms f => some (0x05, f)
  | .vfnma f => some (0x06, f)
  | .vfnms f => some (0x07, f)
  | .vdiv f => some (0x08, f)
  | .vsqrt f => some (0x09, f)
  | .vrcp f => some (0x0A, f)
  | .vrsq f => some (0x0B, f)
  | .vmin f => some (0x0C, f)
  | .vmax f => some (0x0D, f)
  | .vminm f => some (0x0E, f)
  | .vmaxm f => some (0x0F, f)
  | .vabs f => some (0x10, f)
  | .vneg f => some (0x11, f)
  | .vcps f => some (0x12, f)
  | .vscl f => some (0x13, f)
  | .vrnd f => some (0x14, f)
  | .vcls f => some (0x15, f)
  | .vcmp f => some (0x16, f)
  | .vexp f => some (0x20, f)
  | .vexp2 f => some (0x21, f)
  | .vlog f => some (0x22, f)
  | .vlog2 f => some (0x23, f)
  | .vsin f => some (0x24, f)
  | .vcos f => some (0x25, f)
  | .vtanh f => some (0x26, f)
  | .vsigm f => some (0x27, f)
  | .verf f => some (0x28, f)
  | .viadd f => some (0x30, f)
  | .visub f => some (0x31, f)
  | .vimul f => some (0x32, f)
  | .vimulh f => some (0x33, f)
  | .vimad f => some (0x34, f)
  | .vimin f => some (0x35, f)
  | .vimax f => some (0x36, f)
  | .viabs f => some (0x37, f)
  | .vshl f => some (0x38, f)
  | .vshr f => some (0x39, f)
  | .vsra f => some (0x3A, f)
  | .vand f => some (0x3B, f)
  | .vor f => some (0x3C, f)
  | .vxor f => some (0x3D, f)
  | .vnot f => some (0x3E, f)
  | .vmov f => some (0x40, f)
  | .vbcast f => some (0x41, f)
  | .vld f => some (0x42, f)
  | .vst f => some (0x43, f)
  | .vldl f => some (0x44, f)
  | .vstl f => some (0x45, f)
  | .vgath f => some (0x46, f)
  | .vscat f => some (0x47, f)
  | .vtrn f => some (0x48, f)
  | .vredr f => some (0x50, f)
  | .vredc f => some (0x51, f)
  | .vscan f => some (0x52, f)
  | .vcvt f => some (0x58, f)
  | .vpack f => some (0x59, f)
  | .vunpk f => some (0x5A, f)
  | .vqnt f => some (0x5B, f)
  | .vsel f => some (0x5C, f)
  | .pand f => some (0x60, f)
  | .por f => some (0x61, f)
  | .pxor f => some (0x62, f)
  | .pnot f => some (0x63, f)
  | .pset f => some (0x64, f)
  | .vshape f => some (0x70, f)
  | .loop f => some (0x71, f)
  | .rot f => some (0x72, f)
  | .vsets f => some (0x73, f)
  | .vdone f => some (0x74, f)
  | _ => none

/-- The kernel encoder. -/
def encodeKernel (i : Instr) : Option Nat := (kernelFields i).map fun p => vwordCode p.1 p.2

/-- The fields of an engine record, read as one 512-bit number (R73, R86-R88). -/
def recOf (v : Nat) : Rec where
  fa := BitVec.ofNat 5 (v >>> 51)
  fb := BitVec.ofNat 5 (v >>> 46)
  fc := BitVec.ofNat 5 (v >>> 41)
  rm := BitVec.ofNat 3 (v >>> 38)
  cb := bits v 37 1 == 1
  ce := bits v 36 1 == 1
  ord := bits v 35 1 == 1
  sat := bits v 34 1 == 1
  sa := bits v 33 1 == 1
  sb := bits v 32 1 == 1
  spec := BitVec.ofNat 32 v
  trips := BitVec.ofNat 64 (v >>> 64)
  a := BitVec.ofNat 112 (v >>> 128)
  b := BitVec.ofNat 112 (v >>> 240)
  c := BitVec.ofNat 112 (v >>> 352)
  tail := BitVec.ofNat 48 (v >>> 464)

/-- The 512 bits of a record (R86-R88). -/
def recCode (op : Nat) (r : Rec) : Nat :=
  op <<< 56 ||| r.fa.toNat <<< 51 ||| r.fb.toNat <<< 46 ||| r.fc.toNat <<< 41 ||| r.rm.toNat <<< 38
    ||| r.cb.toNat <<< 37 ||| r.ce.toNat <<< 36 ||| r.ord.toNat <<< 35 ||| r.sat.toNat <<< 34 ||| r.sa.toNat <<< 33
    ||| r.sb.toNat <<< 32 ||| r.spec.toNat ||| r.trips.toNat <<< 64 ||| r.a.toNat <<< 128 ||| r.b.toNat <<< 240
    ||| r.c.toNat <<< 352 ||| r.tail.toNat <<< 464

/-- The engine opcode map (Table 3.9). -/
def engineOp (op : Nat) (r : Rec) : Option Instr :=
  match op with
  | 0x10 => some (.mma r)
  | 0x11 => some (.dmma r)
  | 0x12 => some (.mzero r)
  | 0x13 => some (.mldc r)
  | 0x14 => some (.mdrain r)
  | 0x20 => some (.trn r)
  | 0x30 => some (.cpy r)
  | 0x31 => some (.cpyx r)
  | 0x32 => some (.ring r)
  | 0x33 => some (.mcast r)
  | 0x34 => some (.fill r)
  | 0x35 => some (.cpya r)
  | 0x36 => some (.cpyq r)
  | 0x37 => some (.ldbnd r)
  | 0x38 => some (.scanref r)
  | 0x39 => some (.reloc r)
  | _ => none

/-- The record decoder. -/
def decodeRecord (v : Nat) : Option Instr := engineOp (bits v 56 8) (recOf v)

/-- The opcode and fields of an engine record (Table 3.9). -/
def recordFields : Instr → Option (Nat × Rec)
  | .mma r => some (0x10, r)
  | .dmma r => some (0x11, r)
  | .mzero r => some (0x12, r)
  | .mldc r => some (0x13, r)
  | .mdrain r => some (0x14, r)
  | .trn r => some (0x20, r)
  | .cpy r => some (0x30, r)
  | .cpyx r => some (0x31, r)
  | .ring r => some (0x32, r)
  | .mcast r => some (0x33, r)
  | .fill r => some (0x34, r)
  | .cpya r => some (0x35, r)
  | .cpyq r => some (0x36, r)
  | .ldbnd r => some (0x37, r)
  | .scanref r => some (0x38, r)
  | .reloc r => some (0x39, r)
  | _ => none

/-- The record encoder. -/
def encodeRecord (i : Instr) : Option Nat := (recordFields i).map fun p => recCode p.1 p.2

/-- The command map (Table 14.3). -/
def commandOp (op : Nat) : Option Instr :=
  match op with
  | 0x01 => some .restore
  | 0x02 => some .save
  | 0x03 => some .quiesce
  | 0x04 => some .resetPart
  | 0x05 => some .signal
  | 0x06 => some .write
  | 0x07 => some .fenceCommand
  | 0x08 => some .link
  | 0x09 => some .replay
  | 0x0A => some .timebase
  | 0x0B => some .tagload
  | 0x0C => some .partcfg
  | _ => none

/-- The operands of a command packet, its two words read as one number (R398). -/
def cmdOf (q : CmdQ) (v : Nat) : Cmd :=
  ⟨q, bits v 8 1 == 1, BitVec.ofNat 16 (v >>> 16), BitVec.ofNat 32 (v >>> 32), BitVec.ofNat 64 (v >>> 64)⟩

/-- The command of a packet (R398). -/
def decodeCommand (v : Nat) : Option Instr := commandOp (bits v 0 8)

/-- The opcode of a command (Table 14.3). -/
def commandCode : Instr → Option Nat
  | .restore => some 0x01
  | .save => some 0x02
  | .quiesce => some 0x03
  | .resetPart => some 0x04
  | .signal => some 0x05
  | .write => some 0x06
  | .fenceCommand => some 0x07
  | .link => some 0x08
  | .replay => some 0x09
  | .timebase => some 0x0A
  | .tagload => some 0x0B
  | .partcfg => some 0x0C
  | _ => none

/-- The two words of a command packet as one number (R398). -/
def encodeCommand (op : Nat) (c : Cmd) : Nat :=
  op ||| c.irq.toNat <<< 8 ||| c.a.toNat <<< 16 ||| c.b.toNat <<< 32 ||| c.c.toNat <<< 64

/-- The encoded form of an instruction: how many bits, and the bits as a number (R73, R398); a command with no
operands. Steps that are no word of a program have none. -/
def encode (i : Instr) : Option (Nat × Nat) :=
  match encodeDocent i, encodeKernel i, encodeRecord i, commandCode i with
  | some w, _, _, _ => some (32, w)
  | none, some w, _, _ => some (64, w)
  | none, none, some w, _ => some (512, w)
  | none, none, none, some w => some (128, w)
  | none, none, none, none => none

/-- The instruction whose bits, numbered as the opcode table numbers them, are `w`. -/
def decodeTableWord (nbits w : Nat) : Option Instr :=
  if nbits ≤ 32 then
    match decodeDocent (BitVec.ofNat 32 w) with
    | .ok i => some i
    | .undefined => none
    | .reserved => none
  else if nbits ≤ 64 then decodeKernel (BitVec.ofNat 64 w)
  else if nbits ≤ 128 then decodeCommand w
  else decodeRecord w

/-! ### The load checks of a kernel word (R84) -/

/-- V0-V47 (Table 3.6). -/
def specV (s : BitVec 8) : Bool := decide (s.toNat < 48)

/-- W0-W15. -/
def specW (s : BitVec 8) : Bool := s.toNat / 16 == 4

/-- L0-L15 with either axis. -/
def specL (s : BitVec 8) : Bool := s.toNat / 16 == 8 || s.toNat / 16 == 10

/-- L0-L15 with axis 0. -/
def specL0 (s : BitVec 8) : Bool := s.toNat / 16 == 8

/-- S0-S15. -/
def specS (s : BitVec 8) : Bool := s.toNat / 16 == 13

/-- V, W or Z. -/
def specTile (s : BitVec 8) : Bool := specV s || specW s || s == 0xC0#8

/-- Any legal specifier. -/
def specAny (s : BitVec 8) : Bool := specTile s || specL s || specS s || s == 0xC1#8

/-- An operand the instruction does not use. -/
def specNone (s : BitVec 8) : Bool := s == 0#8

/-- P0-P7 as a predicate instruction names it (R234). -/
def specP (s : BitVec 8) : Bool := decide (s.toNat < 8)

/-- f64, f32, bf16, f16. -/
def typeFloat (t : BitVec 5) : Bool := decide (t.toNat < 4)

/-- The integer types of Table 6.9. -/
def typeInt (t : BitVec 5) : Bool := (decide (9 ≤ t.toNat) && decide (t.toNat ≤ 12)) || (decide (17 ≤ t.toNat) && decide (t.toNat ≤ 20))

/-- The types of 8 bits or wider (R220). -/
def typeByte (t : BitVec 5) : Bool := decide (t.toNat < 6) || typeInt t

/-- A rounding mode 000-110. -/
def rmAny (m : BitVec 3) : Bool := m != 7#3

/-- Only the AUX bits of `mask` may be set. -/
def auxIn (f : VWord) (mask : BitVec 13) : Bool := f.aux &&& ~~~mask == 0#13

/-- AUX[12:11], the space of a storage instruction (R212), is not 11. -/
def spaceOk (f : VWord) : Bool := bits f.aux.toNat 11 2 != 3

/-- Operand b of a storage instruction: the stride register in space mem, otherwise unused (R212). -/
def strideOk (f : VWord) : Bool := if bits f.aux.toNat 11 2 == 2 then specS f.b else specNone f.b

/-- The checks of an arithmetic instruction with one, two or three operands (R183, R191). -/
def arithOk (f : VWord) (ty : Bool) (rm : Bool) (n : Nat) (mask : BitVec 13) : Bool :=
  ty && rm && specTile f.dst && specAny f.a && (if n ≥ 2 then specAny f.b else specNone f.b)
    && (if n ≥ 3 then specAny f.c else specNone f.c) && auxIn f mask

/-- PRED, RM and TYPE zero (R234, R236). -/
def controlOk (f : VWord) : Bool := f.pred == 0#3 && f.rm == 0#3 && f.type == 0#5

/-- The 34-bit immediate of VSETS (Table 7.10). -/
def vsetsImm (f : VWord) : Nat :=
  f.a.toNat <<< 26 ||| f.b.toNat <<< 18 ||| f.c.toNat <<< 10 ||| bits f.aux.toNat 0 10

/-- The checks that R84 makes of one word as a kernel is loaded. SAT of VREDR, VREDC and VSCAN passes with min and max too,
and with a floating-point amax, where R226 gives it nothing to select (DEDUCED, log 63). -/
def kernelOk : Instr → Bool
  | .vadd f | .vsub f | .vmul f | .vdiv f | .vscl f => arithOk f (typeFloat f.type) (rmAny f.rm) 2 1#13
  | .vfma f | .vfms f | .vfnma f | .vfnms f => arithOk f (typeFloat f.type) (rmAny f.rm) 3 1#13
  | .vsqrt f | .vrsq f => arithOk f (typeFloat f.type) (rmAny f.rm) 1 0#13
  | .vrcp f | .vrnd f => arithOk f (typeFloat f.type) (rmAny f.rm) 1 1#13
  | .vmin f | .vmax f | .vminm f | .vmaxm f => arithOk f (typeFloat f.type) (f.rm == 0#3) 2 2#13
  | .vabs f | .vneg f => arithOk f (typeFloat f.type) (f.rm == 0#3) 1 0#13
  | .vcps f => arithOk f (typeFloat f.type) (f.rm == 0#3) 2 0#13
  | .vcls f => typeFloat f.type && f.rm == 0#3 && specNone f.dst && specAny f.a && specNone f.b && specNone f.c
  | .vcmp f => (typeFloat f.type || typeInt f.type) && f.rm == 0#3 && specNone f.dst && specAny f.a && specAny f.b
      && specNone f.c && auxIn f 0x3F#13
  | .vexp f | .vexp2 f | .vlog f | .vlog2 f | .vsin f | .vcos f | .vtanh f | .vsigm f | .verf f =>
      arithOk f (typeFloat f.type) (rmAny f.rm) 1 1#13
  | .viadd f | .visub f | .vimul f | .vshl f => arithOk f (typeInt f.type) (f.rm == 0#3) 2 1#13
  | .vimad f => arithOk f (typeInt f.type) (f.rm == 0#3) 3 1#13
  | .vimulh f | .vimin f | .vimax f | .vshr f | .vsra f | .vand f | .vor f | .vxor f =>
      arithOk f (typeInt f.type) (f.rm == 0#3) 2 0#13
  | .viabs f => arithOk f (typeInt f.type && decide (f.type.toNat < 16)) (f.rm == 0#3) 1 1#13
  | .vnot f => arithOk f (typeInt f.type) (f.rm == 0#3) 1 0#13
  | .vmov f => arithOk f (typeByte f.type) (f.rm == 0#3) 1 0#13
  | .vbcast f => typeByte f.type && f.rm == 0#3 && specTile f.dst && specTile f.a && specS f.b && specNone f.c
      && auxIn f 3#13 && bits f.aux.toNat 0 2 != 3
  | .vtrn f => typeByte f.type && f.rm == 0#3 && specTile f.dst && specTile f.a && specNone f.b && specNone f.c
      && auxIn f 0#13
  | .vsel f => arithOk f (typeByte f.type) (f.rm == 0#3) 2 0#13
  | .vld f => typeByte f.type && rmAny f.rm && specTile f.dst && specS f.a && strideOk f && specNone f.c && spaceOk f
      && auxIn f 0x1801#13
  | .vst f => typeByte f.type && f.rm == 0#3 && specNone f.dst && specS f.a && strideOk f && specTile f.c && spaceOk f
      && auxIn f 0x1800#13
  | .vldl f => typeByte f.type && rmAny f.rm && specL f.dst && specS f.a && specNone f.b && specNone f.c && spaceOk f
      && auxIn f 0x1801#13
  | .vstl f => typeByte f.type && f.rm == 0#3 && specNone f.dst && specS f.a && specNone f.b && specL f.c && spaceOk f
      && auxIn f 0x1800#13
  | .vgath f => typeByte f.type && rmAny f.rm && specTile f.dst && specS f.a && specTile f.b && specNone f.c
      && spaceOk f && auxIn f 0x1801#13
  | .vscat f => typeByte f.type && f.rm == 0#3 && specNone f.dst && specS f.a && specTile f.b && specTile f.c
      && spaceOk f && auxIn f 0x1800#13
  | .vredr f | .vredc f => (typeFloat f.type || typeInt f.type) && specL0 f.dst && specTile f.a && specNone f.b
      && specNone f.c && auxIn f 0xF#13 && reduceOk f
  | .vscan f => (typeFloat f.type || typeInt f.type) && specTile f.dst && specTile f.a
      && (if bits f.aux.toNat 6 1 == 1 then specL0 f.b else specNone f.b) && specNone f.c && auxIn f 0x7F#13
      && reduceOk f
  | .vcvt f => typeByte f.type && typeByte (BitVec.ofNat 5 f.aux.toNat) && specTile f.dst && specAny f.a
      && specNone f.b && specNone f.c && auxIn f 0x3F#13
      && (if typeInt f.type && typeInt (BitVec.ofNat 5 f.aux.toNat) then f.rm == 0#3 else rmAny f.rm)
  | .vpack f => [0x02, 0x03, 0x04, 0x05, 0x06, 0x09, 0x11].contains f.type.toNat && rmAny f.rm && specNone f.dst
      && specS f.a && strideOk f && specTile f.c && spaceOk f && bits f.aux.toNat 0 1 == 0
      && (bits f.aux.toNat 8 2 == 0 || f.type == 0x06#5)
      && (if bits f.aux.toNat 10 1 == 1 then decide (bits f.aux.toNat 1 6 < 63) else bits f.aux.toNat 1 6 == 0)
  | .vunpk f => typeFloat f.type && rmAny f.rm && specTile f.dst && specS f.a && strideOk f && specNone f.c
      && spaceOk f && bits f.aux.toNat 9 2 != 3 && auxIn f 0x1E01#13
  | .vqnt f => [0x02, 0x03, 0x04, 0x05, 0x09, 0x0A, 0x0B, 0x11, 0x12, 0x13].contains f.type.toNat && rmAny f.rm
      && specTile f.dst && specAny f.a && specAny f.b && specAny f.c && auxIn f 3#13
  | .pand f | .por f | .pxor f => controlOk f && specP f.dst && specP f.a && specP f.b && specNone f.c && auxIn f 0#13
  | .pnot f => controlOk f && specP f.dst && specP f.a && specNone f.b && specNone f.c && auxIn f 0#13
  | .pset f => controlOk f && specP f.dst && specNone f.b && specNone f.c && auxIn f 7#13
      && decide (f.aux.toNat < 6) && (if f.aux.toNat < 2 then specNone f.a else specS f.a)
  | .vshape f => controlOk f && specNone f.dst && specS f.a && specNone f.b && specNone f.c && auxIn f 0#13
  | .loop f => controlOk f && specNone f.dst && bits f.aux.toNat 8 1 == 0
      && (if bits f.aux.toNat 12 1 == 1 then specNone f.a else specS f.a && specNone f.b && specNone f.c)
  | .rot f => controlOk f && specNone f.dst && specNone f.a && specNone f.b && specNone f.c && auxIn f 0x7F#13
      && decide (bits f.aux.toNat 0 6 < 48)
  | .vsets f => controlOk f && specS f.dst
      && (match bits f.aux.toNat 10 3 with
        | 0 => true
        | 1 => vsetsImm f >>> 30 == 0
        | 2 => true
        | 3 => decide (vsetsImm f < 3)
        | 4 => vsetsImm f == 0
        | 5 => vsetsImm f == 0
        | _ => false)
  | .vdone f => controlOk f && specNone f.dst && specNone f.a && specNone f.b && specNone f.c && auxIn f 0#13
  | _ => false
where
  /-- NUM only for a floating min, max or amax, and a rounding mode only for a floating sum (R226). -/
  reduceOk (f : VWord) : Bool :=
    let op := bits f.aux.toNat 0 2
    (bits f.aux.toNat 2 1 == 0 || (typeFloat f.type && op != 0))
      && (if typeFloat f.type && op == 0 then rmAny f.rm else f.rm == 0#3)

end Sys2Proof
end

