-- ==== Sys2Proof/Machine/Bits.lean ====
section
/-! DEFINITION. Bit, byte and list helpers: byte order (R45), CRC-32C (R37), and the generator of R62. -/

namespace Sys2Proof.Machine

/-- The `n` bytes of `v`, lowest first (R45). -/
def bytesOf : Nat → Nat → List Byte
  | 0, _ => []
  | n + 1, v => BitVec.ofNat 8 v :: bytesOf n (v / 256)

/-- The number whose bytes, lowest first, are given (R45). -/
def ofBytes : List Byte → Nat
  | [] => 0
  | b :: r => b.toNat + 256 * ofBytes r

/-- `n` little-endian codes of `b` bytes each. -/
def codesOf (b : Nat) : Nat → List Byte → List Nat
  | 0, _ => []
  | n + 1, l => ofBytes (l.take b) :: codesOf b n (l.drop b)

/-- The bytes of codes of `b` bytes each. -/
def bytesOfCodes (b : Nat) (l : List Nat) : List Byte := (l.map (bytesOf b)).flatten

/-- A word of the first eight bytes. -/
def wordOf (l : List Byte) : Word := BitVec.ofNat 64 (ofBytes (l.take 8))

/-- Element `i` of a packed array of `w`-bit elements (R45). -/
def element (l : List Byte) (w i : Nat) : Nat :=
  if w = 4 then (ofBytes ((l.drop (i / 2)).take 1) >>> (4 * (i % 2))) % 16
  else ofBytes ((l.drop (i * (w / 8))).take (w / 8))

/-- The elements of a packed array, in order. -/
def elements (l : List Byte) (w : Nat) : List Nat :=
  (List.range (l.length * 8 / w)).map (element l w)

/-- Elements packed into bytes (R45). -/
def pack (w : Nat) : List Nat → List Byte
  | [] => []
  | a :: r =>
    if w = 4 then
      match r with
      | [] => [BitVec.ofNat 8 (a % 16)]
      | b :: r' => BitVec.ofNat 8 (a % 16 + 16 * (b % 16)) :: pack w r'
    else bytesOf (w / 8) a ++ pack w r

/-- One bit of the reflected CRC-32C register, polynomial 0x82F63B78. -/
def crcBit (c : Nat) : Nat := if c % 2 = 1 then (c / 2) ^^^ 0x82F63B78 else c / 2

/-- One byte of it. -/
def crcByte (c : Nat) (b : Byte) : Nat :=
  crcBit (crcBit (crcBit (crcBit (crcBit (crcBit (crcBit (crcBit (c ^^^ b.toNat))))))))

/-- CRC-32C of a byte string. -/
def crc32c (l : List Byte) : Nat := (l.foldl crcByte 0xFFFFFFFF) ^^^ 0xFFFFFFFF

/-- R62. -/
def mix32 (z : BitVec 32) : BitVec 32 :=
  let z := (z ^^^ (z >>> 16)) * 0x7FEB352D#32
  let z := (z ^^^ (z >>> 15)) * 0x846CA68B#32
  z ^^^ (z >>> 16)

/-- R62. -/
def rand32 (key x y : BitVec 32) : BitVec 32 := mix32 (key ^^^ mix32 (x ^^^ mix32 y))

/-- The key of a seed and a coordinate (R62). -/
def randKey (sd : Word) (i j k : Nat) : BitVec 32 :=
  mix32 (sd.truncate 32
    ^^^ mix32 ((sd >>> 32).truncate 32 ^^^ mix32 (BitVec.ofNat 32 k ^^^ mix32 (BitVec.ofNat 32 (i + 65536 * j)))))

/-- Number of set bits of the `n` low bits. -/
def popNat : Nat → Nat → Nat
  | 0, _ => 0
  | n + 1, v => v % 2 + popNat n (v / 2)

/-- The set bits below `n`, ascending. -/
def setBits (n v : Nat) : List Nat := (List.range n).filter v.testBit

/-- A value read as a signed number of `w` bits. -/
def signed (w v : Nat) : Int := if v < 2 ^ (w - 1) then v else (v : Int) - 2 ^ w

/-- A number reduced to `w` bits. -/
def wrapTo (w : Nat) (v : Int) : Nat := (v % (2 ^ w : Nat)).toNat

/-- `l` with element `i` replaced. -/
def listSet {α : Type} : List α → Nat → α → List α
  | [], _, _ => []
  | _ :: r, 0, v => v :: r
  | a :: r, n + 1, v => a :: listSet r n v

/-- Association list: the value of a key. -/
def lookupKey {α : Type} (l : List (Nat × α)) (k : Nat) : Option α := (l.find? fun p => p.1 == k).map (·.2)

/-- The least element that satisfies `p`. -/
def firstFin {n : Nat} (p : Fin n → Bool) : Option (Fin n) := (List.finRange n).find? p

/-- Rounds up to a multiple. -/
def roundUp (n m : Nat) : Nat := (n + m - 1) / m * m

end Sys2Proof.Machine
end

