-- ==== Sys2Proof/Machine/Numbers.lean ====
section
/-! DEFINITION. Number formats and the helpers of Table 2.12: decoding, RoundTo, exact sums and products, Fma and
ExactStep (R45-R72). A value is exact: a NaN, an infinity, or ± m × 2^e. -/

namespace Sys2Proof.Machine

/-- An exact value. A NaN's payload is left-aligned at 51 bits (R48, R63); a zero keeps its sign. -/
inductive Val where
  | nan (neg signalling : Bool) (payload : Nat)
  | inf (neg : Bool)
  | fin (neg : Bool) (m : Nat) (e : Int)
  deriving DecidableEq, Repr

/-- Sticky flags (R43): [0] invalid, [1] divide by zero, [2] overflow, [3] underflow, [4] inexact. -/
abbrev Sticky := BitVec 5

def invalidFlag : Sticky := 1
def divZeroFlag : Sticky := 2
def overflowFlag : Sticky := 4
def underflowFlag : Sticky := 8
def inexactFlag : Sticky := 16

/-- A value with the flags its formation raises. -/
structure Valued where
  val : Val
  flags : Sticky
  deriving DecidableEq, Repr

/-- A code with the flags its formation raises. -/
structure Coded where
  code : Nat
  flags : Sticky
  deriving DecidableEq, Repr

/-- Floating-point formats (Table 2.2). -/
inductive Fl where
  | f64 | f32 | bf16 | f16 | e4m3 | e5m2
  deriving DecidableEq, Repr

/-- Fraction bits. -/
def Fl.p : Fl → Nat
  | .f64 => 52
  | .f32 => 23
  | .bf16 => 7
  | .f16 => 10
  | .e4m3 => 3
  | .e5m2 => 2

/-- Exponent bits. -/
def Fl.ebits : Fl → Nat
  | .f64 => 11
  | .f32 => 8
  | .bf16 => 8
  | .f16 => 5
  | .e4m3 => 4
  | .e5m2 => 5

def Fl.bias (f : Fl) : Nat := 2 ^ (f.ebits - 1) - 1

/-- Width in bits. -/
def Fl.width (f : Fl) : Nat := 1 + f.ebits + f.p

/-- The exponent field's top code. -/
def Fl.top (f : Fl) : Nat := 2 ^ f.ebits - 1

/-- The code without its sign of the largest finite value. -/
def Fl.maxCode (f : Fl) : Nat := if f = .e4m3 then 0x7E else f.top <<< f.p - 1

/-- The code without its sign of +∞. -/
def Fl.infCode (f : Fl) : Nat := f.top <<< f.p

/-- The sign bit. -/
def Fl.signBit (f : Fl) (neg : Bool) : Nat := if neg then 1 <<< (f.width - 1) else 0

/-- Canon(F) (R61). -/
def Fl.canon (f : Fl) : Nat := if f = .e4m3 then 0x7F else f.infCode ||| 1 <<< (f.p - 1)

/-- The value of a code (R48). -/
def Fl.decode (f : Fl) (code : Nat) : Val :=
  let neg := code.testBit (f.width - 1)
  let e := (code >>> f.p) % 2 ^ f.ebits
  let m := code % 2 ^ f.p
  if f = .e4m3 ∧ e = 15 ∧ m = 7 then .nan neg false 0
  else if f ≠ .e4m3 ∧ e = f.top then
    if m = 0 then .inf neg
    else .nan neg (!m.testBit (f.p - 1)) ((m % 2 ^ (f.p - 1)) <<< (51 - (f.p - 1)))
  else if e = 0 then .fin neg m (1 - f.bias - f.p)
  else .fin neg (2 ^ f.p + m) (e - f.bias - f.p)

/-- The quiet NaN code of a sign and payload (R63). -/
def Fl.nanCode (f : Fl) (neg : Bool) (payload : Nat) : Nat :=
  f.signBit neg ||| (if f = .e4m3 then 0x7F else f.canon ||| payload >>> (51 - (f.p - 1)))

/-- The integer n that `rm` chooses for n + rem / 2^sh, of the sign given (Table 2.8). `draw` is Rand32 (R62). -/
def chooses (rm : Rm) (neg : Bool) (draw n rem sh : Nat) : Nat :=
  if rem = 0 then n else
  match rm with
  | .rne => if 2 * rem > 2 ^ sh ∨ (2 * rem = 2 ^ sh ∧ n % 2 = 1) then n + 1 else n
  | .rtz => n
  | .rup => if neg then n else n + 1
  | .rdn => if neg then n + 1 else n
  | .rna => if 2 * rem ≥ 2 ^ sh then n + 1 else n
  | .rsr => if draw < rem <<< 32 >>> sh then n + 1 else n
  | .rno => if n % 2 = 1 then n else n + 1

/-- m × 2^e rounded to a multiple of 2^q: the multiple, and whether it is exact. -/
def roundAt (rm : Rm) (neg : Bool) (draw m : Nat) (e q : Int) : Nat × Bool :=
  if e ≥ q then (m <<< (e - q).toNat, true)
  else
    let sh := (q - e).toNat
    (chooses rm neg draw (m >>> sh) (m % 2 ^ sh) sh, m % 2 ^ sh == 0)

/-- n × 2^q with n ≤ 2^(p+1), as an exponent and fraction code; `q` is at least the format's subnormal step. -/
def Fl.magnitude (f : Fl) (n : Nat) (q : Int) : Nat :=
  if n < 2 ^ f.p then n
  else if n = 2 ^ (f.p + 1) then (q + 1 + f.p + f.bias).toNat <<< f.p
  else (q + f.p + f.bias).toNat <<< f.p + (n - 2 ^ f.p)

/-- Table 2.9: the code of an overflow, without sign. -/
def Fl.overflowCode (f : Fl) (sat : Bool) (rm : Rm) (neg : Bool) : Nat :=
  let away := if f = .e4m3 then 0x7F else f.infCode
  if sat then f.maxCode
  else match rm with
    | .rne => away
    | .rna => away
    | .rsr => away
    | .rtz => f.maxCode
    | .rno => f.maxCode
    | .rup => if neg then f.maxCode else away
    | .rdn => if neg then away else f.maxCode

/-- RoundTo(F, rm, v) and, with `sat`, RoundTo(F.sat, rm, v) (R59). -/
def Fl.round (f : Fl) (sat : Bool) (rm : Rm) (draw : Nat) : Val → Coded
  | .nan neg sig pay => ⟨f.nanCode neg pay, if sig then invalidFlag else 0⟩
  | .inf neg =>
    if f = .e4m3 then ⟨f.signBit neg ||| 0x7F, invalidFlag⟩ else ⟨f.signBit neg ||| f.infCode, 0⟩
  | .fin neg m e =>
    if m = 0 then ⟨f.signBit neg, 0⟩
    else
      let lead : Int := (Nat.log2 m : Nat) + e
      let emin : Int := 1 - f.bias
      let q := max lead emin - f.p
      let r := roundAt rm neg draw m e q
      let isOver := decide (q + f.p + f.bias > f.top) || decide (f.magnitude r.1 q > f.maxCode)
      if isOver then ⟨f.signBit neg ||| f.overflowCode sat rm neg, overflowFlag ||| inexactFlag⟩
      else
        let t := roundAt rm neg draw m e (lead - f.p)
        let tiny := decide (lead < emin) && !(t.1 == 2 ^ (f.p + 1) && lead + 1 == emin)
        ⟨f.signBit neg ||| f.magnitude r.1 q,
          (if r.2 then 0 else inexactFlag) ||| (if !r.2 && tiny then underflowFlag else 0)⟩

/-- An integer type: signed or natural, and its width (R51). -/
structure ITy where
  signed : Bool
  w : Nat
  deriving DecidableEq, Repr

def ITy.lo (t : ITy) : Int := if t.signed then -(2 ^ (t.w - 1) : Nat) else 0

def ITy.hi (t : ITy) : Int := if t.signed then (2 ^ (t.w - 1) : Nat) - 1 else (2 ^ t.w : Nat) - 1

/-- The integer a code denotes. -/
def ITy.read (t : ITy) (code : Nat) : Int := if t.signed then Machine.signed t.w code else code

/-- An integer wrapped or clamped into a type, as a code. -/
def ITy.write (t : ITy) (sat : Bool) (v : Int) : Nat := wrapTo t.w (if sat then max t.lo (min t.hi v) else v)

/-- A finite value rounded to an integer, and whether it is exact (R60). -/
def roundInteger (rm : Rm) (draw : Nat) (neg : Bool) (m : Nat) (e : Int) : Int × Bool :=
  let r := roundAt rm neg draw m e 0
  (if neg then -(r.1 : Int) else r.1, r.2)

/-- RoundTo(T, rm, v) and RoundTo(T.sat, rm, v) (R60). -/
def ITy.round (t : ITy) (sat : Bool) (rm : Rm) (draw : Nat) : Val → Coded
  | .nan _ _ _ => ⟨0, invalidFlag⟩
  | .inf neg => ⟨if sat then wrapTo t.w (if neg then t.lo else t.hi) else 0, invalidFlag⟩
  | .fin neg m e =>
    let r := roundInteger rm draw neg m e
    ⟨t.write sat r.1, if r.2 then 0 else inexactFlag⟩

/-- Floating point to integer (R67): clamped, with invalid when the rounded integer is out of range. -/
def ITy.convert (t : ITy) (rm : Rm) (draw : Nat) (v : Val) : Coded :=
  let c := t.round true rm draw v
  match v with
  | .nan _ _ _ => c
  | .inf _ => c
  | .fin neg m e =>
    let n := (roundInteger rm draw neg m e).1
    if n < t.lo ∨ t.hi < n then ⟨c.code, c.flags ||| invalidFlag⟩ else c

/-- Magnitudes of codes 0-7 of 4-bit types 01, 10 and 11, in quarters (Table 2.5). -/
def c4Grid (ty : Nat) : List Nat :=
  match ty with
  | 1 => [0, 2, 4, 6, 8, 12, 16, 24]
  | 2 => [0, 1, 2, 4, 8, 16, 32, 64]
  | _ => [0, 4, 8, 12, 16, 24, 32, 48]

/-- The value of a 4-bit code (Table 2.5). -/
def c4Decode (ty code : Nat) : Val :=
  if ty = 0 then .fin (code.testBit 3) (signed 4 code).natAbs 0
  else .fin (code.testBit 3) ((c4Grid ty).getD (code % 8) 0) (-2)

/-- The greatest index of a grid whose magnitude, in units 2^-k, is at most `m`. -/
def gridIndex (k m : Nat) : List Nat → Nat → Nat
  | [], _ => 0
  | [_], i => i
  | _ :: b :: r, i => if b <<< k ≤ m then gridIndex k m (b :: r) (i + 1) else i

/-- RoundTo of a 4-bit type (R57, R59). A finite value beyond the type's extreme gives the extreme of its sign, with
overflow and inexact, in every mode (DESIGN CHOICE, log 84). -/
def c4Round (ty : Nat) (rm : Rm) (draw : Nat) : Val → Coded
  | .nan _ _ _ => ⟨0, invalidFlag⟩
  | .inf neg => ⟨if ty = 0 then (if neg then 8 else 7) else (if neg then 15 else 7), invalidFlag⟩
  | .fin neg m e =>
    let sign := if neg ∧ ty ≠ 0 then 8 else 0
    if m = 0 then ⟨sign, 0⟩
    else
      let grid := if ty = 0 then [0, 4, 8, 12, 16, 20, 24, 28] ++ (if neg then [32] else []) else c4Grid ty
      -- m' × 2^-k quarters
      let e' := e + 2
      let k := (-e').toNat
      let m' := m <<< e'.toNat
      let i := gridIndex k m' grid 0
      let a := grid.getD i 0 <<< k
      let code (j : Nat) : Nat := if ty = 0 then wrapTo 4 (if neg then -(j : Int) else j) else sign + j
      if m' = a then ⟨code i, 0⟩
      else if i + 1 = grid.length then ⟨code i, overflowFlag ||| inexactFlag⟩
      else
        let b := grid.getD (i + 1) 0 <<< k
        let up := match rm with
          | .rne => decide (2 * (m' - a) > b - a) || (2 * (m' - a) == b - a && i % 2 == 1)
          | .rtz => false
          | .rup => !neg
          | .rdn => neg
          | .rna => decide (2 * (m' - a) ≥ b - a)
          | .rsr => decide (draw < (m' - a) <<< 32 / (b - a))
          | .rno => i % 2 == 0
        let j := if up then i + 1 else i
        ⟨code j, inexactFlag ||| (if j = 0 then underflowFlag else 0)⟩

/-- An element's type once its line is resolved (R55). -/
inductive El where
  | fl (f : Fl)
  | int (t : ITy)
  | c4 (ty : Nat)
  deriving DecidableEq, Repr

def El.width : El → Nat
  | .fl f => f.width
  | .int t => t.w
  | .c4 _ => 4

def El.isFloat : El → Bool
  | .fl _ => true
  | .int _ => false
  | .c4 _ => true

/-- The value of a code (R48, R51, R52). -/
def El.decode (e : El) (code : Nat) : Val :=
  match e with
  | .fl f => f.decode code
  | .int t => .fin (decide (t.read code < 0)) (t.read code).natAbs 0
  | .c4 ty => c4Decode ty code

/-- RoundTo into an element type (R59, R60). -/
def El.round (e : El) (sat : Bool) (rm : Rm) (draw : Nat) (v : Val) : Coded :=
  match e with
  | .fl f => f.round sat rm draw v
  | .int t => t.round sat rm draw v
  | .c4 ty => c4Round ty rm draw v

/-- Element-type codes (Table 2.1). -/
inductive Ty where
  | el (e : El)
  | c4
  | desc
  deriving DecidableEq, Repr

/-- Table 2.1; `none` is a reserved code. -/
def tyOf (t : BitVec 5) : Option Ty :=
  match t.toNat with
  | 0x00 => some (.el (.fl .f64))
  | 0x01 => some (.el (.fl .f32))
  | 0x02 => some (.el (.fl .bf16))
  | 0x03 => some (.el (.fl .f16))
  | 0x04 => some (.el (.fl .e4m3))
  | 0x05 => some (.el (.fl .e5m2))
  | 0x06 => some .c4
  | 0x07 => some .desc
  | 0x08 => some (.el (.int ⟨true, 4⟩))
  | 0x09 => some (.el (.int ⟨true, 8⟩))
  | 0x0A => some (.el (.int ⟨true, 16⟩))
  | 0x0B => some (.el (.int ⟨true, 32⟩))
  | 0x0C => some (.el (.int ⟨true, 64⟩))
  | 0x10 => some (.el (.int ⟨false, 4⟩))
  | 0x11 => some (.el (.int ⟨false, 8⟩))
  | 0x12 => some (.el (.int ⟨false, 16⟩))
  | 0x13 => some (.el (.int ⟨false, 32⟩))
  | 0x14 => some (.el (.int ⟨false, 64⟩))
  | _ => none

/-- Width of an element type in bits; desc has the width of the line's own elements and answers 8 here. -/
def Ty.width : Ty → Nat
  | .el e => e.width
  | .c4 => 4
  | .desc => 8

/-- The line format code of a type when described (Table 2.1). -/
def Ty.fmt : Ty → Option Nat
  | .el (.fl .bf16) => some 0x40
  | .el (.fl .f16) => some 0x41
  | .el (.fl .e4m3) => some 0x30
  | .el (.fl .e5m2) => some 0x31
  | .el (.int ⟨true, 8⟩) => some 0x20
  | .el (.int ⟨false, 8⟩) => some 0x21
  | .c4 => some 0x10
  | _ => none

/-- Fields of a line tag word (Table 1.12). -/
def tagFmt (t : Word) : Nat := (t.toNat) % 256
def tagScale (t : Word) : Nat := (t.toNat >>> 8) % 256
def tagRefb (t : Word) : Nat := (t.toNat >>> 16) % 256
def tagPoison (t : Word) : Bool := t.getLsbD 24
def tagMoving (t : Word) : Bool := t.getLsbD 25
def tagCheck (t : Word) : Nat := t.toNat >>> 32

/-- How a line's elements are scaled (R54). -/
inductive Scale where
  | by (k : Int)
  | invalid
  deriving DecidableEq, Repr

/-- The element type a described format code names (Table 2.6). -/
def fmtEl (fmt scale : Nat) : Option El :=
  match fmt with
  | 0x10 => some (.c4 (scale / 64))
  | 0x20 => some (.int ⟨true, 8⟩)
  | 0x21 => some (.int ⟨false, 8⟩)
  | 0x30 => some (.fl .e4m3)
  | 0x31 => some (.fl .e5m2)
  | 0x40 => some (.fl .bf16)
  | 0x41 => some (.fl .f16)
  | _ => none

/-- Table 2.7: a line's tag read as a type; `none` is status DATA. -/
def resolve (t : Ty) (tag : Word) : Option (El × Scale) :=
  let fmt := tagFmt tag
  let sc := tagScale tag
  if fmt = 0 then
    match t with
    | .el e => some (e, .by 0)
    | .c4 => none
    | .desc => none
  else match fmtEl fmt sc with
    | none => none
    | some e =>
      if fmt ≠ 0x10 ∧ sc / 64 ≠ 0 then none
      else if t = .desc ∨ t.fmt = some fmt then
        some (e, if sc % 64 = 63 then .invalid else .by ((sc % 64 : Nat) - 32))
      else none

/-- A value times 2^k. -/
def Val.scale (v : Val) (k : Int) : Val :=
  match v with
  | .fin n m e => .fin n m (e + k)
  | .inf n => .inf n
  | .nan n s p => .nan n s p

/-- Decode(T, code, tag) of a resolved line (R55, R56). `flt`: the consumer's result type is floating point. -/
def readElement (flt : Bool) (r : El × Scale) (code : Nat) : Valued :=
  match r.2 with
  | .invalid => if flt then ⟨.nan false false 0, 0⟩ else ⟨.fin false 0 0, invalidFlag⟩
  | .by k => ⟨(r.1.decode code).scale k, 0⟩

/-- The code of an element of a described line with scale exponent `e` (R57). -/
def writeElement (el : El) (e : Nat) (sat : Bool) (rm : Rm) (draw : Nat) (v : Val) : Coded :=
  el.round sat rm draw (v.scale (32 - e))

/-! ### Exact arithmetic (R63-R65) -/

def Val.isNan : Val → Bool
  | .nan _ _ _ => true
  | _ => false

def Val.isSnan : Val → Bool
  | .nan _ s _ => s
  | _ => false

def Val.isInf : Val → Bool
  | .inf _ => true
  | _ => false

def Val.isZero : Val → Bool
  | .fin _ m _ => m == 0
  | _ => false

def Val.neg : Val → Bool
  | .nan n _ _ => n
  | .inf n => n
  | .fin n _ _ => n

def Val.negate : Val → Val
  | .nan n s p => .nan (!n) s p
  | .inf n => .inf (!n)
  | .fin n m e => .fin (!n) m e

def Val.abs : Val → Val
  | .nan _ s p => .nan false s p
  | .inf _ => .inf false
  | .fin _ m e => .fin false m e

/-- The generated NaN (R61). -/
def Val.canon : Val := .nan false false 0

/-- An integer as a value. -/
def Val.ofInt (i : Int) : Val := .fin (decide (i < 0)) i.natAbs 0

/-- The first NaN among the operands, made quiet (R63), with the flag of a signalling one. -/
def firstNan (l : List Val) : Option Valued :=
  match l.find? Val.isNan with
  | some (.nan n _ p) => some ⟨.nan n false p, if l.any Val.isSnan then invalidFlag else 0⟩
  | _ => none

/-- A generated NaN with invalid. -/
def generated : Valued := ⟨.canon, invalidFlag⟩

/-- A product of two values that are no NaN; `none` is 0 × ∞. -/
def product (a b : Val) : Option Val :=
  match a, b with
  | .fin n m e, .fin n' m' e' => some (.fin (n != n') (m * m') (e + e'))
  | .inf n, b => if b.isZero then none else some (.inf (n != b.neg))
  | a, .inf n => if a.isZero then none else some (.inf (n != a.neg))
  | _, _ => none

/-- Signed numerator of a finite value in units of 2^e. -/
def Val.inUnits (e : Int) : Val → Int
  | .fin n m e' => if n then -((m <<< (e' - e).toNat : Nat) : Int) else ((m <<< (e' - e).toNat : Nat) : Int)
  | _ => 0

/-- The least exponent of the non-zero finite values. -/
def leastExp (l : List Val) : Int :=
  l.foldl (fun acc v => match v with
    | .fin _ m e => if m = 0 then acc else min acc e
    | _ => acc) 0

/-- The exact sum of addends that are no NaN (R65); both infinities give a generated NaN. -/
def exactSum (rm : Rm) (l : List Val) : Valued :=
  let pinf := l.any fun v => v == .inf false
  let ninf := l.any fun v => v == .inf true
  if pinf && ninf then generated
  else if pinf then ⟨.inf false, 0⟩
  else if ninf then ⟨.inf true, 0⟩
  else
    let e := leastExp l
    let s : Int := l.foldl (fun acc v => acc + v.inUnits e) 0
    if s = 0 then
      let sign := if l.all fun v => v.isZero && v.neg then true
        else if l.all fun v => v.isZero && !v.neg then false
        else rm == .rdn
      ⟨.fin sign 0 0, 0⟩
    else ⟨.fin (decide (s < 0)) s.natAbs e, 0⟩

/-- a + b, exact, with R63. -/
def addVal (rm : Rm) (a b : Val) : Valued :=
  (firstNan [a, b]).getD (exactSum rm [a, b])

/-- a × b, exact, with R63. -/
def mulVal (a b : Val) : Valued :=
  match firstNan [a, b] with
  | some r => r
  | none => match product a b with
    | some v => ⟨v, 0⟩
    | none => generated

/-- a × b + c before rounding (R69); 0 × ∞ raises invalid even with a quiet NaN `c`. -/
def fmaVal (rm : Rm) (a b c : Val) : Valued :=
  let bad := (a.isZero && b.isInf) || (a.isInf && b.isZero)
  match firstNan [a, b, c] with
  | some r => ⟨r.val, r.flags ||| (if bad then invalidFlag else 0)⟩
  | none => match product a b with
    | some v => exactSum rm [v, c]
    | none => generated

/-- Bits kept of a quotient or root, enough that its rounding and the fraction of R62 are those of the exact value. -/
def keptBits : Nat := 192

/-- An exact quotient of finite non-zero values, its remainder folded into a last bit that no grid has. -/
def quotient (a b : Val) : Val :=
  match a, b with
  | .fin n m e, .fin n' m' e' =>
    let num := m <<< keptBits
    let q := num / m'
    if num % m' = 0 then .fin (n != n') q (e - e' - keptBits)
    else .fin (n != n') (2 * q + 1) (e - e' - keptBits - 1)
  | _, _ => .canon

/-- a / b (Table 2.11). -/
def divVal (a b : Val) : Valued :=
  match firstNan [a, b] with
  | some r => r
  | none =>
    let neg := a.neg != b.neg
    if a.isInf then if b.isInf then generated else ⟨.inf neg, 0⟩
    else if b.isInf then ⟨.fin neg 0 0, 0⟩
    else if b.isZero then if a.isZero then generated else ⟨.inf neg, divZeroFlag⟩
    else if a.isZero then ⟨.fin neg 0 0, 0⟩
    else ⟨quotient a b, 0⟩

/-- Integer square root of a number below 4^n, by bits. -/
def isqrt : Nat → Nat → Nat
  | 0, _ => 0
  | n + 1, v =>
    let r := 2 * isqrt n (v / 4)
    if (r + 1) * (r + 1) ≤ v then r + 1 else r

/-- The square root of a positive finite value, its remainder folded as in `quotient`. -/
def rootOf (m : Nat) (e : Int) : Val :=
  let odd := decide (e % 2 = 1)
  let m' := (if odd then 2 * m else m) <<< 256
  let e' := (if odd then e - 1 else e) / 2 - 128
  let r := isqrt (Nat.log2 m' / 2 + 1) m'
  if r * r = m' then .fin false r e' else .fin false (2 * r + 1) (e' - 1)

/-- Square root (Table 2.11): −0 gives −0. -/
def sqrtVal (a : Val) : Valued :=
  match firstNan [a] with
  | some r => r
  | none => match a with
    | .inf true => generated
    | .inf false => ⟨.inf false, 0⟩
    | .fin n m e => if m = 0 then ⟨.fin n 0 0, 0⟩ else if n then generated else ⟨rootOf m e, 0⟩
    | .nan _ _ _ => generated

/-- Sign of a − b for values that are no NaN; zeros of either sign are equal. -/
def compareVal (a b : Val) : Ordering :=
  match a, b with
  | .inf true, .inf true => .eq
  | .inf false, .inf false => .eq
  | .inf true, _ => .lt
  | _, .inf true => .gt
  | .inf false, _ => .gt
  | _, .inf false => .lt
  | a, b => compare (a.inUnits (leastExp [a, b])) (b.inUnits (leastExp [a, b]))

/-- Whether `a` comes before `b` in the order that puts −0 below +0. -/
def belowVal (a b : Val) : Bool :=
  match compareVal a b with
  | .lt => true
  | .gt => false
  | .eq => a.isZero && b.isZero && a.neg && !b.neg

/-- The lesser, with −0 < +0 and NaN by R63 (R134). -/
def minVal (a b : Val) : Valued := (firstNan [a, b]).getD ⟨if belowVal b a then b else a, 0⟩

/-- The greater, with −0 < +0 and NaN by R63 (R134). -/
def maxVal (a b : Val) : Valued := (firstNan [a, b]).getD ⟨if belowVal a b then b else a, 0⟩

/-! ### Matrix disciplines (R68, R69) -/

/-- The code and flags of an exact step's value in f32 or i32. -/
def ExactStep.finish (f32 : Bool) (rm : Rm) (sat : Bool) (draw : Nat) (v : Val) : Coded :=
  if f32 then Fl.f32.round false rm draw v else (ITy.mk true 32).round sat rm draw v

/-- ExactStep (R68) of the accumulator value and the pairs of operands. -/
def exactStep (f32 : Bool) (rm : Rm) (sat : Bool) (draw : Nat) (c : Val) (xy : List (Val × Val)) : Coded :=
  let sn := c.isSnan || xy.any fun p => p.1.isSnan || p.2.isSnan
  let qn := c.isNan || xy.any fun p => p.1.isNan || p.2.isNan
  let bad := xy.any fun p => (p.1.isZero && p.2.isInf) || (p.1.isInf && p.2.isZero)
  let addends := c :: xy.filterMap fun p => if p.1.isNan || p.2.isNan then none else product p.1 p.2
  let pinf := addends.any fun v => v == .inf false
  let ninf := addends.any fun v => v == .inf true
  if qn || bad || (pinf && ninf) then
    ⟨if f32 then Fl.f32.canon else 0, if sn || bad || (pinf && ninf) then invalidFlag else 0⟩
  else if pinf || ninf then
    if f32 then ⟨Fl.f32.signBit ninf ||| Fl.f32.infCode, 0⟩
    else ⟨if sat then (if ninf then 0x80000000 else 0x7FFFFFFF) else 0, invalidFlag⟩
  else ExactStep.finish f32 rm sat draw (exactSum rm addends).val

/-- A NaN as the matrix engine, the transpose engine and the appraiser give it (R64). -/
def Valued.canonical (v : Valued) : Valued := if v.val.isNan then ⟨.canon, v.flags⟩ else v

/-- RoundTo where every NaN result is Canon(F) (R64): an infinity or an overflow into E4M3 too. -/
def El.roundCanon (e : El) (sat : Bool) (rm : Rm) (draw : Nat) (v : Val) : Coded :=
  let k := e.round sat rm draw v
  match e with
  | .fl f => if (f.decode k.code).isNan then ⟨f.canon, k.flags⟩ else k
  | _ => k

/-- One fused step of SeqFused (R69) in the matrix engine. -/
def fusedStep (f : Fl) (rm : Rm) (draw : Nat) (c x y : Val) : Coded :=
  let r := (fmaVal rm x y c).canonical
  let k := f.round false rm draw r.val
  ⟨k.code, r.flags ||| k.flags⟩

/-! ### Trees and scans (R70, R71) -/

/-- One level of a tree: pairs combined in order, an odd last element carried. -/
def treeLevel {α : Type} (op : (leaf : Nat) → α → α → α) (level : Nat) : Nat → List α → List α
  | _, [] => []
  | _, [x] => [x]
  | i, x :: y :: r => op (i * 2 ^ level) x y :: treeLevel op level (i + 1) r

/-- Tree (R70): `op level leaf x y` combines a pair; `fuel` bounds the levels. -/
def tree {α : Type} (op : (level leaf : Nat) → α → α → α) : (fuel level : Nat) → List α → Option α
  | 0, _, l => l.head?
  | fuel + 1, level, l =>
    match l with
    | [] => none
    | [x] => some x
    | x :: y :: r => tree op fuel (level + 1) (treeLevel (op level) level 0 (x :: y :: r))

end Sys2Proof.Machine
end

