-- ==== Sys2Proof/Config.lean ====
section
/-! DEFINITION. What the manual leaves open: free values with no body (nothing evaluates them), and constants. -/

namespace Sys2Proof.Config

/-- A free 64-bit value, the n-th drawn in a run (log 6): EVAL where Table 1.7 names none. -/
opaque freeWord : Nat → BitVec 64

/-- Whether the host returns a protection error to the n-th access, so counted (Table 4.5; log 10). -/
opaque hostRefuses : Nat → Bool

/-- Nanoseconds of device time that pass until the n-th observation of time (R411, R441; log 5). -/
opaque elapsedNs : Nat → Nat

/-- Core cycles that pass, beyond those counted for issued instructions, until the n-th observation of CYCLES
(R29, R441; log 5). -/
opaque elapsedCycles : Nat → Nat

/-- Whether a read of a changed page-table entry, gallery entry or span-map byte uses the copy that a slice
holds (R377, R334; log 9). -/
opaque usesCopy : Nat → Bool

/-- The code VSIN or VCOS returns (R203-R208), by opcode, element-type code, rounding-mode code and argument code: a
fixed function of them, the same on every core and in every run (R208; log 7). -/
opaque vectorFunction : (op ty rm arg : Nat) → Nat

/-- Where a monotone bounded function rises (R203-R208), by opcode, element-type code, rounding-mode code and a result's
place in the order of the format's values: the place of the argument from which on the result lies above that one, as far
as the bounds leave a choice (log 7). -/
opaque vectorThreshold : (op ty rm : Nat) → (result : Int) → Int

/-- Whether an Ed25519 signature verifies against the fused key hash (R409; log 13). -/
opaque ed25519Verifies : List (BitVec 8) → List (BitVec 8) → Bool

/-- Whether an ML-DSA-65 signature verifies against the fused key hash (R409; log 13). -/
opaque mldsaVerifies : List (BitVec 8) → List (BitVec 8) → Bool

/-- The fused minimum security version (R409; log 13). -/
opaque fusedMinimum : Nat

/-- The fused configuration as it is measured (R409; log 13). -/
opaque fusedConfiguration : List (BitVec 8)

/-- An SPDM certificate chain by slot (R410; log 14). -/
opaque certificate : Nat → List (BitVec 8)

/-- Ed25519 signature of the device over a message (R410; log 14). -/
opaque signEd25519 : List (BitVec 8) → List (BitVec 8)

/-- ML-DSA-65 signature of the device over a message (R410; log 14). -/
opaque signMldsa : List (BitVec 8) → List (BitVec 8)

/-- SHA-512 of a message (R409; log 13). -/
opaque sha512 : List (BitVec 8) → BitVec 512

/-- The threshold of corrected soft errors of a partition (R387, R407; log 15). -/
opaque softErrorThreshold : Nat

/-- The measurement register that the n-th measurement of a power-up extends (R409; log 13). -/
opaque measurementRegister : Nat → Fin 8

/-- A measurement register extended by a measurement (R409; log 13). -/
opaque extendMeasurement : BitVec 512 → BitVec 512 → BitVec 512

/-- The register that a physical sensor shows at its n-th update (Table 14.6; log 15). -/
opaque sensor : Nat → BitVec 16 → BitVec 64

end Sys2Proof.Config
end

