-- ==== Sys2Proof/Machine/State.lean ====
section
/-! DEFINITION. The state of one CF4-160A as plain data (R9-R44 and the chapters each field cites), and the machine
after power-up. `Fault` and `Refusal` are the reasons a step can stop. -/

namespace Sys2Proof.Machine

/-- Why a step stops. -/
inductive Fault where
  /-- Raised by `step` when keeper D0 has failed: the device is failed (R408). Safe: the machine stops. -/
  | deviceFailed
  deriving DecidableEq, Repr

/-- Why a step has no meaning. -/
inductive Refusal where
  /-- Raised by an arm of `exec` whose instruction has no meaning yet. Safe: nothing follows from it. -/
  | notModelled (mnemonic : String)
  deriving DecidableEq, Repr

/-- Bytes by address, in canonical form: addresses strictly rise and no listed byte is zero (log 4). -/
abbrev Memory := List Host.Cell

/-- Line tag words (Table 1.12) by line number, in canonical form: numbers strictly rise and no listed word is the
tag of an unwritten line (log 4). -/
abbrev Tags := List (Nat × Word)

/-- Privilege level (R15). -/
inductive Level where
  | u | s
  deriving DecidableEq, Repr

/-- Docent context states (Table 1.2). -/
inductive CtxState where
  | empty | ready | running | parked
  deriving DecidableEq, Repr

/-- A posting instruction that waits to enter its task (R155, R157, R159). -/
inductive PostOp where
  | post (d : XReg)
  | join (mask : BitVec 5)
  | list (d a b : XReg)
  deriving DecidableEq, Repr

/-- What a parked context waits for (Table 1.2). -/
inductive Park where
  | none
  | waitc (n : CtrNum) (p : Bool)
  /-- With the register that receives the reply. -/
  | waita (d : XReg) (va mask expected : Word) (c : Cmp)
  /-- `again`: its core had arrived already, so it arrives at the next generation (R166). -/
  | gbar (g : GroupNum) (again : Bool)
  /-- A POST or JOIN, or a POSTL between entries, that waits for a catalogue entry or for shadow room (R287, R289). -/
  | post (op : PostOp)
  /-- A load, fetch or synchronous access that missed translation (R123, R168). -/
  | load
  /-- A reference instruction whose write has been made but for the copies of dies that miss (R378): its own address (or
  its IMX's), the next instruction's, and the H register that it then writes. -/
  | parts (first next : Word) (h : Option (HReg × Word))
  deriving DecidableEq, Repr

/-- What an outstanding load or atomic does at its home (R121, R132-R134). -/
inductive LoadOp where
  | load
  | amo (op : AmoOp) (v : Word)
  | cas (cmp v : Word)
  | famo (op : FamoOp) (rm : Rm) (v : Word) (reord : Bool)
  /-- A POSTR that waits for its reply (R158). -/
  | postr
  /-- An access that has failed and waits for its trap of this cause (R125). -/
  | failed (cause : BitVec 8)
  deriving DecidableEq, Repr

/-- The outstanding load or atomic of a context (R121), in the image a REISSUE record (R126). -/
structure PendingLoad where
  dest : XReg
  addr : Word
  size : Size
  nat : Bool
  op : LoadOp
  seq : Nat
  /-- Issued at level S (R375). -/
  level : Level
  /-- An atomic's scope (R135); core for a load. -/
  scope : Scope
  /-- Stores of the queue that precede it in program order (R122). -/
  before : Nat
  /-- Its value is fixed at its home, or its request has left for another device (R310). -/
  homed : Bool
  deriving DecidableEq, Repr

/-- A write's place in the order of R330: the die that issued it, and the clock that it carries (R316). -/
structure Mark where
  die : DieNum
  clock : Vector Word 4
  deriving DecidableEq, Repr

/-- How a write changes the line that it meets. -/
inductive Put where
  /-- As a docent store; as a reference, with REFB set (R120, R171). -/
  | merge (ref : Bool)
  /-- As a vector store: the line becomes plain (R216). -/
  | plain
  /-- A whole line with its tag. -/
  | line (t : Word)
  /-- Part of a relocated line, whose REFB bits, those of tag `t`, move with it (R338). -/
  | reloc (t : Word)
  deriving DecidableEq, Repr

/-- A die's part of a write to a replicated page, which waits for its translation (R378): the die and the write, with
what Table 13.4 names of its requester. -/
structure WritePart where
  die : DieNum
  part : PartNum
  sdev : DevNum
  slog : Nat
  source : Nat
  sup : Bool
  va : Word
  data : List Byte
  put : Put
  mark : Mark
  deriving DecidableEq, Repr

/-- A store or AMOI in the store queue of a context (R122). `amo` is the AMOI operation. `loc` marks STLOC. An
atomic with return that its task left outstanding at DONE stands here as `ret` (R311). -/
structure StoreReq where
  addr : Word
  size : Size
  data : Word
  amo : Option AmoOp
  loc : Bool
  /-- An AMOI's scope (R135); core for a store. -/
  scope : Scope
  level : Level
  handle : Handle
  gen : BitVec 16
  /-- Its place in the order of R330, once it has left the queue for its home (R316). -/
  mark : Option Mark
  /-- It has been made but for the copies of dies that miss (R378). -/
  parted : Bool
  ret : Option LoadOp
  deriving DecidableEq, Repr

/-- A docent context (R13, Table 13.8). -/
structure Context where
  pc : Word
  x : Vector Word 32
  h : Vector Word 16
  level : Level
  prev : Level
  tvec : Word
  epc : Word
  ecause : BitVec 8
  eval : Word
  sscr : Word
  tflags : BitVec 5
  pclass : BitVec 2
  pused : Bool
  handle : Handle
  gen : BitVec 16
  state : CtxState
  park : Park
  load : Option PendingLoad
  /-- Sequence number of the next outstanding access or WAITA (R124). -/
  seq : Nat
  stores : List StoreReq
  staging : Vector Word 32
  stack : Word
  /-- Step in which the context last entered READY, and step in which it last ran (R14). -/
  readyAt : Nat
  ranAt : Nat
  /-- An LDT or STT of the task was suppressed (R131). -/
  suppressed : Bool
  /-- Devices written since the last completed FENCE.fabric (R139). -/
  written : List DevNum
  /-- Fence sequence number, and markers not yet answered (R353). -/
  fseq : BitVec 32
  markers : List (DevNum × Plane)
  /-- A FENCE.fabric has sent its markers and waits for the answers (R353). -/
  fencing : Bool
  /-- The fence after an atomic of scope fabric waits for the answers to its markers (R135). -/
  trailing : Bool
  /-- A POSTL stands between two entries of its list (R157). -/
  posting : Bool
  /-- The step in which a waiting post was first attempted (R287). -/
  postAt : Nat
  /-- Its reference instruction has parked and not completed (R168). -/
  midRef : Bool
  /-- An AMOI of a scope wider than core has failed; the fence after it ends with the delivery of its fault (R135). -/
  wideFault : Bool
  deriving DecidableEq, Repr

/-- Signal counter (Table 1.5). -/
structure Counter where
  count : BitVec 32
  expect : BitVec 32
  phase : Bool
  err : Bool
  aband : Bool
  deriving DecidableEq, Repr

/-- Guard states (Table 1.4). -/
inductive Guard where
  | free | opened | committing | squashing
  deriving DecidableEq, Repr

/-- Queue states (Table 1.4). -/
inductive QState where
  | closed | opened | broken
  deriving DecidableEq, Repr

/-- Slot states (Table 12.4). -/
inductive Slot where
  | empty | filling | ready | draining
  deriving DecidableEq, Repr

/-- A fill arriving at an inbound queue: the slot, the lines expected and the lines written (R356). -/
structure Fill where
  slot : Fin 8
  size : Nat
  got : Nat
  /-- Route lines it is to receive, as the appraisers stood when it began to arrive (R368, R370). -/
  routes : Nat
  deriving DecidableEq, Repr

/-- Link queue (R24, R177-R180, R354-R358, Table 13.7). -/
structure Queue where
  state : QState
  /-- The descriptor of Table 5.7. -/
  word0 : Word
  word1 : Word
  bound : Bool
  slots : Vector Slot 8
  /-- READY slots, oldest first (R357). -/
  order : List (Fin 8)
  /-- Outbound: consumer slots of the permits held, oldest first (R357). -/
  permits : List (Fin 8)
  /-- Outbound: the consumer slot and the lines of each own slot in a fill (R357). -/
  fills : Vector (Fin 8 × Nat) 8
  /-- Permits the station holds while the queue is CLOSED (R358): the PERMIT lines. -/
  held : List QLine
  cause : BitVec 4
  plane : Plane
  suspended : Bool
  /-- Inbound: the fill that is arriving (R356), and route lines still to write (R372). -/
  fill : Option Fill
  routes : Nat
  deriving DecidableEq, Repr

/-- Catalogue entry states (Table 9.1). -/
inductive EState where
  | free | pending | ready | running | held
  deriving DecidableEq, Repr

/-- Where a matrix task stands in its chain (R248): the chain's number, whether it is the record that begins or
ends it, and whether its place in the chain is illegal. -/
structure ChainPlace where
  id : Nat
  first : Bool
  last : Bool
  illegal : Bool
  deriving DecidableEq, Repr

/-- The causes a task has met (R42). -/
structure Causes where
  data : Bool
  access : Bool
  queue : Bool
  format : Bool
  undeclared : Bool
  deriving DecidableEq, Repr

/-- Catalogue entry (Table 13.9). -/
structure Entry where
  state : EState
  gen : BitVec 16
  image : Vector Word 32
  /-- Order of entry (R271): a smaller number is older. -/
  age : Nat
  deps : List Handle
  renDeps : List (Fin 64)
  ctrLatched : Bool
  timeLatched : Bool
  aged : Bool
  starved : Bool
  /-- The step in which the entry last became READY, less the cycles a saved image counts (R298). -/
  readySince : Nat
  status : BitVec 4
  flags : BitVec 5
  causes : Causes
  /-- Slots the registrar redirected: region words (R283). -/
  redirected : List (Fin 8 × BitVec 128)
  /-- Logical cores each peer slot names, fixed at entry (R276). -/
  peers : List (Fin 8 × List Nat)
  /-- Present form of each managed-object slot (R277). -/
  objects : List (Fin 8 × Word)
  /-- References whose objects the task has pinned (R300). -/
  pins : List Word
  /-- VSEED as it stood at release (Table 2.10). -/
  seed : Word
  /-- Successor handles of a packet beyond the five of the image (R99). -/
  extra : List Word
  /-- Values of bound registers read at release (R87, R300). -/
  bounds : List (BNum × BitVec 32)
  /-- RSR roundings the task has made before (Table 2.10). -/
  rsr : Nat
  ctx : CtxId
  chain : ChainPlace
  /-- The docent task has executed DONE and waits for its stores (R150), or was stopped by a trap with this
  status (R385). -/
  done : Bool
  /-- Squashed while RUNNING (R293). -/
  squash : Bool
  /-- Its guard has committed: it completes as a task that is not provisional (R292). -/
  committed : Bool
  /-- RING: the receiving box has been written whole (R262). -/
  received : Bool
  /-- Failed a posting check: compared with no task (R273). -/
  failed : Bool
  /-- Its writes to other devices, oldest first: address, bytes and tags (R217). -/
  sent : List (Word × List Byte × List Word)
  deriving DecidableEq, Repr

/-- A box of tile-store rows and byte columns (R34). -/
structure Box where
  row : Nat
  rows : Nat
  col : Nat
  cols : Nat
  deriving DecidableEq, Repr

/-- State of a rename (Table 13.7, R283, R284). -/
inductive RState where
  | free | opened | closed | homing
  deriving DecidableEq, Repr

/-- Rename-table entry (R281-R288). -/
structure Rename where
  state : RState
  box : Box
  /-- First row of the shadow. -/
  shadow : Nat
  guard : Option GuardNum
  owner : Handle
  /-- The owner's effective class (R284). -/
  cls : Nat
  /-- The owner, and the older tasks that read the box, that keep the rename open (R284). -/
  readers : List Handle
  /-- Tasks in flight that hold a region redirected to the shadow (R284). -/
  holders : List Handle
  /-- Older writers the priming copy waits for, and whether the shadow is still to be primed (R288). -/
  primeDeps : List Handle
  priming : Bool
  /-- Renames whose homing copies the priming copy waits for (R288). -/
  primeRenames : List (Fin 64)
  /-- Lines the running hidden copy has written (R285). -/
  progress : Nat
  /-- Order at which the homing copy entered (R284). -/
  age : Nat
  deriving DecidableEq, Repr

/-- What an engine runs: nothing, a task, or a hidden copy of the registrar (R285). -/
inductive Job where
  | idle | task (h : Handle) | homing (e : Fin 64) | priming (e : Fin 64)
  deriving DecidableEq, Repr

/-- Progress of a RELOC (R338): nothing; past its move point (old address, new address, length of header and body, the
locations of the old copy's lines and of the reserved entry in the model's memory, OLD and NEW words); or ended. -/
inductive RelocState where
  | none
  | moved (old new len : Nat) (lines : List Nat) (entry : Nat) (oldRef newRef : Word)
  | ended (result : Nat)
  deriving DecidableEq, Repr

/-- A matrix, transpose or copy engine (R242-R247, Table 8.1). -/
structure Engine where
  job : Job
  /-- Iterations of the loop nest already applied. -/
  progress : Nat
  /-- Count x of Table 2.10. -/
  x : Nat
  /-- The queue slots held for the current iteration (R254). -/
  held : List (QNum × Fin 8)
  /-- Waits for a slot, a permit, a gang or a ring. -/
  waiting : Bool
  started : Bool
  reloc : RelocState
  deriving DecidableEq, Repr

/-- A loop word (Table 7.11). -/
structure LoopWord where
  first : Nat
  last : Nat
  step : Nat
  active : Bool
  count : Nat
  deriving DecidableEq, Repr

/-- The vector engine of a core (R16, R18-R22, R240). -/
structure VectorUnit where
  v : Memory
  l : Memory
  z : Memory
  s : Vector Word 16
  /-- P1-P7; entry 0 is never read. -/
  p : Vector (BitVec 32768) 8
  lc : Vector (BitVec 32) 3
  wb : Fin 48
  shape : BitVec 32
  task : Option Handle
  kernel : List Word
  next : Nat
  loops : Vector LoopWord 3
  /-- Count x of Table 2.10. -/
  x : Nat
  waiting : Bool
  /-- The store at `next` has been made, but for copies that miss or answers of other devices: the flags that it raises
  and whether it draws, once it is complete (R215, R219). -/
  after : Option (BitVec 5 × Bool)
  deriving DecidableEq, Repr

/-- The open chain of a core's matrix tasks (R248). -/
structure Chains where
  next : Nat
  opened : Option Nat
  ord : Bool
  /-- Chains that have failed, with the status their later members take. -/
  failed : List (Nat × BitVec 4)
  deriving DecidableEq, Repr

/-- A core (R24). -/
structure Core where
  ctxs : Vector Context 8
  /-- The context whose turn it is. -/
  cur : CtxId
  /-- Cycles of the turn counted under R14, and the step in which its context was chosen. -/
  turn : Nat
  chosen : Nat
  cycles : Word
  entries : Vector Entry 256
  nextAge : Nat
  closed : Bool
  /-- Contexts that wait to post, in order of first attempt (R287). -/
  posters : List CtxId
  /-- Those of them that wait for shadow room rather than an entry (R289). -/
  cramped : List CtxId
  renames : Vector Rename 64
  /-- Annex unit u is allocated (Table 13.7). -/
  annex : BitVec 64
  guards : Vector Guard 32
  counters : Vector Counter 256
  bregs : Vector (BitVec 32) 64
  queues : Vector Queue 16
  /-- Groups at whose open barrier the core has arrived (R166). -/
  arrived : List GroupNum
  chains : Chains
  acc : Memory
  vec : VectorUnit
  matrix : Engine
  transpose : Engine
  copy : Engine
  /-- Timer wheel and overflow list (R294): tasks that wait for their TNB. -/
  timers : List Handle
  failed : Bool
  deriving DecidableEq, Repr

/-- Group states (Table 1.6). -/
inductive GState where
  | idle | opened | broken
  deriving DecidableEq, Repr

/-- Group table entry (Table 1.6). -/
structure Group where
  members : BitVec 160
  part : BitVec 4
  cls : BitVec 2
  state : GState
  arrived : BitVec 8
  gen : BitVec 16
  /-- What the arrivals at the open barrier have carried of their dies' clocks, as each was sent (R316). -/
  clock : Vector Word 4
  deriving DecidableEq, Repr

/-- Command-queue states (Table 14.2). -/
inductive CqState where
  | stopped | running | error
  deriving DecidableEq, Repr

/-- A LINK level: the next packet's command address and the packets still to execute (R399). -/
structure LinkLevel where
  addr : Word
  rem : Nat
  /-- IRQ of the LINK, raised when its block completes. -/
  irq : Bool
  deriving DecidableEq, Repr

/-- A unit that issues: a docent, an engine, or a command queue. -/
inductive UnitId where
  | docent (c : CoreId) | vector (c : CoreId) | matrix (c : CoreId) | transpose (c : CoreId) | copy (c : CoreId)
  | cmdq (q : CmdQ)
  deriving DecidableEq, Repr

/-- A pending step (log 1): a unit that is due to issue, or an event that is due. -/
inductive Act where
  | unit (u : UnitId)
  /-- With the operands of a step that carries none itself. -/
  | event (i : Instr) (a : Arg)
  deriving DecidableEq, Repr

/-- Command queue registers (Table 14.2). -/
structure CmdQueue where
  base : Word
  size : BitVec 5
  tail : BitVec 32
  head : BitVec 32
  en : Bool
  lsel : Fin 4
  state : CqState
  cause : BitVec 4
  aborted : Bool
  errAddr : Word
  /-- Open LINK levels, innermost first. -/
  links : List LinkLevel
  /-- The command in progress, which waits to complete (R397). -/
  busy : Option (Instr × Cmd)
  /-- How far the command in progress has come: lines of a TAGLOAD, the phase of a SAVE, or the packet of a SIGNAL that
  is on its way, by number. -/
  progress : Nat
  /-- Addresses at which a lookup of the command in progress has failed (R383). -/
  failed : List Word
  deriving DecidableEq, Repr

/-- Partition states (Table 14.1). -/
inductive PState where
  | empty | running | stopped | resetting
  deriving DecidableEq, Repr

/-- A partition: its management block (Table 14.1, Table 13.3) and what its image set (Table 13.5). -/
structure Partition where
  state : PState
  clmask : Word
  mwin : Vector Word 4
  cwin : Word
  grp : Word
  rslot : Word
  msix : Word
  qos : Word
  lostarr : BitVec 32
  istat : BitVec 8
  ignored : BitVec 32
  flbase : Word
  flsize : BitVec 5
  flprod : BitVec 32
  flcons : BitVec 32
  ovf : Bool
  armed : Bool
  /-- Sequence number of the next fault record (R381). -/
  fseq : BitVec 32
  queues : Vector CmdQueue 4
  vseed : Word
  /-- VSEED as word 2 of the image set it at the last RESTORE (Table 2.10). -/
  rseed : Word
  heap : Word
  roots : Vector Word 4
  annex : Nat
  /-- The queue whose partition command runs (R405). -/
  command : Option CmdQ
  /-- Devices written since the last completed drain (R406). -/
  written : List DevNum
  /-- Check failures counted per die, and whether the threshold was met (R414). -/
  checkFails : Vector Nat 4
  /-- Corrected soft errors (R387). -/
  softErrors : Nat
  deriving DecidableEq, Repr

/-- Who made a parked access (R380). -/
inductive Requester where
  | load (u : CtxRef) (seq : Nat)
  | store (u : CtxRef)
  /-- A fetch or synchronous access, which the context makes again (R123, R168). -/
  | retry (u : CtxRef)
  | waita (u : CtxRef) (seq : Nat)
  /-- A kernel or record, which makes the access again (R219, R244). -/
  | unit (u : UnitId)
  /-- A write of a requester at one die's copy of a replicated page, the other copies being written (R378). -/
  | part (w : Requester) (x : WritePart)
  /-- The release of a task, made again (R85, R300). -/
  | release (c : CoreId) (k : Kind) (h : Handle)
  | entry (c : CoreId) (h : Handle)
  | fabric (i : Instr) (a : Arg)
  | slot (s : BNum)
  /-- None: the access has failed with another part of it, or its task or context has left it; it stays parked (R380). -/
  | gone
  deriving DecidableEq, Repr

/-- The agent of an access (R375, R381). -/
structure Agent where
  part : PartNum
  die : DieNum
  sdev : DevNum
  slog : Nat
  /-- Fault-record SOURCE: 0 docent, 1 vector or engine task, 2 fabric request, 3 heap-structure read. -/
  source : Nat
  /-- A docent access at level S. -/
  sup : Bool
  exec : Bool
  who : Requester
  deriving DecidableEq, Repr

/-- An access parked at its walker (R380). -/
structure Parked where
  ag : Agent
  write : Bool
  die : DieNum
  slice : Fin 96
  /-- The 64 KiB unit of the offset. -/
  block : Nat
  va : Word
  /-- Its record; `none` waits in the slice's input for one of the 128 park entries. -/
  record : Option (BitVec 32)
  deriving DecidableEq, Repr

/-- An access that waits at a die's copy of a 64 KiB unit of a replicated page until the earlier writes to the unit that
are parked there have been applied (R316, R332). -/
structure Behind where
  part : PartNum
  die : DieNum
  block : Nat
  who : Requester
  deriving DecidableEq, Repr

/-- A miss record that is outstanding (R380): its 64 KiB unit and the access bits it covers. -/
structure MissRecord where
  part : PartNum
  seq : BitVec 32
  die : DieNum
  block : Nat
  write : Bool
  exec : Bool
  deriving DecidableEq, Repr

/-- A fault record that waits to be written to its ring (R379): its four words. -/
structure FaultRecord where
  part : PartNum
  words : Vector Word 4
  deriving DecidableEq, Repr

/-- A wait entry (R141, R142): its home, the word's address in the model's memory, and the condition. -/
structure WaitEntry where
  home : Nat
  key : Nat
  va : Word
  mask : Word
  expected : Word
  c : Cmp
  who : CtxRef
  seq : Nat
  deriving DecidableEq, Repr

/-- The last write to a range of addresses that nothing later covers: its die and its vector clock (R316, R330). -/
structure Stamp where
  lo : Nat
  len : Nat
  die : DieNum
  clock : Vector Word 4
  /-- An STLOC, which is no propagated write (R331). -/
  loc : Bool
  deriving DecidableEq, Repr

/-- What a slice holds a copy of (R377, R334): a page-table entry, a gallery-table word or a span-map byte. -/
structure Cached where
  part : PartNum
  key : Nat
  value : Word
  deriving DecidableEq, Repr

/-- What a request that has left for another device asks, and who waits for it (R347). -/
inductive Waiter where
  | load (u : CtxRef) (seq : Nat)
  | store (u : CtxRef)
  | marker (u : CtxRef) (dev : DevNum) (p : Plane) (fseq : BitVec 32)
  | postr (u : CtxRef) (seq : Nat)
  | handle (p : PartNum)
  | queue (c : CoreId) (q : QNum)
  | fillLine (c : CoreId) (q : QNum) (slot : Fin 8)
  | unit (u : UnitId) (c : CoreId) (h : Handle)
  | drain (p : PartNum)
  deriving DecidableEq, Repr

/-- An unanswered request to another device (R347). -/
structure Request where
  seq : BitVec 32
  dev : DevNum
  plane : Plane
  who : Waiter
  deriving DecidableEq, Repr

/-- What has left the device (log 10). -/
inductive Out where
  | read (dev : DevNum) (p : Plane) (seq : BitVec 32) (part : PartNum) (va : Word) (size : Nat)
  | write (dev : DevNum) (p : Plane) (seq : BitVec 32) (part : PartNum) (va : Word) (data : List Byte)
      (tags : List Word)
  | atomic (dev : DevNum) (p : Plane) (seq : BitVec 32) (part : PartNum) (va : Word) (op : Option AmoOp) (z : ASize)
      (v cmp : Word)
  | line (dev : DevNum) (p : Plane) (seq : BitVec 32) (l : QLine) (data : List Byte) (tag : Word)
  | packet (dev : DevNum) (p : Plane) (seq : BitVec 32) (k : Packet)
  /-- With the source partition (R440). -/
  | marker (dev : DevNum) (p : Plane) (seq : BitVec 32) (part : PartNum) (word : Word)
  | reply (s : FabricSrc) (ok : Bool) (code : Nat) (data : List Byte) (tags : List Word)
  | interrupt (p : PartNum) (vector : Nat)
  | hostReadReply (data : List Byte) (poison : Bool)
  | spdm (data : List Byte)
  deriving DecidableEq, Repr

/-- A reduction slot (R362-R366). -/
structure RSlot where
  opened : Bool
  /-- Words 0-3 of the allocation (Table 12.6). -/
  alloc : Vector Word 4
  /-- Accepted contributions: index and elements, in order of acceptance. -/
  arrivals : List (Nat × List (BitVec 64))
  late : Nat
  /-- The completed status word waits for its parked result write (R366). -/
  parked : Option Word
  /-- The result has been written but for the copies of dies that miss (R378). -/
  parted : Bool
  /-- VSEED of the owning partition as its last RESTORE set it (Table 2.10). -/
  seed : Word
  /-- The tick of device time at which it completes with TIMEOUT (R366). -/
  due : Nat
  deriving DecidableEq, Repr

/-- An appraiser (R368, R369). -/
structure Appraiser where
  config : Word
  weights : Memory
  /-- What was written while a fill was being scored, and takes effect after it (R368, R369). -/
  nextConfig : Option Word
  nextWeights : List (Nat × List Byte)
  deriving DecidableEq, Repr

/-- A keeper (R408, R409). -/
structure Keeper where
  alive : Bool
  /-- Its trusted and untrusted firmware parts run (R409). -/
  trusted : Bool
  untrusted : Bool
  /-- Its boot ROM refused its firmware: its die does not join the device (R409). -/
  refused : Bool
  /-- Device time of its last renewal as leader. -/
  renewed : Nat
  stopped : Bool
  measurements : Vector (BitVec 512) 8
  deriving DecidableEq, Repr

/-- The keepers' lease word (R408). -/
structure Lease where
  die : DieNum
  valid : Bool
  epoch : BitVec 16
  expiry : Word
  deriving DecidableEq, Repr

/-- A packet held at a station for a full catalogue (R352). -/
structure HeldPacket where
  packet : Packet
  /-- The step of its arrival (R287). -/
  at_ : Nat
  /-- It waits for shadow room rather than an entry (R289). -/
  cramped : Bool
  deriving DecidableEq, Repr

/-- What a save leaves beside its image (the model's own; log 20): the image as it was written, and the cores, by logical
number, with what Tables 13.5-13.9 have no place for. A restore of the image as it was written takes it (R390). -/
structure Saved where
  key : Nat
  image : Memory
  cores : List Core
  deriving DecidableEq, Repr

/-- A CF4-160A. -/
structure State where
  /-- The model's own: pending steps, in the order they take place (log 1). -/
  agenda : List Act
  /-- The model's own: which step goes next (log 1): 0 the docent of `focus`, k + 1 element k of `agenda`. -/
  schedule : List Nat
  /-- The core whose docent, engine or kernel acts. -/
  focus : CoreId
  /-- The model's own: the word after the fetched one, from the same read of the line (R74). -/
  second : Word32
  /-- The operands of the step from outside that is taking place. -/
  arg : Arg
  /-- The model's own: steps taken, which orders R14's times (log 5). -/
  now : Nat
  /-- The model's own: free values drawn (log 6). -/
  free : Nat
  /-- The model's own: what has left the device (log 10). -/
  out : List Out
  cores : Vector Core 160
  mem : Memory
  tags : Tags
  groups : Vector Group 256
  parts : Vector Partition 16
  devq : CmdQueue
  devId : DevNum
  time : Word
  rate : Int
  holdover : Bool
  locked : Bool
  stepped : Bool
  ptpcfg : Word
  toffset : Word
  /-- Sensors by register offset (Table 14.6). -/
  sensors : List (BitVec 16 × Word)
  /-- Number of the 100 µs period of device time at the last update of the sensors that came due (R417). -/
  sampled : Nat
  /-- The step each cluster needs (R415, R416), and the steps raised for power (Table 14.6). -/
  steps : Vector (Fin 9) 20
  raised : Nat
  clocks : Vector (Vector Word 4) 4
  /-- The clock of the last completed FENCE.package or wider (R319). -/
  fenceClock : Vector Word 4
  stamps : List Stamp
  copies : List Cached
  parked : List Parked
  misses : List MissRecord
  behind : List Behind
  /-- Lookups of tasks that enter a catalogue which a REPLAY has failed: who makes them, and the address (R277, R383). -/
  failedLookups : List (Requester × Word)
  records : List FaultRecord
  waits : List WaitEntry
  /-- Provenance entries that a RELOC holds reserved, by address (R338). -/
  reserved : List Nat
  /-- Accesses held at a MOVING line, to be made again at the settle point (R338): the line and the requester. -/
  heldMoving : List (Nat × Requester)
  stations : Vector Bool 16
  live : List (DevNum × BitVec 16)
  /-- Changes of links that the live masks do not show yet, since no keeper leads (R345, R408). -/
  linkChanges : List Arg
  reqSeq : BitVec 32
  requests : List Request
  /-- Sequence numbers applied per source device, newest first, with their answers (R347). -/
  applied : List (DevNum × BitVec 32 × Nat)
  heldPackets : List HeldPacket
  /-- Packets that wait at their source station, since two of their source are held at the target's (R352). -/
  stationed : List Packet
  /-- Link-queue lines for a STOPPED partition (R389). -/
  heldLines : List Act
  slots : Vector RSlot 64
  appraisers : Vector Appraiser 16
  keepers : Vector Keeper 4
  lease : Lease
  /-- The loss of the lease has been reported: it lapsed and no follower can take it (R407). -/
  leaseLost : Bool
  journal : List (CmdQ × Cmd)
  /-- The model's own: what saves left beside their images (log 20). -/
  kept : List Saved
  deviceFailed : Bool
  deriving DecidableEq, Repr

/-- A context to which nothing has been bound (Table 1.2, Table 1.3, Table 1.7; X and PC by log 3). -/
def Context.reset : Context where
  pc := 0
  x := Vector.replicate 32 0
  h := Vector.replicate 16 0
  level := .u
  prev := .u
  tvec := 0
  epc := 0
  ecause := 0
  eval := 0
  sscr := 0
  tflags := 0
  pclass := 0
  pused := false
  handle := 0
  gen := 0
  state := .empty
  park := .none
  load := none
  seq := 0
  stores := []
  staging := Vector.replicate 32 0
  stack := 0
  readyAt := 0
  ranAt := 0
  suppressed := false
  written := []
  fseq := 0
  markers := []
  fencing := false
  trailing := false
  posting := false
  postAt := 0
  midRef := false
  wideFault := false

/-- A counter at partition reset (Table 1.5). -/
def Counter.reset : Counter := ⟨0, 0, false, false, false⟩

/-- A queue that is not bound (Table 1.4). -/
def Queue.reset : Queue where
  state := .closed
  word0 := 0
  word1 := 0
  bound := false
  slots := Vector.replicate 8 .empty
  order := []
  permits := []
  fills := Vector.replicate 8 (0, 0)
  held := []
  cause := 0
  plane := 0
  suspended := false
  fill := none
  routes := 0

/-- No cause met. -/
def Causes.none : Causes := ⟨false, false, false, false, false⟩

/-- A FREE catalogue entry (Table 9.1). -/
def Entry.free : Entry where
  state := .free
  gen := 0
  image := Vector.replicate 32 0
  age := 0
  deps := []
  renDeps := []
  ctrLatched := false
  timeLatched := false
  aged := false
  starved := false
  readySince := 0
  status := 0
  flags := 0
  causes := Causes.none
  redirected := []
  peers := []
  objects := []
  pins := []
  extra := []
  seed := 0
  bounds := []
  rsr := 0
  ctx := 0
  chain := ⟨0, false, false, false⟩
  done := false
  squash := false
  committed := false
  received := false
  failed := false
  sent := []

/-- A free rename-table entry. -/
def Rename.reset : Rename where
  state := .free
  box := ⟨0, 0, 0, 0⟩
  shadow := 0
  guard := none
  owner := 0
  cls := 0
  readers := []
  holders := []
  primeDeps := []
  priming := false
  primeRenames := []
  progress := 0
  age := 0

/-- An idle engine. -/
def Engine.reset : Engine := ⟨.idle, 0, 0, [], false, false, .none⟩

/-- The vector engine at partition reset (Table 1.3, R22). -/
def VectorUnit.reset : VectorUnit where
  v := []
  l := []
  z := []
  s := Vector.replicate 16 0
  p := Vector.replicate 8 (BitVec.allOnes 32768)
  lc := Vector.replicate 3 0
  wb := 0
  shape := 0x00100200#32
  task := none
  kernel := []
  next := 0
  loops := Vector.replicate 3 ⟨0, 0, 0, false, 0⟩
  x := 0
  waiting := false
  after := none

/-- A core after power-up (Table 1.3, Table 1.4). -/
def Core.reset : Core where
  ctxs := Vector.replicate 8 Context.reset
  cur := 0
  turn := 0
  chosen := 0
  cycles := 0
  entries := Vector.replicate 256 Entry.free
  nextAge := 0
  closed := false
  posters := []
  cramped := []
  renames := Vector.replicate 64 Rename.reset
  annex := 0
  guards := Vector.replicate 32 .free
  counters := Vector.replicate 256 Counter.reset
  bregs := Vector.replicate 64 0
  queues := Vector.replicate 16 Queue.reset
  arrived := []
  chains := ⟨0, none, false, []⟩
  acc := []
  vec := VectorUnit.reset
  matrix := Engine.reset
  transpose := Engine.reset
  copy := Engine.reset
  timers := []
  failed := false

/-- A group-table entry at reset (Table 1.6). -/
def Group.reset : Group := ⟨0, 0, 0, .idle, 0, 0, Vector.replicate 4 0⟩

/-- A command queue at reset (Table 14.2). -/
def CmdQueue.reset : CmdQueue where
  base := 0
  size := 4
  tail := 0
  head := 0
  en := false
  lsel := 0
  state := .stopped
  cause := 0
  aborted := false
  errAddr := 0
  links := []
  busy := none
  progress := 0
  failed := []

/-- A partition's block at reset (Table 14.1, Table 13.3). -/
def Partition.reset : Partition where
  state := .empty
  clmask := 0
  mwin := Vector.replicate 4 0
  cwin := 0
  grp := 0
  rslot := 0
  msix := 0
  qos := 0x0101
  lostarr := 0
  istat := 0
  ignored := 0
  flbase := 0
  flsize := 7
  flprod := 0
  flcons := 0
  ovf := false
  armed := true
  fseq := 0
  queues := Vector.replicate 4 CmdQueue.reset
  vseed := 0
  rseed := 0
  heap := 0
  roots := Vector.replicate 4 0
  annex := 0
  command := none
  written := []
  checkFails := Vector.replicate 4 0
  softErrors := 0

/-- A FREE reduction slot (R362). -/
def RSlot.reset : RSlot := ⟨false, Vector.replicate 4 0, [], 0, none, false, 0, 0⟩

/-- A keeper before its boot ROM has run (R409). -/
def Keeper.reset : Keeper := ⟨true, false, false, false, 0, false, Vector.replicate 8 0⟩

/-- The device right after power-up, with no partition configured (log 2, log 3). -/
def State.reset : State where
  agenda := []
  schedule := []
  focus := 0
  second := 0
  arg := .none
  now := 0
  free := 0
  out := []
  cores := Vector.replicate 160 Core.reset
  mem := []
  tags := []
  groups := Vector.replicate 256 Group.reset
  parts := Vector.replicate 16 Partition.reset
  devq := CmdQueue.reset
  devId := 0
  time := 0
  rate := 0
  holdover := false
  locked := false
  stepped := false
  ptpcfg := 0
  toffset := 0
  sensors := []
  sampled := 0
  steps := Vector.replicate 20 0
  raised := 0
  clocks := Vector.replicate 4 (Vector.replicate 4 0)
  fenceClock := Vector.replicate 4 0
  stamps := []
  copies := []
  parked := []
  misses := []
  behind := []
  failedLookups := []
  records := []
  waits := []
  reserved := []
  heldMoving := []
  stations := Vector.replicate 16 false
  live := []
  linkChanges := []
  reqSeq := 0
  requests := []
  applied := []
  heldPackets := []
  stationed := []
  heldLines := []
  slots := Vector.replicate 64 RSlot.reset
  appraisers := Vector.replicate 16 ⟨0, [], none, []⟩
  keepers := Vector.replicate 4 Keeper.reset
  lease := ⟨0, false, 0, 0⟩
  leaseLost := false
  journal := []
  kept := []
  deviceFailed := false

end Sys2Proof.Machine
end

