-- ==== Sys2Proof/Machine/Memory.lean ====
section
/-! DEFINITION. Byte memories and line tags as plain data in canonical form, and the address plan: device memory die d
at d × 2^37, the commons of die d at 2^40 + d × 2^26, the tile store of core c at 2^41 + c × 2^23, and host memory at
2^58 (R32-R34, R373). -/

namespace Sys2Proof.Machine

/-- The cells of a byte string at an address; a zero byte is not listed. -/
def cells : Nat → List Byte → Memory
  | _, [] => []
  | k, b :: r => if b = 0 then cells (k + 1) r else (k, b) :: cells (k + 1) r

/-- `n` bytes from address `k` of a memory whose entries start at or after `k`. -/
def readFrom : Nat → Nat → Memory → List Byte
  | 0, _, _ => []
  | n + 1, k, [] => 0 :: readFrom n (k + 1) []
  | n + 1, k, (a, b) :: r =>
    if a = k then b :: readFrom n (k + 1) r else 0 :: readFrom n (k + 1) ((a, b) :: r)

/-- One byte; an unlisted address reads 0 (log 4). -/
def Memory.byte (m : Memory) (k : Nat) : Byte :=
  match m with
  | [] => 0
  | (a, b) :: r => if a = k then b else Memory.byte r k

/-- `n` bytes from address `k`. -/
def Memory.read (m : Memory) (k n : Nat) : List Byte := readFrom n k (m.dropWhile fun c => c.1 < k)

/-- The bytes written from address `k`. -/
def Memory.write (m : Memory) (k : Nat) (d : List Byte) : Memory :=
  m.filter (fun c => decide (c.1 < k)) ++ (cells k d ++ m.filter (fun c => decide (k + d.length ≤ c.1)))

/-- `n` bytes from `k` set to zero. -/
def Memory.clear (m : Memory) (k n : Nat) : Memory :=
  m.filter (fun c => decide (c.1 < k)) ++ m.filter (fun c => decide (k + n ≤ c.1))

/-- Canonical form: addresses strictly rise and no listed byte is zero. -/
abbrev Memory.wf (m : Memory) : Prop := m.Pairwise (fun a b => a.1 < b.1) ∧ ∀ c ∈ m, c.2 ≠ 0

/-- A tag of a format, scale and reference bits over 64 data bytes (Table 1.12, R37). -/
def makeTag (fmt scale refb : Nat) (data : List Byte) : Word :=
  let low := fmt % 256 + 256 * (scale % 256) + 65536 * (refb % 256)
  BitVec.ofNat 64 (low + 2 ^ 32 * crc32c (data ++ bytesOf 3 low))

/-- The tag of a line nothing has written: every field zero, CHECK of zeros (Table 1.12). -/
def zeroTag : Word := 0xa94d760800000000#64

/-- The tag of a line. -/
def Tags.get (t : Tags) (line : Nat) : Word := (lookupKey t line).getD zeroTag

/-- The tag of a line set. -/
def Tags.set (t : Tags) (line : Nat) (w : Word) : Tags :=
  t.filter (fun c => decide (c.1 < line))
    ++ ((if w = zeroTag then [] else [(line, w)]) ++ t.filter (fun c => decide (line < c.1)))

/-- The tags of `n` lines set to that of an unwritten line. -/
def Tags.clear (t : Tags) (line n : Nat) : Tags :=
  t.filter (fun c => decide (c.1 < line)) ++ t.filter (fun c => decide (line + n ≤ c.1))

abbrev Tags.wf (t : Tags) : Prop := t.Pairwise (fun a b => a.1 < b.1) ∧ ∀ c ∈ t, c.2 ≠ zeroTag

/-- Whether a line verifies (R37): not poisoned, reserved bits zero, CHECK right. -/
def lineOk (data : List Byte) (t : Word) : Bool :=
  !tagPoison t && t.toNat / 2 ^ 26 % 64 == 0 && tagCheck t == crc32c (data ++ bytesOf 3 (t.toNat % 2 ^ 24))

/-- Key of a die's device memory (R373). -/
def devKey (die pa : Nat) : Nat := die * 2 ^ 37 + pa

/-- Key of a die's commons (R33). -/
def commonsKey (die off : Nat) : Nat := 2 ^ 40 + die * 2 ^ 26 + off

/-- Key of a byte of a core's tile store (R34). -/
def tileKey (c row col : Nat) : Nat := 2 ^ 41 + c * 2 ^ 23 + row * 2048 + col

/-- Key of a host physical address (R32). -/
def hostKey (a : Nat) : Nat := 2 ^ 58 + a

end Sys2Proof.Machine
end

