-- ==== Sys2Proof/Machine/Ops.lean ====
section
/-! DEFINITION. The named operations on the state: registers and contexts, the agenda, vector clocks, translation
(R373-R378), parking and fault records (R379-R381), memory access (R36, R37, R120), wait tables (R141, R142), signal
counters (R27), the docent's choice of context (R14), and taking and leaving a trap (R384, R385, R147). -/

/-- A packet as it travels: whole lines, the words that its LEN does not count being zero (R351, Table 12.1). -/
def Sys2Proof.Packet.padded (k : Sys2Proof.Packet) : Sys2Proof.Packet :=
  { k with words := k.words ++ List.replicate ((8 - k.words.length % 8) % 8) 0 }

namespace Sys2Proof.Machine

/-! ### Reading and replacing parts of the state -/

def vget {α : Type} {n : Nat} (v : Vector α n) (i : Fin n) : α := v[i.val]

def vset {α : Type} {n : Nat} (v : Vector α n) (i : Fin n) (a : α) : Vector α n := v.set i.val a i.isLt

def State.core (s : State) (c : CoreId) : Core := vget s.cores c

def State.setCore (s : State) (c : CoreId) (k : Core) : State := { s with cores := vset s.cores c k }

def State.ctx (s : State) (u : CtxRef) : Context := vget (s.core u.core).ctxs u.ctx

def State.setCtx (s : State) (u : CtxRef) (x : Context) : State :=
  s.setCore u.core { s.core u.core with ctxs := vset (s.core u.core).ctxs u.ctx x }

def State.entry (s : State) (c : CoreId) (h : Handle) : Entry := vget (s.core c).entries h

def State.setEntry (s : State) (c : CoreId) (h : Handle) (e : Entry) : State :=
  s.setCore c { s.core c with entries := vset (s.core c).entries h e }

def State.part (s : State) (p : PartNum) : Partition := vget s.parts p

def State.setPart (s : State) (p : PartNum) (x : Partition) : State := { s with parts := vset s.parts p x }

/-- A command queue (R397). -/
def State.cmdQueue (s : State) : CmdQ → CmdQueue
  | .part p q => vget (s.part p).queues q
  | .device => s.devq

/-- Sets a command queue. -/
def State.setCmdQueue (s : State) (q : CmdQ) (x : CmdQueue) : State :=
  match q with
  | .part p n => s.setPart p { s.part p with queues := vset (s.part p).queues n x }
  | .device => { s with devq := x }

/-- Every command queue. -/
def allQueues : List CmdQ :=
  .device :: (List.finRange 16).flatMap fun p => (List.finRange 4).map fun q => .part p q

/-- A keeper whose two firmware parts run (R409). -/
def Keeper.runs (k : Keeper) : Bool := k.alive && k.trusted && k.untrusted

/-- The partition command that a partition runs is `i` (R405). -/
def State.commanded (s : State) (p : PartNum) (i : Instr) : Bool :=
  match (s.part p).command with
  | some q => match (s.cmdQueue q).busy with
    | some (j, _) => j == i
    | none => false
  | none => false

/-- A SAVE of the partition is in progress (R389). -/
def State.saving (s : State) (p : PartNum) : Bool := s.commanded p .save

/-- A RESTORE of the partition is in progress (R392). -/
def State.restoring (s : State) (p : PartNum) : Bool := s.commanded p .restore

def State.group (s : State) (g : GroupNum) : Group := vget s.groups g

def State.setGroup (s : State) (g : GroupNum) (x : Group) : State := { s with groups := vset s.groups g x }

def State.queue (s : State) (c : CoreId) (q : QNum) : Queue := vget (s.core c).queues q

def State.setQueue (s : State) (c : CoreId) (q : QNum) (x : Queue) : State :=
  s.setCore c { s.core c with queues := vset (s.core c).queues q x }

/-- The docent context that acts: the current context of the core in focus. -/
def State.me (s : State) : CtxRef := ⟨s.focus, (s.core s.focus).cur⟩

/-- X registers; X0 reads 0 (R16). -/
def Context.getX (x : Context) (r : XReg) : Word := if r = 0 then 0 else vget x.x r

/-- A write of an X register; a write of X0 is discarded (R16, R111). -/
def Context.setX (x : Context) (r : XReg) (v : Word) : Context := if r = 0 then x else { x with x := vset x.x r v }

def Context.getH (x : Context) (r : HReg) : Word := vget x.h r

def Context.setH (x : Context) (r : HReg) (v : Word) : Context := { x with h := vset x.h r v }

/-- Die of a physical core (R2). -/
def dieOf (c : CoreId) : DieNum := Fin.ofNat 4 (c.val / 40)

/-- The partition that holds a core's cluster (R394); partition 0 where none does. -/
def State.partOf (s : State) (c : CoreId) : PartNum :=
  (firstFin fun p : PartNum => (s.part p).clmask.toNat.testBit (c.val / 8)).getD 0

/-- A core's cluster belongs to a partition (R394). -/
def State.inPart (s : State) (c : CoreId) : Bool :=
  (List.finRange 16).any fun p => (s.part p).clmask.toNat.testBit (c.val / 8)

/-- Logical number of a core of a partition (R10). -/
def State.logical (s : State) (c : CoreId) : Nat :=
  8 * popNat (c.val / 8) ((s.part (s.partOf c)).clmask.toNat) + c.val % 8

/-- Number of logical cores of a partition. -/
def State.coreCount (s : State) (p : PartNum) : Nat := 8 * popNat 20 ((s.part p).clmask.toNat)

/-- The physical core that holds a logical core of a partition (R10, R391). -/
def State.physical (s : State) (p : PartNum) (l : Nat) : Option CoreId :=
  match (setBits 20 ((s.part p).clmask.toNat))[l / 8]? with
  | some cl => some (Fin.ofNat 160 (8 * cl + l % 8))
  | none => none

/-- The cores of a partition, in logical order. -/
def State.coresOf (s : State) (p : PartNum) : List CoreId :=
  (List.range (s.coreCount p)).filterMap (s.physical p)

/-- Task-image fields (Table 3.12, Table 3.13). -/
def Entry.word (e : Entry) (w : Fin 32) : Word := vget e.image w

def Entry.field (e : Entry) (w : Fin 32) (lo len : Nat) : Nat := bits (e.word w).toNat lo len

def Entry.kind (e : Entry) : Nat := e.field 0 0 3

def kindCode : Kind → Nat
  | .docent => 0
  | .vector => 1
  | .matrix => 2
  | .transpose => 3
  | .copy => 4
  | .join => 5

def Entry.inFlight (e : Entry) : Bool := e.state != .free

/-- The unit that runs a task. -/
def Entry.unit (e : Entry) (c : CoreId) : UnitId :=
  match e.kind with
  | 1 => .vector c
  | 2 => .matrix c
  | 3 => .transpose c
  | 4 => .copy c
  | _ => .docent c

/-- Handles of a core's catalogue whose entry satisfies `p`, in ascending order. -/
def Core.handles (k : Core) (p : Entry → Bool) : List Handle :=
  (k.entries.toList.zipIdx.filter fun q => p q.1).map fun q => Fin.ofNat 256 q.2

/-! ### The agenda -/

/-- Acts that become due, after those that are. -/
def State.due (s : State) (l : List Act) : State := { s with agenda := s.agenda ++ l }

/-- An event becomes due. -/
def State.event (s : State) (i : Instr) : State := s.due [.event i .none]

/-- An event with operands becomes due. -/
def State.eventWith (s : State) (i : Instr) (a : Arg) : State := s.due [.event i a]

/-- An act becomes due unless the same one is. -/
def State.once (s : State) (a : Act) : State := if s.agenda.contains a then s else s.due [a]

/-- A free value (log 6). -/
def State.draw (s : State) : State × Word := ({ s with free := s.free + 1 }, Config.freeWord s.free)

/-- `n` free bytes (log 10). -/
def State.drawBytes (s : State) : Nat → State × List Byte
  | 0 => (s, [])
  | n + 1 =>
    let r := State.drawBytes s n
    let d := r.1.draw
    (d.1, r.2 ++ [d.2.truncate 8])

/-- The registrar of a core has work: a release step for each kind that waits (R296, R297). -/
def State.poke (s : State) (c : CoreId) : State :=
  let waits (k : Nat) : Bool :=
    (s.core c).entries.toList.any fun e => (e.state == .pending || e.state == .ready) && e.kind == k
  let add (s : State) (k : Kind) : State :=
    if waits (kindCode k) then s.once (.event (.taskRelease c k) .none) else s
  add (add (add (add (add (add s .join) .docent) .vector) .matrix) .transpose) .copy

/-! ### Vector clocks (R316) -/

abbrev Clock := Vector Word 4

/-- Entry-wise maximum. -/
def Clock.max (a b : Clock) : Clock :=
  let m (i : Fin 4) : Word := if (vget a i).toNat < (vget b i).toNat then vget b i else vget a i
  #v[m 0, m 1, m 2, m 3]

/-- Every entry of `a` is at most that of `b`. -/
def Clock.le (a b : Clock) : Bool := (List.finRange 4).all fun i => decide ((vget a i).toNat ≤ (vget b i).toNat)

def State.clock (s : State) (d : DieNum) : Clock := vget s.clocks d

/-- A message that creates an edge reaches die `d`. -/
def State.mergeClock (s : State) (d : DieNum) (k : Clock) : State :=
  { s with clocks := vset s.clocks d (Clock.max (s.clock d) k) }

/-- A write issued on die `d` advances entry `d`. -/
def State.advanceClock (s : State) (d : DieNum) : State :=
  { s with clocks := vset s.clocks d (vset (s.clock d) d (vget (s.clock d) d + 1)) }

/-- The place in the order of R330 of a write that die `d` has just issued. -/
def State.markOf (s : State) (d : DieNum) : Mark := ⟨d, s.clock d⟩

/-- A write to a range is the last; what an STLOC covers stays the last propagated write (R330, R331). -/
def State.stampAs (s : State) (m : Mark) (lo len : Nat) (loc : Bool) : State :=
  { s with stamps := ⟨lo, len, m.die, m.clock, loc⟩ ::
      s.stamps.filter fun t => !(decide (lo ≤ t.lo) && decide (t.lo + t.len ≤ lo + len)) || (loc && !t.loc) }

/-- A stamp covers a byte. -/
def Stamp.covers (t : Stamp) (k : Nat) : Bool := decide (t.lo ≤ k) && decide (k < t.lo + t.len)

/-- The last write to a byte. -/
def State.stampAt (s : State) (k : Nat) : Option Stamp := s.stamps.find? fun t => t.covers k

/-- The last propagated write to a byte (R330). -/
def State.propagatedAt (s : State) (k : Nat) : Option Stamp := s.stamps.find? fun t => !t.loc && t.covers k

/-- What stands in a range precedes every later write to it: the initial write of R308. -/
def State.unstamp (s : State) (lo len : Nat) : State :=
  { s with stamps := s.stamps.filter fun t => !(decide (t.lo < lo + len) && decide (lo < t.lo + t.len)) }

/-- A read by an agent on die `d` of a byte reads from the last write to it (R309). -/
def State.readsByte (s : State) (d : DieNum) (k : Nat) : State :=
  match s.stampAt k with
  | some t => if t.die = d then s else s.mergeClock d t.clock
  | none => s

/-- A read by an agent on die `d` of a range reads from the last writes to its bytes (R309). -/
def State.readsFrom (s : State) (d : DieNum) (lo len : Nat) : State :=
  (List.range len).foldl (fun s i => s.readsByte d (lo + i)) s

/-! ### Addresses and windows -/

/-- What a virtual address names (R32, R33, R349): the DIE field of an aperture address is ignored. -/
inductive Target where
  | bad
  | host (a : Nat)
  | remote (dev : DevNum)
  | commons (die : DieNum) (off : Nat)
  | aperture (off : Nat)
  | mem (die : DieNum) (off : Nat)
  deriving DecidableEq, Repr

/-- The keeper of a die has not refused its firmware: the die is part of the device (R409). -/
def State.dieJoins (s : State) (d : DieNum) : Bool := !(vget s.keepers d).refused

def State.target (s : State) (va : Word) : Target :=
  let v := va.toNat
  let off := v % 2 ^ 45
  let die : DieNum := Fin.ofNat 4 (v >>> 45)
  if v >>> 58 ≠ 0 then .bad
  else if v.testBit 57 then .host (v % 2 ^ 57)
  else if BitVec.ofNat 10 (v >>> 47) ≠ s.devId then .remote (BitVec.ofNat 10 (v >>> 47))
  else if 0x1FFFF8000000 ≤ off ∧ off < 0x1FFFFC000000 then .aperture off
  else if !s.dieJoins die then .bad
  else if off ≥ 0x1FFFFC000000 then .commons die (off - 0x1FFFFC000000)
  else .mem die off

/-- A commons offset lies in the partition's window (R33, R394). -/
def State.inCommons (s : State) (p : PartNum) (off len : Nat) : Bool :=
  let w := (s.part p).cwin.toNat
  decide (bits w 0 6 * 2 ^ 20 ≤ off) && decide (off + len ≤ (bits w 0 6 + bits w 6 7) * 2 ^ 20)

/-- A die physical range lies in the partition's memory window (R395). -/
def State.inWindow (s : State) (p : PartNum) (die : DieNum) (pa len : Nat) : Bool :=
  let w := (vget (s.part p).mwin die).toNat
  decide (bits w 0 7 * 2 ^ 30 ≤ pa) && decide (pa + len ≤ (bits w 0 7 + bits w 8 8) * 2 ^ 30)

/-! ### Who accesses, and outcomes -/

/-- Who made a parked access. -/
abbrev Parked.who (a : Parked) : Requester := a.ag.who

/-- The partition of a parked access. -/
abbrev Parked.part (a : Parked) : PartNum := a.ag.part

/-- The outcome of an access: done, waiting (parked or held, its requester noted), or an error (Table 13.2). -/
inductive Got (α : Type) where
  | ok (a : α)
  | wait
  | access
  | data
  deriving DecidableEq, Repr

/-! ### Interrupts (R407) -/

/-- A source of a partition is raised: its message is sent unless its bit is set already. -/
def State.raiseSource (s : State) (p : PartNum) (src : Nat) : State :=
  let x := s.part p
  if x.istat.toNat.testBit src then s
  else
    let s := s.setPart p { x with istat := x.istat ||| BitVec.ofNat 8 (2 ^ src) }
    { s with out := s.out ++ [.interrupt p (bits x.msix.toNat 0 11 + src)] }

/-! ### The leader (R408) -/

/-- A keeper acts as leader: it holds the lease, runs both firmware parts, has renewed within 1.5 ms and has not stopped
(R408, R409). -/
def State.leads (s : State) : Bool :=
  let k := vget s.keepers s.lease.die
  s.lease.valid && k.runs && !k.stopped && decide (s.time.toNat < k.renewed + 1500000)

/-! ### Check failures (R414) -/

/-- The die and partition of a line of storage; `none` for host memory and for memory of no partition. -/
def State.ownerOf (s : State) (line : Nat) : Option (DieNum × PartNum) :=
  let k := 64 * line
  if k < 2 ^ 39 then
    let d : DieNum := Fin.ofNat 4 (k / 2 ^ 37)
    (firstFin fun p : PartNum => s.inWindow p d (k % 2 ^ 37) 64).map fun p => (d, p)
  else if k < 2 ^ 41 then
    let off := (k - 2 ^ 40) % 2 ^ 26
    (firstFin fun p : PartNum => s.inCommons p off 64).map fun p => (Fin.ofNat 4 ((k - 2 ^ 40) / 2 ^ 26), p)
  else if k < 2 ^ 58 then
    let c : CoreId := Fin.ofNat 160 ((k - 2 ^ 41) / 2 ^ 23)
    if s.inPart c then some (dieOf c, s.partOf c) else none
  else none

/-- A check failure is counted for a die and a partition; the 256th raises the partition error source once. -/
def State.countCheck (s : State) (d : DieNum) (p : PartNum) : State :=
  let n := vget (s.part p).checkFails d + 1
  let s := s.setPart p { s.part p with checkFails := vset (s.part p).checkFails d n }
  if n = 256 then s.raiseSource p 6 else s

/-- A check failure of a line is counted for its die and partition. -/
def State.countFailure (s : State) (line : Nat) : State :=
  match s.ownerOf line with
  | none => s
  | some (d, p) => s.countCheck d p

/-! ### Lines and tags (R36, R37) -/

/-- The 64 bytes of a line. -/
def State.lineData (s : State) (line : Nat) : List Byte := s.mem.read (64 * line) 64

def State.poison (s : State) (line : Nat) : State :=
  { s with tags := s.tags.set line (s.tags.get line ||| 0x1000000) }

/-- A line is verified (R37): a failing line is poisoned, and a failure of its check is counted (R414). -/
def State.verify (s : State) (line : Nat) : State × Bool :=
  let t := s.tags.get line
  if lineOk (s.lineData line) t then (s, true)
  else ((if lineOk (s.lineData line) (t &&& ~~~0x1000000#64) then s else s.countFailure line).poison line, false)

/-- Host memory carries no tags; the POISON bit of its line tags marks a line that the host returns poisoned (R414). -/
def isHostKey (k : Nat) : Bool := decide (2 ^ 58 ≤ k)

/-- The tag with which a line arrives from another device: POISON is set where its CHECK fails, and that is counted for the
line's owner (R37, R414). -/
def State.arrivingTag (s : State) (line : Nat) (d : List Byte) (t : Word) : State × Word :=
  if lineOk d t then (s, t)
  else (if lineOk d (t &&& ~~~0x1000000#64) then s else s.countFailure line, t ||| 0x1000000)

/-- Bytes within one line, verified. -/
def State.readKey (s : State) (k n : Nat) : State × Got (List Byte) :=
  if isHostKey k then (s, if tagPoison (s.tags.get (k / 64)) then .data else .ok (s.mem.read k n))
  else
    let v := s.verify (k / 64)
    if v.2 then (v.1, .ok (v.1.mem.read k n)) else (v.1, .data)

/-- A whole line with its tag, verified; a line of host memory is plain (R37, R308). -/
def State.readLineKey (s : State) (k : Nat) : State × Got (List Byte × Word) :=
  if isHostKey k then
    let d := s.mem.read k 64
    (s, if tagPoison (s.tags.get (k / 64)) then .data else .ok (d, makeTag 0 0 0 d))
  else
    let v := s.verify (k / 64)
    if v.2 then (v.1, .ok (v.1.lineData (k / 64), v.1.tags.get (k / 64))) else (v.1, .data)

/-! ### Wait tables (R141, R142, R327) -/

/-- The condition of WAITA (R141). -/
def waitHolds (c : Cmp) (mask expected m : Word) : Bool :=
  let a := m &&& mask
  let b := expected &&& mask
  match c with
  | .eq => a == b
  | .ne => a != b
  | .lt => a.slt b
  | .ge => !a.slt b
  | .ltn => a.ult b
  | .gen => !a.ult b

/-- Wait entries on the words of a range are tested on the value after a write; the write that wakes a context reaches
its die with the clock (R309). -/
def State.testWaits (s : State) (k n : Nat) : State :=
  let hit (w : WaitEntry) : Bool :=
    decide (w.key < k + n) && decide (k < w.key + 8)
      && waitHolds w.c w.mask w.expected (wordOf (s.mem.read w.key 8))
  let woken := s.waits.filter hit
  woken.foldl (fun s w => s.readsFrom (dieOf w.who.core) w.key 8)
    { s with
      waits := s.waits.filter fun w => !hit w
      agenda := s.agenda ++ woken.map fun w => .event (.waitaReply w.who w.seq false) .none }

/-! ### Writes -/

/-- REFB bits of the words that a range of a line touches. -/
def refMask (lo n : Nat) : Nat := (List.range 8).foldl (fun m i => if lo < 8 * i + 8 ∧ 8 * i < lo + n then m ||| 1 <<< i else m) 0

/-- Bytes within one line stored as R120 says: FMT and SCALE kept, REFB of the words written cleared (or, for a
reference, set), CHECK made anew. -/
def State.mergeKey (s : State) (k : Nat) (d : List Byte) (ref : Bool) : State :=
  let mem := s.mem.write k d
  if isHostKey k then { s with mem := mem }
  else
    let t := s.tags.get (k / 64)
    let m := refMask (k % 64) d.length
    let refb := if ref then tagRefb t ||| m else tagRefb t &&& (255 ^^^ m)
    let t' := makeTag (tagFmt t) (tagScale t) refb (mem.read (64 * (k / 64)) 64)
    { s with mem := mem, tags := s.tags.set (k / 64) (t' ||| (t &&& 0x2000000)) }

/-- A whole line written with its tag; host memory keeps no tag. -/
def State.setLine (s : State) (k : Nat) (d : List Byte) (t : Word) : State :=
  { s with mem := s.mem.write k d, tags := s.tags.set (k / 64) (if isHostKey k then zeroTag else t) }

/-- Bytes within one line written as a vector store writes them (R216): the line becomes plain. -/
def State.plainKey (s : State) (k : Nat) (d : List Byte) : State :=
  let s := s.mergeKey k d false
  if isHostKey k then s
  else { s with tags := s.tags.set (k / 64) (makeTag 0 0 0 (s.lineData (k / 64))) }

/-- Bytes of a copied line laid at column `lo` of a line that stands at its destination: its data and tag (R338). -/
def relocMerge (lo : Nat) (data : List Byte) (t : Word) (x : List Byte × Word) : List Byte × Word :=
  let mask := refMask lo data.length
  let l := x.1.take lo ++ (data ++ x.1.drop (lo + data.length))
  (l, makeTag (tagFmt x.2) (tagScale x.2) ((tagRefb x.2 &&& (255 ^^^ mask)) ||| (tagRefb t &&& mask)) l)

/-- A write made at one location. -/
def State.put (s : State) (p : Put) (k : Nat) (d : List Byte) : State :=
  match p with
  | .merge ref => s.mergeKey k d ref
  | .plain => s.plainKey k d
  | .line t => s.setLine k d t
  | .reloc t =>
    let x := relocMerge (k % 64) d t (s.lineData (k / 64), s.tags.get (k / 64))
    s.setLine (k / 64 * 64) x.1 x.2

/-- Bytes within one line stored, and the wait entries of their words tested (R327). -/
def State.storeKey (s : State) (k : Nat) (d : List Byte) (ref : Bool) : State := (s.mergeKey k d ref).testWaits k d.length

/-- A whole line written with its tag, and the wait entries of its words tested (R327). -/
def State.storeLine (s : State) (k : Nat) (d : List Byte) (t : Word) : State := (s.setLine k d t).testWaits k 64

/-- A write to a range has been made: it is the last there, and its words' wait entries are tested. -/
def State.performedAs (s : State) (m : Mark) (k n : Nat) : State := (s.stampAs m k n false).testWaits k n

/-- A write that die `d` has just issued to a range has been made. -/
def State.performed (s : State) (d : DieNum) (k n : Nat) : State := s.performedAs (s.markOf d) k n

/-- Bytes stored by an agent on die `d`: the write advances its clock (R316). -/
def State.storeBy (s : State) (d : DieNum) (k : Nat) (l : List Byte) (ref : Bool) : State :=
  ((s.advanceClock d).mergeKey k l ref).performed d k l.length

/-- A whole line written by an agent on die `d` (R316). -/
def State.lineBy (s : State) (d : DieNum) (k : Nat) (l : List Byte) (t : Word) : State :=
  ((s.advanceClock d).setLine k l t).performed d k 64

/-- Whether a raw write to a line must be held for a relocation (R338). -/
def State.moving (s : State) (k : Nat) : Bool := !isHostKey k && tagMoving (s.tags.get (k / 64))

def State.hold (s : State) (k : Nat) (who : Requester) : State :=
  { s with heldMoving := s.heldMoving ++ [(k / 64, who)] }

/-- Whether a write is dominated by another, or is it (R316). -/
def Mark.before (m : Mark) (t : Stamp) : Bool := Clock.le m.clock t.clock

/-- The order of R330: a dominated write is first, and of two concurrent ones that of the lower-numbered die. -/
def Mark.after (m : Mark) (t : Stamp) : Bool := Clock.le t.clock m.clock || (!m.before t && decide (t.die.val ≤ m.die.val))

/-- Whether a write to a byte of a replicated page comes after the last propagated write there (R330), and after an STLOC
that is the last write there unless that dominates it (R331). -/
def State.ordersAfter (s : State) (m : Mark) (k : Nat) : Bool :=
  (match s.propagatedAt k with
    | none => true
    | some t => m.after t)
  && match s.stampAt k with
    | none => true
    | some t => !(t.loc && m.before t)

/-- Whether a write to a byte of one home comes after the last write there: not when that dominates it (R316). -/
def State.followsAt (s : State) (m : Mark) (k : Nat) : Bool :=
  match s.stampAt k with
  | none => true
  | some t => Clock.le t.clock m.clock || !m.before t

/-- The bytes of a write that `later` admits are made; the write as a whole, with its line tag, when all are. -/
def State.putWhere (s : State) (m : Mark) (k : Nat) (d : List Byte) (p : Put) (later : Nat → Bool) : State :=
  let after := (List.range d.length).filter fun i => later (k + i)
  if after.length = d.length then (s.put p k d).performedAs m k d.length
  else
    (after.foldl (fun s i => (s.put (.merge false) (k + i) ((d.drop i).take 1)).stampAs m (k + i) 1 false) s).testWaits k
      d.length

/-- A propagated write at one copy of a replicated page (R330): each byte is written that no later write in the order of
R330 covers. -/
def State.propagateAt (s : State) (m : Mark) (k : Nat) (d : List Byte) (p : Put) : State :=
  s.putWhere m k d p (s.ordersAfter m)

/-- A write with its place in the order of R330 at the copies of a location (R120, R316, R330). -/
def State.writeAs (s : State) (m : Mark) (keys : List Nat) (d : List Byte) (p : Put) : State :=
  match keys with
  | [k] => s.putWhere m k d p (s.followsAt m)
  | _ => keys.foldl (fun s k => s.propagateAt m k d p) s

/-- A write of bytes that die `die` issues at the copies of a location (R120, R316, R330). -/
def State.writeAt (s : State) (die : DieNum) (keys : List Nat) (d : List Byte) (p : Put) : State :=
  (s.advanceClock die).writeAs ((s.advanceClock die).markOf die) keys d p

/-- Lines of a write that fail verification refuse it (Table 4.5); host memory has no tags. -/
def State.verifyAll (s : State) (keys : List Nat) : State × Bool :=
  keys.foldl (fun (acc : State × Bool) k =>
    if isHostKey k then acc else let r := acc.1.verify (k / 64); (r.1, acc.2 && r.2)) (s, true)

/-- A store of bytes at the copies of a location (R120, R329, R330): a line being moved holds it, a line that fails
verification refuses it. -/
def State.storeAt (s : State) (ag : Agent) (keys : List Nat) (d : List Byte) (ref : Bool) : State × Got Unit :=
  match keys.find? s.moving with
  | some k => (s.hold k ag.who, .wait)
  | none =>
    let v := s.verifyAll keys
    if v.2 then (v.1.writeAt ag.die keys d (.merge ref), .ok ()) else (v.1, .data)

/-- An STLOC at the copy of its die (R129, R331). -/
def State.storeOwn (s : State) (m : Mark) (who : Requester) (k : Nat) (d : List Byte) : State × Got Unit :=
  if s.moving k then (s.hold k who, .wait)
  else
    let v := s.verifyAll [k]
    if v.2 then (((v.1.mergeKey k d false).stampAs m k d.length true).testWaits k d.length, .ok ()) else (v.1, .data)

/-! ### Translation (R373-R378) -/

/-- The outcome of a walk, with the level at which it stopped (Table 13.2). -/
inductive Walk where
  | hit (pa : Nat) (repl : Bool) (lvl : Nat)
  | miss (lvl : Nat)
  | protection (lvl : Nat)
  | malformed (lvl : Nat)
  | data (lvl : Nat)
  deriving DecidableEq, Repr

/-- A copy of an entry may be used until TFENCE or REPLAY drops it (R377, log 9). -/
def State.copied (s : State) (p : PartNum) (key : Nat) (v : Word) : State × Word :=
  match s.copies.find? fun c => c.part == p && c.key == key && c.value != v with
  | none => (s, v)
  | some c => ({ s with free := s.free + 1 }, if Config.usesCopy s.free then c.value else v)

/-- A slice keeps a copy of an entry it has walked. -/
def State.remember (s : State) (p : PartNum) (key : Nat) (v : Word) : State :=
  if s.copies.contains ⟨p, key, v⟩ then s else { s with copies := s.copies ++ [⟨p, key, v⟩] }

/-- The levels of Table R373: number, shift of the index, index bits, alignment of the next table. -/
def walkLevels : List (Nat × Nat × Nat × Nat) := [(0, 30, 15, 4096), (1, 21, 9, 256), (2, 16, 5, 1)]

/-- A walk from a table through the remaining levels (R373-R375); one that misses caches nothing (R377). -/
def State.walkFrom (s : State) (ag : Agent) (write : Bool) (die : DieNum) (off : Nat) :
    List (Nat × Nat × Nat × Nat) → Nat → State × Walk
  | [], _ => (s, .malformed 2)
  | (lvl, shift, width, align) :: rest, table =>
    let key := devKey die (table + 8 * bits off shift width)
    let v := s.verify (key / 64)
    if !v.2 then (v.1, .data lvl)
    else
      let c := v.1.copied ag.part key (wordOf (v.1.mem.read key 8))
      let s' := c.1
      let e := c.2.toNat
      let leaf := e.testBit 1
      let addr := bits e 8 40 * 256
      if !e.testBit 0 then (s', .miss lvl)
      else if bits e 6 2 ≠ 0 ∨ bits e 48 16 ≠ 0 ∨ addr ≥ 2 ^ 37 then (s', .malformed lvl)
      else if leaf then
        if addr % 2 ^ shift ≠ 0 ∨ !s'.inWindow ag.part die addr (2 ^ shift) then (s', .malformed lvl)
        else if (write && !e.testBit 2) || (ag.exec && !e.testBit 3)
            || (e.testBit 4 && !ag.sup && ag.source != 3) then (s'.remember ag.part key c.2, .protection lvl)
        else (s'.remember ag.part key c.2, .hit (addr + off % 2 ^ shift) (e.testBit 5) lvl)
      else if rest.isEmpty || bits e 2 4 != 0 || addr % align != 0
          || !s'.inWindow ag.part die addr (2 ^ (match rest with
              | (_, _, w, _) :: _ => w + 3
              | [] => 0)) then (s', .malformed lvl)
      else
        let r := s'.walkFrom ag write die off rest addr
        match r.2 with
        | .miss l => (r.1, .miss l)
        | w => (r.1.remember ag.part key c.2, w)

/-- The walk of an offset on a die; a root of zero maps nothing (R373), and a root table that is not whole in the
partition's window is malformed, as a table that an entry names is (R374, R395; log 82). -/
def State.walk (s : State) (ag : Agent) (write : Bool) (die : DieNum) (off : Nat) : State × Walk :=
  let root := vget (s.part ag.part).roots die
  if root = 0 then (s, .miss 0)
  else if !s.inWindow ag.part die root.toNat (2 ^ 18) then (s, .malformed 0)
  else s.walkFrom ag write die off walkLevels root.toNat

/-! ### Parking and fault records (R379-R381) -/

/-- A fault record is made (Table 13.4) and waits to be written. -/
def State.record (s : State) (ag : Agent) (kind : Nat) (write : Bool) (lvl : Nat) (va : Word) (die : DieNum)
    (slice : Nat) : State :=
  let p := s.part ag.part
  let w0 := kind + 16 * write.toNat + 32 * ag.exec.toNat + 64 * ag.source + 256 * ag.part.val + 4096 * die.val
    + 16384 * slice + 2 ^ 32 * p.fseq.toNat
  let w2 := ag.sdev.toNat + 1024 * ag.slog + 2 ^ 18 * lvl
  let r : FaultRecord := ⟨ag.part, #v[BitVec.ofNat 64 w0, va, BitVec.ofNat 64 w2, s.time]⟩
  ({ s with records := s.records ++ [r] }.setPart ag.part { p with fseq := p.fseq + 1 }).eventWith
    .faultRecordWrite (.part ag.part 0)

/-- A miss parks the access: it joins an outstanding record that covers it, or makes one (R380). -/
def State.parkMiss (s : State) (ag : Agent) (write : Bool) (lvl : Nat) (va : Word) (die : DieNum) (off : Nat) : State :=
  let slice := off / 65536 % 96
  let seq := (s.part ag.part).fseq
  let covers (m : MissRecord) : Bool :=
    m.part == ag.part && m.die == die && m.block == off / 65536 && (m.write || !write) && (m.exec || !ag.exec)
  match s.misses.find? covers with
  | some m => { s with parked := s.parked ++ [⟨ag, write, die, Fin.ofNat 96 slice, off / 65536, va, some m.seq⟩] }
  | none =>
    let s := s.record ag 1 write lvl va die slice
    { s with
      misses := s.misses ++ [⟨ag.part, seq, die, off / 65536, write, ag.exec⟩]
      parked := s.parked ++ [⟨ag, write, die, Fin.ofNat 96 slice, off / 65536, va, some seq⟩] }

/-- The requester that waits for a part of its write. -/
def Requester.whole : Requester → Requester
  | .part w _ => w
  | w => w

/-- A write of the host, or of a command, at one die's copy of a replicated page. -/
def Requester.ofHost (w : Requester) : Bool := w.whole == .fabric .hostWrite .none

/-- The place in the order of R316 of a write that has been issued and waits. -/
def State.issued (s : State) : Requester → Option Mark
  | .store u => match (s.ctx u).stores with
    | w :: _ => w.mark
    | [] => none
  | .part _ x => some x.mark
  | _ => none

/-- A write is a predecessor of another: the clock of that dominates its own (R316). -/
def Mark.precedes (m n : Mark) : Bool := Clock.le m.clock n.clock && m.clock != n.clock

/-- A predecessor of a write waits at the walker that is its home (R316, R376): the write waits there for it. -/
def State.preceded (s : State) (ag : Agent) (die : DieNum) (slice : Fin 96) : Bool :=
  let m := (s.issued ag.who).getD ((s.advanceClock ag.die).markOf ag.die)
  s.parked.any fun a => a.write && a.part == ag.part && a.die == die && a.slice == slice && match s.issued a.who with
    | some n => n.precedes m
    | none => false

/-- One walk at its walker (R376, R380): the key of the location and whether its page is replicated. A write that is
preceded waits in the slice's input (R316, log 81); the host's writes meet no check of access rights (R414). -/
def State.locateOn (s : State) (ag : Agent) (write : Bool) (va : Word) (die : DieNum) (off : Nat) (needRepl : Bool) :
    State × Got (Nat × Bool) :=
  let slice : Fin 96 := Fin.ofNat 96 (off / 65536 % 96)
  let full := decide (128 ≤ (s.parked.filter fun a =>
    a.part == ag.part && a.die == die && a.slice == slice && a.record.isSome).length)
  if full then
    ({ s with parked := s.parked ++ [⟨ag, write, die, slice, off / 65536, va, none⟩] }, .wait)
  else
    let w := s.walk ag (write && !ag.who.ofHost) die off
    match w.2 with
    | .hit pa repl l =>
      if needRepl && !repl then (w.1.record ag 3 write l va die slice, .access)
      else if write && w.1.preceded ag die slice then
        ({ w.1 with parked := w.1.parked ++ [⟨ag, write, die, slice, off / 65536, va, none⟩] }, .wait)
      else (w.1, .ok (devKey die pa, repl))
    | .miss l => (w.1.parkMiss ag write l va die off, .wait)
    | .protection l => (w.1.record ag 2 write l va die slice, .access)
    | .malformed l => (w.1.record ag 3 write l va die slice, .access)
    | .data l => (w.1.record ag 4 write l va die slice, .data)

/-- A host address as the host lets the device reach it: its protection errors count as those of a walk (Table 4.5),
and are free (log 10). -/
def State.locateHost (s : State) (a : Nat) : State × Got Nat :=
  ({ s with free := s.free + 1 }, if Config.hostRefuses s.free then .access else .ok (hostKey a))

/-- The part of a write that a requester is, of a die's 64 KiB unit. -/
def Requester.partOn (p : PartNum) (die : DieNum) (block : Nat) : Requester → Bool
  | .part _ x => x.part == p && x.die == die && x.va.toNat % 2 ^ 45 / 65536 == block
  | _ => false

/-- A write to a die's copy of a 64 KiB unit has still to be applied there, the other copies being written (R378). -/
def State.partPending (s : State) (p : PartNum) (die : DieNum) (block : Nat) : Bool :=
  (s.parked.any fun a => a.who.partOn p die block) || s.heldMoving.any fun a => a.2.partOn p die block

/-- A read of a copy of a replicated page waits for the earlier writes that are parked there (R316, R332). -/
def State.readCopy (s : State) (ag : Agent) (die : DieNum) (off k : Nat) (repl : Bool) : State × Got Nat :=
  if repl && s.partPending ag.part die (off / 65536) then
    ({ s with behind := s.behind ++ [⟨ag.part, die, off / 65536, ag.who⟩] }, .wait)
  else (s, .ok k)

/-- Where a read is made: the agent's own copy of a replicated page (R329, R378). -/
def State.locateRead (s : State) (ag : Agent) (va : Word) : State × Got Nat :=
  match s.target va with
  | .bad => (s, .access)
  | .remote _ => (s, .access)
  | .aperture _ => (s, .access)
  | .host a => s.locateHost a
  | .commons die off => if s.inCommons ag.part off 1 then (s, .ok (commonsKey die off)) else (s, .access)
  | .mem die off =>
    let r := s.locateOn ag false va die off false
    match r.2 with
    | .ok (k, repl) =>
      if repl ∧ ag.die ≠ die ∧ ag.source ≠ 2 then
        let r' := r.1.locateOn ag false va ag.die off true
        match r'.2 with
        | .ok (k', _) => r'.1.readCopy ag ag.die off k' true
        | .wait => (r'.1, .wait)
        | .access => (r'.1, .access)
        | .data => (r'.1, .data)
      else r.1.readCopy ag die off k repl
    | .wait => (r.1, .wait)
    | .access => (r.1, .access)
    | .data => (r.1, .data)

/-- What the walks on several dies find (R378): the copies that can be written, the dies whose part is parked, and the
error of a die that fails. -/
structure Copies where
  keys : List Nat
  parked : List DieNum
  fails : Option (Got Unit)
  deriving DecidableEq, Repr

/-- The dies that hold a replicated page: those of the device (R378, R409). -/
def State.replicas (s : State) : List DieNum := (List.finRange 4).filter s.dieJoins

/-- The copies of a replicated page on the dies given: a die that misses parks its part, the others go on (R378). -/
def State.walkCopies (s : State) (ag : Agent) (va : Word) (off : Nat) : List DieNum → State × Copies
  | [] => (s, ⟨[], [], none⟩)
  | d :: r =>
    let a := s.locateOn ag true va d off true
    let b := a.1.walkCopies ag va off r
    (b.1, match a.2 with
      | .ok (k, _) => { b.2 with keys := k :: b.2.keys }
      | .wait => { b.2 with parked := d :: b.2.parked }
      | .access => { b.2 with fails := some .access }
      | .data => { b.2 with fails := some .data })

/-- The requester of an access that its maker has left: a part of a write that stands at other copies is still due. -/
def Requester.left : Requester → Requester
  | .part _ x => .part .gone x
  | _ => .gone

/-- The makers of accesses leave them: a parked access stays at its walker (R380), and a part of a write that stands at
other copies is made when it can be (R330); no other access of theirs is held or waits. -/
def State.leave (s : State) (mine : Requester → Bool) : State :=
  { s with
    parked := s.parked.map fun (a : Parked) => if mine a.who.whole then { a with ag := { a.ag with who := a.who.left } } else a
    heldMoving := (s.heldMoving.map fun a => if mine a.2.whole then (a.1, a.2.left) else a).filter fun a => a.2 != .gone
    behind := s.behind.filter fun a => !mine a.who.whole
    failedLookups := s.failedLookups.filter fun l => !mine l.1 }

/-- An access fails, or its task is stopped: its requester waits for no part of it. -/
def State.unpark (s : State) (who : Requester) : State := s.leave fun w => w == who

/-- Whether a requester waits at a walker, at a moving line, or behind a parked write. -/
def State.waiting (s : State) (who : Requester) : Bool :=
  (s.parked.any fun a => a.who.whole == who) || (s.heldMoving.any fun a => a.2.whole == who)
    || s.behind.any fun a => a.who == who

/-- The copies of a replicated page on the dies given, all of them at hand (R378). -/
def State.copiesOn (s : State) (ag : Agent) (va : Word) (off : Nat) (dies : List DieNum) : State × Got (List Nat) :=
  let r := s.walkCopies ag va off dies
  match r.2.fails with
  | some .data => (r.1.unpark ag.who, .data)
  | some _ => (r.1.unpark ag.who, .access)
  | none => (r.1, if r.2.parked.isEmpty then .ok r.2.keys else .wait)

/-- The part of a write that a die's copy has still to take. -/
def Agent.part_ (ag : Agent) (m : Mark) (va : Word) (d : List Byte) (p : Put) (die : DieNum) : WritePart :=
  ⟨die, ag.part, ag.sdev, ag.slog, ag.source, ag.sup, va, d, p, m⟩

/-- The agent of a part. -/
def WritePart.agent (x : WritePart) (w : Requester) : Agent :=
  { part := x.part, die := x.mark.die, sdev := x.sdev, slog := x.slog, source := x.source, sup := x.sup, exec := false
    who := .part w x }

/-- The first access of a requester that is parked for a die of an address takes the write that it is part of. -/
def makePart (w : Requester) (x : WritePart) : List Parked → List Parked
  | [] => []
  | a :: r =>
    if a.who = w ∧ a.die = x.die ∧ a.va = x.va then { a with ag := x.agent w } :: r
    else a :: makePart w x r

/-- A write put at the copies at hand; the parts of the dies `left`, which miss, stay parked with it (R330, R378). -/
def State.spread (s : State) (ag : Agent) (m : Mark) (ks : List Nat) (left : List DieNum) (va : Word) (d : List Byte)
    (p : Put) : State :=
  if left.isEmpty then s.writeAs m ks d p
  else
    let s := ks.foldl (fun s k => s.propagateAt m k d p) s
    { s with parked := left.foldl (fun l die => makePart ag.who (ag.part_ m va d p die) l) s.parked }

/-- How a write treats a replicated page: applied to all copies, to the issuing die's copy (STLOC), or refused
(read-modify-writes, R326). -/
inductive Spread where
  | all | own | never
  deriving DecidableEq, Repr

/-- Where a write is made (R329, R330, R378). -/
def State.locateWrite (s : State) (ag : Agent) (va : Word) (sp : Spread) : State × Got (List Nat) :=
  match s.target va with
  | .bad => (s, .access)
  | .remote _ => (s, .access)
  | .aperture _ => (s, .access)
  | .host a =>
    let r := s.locateHost a
    (r.1, match r.2 with
      | .ok k => .ok [k]
      | .wait => .wait
      | .access => .access
      | .data => .data)
  | .commons die off => if s.inCommons ag.part off 1 then (s, .ok [commonsKey die off]) else (s, .access)
  | .mem die off =>
    let r := s.locateOn ag true va die off false
    match r.2 with
    | .ok (k, repl) =>
      if !repl then (r.1, .ok [k])
      else match sp with
        | .all => r.1.copiesOn ag va off r.1.replicas
        | .own => r.1.copiesOn ag va off [ag.die]
        | .never => (r.1, .access)
    | .wait => (r.1, .wait)
    | .access => (r.1, .access)
    | .data => (r.1, .data)

/-- Where a propagated write is made (R330, R376-R378): its copies, and the dies whose part is parked. A write whose
every die misses waits whole. -/
def State.locateAll (s : State) (ag : Agent) (va : Word) : State × Got (List Nat × List DieNum) :=
  match s.target va with
  | .mem die off =>
    let r := s.locateOn ag true va die off false
    match r.2 with
    | .ok (k, repl) =>
      if !repl then (r.1, .ok ([k], []))
      else
        let w := r.1.walkCopies ag va off r.1.replicas
        match w.2.fails with
        | some .data => (w.1.unpark ag.who, .data)
        | some _ => (w.1.unpark ag.who, .access)
        | none => (w.1, if w.2.keys.isEmpty then .wait else .ok (w.2.keys, w.2.parked))
    | .wait => (r.1, .wait)
    | .access => (r.1, .access)
    | .data => (r.1, .data)
  | _ =>
    let r := s.locateWrite ag va .own
    (r.1, match r.2 with
      | .ok ks => .ok (ks, [])
      | .wait => .wait
      | .access => .access
      | .data => .data)

/-- A located write of bytes (R120), with its place in the order of R330 where it has one already: a line being moved holds
it, a line that fails verification refuses it. -/
def State.storeSpread (s : State) (ag : Agent) (m : Option Mark) (va : Word) (a : List Nat × List DieNum) (d : List Byte)
    (ref : Bool) : State × Got Unit :=
  match a.1.find? s.moving with
  | some k => (s.hold k ag.who, .wait)
  | none =>
    let v := s.verifyAll a.1
    if !v.2 then (v.1.unpark ag.who, .data)
    else
      let t := if m.isSome then v.1 else v.1.advanceClock ag.die
      (t.spread ag (m.getD (t.markOf ag.die)) a.1 a.2 va d (.merge ref), .ok ())

/-! ### Requests to other devices (R345-R347) -/

/-- Planes that reach a device: up here and in its live mask (R345). -/
def State.planes (s : State) (dev : DevNum) : BitVec 16 :=
  let m := match s.live.find? fun p => p.1 == dev with
    | some p => p.2
    | none => 0
  BitVec.ofNat 16 ((List.finRange 16).foldl (fun a i => if vget s.stations i && m.getLsbD i.val then a + 2 ^ i.val else a) 0)

/-- The plane of a request (R346): the first set plane at or after h mod 16. -/
def State.planeFor (s : State) (dev : DevNum) (h : Nat) : Option Plane :=
  let m := s.planes dev
  ((List.range 16).find? fun i => m.getLsbD ((h + i) % 16)).map fun i => Fin.ofNat 16 (h + i)

/-- The start value of a docent's requests (R346). -/
def docentStart (dev : DevNum) (u : CtxRef) : Nat :=
  (mix32 (BitVec.ofNat 32 (4096 * dev.toNat + 8 * u.core.val + u.ctx.val))).toNat

/-- The start value of a line's requests (R346). -/
def lineStart (va : Word) : Nat := (mix32 (BitVec.ofNat 32 (va.toNat >>> 6))).toNat

/-- The start value of an agent's request for an address (R346). -/
def Agent.start (ag : Agent) (dev : DevNum) (va : Word) : Nat :=
  match ag.who with
  | .retry u => docentStart dev u
  | .waita u _ => docentStart dev u
  | _ => lineStart va

/-- What another device answers to a request whose answer is taken in the same step: that it is served, an error (R350,
R440), or a line that fails verification (R37, R348). A free value (log 10). -/
def State.answerThere (s : State) : State × Got Unit :=
  let d := s.draw
  (d.1, if d.2.getLsbD 0 then .access else if d.2.getLsbD 1 then .data else .ok ())

/-- The aligned size of the read request that covers `n` bytes of a line (Table 12.1). -/
def readSize (va : Word) (n : Nat) : Nat := ([8, 16, 32].find? fun z => decide (va.toNat % z + n ≤ z)).getD 64

/-- A read of bytes within one line, through translation. -/
def State.readVa (s : State) (ag : Agent) (va : Word) (n : Nat) : State × Got (List Byte) :=
  match s.target va with
  | .remote dev =>
    match s.planeFor dev (ag.start dev va) with
    | none => (s, .access)
    | some p =>
      let e := s.answerThere
      let r := e.1.drawBytes n
      let z := readSize va n
      let o : Out := .read dev p r.1.reqSeq ag.part (BitVec.ofNat 64 (va.toNat / z * z)) z
      ({ r.1 with out := r.1.out ++ [o], reqSeq := r.1.reqSeq + 1 }, match e.2 with
        | .ok _ => .ok r.2
        | .wait => .wait
        | .access => .access
        | .data => .data)
  | _ =>
    let a := s.locateRead ag va
    match a.2 with
    | .ok k => let b := a.1.readKey k n; (b.1.readsFrom ag.die k n, b.2)
    | .wait => (a.1, .wait)
    | .access => (a.1, .access)
    | .data => (a.1, .data)

/-- A line of another device with its tag as it arrives, for an agent that reads it: verified here, and a failure of its
check is counted for the agent's die and partition (R37, R348, R414). -/
def State.lineArrives (s : State) (ag : Agent) (d : List Byte) (t : Word) : State × Got (List Byte × Word) :=
  if lineOk d t then (s, .ok (d, t))
  else ((if lineOk d (t &&& ~~~0x1000000#64) then s else s.countCheck ag.die ag.part), .data)

/-- A read of a whole line with its tag, through translation; another device's line is a free value (log 10), verified
where it arrives (R37, R348). -/
def State.readLineVa (s : State) (ag : Agent) (va : Word) : State × Got (List Byte × Word) :=
  match s.target va with
  | .remote dev =>
    match s.planeFor dev (ag.start dev va) with
    | none => (s, .access)
    | some p =>
      let e := s.answerThere
      let r := e.1.drawBytes 64
      let t := r.1.draw
      let s := { t.1 with out := t.1.out ++ [.read dev p t.1.reqSeq ag.part va 64], reqSeq := t.1.reqSeq + 1 }
      match e.2 with
      | .access => (s, .access)
      | .wait => (s, .wait)
      | .data => (s, .data)
      | .ok _ => s.lineArrives ag r.2 t.2
  | _ =>
    let a := s.locateRead ag va
    match a.2 with
    | .ok k => let b := a.1.readLineKey (64 * (k / 64)); (b.1.readsFrom ag.die k 64, b.2)
    | .wait => (a.1, .wait)
    | .access => (a.1, .access)
    | .data => (a.1, .data)

/-! ### Requests (R347) -/


/-- A request leaves for another device, numbered (R347). -/
def State.request (s : State) (dev : DevNum) (p : Plane) (who : Waiter) (f : BitVec 32 → Out) : State :=
  { s with
    requests := s.requests ++ [⟨s.reqSeq, dev, p, who⟩]
    out := s.out ++ [f s.reqSeq]
    reqSeq := s.reqSeq + 1 }

/-! ### Groups and classes (R28, R167) -/

/-- Rank of a logical core in a group, when it is a member. -/
def Group.rank (g : Group) (l : Nat) : Option Nat :=
  if g.members.toNat.testBit l then some (popNat l g.members.toNat) else none

def Group.size (g : Group) : Nat := popNat 160 g.members.toNat

/-- Groups of the partition that hold a core, ascending (R29, GMEMB). -/
def State.groupsOf (s : State) (c : CoreId) : List GroupNum :=
  let l := s.logical c
  let p := s.partOf c
  (s.groups.toList.zipIdx.filter fun q => q.1.part.toNat == p.val && q.1.members.toNat.testBit l).map
    fun q => Fin.ofNat 256 q.2

/-- The class a core inherits from open groups at which it has not arrived (R167, R297). -/
def State.inherited (s : State) (c : CoreId) : Nat :=
  (s.groupsOf c).foldl (fun m g =>
    if (s.group g).state == .opened && !(s.core c).arrived.contains g then max m (s.group g).cls.toNat else m) 0

/-- CLASS, raised by one once the task has aged (R297, R298). -/
def Entry.agedClass (e : Entry) : Nat := if e.aged then min 3 (e.field 0 4 2 + 1) else e.field 0 4 2

/-- Effective class of a context (R167). -/
def State.classOf (s : State) (u : CtxRef) : Nat :=
  let x := s.ctx u
  let e := s.entry u.core (Fin.ofNat 256 x.handle.toNat)
  let own := if x.pused then x.pclass.toNat else e.field 0 4 2
  max (max own (if e.aged then e.agedClass else 0)) (s.inherited u.core)

/-! ### The docent's contexts (R14) -/

/-- The better of two READY contexts: higher class, then older release, then lower number. -/
def State.better (s : State) (c : CoreId) (a b : CtxId) : Bool :=
  let ca := s.classOf ⟨c, a⟩
  let cb := s.classOf ⟨c, b⟩
  let ta := (s.ctx ⟨c, a⟩).readyAt
  let tb := (s.ctx ⟨c, b⟩).readyAt
  decide (cb < ca) || (ca == cb && (decide (ta < tb) || (ta == tb && decide (a.val ≤ b.val))))

/-- A context begins a turn (R14). -/
def State.runs (s : State) (c : CoreId) (a : CtxId) : State :=
  let s := s.setCtx ⟨c, a⟩ { s.ctx ⟨c, a⟩ with state := .running, ranAt := s.now }
  s.setCore c { s.core c with cur := a, turn := 0, chosen := s.now }

/-- The docent chooses the next READY context (R14). -/
def State.select (s : State) (c : CoreId) : State :=
  let ready := (List.finRange 8).filter fun k => (s.ctx ⟨c, k⟩).state == .ready
  let kept := ready.filter fun a => ready.all fun b => a == b || decide ((s.ctx ⟨c, a⟩).ranAt ≤ (s.ctx ⟨c, b⟩).readyAt)
  match kept.find? fun a => kept.all fun b => s.better c a b with
  | none => s
  | some a =>
    s.runs c a

/-- A choice is made when no context of the core runs. -/
def State.dispatch (s : State) (c : CoreId) : State :=
  if (s.ctx ⟨c, (s.core c).cur⟩).state = .running then s else s.select c

/-- A context becomes READY (R14); its docent chooses once every context that the step wakes is READY. -/
def State.wakes (s : State) (u : CtxRef) : State :=
  s.setCtx u { s.ctx u with state := .ready, park := .none, readyAt := s.now }

/-- A context becomes READY alone. -/
def State.ready (s : State) (u : CtxRef) : State := (s.wakes u).dispatch u.core

/-- The docents of cores whose contexts a step has woken choose (R14). -/
def State.choose (s : State) (cs : List CoreId) : State := cs.foldl State.dispatch s

/-- The running context parks, and another is chosen. -/
def State.parkCtx (s : State) (u : CtxRef) (p : Park) : State :=
  (s.setCtx u { s.ctx u with state := .parked, park := p }).dispatch u.core

/-- Status of the causes a task has met, in the order of R42. -/
def Causes.status (c : Causes) : BitVec 4 :=
  if c.data then 3 else if c.access then 2 else if c.queue then 6 else if c.format then 7
  else if c.undeclared then 1 else 0

def Causes.or (a b : Causes) : Causes :=
  ⟨a.data || b.data, a.access || b.access, a.queue || b.queue, a.format || b.format, a.undeclared || b.undeclared⟩

def causeData : Causes := { Causes.none with data := true }
def causeAccess : Causes := { Causes.none with access := true }
def causeQueue : Causes := { Causes.none with queue := true }
def causeFormat : Causes := { Causes.none with format := true }
def causeUndeclared : Causes := { Causes.none with undeclared := true }

/-- A task meets causes. -/
def State.cause (s : State) (c : CoreId) (h : Handle) (k : Causes) : State :=
  s.setEntry c h { s.entry c h with causes := (s.entry c h).causes.or k }

/-- The handle of the task a context runs. -/
def Context.task (x : Context) : Handle := Fin.ofNat 256 x.handle.toNat

/-- A write of a docent task that has executed DONE is not known to be performed: it is queued, its atomic with return is
not answered by another device, or the report of its fault is on its way (R150, R311). -/
def State.docentOwes (s : State) (u : CtxRef) (h : Handle) (gen : BitVec 16) : Bool :=
  ((s.ctx u).stores.any fun w => w.handle == h && w.gen == gen)
    || (s.requests.any fun r => r.who == Waiter.unit (.docent u.core) u.core h)
    || s.agenda.any fun a => match a with
      | .event (.delayedFault v k g _ _) _ => v == u && k == h && g == gen
      | _ => false

/-- A docent task whose writes have all been performed completes (R150). -/
def State.docentComplete (s : State) (u : CtxRef) (h : Handle) (gen : BitVec 16) : State :=
  let e := s.entry u.core h
  if e.done && e.gen == gen && !s.docentOwes u h gen then s.once (.event (.taskCompletion u.core h) .none) else s

/-- A fault report of a context is on its way to it (R125). -/
def State.faultDue (s : State) (u : CtxRef) : Bool :=
  s.agenda.any fun a => match a with
    | .event (.delayedFault v _ _ _ _) _ => v == u
    | _ => false

/-- The fault report on its way to the task of a context, where there is one alone: its cause and address (R126). -/
def State.faultOf (s : State) (u : CtxRef) : Option (BitVec 8 × Word) :=
  let x := s.ctx u
  match s.agenda.filterMap fun a => match a with
    | .event (.delayedFault v h g c va) _ =>
      if v = u ∧ x.state ≠ .empty ∧ x.task = h ∧ x.gen = g ∧ !(s.entry u.core h).done then some (c, va) else none
    | _ => none with
  | [f] => some f
  | _ => none

/-- The outstanding load of a context is discarded, with the report of its fault (R150). -/
def State.dropLoad (s : State) (u : CtxRef) : State :=
  let x := s.ctx u
  match x.load with
  | some l => match l.op with
    | .failed c => { s with agenda := s.agenda.erase (.event (.delayedFault u x.task x.gen c l.addr) .none) }
    | _ => s
  | none => s

/-- An atomic with return that its task leaves outstanding is performed before the task completes (R311; DEDUCED, log 65):
one that has not reached its home joins the store queue, first when it waits at a walker, and the answer of another
device to one that has left is waited for as for a write. -/
def State.owedAtomic (s : State) (u : CtxRef) : State :=
  let x := s.ctx u
  match x.load with
  | none => s
  | some l =>
    match l.op with
    | .load => s
    | .postr => s
    | .failed _ => s
    | op =>
      let me : Requester := .load u l.seq
      if l.homed then
        match s.requests.find? fun r => r.who == Waiter.load u l.seq with
        | none => s
        | some q => { s with
            requests := s.requests.map fun r => if r == q then { r with who := .unit (.docent u.core) u.core x.task } else r
            agenda := s.agenda.map fun a => match a with
              | .event (.loadReply v n _) _ =>
                if v = u ∧ n = l.seq then .event .fabricWrite (.completion q.seq 0) else a
              | a => a }
      else
        let n := if s.waiting me then 0 else l.before
        let w : StoreReq := ⟨l.addr, l.size, 0, none, false, .core, l.level, x.task, x.gen, none, false, some op⟩
        let own (r : Requester) : Requester := if r = me then .store u else r
        let s := s.setCtx u { x with stores := x.stores.take n ++ w :: x.stores.drop n }
        let s := { s with
          parked := s.parked.map fun (a : Parked) => { a with ag := { a.ag with who := own a.ag.who } }
          heldMoving := s.heldMoving.map fun (a : Nat × Requester) => (a.1, own a.2) }
        s.once (.event (.storePerformed u) .none)

/-- The docent task of a context ends (R150, R385): the context is EMPTY at once, an outstanding load is discarded, and
an outstanding atomic is owed. -/
def State.leaveTask (s : State) (u : CtxRef) (k : Causes) : State :=
  let s := (s.owedAtomic u).dropLoad u
  let x := s.ctx u
  let e := s.entry u.core x.task
  let k' := if x.suppressed then k.or causeUndeclared else k
  let s := s.setEntry u.core x.task { e with done := true, flags := x.tflags, causes := e.causes.or k' }
  let s := s.setCtx u { x with state := .empty, park := .none, load := none }
  let s := { s.unpark (.retry u) with waits := s.waits.filter fun w => w.who != u }
  let s := s.setCore u.core { s.core u.core with posters := (s.core u.core).posters.filter fun k => k != u.ctx }
  (s.docentComplete u x.task x.gen).poke u.core

/-- The docent task of a context ends, and the docent chooses another context. -/
def State.endTask (s : State) (u : CtxRef) (k : Causes) : State := (s.leaveTask u k).dispatch u.core

/-! ### The fence after an atomic (R135) -/

/-- An earlier atomic of the context, or the fence after it, is not complete (R135). -/
def Context.fenced (x : Context) : Bool :=
  x.trailing || (match x.load with
    | some l => l.scope != .core
    | none => false) || x.stores.any fun w => w.scope != .core && w.handle == x.task && w.gen == x.gen

/-- Whether what a context issues waits for the fence after an earlier atomic, which ends with the delivery of the
atomic's fault where it has failed (R125, R135, R138). -/
def State.fenced (s : State) (u : CtxRef) : Bool := (s.ctx u).fenced || ((s.ctx u).wideFault && s.faultDue u)

/-! ### Traps (R384, R147) -/

/-- The registers of a context that takes a trap (R384). A FENCE.fabric that it interrupts begins anew with markers of
its own (R353). -/
def Context.trapped (x : Context) (cause : BitVec 8) (eval epc : Word) : Context :=
  let x' := { x with epc := epc, ecause := cause, eval := eval, prev := x.level, level := .s, pc := x.tvec
                     wideFault := false, fencing := false, markers := if x.fencing then [] else x.markers, posting := false, midRef := false }
  if x.level = .u then { x' with x := vset x.x 31 x.sscr, sscr := vget x.x 31 } else x'

/-- A context takes a trap (R384); with TVEC = 0 it ends the task with DATA for cause 0x0B and ACCESS otherwise (R385).
Its docent chooses once every context that the step wakes is READY (R14). -/
def State.enterTrap (s : State) (u : CtxRef) (cause : BitVec 8) (eval epc : Word) : State :=
  let x := s.ctx u
  let t := x.trapped cause eval epc
  if x.tvec = 0 then (s.setCtx u t).leaveTask u (if cause = 0x0B then causeData else causeAccess)
  else if x.state = .running then s.setCtx u t
  else
    let s := { s.unpark (.retry u) with waits := s.waits.filter fun w => w.who != u }
    let s := s.setCore u.core { s.core u.core with posters := (s.core u.core).posters.filter fun k => k != u.ctx }
    if x.state = .ready then s.setCtx u t else (s.setCtx u t).wakes u

/-- A trap is taken (R384): a context that runs goes on at its handler; else the docent chooses, where none of its core
runs. -/
def State.takeTrap (s : State) (u : CtxRef) (cause : BitVec 8) (eval epc : Word) : State :=
  let t := s.enterTrap u cause eval epc
  if (t.ctx u).state = .running then t else t.dispatch u.core

/-- The registers of a context after ERET at level S from an aligned EPC (R147, R384). -/
def Context.returned (x : Context) : Context :=
  let x' := { x with pc := x.epc, level := x.prev, prev := .u }
  if x.prev = .u then { x' with x := vset x.x 31 x.sscr, sscr := vget x.x 31 } else x'

/-! ### Signal counters (R26, R27) -/

/-- Sat32 (R61). -/
def sat32 (v : Int) : Int := max (-2147483648) (min 2147483647 v)

/-- Settle (R27). -/
def Counter.settle (k : Counter) : Counter :=
  if k.expect ≠ 0 ∧ k.count.toInt ≥ k.expect.toNat then
    { k with count := k.count - k.expect, expect := 0, phase := !k.phase }
  else k

/-- An arrival of n with its error and abandoned bits (R27, R44). -/
def Counter.arrive (k : Counter) (n : Int) (err aband : Bool) : Counter :=
  let v := k.count.toInt + n
  Counter.settle { k with
    count := BitVec.ofInt 32 (sat32 v)
    err := k.err || err || decide (v > 2147483647) || decide (v < -2147483648)
    aband := k.aband || aband }

/-- An arming to e (R27). -/
def Counter.arm (k : Counter) (e : BitVec 32) : Counter := Counter.settle { k with expect := e }

def State.counter (s : State) (c : CoreId) (n : CtrNum) : Counter := vget (s.core c).counters n

/-- The contexts that PHASE = `p` of a counter releases become READY (R163). -/
def State.passCounter (s : State) (c : CoreId) (n : CtrNum) (p : Bool) : State :=
  (List.finRange 8).foldl (fun s k =>
    let u : CtxRef := ⟨c, k⟩
    if (s.ctx u).state == .parked && (s.ctx u).park == .waitc n p then
      (s.setCtx u { s.ctx u with pc := (s.ctx u).pc + 4 }).wakes u
    else s) s

/-- The contexts a flip of PHASE to `p` releases become READY together, and the docent chooses (R14, R163). -/
def State.wakeCounter (s : State) (c : CoreId) (n : CtrNum) (p : Bool) : State := (s.passCounter c n p).dispatch c

/-- Counter conditions that a counter's phase makes true are latched (R296). -/
def State.latch (s : State) (c : CoreId) (n : CtrNum) (p : Bool) : State :=
  let hit (e : Entry) : Bool :=
    e.state == .pending && e.field 1 9 1 == 1 && e.field 1 0 8 == n.val && (e.field 1 8 1 == 1) == p
  ((s.core c).handles hit).foldl (fun s h => s.setEntry c h { s.entry c h with ctrLatched := true }) s

/-- A counter's new state; a flip wakes WAITC and latches release conditions (R27, R163, R296). -/
def State.setCounter (s : State) (c : CoreId) (n : CtrNum) (k : Counter) : State :=
  let flips := k.phase != (s.counter c n).phase
  let s := s.setCore c { s.core c with counters := vset (s.core c).counters n k }
  if flips then ((s.wakeCounter c n k.phase).latch c n k.phase).poke c else s

/-- An arrival at a counter of a core (R27). -/
def State.arrival (s : State) (c : CoreId) (n : CtrNum) (v : Int) (err aband : Bool) : State :=
  s.setCounter c n ((s.counter c n).arrive v err aband)

/-! ### Docent instructions -/

/-- Where an instruction stands: the address a trap records in EPC (its IMX, if prefixed), its own address, and the
next instruction's (R77, R117). -/
structure Issue where
  first : Word
  at_ : Word
  next : Word
  deriving DecidableEq, Repr

/-- The issue of an unprefixed instruction. -/
def Context.issue (x : Context) : Issue := ⟨x.pc, x.pc, x.pc + 4⟩

/-- Whether an instruction stalls on the outstanding load (R121): it names the destination or is of the list there. -/
def Context.stalls (x : Context) (regs : List XReg) (listed : Bool) : Bool :=
  match x.load with
  | none => false
  | some l => listed || regs.contains l.dest

/-- The agent of a docent's own access. -/
def State.docentAgent (s : State) (u : CtxRef) (who : Requester) : Agent :=
  { part := s.partOf u.core
    die := dieOf u.core
    sdev := s.devId
    slog := s.logical u.core
    source := 0
    sup := (s.ctx u).level == .s
    exec := false
    who := who }

/-- A precise trap of the acting context (R112). -/
def State.trap (s : State) (i : Issue) (cause : BitVec 8) (eval : Word) : State := s.takeTrap s.me cause eval i.first

/-- A precise trap whose EVAL the manual names no value for: a free value (log 6). -/
def State.trapFree (s : State) (i : Issue) (cause : BitVec 8) : State :=
  let d := s.draw
  d.1.trap i cause d.2

/-- The acting context goes on at the next instruction with its registers changed. -/
def State.retire (s : State) (i : Issue) (f : Context → Context) : State :=
  s.setCtx s.me { f (s.ctx s.me) with pc := i.next }

/-- The outcome of an instruction that names only X registers: it stalls on a load of one of them (R121), or
computes from the context and goes on. -/
def State.plain (s : State) (i : Issue) (regs : List XReg) (f : Context → Context) :
    Host.Outcome State Fault Refusal :=
  if (s.ctx s.me).stalls regs false then .next s else .next (s.retire i f)

end Sys2Proof.Machine
end

