-- ==== Sys2Proof/Machine/Flags.lean ====
section
/-! DEFINITION. Sticky flags (R43, R66): where the flags that an operation raises go. -/

namespace Sys2Proof.Machine

/-- Flags raised by an instruction of a docent context go to its TFLAGS (R134). -/
def State.raiseDocent (s : State) (u : CtxRef) (f : Sticky) : State :=
  s.setCtx u { s.ctx u with tflags := (s.ctx u).tflags ||| f }

/-- Flags raised by a vector, engine or other task go to its catalogue entry (R43). -/
def State.raiseTask (s : State) (c : CoreId) (h : Handle) (f : Sticky) : State :=
  s.setEntry c h { s.entry c h with flags := (s.entry c h).flags ||| f }

/-- The flags of a list of results. -/
def flagsOf (l : List Coded) : Sticky := l.foldl (fun f c => f ||| c.flags) 0

end Sys2Proof.Machine
end

