-- ==== Sys2Proof/Machine/Operands.lean ====
section
/-! DEFINITION. Operand forms of docent instructions: extended immediates (R76), effective addresses (R118), the checks
a docent makes of an address (Table 4.5), and tile-store locations (R130). -/

namespace Sys2Proof

/-- Bytes of an access size. -/
def Size.bytes : Size → Nat
  | .b => 1
  | .h => 2
  | .w => 4
  | .d => 8

/-- Bytes of an atomic's size. -/
def ASize.bytes : ASize → Nat
  | .w => 4
  | .d => 8

def ASize.size : ASize → Size
  | .w => .w
  | .d => .d

/-- An AMO whose old value extends by zeros: minn and maxn (R132). -/
def AmoOp.natural (op : AmoOp) : Bool := op == .minn || op == .maxn

/-- Whether a scope joins agents of several dies (Table 10.4). -/
def Scope.wide (sc : Scope) : Bool := sc == .package || sc == .fabric

end Sys2Proof

namespace Sys2Proof.Machine

/-- imm16 or imm42, sign-extended (R76). -/
def signedImm {w : Nat} (imm : BitVec w) : Word := imm.signExtend 64

/-- imm16 or imm42, zero-extended: ANDI, ORI and XORI (R76). -/
def naturalImm {w : Nat} (imm : BitVec w) : Word := imm.zeroExtend 64

/-- A loaded value extended as its form says (R118): sign, or zero for the natural forms. -/
def extend (z : Size) (nat : Bool) (v : Nat) : Word :=
  match z with
  | .d => BitVec.ofNat 64 v
  | .w => if nat then BitVec.ofNat 64 (v % 2 ^ 32) else (BitVec.ofNat 32 v).signExtend 64
  | .h => if nat then BitVec.ofNat 64 (v % 2 ^ 16) else (BitVec.ofNat 16 v).signExtend 64
  | .b => if nat then BitVec.ofNat 64 (v % 2 ^ 8) else (BitVec.ofNat 8 v).signExtend 64

/-- The targets that a kind of access accepts (check 3 of Table 4.5). -/
inductive Accepts where
  /-- Loads and stores: device memory, the commons, host memory and other devices. -/
  | any
  /-- STLOC, AMO, AMOI and CAS of R129 and R135 (STLOC refuses other devices too). -/
  | stloc
  | atomic
  /-- FAMO, WAITA and NOTIFY: the issuing device only. -/
  | own
  deriving DecidableEq, Repr

def Accepts.takes (a : Accepts) (t : Target) : Bool :=
  match t with
  | .bad => false
  | .aperture _ => false
  | .host _ => a == .any
  | .remote _ => a == .any || a == .atomic
  | .commons _ _ => true
  | .mem _ _ => true

/-- Whether the page of an address is replicated, as a walk finds it now (R326). -/
def State.replicated (s : State) (ag : Agent) (va : Word) : Bool :=
  match s.target va with
  | .mem die off => match (s.walk ag false die off).2 with
    | .hit _ r _ => r
    | _ => false
  | _ => false

/-- Checks 1-4 of Table 4.5, made at the docent: the cause of the first that fails. -/
def State.accessFault (s : State) (u : CtxRef) (a : Accepts) (va : Word) (size : Nat) (rmw : Bool) :
    Option (BitVec 8) :=
  let ag := s.docentAgent u (.retry u)
  let t := s.target va
  if t = .bad then some 0x05
  else if va.toNat % size ≠ 0 then some 0x04
  else if !a.takes t then some 0x05
  else if rmw && s.replicated ag va then some 0x05
  else match t with
    | .commons _ off => if s.inCommons ag.part off size then none else some 0x05
    | _ => none

/-- Indexed address: Xa + Xb × 2^s (R118). -/
def indexed (a b : Word) (s : BitVec 2) : Word := a + b * BitVec.ofNat 64 (2 ^ s.toNat)

/-- EVAL of a tile-store trap (R130). -/
def tileEval (row col : Word) : Word := BitVec.ofNat 64 (2 ^ 63 + (row.toNat * 2048 + col.toNat) % 2 ^ 63)

/-- First annex row of a partition: 3072 − A (R25). -/
def State.annexRow (s : State) (p : PartNum) : Nat := 3072 - (s.part p).annex

/-- A region's class and access (Table 1.10). -/
def regionClass (w : Word) : Nat := bits w.toNat 0 3

def regionReads (w : Word) : Bool := w.toNat.testBit 3

def regionWrites (w : Word) : Bool := w.toNat.testBit 4

def regionUsed (w : Word) : Bool := bits w.toNat 3 2 != 0

/-- The 128 bits of region slot `n` as posted (Table 3.11). -/
def Entry.region (e : Entry) (n : Fin 8) : Nat :=
  (e.word (Fin.ofNat 32 (3 + 2 * n.val))).toNat + 2 ^ 64 * (e.word (Fin.ofNat 32 (4 + 2 * n.val))).toNat

/-- A box of a region (Table 3.14). -/
def boxOf (r : Nat) : Box := ⟨bits r 5 12, bits r 17 12, bits r 29 11, bits r 40 12⟩

/-- The box that a local tile-store slot reaches, as the registrar redirected it (R283). -/
def Entry.boxAt (e : Entry) (n : Fin 8) : Box :=
  match e.redirected.find? fun p => p.1 == n with
  | some p => boxOf p.2.toNat
  | none => boxOf (e.region n)

/-- A location of `n` bytes lies in a box. -/
def Box.holds (b : Box) (row col n : Nat) : Bool :=
  decide (b.row ≤ row) && decide (row < b.row + b.rows) && decide (b.col ≤ col) && decide (col + n ≤ b.col + b.cols)

/-- Two boxes intersect (Table 9.2). -/
def Box.meets (a b : Box) : Bool :=
  decide (a.row < b.row + b.rows) && decide (b.row < a.row + a.rows) && decide (a.col < b.col + b.cols)
    && decide (b.col < a.col + a.cols)

/-- `a` lies wholly inside `b` (R283). -/
def Box.inside (a b : Box) : Bool :=
  decide (b.row ≤ a.row) && decide (a.row + a.rows ≤ b.row + b.rows) && decide (b.col ≤ a.col)
    && decide (a.col + a.cols ≤ b.col + b.cols)

/-- The row at which a task reaches a declared tile-store location, when some local slot of the access kind holds it:
its own row, or the shadow's (R131, R283). -/
def Entry.tileRow (e : Entry) (write : Bool) (row col n : Nat) : Option Nat :=
  let ok (k : Fin 8) : Bool :=
    let w := e.region k
    bits w 0 3 == 0 && (if write then w.testBit 4 else w.testBit 3) && (boxOf w).holds row col n
  match (List.finRange 8).find? ok with
  | some k => some ((e.boxAt k).row + (row - (boxOf (e.region k)).row))
  | none => none

end Sys2Proof.Machine
end

