-- ==== Sys2Proof/Machine/Alu.lean ====
section
/-! DEFINITION. Integer and logical instructions (R113-R116, Table 4.1, Table 4.2). -/

namespace Sys2Proof.Machine

/-! ### The operations -/

/-- DIV (Table 4.1). -/
def divide (a b : Word) : Word := if b = 0 then BitVec.allOnes 64 else a.sdiv b

def divideN (a b : Word) : Word := if b = 0 then BitVec.allOnes 64 else a / b

def remainder (a b : Word) : Word := if b = 0 then a else a.srem b

def remainderN (a b : Word) : Word := if b = 0 then a else a % b

/-- Bits [127:64] of the exact signed product. -/
def highSigned (a b : Word) : Word := (a.signExtend 128 * b.signExtend 128).extractLsb' 64 64

def highNatural (a b : Word) : Word := (a.zeroExtend 128 * b.zeroExtend 128).extractLsb' 64 64

def lesser (a b : Word) : Word := if a.slt b then a else b

def greater (a b : Word) : Word := if a.slt b then b else a

def lesserN (a b : Word) : Word := if a.ult b then a else b

def greaterN (a b : Word) : Word := if a.ult b then b else a

/-- 1 or 0. -/
def truth (b : Bool) : Word := if b then 1 else 0

/-- A shift amount: the low six bits (R113). -/
def amount (b : Word) : Nat := b.toNat % 64

def leadingZeros (a : Word) : Word := if a = 0 then 64 else BitVec.ofNat 64 (63 - Nat.log2 a.toNat)

def trailingZeros (a : Word) : Word := BitVec.ofNat 64 (((List.range 64).find? fun i => a.getLsbD i).getD 64)

def countBits (a : Word) : Word := BitVec.ofNat 64 (popNat 64 a.toNat)

/-- Mask of `w` low bits. -/
def lowMask (w : Nat) : Word := BitVec.ofNat 64 (2 ^ w - 1)

/-- EXTS (R115): `w` is the count less one. -/
def fieldSigned (a : Word) (pos w : BitVec 6) : Word :=
  BitVec.ofInt 64 (signed (w.toNat + 1) (bits a.toNat pos.toNat (w.toNat + 1)))

/-- EXTZ (R115). -/
def fieldNatural (a : Word) (pos w : BitVec 6) : Word := BitVec.ofNat 64 (bits a.toNat pos.toNat (w.toNat + 1))

/-- INSF (R115). -/
def fieldInsert (d a : Word) (pos w : BitVec 6) : Word :=
  let m := lowMask (w.toNat + 1) <<< pos.toNat
  (d &&& ~~~m) ||| ((a <<< pos.toNat) &&& m)

/-- LIH (Table 4.2). -/
def loadHigh (d : Word) (imm : BitVec 16) : Word := (imm.zeroExtend 64 <<< 42) ||| (d &&& lowMask 42)

/-! ### The forms -/

/-- Xd from Xa and Xb. -/
def State.alu2 (s : State) (d a b : XReg) (op : Word → Word → Word) : Host.Outcome State Fault Refusal :=
  s.plain (s.ctx s.me).issue [d, a, b] fun x => x.setX d (op (x.getX a) (x.getX b))

/-- Xd from Xa alone. -/
def State.alu1 (s : State) (i : Issue) (d a : XReg) (op : Word → Word) : Host.Outcome State Fault Refusal :=
  s.plain i [d, a] fun x => x.setX d (op (x.getX a))

/-- Xd from its old value and Xa. -/
def State.aluKeep (s : State) (i : Issue) (d a : XReg) (op : Word → Word → Word) :
    Host.Outcome State Fault Refusal :=
  s.plain i [d, a] fun x => x.setX d (op (x.getX d) (x.getX a))

/-! ### The instructions -/

def execAdd (d a b : XReg) (s : State) : Host.Outcome State Fault Refusal := s.alu2 d a b (· + ·)
def execSub (d a b : XReg) (s : State) : Host.Outcome State Fault Refusal := s.alu2 d a b (· - ·)
def execMul (d a b : XReg) (s : State) : Host.Outcome State Fault Refusal := s.alu2 d a b (· * ·)
def execMulh (d a b : XReg) (s : State) : Host.Outcome State Fault Refusal := s.alu2 d a b highSigned
def execMulhn (d a b : XReg) (s : State) : Host.Outcome State Fault Refusal := s.alu2 d a b highNatural
def execDiv (d a b : XReg) (s : State) : Host.Outcome State Fault Refusal := s.alu2 d a b divide
def execDivn (d a b : XReg) (s : State) : Host.Outcome State Fault Refusal := s.alu2 d a b divideN
def execRem (d a b : XReg) (s : State) : Host.Outcome State Fault Refusal := s.alu2 d a b remainder
def execRemn (d a b : XReg) (s : State) : Host.Outcome State Fault Refusal := s.alu2 d a b remainderN
def execAnd (d a b : XReg) (s : State) : Host.Outcome State Fault Refusal := s.alu2 d a b (· &&& ·)
def execOr (d a b : XReg) (s : State) : Host.Outcome State Fault Refusal := s.alu2 d a b (· ||| ·)
def execXor (d a b : XReg) (s : State) : Host.Outcome State Fault Refusal := s.alu2 d a b (· ^^^ ·)
def execAndn (d a b : XReg) (s : State) : Host.Outcome State Fault Refusal := s.alu2 d a b fun x y => x &&& ~~~y
def execShl (d a b : XReg) (s : State) : Host.Outcome State Fault Refusal := s.alu2 d a b fun x y => x <<< amount y
def execShr (d a b : XReg) (s : State) : Host.Outcome State Fault Refusal := s.alu2 d a b fun x y => x >>> amount y
def execSra (d a b : XReg) (s : State) : Host.Outcome State Fault Refusal :=
  s.alu2 d a b fun x y => x.sshiftRight (amount y)
def execRotl (d a b : XReg) (s : State) : Host.Outcome State Fault Refusal :=
  s.alu2 d a b fun x y => x.rotateLeft (amount y)
def execMin (d a b : XReg) (s : State) : Host.Outcome State Fault Refusal := s.alu2 d a b lesser
def execMax (d a b : XReg) (s : State) : Host.Outcome State Fault Refusal := s.alu2 d a b greater
def execMinn (d a b : XReg) (s : State) : Host.Outcome State Fault Refusal := s.alu2 d a b lesserN
def execMaxn (d a b : XReg) (s : State) : Host.Outcome State Fault Refusal := s.alu2 d a b greaterN
def execSlt (d a b : XReg) (s : State) : Host.Outcome State Fault Refusal := s.alu2 d a b fun x y => truth (x.slt y)
def execSltn (d a b : XReg) (s : State) : Host.Outcome State Fault Refusal := s.alu2 d a b fun x y => truth (x.ult y)
def execSeq (d a b : XReg) (s : State) : Host.Outcome State Fault Refusal := s.alu2 d a b fun x y => truth (x == y)

def execClz (d a : XReg) (s : State) : Host.Outcome State Fault Refusal := s.alu1 (s.ctx s.me).issue d a leadingZeros
def execCtz (d a : XReg) (s : State) : Host.Outcome State Fault Refusal := s.alu1 (s.ctx s.me).issue d a trailingZeros
def execPopc (d a : XReg) (s : State) : Host.Outcome State Fault Refusal := s.alu1 (s.ctx s.me).issue d a countBits

/-- SEL (R114). -/
def execSel (d c a b : XReg) (s : State) : Host.Outcome State Fault Refusal :=
  s.plain (s.ctx s.me).issue [d, c, a, b] fun x => x.setX d (if x.getX c ≠ 0 then x.getX a else x.getX b)

/-- ADDI with its immediate extended, unprefixed or under IMX. -/
def State.addImm (s : State) (i : Issue) (d a : XReg) (imm : Word) : Host.Outcome State Fault Refusal :=
  s.alu1 i d a (· + imm)

def State.andImm (s : State) (i : Issue) (d a : XReg) (imm : Word) : Host.Outcome State Fault Refusal :=
  s.alu1 i d a (· &&& imm)

def State.orImm (s : State) (i : Issue) (d a : XReg) (imm : Word) : Host.Outcome State Fault Refusal :=
  s.alu1 i d a (· ||| imm)

def State.xorImm (s : State) (i : Issue) (d a : XReg) (imm : Word) : Host.Outcome State Fault Refusal :=
  s.alu1 i d a (· ^^^ imm)

def State.sltImm (s : State) (i : Issue) (d a : XReg) (imm : Word) : Host.Outcome State Fault Refusal :=
  s.alu1 i d a fun x => truth (x.slt imm)

def State.loadImm (s : State) (i : Issue) (d : XReg) (imm : Word) : Host.Outcome State Fault Refusal :=
  s.plain i [d] fun x => x.setX d imm

def execAddi (d a : XReg) (imm : BitVec 16) (s : State) : Host.Outcome State Fault Refusal :=
  s.addImm (s.ctx s.me).issue d a (signedImm imm)
def execAndi (d a : XReg) (imm : BitVec 16) (s : State) : Host.Outcome State Fault Refusal :=
  s.andImm (s.ctx s.me).issue d a (naturalImm imm)
def execOri (d a : XReg) (imm : BitVec 16) (s : State) : Host.Outcome State Fault Refusal :=
  s.orImm (s.ctx s.me).issue d a (naturalImm imm)
def execXori (d a : XReg) (imm : BitVec 16) (s : State) : Host.Outcome State Fault Refusal :=
  s.xorImm (s.ctx s.me).issue d a (naturalImm imm)
def execShli (d a : XReg) (sh : BitVec 6) (s : State) : Host.Outcome State Fault Refusal :=
  s.alu1 (s.ctx s.me).issue d a (· <<< sh.toNat)
def execShri (d a : XReg) (sh : BitVec 6) (s : State) : Host.Outcome State Fault Refusal :=
  s.alu1 (s.ctx s.me).issue d a (· >>> sh.toNat)
def execSrai (d a : XReg) (sh : BitVec 6) (s : State) : Host.Outcome State Fault Refusal :=
  s.alu1 (s.ctx s.me).issue d a (·.sshiftRight sh.toNat)
def execSlti (d a : XReg) (imm : BitVec 16) (s : State) : Host.Outcome State Fault Refusal :=
  s.sltImm (s.ctx s.me).issue d a (signedImm imm)
def execLil (d : XReg) (imm : BitVec 16) (s : State) : Host.Outcome State Fault Refusal :=
  s.loadImm (s.ctx s.me).issue d (signedImm imm)
def execLih (d : XReg) (imm : BitVec 16) (s : State) : Host.Outcome State Fault Refusal :=
  s.plain (s.ctx s.me).issue [d] fun x => x.setX d (loadHigh (x.getX d) imm)

def execExts (d a : XReg) (pos w : BitVec 6) (s : State) : Host.Outcome State Fault Refusal :=
  s.alu1 (s.ctx s.me).issue d a (fieldSigned · pos w)
def execExtz (d a : XReg) (pos w : BitVec 6) (s : State) : Host.Outcome State Fault Refusal :=
  s.alu1 (s.ctx s.me).issue d a (fieldNatural · pos w)
def execInsf (d a : XReg) (pos w : BitVec 6) (s : State) : Host.Outcome State Fault Refusal :=
  s.aluKeep (s.ctx s.me).issue d a (fieldInsert · · pos w)

end Sys2Proof.Machine
end

