-- ==== Sys2Proof/Machine/Branch.lean ====
section
/-! DEFINITION. Branches (R117, Table 4.3). -/

namespace Sys2Proof.Machine

/-- The target of a word offset: the branch word's address plus four times it (R117). -/
def branchTarget (i : Issue) (off : Word) : Word := i.at_ + off * 4

/-- A branch: taken to a target, with its link, unless the target is misaligned (R73, R117). -/
def State.branch (s : State) (i : Issue) (regs : List XReg) (taken : Context → Bool) (target : Context → Word)
    (link : Bool) : Host.Outcome State Fault Refusal :=
  let x := s.ctx s.me
  if x.stalls regs false then .next s
  else if !taken x then .next (s.retire i id)
  else if (target x).toNat % 4 ≠ 0 then .next (s.trap i 0x04 (target x))
  else .next (s.setCtx s.me { (if link then x.setX 30 (i.at_ + 4) else x) with pc := target x })

/-- A conditional branch of two registers. -/
def State.branchIf (s : State) (i : Issue) (a b : XReg) (off : Word) (cond : Word → Word → Bool) :
    Host.Outcome State Fault Refusal :=
  s.branch i [a, b] (fun x => cond (x.getX a) (x.getX b)) (fun _ => branchTarget i off) false

/-- A conditional branch of one register. -/
def State.branchZ (s : State) (i : Issue) (a : XReg) (off : Word) (cond : Word → Bool) :
    Host.Outcome State Fault Refusal :=
  s.branch i [a] (fun x => cond (x.getX a)) (fun _ => branchTarget i off) false

def execB (off : BitVec 26) (s : State) : Host.Outcome State Fault Refusal :=
  let i := (s.ctx s.me).issue
  s.branch i [] (fun _ => true) (fun _ => branchTarget i (signedImm off)) false

def execBl (off : BitVec 26) (s : State) : Host.Outcome State Fault Refusal :=
  let i := (s.ctx s.me).issue
  s.branch i [30] (fun _ => true) (fun _ => branchTarget i (signedImm off)) true

def execBeq (a b : XReg) (off : BitVec 16) (s : State) : Host.Outcome State Fault Refusal :=
  s.branchIf (s.ctx s.me).issue a b (signedImm off) (· == ·)
def execBne (a b : XReg) (off : BitVec 16) (s : State) : Host.Outcome State Fault Refusal :=
  s.branchIf (s.ctx s.me).issue a b (signedImm off) (· != ·)
def execBlt (a b : XReg) (off : BitVec 16) (s : State) : Host.Outcome State Fault Refusal :=
  s.branchIf (s.ctx s.me).issue a b (signedImm off) fun x y => x.slt y
def execBge (a b : XReg) (off : BitVec 16) (s : State) : Host.Outcome State Fault Refusal :=
  s.branchIf (s.ctx s.me).issue a b (signedImm off) fun x y => !x.slt y
def execBltn (a b : XReg) (off : BitVec 16) (s : State) : Host.Outcome State Fault Refusal :=
  s.branchIf (s.ctx s.me).issue a b (signedImm off) fun x y => x.ult y
def execBgen (a b : XReg) (off : BitVec 16) (s : State) : Host.Outcome State Fault Refusal :=
  s.branchIf (s.ctx s.me).issue a b (signedImm off) fun x y => !x.ult y
def execBz (a : XReg) (off : BitVec 16) (s : State) : Host.Outcome State Fault Refusal :=
  s.branchZ (s.ctx s.me).issue a (signedImm off) (· == 0)
def execBnz (a : XReg) (off : BitVec 16) (s : State) : Host.Outcome State Fault Refusal :=
  s.branchZ (s.ctx s.me).issue a (signedImm off) (· != 0)

/-- BR (R117). -/
def execBr (a : XReg) (s : State) : Host.Outcome State Fault Refusal :=
  s.branch (s.ctx s.me).issue [a] (fun _ => true) (fun x => x.getX a) false

/-- BLR reads Xa before it writes X30 (R117). -/
def execBlr (a : XReg) (s : State) : Host.Outcome State Fault Refusal :=
  s.branch (s.ctx s.me).issue [a, 30] (fun _ => true) (fun x => x.getX a) true

end Sys2Proof.Machine
end

