-- ==== Sys2Proof/Machine/Mem.lean ====
section
/-! DEFINITION. Loads, stores, atomics, fences and waits of a docent, and what happens to them at their homes
(R118-R144). -/

namespace Sys2Proof.Machine

/-! ### Fences (R135, R138, R139, R319, R353) -/

/-- A completed fence takes its place in fence order (R319). -/
def State.fenceDone (s : State) (u : CtxRef) (sc : Scope) : State :=
  if sc.wide then
    let d := dieOf u.core
    let k := Clock.max s.fenceClock (s.clock d)
    { s with fenceClock := k, clocks := vset s.clocks d k }
  else s

/-- The planes that are set, ascending. -/
def planeList (m : BitVec 16) : List Plane := (List.finRange 16).filter fun p => m.getLsbD p.val

/-- A marker on each plane of a device (R353). -/
def State.sendMarkers (s : State) (u : CtxRef) (dev : DevNum) : State :=
  let ps := planeList (s.planes dev)
  let seq := (s.ctx u).fseq
  let w := s.devId.toNat + 1024 * u.core.val + 2 ^ 18 * u.ctx.val + 2 ^ 21 * (ps.length % 16) + 2 ^ 32 * seq.toNat
  ps.foldl (fun s p =>
    let s := s.request dev p (.marker u dev p seq) fun q => .marker dev p q (s.partOf u.core) (BitVec.ofNat 64 w)
    let s := s.setCtx u { s.ctx u with markers := (s.ctx u).markers ++ [(dev, p)] }
    s.eventWith .fenceMarkerAnswer (.markerAnswer u dev p seq)) s

/-- Stores of a context are still to be performed at a scope. At core, cluster and die scope the oldest is, once it has
been applied at its own die's copy (R318). -/
def State.storesLeft (s : State) (u : CtxRef) (sc : Scope) : Bool :=
  match (s.ctx u).stores with
  | [] => false
  | [w] => !(w.parted && !sc.wide && !s.partPending (s.partOf u.core) (dieOf u.core) (w.addr.toNat % 2 ^ 45 / 65536))
  | _ => true

/-- A fence of the acting context: `true` once it is complete (R138, R139). Faults of earlier accesses are delivered
first (R127). -/
def State.fenceStep (s : State) (u : CtxRef) (sc : Scope) : State × Bool :=
  let x := s.ctx u
  if x.load.isSome || s.storesLeft u sc || x.trailing || s.faultDue u then (s, false)
  else if sc = .fabric ∧ x.fencing then
    if x.markers.isEmpty then
      ((s.setCtx u { x with fencing := false, written := [] }).fenceDone u sc, true)
    else (s, false)
  else if sc = .fabric ∧ !x.written.isEmpty then
    let s := s.setCtx u { x with fencing := true, fseq := x.fseq + 1 }
    (x.written.foldl (fun s d => s.sendMarkers u d) s, false)
  else (s.fenceDone u sc, true)

/-- The fence after an atomic of scope fabric is complete once its markers are answered (R135, R353). -/
def State.endTrail (s : State) (u : CtxRef) : State :=
  let x := s.ctx u
  if x.trailing && x.markers.isEmpty then
    (s.setCtx u { x with trailing := false, written := [] }).fenceDone u .fabric
  else s

/-- The fence that follows an atomic once it is performed (R135, R319, R325): nothing of the context is outstanding. -/
def State.trailFence (s : State) (u : CtxRef) (sc : Scope) : State :=
  let x := s.ctx u
  if sc = .core then s
  else if sc = .fabric ∧ !x.written.isEmpty then
    let s := s.setCtx u { x with trailing := true, fseq := x.fseq + 1 }
    (x.written.foldl (fun s d => s.sendMarkers u d) s).endTrail u
  else s.fenceDone u sc

/-! ### Program order (R310, R320) -/

/-- What orders the accesses of a docent task among themselves (R310): the issuing device, host memory, or one other
device. -/
def Target.side : Target → Nat
  | .host _ => 1
  | .remote dev => 2 + dev.toNat
  | _ => 0

/-- The side of an address. -/
def State.side (s : State) (va : Word) : Nat := (s.target va).side

/-- A load or atomic whose value is still to be fixed at its home, or whose request is still to leave. -/
def PendingLoad.open_ (l : PendingLoad) : Bool :=
  !l.homed && (match l.op with
    | .failed _ => false
    | _ => true)

/-- A write of side `d` that follows `n` queued stores in program order must wait for the outstanding load or atomic
(R310, R314): it precedes the write, and its value is not yet fixed. A load that a save abandons holds nothing back
(R126). -/
def State.heldByLoad (s : State) (u : CtxRef) (d : Nat) (n : Nat) : Bool :=
  match (s.ctx u).load with
  | some l => l.open_ && decide (l.before ≤ n) && s.side l.addr == d && !(l.op == .load && s.saving (s.partOf u.core))
  | none => false

/-- An AMOI to a side is queued: what follows it in program order on that side waits for it, since it reads (R310). -/
def State.amoiQueued (s : State) (u : CtxRef) (d : Nat) : Bool :=
  (s.ctx u).stores.any fun w => w.amo.isSome && s.side w.addr == d

/-- The queued stores of a context go on. -/
def State.storesGo (s : State) (u : CtxRef) : State :=
  if (s.ctx u).stores.isEmpty then s else s.once (.event (.storePerformed u) .none)

/-! ### Loads and atomics with return -/

/-- A device that the context has written (R139). -/
def State.wrote (s : State) (u : CtxRef) (dev : DevNum) : State :=
  let x := s.ctx u
  let s := if x.written.contains dev then s else s.setCtx u { x with written := x.written ++ [dev] }
  let p := s.part (s.partOf u.core)
  if p.written.contains dev then s else s.setPart (s.partOf u.core) { p with written := p.written ++ [dev] }

/-- A partition has written another device (R406). -/
def State.partWrote (s : State) (p : PartNum) (dev : DevNum) : State :=
  let x := s.part p
  if x.written.contains dev then s else s.setPart p { x with written := x.written ++ [dev] }

/-- An access of an agent has written another device (R139, R406). -/
def State.wroteBy (s : State) (ag : Agent) (dev : DevNum) : State :=
  match ag.who with
  | .retry u => s.wrote u dev
  | _ => s.partWrote ag.part dev

/-- A load or atomic with return issues (R121): checks 1-4 trap, a fence of its scope comes first (R135), and it
leaves for its home. -/
def State.loadIssue (s : State) (i : Issue) (d : XReg) (regs : List XReg) (va : Context → Word) (z : Size)
    (nat : Bool) (op : Context → LoadOp) (acc : Accepts) (sc : Scope) : Host.Outcome State Fault Refusal :=
  let u := s.me
  let x := s.ctx u
  let rmw := op x != .load
  if x.stalls regs true || s.fenced u then .next s
  else match s.accessFault u acc (va x) z.bytes rmw with
    | some c => .next (s.trap i c (va x))
    | none =>
      let f := if sc = .core then (s, true) else s.fenceStep u sc
      if !f.2 then .next f.1
      else
        let s := f.1
        let x := s.ctx u
        let s := match s.target (va x) with
          | .remote dev => if rmw then s.wrote u dev else s
          | _ => s
        let x := s.ctx u
        let l : PendingLoad := ⟨d, va x, z, nat, op x, x.seq, x.level, sc, x.stores.length, false⟩
        let s := s.setCtx u { x with load := some l, seq := x.seq + 1, pc := i.next }
        .next (s.event (.homeAccess (.load u l.seq)))

/-- A plain load. -/
def State.load (s : State) (i : Issue) (d : XReg) (regs : List XReg) (va : Context → Word) (z : Size) (nat : Bool) :
    Host.Outcome State Fault Refusal :=
  s.loadIssue i d (d :: regs) va z nat (fun _ => .load) .any .core

/-- LD with its immediate extended, unprefixed or under IMX. -/
def State.loadAt (s : State) (i : Issue) (d a : XReg) (imm : Word) (z : Size) (nat : Bool) :
    Host.Outcome State Fault Refusal :=
  s.load i d [a] (fun x => x.getX a + imm) z nat

def execLdB (d a : XReg) (imm : BitVec 16) (s : State) : Host.Outcome State Fault Refusal :=
  s.loadAt (s.ctx s.me).issue d a (signedImm imm) .b false
def execLdBn (d a : XReg) (imm : BitVec 16) (s : State) : Host.Outcome State Fault Refusal :=
  s.loadAt (s.ctx s.me).issue d a (signedImm imm) .b true
def execLdH (d a : XReg) (imm : BitVec 16) (s : State) : Host.Outcome State Fault Refusal :=
  s.loadAt (s.ctx s.me).issue d a (signedImm imm) .h false
def execLdHn (d a : XReg) (imm : BitVec 16) (s : State) : Host.Outcome State Fault Refusal :=
  s.loadAt (s.ctx s.me).issue d a (signedImm imm) .h true
def execLdW (d a : XReg) (imm : BitVec 16) (s : State) : Host.Outcome State Fault Refusal :=
  s.loadAt (s.ctx s.me).issue d a (signedImm imm) .w false
def execLdWn (d a : XReg) (imm : BitVec 16) (s : State) : Host.Outcome State Fault Refusal :=
  s.loadAt (s.ctx s.me).issue d a (signedImm imm) .w true
def execLdD (d a : XReg) (imm : BitVec 16) (s : State) : Host.Outcome State Fault Refusal :=
  s.loadAt (s.ctx s.me).issue d a (signedImm imm) .d false
def execLdx (d a b : XReg) (z : Size) (nat : Bool) (sc : BitVec 2) (s : State) : Host.Outcome State Fault Refusal :=
  s.load (s.ctx s.me).issue d [a, b] (fun x => indexed (x.getX a) (x.getX b) sc) z nat

/-! ### Stores -/

/-- A store or AMOI enters the store queue (R122): a full queue stalls it, checks 1-4 trap, a fence of its scope comes
first. AMOI issues as a store, and an outstanding load does not stall it (R121; DEDUCED, log 64). -/
def State.storeIssue (s : State) (i : Issue) (regs : List XReg) (va data : Context → Word) (z : Size)
    (amo : Option AmoOp) (loc : Bool) (acc : Accepts) (sc : Scope) : Host.Outcome State Fault Refusal :=
  let u := s.me
  let x := s.ctx u
  if x.stalls regs false || s.fenced u || decide (16 ≤ x.stores.length) then .next s
  else match s.accessFault u acc (va x) z.bytes amo.isSome with
    | some c => .next (s.trap i c (va x))
    | none =>
      let f := if sc = .core then (s, true) else s.fenceStep u sc
      if !f.2 then .next f.1
      else
        let s := f.1
        let s := match s.target (va x) with
          | .remote dev => s.wrote u dev
          | _ => s
        let x := s.ctx u
        let w : StoreReq := ⟨va x, z, data x, amo, loc, sc, x.level, x.task, x.gen, none, false, none⟩
        let s := s.setCtx u { x with stores := x.stores ++ [w], pc := i.next }
        .next (s.once (.event (.storePerformed u) .none))

/-- ST with its immediate extended, unprefixed or under IMX. -/
def State.storeImm (s : State) (i : Issue) (a b : XReg) (imm : Word) (z : Size) : Host.Outcome State Fault Refusal :=
  s.storeIssue i [a, b] (fun x => x.getX a + imm) (fun x => x.getX b) z none false .any .core

/-- STLOC with its immediate extended (R129). -/
def State.storeLocal (s : State) (i : Issue) (a b : XReg) (imm : Word) : Host.Outcome State Fault Refusal :=
  s.storeIssue i [a, b] (fun x => x.getX a + imm) (fun x => x.getX b) .d none true .stloc .core

def execStB (a b : XReg) (imm : BitVec 16) (s : State) : Host.Outcome State Fault Refusal :=
  s.storeImm (s.ctx s.me).issue a b (signedImm imm) .b
def execStH (a b : XReg) (imm : BitVec 16) (s : State) : Host.Outcome State Fault Refusal :=
  s.storeImm (s.ctx s.me).issue a b (signedImm imm) .h
def execStW (a b : XReg) (imm : BitVec 16) (s : State) : Host.Outcome State Fault Refusal :=
  s.storeImm (s.ctx s.me).issue a b (signedImm imm) .w
def execStD (a b : XReg) (imm : BitVec 16) (s : State) : Host.Outcome State Fault Refusal :=
  s.storeImm (s.ctx s.me).issue a b (signedImm imm) .d
def execStloc (a b : XReg) (imm : BitVec 16) (s : State) : Host.Outcome State Fault Refusal :=
  s.storeLocal (s.ctx s.me).issue a b (signedImm imm)
/-- STX takes its data from the d field (R118). -/
def execStx (d a b : XReg) (z : Size) (sc : BitVec 2) (s : State) : Host.Outcome State Fault Refusal :=
  s.storeIssue (s.ctx s.me).issue [d, a, b] (fun x => indexed (x.getX a) (x.getX b) sc) (fun x => x.getX d) z none
    false .any .core

/-! ### Tile-store access (R130, R131) -/

/-- The checks 1-3 of R130 on a tile-store location: the cause of the first that fails. -/
def State.tileFault (s : State) (row col : Word) (z : Size) : Option (BitVec 8) :=
  if row.toNat > 3071 ∨ col.toNat + z.bytes > 2048 then some 0x05
  else if col.toNat % z.bytes ≠ 0 then some 0x04
  else if row.toNat ≥ s.annexRow (s.partOf s.focus) then some 0x05
  else none

/-- LDT (R130): suppressed outside the declared regions, precise traps. -/
def execLdt (d a b : XReg) (z : Size) (nat : Bool) (s : State) : Host.Outcome State Fault Refusal :=
  let u := s.me
  let x := s.ctx u
  let i := x.issue
  let row := x.getX a
  let col := x.getX b
  if x.stalls [d, a, b] true || s.fenced u || s.amoiQueued u 0 then .next s
  else match s.tileFault row col z with
    | some c => .next (s.trap i c (tileEval row col))
    | none =>
      match (s.entry u.core x.task).tileRow false row.toNat col.toNat z.bytes with
      | none => .next (s.retire i fun x => { x.setX d 0 with suppressed := true })
      | some r =>
        let v := s.readKey (tileKey u.core r col.toNat) z.bytes
        match v.2 with
        | .ok l => .next (v.1.retire i fun x => x.setX d (extend z nat (ofBytes l)))
        | .wait => .next (v.1.trap i 0x0B (tileEval row col))
        | .access => .next (v.1.trap i 0x0B (tileEval row col))
        | .data => .next (v.1.trap i 0x0B (tileEval row col))

/-- STT (R130). It is performed at once, so it waits for the context's earlier accesses to the issuing device (R310,
R312). -/
def execStt (d a b : XReg) (z : Size) (s : State) : Host.Outcome State Fault Refusal :=
  let u := s.me
  let x := s.ctx u
  let i := x.issue
  let row := x.getX a
  let col := x.getX b
  if x.stalls [d, a, b] false || s.fenced u || x.stores.any (fun w => s.side w.addr == 0)
      || s.heldByLoad u 0 x.stores.length then .next s
  else match s.tileFault row col z with
    | some c => .next (s.trap i c (tileEval row col))
    | none =>
      match (s.entry u.core x.task).tileRow true row.toNat col.toNat z.bytes with
      | none => .next (s.retire i fun x => { x with suppressed := true })
      | some r =>
        let k := tileKey u.core r col.toNat
        let v := s.verify (k / 64)
        if v.2 then .next ((v.1.storeBy (dieOf u.core) k (bytesOf z.bytes (x.getX d).toNat) false).retire i id)
        else .next (v.1.trap i 0x0B (tileEval row col))

/-! ### Atomics (R132-R137) -/

/-- f(M, v) of Table 4.6 on words of `w` bits. -/
def amoResult (op : AmoOp) (w m v : Nat) : Nat :=
  let m := m % 2 ^ w
  let v := v % 2 ^ w
  match op with
  | .add => (m + v) % 2 ^ w
  | .and => m &&& v
  | .or => m ||| v
  | .xor => m ^^^ v
  | .min => if signed w v < signed w m then v else m
  | .max => if signed w m < signed w v then v else m
  | .minn => if v < m then v else m
  | .maxn => if m < v then v else m
  | .swap => v

/-- M of a floating-point atomic (R134): the code and flags. -/
def famoResult (op : FamoOp) (rm : Rm) (f : Fl) (draw m v : Nat) : Coded :=
  let a := f.decode m
  let b := f.decode (v % 2 ^ f.width)
  let r := match op with
    | .add => addVal rm a b
    | .min => minVal a b
    | .max => maxVal a b
  let c := f.round false rm draw r.val
  ⟨c.code, r.flags ||| c.flags⟩

def execAmo (d a b : XReg) (op : AmoOp) (z : ASize) (sc : Scope) (s : State) : Host.Outcome State Fault Refusal :=
  s.loadIssue (s.ctx s.me).issue d [d, a, b] (fun x => x.getX a) z.size op.natural (fun x => .amo op (x.getX b))
    .atomic sc

def execAmoi (a b : XReg) (op : AmoOp) (z : ASize) (sc : Scope) (s : State) : Host.Outcome State Fault Refusal :=
  s.storeIssue (s.ctx s.me).issue [a, b] (fun x => x.getX a) (fun x => x.getX b) z.size (some op) false .atomic sc

/-- CAS: Xd is the compared value and the result (R133). -/
def execCas (d a b : XReg) (z : ASize) (sc : Scope) (s : State) : Host.Outcome State Fault Refusal :=
  s.loadIssue (s.ctx s.me).issue d [d, a, b] (fun x => x.getX a) z.size false
    (fun x => .cas (x.getX d) (x.getX b)) .atomic sc

def execFamo (d a b : XReg) (op : FamoOp) (rm : Rm) (z : ASize) (sc : Scope) (reord : Bool) (s : State) :
    Host.Outcome State Fault Refusal :=
  s.loadIssue (s.ctx s.me).issue d [d, a, b] (fun x => x.getX a) z.size true
    (fun x => .famo op rm (x.getX b) reord) .own sc

/-! ### At the home -/

/-- A fault of a docent access found at its home is delayed (R125); after DONE it sets the task's status (R150). -/
def State.delay (s : State) (u : CtxRef) (h : Handle) (gen : BitVec 16) (cause : BitVec 8) (va : Word) : State :=
  if (s.entry u.core h).done && (s.entry u.core h).gen == gen then
    s.cause u.core h (if cause = 0x0B then causeData else causeAccess)
  else s.event (.delayedFault u h gen cause va)

/-- Stores of a context, of those given, that may cover a byte range of an address, by address or by location. -/
def State.overlaps (s : State) (u : CtxRef) (va : Word) (n : Nat) (ws : List StoreReq) : List (StoreReq × Int) :=
  let ag := s.docentAgent u (.retry u)
  let key (v : Word) : Option Nat := match (s.locateRead ag v).2 with
    | .ok k => some k
    | _ => none
  ws.filterMap fun w =>
    let by_ (d : Int) : Option (StoreReq × Int) := if d < n ∧ -(w.size.bytes : Int) < d then some (w, d) else none
    match by_ ((w.addr.toNat : Int) - va.toNat) with
    | some r => some r
    | none => match key w.addr, key va with
      | some a, some b => by_ ((a : Int) - b)
      | _, _ => none

/-- Loaded bytes with the context's queued stores laid over them in program order (R122). -/
def overlay (l : List Byte) (ws : List (StoreReq × Int)) : List Byte :=
  ws.foldl (fun l w =>
    let d := bytesOf w.1.size.bytes w.1.data.toNat
    l.zipIdx.map fun p => if w.2 ≤ p.2 then d.getD ((p.2 : Int) - w.2).toNat p.1 else p.1) l

/-- The load of a context has failed and its fault is on its way (R125). -/
def State.loadFails (s : State) (u : CtxRef) (l : PendingLoad) (cause : BitVec 8) : State :=
  let x := s.ctx u
  ((s.setCtx u { x with load := some { l with op := .failed cause } }).event
    (.delayedFault u x.task x.gen cause l.addr)).storesGo u

/-- A load that misses parks its context (R123). -/
def State.parkLoad (s : State) (u : CtxRef) : State :=
  let x := s.ctx u
  if s.parked.any (fun a => a.who == .load u x.seq || a.who == .load u (x.seq - 1))
      && (x.state == .running || x.state == .ready) then s.parkCtx u .load else s

/-- The seed of a partition for "any other rounding unit" of Table 2.10, and the task's next draw. Every RoundTo in mode RSR
counts, an exact or a NaN result too, and every FAMO in that mode (DESIGN CHOICE, log 85). -/
def State.otherDraw (s : State) (c : CoreId) (h : Handle) : State × Nat :=
  let e := s.entry c h
  let key := randKey e.seed (e.field 0 16 16) (e.field 0 32 16) (e.field 0 48 16)
  (s.setEntry c h { e with rsr := e.rsr + 1 }, (rand32 key (BitVec.ofNat 32 e.rsr) 0).toNat)

/-- A read-modify-write of a location in another device, whose answer is taken in the same step: the old value is free
(log 10), and a compare-and-swap leaves (Table 12.1). -/
def State.rmwThere (s : State) (ag : Agent) (dev : DevNum) (va : Word) (n : Nat) (f : State → Nat → State × Option Nat) :
    State × Got Nat :=
  match s.planeFor dev (ag.start dev va) with
  | none => (s, .access)
  | some p =>
    let e := s.answerThere
    match e.2 with
    | .ok _ =>
      let d := e.1.draw
      let old := d.2.toNat % 2 ^ (8 * n)
      let w := f d.1 old
      let s := w.1.wroteBy ag dev
      ({ s with
          out := s.out ++ [.atomic dev p s.reqSeq ag.part va none (if n = 4 then .w else .d) (BitVec.ofNat 64 (w.2.getD old))
            (BitVec.ofNat 64 old)]
          reqSeq := s.reqSeq + 1 }, .ok old)
    | .wait => (e.1, .wait)
    | .access => (e.1, .access)
    | .data => (e.1, .data)

/-- A read-modify-write at its home on this device, one indivisible step (R132-R135): the old value, when the line
allows it. -/
def State.rmwHere (s : State) (ag : Agent) (va : Word) (n : Nat) (f : State → Nat → State × Option Nat) :
    State × Got Nat :=
  let a := s.locateWrite ag va .never
  match a.2 with
  | .ok keys =>
    let k := keys.headD 0
    let s := a.1
    if s.moving k then (s.hold k ag.who, .wait)
    else
      let r := s.readKey k n
      match r.2 with
      | .ok l =>
        let old := ofBytes l
        let w := f (r.1.readsFrom ag.die k n) old
        match w.2 with
        | some v =>
          let t := w.1.storeAt ag keys (bytesOf n v) false
          (t.1, .ok old)
        | none => (w.1, .ok old)
      | .wait => (r.1, .wait)
      | .access => (r.1, .access)
      | .data => (r.1, .data)
  | .wait => (a.1, .wait)
  | .access => (a.1, .access)
  | .data => (a.1, .data)

/-- A read-modify-write at the home of its location. -/
def State.rmw (s : State) (ag : Agent) (va : Word) (n : Nat) (f : State → Nat → State × Option Nat) :
    State × Got Nat :=
  match s.target va with
  | .remote dev => s.rmwThere ag dev va n f
  | _ => s.rmwHere ag va n f

/-- The value an atomic writes (R132-R134); a floating-point one raises its flags in the task. -/
def State.atomicValue (s : State) (u : CtxRef) (op : LoadOp) (n : Nat) (old : Nat) : State × Option Nat :=
  match op with
  | .load => (s, none)
  | .postr => (s, none)
  | .failed _ => (s, none)
  | .amo o v => (s, some (amoResult o (8 * n) old v.toNat))
  | .cas c v => if old = c.toNat % 2 ^ (8 * n) then (s, some (v.toNat % 2 ^ (8 * n))) else (s, none)
  | .famo o rm v _ =>
    let d := if rm = .rsr then s.otherDraw u.core (s.ctx u).task else (s, 0)
    let r := famoResult o rm (if n = 4 then .f32 else .f64) d.2 old v.toNat
    (d.1.raiseDocent u r.flags, some r.code)

/-- The value that a queued AMOI writes, or the atomic of a task that has executed DONE, whose flags its entry gathers
(R43, R132-R134). -/
def State.storeValue (s : State) (u : CtxRef) (w : StoreReq) (n : Nat) (old : Nat) : State × Option Nat :=
  match w.amo, w.ret with
  | some op, _ => (s, some (amoResult op (8 * n) old w.data.toNat))
  | none, some (.famo o rm v _) =>
    let d := if rm = .rsr then s.otherDraw u.core w.handle else (s, 0)
    let r := famoResult o rm (if n = 4 then .f32 else .f64) d.2 old v.toNat
    (d.1.raiseTask u.core w.handle r.flags, some r.code)
  | none, some op => s.atomicValue u op n old
  | none, none => (s, none)

/-- An atomic that leaves for another device (R135, R344). -/
def LoadOp.wire (op : LoadOp) : Option AmoOp × Word × Word :=
  match op with
  | .amo o v => (some o, v, 0)
  | .cas c v => (none, v, c)
  | _ => (none, 0, 0)

/-- The value of the outstanding load or atomic is fixed and on its way; stores that waited for it go on. -/
def State.loadHomed (s : State) (u : CtxRef) (l : PendingLoad) (v : Word) : State :=
  ((s.setCtx u { s.ctx u with load := some { l with homed := true } }).event (.loadReply u l.seq v)).storesGo u

/-- The outstanding load or atomic of a context meets its home (R119, R121, R123, R124). A load takes the bytes of the
context's earlier stores that are still queued (R122), and waits for the AMOI among those of its side, which read before
it; an atomic waits for all those of its side (R310, R320). -/
def State.homeLoad (s : State) (u : CtxRef) (l : PendingLoad) : State :=
  let ag := { s.docentAgent u (.load u l.seq) with sup := l.level == .s }
  let n := l.size.bytes
  let earlier := (s.ctx u).stores.take l.before
  let ws := s.overlaps u l.addr n earlier
  if (ws.any fun w => w.1.amo.isSome)
      || earlier.any fun w => (l.op != .load || w.amo.isSome) && s.side w.addr == s.side l.addr then s
  else match s.target l.addr with
  | .remote dev =>
    match s.planeFor dev (docentStart dev u) with
    | none => s.loadFails u l 0x05
    | some p =>
      let d := s.draw
      let w := l.op.wire
      let s := d.1.request dev p (.load u l.seq) fun q =>
        if l.op = .load then .read dev p q ag.part (l.addr &&& ~~~7#64) 8
        else .atomic dev p q ag.part l.addr w.1 (if n = 4 then .w else .d) w.2.1 w.2.2
      s.loadHomed u l (BitVec.ofNat 64 (ofBytes (overlay (bytesOf n d.2.toNat) (if l.op = .load then ws else []))))
  | _ =>
    if l.op = .load then
      let r := s.readVa ag l.addr n
      match r.2 with
      | .ok b => r.1.loadHomed u l (BitVec.ofNat 64 (ofBytes (overlay b ws)))
      | .wait => r.1.parkLoad u
      | .access => r.1.loadFails u l 0x05
      | .data => r.1.loadFails u l 0x0B
    else
      let r := s.rmw ag l.addr n fun s old => s.atomicValue u l.op n old
      match r.2 with
      | .ok old => r.1.loadHomed u l (BitVec.ofNat 64 old)
      | .wait => r.1.parkLoad u
      | .access => r.1.loadFails u l 0x05
      | .data => r.1.loadFails u l 0x0B

/-! ### Wait entries -/

/-- The wait table of a location: its slice, or its commons bank (R142). -/
def State.waitHome (s : State) (ag : Agent) (va : Word) : Nat :=
  match s.target va with
  | .commons die off => 1000 + 64 * die.val + off / 2 ^ 20
  | .mem die off => 96 * (if s.replicated ag va then ag.die.val else die.val) + off / 65536 % 96
  | _ => 0

/-- A context enters a full or a free wait table: the oldest entry of a full one is evicted (R142). -/
def State.enterWait (s : State) (e : WaitEntry) : State :=
  let mine := s.waits.filter fun w => w.home == e.home
  match mine with
  | [] => { s with waits := s.waits ++ [e] }
  | o :: _ =>
    if mine.length < 32 then { s with waits := s.waits ++ [e] }
    else { s with waits := s.waits.erase o ++ [e] }.event (.waitaReply o.who o.seq true)

/-- The test of a WAITA at its home, indivisibly (R141). -/
def State.waitTest (s : State) (u : CtxRef) (va mask expected : Word) (c : Cmp) (who : Requester) :
    State × Got Unit :=
  let ag := s.docentAgent u who
  let a := s.locateRead ag va
  match a.2 with
  | .ok k =>
    let r := a.1.readKey k 8
    match r.2 with
    | .ok l =>
      let s := r.1.readsFrom ag.die k 8
      let seq := (s.ctx u).seq
      let s := s.setCtx u { s.ctx u with seq := seq + 1 }
      if waitHolds c mask expected (wordOf l) then (s.event (.waitaReply u seq false), .ok ())
      else (s.enterWait ⟨s.waitHome ag va, k, va, mask, expected, c, u, seq⟩, .ok ())
    | .wait => (r.1, .wait)
    | .access => (r.1, .access)
    | .data => (r.1, .data)
  | .wait => (a.1, .wait)
  | .access => (a.1, .access)
  | .data => (a.1, .data)

/-- WAITA (R141). The context's earlier stores to the word are performed first (R122). -/
def execWaita (d a b : XReg) (c : Cmp) (s : State) : Host.Outcome State Fault Refusal :=
  let u := s.me
  let x := s.ctx u
  let i := x.issue
  let va := x.getX a
  if x.stalls [d, a, b] true || s.fenced u then .next s
  else match s.accessFault u .own va 8 false with
    | some k => .next (s.trap i k va)
    | none =>
      if !(s.overlaps u va 8 x.stores).isEmpty || s.amoiQueued u (s.side va) then .next s
      else
      let r := s.waitTest u va (x.getX d) (x.getX b) c (.retry u)
      match r.2 with
      | .ok _ => .next (r.1.parkCtx u (.waita d va (x.getX d) (x.getX b) c))
      | .wait => .next (r.1.parkCtx u .load)
      | .access => .next (r.1.takeTrap u 0x05 va i.next)
      | .data => .next (r.1.takeTrap u 0x0B va i.next)

/-- A reply reaches a context parked in WAITA (R141). -/
def execWaitaReply (u : CtxRef) (seq : Nat) (evicted : Bool) (s : State) : Host.Outcome State Fault Refusal :=
  let x := s.ctx u
  match x.park with
  | .waita d _ _ _ _ =>
    if x.state = .parked ∧ x.seq = seq + 1 then
      .next ((s.setCtx u { x.setX d (if evicted then 1 else 0) with pc := x.pc + 4 }).ready u)
    else .next s
  | _ => .next s

/-- A wait whose home refuses it: its fault is delayed to the next instruction (R125). -/
def State.waitFails (s : State) (u : CtxRef) (cause : BitVec 8) (va : Word) : State :=
  let x := s.ctx u
  (s.setCtx u { x with pc := x.pc + 4 }).event (.delayedFault u x.task x.gen cause va)

/-- The wait of a context parked in WAITA is entered at its home again (R142, R143). -/
def State.homeWait (s : State) (u : CtxRef) (seq : Nat) : State :=
  let x := s.ctx u
  match x.park with
  | .waita _ va mask expected c =>
    if x.state = .parked ∧ x.seq = seq then
      let t := s.waitTest u va mask expected c (.waita u seq)
      match t.2 with
      | .ok _ => t.1
      | .wait => t.1
      | .access => t.1.waitFails u 0x05 va
      | .data => t.1.waitFails u 0x0B va
    else s
  | _ => s

/-- A request meets its home (R119, R141, R376). -/
def execHomeAccess (r : HomeReq) (s : State) : Host.Outcome State Fault Refusal :=
  match r with
  | .load u seq =>
    match (s.ctx u).load with
    | some l => if l.seq = seq ∧ l.op ≠ .postr ∧ l.open_ then .next (s.homeLoad u l) else .next s
    | none => .next s
  | .waita u seq => .next (s.homeWait u seq)

/-- The cause with which an access has failed. -/
def PendingLoad.failure (l : PendingLoad) : Option (BitVec 8) :=
  match l.op with
  | .failed c => some c
  | _ => none

/-- The value of an outstanding load or atomic returns (R121, R124), and an atomic's trailing fence follows (R135); a
stale reply is dropped. -/
def execLoadReply (u : CtxRef) (seq : Nat) (v : Word) (s : State) : Host.Outcome State Fault Refusal :=
  let x := s.ctx u
  match x.load with
  | some l =>
    if l.seq = seq ∧ l.homed ∧ l.failure = none then
      let s := { s with requests := s.requests.filter fun r => r.who != Waiter.load u seq }
      let s := (s.setCtx u { x.setX l.dest (extend l.size l.nat v.toNat) with load := none }).trailFence u l.scope
      .next (if x.state = .parked ∧ x.park = .load then s.ready u else s)
    else .next s
  | none => .next s

/-- The head of a store queue leaves it; what waited for it goes on (R122, R150). -/
def State.popStore (s : State) (u : CtxRef) : State :=
  let x := s.ctx u
  match x.stores with
  | [] => s
  | w :: r =>
    let s := s.setCtx u { x with stores := r, load := x.load.map fun l => { l with before := l.before - 1 } }
    let s := { s with requests := s.requests.filter fun q => q.who != Waiter.store u }
    let s := s.storesGo u
    let s := match x.load with
      | some l => if l.op ≠ LoadOp.postr ∧ l.open_ ∧ !s.waiting (.load u l.seq) then s.once (.event (.homeAccess (.load u l.seq)) .none) else s
      | none => s
    s.docentComplete u w.handle w.gen

/-- A store that has failed leaves the queue with its fault delayed (R125), which the fence after a wide AMOI delivers
(R135). -/
def State.storeFails (s : State) (u : CtxRef) (w : StoreReq) (cause : BitVec 8) : State :=
  let s := (s.delay u w.handle w.gen cause w.addr).popStore u
  let x := s.ctx u
  if w.scope != .core && w.handle == x.task && w.gen == x.gen then s.setCtx u { x with wideFault := true } else s

/-- A store or AMOI has been performed; an AMOI's trailing fence follows (R135). -/
def State.storeDone (s : State) (u : CtxRef) (w : StoreReq) : State := (s.popStore u).trailFence u w.scope

/-- The head of a store queue, changed. -/
def State.setHead (s : State) (u : CtxRef) (f : StoreReq → StoreReq) : State :=
  let x := s.ctx u
  match x.stores with
  | [] => s
  | w :: r => s.setCtx u { x with stores := f w :: r }

/-- The head of a store queue leaves for its home: it is issued on its die, whose clock it carries (R316). -/
def State.leaves (s : State) (u : CtxRef) (w : StoreReq) : State × Mark :=
  match w.mark with
  | some m => (s, m)
  | none =>
    let t := s.advanceClock (dieOf u.core)
    let m := t.markOf (dieOf u.core)
    (t.setHead u fun w => { w with mark := some m }, m)

/-- A store at its home (R120, R129, R330): one of a replicated page goes to the copies at hand, and stays at the head of
its queue until the others are written (R378). -/
def State.storeHome (s : State) (u : CtxRef) (ag : Agent) (w : StoreReq) : State × Got Unit :=
  let d := bytesOf w.size.bytes w.data.toNat
  let l := s.leaves u w
  if w.loc then
    let a := l.1.locateWrite ag w.addr .own
    match a.2 with
    | .ok ks =>
      if s.replicated ag w.addr then a.1.storeOwn l.2 ag.who (ks.headD 0) d else a.1.storeSpread ag (some l.2) w.addr (ks, []) d false
    | .wait => (a.1, .wait)
    | .access => (a.1, .access)
    | .data => (a.1, .data)
  else
    let a := l.1.locateAll ag w.addr
    match a.2 with
    | .ok p =>
      let r := a.1.storeSpread ag (some l.2) w.addr p d false
      match r.2 with
      | .ok _ => if p.2.isEmpty then r else (r.1.setHead u fun w => { w with parted := true }, .wait)
      | _ => r
    | .wait => (a.1, .wait)
    | .access => (a.1, .access)
    | .data => (a.1, .data)

/-- The oldest queued store or AMOI is performed at its home (R120, R122, R129, R132), after the load or atomic that
precedes it (R310). -/
def execStorePerformed (u : CtxRef) (s : State) : Host.Outcome State Fault Refusal :=
  match (s.ctx u).stores with
  | [] => .next s
  | w :: _ =>
    if s.waiting (.store u) || s.heldByLoad u (s.side w.addr) 0 then .next s
    else if w.parted then .next (s.storeDone u w)
    else
      let ag := { s.docentAgent u (.store u) with sup := w.level == .s }
      let n := w.size.bytes
      match s.target w.addr with
      | .remote dev =>
        if s.requests.any fun q => q.who == Waiter.store u then .next (s.storeDone u w)
        else match s.planeFor dev (docentStart dev u) with
          | none => .next (s.storeFails u w 0x05)
          | some p =>
            let z : ASize := if n = 4 then .w else .d
            .next ((s.request dev p (.store u) fun q => match w.amo, w.ret with
              | some op, _ => .atomic dev p q ag.part w.addr (some op) z w.data 0
              | none, some op => .atomic dev p q ag.part w.addr op.wire.1 z op.wire.2.1 op.wire.2.2
              | none, none => .write dev p q ag.part w.addr (bytesOf n w.data.toNat) []).event (.storePerformed u))
      | _ =>
        let r : State × Got Unit :=
          if w.amo.isSome || w.ret.isSome then
            let t := s.rmw ag w.addr n fun s old => s.storeValue u w n old
            (t.1, match t.2 with
              | .ok _ => .ok ()
              | .wait => .wait
              | .access => .access
              | .data => .data)
          else s.storeHome u ag w
        match r.2 with
        | .ok _ => .next (r.1.storeDone u w)
        | .wait => .next r.1
        | .access => .next (r.1.storeFails u w 0x05)
        | .data => .next (r.1.storeFails u w 0x0B)

/-- A fault report finds its context with the task that it is for (R125). -/
def State.finds (s : State) (u : CtxRef) (h : Handle) (gen : BitVec 16) : Bool :=
  let x := s.ctx u
  x.state != .empty && x.task == h && x.gen == gen && !(s.entry u.core h).done

/-- A fault report is delivered as a trap at an instruction boundary (R125); after DONE it sets the status (R150). -/
def State.faultArrives (s : State) (u : CtxRef) (h : Handle) (gen : BitVec 16) (cause : BitVec 8) (va : Word) : State :=
  let x := s.ctx u
  let e := s.entry u.core h
  if s.finds u h gen then
    let x' := match x.load with
      | some l => if l.op = LoadOp.failed cause ∧ l.addr = va then { x with load := none } else x
      | none => x
    (s.setCtx u x').enterTrap u cause va x.pc
  else if e.done ∧ e.gen = gen then
    (s.cause u.core h (if cause = 0x0B then causeData else causeAccess)).docentComplete u h gen
  else s

/-- A fault report is delivered; after a trap of a context that does not run, the docent chooses where none of its core
runs. -/
def State.deliverFault (s : State) (u : CtxRef) (h : Handle) (gen : BitVec 16) (cause : BitVec 8) (va : Word) : State :=
  let t := s.faultArrives u h gen cause va
  if s.finds u h gen && (t.ctx u).state != .running then t.dispatch u.core else t

/-- DELAYED_FAULT (R125). -/
def execDelayedFault (u : CtxRef) (h : Handle) (gen : BitVec 16) (cause : BitVec 8) (va : Word) (s : State) :
    Host.Outcome State Fault Refusal := .next (s.deliverFault u h gen cause va)

/-! ### Fences, notices -/

/-- FENCE (R138, R139). -/
def execFence (sc : Scope) (s : State) : Host.Outcome State Fault Refusal :=
  let f := s.fenceStep s.me sc
  if f.2 then .next (f.1.retire (s.ctx s.me).issue id) else .next f.1

/-- Whether a copy is held by a slice within the scope of an agent on die `d` (R140). -/
def Cached.within (c : Cached) (sc : Scope) (d : DieNum) : Bool := sc.wide || c.key / 2 ^ 37 == d.val

/-- The word of an instruction, which EVAL holds for causes 0x01-0x03 and 0x09 (Table 1.7). -/
def wordEval (i : Instr) : Word := BitVec.ofNat 64 ((encodeDocent i).getD 0)

/-- TFENCE (R140): the slices in scope drop the partition's copies once the context's stores are performed. -/
def execTfence (sc : Scope) (s : State) : Host.Outcome State Fault Refusal :=
  let u := s.me
  let x := s.ctx u
  if x.load.isSome then .next s
  else if x.level = .u then .next (s.trap x.issue 0x09 (wordEval (.tfence sc)))
  else if s.storesLeft u sc then .next s
  else
    let p := s.partOf u.core
    .next ({ s with copies := s.copies.filter fun c => !(c.part == p && c.within sc (dieOf u.core)) }.retire x.issue id)

/-- NOTIFY (R144): FENCE.package, then an 8-byte store. -/
def execNotify (a b : XReg) (s : State) : Host.Outcome State Fault Refusal :=
  let u := s.me
  let x := s.ctx u
  let va := x.getX a
  if x.stalls [a, b] true then .next s
  else match s.accessFault u .own va 8 false with
    | some c => .next (s.trap x.issue c va)
    | none =>
      let f := s.fenceStep u .package
      if !f.2 then .next f.1
      else
        let w : StoreReq := ⟨va, .d, x.getX b, none, false, .core, x.level, x.task, x.gen, none, false, none⟩
        let s := f.1.setCtx u { f.1.ctx u with stores := [w], pc := x.issue.next }
        .next (s.once (.event (.storePerformed u) .none))

end Sys2Proof.Machine
end

