-- ==== Sys2Proof/Machine/Heap.lean ====
section
/-! DEFINITION. The managed heap: galleries, spans, provenance tables and the helpers Check and Present (R169,
R333-R337). -/

namespace Sys2Proof.Machine

/-- A valid gallery (Table 11.1). -/
structure Gallery where
  base : Nat
  size : Nat
  pb : Nat
  ptab : Nat
  smap : Nat
  deriving DecidableEq, Repr

/-- A range lies in the device memory of one device and die, clear of the commons and the apertures (R333). -/
def inDie (anchor lo len : Nat) : Bool :=
  lo >>> 45 == anchor >>> 45 && (lo + len - 1) >>> 45 == anchor >>> 45 && decide (anchor >>> 57 = 0)
    && decide ((lo + len - 1) % 2 ^ 45 < 0x1FFFF8000000)

/-- The gallery a table entry names (Table 11.1). -/
def galleryOf (w0 w1 w2 w3 : Nat) : Option Gallery :=
  let sz := bits w0 1 4
  let size := 2 ^ (26 + sz)
  let base := bits w0 21 37 * 2 ^ 21
  let pb := bits w1 0 6
  let ptab := bits w1 6 52 * 64
  let smap := bits w2 3 55 * 8
  if w0.testBit 0 && decide (sz ≤ 10) && bits w0 5 16 == 0 && bits w0 58 6 == 0 && base % size == 0
      && decide (pb ≤ 26) && bits w1 58 6 == 0 && bits w2 0 3 == 0 && bits w2 58 6 == 0 && w3 == 0
      && inDie base base size && inDie base ptab (64 * 2 ^ pb) && inDie base smap (2 ^ (3 + sz)) then
    some ⟨base, size, pb, ptab, smap⟩
  else none

/-- A structure of the heap read as one word or byte; the walker may use a copy it holds (R334). -/
def State.readStructure (s : State) (ag : Agent) (va : Word) (n : Nat) : State × Got Nat :=
  let ag := { ag with source := 3 }
  match s.target va with
  | .remote _ =>
    let r := s.readVa ag va n
    (r.1, match r.2 with
      | .ok l => .ok (ofBytes l)
      | .wait => .wait
      | .access => .access
      | .data => .data)
  | _ =>
    let a := s.locateRead ag va
    match a.2 with
    | .ok k =>
      let r := a.1.readKey k n
      match r.2 with
      | .ok l =>
        let v : Word := BitVec.ofNat 64 (ofBytes l)
        let c := r.1.copied ag.part k v
        (c.1.remember ag.part k v, .ok c.2.toNat)
      | .wait => (r.1, .wait)
      | .access => (r.1, .access)
      | .data => (r.1, .data)
    | .wait => (a.1, .wait)
    | .access => (a.1, .access)
    | .data => (a.1, .data)

/-- `n` consecutive words of a structure. -/
def State.readWords (s : State) (ag : Agent) (va : Word) : Nat → State × Got (List Nat)
  | 0 => (s, .ok [])
  | n + 1 =>
    let a := s.readStructure ag va 8
    match a.2 with
    | .ok v =>
      let b := State.readWords a.1 ag (va + 8) n
      match b.2 with
      | .ok l => (b.1, .ok (v :: l))
      | .wait => (b.1, .wait)
      | .access => (b.1, .access)
      | .data => (b.1, .data)
    | .wait => (a.1, .wait)
    | .access => (a.1, .access)
    | .data => (a.1, .data)

/-- The gallery of a number, from the partition's table; a heap word of zero names none (R333, R342). -/
def State.gallery (s : State) (ag : Agent) (g : Nat) : State × Got (Option Gallery) :=
  let heap := (s.part ag.part).heap
  if heap = 0 then (s, .ok none)
  else
    let r := s.readWords ag (heap + BitVec.ofNat 64 (32 * g)) 4
    match r.2 with
    | .ok [a, b, c, d] => (r.1, .ok (galleryOf a b c d))
    | .ok _ => (r.1, .ok none)
    | .wait => (r.1, .wait)
    | .access => (r.1, .access)
    | .data => (r.1, .data)

/-- Fields of a reference. -/
def refGallery (w : Nat) : Nat := bits w 58 6

def refOffset (w : Nat) : Nat := bits w 22 36

/-- A reference resolved: its form, or the cause of the trap that ends the lookup (R169, R337). -/
inductive Resolved where
  | ok (w : Nat)
  | trap (cause : BitVec 8)
  deriving DecidableEq, Repr

/-- Check (R169): `some` is the gallery of a non-null reference. -/
def State.checkRef (s : State) (ag : Agent) (w : Nat) : State × Got (Resolved × Option Gallery) :=
  if w = 0 then (s, .ok (.ok 0, none))
  else if w % 64 ≠ 0 then (s, .ok (.trap 0x06, none))
  else
    let r := s.gallery ag (refGallery w)
    match r.2 with
    | .ok (some g) =>
      if 16 * refOffset w < g.size then (r.1, .ok (.ok w, some g)) else (r.1, .ok (.trap 0x05, none))
    | .ok none => (r.1, .ok (.trap 0x05, none))
    | .wait => (r.1, .wait)
    | .access => (r.1, .ok (.trap 0x05, none))
    | .data => (r.1, .ok (.trap 0x0B, none))

/-- State of the span that holds a granule (R334). -/
def State.spanState (s : State) (ag : Agent) (g : Gallery) (o : Nat) : State × Got Nat :=
  let k := 16 * o / 2 ^ 21
  let r := s.readStructure ag (BitVec.ofNat 64 (g.smap + k / 4)) 1
  (r.1, match r.2 with
    | .ok b => .ok (bits b (2 * (k % 4)) 2)
    | .wait => .wait
    | .access => .access
    | .data => .data)

/-- The bucket of a granule (R337). -/
def bucketOf (g : Gallery) (o : Nat) : Nat := (mix32 (BitVec.ofNat 32 o)).toNat % 2 ^ g.pb

/-- Bits [63:22] of the NEW of an entry that matches, among a bucket's words (Table 11.4). -/
def matchEntry (old : Nat) : List Nat → Option Nat
  | w0 :: w1 :: r =>
    if w0.testBit 0 && bits w0 1 21 == 0 && bits w0 22 42 == old && bits w1 0 22 == 0 then some (bits w1 22 42)
    else matchEntry old r
  | _ => none

/-- A lookup in the provenance table, made at the home of its bucket (R337). -/
def State.lookup (s : State) (ag : Agent) (g : Gallery) (w : Nat) : State × Got (Option Nat) :=
  let va := BitVec.ofNat 64 (g.ptab + 64 * bucketOf g (refOffset w))
  let r := s.readLineVa { ag with source := 3 } va
  (r.1, match r.2 with
    | .ok (d, _) => .ok (matchEntry (bits w 22 42) (elements d 64))
    | .wait => .wait
    | .access => .access
    | .data => .data)

/-- Present (R169, R337) of a checked reference; `fuel` is the number of lookups still allowed. A NEW of 0 names granule 0
of gallery 0, which Check takes for null: it is not followed, and the lookup ends with the trap 0x05 (DESIGN CHOICE,
log 75). -/
def State.follow (s : State) (ag : Agent) : Nat → Nat → Gallery → State × Got (Resolved × Option Gallery)
  | fuel, w, g =>
    let sp := s.spanState ag g (refOffset w)
    match sp.2 with
    | .ok st =>
      if st = 0 then (sp.1, .ok (.ok w, some g))
      else match fuel with
        | 0 => (sp.1, .ok (.trap 0x05, none))
        | f + 1 =>
          let l := sp.1.lookup ag g w
          match l.2 with
          | .ok (some new) =>
            let w' := new * 2 ^ 22 + w % 2 ^ 22
            let c := l.1.checkRef ag (new * 2 ^ 22)
            match c.2 with
            | .ok (.ok _, some g') => State.follow c.1 ag f w' g'
            | .ok (.trap k, _) => (c.1, .ok (.trap k, none))
            | .ok (.ok _, none) => (c.1, .ok (.trap 0x05, none))
            | .wait => (c.1, .wait)
            | .access => (c.1, .access)
            | .data => (c.1, .data)
          | .ok none => if st = 1 then (l.1, .ok (.ok w, some g)) else (l.1, .ok (.trap 0x05, none))
          | .wait => (l.1, .wait)
          | .access => (l.1, .ok (.trap 0x05, none))
          | .data => (l.1, .ok (.trap 0x0B, none))
    | .wait => (sp.1, .wait)
    | .access => (sp.1, .ok (.trap 0x05, none))
    | .data => (sp.1, .ok (.trap 0x0B, none))

/-- Check, then Present (R169): null stays null. -/
def State.present (s : State) (ag : Agent) (w : Nat) : State × Got (Resolved × Option Gallery) :=
  let c := s.checkRef ag w
  match c.2 with
  | .ok (.ok v, some g) => c.1.follow ag 16 v g
  | .ok r => (c.1, .ok r)
  | .wait => (c.1, .wait)
  | .access => (c.1, .access)
  | .data => (c.1, .data)

/-- Address of an object's header (R335). -/
def objectAddress (g : Gallery) (w : Nat) : Word := BitVec.ofNat 64 (g.base + 16 * refOffset w)

end Sys2Proof.Machine
end

