-- ==== Sys2Proof/Machine/Registrar.lean ====
section
/-! DEFINITION. The registrar of a core: posting checks (R95, R96, R156), overlap and dependences (R275-R279, R299),
renaming, shadows and hidden copies (R281-R293), release (R296-R300), completion (R44, R301) and time release (R294). -/

/-- Two packets have the same source device and target core (R352). -/
def Sys2Proof.Packet.samePair (a b : Sys2Proof.Packet) : Bool := a.srcDev == b.srcDev && a.part == b.part && a.core == b.core

namespace Sys2Proof.Machine

/-! ### Posting checks -/

/-- A cause when a check fails. -/
def Causes.when (b : Bool) (k : Causes) : Causes := if b then k else Causes.none

/-- End of a memory region's hull: the byte after its last (R94). An E0 of 0 counts as 1, and a log2 stride of 58 to 63 as
it stands (DESIGN CHOICE, log 88). -/
def hullEnd (r : Nat) : Nat :=
  let pair (lo : Nat) : Nat := bits r lo 8 * 2 ^ bits r (lo + 8) 6
  bits r 5 58 + max (bits r 63 23) 1 + pair 86 + pair 100 + pair 114

/-- The checks of R95 and R35 on one region slot, but for the gallery of a managed object. The checks of a hull and a box
apply to one of zero extent too (DESIGN CHOICE, log 88). -/
def State.regionCauses (s : State) (p : PartNum) (r : Nat) : Causes :=
  let boxCauses : Causes :=
    let b := boxOf r
    (Causes.when (b.rows = 0 || b.cols = 0) causeFormat).or
      (Causes.when (decide (b.row + b.rows > s.annexRow p) || decide (b.col + b.cols > 2048)) causeAccess)
  if bits r 3 2 = 0 then Causes.when (r != 0) causeFormat
  else match bits r 0 3 with
    | 0 => (Causes.when (bits r 52 76 != 0) causeFormat).or boxCauses
    | 1 => (Causes.when (bits r 52 1 != 0 || bits r 69 59 != 0) causeFormat).or boxCauses
    | 2 => (Causes.when (bits r 63 23 == 0) causeFormat).or
        (Causes.when (decide (bits r 5 58 >>> 45 ≠ (hullEnd r - 1) >>> 45)) causeAccess)
    | 3 => (Causes.when (bits r 60 68 != 0 || bits r 33 27 == 0) causeFormat).or
        (Causes.when (!s.inCommons p (bits r 7 26) (bits r 33 27)) causeAccess)
    | 4 => Causes.when (bits r 17 111 != 0 || decide (bits r 11 6 < bits r 5 6)) causeFormat
    | 5 => Causes.when (bits r 9 119 != 0) causeFormat
    | 6 => (Causes.when (bits r 5 59 != 0) causeFormat).or (Causes.when (bits r 64 64 == 0) causeAccess)
    | _ => causeFormat

/-- Body words that a kind leaves zero (R96). -/
def Entry.bodyBad (e : Entry) : Bool :=
  let z (w : Fin 32) : Bool := e.word w == 0
  match e.kind with
  | 0 => e.field 19 0 2 != 0 || !(z 24 && z 25 && z 26)
  | 1 => e.field 20 9 55 != 0 || !(z 25 && z 26)
  | 5 => e.field 19 5 59 != 0 || !(z 20 && z 21 && z 22 && z 23 && z 24 && z 25 && z 26)
  | _ => false

def Entry.provisional (e : Entry) : Bool := e.field 0 7 1 == 1

def Entry.guard (e : Entry) : GuardNum := Fin.ofNat 32 (e.field 0 10 5)

/-- A provisional task whose guard has not committed (R292). -/
def Entry.speculative (e : Entry) : Bool := e.provisional && !e.committed

/-- A value set for a slot, the order of the slots kept. -/
def setSlot {α : Type} (l : List (Fin 8 × α)) (n : Fin 8) (v : α) : List (Fin 8 × α) :=
  if l.any fun p => p.1 == n then l.map fun p => if p.1 = n then (n, v) else p else l ++ [(n, v)]

/-- The header checks (R95 for joins, R156). -/
def Entry.headerBad (e : Entry) (k : Core) : Bool :=
  let used (n : Fin 8) : Bool := bits (e.region n) 3 2 != 0
  let writes (n : Fin 8) : Bool := (e.region n).testBit 4
  let slots := List.finRange 8
  e.field 0 3 1 != 0 || e.field 0 15 1 != 0 || e.field 1 10 6 != 0 || e.field 1 25 7 != 0
    || (!e.provisional && e.guard != 0)
    || (e.field 0 8 1 == 0 && e.word 2 != 0)
    || (e.field 0 9 1 == 0 && !(e.word 27 == 0 && e.word 28 == 0 && e.word 29 == 0 && e.word 30 == 0 && e.word 31 == 0))
    || (e.kind == 5 && slots.any used)
    || (e.provisional && ((slots.any fun n => writes n && bits (e.region n) 0 3 != 0) || e.field 0 6 1 == 0
        || vget k.guards e.guard != .opened))

/-- Every posting check but the galleries of managed objects, ranked together (R42, R95, R96, R156). -/
def State.postCauses (s : State) (c : CoreId) (e : Entry) : Causes :=
  (List.finRange 8).foldl (fun a n => a.or (s.regionCauses (s.partOf c) (e.region n)))
    (Causes.when (e.headerBad (s.core c) || e.bodyBad) causeFormat)

/-! ### Overlap and dependences -/

/-- Slots in use with a class. -/
def Entry.slotsOf (e : Entry) (cls : Nat) : List (Fin 8) :=
  (List.finRange 8).filter fun n => bits (e.region n) 3 2 != 0 && bits (e.region n) 0 3 == cls

def Entry.used (e : Entry) : List (Fin 8) := (List.finRange 8).filter fun n => bits (e.region n) 3 2 != 0

/-- Value of a slot in a list by slot. -/
def slotValue {α : Type} (l : List (Fin 8 × α)) (n : Fin 8) : Option α := (l.find? fun p => p.1 == n).map (·.2)

/-- Two half-open intervals intersect. -/
def meetsInterval (a al b bl : Nat) : Bool := decide (a < b + bl) && decide (b < a + al)

/-- The overlap tests of Table 9.2 and R276; `l` is the core's logical number. -/
def overlapSlots (l : Nat) (a : Entry) (n : Fin 8) (b : Entry) (m : Fin 8) : Bool :=
  let ra := a.region n
  let rb := b.region m
  let peersOf (e : Entry) (k : Fin 8) : List Nat := (slotValue e.peers k).getD []
  match bits ra 0 3, bits rb 0 3 with
  | 0, 0 => (a.boxAt n).meets (b.boxAt m)
  | 1, 1 => ((peersOf a n).any fun q => (peersOf b m).contains q) && (boxOf ra).meets (boxOf rb)
  | 1, 0 => (peersOf a n).contains l && (boxOf ra).meets (b.boxAt m)
  | 0, 1 => (peersOf b m).contains l && (a.boxAt n).meets (boxOf rb)
  | 2, 2 => decide (bits ra 5 58 < hullEnd rb) && decide (bits rb 5 58 < hullEnd ra)
  | 3, 3 => bits ra 5 2 == bits rb 5 2 && meetsInterval (bits ra 7 26) (bits ra 33 27) (bits rb 7 26) (bits rb 33 27)
  | 4, 4 => decide (bits ra 5 6 ≤ bits rb 11 6) && decide (bits rb 5 6 ≤ bits ra 11 6)
  | 5, 5 => bits ra 5 4 == bits rb 5 4
  | 6, 6 =>
    match slotValue a.objects n, slotValue b.objects m with
    | some x, some y => x.toNat >>> 22 == y.toNat >>> 22
    | _, _ => false
  | _, _ => false

/-- A conflict of an older task's slot with the entering task's (R278): `some true` is WAR alone. -/
def conflictOf (older new_ : Nat) : Option Bool :=
  if bits older 0 3 = 5 then some false
  else if older.testBit 4 then some false
  else if new_.testBit 4 then some true
  else none

/-- A conflict: the older task, the slot of the entering task, and whether it is WAR alone. -/
structure Conflict where
  older : Handle
  slot : Fin 8
  war : Bool
  deriving DecidableEq, Repr

/-- In-flight tasks that an entering task is compared with (R273). -/
def Core.compared (k : Core) : List Handle := k.handles fun e => e.inFlight && !e.failed

/-- Every conflict of an entering task with the older tasks of its catalogue (R278). -/
def State.conflicts (s : State) (c : CoreId) (e : Entry) : List Conflict :=
  let l := s.logical c
  ((s.core c).compared.map fun h =>
    let u := s.entry c h
    (u.used.map fun n => e.used.filterMap fun m =>
      if overlapSlots l u n e m then (conflictOf (u.region n) (e.region m)).map fun w => ⟨h, m, w⟩ else none).flatten).flatten

/-- Whether a join of mask `m` orders a kind (R94, R299). -/
def joins (m : Nat) (kind : Nat) : Bool := decide (kind < 5) && m.testBit kind

/-- Older tasks that join order makes the entering task depend on (R299). -/
def State.joinDeps (s : State) (c : CoreId) (e : Entry) : List Handle :=
  (s.core c).compared.filter fun h =>
    let u := s.entry c h
    (u.kind == 5 && joins (u.field 19 0 5) e.kind) || (e.kind == 5 && joins (e.field 19 0 5) u.kind)

/-- Logical cores that a peer region names (R276); a rank that the group lacks names none. -/
def State.peerCores (s : State) (p : PartNum) (r : Nat) : List Nat :=
  let g := s.group (Fin.ofNat 256 (bits r 61 8))
  let rank := bits r 53 8
  if g.part.toNat ≠ p.val then []
  else
    let ms := setBits 160 g.members.toNat
    if rank = 255 then ms else (ms[rank]?).toList

/-! ### Managed objects at entry (R95, R277) -/

/-- The agent of the registrar's own accesses. -/
def State.registrarAgent (s : State) (c : CoreId) (who : Requester) : Agent :=
  { part := s.partOf c, die := dieOf c, sdev := s.devId, slog := s.logical c, source := 3, sup := false, exec := false,
    who := who }

/-- A lookup of a partition command, or of a task that enters, waits once more at an address at which it has failed
(R383). -/
def State.lookupStuck (s t : State) (who : Requester) : Bool :=
  t.parked.any fun a => a.who == who && match who with
    | .unit (.cmdq q) => (s.cmdQueue q).failed.contains a.va
    | _ => s.failedLookups.contains (who, a.va)

/-- The check of R95 that each managed-object reference names an existing gallery; a null one fails `regionCauses`. -/
def State.galleryCauses (s : State) (ag : Agent) (e : Entry) : List (Fin 8) → State × Got Causes
  | [] => (s, .ok Causes.none)
  | n :: r =>
    let w := bits (e.region n) 64 64
    let a : State × Got (Option Gallery) := if w = 0 then (s, .ok none) else s.gallery { ag with source := 3 } (refGallery w)
    let rest (s : State) (k : Causes) : State × Got Causes :=
      let b := State.galleryCauses s ag e r
      (b.1, match b.2 with
        | .ok l => .ok (k.or l)
        | g => g)
    match a.2 with
    | .ok (some _) => rest a.1 Causes.none
    | .ok none => rest a.1 causeAccess
    | .wait => if s.lookupStuck a.1 ag.who then rest s causeAccess else (a.1, .wait)
    | .access => rest a.1 causeAccess
    | .data => rest a.1 causeData

/-- Present forms of the references of an entering task's managed-object slots. -/
def State.presentSlots (s : State) (ag : Agent) (e : Entry) : List (Fin 8) → State × Got (List (Fin 8 × Word))
  | [] => (s, .ok [])
  | n :: r =>
    let a := s.present ag (bits (e.region n) 64 64)
    match a.2 with
    | .ok (.ok w, _) =>
      let b := State.presentSlots a.1 ag e r
      (b.1, match b.2 with
        | .ok l => .ok ((n, BitVec.ofNat 64 w) :: l)
        | .wait => .wait
        | .access => .access
        | .data => .data)
    | .ok (.trap k, _) => (a.1, if k = 0x0B then .data else .access)
    | .wait => if s.lookupStuck a.1 ag.who then (s, .access) else (a.1, .wait)
    | .access => (a.1, .access)
    | .data => (a.1, .data)

/-- Older managed-object regions brought to present form; one whose lookup traps, or has failed in a REPLAY, keeps its last
form (R277, R383). -/
def State.refreshSlots (s : State) (c : CoreId) (ag : Agent) : List (Handle × Fin 8 × Word) → State × Got Unit
  | [] => (s, .ok ())
  | (h, n, w) :: r =>
    let a := s.present ag w.toNat
    match a.2 with
    | .ok (.ok v, _) =>
      let e := a.1.entry c h
      State.refreshSlots (a.1.setEntry c h { e with objects := setSlot e.objects n (BitVec.ofNat 64 v) }) c ag r
    | .wait => if s.lookupStuck a.1 ag.who then State.refreshSlots s c ag r else (a.1, .wait)
    | _ => State.refreshSlots a.1 c ag r

/-! ### Renames (R281-R290) -/

/-- A rename whose guard is still to resolve, for a task that is not of that guard (R290). -/
def Core.foreign (k : Core) (r : Rename) (e : Entry) : Bool :=
  match r.guard with
  | some g => vget k.guards g == .opened && !(e.provisional && e.guard == g)
  | none => false

/-- Renames in use. -/
def Core.renamesIn (k : Core) : List (Fin 64) := (List.finRange 64).filter fun i => (vget k.renames i).state != .free

/-- The youngest of a list of open renames: the one whose task entered last. -/
def Core.youngest (k : Core) (l : List (Fin 64)) : Option (Fin 64) :=
  l.foldl (fun a i => match a with
    | none => some i
    | some j => if (vget k.renames j).age < (vget k.renames i).age then some i else some j) none

/-- What an entering region's box meets: the rename it is redirected to, and the renames that hold it (R283, R284). One
that meets a rename whose guard is to resolve is redirected to none (R290). A region that a provisional task writes is
redirected to renames of its own guard alone (R288), and a peer region to none (R276). -/
def Core.redirect (k : Core) (e : Entry) (b : Box) (writes peer : Bool) : Option (Fin 64) × List (Fin 64) :=
  let hit := k.renamesIn.filter fun i => (vget k.renames i).box.meets b
  let fits (i : Fin 64) : Bool :=
    let r := vget k.renames i
    r.state == .opened && b.inside r.box && !peer && (!(e.speculative && writes) || r.guard == some e.guard)
  let into := if hit.any fun i => k.foreign (vget k.renames i) e then none else k.youngest (hit.filter fits)
  (into, hit.filter fun i => into != some i)

/-- A region moved to rows of a shadow (R282). -/
def shadowRegion (r : Nat) (row : Nat) : BitVec 128 := BitVec.ofNat 128 (r - bits r 5 12 * 32 + row * 32)

/-- The first run of free annex units (R282). -/
def freeRun (used : Nat) (units need : Nat) : Option Nat :=
  (List.range (units + 1 - need)).find? fun st => (List.range need).all fun i => !used.testBit (st + i)

/-- Units of a box (R282). -/
def Box.units (b : Box) : Nat := (b.rows + 15) / 16

/-- Annex units for every box of a list, all or nothing. -/
def planUnits (units : Nat) : Nat → List (Fin 8 × Box) → Option (List (Fin 8 × Box × Nat) × Nat)
  | used, [] => some ([], used)
  | used, (n, b) :: r =>
    match freeRun used units b.units with
    | none => none
    | some st =>
      let used' := (List.range b.units).foldl (fun a i => a ||| 1 <<< (st + i)) used
      (planUnits units used' r).map fun p => ((n, b, st) :: p.1, p.2)

/-- The slots of an ordinary task that are renamed (R281), before room is looked for. -/
def State.renamable (s : State) (c : CoreId) (e : Entry) (cs : List Conflict) : List (Fin 8) :=
  let k := s.core c
  let l := s.logical c
  (e.slotsOf 0).filter fun n =>
    let mine := cs.filter fun x => x.slot == n
    e.field 0 6 1 == 1 && !e.provisional && !(e.region n).testBit 3 && (e.region n).testBit 4
      && (e.used.all fun m => m == n || !overlapSlots l e m e n)
      && !mine.isEmpty && mine.all (·.war)
      && k.renamesIn.all fun i => !(vget k.renames i).box.meets (boxOf (e.region n))

/-- The slots of a provisional task that are renamed (R288); one that meets a rename of another guard is not (R290). -/
def Core.shadowed (k : Core) (e : Entry) : List (Fin 8) :=
  (e.slotsOf 0).filter fun n => (e.region n).testBit 4 && (slotValue e.redirected n).isNone
    && k.renamesIn.all fun i => !((vget k.renames i).box.meets (boxOf (e.region n)) && k.foreign (vget k.renames i) e)

/-- One rename made for a slot of an entering task (R281, R284, R288). -/
def State.makeRename (s : State) (c : CoreId) (h : Handle) (e : Entry) (cs : List Conflict) (n : Fin 8) (b : Box)
    (unit : Nat) : State :=
  let k := s.core c
  match firstFin fun i : Fin 64 => (vget k.renames i).state == .free with
  | none => s
  | some i =>
    let l := s.logical c
    let olderReaders := k.compared.filter fun u =>
      (s.entry c u).used.any fun m => ((s.entry c u).region m).testBit 3 && overlapSlots l (s.entry c u) m e n
    let writers := (cs.filter fun x => x.slot == n && !x.war).map (·.older)
    let primes := e.provisional && (e.region n).testBit 3
    let r : Rename :=
      { state := .opened, box := b, shadow := s.annexRow (s.partOf c) + 16 * unit
        guard := if e.provisional then some e.guard else none
        owner := h, cls := e.field 0 4 2, readers := h :: olderReaders, holders := []
        primeDeps := if primes then writers.dedup else [], priming := primes
        primeRenames := if primes then k.renamesIn.filter fun j =>
          (vget k.renames j).box.meets b && (vget k.renames j).age != e.age else []
        progress := 0, age := e.age }
    s.setCore c { k with renames := vset k.renames i r }

/-! ### Chains (R248) -/

/-- The chain place of an entering matrix task, and the chains after it. -/
def Chains.enter (ch : Chains) (word : Nat) : Chains × ChainPlace :=
  let op := bits word 56 8
  let cb := word.testBit 37
  let ce := word.testBit 36
  let ord := word.testBit 35
  let loads := op == 0x12 || op == 0x13
  let drains := op == 0x14
  match ch.opened with
  | none =>
    let id := ch.next
    if cb && !ce then
      ({ ch with next := id + 1, opened := some id, ord := ord }, ⟨id, loads, false, drains⟩)
    else ({ ch with next := id + 1 }, ⟨id, true, true, false⟩)
  | some id =>
    let bad := cb || ord != ch.ord || loads || (drains && !ce)
    if bad then (ch, ⟨id, false, false, true⟩)
    else ({ ch with opened := if ce then none else some id }, ⟨id, false, drains && ce, false⟩)

/-- The chain place of an entering task, and the chains after it: only matrix tasks stand in chains. -/
def Core.placeIn (k : Core) (e : Entry) : Chains × ChainPlace :=
  if e.kind = 2 then k.chains.enter (e.word 19).toNat else (k.chains, e.chain)

/-- The chain order admits a matrix task (R248). -/
def Core.admits (k : Core) (e : Entry) : Bool :=
  if e.kind ≠ 2 || e.chain.illegal then true
  else
    let pendingBefore (m : Entry) : Bool :=
      m.kind == 2 && !m.failed && !m.chain.illegal && (m.state == .pending || m.state == .ready || m.state == .running)
        && (decide (m.chain.id < e.chain.id)
          || (m.chain.id == e.chain.id && decide (m.age < e.age) && (m.chain.first || e.chain.last || (e.word 19).getLsbD 35)))
    !k.entries.toList.any pendingBefore

/-! ### Completion -/

/-- What a pin or an unpin does to a header word (R175). -/
def pinned (up : Bool) (w : Nat) : Nat :=
  let n := w % 65536
  if n = 65535 then w else if up then w + 1 else if n = 0 then w else w - 1

/-- The header's second word changed at the object's home, indivisibly; a moving object holds the access (R175,
R338). -/
def State.pinWord (s : State) (ag : Agent) (g : Gallery) (w : Nat) (up : Bool) : State × Got Unit :=
  let r := s.rmw { ag with source := if ag.source = 0 then 0 else 1 } (objectAddress g w + 8) 8 fun s old => (s, some (pinned up old))
  (r.1, match r.2 with
    | .ok _ => .ok ()
    | .wait => .wait
    | .access => .access
    | .data => .data)

/-- A chain whose member completes with DATA, ACCESS or QUEUE has failed (R248); chains that nothing in flight belongs
to are forgotten. -/
def State.failChain (s : State) (c : CoreId) (h : Handle) (status : BitVec 4) : State :=
  let k := s.core c
  let e := s.entry c h
  let live (id : Nat) : Bool := k.chains.opened == some id
    || k.entries.toList.any fun x => x.inFlight && x.kind == 2 && x.chain.id == id
  let kept := k.chains.failed.filter fun f => live f.1
  let add := if (status = 2 ∨ status = 3 ∨ status = 6) ∧ ¬e.chain.illegal then [(e.chain.id, status)] else []
  s.setCore c { k with chains := { k.chains with failed := add ++ kept } }


/-- The pins a task holds are released, one after the other (R300); `false` waits. A pinned object has not moved (R340), so
each pin stands at the copy it was taken at. -/
def State.unpinAll (s : State) (c : CoreId) (h : Handle) (who : Requester) : List Word → State × Bool
  | [] => (s, true)
  | w :: r =>
    let ag := s.registrarAgent c who
    let a := s.checkRef ag w.toNat
    let b : State × Got Unit := match a.2 with
      | .ok (.ok v, some g) => a.1.pinWord ag g v false
      | .ok _ => (a.1, .ok ())
      | .wait => (a.1, .wait)
      | .access => (a.1, .ok ())
      | .data => (a.1, .ok ())
    match b.2 with
    | .wait =>
      if s.lookupStuck b.1 who then State.unpinAll (s.setEntry c h { s.entry c h with pins := r }) c h who r else (b.1, false)
    | _ => State.unpinAll (b.1.setEntry c h { b.1.entry c h with pins := r }) c h who r

/-- A successor handle of a partition leaves a die as a SIGNAL packet (R97, R352). -/
def State.sendHandleFrom (s : State) (part : PartNum) (die : DieNum) (w : Nat) : State :=
  let dev := BitVec.ofNat 10 (bits w 0 10)
  let core := 40 * bits w 10 2 + bits w 12 6
  let k : Packet :=
    { srcDev := s.devId, srcPart := part, sender := none, host := false, part := Fin.ofNat 16 (bits w 44 4)
      core := if bits w 12 6 ≤ 39 then core else 255
      words := [0x2202, BitVec.ofNat 64 w, 0, 0], seq := s.reqSeq, clock := s.clock die, plane := none }
  if dev = s.devId then s.eventWith .signalPacket (.packet k)
  else match s.planeFor dev core with
    | none => s
    | some p => s.request dev p (.handle part) fun q => .packet dev p q k.padded

/-- A successor handle of a core's task. -/
def State.sendHandle (s : State) (c : CoreId) (w : Nat) : State := s.sendHandleFrom (s.partOf c) (dieOf c) w

/-- Completion acts on the signal counter and the successor handles (R44); a failed core's counters receive nothing
(R388). -/
def State.signals (s : State) (c : CoreId) (e : Entry) (status : BitVec 4) : State :=
  let failed := status != 0 && status != 5
  let s := if e.field 1 24 1 = 1 ∧ status ≠ 4 ∧ status ≠ 5 ∧ !(s.core c).failed then
      s.arrival c (Fin.ofNat 256 (e.field 1 16 8)) (BitVec.ofNat 32 (e.field 1 32 32)).toInt failed false
    else s
  if e.field 0 9 1 = 1 ∧ status ≠ 4 then
    let mark : Nat := if status = 5 then 2 ^ 43 else if failed then 2 ^ 42 else 0
    let ws := ([27, 28, 29, 30, 31].map fun i : Fin 32 => e.word i) ++ e.extra
    ws.foldl (fun s w => if w = 0 then s else s.sendHandle c (w.toNat ||| mark)) s
  else s

/-- Dependences on a completed task are satisfied (R279), for the tasks that `p` admits. -/
def State.satisfy (s : State) (c : CoreId) (h : Handle) (p : Entry → Bool) : State :=
  let k := s.core c
  s.setCore c { k with entries := k.entries.map fun e => if p e then { e with deps := e.deps.filter fun d => d != h } else e }

/-- The engine that ran a task is idle again. -/
def Core.idle (k : Core) (kind : Nat) (h : Handle) : Core :=
  match kind with
  | 1 => if k.vec.task = some h then { k with vec := { k.vec with task := none, waiting := false } } else k
  | 2 => if k.matrix.job = .task h then { k with matrix := Engine.reset } else k
  | 3 => if k.transpose.job = .task h then { k with transpose := Engine.reset } else k
  | 4 => if k.copy.job = .task h then { k with copy := Engine.reset } else k
  | _ => k

/-- A completed task leaves the rename table; renames that only it kept open close (R284). -/
def State.leaveRenames (s : State) (c : CoreId) (h : Handle) : State :=
  let k := s.core c
  let r := k.renames.map fun (r : Rename) =>
    if r.state = .free then r
    else { r with
      readers := r.readers.filter fun d => d != h
      holders := r.holders.filter fun d => d != h
      primeDeps := r.primeDeps.filter fun d => d != h
      cls := if r.owner = h ∧ r.readers.contains h then max r.cls (s.entry c h).agedClass else r.cls
      priming := r.priming && !(r.owner == h && r.readers.contains h) }
  s.setCore c { k with renames := r }

/-- A rename that nothing keeps open closes, once its guard, if any, has committed (R284, R292). -/
def State.closeRenames (s : State) (c : CoreId) : State :=
  (List.finRange 64).foldl (fun s i =>
    let k := s.core c
    let r := vget k.renames i
    let held := match r.guard with
      | some g => vget k.guards g == .opened
      | none => false
    if r.state == .opened && r.readers.isEmpty && !held then
      s.setCore c { k with renames := vset k.renames i { r with state := .closed, age := k.nextAge }, nextAge := k.nextAge + 1 }
    else s) s

/-- Guards that have resolved return to FREE: a committing one when the last of its renames has retired, a squashing one
when its last task has completed (R160, R292, R293). -/
def Core.freeGuards (k : Core) : Core :=
  let tasks (g : GuardNum) : Bool := k.entries.toList.any fun e => e.inFlight && e.speculative && e.guard == g
  let boxes (g : GuardNum) : Bool := k.renames.toList.any fun r => r.state != .free && r.guard == some g
  { k with guards := Vector.ofFn fun g : Fin 32 =>
      match vget k.guards g with
      | .committing => if boxes g then .committing else .free
      | .squashing => if tasks g then .squashing else .free
      | x => x }

/-- Hidden copies that the copy engine may take (R284, R288). -/
def Core.hidden (k : Core) : List (Fin 64) :=
  k.renamesIn.filter fun i =>
    let r := vget k.renames i
    (r.state == .closed && r.holders.isEmpty) || (r.priming && r.primeDeps.isEmpty && r.primeRenames.isEmpty)

/-- The registrar has work: as `poke`, and a release for the copy engine when a hidden copy waits. -/
def State.pokeAll (s : State) (c : CoreId) : State :=
  let s := s.poke c
  if (s.core c).hidden.isEmpty then s else s.once (.event (.taskRelease c .copy) .none)

/-- Held packets for a core of this device (R352). -/
def State.heldFor (s : State) (c : CoreId) (h : HeldPacket) : Bool :=
  h.packet.part == s.partOf c && h.packet.core == s.logical c

/-- Packets that are held for the pair of a packet: its source device and target core (R352). -/
def State.heldOfPair (s : State) (k : Packet) : List HeldPacket := s.heldPackets.filter fun h => h.packet.samePair k

/-- A held packet waits for an entry of a core: neither it nor one before it of its pair waits for shadow room (R289,
R352). -/
def State.wantsEntry (s : State) (c : CoreId) (h : HeldPacket) : Bool :=
  s.heldFor c h && !(s.heldOfPair h.packet).any HeldPacket.cramped

/-- The contexts that wait to post for want of an entry. -/
def Core.waitingPosts (k : Core) : List CtxId := k.posters.filter fun x => !k.cramped.contains x

/-- A freed entry, or freed annex room, is offered to what waits for it: parked posts and held packets (R287, R289,
R352). -/
def State.offer (s : State) (c : CoreId) : State :=
  let s := s.setCore c { s.core c with cramped := [] }
  let s := { s with heldPackets := s.heldPackets.map fun h => if s.heldFor c h then { h with cramped := false } else h }
  let s := if (s.core c).posters.isEmpty then s else s.once (.event (.parkedPostResume c) .none)
  if s.heldPackets.any (s.heldFor c) then s.once (.event (.heldPacketAccept c) .none) else s

/-- A task's completion acts and its entry becomes FREE (R44, R272, R301). -/
def State.finish (s : State) (c : CoreId) (h : Handle) (status : BitVec 4) : State :=
  let e := s.entry c h
  let s := s.signals c e status
  let s := s.leaveRenames c h
  let s := s.setEntry c h { Entry.free with gen := e.gen, status := status, flags := if status = 4 then 0 else e.flags }
  let s := s.satisfy c h fun _ => true
  let k := s.core c
  let s := s.setCore c { (k.idle e.kind h) with timers := k.timers.filter fun d => d != h }
  let s := s.closeRenames c
  let s := s.setCore c (s.core c).freeGuards
  (s.offer c).pokeAll c

/-- A running task completes (R44, R291, R293): a provisional one whose guard is OPEN is HELD. -/
def State.complete (s : State) (c : CoreId) (h : Handle) : State :=
  let e := s.entry c h
  if e.state ≠ .running then s
  else
    let u := s.unpinAll c h (.entry c h) e.pins
    if !u.2 then u.1
    else
      let s := u.1
      let e := s.entry c h
      let status := if e.squash then 4 else e.causes.status
      if e.speculative && !e.squash && vget (s.core c).guards e.guard == .opened then
        let s := s.setEntry c h { e with state := .held, status := status }
        let s := s.setCore c ((s.core c).idle e.kind h)
        let same (x : Entry) : Bool := x.speculative && x.guard == e.guard
        (s.satisfy c h same).pokeAll c
      else s.finish c h status

/-! ### Entry -/

/-- The outcome of a posting (R155, R158, R287, R289). -/
inductive Posting where
  | closed
  | badKind
  /-- No entry, or no room for its shadows. -/
  | full
  /-- A lookup of R277 waits. -/
  | wait
  | entered (h : Handle)
  deriving DecidableEq, Repr

/-- A task takes an entry and fails a posting check: it completes at once, compared with no task (R273). One of a chain
has its place there, and fails the chain by its status (R248). A provisional one whose guard is OPEN is HELD, as R291 has
it of every provisional task, so R44 acts for it at the commit (DESIGN CHOICE, log 87). -/
def State.enterFailed (s : State) (c : CoreId) (h : Handle) (e : Entry) (k : Causes) : State × Posting :=
  let ch := (s.core c).placeIn e
  let s := s.setEntry c h { e with state := .running, failed := true, causes := k, chain := ch.2 }
  let s := s.setCore c { s.core c with nextAge := (s.core c).nextAge + 1, chains := ch.1 }
  let s := if e.kind = 2 then s.failChain c h k.status else s
  (s.complete c h, .entered h)

/-- An entering task's slots redirected to open renames, the renames that hold it and those it joins (R283, R284, R290):
its local slots, and its peer slots that name the core `l` itself (R276). -/
def Core.placeSlots (k : Core) (l : Nat) (e : Entry) : Entry × List (Fin 64) :=
  let own := (e.slotsOf 1).filter fun n => ((slotValue e.peers n).getD []).contains l
  let peers := own.foldl (fun (a : List (Fin 64)) n =>
    a ++ (k.redirect e (boxOf (e.region n)) false true).2.filter fun i => !a.contains i) []
  (e.slotsOf 0).foldl (fun (acc : Entry × List (Fin 64)) n =>
    let b := boxOf (e.region n)
    let r := k.redirect e b ((e.region n).testBit 4) false
    let holds := acc.1.renDeps ++ r.2.filter fun i => !acc.1.renDeps.contains i
    match r.1 with
    | some i =>
      let row := (vget k.renames i).shadow + (b.row - (vget k.renames i).box.row)
      ({ acc.1 with renDeps := holds, redirected := acc.1.redirected ++ [(n, shadowRegion (e.region n) row)] }, i :: acc.2)
    | none => ({ acc.1 with renDeps := holds }, acc.2)) ({ e with renDeps := peers }, [])

/-- A HELD task's dependants of the same guard have their dependence on it satisfied (R291). -/
def Entry.heldFor (u e : Entry) : Bool :=
  u.state == .held && u.speculative && e.provisional && u.guard == e.guard

/-- A task enters with dependences formed (R273-R283, R288): renames made, chain place taken, conditions latched. -/
def State.enterChecked (s : State) (c : CoreId) (h : Handle) (e : Entry) : State × Posting :=
  let k := s.core c
  let p := s.partOf c
  let e := { e with peers := (e.slotsOf 1).map fun n => (n, s.peerCores p (e.region n)) }
  let pl := k.placeSlots (s.logical c) e
  let e := pl.1
  let cs := s.conflicts c e
  let wanted := if e.provisional then k.shadowed e else s.renamable c e cs
  let boxes := wanted.map fun n => (n, boxOf (e.region n))
  let units := (s.part p).annex / 16
  let room := decide (k.renamesIn.length + boxes.length ≤ 64)
  let plan := if room then planUnits units k.annex.toNat boxes else none
  let needed := boxes.foldl (fun a b => a + b.2.units) 0
  if e.provisional && plan.isNone then
    if needed > units then s.enterFailed c h e causeFormat else (s, .full)
  else
    let made := match plan with
      | some q => q
      | none => ([], k.annex.toNat)
    let renamed := made.1.map (·.1)
    let deps := ((cs.filter fun x => !(x.war && renamed.contains x.slot)).map (·.older) ++ s.joinDeps c e).filter
      fun u => !(s.entry c u).heldFor e
    let own := made.1.map fun q => (q.1, shadowRegion (e.region q.1) (s.annexRow p + 16 * q.2.2))
    let ch := k.placeIn e
    let w := s.counter c (Fin.ofNat 256 (e.field 1 0 8))
    let tnb := e.field 0 8 1 == 1
    let full := { e with
      state := .pending
      deps := deps.dedup
      redirected := e.redirected ++ own
      chain := ch.2
      ctrLatched := e.field 1 9 1 == 0 || w.phase == (e.field 1 8 1 == 1)
      timeLatched := !tnb }
    let s := made.1.foldl (fun s q => s.makeRename c h e cs q.1 q.2.1 q.2.2) s
    let k := s.core c
    let s := s.setCore c { k with
      annex := BitVec.ofNat 64 made.2
      chains := ch.1
      nextAge := k.nextAge + 1
      timers := if tnb then k.timers ++ [h] else k.timers
      renames := Vector.ofFn fun i : Fin 64 =>
        let r := vget k.renames i
        if pl.2.contains i then { r with holders := r.holders ++ [h] } else r }
    ((s.setEntry c h full).pokeAll c, .entered h)

/-- Free entries of a catalogue are given to the posts and packets that wait for one, in order of first attempt (R287):
the entries that those leave. -/
def State.entriesLeft (s : State) (c : CoreId) : Nat :=
  let k := s.core c
  (k.handles fun e => e.state == .free).length
    - (k.waitingPosts.length + (s.heldPackets.filter (s.wantsEntry c)).length)

/-- A task enters a core's catalogue (R155, R271-R277). `grant`: it has waited, and its turn has come. -/
def State.tryEnter (s : State) (c : CoreId) (image : Vector Word 32) (extra : List Word) (grant : Bool)
    (who : Requester) : State × Posting :=
  let k := s.core c
  let e0 : Entry := { Entry.free with image := image, extra := extra }
  if k.closed then (s, .closed)
  else if e0.kind ≥ 6 then (s, .badKind)
  else match firstFin fun h : Handle => (vget k.entries h).state == .free with
    | none => (s, .full)
    | some h =>
      if !grant && s.entriesLeft c == 0 then (s, .full)
      else
        let e := { e0 with gen := (vget k.entries h).gen + 1, age := k.nextAge }
        let ag := s.registrarAgent c who
        let objs := e.slotsOf 6
        let g := s.galleryCauses ag e objs
        match g.2 with
        | .wait => (g.1, .wait)
        | .access => g.1.enterFailed c h e causeAccess
        | .data => g.1.enterFailed c h e causeData
        | .ok gc =>
          let s := g.1
          let causes := (s.postCauses c e).or gc
          if causes.status ≠ 0 then s.enterFailed c h e causes
          else
            let a := s.presentSlots ag e objs
            match a.2 with
            | .wait => (a.1, .wait)
            | .access => a.1.enterFailed c h e causeAccess
            | .data => a.1.enterFailed c h e causeData
            | .ok l =>
              let older := if objs.isEmpty then [] else
                (k.compared.map fun u => (vget k.entries u).objects.map fun o => (u, o.1, o.2)).flatten
              let b := a.1.refreshSlots c ag older
              match b.2 with
              | .wait => (b.1, .wait)
              | _ => b.1.enterChecked c h { e with objects := l }

/-- A task enters a core's catalogue; once it has, nothing is left of lookups that have failed for it (R383). -/
def State.enterTask (s : State) (c : CoreId) (image : Vector Word 32) (extra : List Word) (grant : Bool)
    (who : Requester) : State × Posting :=
  let r := s.tryEnter c image extra grant who
  match r.2 with
  | .entered h => ({ r.1 with failedLookups := r.1.failedLookups.filter fun l => l.1 != who }, .entered h)
  | p => (r.1, p)

/-- The causes of an access that did not succeed. -/
def Got.causes {α : Type} : Got α → Causes
  | .access => causeAccess
  | .data => causeData
  | .ok _ => Causes.none
  | .wait => Causes.none

/-! ### Release -/

/-- The guard condition of R296. -/
def Core.guardOpen (k : Core) (e : Entry) : Bool :=
  !e.speculative || vget k.guards e.guard == .opened || vget k.guards e.guard == .committing

/-- Every release condition of R296 holds. -/
def Core.mayRelease (k : Core) (h : Handle) : Bool :=
  let e := vget k.entries h
  e.deps.isEmpty && e.renDeps.isEmpty && e.ctrLatched && e.timeLatched && k.guardOpen e && k.admits e
    && !k.renames.toList.any fun r => r.state != .free && r.owner == h && r.priming

/-- PENDING tasks of a kind whose conditions hold become READY. -/
def State.makeReady (s : State) (c : CoreId) (kind : Nat) : State :=
  ((s.core c).handles fun e => e.state == .pending && e.kind == kind).foldl (fun s h =>
    if (s.core c).mayRelease h then
      s.setEntry c h { s.entry c h with state := .ready, readySince := s.now }
    else s) s

/-- A candidate for an engine: a task or a hidden copy, with its effective class and order (R297). -/
structure Candidate where
  job : Job
  starved : Bool
  cls : Nat
  age : Nat
  deriving DecidableEq, Repr

/-- The better of two candidates: starved first, then higher class, then older (R297, R298). -/
def Candidate.better (a b : Candidate) : Bool :=
  if a.starved != b.starved then a.starved
  else if a.starved then decide (a.age ≤ b.age)
  else decide (b.cls < a.cls) || (a.cls == b.cls && decide (a.age ≤ b.age))

def State.candidates (s : State) (c : CoreId) (kind : Nat) : List Candidate :=
  let k := s.core c
  let up := s.inherited c
  let tasks := (k.handles fun e => e.state == .ready && e.kind == kind).map fun h =>
    let e := vget k.entries h
    (⟨.task h, e.starved, max e.agedClass up, e.age⟩ : Candidate)
  if kind = 4 then
    tasks ++ k.hidden.map fun i =>
      let r := vget k.renames i
      (⟨if r.priming then .priming i else .homing i, false, max r.cls up, r.age⟩ : Candidate)
  else tasks

/-- The candidate that an engine takes. -/
def best : List Candidate → Option Candidate
  | [] => none
  | a :: r =>
    match best r with
    | none => some a
    | some b => if a.better b then some a else some b

/-- The EMPTY context that takes a docent task: the lowest (log 16). -/
def Core.emptyContext (k : Core) : Option CtxId :=
  firstFin fun i : CtxId => (vget k.ctxs i).state == .empty

/-- Whether the engine of a kind is free, or a context is EMPTY. -/
def Core.unitFree (k : Core) (kind : Kind) : Bool :=
  match kind with
  | .docent => k.emptyContext.isSome
  | .vector => k.vec.task.isNone
  | .matrix => k.matrix.job == .idle
  | .transpose => k.transpose.job == .idle
  | .copy => k.copy.job == .idle
  | .join => false

/-- The registers of a context at a docent task's release (R109, R153). -/
def Context.start (x : Context) (e : Entry) (h : Handle) : Context :=
  { x with
    pc := e.word 19
    x := Vector.ofFn fun r : Fin 32 =>
      match r.val with
      | 1 => e.word 20
      | 2 => e.word 21
      | 3 => e.word 22
      | 4 => e.word 23
      | 31 => x.stack
      | _ => 0
    h := Vector.replicate 16 0
    level := .u
    prev := .u
    tflags := 0
    pclass := 0
    pused := false
    handle := h
    gen := e.gen
    load := none
    staging := Vector.replicate 32 0
    suppressed := false
    wideFault := false
    fencing := false
    trailing := false
    posting := false
    midRef := false
    markers := [] }

/-- The pins of a release, one after the other (R300). -/
def State.pinSlots (s : State) (c : CoreId) (h : Handle) (ag : Agent) : List (Fin 8 × Word) → State × Got Unit
  | [] => (s, .ok ())
  | (n, w) :: r =>
    let a := s.present ag w.toNat
    match a.2 with
    | .ok (.ok v, some g) =>
      let b := a.1.pinWord ag g v true
      match b.2 with
      | .ok _ =>
        let e := b.1.entry c h
        let o := setSlot e.objects n (BitVec.ofNat 64 v)
        State.pinSlots (b.1.setEntry c h { e with pins := e.pins ++ [BitVec.ofNat 64 v], objects := o }) c h ag r
      | .wait => (b.1, .wait)
      | .access => (b.1, .access)
      | .data => (b.1, .data)
    | .ok (.trap k, _) => (a.1, if k = 0x0B then .data else .access)
    | .ok _ => (a.1, .access)
    | .wait => (a.1, .wait)
    | .access => (a.1, .access)
    | .data => (a.1, .data)

/-- Bound registers that a task's regions let it read (R87, R300). -/
def State.readBounds (s : State) (c : CoreId) (e : Entry) : List (BNum × BitVec 32) :=
  let ok (b : BNum) : Bool := (e.slotsOf 4).any fun n =>
    (e.region n).testBit 3 && decide (bits (e.region n) 5 6 ≤ b.val) && decide (b.val ≤ bits (e.region n) 11 6)
  ((List.finRange 64).filter ok).map fun b => (b, vget (s.core c).bregs b)

/-- A RELOC takes no pin (R269, R300). -/
def Entry.pinsObjects (e : Entry) : Bool := !(e.kind == 4 && e.field 19 56 8 == 0x39)

/-- The vector unit at a vector task's start (R16, R22, R110). -/
def VectorUnit.start (v : VectorUnit) (e : Entry) (h : Handle) : VectorUnit :=
  { VectorUnit.reset with
    v := v.v
    l := v.l
    s := Vector.ofFn fun i : Fin 16 =>
      match i.val with
      | 0 => e.word 21
      | 1 => e.word 22
      | 2 => e.word 23
      | 3 => e.word 24
      | 15 => e.seed
      | _ => 0
    task := some h }

/-- A task begins on its unit (R297, R300). -/
def State.beginTask (s : State) (c : CoreId) (kind : Kind) (h : Handle) : State :=
  let e0 := s.entry c h
  let e := { e0 with
    state := .running
    bounds := s.readBounds c e0
    seed := (s.part (s.partOf c)).vseed
    flags := 0
    rsr := 0 }
  let k := s.core c
  let job : Engine := { Engine.reset with job := .task h }
  match kind with
  | .docent =>
    match k.emptyContext with
    | none => s
    | some i =>
      let s := s.setEntry c h { e with ctx := i }
      let s := s.setCtx ⟨c, i⟩ ((s.ctx ⟨c, i⟩).start e h)
      s.ready ⟨c, i⟩
  | .vector => ((s.setEntry c h e).setCore c { (s.setEntry c h e).core c with vec := k.vec.start e h }).due [.unit (.vector c)]
  | .matrix => ((s.setEntry c h e).setCore c { (s.setEntry c h e).core c with matrix := job }).due [.unit (.matrix c)]
  | .transpose =>
    ((s.setEntry c h e).setCore c { (s.setEntry c h e).core c with transpose := job }).due [.unit (.transpose c)]
  | .copy => ((s.setEntry c h e).setCore c { (s.setEntry c h e).core c with copy := job }).due [.unit (.copy c)]
  | .join => s

/-- A hidden copy begins on the copy engine. -/
def State.beginHidden (s : State) (c : CoreId) (j : Job) : State :=
  let k := s.core c
  match j with
  | .homing i =>
    (s.setCore c { k with copy := { Engine.reset with job := j }
                          renames := vset k.renames i { vget k.renames i with state := .homing } }).event (.homingCopy c i)
  | .priming i => (s.setCore c { k with copy := { Engine.reset with job := j } }).event (.primingCopy c i)
  | _ => s

/-- The task of a unit of a core whose release waits for a lookup (R300). -/
def State.releaseWaits (s : State) (c : CoreId) (k : Kind) : Bool :=
  let mine (w : Requester) : Bool := match w with
    | .release d l _ => d == c && l == k
    | _ => false
  (s.parked.any fun a => mine a.who) || (s.heldMoving.any fun a => mine a.2) || s.behind.any fun a => mine a.who

/-- A task whose release fails completes without having run (R85, R300); one of a chain fails the chain (R248). -/
def State.failRelease (s : State) (c : CoreId) (h : Handle) (k : Causes) : State :=
  let s := s.setEntry c h { s.entry c h with state := .running, causes := k }
  let s := if (s.entry c h).kind = 2 then s.failChain c h k.status else s
  s.complete c h

/-- TASK_RELEASE (R296-R300): conditions that hold make tasks READY; a join completes; a free unit takes the task
that R297 chooses. -/
def execTaskRelease (core : CoreId) (k : Kind) (s : State) : Host.Outcome State Fault Refusal :=
  let s := s.makeReady core (kindCode k)
  if k = .join then
    .next (((s.core core).handles fun e => e.state == .ready && e.kind == 5).foldl (fun s h =>
      (s.setEntry core h { s.entry core h with state := .running }).complete core h) s)
  else if !(s.core core).unitFree k || s.releaseWaits core k then .next s
  else match best (s.candidates core (kindCode k)) with
    | none => .next s
    | some a =>
      match a.job with
      | .task h =>
        let e := s.entry core h
        let ag := s.registrarAgent core (.release core k h)
        let todo := if e.pinsObjects then e.objects.drop e.pins.length else []
        let r := s.pinSlots core h ag todo
        match r.2 with
        | .ok _ => .next ((r.1.beginTask core k h).once (.event (.taskRelease core k) .none))
        | .wait => .next r.1
        | g =>
          .next ((r.1.failRelease core h g.causes).once (.event (.taskRelease core k) .none))
      | .idle => .next s
      | .homing _ => .next (s.beginHidden core a.job)
      | .priming _ => .next (s.beginHidden core a.job)

/-! ### Hidden copies (R284, R285, R288) -/

/-- One line of a hidden copy, from row `sr` to row `dr` of a core, at line `j` of the row, for columns `lo` to `hi`
of the line. A source that fails verification poisons the line that receives it. -/
def State.hiddenLine (s : State) (c : CoreId) (sr dr j lo hi : Nat) : State :=
  let sk := tileKey c sr (64 * j)
  let dk := tileKey c dr (64 * j)
  let v := s.verify (sk / 64)
  let s := v.1
  let src := s.lineData (sk / 64)
  let st := s.tags.get (sk / 64)
  if lo = 0 ∧ hi = 64 then s.lineBy (dieOf c) dk src st
  else
    let dst := s.lineData (dk / 64)
    let dt := s.tags.get (dk / 64)
    let data := dst.take lo ++ ((src.take hi).drop lo ++ dst.drop hi)
    let bit (n : Nat) : Bool :=
      if lo ≤ 8 * n ∧ 8 * n + 8 ≤ hi then (tagRefb st).testBit n
      else if 8 * n < hi ∧ lo < 8 * n + 8 then false
      else (tagRefb dt).testBit n
    let refb := (List.range 8).foldl (fun a n => if bit n then a + 2 ^ n else a) 0
    let t := makeTag (tagFmt dt) (tagScale dt) refb data
    let poison : Word := if v.2 then dt &&& 0x1000000 else 0x1000000
    s.lineBy (dieOf c) dk data (t ||| poison)

/-- A box copied from rows at `src` to rows at `dst`, line by line (R285). -/
def State.hiddenCopy (s : State) (c : CoreId) (b : Box) (src dst : Nat) : State :=
  (List.range b.rows).foldl (fun s n =>
    (List.range 32).foldl (fun s j =>
      if 64 * j < b.col + b.cols ∧ b.col < 64 * j + 64 then
        s.hiddenLine c (src + n) (dst + n) j (b.col - 64 * j) (min 64 (b.col + b.cols - 64 * j))
      else s) s) s

/-- The copy engine is free again. -/
def State.copyIdle (s : State) (c : CoreId) : State :=
  (s.setCore c { s.core c with copy := Engine.reset }).once (.event (.taskRelease c .copy) .none)

/-- HOMING_COPY (R285): the shadow is copied to its box. -/
def execHomingCopy (core : CoreId) (e : Fin 64) (s : State) : Host.Outcome State Fault Refusal :=
  let r := vget (s.core core).renames e
  if r.state = .homing ∧ (s.core core).copy.job = .homing e then
    .next ((s.hiddenCopy core r.box r.shadow r.box.row).event (.renameRetire core e))
  else .next s

/-- Priming copies no longer wait for a rename. -/
def Core.unprime (k : Core) (e : Fin 64) : Core :=
  { k with renames := k.renames.map fun r => { r with primeRenames := r.primeRenames.filter fun d => d != e } }

/-- A rename-table entry and its annex units become free, and what depends on it goes on (R284, R293). -/
def State.dropRename (s : State) (c : CoreId) (e : Fin 64) : State :=
  let k := s.core c
  let r := vget k.renames e
  let first := (r.shadow - s.annexRow (s.partOf c)) / 16
  let units := (List.range r.box.units).foldl (fun a i => a ||| 1 <<< (first + i)) 0
  let k : Core := { k with
    renames := vset k.renames e Rename.reset
    annex := k.annex &&& ~~~(BitVec.ofNat 64 units)
    entries := k.entries.map fun x => { x with renDeps := x.renDeps.filter fun d => d != e } }
  s.setCore c (k.unprime e)

/-- RENAME_RETIRE (R284). -/
def execRenameRetire (core : CoreId) (e : Fin 64) (s : State) : Host.Outcome State Fault Refusal :=
  let r := vget (s.core core).renames e
  if r.state = .homing then
    let s := s.copyIdle core
    let s := s.dropRename core e
    let s := s.setCore core (s.core core).freeGuards
    .next ((s.offer core).pokeAll core)
  else .next s

/-- PRIMING_COPY (R288): the box is copied into its shadow, and the task that waits for it may go on. -/
def execPrimingCopy (core : CoreId) (e : Fin 64) (s : State) : Host.Outcome State Fault Refusal :=
  let r := vget (s.core core).renames e
  if r.priming ∧ (s.core core).copy.job = .priming e then
    let s := s.hiddenCopy core r.box r.box.row r.shadow
    let k := s.core core
    let s := s.setCore core { k with renames := vset k.renames e { vget k.renames e with priming := false } }
    .next ((s.copyIdle core).pokeAll core)
  else .next s

/-! ### Aging and time (R294, R298) -/

/-- TASK_AGING (R298). -/
def execTaskAging (core : CoreId) (h : Handle) (s : State) : Host.Outcome State Fault Refusal :=
  let e := s.entry core h
  if e.state = .ready ∧ s.now > e.readySince + 65536 then .next (s.setEntry core h { e with aged := true }) else .next s

/-- TASK_STARVATION (R298). -/
def execTaskStarvation (core : CoreId) (h : Handle) (s : State) : Host.Outcome State Fault Refusal :=
  let e := s.entry core h
  if e.state = .ready ∧ s.now ≥ e.readySince + 1048576 then .next (s.setEntry core h { e with starved := true })
  else .next s

/-- Time conditions that device time has reached become true (R294). -/
def State.latchTimes (s : State) (c : CoreId) : State :=
  let due := (s.core c).timers.filter fun h => decide ((s.entry c h).field 2 0 64 ≤ s.time.toNat)
  if due.isEmpty then s
  else
    let s := due.foldl (fun s h => s.setEntry c h { s.entry c h with timeLatched := true }) s
    let k := s.core c
    (s.setCore c { k with timers := k.timers.filter fun h => !due.contains h }).poke c

/-- Tasks that have been READY long enough age (R298). -/
def State.ageTasks (s : State) (c : CoreId) : State :=
  ((s.core c).handles fun e => e.state == .ready).foldl (fun s h =>
    let e := s.entry c h
    let s := if !e.aged && decide (s.now > e.readySince + 65536) then s.once (.event (.taskAging c h) .none) else s
    if !e.starved && decide (s.now ≥ e.readySince + 1048576) then s.once (.event (.taskStarvation c h) .none) else s) s

/-- A lease that has lapsed past the last follower's turn, with no follower that runs, is lost with no takeover: every
partition receives its error source once (R407). -/
def State.reportLease (s : State) : State :=
  let follower (d : DieNum) : Bool := d != s.lease.die && (vget s.keepers d).runs
  if s.lease.valid ∧ !s.leaseLost ∧ s.lease.expiry.toNat + 150000 ≤ s.time.toNat ∧ !(List.finRange 4).any follower then
    (List.finRange 16).foldl (fun s p => s.raiseSource p 6) { s with leaseLost := true }
  else s

/-- What the keepers do as device time passes (R408): the leader renews every 500 µs and stops 1.5 ms after its last
renewal; a follower on die d tries for the lease once time passes EXPIRY + 50 µs × d. Commands in progress go on. -/
def State.keeperDue (s : State) : State :=
  let s := s.reportLease
  let k := vget s.keepers s.lease.die
  let s := if s.lease.valid ∧ !k.stopped then
      if k.renewed + 1500000 ≤ s.time.toNat then s.once (.event .leaderStop (.keeper s.lease.die))
      else if s.leads ∧ k.renewed + 500000 ≤ s.time.toNat then s.once (.event .leaseRenewal (.keeper s.lease.die))
      else s
    else s
  let tries (d : DieNum) : Bool :=
    !(s.lease.valid && s.lease.die == d) && (vget s.keepers d).runs
      && decide (s.lease.expiry.toNat + 50000 * d.val ≤ s.time.toNat)
  let s := ((List.finRange 4).filter tries).foldl (fun s d => s.once (.event .leaseTakeover (.keeper d))) s
  (allQueues.filter fun q => (s.cmdQueue q).busy.isSome).foldl (fun s q => s.once (.unit (.cmdq q))) s

/-- TIMER_WHEEL_TICK (R294): device time reaches the next multiple of 256 ns; reduction slots whose deadline it reaches
are due (R366), and the sensors when a multiple of 100 µs has passed since they last were (R417). -/
def execTimerWheelTick (s : State) : Host.Outcome State Fault Refusal :=
  let t := min ((s.time.toNat / 256 + 1) * 256) (2 ^ 64 - 1)
  let sample := t / 100000 != s.sampled
  let s := { s with time := BitVec.ofNat 64 t, sampled := t / 100000 }
  let late (n : BNum) : Bool :=
    let x := vget s.slots n
    x.opened && x.parked.isNone && decide (x.due ≤ s.time.toNat)
  let s := ((List.finRange 64).filter late).foldl (fun s n => s.once (.event (.reductionDeadline n) .none)) s
  let s := if sample then s.once (.event .sensorUpdate .none) else s
  .next ((List.finRange 160).foldl (fun s c => (s.latchTimes c).ageTasks c) s.keeperDue)

end Sys2Proof.Machine
end

