-- ==== Sys2Proof/Machine/Tasks.lean ====
section
/-! DEFINITION. Staging, posting, guards and bound registers of a docent (R153-R161), a parked posting that goes on
(R287) and the reply to a POSTR (R158). -/

namespace Sys2Proof.Machine

/-! ### Staging (Table 5.1) -/

def Context.stage (x : Context) (w : Fin 32) (v : Word) : Context := { x with staging := vset x.staging w v }

def execTset (w : Fin 32) (a : XReg) (s : State) : Host.Outcome State Fault Refusal :=
  s.plain (s.ctx s.me).issue [a] fun x => x.stage w (x.getX a)

/-- TSETI with its immediate extended, unprefixed or under IMX. -/
def State.stageImm (s : State) (i : Issue) (w : Fin 32) (imm : Word) : Host.Outcome State Fault Refusal :=
  s.plain i [] fun x => x.stage w imm

def execTseti (w : Fin 32) (imm : BitVec 16) (s : State) : Host.Outcome State Fault Refusal :=
  s.stageImm (s.ctx s.me).issue w (signedImm imm)

def execTreg (n : Fin 8) (a b : XReg) (s : State) : Host.Outcome State Fault Refusal :=
  s.plain (s.ctx s.me).issue [a, b] fun x =>
    (x.stage (Fin.ofNat 32 (3 + 2 * n.val)) (x.getX a)).stage (Fin.ofNat 32 (4 + 2 * n.val)) (x.getX b)

def execTclr (s : State) : Host.Outcome State Fault Refusal :=
  s.plain (s.ctx s.me).issue [] fun x => { x with staging := Vector.replicate 32 0 }

/-! ### Synchronous reads -/

/-- The outcome of a read that an instruction makes before it goes on: the bytes, a stall on the context's own queued
stores, a park, or a precise trap. -/
inductive Sync where
  | ok (l : List Byte)
  | stall
  | park
  | trap (cause : BitVec 8)
  deriving DecidableEq, Repr

/-- A read that an instruction makes at once waits for what precedes it in program order on its side: the stores of its
context to those bytes (R122), an AMOI that is queued, an outstanding load or atomic whose value is not fixed (R310), and
the fence after an earlier atomic (R135, R319). -/
def State.readHeld (s : State) (u : CtxRef) (va : Word) (n : Nat) : Bool :=
  !(s.overlaps u va n (s.ctx u).stores).isEmpty || s.fenced u || s.amoiQueued u (s.side va)
    || s.heldByLoad u (s.side va) (s.ctx u).stores.length

/-- A read of `n` bytes, at most a line's rest, with the checks of Table 4.5 and faults precise (R157, R158, R177). -/
def State.syncRead (s : State) (u : CtxRef) (va : Word) (n : Nat) : State × Sync :=
  match s.accessFault u .any va n false with
  | some c => (s, .trap c)
  | none =>
    if s.readHeld u va n then (s, .stall)
    else
      let r := s.readVa (s.docentAgent u (.retry u)) va n
      (r.1, match r.2 with
        | .ok l => .ok l
        | .wait => .park
        | .access => .trap 0x05
        | .data => .trap 0x0B)

/-- The outcome of reading several words: them, or the first that fails with its address. -/
inductive Words where
  | ok (l : List Word)
  | stall
  | park
  | trap (cause : BitVec 8) (va : Word)
  deriving DecidableEq, Repr

/-- `n` consecutive words. -/
def State.syncWords (s : State) (u : CtxRef) (va : Word) : Nat → State × Words
  | 0 => (s, .ok [])
  | n + 1 =>
    let a := s.syncRead u va 8
    match a.2 with
    | .ok l =>
      let b := State.syncWords a.1 u (va + 8) n
      (b.1, match b.2 with
        | .ok r => .ok (wordOf l :: r)
        | .stall => .stall
        | .park => .park
        | .trap c v => .trap c v)
    | .stall => (a.1, .stall)
    | .park => (a.1, .park)
    | .trap c => (a.1, .trap c va)

/-! ### Posting (R155, R157, R159) -/

/-- The word POST returns for an entered task (R155). -/
def handleWord (e : Entry) (h : Handle) : Word := BitVec.ofNat 64 (2 ^ 32 + 256 * e.gen.toNat + h.val)

/-- The image of a join task (R159). -/
def joinImage (mask : BitVec 5) : Vector Word 32 :=
  Vector.ofFn fun w : Fin 32 => if w.val = 0 then 5 else if w.val = 19 then mask.zeroExtend 64 else 0

/-- A context parks until an entry or annex room is free, in order of first attempt (R287, R289). -/
def State.parkPost (s : State) (u : CtxRef) (op : PostOp) (grant : Bool) : State :=
  let k := s.core u.core
  let cramped := if grant then k.entries.toList.any fun e => e.state == .free else s.entriesLeft u.core != 0
  let s := if k.posters.contains u.ctx then s else s.setCtx u { s.ctx u with postAt := s.now }
  let s := s.setCore u.core { s.core u.core with
    posters := if k.posters.contains u.ctx then k.posters else k.posters ++ [u.ctx]
    cramped := if cramped then u.ctx :: k.cramped else k.cramped.filter fun c => c != u.ctx }
  s.parkCtx u (.post op)

/-- An instruction of a context completes: it goes on, and becomes READY if it was parked. -/
def State.proceed (s : State) (u : CtxRef) (next : Word) : State :=
  let s := s.setCtx u { s.ctx u with pc := next }
  if (s.ctx u).state = .parked then s.ready u else s

/-- The instruction that a posting operation stands for. -/
def PostOp.instr : PostOp → Instr
  | .post d => .post d
  | .join m => .join m
  | .list d a b => .postl d a b

/-- What a posting's outcome does to the context (R155): `none` is an entered task. -/
def State.posted (s : State) (u : CtxRef) (op : PostOp) (grant : Bool) (p : Posting) : Option State :=
  let pc := (s.ctx u).pc
  match p with
  | .closed => let d := s.draw; some (d.1.takeTrap u 0x0D d.2 pc)
  | .badKind => some (s.takeTrap u 0x02 (wordEval op.instr) pc)
  | .full => some (s.parkPost u op grant)
  | .wait => some (s.parkCtx u .load)
  | .entered _ => none

/-- One entry of a POSTL (R98, R157) is posted; between two entries the context stands at the POSTL, where a turn or a
save may end. -/
def State.postList (s : State) (u : CtxRef) (d a b : XReg) (grant : Bool) : State :=
  let ends (s : State) : State := (s.setCtx u { s.ctx u with posting := false }).proceed u ((s.ctx u).pc + 4)
  let x := s.ctx u
  let va := x.getX a
  if x.getX b = 0 then ends s
  else
    let hd := s.syncRead u va 8
    match hd.2 with
    | .stall => hd.1
    | .park => hd.1.parkCtx u .load
    | .trap c => hd.1.takeTrap u c va x.pc
    | .ok l =>
      let head := (wordOf l).toNat
      if head / 2 ^ 32 ≠ 0 then hd.1.takeTrap u 0x02 va x.pc
      else
        let ws := setBits 32 head
        let r := hd.1.syncWords u (va + 8) ws.length
        match r.2 with
        | .stall => r.1
        | .park => r.1.parkCtx u .load
        | .trap c v => r.1.takeTrap u c v x.pc
        | .ok vs =>
          let x := r.1.ctx u
          let s := r.1.setCtx u ((ws.zip vs).foldl (fun x p => x.stage (Fin.ofNat 32 p.1) p.2) x)
          let e := s.enterTask u.core (s.ctx u).staging [] grant (.retry u)
          match e.2 with
          | .entered h =>
            let x := (e.1.ctx u).setX d (handleWord (e.1.entry u.core h) h)
            let x := x.setX a (va + BitVec.ofNat 64 (8 * (1 + ws.length)))
            let s := e.1.setCtx u { x.setX b (x.getX b - 1) with posting := true }
            if (s.ctx u).getX b = 0 then ends s else s.proceed u (s.ctx u).pc
          | p => (e.1.posted u (.list d a b) grant p).getD e.1

/-- A posting operation of a context runs (R155, R157, R159). -/
def State.runPost (s : State) (u : CtxRef) (op : PostOp) (grant : Bool) : State :=
  match op with
  | .post d =>
    let e := s.enterTask u.core (s.ctx u).staging [] grant (.retry u)
    match e.2 with
    | .entered h =>
      let x := e.1.ctx u
      (e.1.setCtx u { x.setX d (handleWord (e.1.entry u.core h) h) with posting := false }).proceed u (x.pc + 4)
    | p => (e.1.posted u op grant p).getD e.1
  | .join m =>
    let e := s.enterTask u.core (joinImage m) [] grant (.retry u)
    match e.2 with
    | .entered _ => (e.1.setCtx u { e.1.ctx u with posting := false }).proceed u ((e.1.ctx u).pc + 4)
    | p => (e.1.posted u op grant p).getD e.1
  | .list d a b => s.postList u d a b grant

def execPost (d : XReg) (s : State) : Host.Outcome State Fault Refusal :=
  if (s.ctx s.me).stalls [d] false then .next s else .next (s.runPost s.me (.post d) false)

/-- TRYPOST (R155): Xd := 0 where POST would park for an entry or for shadow room. -/
def execTrypost (d : XReg) (s : State) : Host.Outcome State Fault Refusal :=
  let u := s.me
  let x := s.ctx u
  if x.stalls [d] false then .next s
  else
    let e := s.enterTask u.core x.staging [] false (.retry u)
    match e.2 with
    | .entered h => .next (e.1.retire x.issue fun x => x.setX d (handleWord (e.1.entry u.core h) h))
    | .full => .next (e.1.retire x.issue fun x => x.setX d 0)
    | .closed => .next (e.1.trapFree x.issue 0x0D)
    | .badKind => .next (e.1.trap x.issue 0x02 (wordEval (.trypost d)))
    | .wait => .next (e.1.parkCtx u .load)

/-- POSTL (R157): Xd := 0 as it begins. -/
def execPostl (d a b : XReg) (s : State) : Host.Outcome State Fault Refusal :=
  let u := s.me
  let x := s.ctx u
  if x.stalls [d, a, b] false then .next s
  else if d ≠ 0 ∧ (d = a ∨ d = b) then .next (s.trap x.issue 0x02 (wordEval (.postl d a b)))
  else if (x.getX a).toNat % 8 ≠ 0 then .next (s.trap x.issue 0x04 (x.getX a))
  else .next ((if x.posting then s else s.setCtx u (x.setX d 0)).runPost u (.list d a b) false)

/-- JOIN (R159). -/
def execJoin (mask : BitVec 5) (s : State) : Host.Outcome State Fault Refusal :=
  if mask = 0 then .next (s.trap (s.ctx s.me).issue 0x02 (wordEval (.join mask)))
  else .next (s.runPost s.me (.join mask) false)

/-- A context that no longer waits to post leaves the list of those that do. -/
def State.leavePosters (s : State) (u : CtxRef) : State :=
  match (s.ctx u).park with
  | .post _ => s
  | _ => s.setCore u.core { s.core u.core with posters := (s.core u.core).posters.filter fun k => k != u.ctx }

/-- Waiting posts of a core take what was freed in order of first attempt (R287): one that lacks shadow room is passed
over (R289), an older held packet goes first, and the rest wait when no entry is left. -/
def State.resumePosts (s : State) (c : CoreId) : List CtxId → State
  | [] =>
    if s.heldPackets.any (s.wantsEntry c) then s.once (.event (.heldPacketAccept c) .none) else s
  | k :: r =>
    let u : CtxRef := ⟨c, k⟩
    match (s.ctx u).park with
    | .post op =>
      if s.heldPackets.any fun h => s.wantsEntry c h && decide (h.at_ < (s.ctx u).postAt) then
        s.once (.event (.heldPacketAccept c) .none)
      else
        let t := (s.runPost u op true).leavePosters u
        if (t.core c).waitingPosts.contains k then t else State.resumePosts t c r
    | _ => State.resumePosts (s.leavePosters u) c r

/-- PARKED_POST_RESUME (R287). -/
def execParkedPostResume (core : CoreId) (s : State) : Host.Outcome State Fault Refusal :=
  .next (s.resumePosts core (s.core core).posters)

/-! ### POSTR (R158) -/

/-- Fields of Xb that POSTR does not use (Table 3.15). -/
def postrBad (w : Nat) : Bool := bits w 18 26 != 0 || bits w 48 16 != 0

/-- POSTR: the packet is read, sent, and its reply is outstanding like a load. -/
def execPostr (d a b : XReg) (s : State) : Host.Outcome State Fault Refusal :=
  let u := s.me
  let x := s.ctx u
  let va := x.getX a
  let t := (x.getX b).toNat
  if x.stalls [d, a, b] true || x.fenced then .next s
  else if postrBad t then .next (s.trap x.issue 0x02 (wordEval (.postr d a b)))
  else match s.accessFault u .any va 16 false with
  | some c => .next (s.trap x.issue c va)
  | none =>
    let hd := s.syncRead u va 8
    match hd.2 with
    | .stall => .next hd.1
    | .park => .next (hd.1.parkCtx u .load)
    | .trap c => .next (hd.1.trap x.issue c va)
    | .ok l =>
      let head := wordOf l
      let r := hd.1.syncWords u (va + 8) (2 * bits head.toNat 8 5 - 1)
      match r.2 with
      | .stall => .next r.1
      | .park => .next (r.1.parkCtx u .load)
      | .trap c v => .next (r.1.trap x.issue c v)
      | .ok ws =>
        let s := r.1
        let x := s.ctx u
        let dev := BitVec.ofNat 10 (bits t 0 10)
        let k : Packet :=
          { srcDev := s.devId, srcPart := s.partOf u.core
            sender := if dev = s.devId then some (u, x.seq) else none
            host := false, part := Fin.ofNat 16 (bits t 44 4)
            core := if bits t 12 6 ≤ 39 then 40 * bits t 10 2 + bits t 12 6 else 255
            words := head :: ws, seq := s.reqSeq, clock := s.clock (dieOf u.core), plane := none }
        let p : PendingLoad := ⟨d, va, .d, true, .postr, x.seq, x.level, .core, 0, true⟩
        let s := s.setCtx u { x with load := some p, seq := x.seq + 1, pc := x.pc + 4 }
        if dev = s.devId then
          .next (s.eventWith (if head.toNat % 256 = 2 then .signalPacket else .postPacket) (.packet k))
        else match s.planeFor dev (docentStart dev u) with
          | none => .next (s.event (.postrReply u p.seq 3))
          | some pl =>
            let v := (s.wrote u dev).draw
            let s := v.1.request dev pl (.postr u p.seq) fun q => .packet dev pl q k.padded
            .next (s.event (.postrReply u p.seq (BitVec.ofNat 3 (v.2.toNat % 5))))

/-- POSTR_REPLY (R158): the reply is written as an outstanding load's value is (R121). -/
def execPostrReply (u : CtxRef) (seq : Nat) (reply : BitVec 3) (s : State) : Host.Outcome State Fault Refusal :=
  let x := s.ctx u
  match x.load with
  | some l =>
    if l.seq = seq ∧ l.op = .postr then
      let s := { s with requests := s.requests.filter fun r => r.who != Waiter.postr u seq }
      .next (s.setCtx u { x.setX l.dest (reply.zeroExtend 64) with load := none })
    else .next s
  | none => .next s

/-! ### Guards (R160, R292, R293) -/

/-- GNEW. -/
def execGnew (d : XReg) (s : State) : Host.Outcome State Fault Refusal :=
  let k := s.core s.focus
  let x := s.ctx s.me
  if x.stalls [d] false then .next s
  else match firstFin fun g : GuardNum => vget k.guards g == .free with
    | some g =>
      .next ((s.setCore s.focus { k with guards := vset k.guards g .opened }).retire x.issue
        fun x => x.setX d (BitVec.ofNat 64 g.val))
    | none => .next (s.retire x.issue fun x => x.setX d (BitVec.allOnes 64))

/-- A handle placed in a list that rises by age. -/
def Core.insertByAge (k : Core) (h : Handle) : List Handle → List Handle
  | [] => [h]
  | a :: r => if (vget k.entries h).age < (vget k.entries a).age then h :: a :: r else a :: k.insertByAge h r

/-- In-flight tasks of a guard, in catalogue order (R271). -/
def Core.tasksOf (k : Core) (g : GuardNum) : List Handle :=
  (k.handles fun e => e.inFlight && e.speculative && e.guard == g).foldl (fun l h => k.insertByAge h l) []

/-- A guard commits (R292): its tasks are provisional no more. -/
def State.commit (s : State) (c : CoreId) (g : GuardNum) : State :=
  let k := s.core c
  let s := s.setCore c { k with guards := vset k.guards g .committing }
  let s := (k.tasksOf g).foldl (fun s h => s.setEntry c h { s.entry c h with committed := true }) s
  let held := (k.tasksOf g).filter fun h => (vget k.entries h).state == .held
  let s := held.foldl (fun s h => s.finish c h (s.entry c h).status) s
  let s := s.closeRenames c
  (s.setCore c (s.core c).freeGuards).pokeAll c

/-- An act that answers an aperture line of a core's copy record (R350). -/
def Act.answersCopy (a : Act) (c : CoreId) : Bool :=
  match a with
  | .event _ (.slot _ (.record k) _ _) => k == c
  | .event _ (.appraiser _ (.record k) _ _ _) => k == c
  | _ => false

/-- A task of a guard that squashes completes with status SQUASHED, its pins released (R300); a running one is stopped
(R293), but for a RELOC past its move point, which runs to its settle point (R338). -/
def State.squash (s : State) (c : CoreId) (h : Handle) : State :=
  let e := s.entry c h
  if e.state ≠ .running then
    if e.pins.isEmpty then s.finish c h 4
    else
      let s := s.leave fun w => match w with
        | .release d _ k => d == c && k == h
        | _ => false
      (s.setEntry c h { e with state := .running, squash := true }).complete c h
  else
    let s := s.setEntry c h { e with squash := true }
    if e.kind = 0 then
      if e.done then s else s.endTask ⟨c, e.ctx⟩ Causes.none
    else if e.kind = 4 ∧ (s.core c).copy.job = .task h ∧ (s.core c).copy.reloc ≠ .none then s
    else
      let s := if e.kind = 4 then { s with agenda := s.agenda.filter fun a => !a.answersCopy c } else s
      let s := s.unpark (.unit (e.unit c))
      (s.setCore c ((s.core c).idle e.kind h)).complete c h

/-- The shadows of a guard are discarded (R293). -/
def State.dropShadows (s : State) (c : CoreId) (g : GuardNum) : State :=
  (List.finRange 64).foldl (fun s i =>
    let r := vget (s.core c).renames i
    if r.state ≠ .free ∧ r.guard = some g then
      let s := if (s.core c).copy.job = .priming i then s.setCore c { s.core c with copy := Engine.reset } else s
      s.dropRename c i
    else s) s

/-- A guard is squashed (R293). -/
def State.squashGuard (s : State) (c : CoreId) (g : GuardNum) : State :=
  let k := s.core c
  let s := s.setCore c { k with guards := vset k.guards g .squashing }
  let s := (k.tasksOf g).foldl (fun s h => s.squash c h) s
  let s := s.dropShadows c g
  let s := s.setCore c (s.core c).freeGuards
  ((s.offer c).once (.event (.taskRelease c .copy) .none)).pokeAll c

/-- GOK: no effect unless the guard is OPEN. -/
def execGok (a : XReg) (s : State) : Host.Outcome State Fault Refusal :=
  let x := s.ctx s.me
  let g : GuardNum := Fin.ofNat 32 (x.getX a).toNat
  if x.stalls [a] false then .next s
  else
    let s := s.retire x.issue id
    .next (if vget (s.core s.focus).guards g = .opened then s.commit s.focus g else s)

/-- GNO: no effect unless the guard is OPEN. -/
def execGno (a : XReg) (s : State) : Host.Outcome State Fault Refusal :=
  let x := s.ctx s.me
  let g : GuardNum := Fin.ofNat 32 (x.getX a).toNat
  if x.stalls [a] false then .next s
  else
    let s := s.retire x.issue id
    .next (if vget (s.core s.focus).guards g = .opened then s.squashGuard s.focus g else s)

/-! ### Bound registers (R161) -/

def execSetb (n : BNum) (a : XReg) (s : State) : Host.Outcome State Fault Refusal :=
  let x := s.ctx s.me
  if x.stalls [a] false then .next s
  else
    let k := s.core s.focus
    .next ((s.setCore s.focus { k with bregs := vset k.bregs n ((x.getX a).truncate 32) }).retire x.issue id)

def execGetb (d : XReg) (n : BNum) (s : State) : Host.Outcome State Fault Refusal :=
  let v := vget (s.core s.focus).bregs n
  s.plain (s.ctx s.me).issue [d] fun x => x.setX d (v.zeroExtend 64)

end Sys2Proof.Machine
end

