-- ==== Sys2Proof/Machine/Counters.lean ====
section
/-! DEFINITION. Signal counters (R162-R164), group barriers and priority (R165-R167). -/

namespace Sys2Proof.Machine

/-! ### Signal counters (Table 5.3) -/

/-- ARMC. -/
def execArmc (n : CtrNum) (a : XReg) (s : State) : Host.Outcome State Fault Refusal :=
  let x := s.ctx s.me
  let v := (x.getX a).toNat
  let k := s.counter s.focus n
  if x.stalls [a] false then .next s
  else if v / 2 ^ 32 ≠ 0 ∨ v % 2 ^ 32 = 0 ∨ k.expect ≠ 0 then .next (s.trapFree x.issue 0x0E)
  else .next ((s.retire x.issue id).setCounter s.focus n (k.arm (BitVec.ofNat 32 v)))

/-- ARMC.init: one event that keeps PHASE. -/
def execArmcInit (n : CtrNum) (a : XReg) (s : State) : Host.Outcome State Fault Refusal :=
  let x := s.ctx s.me
  let v := (x.getX a).toNat
  let k := s.counter s.focus n
  if x.stalls [a] false then .next s
  else if v / 2 ^ 32 ≠ 0 then .next (s.trapFree x.issue 0x0E)
  else .next ((s.retire x.issue id).setCounter s.focus n
    { k with count := 0, expect := BitVec.ofNat 32 v, err := false, aband := false })

/-- ARRC. -/
def execArrc (n : CtrNum) (a : XReg) (s : State) : Host.Outcome State Fault Refusal :=
  let x := s.ctx s.me
  let v : BitVec 32 := (x.getX a).truncate 32
  if x.stalls [a] false then .next s
  else if v.signExtend 64 ≠ x.getX a then .next (s.trapFree x.issue 0x0E)
  else .next ((s.retire x.issue id).arrival s.focus n v.toInt false false)

/-- WAITC (R163): the context continues, or parks until PHASE is `p`. -/
def execWaitc (n : CtrNum) (p : Bool) (s : State) : Host.Outcome State Fault Refusal :=
  if (s.counter s.focus n).phase = p then .next (s.retire (s.ctx s.me).issue id)
  else .next (s.parkCtx s.me (.waitc n p))

/-- The READC result (Table 5.4). -/
def Counter.readc (k : Counter) : Word :=
  BitVec.ofNat 64 (k.count.toNat + 2 ^ 32 * k.phase.toNat + 2 ^ 33 * k.err.toNat + 2 ^ 34 * k.aband.toNat
    + 2 ^ 35 * (if k.expect = 0 then 0 else 1))

def execReadc (d : XReg) (n : CtrNum) (s : State) : Host.Outcome State Fault Refusal :=
  let k := s.counter s.focus n
  s.plain (s.ctx s.me).issue [d] fun x => x.setX d k.readc

/-! ### Groups (Table 5.5) -/

/-- A group's entry belongs to the partition of a core. -/
def State.owns (s : State) (c : CoreId) (g : GroupNum) : Bool := (s.group g).part.toNat == (s.partOf c).val

/-- The rank of a core in a group of its partition. -/
def State.rankOf (s : State) (c : CoreId) (g : GroupNum) : Option Nat :=
  if s.owns c g then (s.group g).rank (s.logical c) else none

def execGrank (d : XReg) (g : GroupNum) (s : State) : Host.Outcome State Fault Refusal :=
  let v : Word := match s.rankOf s.focus g with
    | some r => BitVec.ofNat 64 r
    | none => BitVec.allOnes 64
  s.plain (s.ctx s.me).issue [d] fun x => x.setX d v

def execGsize (d : XReg) (g : GroupNum) (s : State) : Host.Outcome State Fault Refusal :=
  let v : Word := if s.owns s.focus g then BitVec.ofNat 64 (s.group g).size else 0
  s.plain (s.ctx s.me).issue [d] fun x => x.setX d v

/-- PRIO. -/
def execPrio (c : BitVec 2) (s : State) : Host.Outcome State Fault Refusal :=
  .next (s.retire (s.ctx s.me).issue fun x => { x with pclass := c, pused := true })

/-- The member cores of a group. -/
def State.memberCores (s : State) (g : GroupNum) : List CoreId :=
  (setBits 160 (s.group g).members.toNat).filterMap (s.physical (Fin.ofNat 16 (s.group g).part.toNat))

/-- Contexts of a core parked in GBAR on a group, as first arrivals or again. -/
def State.inBarrier (s : State) (c : CoreId) (g : GroupNum) (again : Bool) : List CtxRef :=
  ((List.finRange 8).map fun k => (⟨c, k⟩ : CtxRef)).filter fun u =>
    (s.ctx u).state == .parked && (s.ctx u).park == .gbar g again

/-- A generation completes (R166): arrived bits clear, and the contexts parked on it go on. Happens-before edges run
from every arrival, with the clock that it carried when it was sent (R309, R316). -/
def State.generation (s : State) (g : GroupNum) : State :=
  let e := s.group g
  let s := s.setGroup g { e with gen := e.gen + 1, arrived := 0, state := .idle, clock := Vector.replicate 4 0 }
  ((s.memberCores g).foldl (fun s c =>
    let s := s.mergeClock (dieOf c) e.clock
    let s := s.setCore c { s.core c with arrived := (s.core c).arrived.filter fun x => x != g }
    let s := (s.inBarrier c g false).foldl (fun s u => (s.setCtx u { s.ctx u with pc := (s.ctx u).pc + 4 }).wakes u) s
    (s.inBarrier c g true).foldl State.wakes s) s).choose (s.memberCores g)

/-- GBAR (R166). A context of a core that has arrived waits for the generation, and then executes its GBAR again. -/
def execGbar (g : GroupNum) (s : State) : Host.Outcome State Fault Refusal :=
  let c := s.focus
  let u := s.me
  let x := s.ctx u
  let e := s.group g
  if s.rankOf c g = none then .next (s.trapFree x.issue 0x05)
  else if e.state = .broken then .next (s.trapFree x.issue 0x0C)
  else if (s.core c).arrived.contains g then .next (s.parkCtx u (.gbar g true))
  else
    let s := s.setCore c { s.core c with arrived := g :: (s.core c).arrived }
    let s := s.setGroup g { e with
      arrived := e.arrived + 1, state := .opened, clock := Clock.max e.clock (s.clock (dieOf c)) }
    if e.arrived.toNat + 1 = e.size then .next ((s.retire x.issue id).generation g)
    else .next (s.parkCtx u (.gbar g false))

/-- A group becomes BROKEN: every context parked on it traps (R166). -/
def State.breakGroup (s : State) (g : GroupNum) : State :=
  let s := s.setGroup g { s.group g with state := .broken }
  ((s.memberCores g).foldl (fun s c =>
    (s.inBarrier c g false ++ s.inBarrier c g true).foldl
      (fun s u => let d := s.draw; d.1.enterTrap u 0x0C d.2 (s.ctx u).pc) s) s).choose (s.memberCores g)

end Sys2Proof.Machine
end

