-- ==== Sys2Proof/Machine/Fetch.lean ====
section
/-! DEFINITION. The choice of the next step (log 1), and instruction fetch (R74). -/

namespace Sys2Proof

/-- Where a request of another device comes from, for the ordering of R346. -/
def Arg.source : Arg → Option FabricSrc
  | .read src _ _ => some src
  | .store src _ _ _ => some src
  | .atomic src _ _ _ _ _ => some src
  | .marker src _ => some src
  | .slot _ (.fabric src) _ _ => some src
  | .packet k => k.plane.map fun p => ⟨k.srcDev, k.srcPart, k.seq, p⟩
  | .qline l _ _ => l.plane.map fun p => ⟨l.sDev, l.sPart, l.seq, p⟩
  | _ => Option.none

/-- The same request, as it comes on another plane. -/
def Arg.onPlane (a : Arg) (p : Plane) : Arg :=
  match a with
  | .read src va n => .read { src with plane := p } va n
  | .store src va d t => .store { src with plane := p } va d t
  | .atomic src va op z v w => .atomic { src with plane := p } va op z v w
  | .marker src w => .marker { src with plane := p } w
  | .packet k => .packet { k with plane := some p }
  | a => a

/-- What keeps the order of its own events: a plane of another device (R346), or the sending end of a queue (R355). -/
def Arg.stream (a : Arg) : List Nat :=
  match a.source, a with
  | some src, _ => [0, src.dev.toNat, src.plane.val]
  | _, .qline l _ _ => [1, l.sDev.toNat, l.sPart.val, l.sCore, l.sQ.val]
  | _, _ => []

end Sys2Proof

namespace Sys2Proof.Machine

/-- The stream of an act; the empty list has no order. -/
def Act.stream : Act → List Nat
  | .event _ a => a.stream
  | .unit _ => []

/-- The step that goes next: the schedule's choice, or the oldest act of its stream; otherwise every 256th step is a tick of the timer wheel, then the
oldest due act, then the docent of the core in focus, then another core's docent, then a tick (log 1). -/
def State.pick (s : State) : State × Act :=
  let runs (c : CoreId) : Bool := (s.ctx ⟨c, (s.core c).cur⟩).state == .running
  let tick : Act := .event .timerWheelTick .none
  let byDefault (s : State) : State × Act :=
    if s.now % 256 = 255 then (s, tick)
    else match s.agenda with
      | a :: r => ({ s with agenda := r }, a)
      | [] =>
        if runs s.focus then (s, .unit (.docent s.focus))
        else match firstFin runs with
          | some c => (s, .unit (.docent c))
          | none => (s, tick)
  match s.schedule with
  | [] => byDefault s
  | 0 :: r => ({ s with schedule := r }, .unit (.docent s.focus))
  | (k + 1) :: r =>
    match s.agenda[k]? with
    | some a =>
      let j := if a.stream = [] then k else (s.agenda.findIdx? fun b => b.stream == a.stream).getD k
      ({ s with schedule := r, agenda := s.agenda.eraseIdx j }, s.agenda.getD j a)
    | none => byDefault { s with schedule := r }

/-- A failed fetch traps with EPC and EVAL at the fetched word (R74); at TVEC itself it ends the task (R385). -/
def State.fetchTraps (s : State) (u : CtxRef) (cause : BitVec 8) : State :=
  let x := s.ctx u
  if x.level = .s ∧ x.pc = x.tvec then s.leaveTask u (if cause = 0x0B then causeData else causeAccess)
  else s.enterTrap u cause x.pc x.pc

/-- A fetch fails alone, and the docent chooses a context where none runs. -/
def State.fetchFails (s : State) (u : CtxRef) (cause : BitVec 8) : State := (s.fetchTraps u cause).dispatch u.core

/-- The agent of an instruction fetch. -/
def State.fetchAgent (s : State) (u : CtxRef) : Agent := { s.docentAgent u (.retry u) with exec := true }

/-- The word at an address as an instruction fetch reads it, with the next word of its line in one indivisible read
(R74); the last word of a line has none. -/
def State.fetch (s : State) (u : CtxRef) (va : Word) : State × Got (Word32 × Word32) :=
  let r := s.readVa (s.fetchAgent u) va (if va.toNat % 64 = 60 then 4 else 8)
  match r.2 with
  | .ok l => (r.1, .ok (BitVec.ofNat 32 (ofBytes (l.take 4)), BitVec.ofNat 32 (ofBytes (l.drop 4))))
  | .wait => (r.1, .wait)
  | .access => (r.1, .access)
  | .data => (r.1, .data)

/-- The instruction that a docent issues; `none` when nothing issues or the fetch itself takes the step (R78). Nothing
issues before the fence after an earlier atomic is complete, as after FENCE itself (R135, R138). -/
def State.nextDocent (s : State) (c : CoreId) : State × Option Instr :=
  let s := { s with focus := c }
  let u := s.me
  if (s.ctx u).state ≠ .running then (s.select c, none)
  else
    let s := s.setCtx u { s.ctx u with ranAt := s.now }
    if s.fenced u then (s, none)
    else
      let r := s.fetch u (s.ctx u).pc
      match r.2 with
      | .ok w =>
        let s := { r.1 with second := w.2 }
        match decodeDocent w.1 with
        | .ok i => (s, some i)
        | .undefined => (s, some (.illegalInstruction w.1 false))
        | .reserved => (s, some (.illegalInstruction w.1 true))
      | .wait => (r.1.parkCtx u .load, none)
      | .access => (r.1.fetchFails u 0x05, none)
      | .data => (r.1.fetchFails u 0x0B, none)

/-- A step has passed: the count of steps, the core's cycles, and the cycles of its turn, whose first is the one after its
context was chosen (R14, R29; log 5). -/
def State.tally (s : State) (a : Act) : State :=
  let s := { s with now := s.now + 1 }
  match a with
  | .unit (.docent c) =>
    let k := s.core c
    let others := (List.finRange 8).any fun j => (vget k.ctxs j).state == .ready
    let turn : Nat := if others && k.chosen + 1 != s.now then k.turn + 1 else 0
    let s := s.setCore c { k with cycles := k.cycles + 1, turn := turn }
    if turn ≥ 256 then { s with agenda := .event (.turnExpiry c) .none :: s.agenda } else s
  | _ => s

end Sys2Proof.Machine
end

