-- ==== Sys2Proof/Machine/Functions.lean ====
section
/-! DEFINITION. The bounded functions (R194, R203-R208). The exact and special results are those of Table 6.7; every
other result is a free value held inside the bounds, which are formed from an approximation of the exact value in fixed
point, 2^k units to one; that of a monotone function is named by the arguments at which it rises (log 7). -/

namespace Sys2Proof.Machine

/-- Functions of Table 6.6. -/
inductive Fn where
  | rcp | rsq | exp | exp2 | log | log2 | sin | cos | tanh | sigm | erf
  deriving DecidableEq, Repr

/-- Opcode (Table 6.2, Table 6.5). -/
def Fn.op : Fn → Nat
  | .rcp => 0x0A
  | .rsq => 0x0B
  | .exp => 0x20
  | .exp2 => 0x21
  | .log => 0x22
  | .log2 => 0x23
  | .sin => 0x24
  | .cos => 0x25
  | .tanh => 0x26
  | .sigm => 0x27
  | .erf => 0x28

/-- Bound in half ulp (Table 6.6). -/
def Fn.bound (g : Fn) (f : Fl) : Nat :=
  let wide := f = .f64 ∨ f = .f32
  match g with
  | .sin => if wide then 3 else 2
  | .cos => if wide then 3 else 2
  | .tanh => if wide then 4 else 2
  | .sigm => if wide then 4 else 2
  | .erf => if wide then 4 else 2
  | _ => 2

/-- Odd and even functions (R208). -/
def Fn.odd (g : Fn) : Bool := g == .sin || g == .tanh || g == .erf

/-! ### Fixed point -/

/-- A product in fixed point, toward zero. -/
def fxMul (k : Nat) (a b : Int) : Int :=
  let p := (a.natAbs * b.natAbs) >>> k
  if (a < 0) = (b < 0) then p else -(p : Int)

/-- A quotient in fixed point, toward zero. -/
def fxDiv (k : Nat) (a b : Int) : Int :=
  let p := (a.natAbs <<< k) / b.natAbs
  if (a < 0) = (b < 0) then p else -(p : Int)

/-- A number divided by a natural one, toward zero. -/
def fxQuo (a : Int) (n : Nat) : Int := if a < 0 then -((a.natAbs / n : Nat) : Int) else (a.natAbs / n : Nat)

/-- Sum of `n` terms, each made from the one before. -/
def series (next : Nat → Int → Int) (add : Nat → Int → Int) : (n i : Nat) → Int → Int → Int
  | 0, _, _, acc => acc
  | n + 1, i, t, acc => series next add n (i + 1) (next i t) (acc + add i t)

/-- e^r for |r| below one. -/
def fxExp (k : Nat) (r : Int) : Int :=
  series (fun i t => fxQuo (fxMul k t r) (i + 1)) (fun _ t => t) 200 0 (2 ^ k) 0

/-- Sum of z^(2i + 1) / (2i + 1), alternating or not. -/
def fxOdd (k : Nat) (alt : Bool) (z : Int) : Int :=
  let q := fxMul k z z
  series (fun _ t => fxMul k t (if alt then -q else q)) (fun i t => fxQuo t (2 * i + 1)) 600 0 z 0

/-- ln 2. -/
def fxLn2 (k : Nat) : Int := 2 * fxOdd k false (2 ^ k / 3)

/-- π. -/
def fxPi (k : Nat) : Int := 16 * fxOdd k true (2 ^ k / 5) - 4 * fxOdd k true (2 ^ k / 239)

/-- sin r and cos r for |r| at most one. -/
def fxSin (k : Nat) (r : Int) : Int :=
  let q := fxMul k r r
  series (fun i t => fxQuo (fxMul k t (-q)) ((2 * i + 2) * (2 * i + 3))) (fun _ t => t) 150 0 r 0

def fxCos (k : Nat) (r : Int) : Int :=
  let q := fxMul k r r
  series (fun i t => fxQuo (fxMul k t (-q)) ((2 * i + 1) * (2 * i + 2))) (fun _ t => t) 150 0 (2 ^ k) 0

/-- m × 2^e in fixed point, toward zero. -/
def toFx (k : Nat) (neg : Bool) (m : Nat) (e : Int) : Int :=
  let v := if e + k ≥ 0 then m <<< (e + k).toNat else m >>> (-(e + k)).toNat
  if neg then -(v : Int) else v

/-- A fixed-point number as a value; its last place stands for what was cut off. -/
def ofFx (k : Nat) (v : Int) : Val := .fin (decide (v < 0)) (2 * v.natAbs + 1) (-(k : Int) - 1)

/-- e^a as a fixed-point mantissa and a power of two. -/
def expParts (k : Nat) (a : Int) : Int × Int :=
  let l := fxLn2 k
  let n := a / l
  (fxExp k (a - n * l), n)

/-- ln (m × 2^e) in fixed point, for m positive. -/
def fxLog (k m : Nat) (e : Int) : Int :=
  let b := Nat.log2 m
  let f : Int := toFx k false m (-(b : Int))
  let one : Int := 2 ^ k
  2 * fxOdd k false (fxDiv k (f - one) (f + one)) + (e + b) * fxLn2 k

/-! ### The exact value -/

/-- An approximation of g(a) for a finite non-zero argument whose result Table 6.7 does not list, within 2^-200 of its
own size. -/
def Fn.approx (g : Fn) (neg : Bool) (m : Nat) (e : Int) : Val :=
  let lead : Int := (Nat.log2 m : Nat) + e
  let k : Nat := 700 + 3 * (-lead).toNat
  let a := toFx k neg m e
  let one : Int := 2 ^ k
  match g with
  | .rcp => quotient (.fin false 1 0) (.fin neg m e)
  | .rsq =>
    let m' := if e % 2 = 0 then m else 2 * m
    let e' := if e % 2 = 0 then e else e - 1
    let p := 300 + Nat.log2 m
    .fin false (2 * isqrt (p + 1) (2 ^ (2 * p) / m') + 1) (-(e' / 2) - p - 1)
  | .exp =>
    if lead > 12 then .fin false 1 (if neg then -5000 else 5000)
    else let r := expParts k a; (ofFx k r.1).scale r.2
  | .exp2 =>
    if lead > 12 then .fin false 1 (if neg then -5000 else 5000)
    else (ofFx k (fxExp k (fxMul k (a - a / one * one) (fxLn2 k)))).scale (a / one)
  | .log => ofFx k (fxLog k m e)
  | .log2 => ofFx k (fxDiv k (fxLog k m e) (fxLn2 k))
  | .sin => trig k a 0
  | .cos => trig k a 1
  | .tanh =>
    if lead > 9 then ofFx k (if neg then 1 - one else one - 1)
    else
      let r := expParts k (2 * a.natAbs)
      let x : Int := (r.1.toNat <<< r.2.toNat : Nat)
      let v := fxDiv k (x - one) (x + one)
      ofFx k (if neg then -v else v)
  | .sigm =>
    if lead > 12 then if neg then .fin false 1 (-5000) else ofFx k (one - 1)
    else
      let r := expParts k (-(a.natAbs : Int))
      let x := r.1.toNat
      let d := 2 ^ k + x >>> (-r.2).toNat
      if neg then (ofFx k ((x <<< k) / d : Nat)).scale r.2
      else ofFx k (min (one - 1) ((2 ^ (2 * k) / d : Nat) : Int))
  | .erf =>
    if lead > 2 then ofFx k (if neg then 1 - one else one - 1)
    else
      let q := fxMul k a a
      let s := series (fun i t => fxQuo (fxMul k t (-q)) (i + 1)) (fun i t => fxQuo t (2 * i + 1)) 1500 0 a 0
      let root : Int := isqrt (k + 2) (fxPi k * one).toNat
      ofFx k (fxDiv k (2 * s) root)
where
  /-- sin (a + quarter × π/2). -/
  trig (k : Nat) (a : Int) (quarter : Nat) : Val :=
    let h := fxPi k / 2
    let n := (a + h / 2) / h
    let r := a - n * h
    match ((n + quarter) % 4).toNat with
    | 0 => ofFx k (fxSin k r)
    | 1 => ofFx k (fxCos k r)
    | 2 => ofFx k (-fxSin k r)
    | _ => ofFx k (-fxCos k r)

/-! ### Special and exact results (Table 6.7) -/

/-- 1 and 1/2. -/
def Val.one : Val := .fin false 1 0

def Val.half : Val := .fin false 1 (-1)

/-- The odd part of a number and its power of two. -/
def oddPart : Nat → Nat → Nat × Nat
  | 0, m => (m, 0)
  | n + 1, m => if m % 2 = 0 ∧ m ≠ 0 then let r := oddPart n (m / 2); (r.1, r.2 + 1) else (m, 0)

/-- Results of Table 6.7 for an argument that is no NaN; `none` where it lists none. -/
def Fn.special (g : Fn) (v : Val) : Option Valued :=
  let ok (x : Val) : Option Valued := some ⟨x, 0⟩
  match v with
  | .nan _ _ _ => none
  | .inf neg =>
    match g with
    | .rcp => ok (.fin neg 0 0)
    | .rsq => if neg then some generated else ok (.fin false 0 0)
    | .exp => ok (if neg then .fin false 0 0 else .inf false)
    | .exp2 => ok (if neg then .fin false 0 0 else .inf false)
    | .log => if neg then some generated else ok (.inf false)
    | .log2 => if neg then some generated else ok (.inf false)
    | .sin => some generated
    | .cos => some generated
    | .tanh => ok (.fin neg 1 0)
    | .sigm => ok (if neg then .fin false 0 0 else .one)
    | .erf => ok (.fin neg 1 0)
  | .fin neg m e =>
    if m = 0 then
      match g with
      | .rcp => some ⟨.inf neg, divZeroFlag⟩
      | .rsq => some ⟨.inf neg, divZeroFlag⟩
      | .exp => ok .one
      | .exp2 => ok .one
      | .log => some ⟨.inf true, divZeroFlag⟩
      | .log2 => some ⟨.inf true, divZeroFlag⟩
      | .sin => ok v
      | .cos => ok .one
      | .tanh => ok v
      | .sigm => ok .half
      | .erf => ok v
    else
      let o := oddPart (Nat.log2 m + 1) m
      let n : Int := e + o.2
      match g with
      | .rcp => if o.1 = 1 then ok (.fin neg 1 (-n)) else none
      | .rsq => if neg then some generated else if o.1 = 1 ∧ n % 2 = 0 then ok (.fin false 1 (-(n / 2))) else none
      | .exp2 =>
        if n ≥ 0 ∧ (Nat.log2 m : Nat) + e ≤ 12 then
          let a : Int := (o.1 <<< n.toNat : Nat)
          ok (.fin false 1 (if neg then -a else a))
        else none
      | .log => if neg then some generated else if o.1 = 1 ∧ n = 0 then ok (.fin false 0 0) else none
      | .log2 => if neg then some generated else if o.1 = 1 then ok (Val.ofInt n) else none
      | _ => none

/-! ### The result -/

/-- The mode that decides overflow and which results a bounded function may give (R205, R207): RSR acts as RNE. -/
def Fn.mode (rm : Rm) : Rm :=
  match rm with
  | .rtz => .rtz
  | .rup => .rup
  | .rdn => .rdn
  | .rno => .rno
  | _ => .rne

/-- Whether `r` is a permitted result of VSIN or VCOS for the exact value that `y` stands for (R203-R205, R208). -/
def Fn.permits (g : Fn) (f : Fl) (rm : Rm) (y r : Val) : Bool :=
  match y, r with
  | .fin ny my ey, .fin nr mr er =>
    let lead : Int := (Nat.log2 my : Nat) + ey
    let ulp : Int := max lead (1 - f.bias) - f.p
    -- all in units of 2^(u)
    let u := min (min ey er) (ulp - 1)
    let yi := Val.inUnits u y
    let ri := Val.inUnits u r
    let near := decide ((ri - yi).natAbs ≤ g.bound f * 2 ^ (ulp - 1 - u).toNat)
    let side := match rm with
      | .rup => decide (yi ≤ ri)
      | .rdn => decide (ri ≤ yi)
      | .rtz => decide (ri.natAbs ≤ yi.natAbs) && (mr == 0 || nr == ny)
      | _ => true
    near && side && decide (ri.natAbs ≤ 2 ^ (-u).toNat)
  | _, _ => false

/-- A result in [-1, 1] named by a free value: VSIN and VCOS beyond 2^20 (R204). -/
def unitCode (f : Fl) (raw : Nat) : Nat := f.signBit (raw % 2 == 1) + raw / 2 % (f.bias <<< f.p + 1)

/-- The place of a code in the order of a format's values; both zeros stand at 0. -/
def Fl.place (f : Fl) (code : Nat) : Int :=
  let n : Int := (code % 2 ^ (f.width - 1) : Nat)
  if code.testBit (f.width - 1) then -n else n

/-- The code at a place, zero with the sign given. -/
def Fl.atPlace (f : Fl) (zero : Bool) (i : Int) : Nat := f.signBit (if i = 0 then zero else decide (i < 0)) + i.natAbs

/-- Limits on a monotone function's result that lies between the exact results of Table 6.7 on either side of its argument
(R206, R208), in units of 2^u: those of VEXP2, VRCP and VRSQ are powers of two, which stand where both the argument and the
result are in the format's range; `lead` and `size` are the exponent and the magnitude of the exact value. -/
def Fn.between (g : Fn) (f : Fl) (neg : Bool) (lead u : Int) (size : Nat) (l : Int × Int) : Int × Int :=
  let pow (n : Int) : Int := 2 ^ (n - u).toNat
  let one := pow 0
  let within (lo hi : Int) : Int × Int := (max l.1 lo, min l.2 hi)
  let side (lo hi : Int) : Int × Int := if neg then within (-hi) (-lo) else within lo hi
  let least : Int := 1 - f.bias - f.p
  match g with
  | .exp => if lead < 0 then within 0 one else within one l.2
  | .exp2 => within (if least ≤ lead then pow lead else 0) (if least ≤ lead + 1 then pow (lead + 1) else l.2)
  | .rcp => side (if -(f.bias : Int) ≤ lead then pow lead else 0) (pow (lead + 1))
  | .rsq => within (if -(f.bias : Int) ≤ 2 * lead then pow lead else l.1) (pow (lead + 1))
  | .log => if neg then within l.1 0 else within 0 l.2
  | .log2 =>
    let n : Int := size / (2 ^ (-u).toNat : Nat)
    side (n * one) ((n + 1) * one)
  | .tanh => side 0 one
  | .erf => side 0 one
  | .sigm => if lead < -1 then within 0 (pow (-1)) else within (pow (-1)) one
  | .sin => l
  | .cos => l

/-- The least and greatest result of a monotone function for the exact value that `y` stands for, in units of 2^u (R203,
R205, R208). Where the bound narrows as y grows in value, a result must also lie within it for the values beyond. -/
def Fn.limits (g : Fn) (f : Fl) (rm : Rm) (y : Val) (u : Int) : Int × Int :=
  match y with
  | .fin neg m e =>
    let emin : Int := 1 - f.bias
    let lead : Int := (Nat.log2 m : Nat) + e
    let top := max lead emin
    let size : Int := (Val.inUnits u y).natAbs
    let step : Int := g.bound f * 2 ^ (top - f.p - 1 - u).toNat
    -- the end of the binade below, whose bound is half as wide
    let edge : Int := 2 ^ (top - u).toNat - g.bound f * 2 ^ (top - f.p - 2 - u).toNat
    let near := if emin < top then max (size - step) edge else size - step
    let far := size + step
    let lo := if neg then -far else near
    let hi := if neg then -near else far
    let yi := if neg then -size else size
    let lo := match rm with
      | .rup => max lo yi
      | .rtz => if neg then max lo yi else max lo 0
      | _ => lo
    let hi := match rm with
      | .rdn => min hi yi
      | .rtz => if neg then min hi 0 else min hi yi
      | _ => hi
    g.between f neg lead u size.toNat (lo, hi)
  | _ => (0, 0)

/-- The place reached among permitted ones in rising order, each left for the next while the argument lies above its
threshold. -/
def climb (up : Int → Bool) (start : Int) : List Int → Int
  | [] => start
  | i :: r => if up start then climb up i r else start

/-- The place of the result of a monotone function (R203-R205, R208), for an argument at place `arg`. -/
def Fn.rises (g : Fn) (f : Fl) (rm : Rm) (ty rmc : Nat) (y : Val) (arg : Int) : Int :=
  match y with
  | .fin _ m e =>
    let u := min e (max ((Nat.log2 m : Nat) + e) (1 - f.bias) - f.p - 2)
    let l := g.limits f rm y u
    let floor := f.place (f.round true .rdn 0 y).code
    let value (i : Int) : Int := Val.inUnits u (f.decode (f.atPlace false i))
    let ok (i : Int) : Bool := decide (i.natAbs ≤ f.maxCode) && decide (l.1 ≤ value i) && decide (value i ≤ l.2)
    let a := if g = .rcp ∨ g = .rsq then -arg else arg
    match ((List.range 10).map fun (j : Nat) => floor - 4 + j).filter ok with
    | [] => floor
    | i :: r => climb (fun c => decide (Config.vectorThreshold g.op ty rmc c ≤ a)) i r
  | _ => 0

/-- The result for a finite non-zero argument that Table 6.7 does not list (R203-R208). -/
def Fn.bounded (g : Fn) (f : Fl) (sat : Bool) (rm : Rm) (ty rmc : Nat) (neg : Bool) (m : Nat) (e : Int)
    (code : Nat) : Coded :=
  let wave := g == .sin || g == .cos
  let raw := Config.vectorFunction g.op ty rmc code
  if wave ∧ (Nat.log2 m : Nat) + e ≥ 20 ∧ ¬((Nat.log2 m : Nat) + e = 20 ∧ (oddPart (Nat.log2 m + 1) m).1 = 1)
  then ⟨unitCode f raw, inexactFlag⟩
  else
    let y := g.approx neg m e
    let k := f.round sat (Fn.mode rm) 0 y
    if k.flags &&& overflowFlag ≠ 0 then ⟨k.code, overflowFlag ||| inexactFlag⟩
    else
      let tiny := match y with
        | .fin _ my ey => decide ((Nat.log2 my : Nat) + ey < 1 - f.bias)
        | _ => false
      let flags := inexactFlag ||| (if tiny then underflowFlag else 0)
      if wave then
        let r := f.decode (raw % 2 ^ f.width)
        let zeroSign := match r with
          | .fin n z _ => z != 0 || n == y.neg
          | _ => true
        ⟨if g.permits f rm y r && zeroSign then raw % 2 ^ f.width else k.code, flags⟩
      else ⟨f.atPlace y.neg (g.rises f rm ty rmc y (f.place code)), flags⟩

/-- A bounded result on a value; an odd or even function outside the directed modes takes its result from the argument
without sign (R208). -/
def Fn.free (g : Fn) (f : Fl) (sat : Bool) (rm : Rm) (ty rmc code : Nat) (v : Val) : Coded :=
  match v with
  | .fin neg m e =>
    let symmetric := (g.odd || g == .cos) && rm != .rup && rm != .rdn
    if symmetric && neg then
      let k := g.bounded f sat rm ty rmc false m e (code % 2 ^ (f.width - 1))
      if g.odd then ⟨k.code ^^^ f.signBit true, k.flags⟩ else k
    else g.bounded f sat rm ty rmc neg m e code
  | _ => ⟨f.canon, 0⟩

/-- VRCP, VRSQ and the functions of Table 6.5 on one code. A listed result outside the format's range is not exact. -/
def Fn.apply (g : Fn) (f : Fl) (sat : Bool) (rm : Rm) (ty rmc code : Nat) : Coded :=
  let v := f.decode code
  match firstNan [v] with
  | some r => let k := f.round sat .rne 0 r.val; ⟨k.code, r.flags ||| k.flags⟩
  | none =>
    match g.special v with
    | some r =>
      let k := f.round sat (Fn.mode rm) 0 r.val
      if k.flags &&& inexactFlag ≠ 0 then g.free f sat rm ty rmc code v else ⟨k.code, r.flags ||| k.flags⟩
    | none => g.free f sat rm ty rmc code v

end Sys2Proof.Machine
end

