-- ==== Sys2Proof/Machine/Refs.lean ====
section
/-! DEFINITION. References (R167-R175): loads, stores and healing of reference words, object fields, pins. Every
instruction is synchronous and its traps are precise (R168); an access that waits parks the context, which executes the
instruction again. -/

namespace Sys2Proof.Machine

/-- A reference instruction waits for every earlier access of its context, and for what is still to be delivered of them,
as FENCE.core does (R138, R168): earlier accesses have been performed at core scope, the fence after an atomic is complete,
and no report of a fault is on its way. -/
def State.settled (s : State) (u : CtxRef) : Bool :=
  (s.ctx u).load.isNone && !s.storesLeft u .core && !(s.ctx u).trailing && !s.faultDue u

/-- What a step of a reference instruction answers: a value, a park, or a trap with EVAL, `none` where the manual names
none (log 6). -/
inductive Ref (α : Type) where
  | ok (a : α)
  | park
  | trap (cause : BitVec 8) (eval : Option Word)

/-- An access of the instruction itself; its faults carry the address (Table 4.5). -/
def Got.asAccess {α : Type} (va : Word) : Got α → Ref α
  | .ok a => .ok a
  | .wait => .park
  | .access => .trap 0x05 (some va)
  | .data => .trap 0x0B (some va)

/-- A lookup of Check or Present (R169, R337). -/
def Got.asLookup : Got (Resolved × Option Gallery) → Ref (Word × Option Gallery)
  | .ok (.ok w, g) => .ok (BitVec.ofNat 64 w, g)
  | .ok (.trap c, _) => .trap c none
  | .wait => .park
  | .access => .trap 0x05 none
  | .data => .trap 0x0B none

/-- The acting context's reference instruction goes on: it waits no more (R168). -/
def State.resumed (s : State) : State := s.setCtx s.me { s.ctx s.me with midRef := false }

/-- The outcome of a reference instruction: `f` is what it does with its value. A trap leaves the registers as they
were (R112). -/
def State.refStep {α : Type} (s : State) (i : Issue) (r : State × Ref α) (f : State → α → Host.Outcome State Fault Refusal) :
    Host.Outcome State Fault Refusal :=
  match r.2 with
  | .ok a => f r.1.resumed a
  | .park => .next ((r.1.setCtx s.me { r.1.ctx s.me with midRef := true }).parkCtx s.me .load)
  | .trap c e =>
    let t := r.1.setCtx s.me { s.ctx s.me with midRef := false }
    match e with
    | some v => .next (t.trap i c v)
    | none => .next (t.trapFree i c)

/-- The agent of the acting context, whose access is made again from the start. -/
def State.refAgent (s : State) : Agent := s.docentAgent s.me (.retry s.me)

/-- Check and Present of a value (R169). -/
def State.refPresent (s : State) (w : Word) : State × Ref (Word × Option Gallery) :=
  let r := s.present s.refAgent w.toNat
  (r.1, r.2.asLookup)

/-- An aligned word with its REFB bit, read at its home. -/
def State.readRef (s : State) (va : Word) : State × Got (Word × Bool) :=
  let r := s.readLineVa s.refAgent va
  let o := va.toNat % 64
  (r.1, match r.2 with
    | .ok (d, t) => .ok (wordOf (d.drop o), (tagRefb t).testBit (o / 8))
    | .wait => .wait
    | .access => .access
    | .data => .data)

/-- A write to another device whose answer is taken in the same step. -/
def State.writeThere (s : State) (ag : Agent) (dev : DevNum) (p : Plane) (va : Word) (d : List Byte) (tags : List Word) :
    State × Got Unit :=
  let e := (s.wroteBy ag dev).answerThere
  match e.2 with
  | .ok _ => ({ e.1 with out := e.1.out ++ [.write dev p e.1.reqSeq ag.part va d tags], reqSeq := e.1.reqSeq + 1 }, .ok ())
  | g => (e.1, g)

/-- A line with a word replaced, and its tag with the word's REFB bit set (R171). -/
def refLine (o : Nat) (v : Word) (d : List Byte) (t : Word) : List Byte × Word :=
  let l := d.take o ++ (bytesOf 8 v.toNat ++ d.drop (o + 8))
  (l, makeTag (tagFmt t) (tagScale t) (tagRefb t ||| 2 ^ (o / 8)) l)

/-- A word written as ST.d writes it or, with its REFB bit set, as a reference, at every copy of its location (R120,
R171): `true` while dies that miss have their part parked (R378). Another device takes a reference as a whole line with its tag, the only write that carries REFB bits (R348). -/
def State.writeRef (s : State) (va v : Word) (ref : Bool) : State × Got Bool :=
  let ag := s.refAgent
  let whole (r : State × Got Unit) (parts : Bool) : State × Got Bool := (r.1, match r.2 with
    | .ok _ => .ok parts
    | .wait => .wait
    | .access => .access
    | .data => .data)
  match s.target va with
  | .remote dev =>
    match s.planeFor dev (ag.start dev va) with
    | none => (s, .access)
    | some p =>
      if ref then
        let o := va.toNat % 64
        let r := s.readLineVa ag (va - BitVec.ofNat 64 o)
        match r.2 with
        | .ok (d, t) => whole (r.1.writeThere ag dev p (va - BitVec.ofNat 64 o) (refLine o v d t).1 [(refLine o v d t).2]) false
        | .wait => (r.1, .wait)
        | .access => (r.1, .access)
        | .data => (r.1, .data)
      else whole (s.writeThere ag dev p va (bytesOf 8 v.toNat) []) false
  | _ =>
    let a := s.locateAll ag va
    match a.2 with
    | .ok p => whole (a.1.storeSpread ag none va p (bytesOf 8 v.toNat) ref) (!p.2.isEmpty)
    | .wait => (a.1, .wait)
    | .access => (a.1, .access)
    | .data => (a.1, .data)

/-- Whether a word still equals what was read: in another device, whose memory is free (log 10), a free choice. -/
def State.unchanged (s : State) (va w : Word) (r : Word × Bool) : State × Bool :=
  match s.target va with
  | .remote _ => let d := s.draw; (d.1, d.2.getLsbD 0)
  | _ => (s, r.1 == w && r.2)

/-- The acting context's reference instruction has made its write, and `h` is the H register that it then writes: it ends
here, or once the copies of the dies that miss are written (R168, R378). -/
def State.refWritten (s : State) (i : Issue) (parts : Bool) (h : Option (HReg × Word)) : State :=
  if parts then (s.setCtx s.me { s.ctx s.me with midRef := true }).parkCtx s.me (.parts i.first i.next h)
  else s.retire i fun x => match h with
    | some p => x.setH p.1 p.2
    | none => x

/-- A word healed if it is unchanged (R170). -/
def State.heal (s : State) (va w v : Word) : State × Got Bool :=
  let r := s.readRef va
  match r.2 with
  | .ok x =>
    let c := r.1.unchanged va w x
    if c.2 then c.1.writeRef va v true else (c.1, .ok false)
  | .wait => (r.1, .wait)
  | .access => (r.1, .access)
  | .data => (r.1, .data)

/-- LDREF with its immediate extended (R170). -/
def State.loadRef (s : State) (i : Issue) (d : HReg) (a : XReg) (imm : Word) : Host.Outcome State Fault Refusal :=
  let x := s.ctx s.me
  let va := x.getX a + imm
  if !s.settled s.me then .next s
  else match s.accessFault s.me .any va 8 false with
    | some c => .next (s.trap i c va)
    | none =>
      let r := s.readRef va
      s.refStep i (r.1, r.2.asAccess va) fun s (w, b) =>
        if !b then .next (s.trapFree i 0x06)
        else s.refStep i (s.refPresent w) fun s (v, _) =>
          if v = w then .next (s.retire i fun x => x.setH d v)
          else
            let h := s.heal va w v
            s.refStep i (h.1, h.2.asAccess va) fun s parts => .next (s.refWritten i parts (some (d, v)))

def execLdref (d : HReg) (a : XReg) (imm : BitVec 16) (s : State) : Host.Outcome State Fault Refusal :=
  s.loadRef (s.ctx s.me).issue d a (signedImm imm)

/-- STREF with its immediate extended (R171). -/
def State.storeRef (s : State) (i : Issue) (a : XReg) (b : HReg) (imm : Word) : Host.Outcome State Fault Refusal :=
  let u := s.me
  let x := s.ctx u
  let va := x.getX a + imm
  let v := x.getH b
  if !s.settled u then .next s
  else match s.accessFault u .any va 8 false with
    | some c => .next (s.trap i c va)
    | none =>
      let w := s.writeRef va v true
      s.refStep i (w.1, w.2.asAccess va) fun s parts => .next (s.refWritten i parts none)

def execStref (a : XReg) (b : HReg) (imm : BitVec 16) (s : State) : Host.Outcome State Fault Refusal :=
  s.storeRef (s.ctx s.me).issue a b (signedImm imm)

/-! ### Object fields (R172) -/

/-- The present form of Ha and the address of its field at `imm`, checked against LEN. EVAL of its trap 0x04 names no
address in R172 and is a free value (DESIGN CHOICE, log 6). -/
def State.fieldOf (s : State) (a : HReg) (imm : Word) : State × Ref (Word × Word) :=
  let w := (s.ctx s.me).getH a
  if w = 0 then (s, .trap 0x07 none)
  else if imm.toNat % 8 ≠ 0 then (s, .trap 0x04 none)
  else
    let p := s.refPresent w
    match p.2 with
    | .ok (v, some g) =>
      let head := objectAddress g v.toNat
      let r := p.1.readVa p.1.refAgent head 8
      match r.2 with
      | .ok l =>
        let len := bits (wordOf l).toNat 0 36
        if imm.toInt < 0 ∨ imm.toInt + 8 > len then (r.1, .trap 0x08 none)
        else (r.1, .ok (v, head + 16 + imm))
      | .wait => (r.1, .park)
      | .access => (r.1, .trap 0x05 (some head))
      | .data => (r.1, .trap 0x0B (some head))
    | .ok (_, none) => (p.1, .trap 0x07 none)
    | .park => (p.1, .park)
    | .trap c e => (p.1, .trap c e)

/-- LDH with its immediate extended. -/
def State.loadField (s : State) (i : Issue) (d : XReg) (a : HReg) (imm : Word) : Host.Outcome State Fault Refusal :=
  if !s.settled s.me then .next s
  else s.refStep i (s.fieldOf a imm) fun s (v, va) =>
    let r := s.readVa s.refAgent va 8
    s.refStep i (r.1, r.2.asAccess va) fun s l =>
      .next (s.retire i fun x => (x.setH a v).setX d (wordOf l))

def execLdh (d : XReg) (a : HReg) (imm : BitVec 16) (s : State) : Host.Outcome State Fault Refusal :=
  s.loadField (s.ctx s.me).issue d a (signedImm imm)

/-- STH with its immediate extended: a store that meets MOVING waits and goes to the copy that Present then gives. -/
def State.storeField (s : State) (i : Issue) (a : HReg) (b : XReg) (imm : Word) : Host.Outcome State Fault Refusal :=
  let v := (s.ctx s.me).getX b
  if !s.settled s.me then .next s
  else s.refStep i (s.fieldOf a imm) fun s (w, va) =>
    let r := s.writeRef va v false
    s.refStep i (r.1, r.2.asAccess va) fun s parts => .next (s.refWritten i parts (some (a, w)))

def execSth (a : HReg) (b : XReg) (imm : BitVec 16) (s : State) : Host.Outcome State Fault Refusal :=
  s.storeField (s.ctx s.me).issue a b (signedImm imm)

/-! ### The reference group (Table 5.6) -/

/-- CASH once the word has been read (R174): compared in present form and swapped at the home, indivisibly. -/
def State.cashAt (s : State) (i : Issue) (d : HReg) (va hd hb : Word) : Host.Outcome State Fault Refusal :=
  let r := s.readRef va
  s.refStep i (r.1, r.2.asAccess va) fun s (w, bit) =>
    if !bit then .next (s.trapFree i 0x06)
    else s.refStep i (s.refPresent w) fun s (old, _) =>
      s.refStep i (s.refPresent hd) fun s (p, _) =>
        if old.toNat >>> 22 = p.toNat >>> 22 ∧ old.toNat % 2 ^ 22 = hd.toNat % 2 ^ 22 then
          let t := s.writeRef va hb true
          s.refStep i (t.1, t.2.asAccess va) fun s _ => .next (s.retire i fun x => x.setH d old)
        else .next (s.retire i fun x => x.setH d old)

/-- CASH (R174): a line under relocation holds it (R338); a replicated page refuses it (R326). -/
def execCash (d : HReg) (a : XReg) (b : HReg) (s : State) : Host.Outcome State Fault Refusal :=
  let x := s.ctx s.me
  let i := x.issue
  let va := x.getX a
  if !s.settled s.me then .next s
  else match s.accessFault s.me .any va 8 true with
    | some c => .next (s.trap i c va)
    | none =>
      match s.target va with
      | .remote _ => s.cashAt i d va (x.getH d) (x.getH b)
      | _ =>
        let l := s.locateWrite s.refAgent va .never
        s.refStep i (l.1, l.2.asAccess va) fun s keys =>
          let k := keys.headD 0
          if s.moving k then
            .next (((s.hold k s.refAgent.who).setCtx s.me { s.ctx s.me with midRef := true }).parkCtx s.me .load)
          else s.cashAt i d va (x.getH d) (x.getH b)

/-- REFEQ: both registers are healed in place. -/
def execRefeq (d : XReg) (a b : HReg) (s : State) : Host.Outcome State Fault Refusal :=
  let x := s.ctx s.me
  let i := x.issue
  if !s.settled s.me then .next s
  else s.refStep i (s.refPresent (x.getH a)) fun s (p, _) =>
    s.refStep i (s.refPresent (x.getH b)) fun s (q, _) =>
      .next (s.retire i fun x =>
        ((x.setH a p).setH b q).setX d (if p.toNat >>> 22 = q.toNat >>> 22 then 1 else 0))

/-- MKREF: no REFB bit is tested. -/
def execMkref (d : HReg) (a : XReg) (s : State) : Host.Outcome State Fault Refusal :=
  let x := s.ctx s.me
  let i := x.issue
  if !s.settled s.me then .next s
  else s.refStep i (s.refPresent (x.getX a)) fun s (p, _) => .next (s.retire i fun x => x.setH d p)

/-- PIN (R175): waits for MOVING to clear, and answers the body's address. -/
def execPin (d : XReg) (a : HReg) (s : State) : Host.Outcome State Fault Refusal :=
  let x := s.ctx s.me
  let i := x.issue
  if !s.settled s.me then .next s
  else if x.getH a = 0 then .next (s.trapFree i 0x07)
  else s.refStep i (s.refPresent (x.getH a)) fun s (p, g) =>
    match g with
    | none => .next (s.trapFree i 0x07)
    | some g =>
      let h := objectAddress g p.toNat
      let r := s.pinWord s.refAgent g p.toNat true
      s.refStep i (r.1, r.2.asAccess (h + 8)) fun s _ =>
        .next (s.retire i fun x => (x.setH a p).setX d (h + 16))

/-- UNPIN (R175). -/
def execUnpin (a : HReg) (s : State) : Host.Outcome State Fault Refusal :=
  let x := s.ctx s.me
  let i := x.issue
  if !s.settled s.me then .next s
  else if x.getH a = 0 then .next (s.trapFree i 0x07)
  else s.refStep i (s.refPresent (x.getH a)) fun s (p, g) =>
    match g with
    | none => .next (s.trapFree i 0x07)
    | some g =>
      let r := s.pinWord s.refAgent g p.toNat false
      s.refStep i (r.1, r.2.asAccess (objectAddress g p.toNat + 8)) fun s _ =>
        .next (s.retire i fun x => x.setH a p)

end Sys2Proof.Machine
end

