-- ==== Sys2Proof/Machine/Queues.lean ====
section
/-! DEFINITION. Link queues: QOPEN, QCLOSE and QSTAT (R176-R181), the lines that the two ends exchange, slots and
permits, and breaks (R354-R361). -/

namespace Sys2Proof.Machine

/-! ### The descriptor (Table 5.7) -/

def Queue.dev (q : Queue) : DevNum := BitVec.ofNat 10 (bits q.word0.toNat 0 10)
def Queue.rcore (q : Queue) : Nat := 40 * bits q.word0.toNat 10 2 + bits q.word0.toNat 12 6
def Queue.rq (q : Queue) : QNum := Fin.ofNat 16 (bits q.word0.toNat 18 4)
def Queue.rpart (q : Queue) : PartNum := Fin.ofNat 16 (bits q.word0.toNat 22 4)
def Queue.outbound (q : Queue) : Bool := q.word0.toNat.testBit 26
def Queue.nslot (q : Queue) : Nat := bits q.word0.toNat 27 4
def Queue.box (q : Queue) : Box := boxOf q.word1.toNat
def Queue.srows (q : Queue) : Nat := bits q.word1.toNat 52 12
def Queue.slotBytes (q : Queue) : Nat := q.srows * q.box.cols

/-- Key of byte `b` of slot `n` of a queue of a core (R254). -/
def Queue.slotKey (q : Queue) (c : CoreId) (n b : Nat) : Nat :=
  tileKey c (q.box.row + n * q.srows + b / q.box.cols) (q.box.col + b % q.box.cols)

/-- The checks 3 and 4 of R178 that need the descriptor and the annex alone. -/
def descriptorBad (annexRow : Nat) (w0 w1 : Word) : Bool :=
  let q : Queue := { Queue.reset with word0 := w0, word1 := w1 }
  let b := q.box
  bits w0.toNat 31 33 != 0 || bits w1.toNat 0 5 != 0 || decide (q.nslot < 2) || decide (8 < q.nslot)
    || decide (39 < bits w0.toNat 12 6) || q.srows == 0 || b.rows != q.nslot * q.srows || decide (b.cols < 64)
    || decide (65536 < q.slotBytes) || b.col % 64 != 0 || b.cols % 64 != 0
    || decide (annexRow < b.row + b.rows) || decide (2048 < b.col + b.cols)

/-! ### Lines between the ends (R355) -/

/-- Word 0 of a control line (Table 12.3). -/
def controlWord (kind slot size plane cause : Nat) : Word :=
  BitVec.ofNat 64 (kind + 16 * slot + 128 * size + 2 ^ 24 * plane + 2 ^ 28 * cause)

/-- The step that a line of a kind is at its receiver; `none` is a reserved kind. -/
def lineStep (kind : Nat) : Option Instr :=
  match kind with
  | 1 => some .queuePermit
  | 2 => some .queueFill
  | 3 => some .queueClose
  | 4 => some .queueBreak
  | 5 => some .queueSuspend
  | 6 => some .queueResume
  | _ => none

/-- A line leaves an end for an aperture: within the package as an event, or on a plane of the fabric. A line that
finds no plane is not sent (R361). -/
def State.sendLine (s : State) (c : CoreId) (q : QNum) (dev : DevNum) (part : PartNum) (core : Nat) (rq : QNum)
    (plane : Plane) (i : Instr) (word : Word) (data : List Byte) (tag : Word) (who : Waiter) : State :=
  let l : QLine :=
    { sDev := s.devId, sPart := s.partOf c, sCore := s.logical c, sQ := q, part := part, core := core, q := rq
      word := word, seq := s.reqSeq, clock := s.clock (dieOf c), plane := none }
  if dev = s.devId then s.eventWith i (.qline l data tag)
  else
    let m := s.planes dev
    let up := if m.getLsbD plane.val then some plane else if i = .queueBreak then (planeList m).head? else none
    match up with
    | none => s
    | some p => s.request dev p who fun n => .line dev p n l data tag

/-- A control line to the remote end that a queue is bound to. -/
def State.sendControl (s : State) (c : CoreId) (n : QNum) (i : Instr) (word : Word) : State :=
  let q := s.queue c n
  s.sendLine c n q.dev q.rpart q.rcore q.rq q.plane i word [] zeroTag (.queue c n)

/-! ### Breaks (R361) -/

/-- The 512-bit record of an engine task (R86-R88). -/
def Entry.recordBits (e : Entry) : Nat :=
  ([19, 20, 21, 22, 23, 24, 25, 26].zipIdx).foldl (fun a p => a + (e.word p.1).toNat * 2 ^ (64 * p.2)) 0

/-- A task names a queue in a region or in an operand (R179). -/
def Entry.namesQueue (e : Entry) (q : QNum) : Bool :=
  let r := e.recordBits
  let operand (lo : Nat) : Bool := bits r (lo + 109) 3 == 4 && bits r (lo + 64) 4 == q.val
  ((e.slotsOf 5).any fun n => bits (e.region n) 5 4 == q.val)
    || ((e.kind == 2 || e.kind == 4) && (operand 128 || operand 240 || operand 352))

/-- A task whose regions name a queue that is not OPEN meets QUEUE at its release (R181); the queue may have been opened
by a docent task that names it, which is not held to this (DEDUCED, log 58). -/
def State.queueGate (s : State) (c : CoreId) (e : Entry) : Causes :=
  Causes.when (e.kind != 0 && (e.slotsOf 5).any fun n =>
    (s.queue c (Fin.ofNat 16 (bits (e.region n) 5 4))).state != .opened) causeQueue

/-- Units of a core that wait try again. -/
def State.wakeUnits (s : State) (c : CoreId) : State :=
  let k := s.core c
  let s := if k.matrix.waiting then
    (s.setCore c { s.core c with matrix := { k.matrix with waiting := false } }).once (.unit (.matrix c)) else s
  if k.copy.waiting then
    (s.setCore c { s.core c with copy := { k.copy with waiting := false } }).once (.unit (.copy c)) else s

/-- A queue end breaks: its cause is recorded, and every task in flight that names it meets QUEUE (R181, R361). -/
def State.breakQueue (s : State) (c : CoreId) (n : QNum) (cause : Nat) : State :=
  let q := s.queue c n
  if q.state ≠ .opened then s
  else
    let s := s.setQueue c n { q with state := .broken, cause := BitVec.ofNat 4 cause }
    let s := ((s.core c).handles fun e => e.inFlight && !e.failed && e.namesQueue n).foldl
      (fun s h => s.cause c h causeQueue) s
    s.wakeUnits c

/-- A queue end that detects a break also sends BREAK to the other end. -/
def State.breakBoth (s : State) (c : CoreId) (n : QNum) (cause : Nat) : State :=
  (s.breakQueue c n cause).sendControl c n .queueBreak (controlWord 4 0 0 0 cause)

/-- BREAK to the sender of a line. -/
def State.breakSender (s : State) (c : CoreId) (l : QLine) (cause : Nat) : State :=
  s.sendLine c l.q l.sDev l.sPart l.sCore l.sQ (s.queue c l.q).plane .queueBreak (controlWord 4 0 0 0 cause) []
    zeroTag (.queue c l.q)

/-! ### QOPEN, QCLOSE, QSTAT -/

/-- The enabled configuration of the appraiser of a station names a queue (R368). -/
def State.scores (s : State) (t : Plane) (c : CoreId) (n : QNum) : Bool :=
  let w := (vget s.appraisers t).config.toNat
  w.testBit 0 && bits w 28 4 == n.val && bits w 32 8 == s.logical c && bits w 40 4 == (s.partOf c).val

/-- The station of an appraiser that names a queue as it is opened (R354); of several, the lowest (DESIGN CHOICE, log 83). -/
def State.scorer (s : State) (c : CoreId) (n : QNum) : Option Plane := firstFin fun t : Plane => s.scores t c n

/-- The plane of an inbound queue when it is opened (R354); within the device no mask limits it. -/
def State.queuePlane (s : State) (c : CoreId) (n : QNum) (dev : DevNum) : Option Plane :=
  let h := 16 * s.logical c + n.val
  match s.scorer c n with
  | some t => some t
  | none => if dev = s.devId then some (Fin.ofNat 16 h) else s.planeFor dev h

/-- A permit for a consumer slot leaves an inbound queue; its answer from another device is an event of its own. -/
def State.sendPermit (s : State) (c : CoreId) (n : QNum) (slot : Nat) : State :=
  let q := s.queue c n
  let t := s.sendControl c n .queuePermit (controlWord 1 slot q.slotBytes q.plane.val 0)
  if t.reqSeq = s.reqSeq then t else t.eventWith .queuePermit (.completion s.reqSeq 0)

/-- A permit of an inbound queue has passed to the other end (Table 5.8). -/
def State.permitPassed (s : State) (c : CoreId) (n : QNum) : State :=
  let q := s.queue c n
  if q.state = .opened ∧ !q.outbound then s.setQueue c n { q with bound := true } else s

/-- A permit from a queue of this device has passed. -/
def State.senderPassed (s : State) (l : QLine) : State :=
  if l.sDev = s.devId then
    match s.physical l.sPart l.sCore with
    | some c => s.permitPassed c l.sQ
    | none => s
  else s

/-- A permit joins an outbound queue's (R357), or breaks both ends over its size (R178). -/
def State.takePermitLine (s : State) (c : CoreId) (n : QNum) (w : Word) : State :=
  let q := s.queue c n
  if bits w.toNat 7 17 ≠ q.slotBytes then s.breakBoth c n 3
  else (s.setQueue c n { q with
    permits := q.permits ++ [Fin.ofNat 8 (bits w.toNat 4 3)]
    plane := Fin.ofNat 16 (bits w.toNat 24 4)
    bound := true }).wakeUnits c

/-- A queue is bound to a line's sender (R358). -/
def Queue.matchesLine (q : Queue) (l : QLine) : Bool :=
  q.dev == l.sDev && q.rcore == l.sCore && q.rq == l.sQ && q.rpart == l.sPart

/-- A queue that has passed QOPEN's checks is bound (R178, R358). An inbound queue whose remote device no plane reaches is
opened and breaks at once with cause 1: R178 gives no outcome (DESIGN CHOICE, log 76). -/
def State.bindQueue (s : State) (c : CoreId) (n : QNum) (w0 w1 : Word) : State :=
  let old := s.queue c n
  let q : Queue := { Queue.reset with state := .opened, word0 := w0, word1 := w1 }
  if q.outbound then
    let s := s.setQueue c n q
    old.held.foldl (fun s l =>
      if (s.queue c n).state = .opened ∧ q.matchesLine l then (s.takePermitLine c n l.word).senderPassed l
      else if q.matchesLine l then s
      else s.breakSender c l 2) s
  else match s.queuePlane c n q.dev with
    | none => (s.setQueue c n q).breakBoth c n 1
    | some p =>
      let s := s.setQueue c n { q with plane := p }
      let s := old.held.foldl (fun s l => s.breakSender c l 2) s
      (List.range q.nslot).foldl (fun s i => s.sendPermit c n i) s

/-- QOPEN (R177, R178). -/
def execQopen (n : QNum) (a : XReg) (s : State) : Host.Outcome State Fault Refusal :=
  let u := s.me
  let x := s.ctx u
  let i := x.issue
  let va := x.getX a
  let c := s.focus
  if x.stalls [a] false then .next s
  else match s.accessFault u .any va 16 false with
  | some k => .next (s.trap i k va)
  | none =>
    let r := s.syncWords u va 2
    match r.2 with
    | .stall => .next r.1
    | .park => .next (r.1.parkCtx u .load)
    | .trap k v => .next (r.1.trap i k v)
    | .ok ws =>
      let s := r.1
      let w0 := ws.getD 0 0
      let w1 := ws.getD 1 0
      let q := s.queue c n
      let meets (m : QNum) : Bool :=
        m != n && (s.queue c m).state != .closed && (s.queue c m).box.meets (boxOf w1.toNat)
      if q.state = .broken then .next (s.trapFree i 0x0F)
      else if q.state ≠ .closed ∨ descriptorBad (s.annexRow (s.partOf c)) w0 w1 ∨ (List.finRange 16).any meets then
        .next (s.trap i 0x02 (wordEval (.qopen n a)))
      else .next ((s.bindQueue c n w0 w1).retire i id)

/-- No task in flight but the one given names a queue (R179). -/
def State.queueQuiet (s : State) (c : CoreId) (n : QNum) (own : Handle) : Bool :=
  ((s.core c).handles fun e => e.inFlight && !e.failed && e.namesQueue n).all fun h => h == own

/-- An OPEN queue closes and tells its remote end (R179). -/
def State.closeQueue (s : State) (c : CoreId) (n : QNum) : State :=
  let s := s.sendControl c n .queueClose (controlWord 3 0 0 0 0)
  s.setQueue c n Queue.reset

/-- QCLOSE (R179). -/
def execQclose (n : QNum) (s : State) : Host.Outcome State Fault Refusal :=
  let u := s.me
  let x := s.ctx u
  match (s.queue s.focus n).state with
  | .closed => .next (s.retire x.issue id)
  | .broken => .next ((s.setQueue s.focus n Queue.reset).retire x.issue id)
  | .opened =>
    if s.queueQuiet s.focus n x.task then .next ((s.closeQueue s.focus n).retire x.issue id)
    else .next (s.once (.event (.qcloseCompletion u n) .none))

/-- QCLOSE_COMPLETION (R179): a context stalled in QCLOSE goes on once no other task names the queue. -/
def execQcloseCompletion (u : CtxRef) (q : QNum) (s : State) : Host.Outcome State Fault Refusal :=
  let x := s.ctx u
  let here := match (s.fetch u x.pc).2 with
    | .ok w => decodeDocent w.1 == .ok (.qclose q)
    | _ => false
  if here && (x.state == .running || x.state == .ready) && (s.queue u.core q).state == .opened
      && s.queueQuiet u.core q x.task then
    let s := s.closeQueue u.core q
    .next (s.setCtx u { s.ctx u with pc := x.pc + 4 })
  else .next s

def slotCode : Slot → Nat
  | .empty => 0
  | .filling => 1
  | .ready => 2
  | .draining => 3

/-- The QSTAT result (Table 5.8). -/
def Queue.qstat (q : Queue) : Word :=
  let slots := (List.range q.nslot).foldl (fun a i => a + slotCode (vget q.slots (Fin.ofNat 8 i)) * 2 ^ (8 + 2 * i)) 0
  let body (st : Nat) := st + 4 * q.outbound.toNat + 8 * q.nslot + 128 * q.bound.toNat + slots
    + 2 ^ 24 * (if q.outbound then q.permits.length else 0) + 2 ^ 28 * q.cause.toNat
  match q.state with
  | .closed => 0
  | .opened => BitVec.ofNat 64 (body 1)
  | .broken => BitVec.ofNat 64 (body 2)

/-- QSTAT (R180). -/
def execQstat (d : XReg) (n : QNum) (s : State) : Host.Outcome State Fault Refusal :=
  let v := (s.queue s.focus n).qstat
  s.plain (s.ctx s.me).issue [d] fun x => x.setX d v

/-! ### Slots and permits (R254, R356, R357) -/

/-- The oldest READY slot of an inbound queue becomes DRAINING. -/
def State.drainSlot (s : State) (c : CoreId) (n : QNum) : State × Option (Fin 8) :=
  let q := s.queue c n
  match q.order with
  | [] => (s, none)
  | i :: r => (s.setQueue c n { q with slots := vset q.slots i .draining, order := r }, some i)

/-- A consumer's slot becomes EMPTY and its permit returns, at once or after RESUME (R356, R360). -/
def State.emptySlot (s : State) (c : CoreId) (n : QNum) (i : Fin 8) : State :=
  let q := s.queue c n
  if q.state ≠ .opened then s
  else
    let s := s.setQueue c n { q with
      slots := vset q.slots i .empty
      permits := if q.suspended then q.permits ++ [i] else q.permits }
    if q.suspended then s else s.sendPermit c n i.val

/-- A producer takes the oldest permit and its lowest EMPTY slot, which becomes FILLING. -/
def State.fillSlot (s : State) (c : CoreId) (n : QNum) : State × Option (Fin 8) :=
  let q := s.queue c n
  match q.permits, firstFin fun i : Fin 8 => decide (i.val < q.nslot) && vget q.slots i == .empty with
  | p :: r, some i =>
    (s.setQueue c n { q with slots := vset q.slots i .filling, permits := r, fills := vset q.fills i (p, 0) }, some i)
  | _, _ => (s, none)

/-- A producing task has written a line of its slot. -/
def State.wroteSlot (s : State) (c : CoreId) (n : QNum) (i : Fin 8) (line : Nat) : State :=
  let q := s.queue c n
  let f := vget q.fills i
  s.setQueue c n { q with fills := vset q.fills i (f.1, max f.2 (line + 1)) }

/-- A producer's slot becomes READY and is sent by the tile-walk engine. -/
def State.readySlot (s : State) (c : CoreId) (n : QNum) (i : Fin 8) : State :=
  let q := s.queue c n
  if q.state ≠ .opened then s
  else
    (s.setQueue c n { q with slots := vset q.slots i .ready, order := q.order ++ [i] }).eventWith .tileWalkSend
      (.queue c n i)

/-- Line `j` of a fill leaves for the consumer slot `dest`; its answer from another device is an event of its own. -/
def State.sendFillLine (s : State) (c : CoreId) (n : QNum) (i : Fin 8) (dest size j : Nat) : State :=
  let q := s.queue c n
  let k := q.slotKey c i.val (64 * j) / 64
  let v := (s.verify k).1
  let t := v.sendLine c n q.dev q.rpart q.rcore q.rq q.plane .queueFillLine (controlWord 2 dest size 0 0) (v.lineData k)
    (v.tags.get k) (.fillLine c n i)
  if t.reqSeq = s.reqSeq then t else t.eventWith .tileWalkSlotAnswered (.completion s.reqSeq 0)

/-- TILE_WALK_SEND (R357): the oldest READY slot is sent as a FILL line and its lines. -/
def execTileWalkSend (s : State) : Host.Outcome State Fault Refusal :=
  match s.arg with
  | .queue c n _ =>
    let q := s.queue c n
    match q.order with
    | i :: r =>
      if q.state = .opened ∧ q.outbound ∧ !q.suspended then
        let f := vget q.fills i
        let s := s.setQueue c n { q with slots := vset q.slots i .draining, order := r }
        let s := s.sendControl c n .queueFill (controlWord 2 f.1.val f.2 0 0)
        let s := (List.range f.2).foldl (fun s j => s.sendFillLine c n i f.1.val f.2 j) s
        .next (if q.dev = s.devId then s.eventWith .tileWalkSlotAnswered (.queue c n i) else s)
      else .next s
    | [] => .next s
  | _ => .next s

/-- A line of a fill from a queue of this device is on its way. -/
def State.fillOnWay (s : State) (c : CoreId) (n : QNum) : Bool :=
  (s.agenda ++ s.heldLines).any fun a => match a with
    | .event .queueFillLine (.qline l _ _) =>
      l.sDev == s.devId && s.physical l.sPart l.sCore == some c && l.sQ == n
    | _ => false

/-- Every line of a producer's slot has been answered: the slot becomes EMPTY. -/
def State.slotAnswered (s : State) (c : CoreId) (n : QNum) (i : Fin 8) : State :=
  let q := s.queue c n
  if q.state = .opened ∧ vget q.slots i = .draining then
    (s.setQueue c n { q with slots := vset q.slots i .empty }).wakeUnits c
  else s

/-- TILE_WALK_SLOT_ANSWERED (R357): the answer of another device to a line, or, within this device, the end of a fill
whose lines have all been written. -/
def execTileWalkSlotAnswered (s : State) : Host.Outcome State Fault Refusal :=
  match s.arg with
  | .queue c n i =>
    if s.fillOnWay c n then .next (s.once (.event .tileWalkSlotAnswered (.queue c n i))) else .next (s.slotAnswered c n i)
  | .completion seq _ =>
    match s.requests.find? fun r => r.seq == seq with
    | some r =>
      match r.who with
      | .fillLine c n i =>
        let s := { s with requests := s.requests.erase r }
        .next (if s.requests.any fun r => r.who == Waiter.fillLine c n i then s else s.slotAnswered c n i)
      | _ => .next s
    | none => .next s
  | _ => .next s

/-! ### At the receiving station (R355, R356, R358) -/

/-- An answer that a device's sequence number has had (R347). -/
def State.answered (s : State) (dev : DevNum) (seq : BitVec 32) : Option Nat :=
  (s.applied.find? fun a => a.1 == dev && a.2.1 == seq).map (·.2.2)

/-- An answer recorded in a device's window of 4096 (R347). -/
def State.record4096 (s : State) (dev : DevNum) (seq : BitVec 32) (code : Nat) : State :=
  let mine := s.applied.filter fun a => a.1 == dev
  let old := mine.drop 4095
  { s with applied := (dev, seq, code) :: s.applied.filter fun a => !old.contains a }

/-- A reply leaves, and is recorded against repetition (R347): with its data as one number after the outcomes. -/
def State.reply (s : State) (src : FabricSrc) (ok : Bool) (code : Nat) (d : List Byte) (tags : List Word) : State :=
  let n := if ok ∧ !d.isEmpty then 8 + ofBytes (d ++ (tags.map fun t => bytesOf 8 t.toNat).flatten) else code
  { s.record4096 src.dev src.seq n with out := s.out ++ [.reply src ok code d tags] }

/-- A repeated request is answered again (R347): `n` bytes of data and `lines` tags. -/
def State.replyAgain (s : State) (src : FabricSrc) (code n lines : Nat) : State :=
  let r : Out := if code < 8 then .reply src (code == 0) code [] []
    else
      let l := bytesOf (n + 8 * lines) (code - 8)
      .reply src true 0 (l.take n) ((codesOf 8 lines (l.drop n)).map (BitVec.ofNat 64))
  { s with out := s.out ++ [r] }

/-- The agent of a request of another device (R375, R381, R440). R316 names no die on which such a write is issued: it acts
under the clock of D0 (DESIGN CHOICE, log 42). -/
def State.fabricAgent (s : State) (src : FabricSrc) (i : Instr) : Agent :=
  { part := src.part, die := 0, sdev := src.dev, slog := 0xFF, source := 2, sup := false, exec := false
    who := .fabric i s.arg }

/-- Another device's requester on the same plane (R346). -/
def Requester.sameSource (src : FabricSrc) (who : Requester) : Bool :=
  match who.whole with
  | .fabric _ a => match a.source with
    | some t => t.dev == src.dev && t.plane == src.plane
    | none => false
  | _ => false

/-- Whether an earlier request of a source on its plane waits (R346). -/
def State.sourceWaits (s : State) (src : FabricSrc) : Bool :=
  (s.parked.any fun a => a.who.sameSource src) || (s.heldMoving.any fun a => a.2.sameSource src)
    || s.behind.any fun a => a.who.sameSource src

/-- A requester is the request that another device has sent with this number. -/
def Requester.repeats (src : FabricSrc) (who : Requester) : Bool :=
  match who.whole with
  | .fabric _ a => match a.source with
    | some t => t.dev == src.dev && t.seq == src.seq
    | none => false
  | _ => false

/-- The same requester, its request come on another plane. -/
def Requester.onPlane (who : Requester) (p : Plane) : Requester :=
  match who with
  | .fabric i a => .fabric i (a.onPlane p)
  | .part w x => .part (w.onPlane p) x
  | w => w

/-- A request has come before and is not answered yet, since it waits (R347). -/
def State.waitsAlready (s : State) (src : FabricSrc) : Bool :=
  (s.parked.any fun a => a.who.repeats src) || (s.heldMoving.any fun a => a.2.repeats src)
    || s.behind.any fun a => a.who.repeats src

/-- A request that waits has come again on another plane: it is not applied again, and stands in that plane's order and is
answered on it (R346, R347). -/
def State.comesAgain (s : State) (src : FabricSrc) : State :=
  let moved (w : Requester) : Requester := if w.repeats src then w.onPlane src.plane else w
  { s with
    parked := s.parked.map fun (a : Parked) => { a with ag := { a.ag with who := moved a.who } }
    heldMoving := s.heldMoving.map fun a => (a.1, moved a.2)
    behind := s.behind.map fun (a : Behind) => { a with who := moved a.who } }

/-- A request that must wait for an earlier one of its source and plane. -/
def State.queueBehind (s : State) (i : Instr) (src : FabricSrc) : State :=
  { s with parked := s.parked ++ [⟨s.fabricAgent src i, false, 0, 0, 0, 0, none⟩] }

/-- Where a line of another device comes from. -/
def lineSource (l : QLine) : FabricSrc := ⟨l.sDev, l.sPart, l.seq, l.plane.getD 0⟩

/-- A line is refused: its sending end breaks with cause 2 (R355). -/
def State.refuseLine (s : State) (l : QLine) : State :=
  if l.sDev = s.devId then
    match s.physical l.sPart l.sCore with
    | some c => s.breakQueue c l.sQ 2
    | none => s
  else s.reply (lineSource l) false 1 [] []

/-- A line meets its receiving core: one for no core is refused (R355), and a reserved kind breaks the queue (Table
12.3). -/
def State.meet (s : State) (l : QLine) (f : State → CoreId → State) : State :=
  let p := (s.part l.part).state
  match s.physical l.part l.core with
  | none => s.refuseLine l
  | some c =>
    if p = .empty ∨ p = .resetting then s.refuseLine l
    else
      let s := s.mergeClock (dieOf c) l.clock
      let s := if (lineStep (bits l.word.toNat 0 4)).isNone then s.breakBoth c l.q 1 else f s c
      if l.sDev = s.devId then s else s.reply (lineSource l) true 0 [] []

/-- A line arrives: one of another device is applied once, in the order of its plane (R346, R347). -/
def State.receive (s : State) (i : Instr) (l : QLine) (f : State → CoreId → State) : State :=
  if l.sDev = s.devId then s.meet l f
  else match s.answered l.sDev l.seq with
    | some code => s.replyAgain (lineSource l) code 0 0
    | none => if s.sourceWaits (lineSource l) then s.queueBehind i (lineSource l) else s.meet l f

/-- What each line does with the state it finds; a step whose operands are not a line changes nothing. -/
def State.onLine (s : State) (i : Instr) (f : QLine → List Byte → Word → State → CoreId → State) :
    Host.Outcome State Fault Refusal :=
  match s.arg with
  | .qline l d t => .next (s.receive i l (f l d t))
  | _ => .next s

/-- A permit meets the queue of its target core (R358). -/
def State.permitArrives (s : State) (l : QLine) (c : CoreId) : State :=
  let q := s.queue c l.q
  match q.state with
  | .closed =>
    if q.held.length < 8 then s.setQueue c l.q { q with held := q.held ++ [l] } else s.breakSender c l 3
  | .opened =>
    if q.outbound && q.matchesLine l then (s.takePermitLine c l.q l.word).senderPassed l else s.breakSender c l 2
  | .broken => if q.outbound && q.matchesLine l then s else s.breakSender c l 2

/-- QUEUE_PERMIT (R358): a permit arrives, or another device answers one. -/
def execQueuePermit (s : State) : Host.Outcome State Fault Refusal :=
  match s.arg with
  | .completion seq _ =>
    match s.requests.find? fun r => r.seq == seq with
    | some r =>
      match r.who with
      | .queue c n => .next ({ s with requests := s.requests.erase r }.permitPassed c n)
      | _ => .next s
    | none => .next s
  | _ => s.onLine .queuePermit fun l _ _ s c => s.permitArrives l c

/-- What waited for the end of a scored fill takes effect in an appraiser that scores none (R368, R369). -/
def State.settleAppraiser (s : State) (t : Plane) : State :=
  let a := vget s.appraisers t
  let w := a.config.toNat
  let busy := w.testBit 0 && (match s.physical (Fin.ofNat 16 (bits w 40 4)) (bits w 32 8) with
    | some c => let q := s.queue c (Fin.ofNat 16 (bits w 28 4)); q.state == .opened && q.plane == t && (q.fill.isSome || q.routes != 0)
    | none => false)
  let next : Appraiser :=
    ⟨a.nextConfig.getD a.config, a.nextWeights.foldl (fun m p => m.write p.1 p.2) a.weights, none, []⟩
  if busy then s else { s with appraisers := vset s.appraisers t next }

/-- Route lines that a fill of a queue is to receive (R370): none when the appraiser of the station where it arrives, that
of the queue's plane, does not score it (R368). -/
def State.routeLines (s : State) (c : CoreId) (n : QNum) : Nat :=
  let t := (s.queue c n).plane
  let w := (vget s.appraisers t).config.toNat
  let rho := roundUp (2 * (bits w 1 13 + 1)) 64
  let tokens := bits w 44 12
  if s.scores t c n ∧ tokens * (rho + 64) ≤ (s.queue c n).slotBytes then tokens else 0

/-- The core and queue of a line, while the appraiser writes the route lines of that queue's last fill (R372). -/
def State.routing (s : State) (l : QLine) : Option CoreId :=
  match s.physical l.part l.core with
  | some c => if (s.queue c l.q).state = .opened ∧ (s.queue c l.q).routes ≠ 0 then some c else none
  | none => none

/-- An act that writes a route line of a queue. -/
def Act.routes (a : Act) (c : CoreId) (n : QNum) : Bool :=
  match a with
  | .event .routeLineWrite (.queue d m _) => d == c && m == n
  | _ => false

/-- A step goes back to the front of its stream, after the route lines of a queue. -/
def State.afterRoutes (s : State) (c : CoreId) (n : QNum) (a : Act) : State :=
  { s with agenda := s.agenda.filter (fun b => b.routes c n) ++ a :: s.agenda.filter fun b => !b.routes c n }

/-- A FILL line meets the queue of its target core (R356, R358). -/
def State.fillBegins (s : State) (l : QLine) (c : CoreId) : State :=
  let q := s.queue c l.q
  let i : Fin 8 := Fin.ofNat 8 (bits l.word.toNat 4 3)
  let size := bits l.word.toNat 7 17
  if q.state = .closed ∨ q.outbound ∨ !q.matchesLine l then s.breakSender c l 2
  else if q.state = .broken then s
  else if 64 * size > q.slotBytes then s.breakBoth c l.q 3
  else
    let s := (List.finRange 16).foldl State.settleAppraiser s
    s.setQueue c l.q { q with
      slots := vset q.slots i .filling, fill := some ⟨i, size, 0, s.routeLines c l.q⟩, bound := true }

/-- QUEUE_FILL (R356, R358): a fill begins once the route lines of the one before it are written (log 71). -/
def execQueueFill (s : State) : Host.Outcome State Fault Refusal :=
  match s.arg with
  | .qline l _ _ => match s.routing l with
    | some c => .next (s.afterRoutes c l.q (.event .queueFill s.arg))
    | none => s.onLine .queueFill fun l _ _ s c => s.fillBegins l c
  | _ => .next s

/-- The fill of a queue is complete: its slot becomes READY (R356). -/
def State.filled (s : State) (c : CoreId) (n : QNum) (i : Fin 8) : State :=
  let q := s.queue c n
  (s.setQueue c n { q with slots := vset q.slots i .ready, order := q.order ++ [i], fill := none, routes := 0 }).wakeUnits c

/-- QUEUE_FILL_LINE (R348, R356): a line is written into the consumer slot with its tag; the last makes the slot READY
unless an appraiser scores it. -/
def execQueueFillLine (s : State) : Host.Outcome State Fault Refusal :=
  s.onLine .queueFillLine fun l d t s c =>
    let q := s.queue c l.q
    match q.fill with
    | none => s
    | some f =>
      if q.state ≠ .opened ∨ !q.matchesLine l ∨ f.got ≥ f.size then s
      else
        let k := q.slotKey c f.slot.val (64 * f.got)
        let a := s.arrivingTag (k / 64) d t
        let s := a.1.storeLine k d a.2
        let f' := { f with got := f.got + 1 }
        let s := s.setQueue c l.q { q with fill := some f' }
        if f'.got < f.size then s
        else
          let n := f.routes
          if n = 0 then s.filled c l.q f.slot
          else
            let s := s.setQueue c l.q { s.queue c l.q with routes := n }
            s.due (List.replicate n (.event .routeLineWrite (.queue c l.q f.slot)))

/-- QUEUE_CLOSE (R179, R358). -/
def execQueueClose (s : State) : Host.Outcome State Fault Refusal :=
  s.onLine .queueClose fun l _ _ s c => if (s.queue c l.q).matchesLine l then s.breakQueue c l.q 2 else s

/-- QUEUE_BREAK (R358, R361). -/
def execQueueBreak (s : State) : Host.Outcome State Fault Refusal :=
  s.onLine .queueBreak fun l _ _ s c =>
    if (s.queue c l.q).matchesLine l then s.breakQueue c l.q (bits l.word.toNat 28 4) else s

/-- QUEUE_SUSPEND (R360). -/
def execQueueSuspend (s : State) : Host.Outcome State Fault Refusal :=
  s.onLine .queueSuspend fun l _ _ s c =>
    let q := s.queue c l.q
    if q.state = .opened ∧ q.matchesLine l then s.setQueue c l.q { q with suspended := true } else s

/-- QUEUE_RESUME (R360): fills and permits that waited go out. -/
def execQueueResume (s : State) : Host.Outcome State Fault Refusal :=
  s.onLine .queueResume fun l _ _ s c =>
    let q := s.queue c l.q
    if q.state = .opened ∧ q.matchesLine l then
      if q.outbound then
        q.order.foldl (fun s i => s.eventWith .tileWalkSend (.queue c l.q i))
          (s.setQueue c l.q { q with suspended := false })
      else
        q.permits.foldl (fun s i => s.sendPermit c l.q i.val)
          (s.setQueue c l.q { q with suspended := false, permits := [] })
    else s

end Sys2Proof.Machine
end

