-- ==== Sys2Proof/Machine/Reach.lean ====
section
/-! DEFINITION. Storage as vector and engine tasks reach it: declared regions (R94, R215, R244), lines read, and bytes
and lines written (R216, R259). -/

namespace Sys2Proof.Machine

/-! ### Declared regions -/

/-- Whether a nest of runs of `e0` bytes, with pairs of count and log2 of stride, covers byte `d` (R94). -/
def nestHas (e0 : Nat) : List (Nat × Nat) → Nat → Bool
  | [], d => decide (d < e0)
  | (n, l) :: r, d => (List.range n).any fun i =>
      decide (i * 2 ^ l ≤ d) && decide (d - i * 2 ^ l < e0 + (r.map fun p => (p.1 - 1) * 2 ^ p.2).sum)
        && nestHas e0 r (d - i * 2 ^ l)

/-- The pairs of a memory region, the last of Table 3.14 first. -/
def regionPairs (r : Nat) : List (Nat × Nat) :=
  [114, 100, 86].map fun lo => (bits r lo 8 + 1, bits r (lo + 8) 6)

/-- A memory region covers `n` bytes from an address (R94). -/
def memoryCovers (r va n : Nat) : Bool :=
  let base := bits r 5 58
  decide (base ≤ va) && (List.range n).all fun i => nestHas (bits r 63 23) (regionPairs r) (va - base + i)

/-- A commons region of a device covers `n` bytes from an address. -/
def commonsCovers (dev : DevNum) (r va n : Nat) : Bool :=
  let start := dev.toNat * 2 ^ 47 + bits r 5 2 * 2 ^ 45 + 0x1FFFFC000000 + bits r 7 26
  decide (start ≤ va) && decide (va + n ≤ start + bits r 33 27)

/-- A region gives the access kind. -/
def gives (write : Bool) (r : Nat) : Bool := if write then r.testBit 4 else r.testBit 3

/-- A memory or commons region of a task gives an access (check 3 of Table 7.3). -/
def Entry.covers (e : Entry) (dev : DevNum) (write : Bool) (va n : Nat) : Bool :=
  ((e.slotsOf 2).any fun k => gives write (e.region k) && memoryCovers (e.region k) va n)
    || ((e.slotsOf 3).any fun k => gives write (e.region k) && commonsCovers dev (e.region k) va n)

/-- A peer tile-store region of a task gives an access. RANK 255 covers the box on every member (R263), for the tasks
that `wide` admits; a vector task's region has the RANK itself (R215). -/
def Entry.peerHolds (e : Entry) (write wide : Bool) (group rank row col n : Nat) : Bool :=
  (e.slotsOf 1).any fun k =>
    let r := e.region k
    gives write r && bits r 61 8 == group && (bits r 53 8 == rank || (wide && bits r 53 8 == 255))
      && (boxOf r).holds row col n

/-! ### Locations -/

/-- A location of storage after the checks that need no walk: a byte of a core's tile store, or an address. -/
inductive Loc where
  | tile (core : CoreId) (row col : Nat)
  | va (a : Word)
  deriving DecidableEq, Repr

/-- Checks 1-3 of Table 7.3: refused, suppressed, or a location. -/
inductive Reach where
  | bad
  | suppressed
  | found (l : Loc)
  deriving DecidableEq, Repr

/-- `n` bytes of the task's own tile store; a redirected box is met in its shadow (R131). -/
def State.reachTile (s : State) (c : CoreId) (e : Entry) (write : Bool) (row col n : Nat) : Reach :=
  if row > 3071 ∨ col + n > 2048 ∨ row ≥ s.annexRow (s.partOf c) then .bad
  else match e.tileRow write row col n with
    | some r => .found (.tile c r col)
    | none => .suppressed

/-- `n` bytes of a peer's tile store. -/
def State.reachPeer (s : State) (c : CoreId) (e : Entry) (write wide : Bool) (group rank : Nat) (peer : CoreId)
    (row col n : Nat) : Reach :=
  if row > 3071 ∨ col + n > 2048 ∨ row ≥ s.annexRow (s.partOf c) then .bad
  else if e.peerHolds write wide group rank row col n then .found (.tile peer row col)
  else .suppressed

/-- `n` bytes at an address formed exactly. -/
def State.reachVa (s : State) (e : Entry) (write : Bool) (va : Int) (n : Nat) : Reach :=
  if va < 0 ∨ va ≥ 2 ^ 58 then .bad
  else if e.covers s.devId write va.toNat n then .found (.va (BitVec.ofInt 64 va))
  else .suppressed

/-- Start of a memory or commons slot (R212); `none` when the slot is of another class. -/
def State.slotStart (s : State) (e : Entry) (n : Fin 8) : Option Nat :=
  let r := e.region n
  if bits r 3 2 = 0 then none
  else if bits r 0 3 = 2 then some (bits r 5 58)
  else if bits r 0 3 = 3 then
    some (s.devId.toNat * 2 ^ 47 + bits r 5 2 * 2 ^ 45 + 0x1FFFFC000000 + bits r 7 26)
  else none

/-- The core of a rank of a group, when a peer access may name it: the group is the partition's and holds the issuing
core, and the member lies in its cluster (R214, R243). -/
def State.peerCore (s : State) (c : CoreId) (group rank : Nat) : Option CoreId :=
  let p := s.partOf c
  let g := s.group (Fin.ofNat 256 group)
  if g.part.toNat ≠ p.val ∨ (g.rank (s.logical c)).isNone then none
  else match (setBits 160 g.members.toNat)[rank]? with
    | none => none
    | some l => match s.physical p l with
      | some k => if k.val / 8 = c.val / 8 then some k else none
      | none => none

/-! ### Access -/

/-- The agent of a unit's task. -/
def State.taskAgent (s : State) (c : CoreId) (u : UnitId) : Agent :=
  { part := s.partOf c, die := dieOf c, sdev := s.devId, slog := s.logical c, source := 1, sup := false, exec := false
    who := .unit u }

/-- The core of a unit, and the task that the unit runs. -/
def State.unitTask (s : State) (u : UnitId) : Option (CoreId × Handle) :=
  let runs (c : CoreId) (x : Engine) : Option (CoreId × Handle) := match x.job with
    | .task h => some (c, h)
    | _ => none
  match u with
  | .vector c => (s.core c).vec.task.map fun h => (c, h)
  | .matrix c => runs c (s.core c).matrix
  | .transpose c => runs c (s.core c).transpose
  | .copy c => runs c (s.core c).copy
  | .docent _ => none
  | .cmdq _ => none

/-- The writes of a unit's task to other devices, oldest first (R217). -/
def State.ownWrites (s : State) (ag : Agent) : List (Word × List Byte × List Word) :=
  match ag.who with
  | .unit u => match s.unitTask u with
    | some (c, h) => (s.entry c h).sent
    | none => []
  | _ => []

/-- A line as another device holds it once writes have been applied there (R348). -/
def appliedTo (va : Nat) (l : List Byte × Word) (ws : List (Word × List Byte × List Word)) : List Byte × Word :=
  ws.foldl (fun l w =>
    let o : Int := (w.1.toNat : Int) - va
    if o < 0 ∨ 64 ≤ o then l
    else
      let i := o.toNat
      let d := l.1.take i ++ (w.2.1 ++ l.1.drop (i + w.2.1.length))
      match w.2.2 with
      | t :: _ => (d, t)
      | [] => (d, makeTag (tagFmt l.2) (tagScale l.2) (tagRefb l.2 &&& (255 ^^^ refMask i w.2.1.length)) d)) l

/-- The line that holds a location, with its tag, verified (R37); a failed core's tile store gives DATA (R388). A task
reads its own earlier writes to another device, answered or not (R217). -/
def State.readLoc (s : State) (ag : Agent) (l : Loc) : State × Got (List Byte × Word) :=
  match l with
  | .tile c row col => if (s.core c).failed then (s, .data) else s.readLineKey (tileKey c row (col / 64 * 64))
  | .va a =>
    let va := a &&& ~~~63#64
    let r := s.readLineVa ag va
    match s.target va, r.2 with
    | .remote _, .ok x => (r.1, .ok (appliedTo va.toNat x (s.ownWrites ag)))
    | _, g => (r.1, g)

/-- Column of a location within its line. -/
def Loc.inLine : Loc → Nat
  | .tile _ _ col => col % 64
  | .va a => a.toNat % 64

/-- The line of a location, as a location. -/
def Loc.line : Loc → Loc
  | .tile c row col => .tile c row (col / 64 * 64)
  | .va a => .va (a &&& ~~~63#64)

/-- Where a write goes, once it may be made: its copies, with the dies whose part is parked and its address, or another
device (R330, R346, R378). -/
inductive Aim where
  | keys (l : List Nat) (left : List DieNum) (va : Word)
  | remote (dev : DevNum) (p : Plane) (va : Word)
  deriving DecidableEq, Repr

/-- A located write: a line under relocation holds it (R338), and a line that it is merged into must verify. -/
def State.aimKeys (s : State) (ag : Agent) (ks : List Nat) (left : List DieNum) (va : Word) (merges : Bool) :
    State × Got Aim :=
  match ks.find? s.moving with
  | some k => (s.hold k ag.who, .wait)
  | none =>
    let v := if merges then s.verifyAll ks else (s, true)
    (v.1, if v.2 then .ok (.keys ks left va) else .data)

/-- A write is located (R376-R378). A write to a replicated page goes on when some of its dies miss, whose parts are
parked. -/
def State.aim (s : State) (ag : Agent) (l : Loc) (merges : Bool) : State × Got Aim :=
  match l with
  | .tile c row col => s.aimKeys ag [tileKey c row col] [] 0 merges
  | .va a =>
    match s.target a with
    | .remote dev =>
      match s.planeFor dev (ag.start dev a) with
      | some p => (s, .ok (.remote dev p a))
      | none => (s, .access)
    | _ =>
      let r := s.locateAll ag a
      match r.2 with
      | .ok p => r.1.aimKeys ag p.1 p.2 a merges
      | .wait => (r.1, .wait)
      | .access => (r.1, .access)
      | .data => (r.1, .data)

/-- A task's entry gathers a write that it sends to another device (R217). -/
def State.noteSent (s : State) (w : Waiter) (va : Word) (d : List Byte) (tags : List Word) : State :=
  match w with
  | .unit _ c h => s.setEntry c h { s.entry c h with sent := (s.entry c h).sent ++ [(va, d, tags)] }
  | _ => s

/-- A write leaves for another device; its answer is an event of its own, for which the task that made it waits. -/
def State.writeRemote (s : State) (ag : Agent) (w : Waiter) (dev : DevNum) (p : Plane) (va : Word) (d : List Byte)
    (tags : List Word) : State :=
  (((((s.advanceClock ag.die).noteSent w va d tags).request dev p w fun q => .write dev p q ag.part va d tags).partWrote
    ag.part dev)).eventWith .fabricWrite (.completion s.reqSeq 0)

/-- A write that die `ag.die` issues, put at its copies; the parts of dies that miss stay parked with it (R330, R378). -/
def State.putAt (s : State) (ag : Agent) (ks : List Nat) (left : List DieNum) (va : Word) (d : List Byte) (p : Put) :
    State :=
  let s := s.advanceClock ag.die
  s.spread ag (s.markOf ag.die) ks left va d p

/-- Bytes at an address as naturally aligned pieces of at most 8 bytes (Table 12.1). -/
def wirePieces : (fuel a : Nat) → List Byte → List (Nat × List Byte)
  | 0, _, _ => []
  | _ + 1, _, [] => []
  | fuel + 1, a, d =>
    let n : Nat := ([8, 4, 2].find? fun n => a % n == 0 && decide (n ≤ d.length)).getD 1
    (a, d.take n) :: wirePieces fuel (a + n) (d.drop n)

/-- Bytes put where they were aimed, as a docent store merges them: in another device, in pieces (R120, R348). -/
def State.mergeBytes (s : State) (ag : Agent) (w : Waiter) (a : Aim) (d : List Byte) : State :=
  match a with
  | .keys ks left va => s.putAt ag ks left va d (.merge false)
  | .remote dev p va =>
    (wirePieces d.length va.toNat d).foldl (fun s x => s.writeRemote ag w dev p (BitVec.ofNat 64 x.1) x.2 []) s

/-- The writes of one line of another device, laid over it in order. -/
def overLine (line : Nat) (ws : List (Aim × List Byte)) (d : List Byte) : List Byte :=
  ws.foldl (fun d w => match w.1 with
    | .remote _ _ va => if va.toNat / 64 = line then d.take (va.toNat % 64) ++ (w.2 ++ d.drop (va.toNat % 64 + w.2.length)) else d
    | _ => d) d

/-- Whether writes cover byte `i` of a line of another device. -/
def coverLine (line : Nat) (ws : List (Aim × List Byte)) (i : Nat) : Bool :=
  ws.any fun w => match w.1 with
    | .remote _ _ va => decide (va.toNat ≤ 64 * line + i) && decide (64 * line + i < va.toNat + w.2.length)
    | _ => false

/-- The writes of a vector store to one line of another device leave as one plain line (R216): the bytes that it does not
write are read first, since a write of part of a line keeps its tag (R348; DESIGN CHOICE, log 72). A read that fails stops
the task. -/
def State.putRemoteLine (s : State) (ag : Agent) (w : Waiter) (dev : DevNum) (p : Plane) (line : Nat)
    (ws : List (Aim × List Byte)) : State :=
  let va := BitVec.ofNat 64 (64 * line)
  let send (s : State) (old : List Byte) : State :=
    let d := overLine line ws old
    s.writeRemote ag w dev p va d [makeTag 0 0 0 d]
  if (List.range 64).all (coverLine line ws) then send s (List.replicate 64 0)
  else
    let r := s.readLoc ag (.va va)
    match r.2, w with
    | .ok x, _ => send r.1 x.1
    | .wait, _ => r.1
    | g, .unit _ c h => r.1.cause c h g.causes
    | _, _ => r.1

/-- The lines of other devices that writes go to, in the order of their first writes. -/
def remoteLines (l : List (Aim × List Byte)) : List (DevNum × Plane × Nat) :=
  (l.filterMap fun a => match a.1 with
    | .remote dev p va => some (dev, p, va.toNat / 64)
    | _ => none).eraseDups

/-- The writes of one instruction or iteration, in order, as a vector store makes them: every line becomes plain
(R216). -/
def State.putRuns (s : State) (ag : Agent) (w : Waiter) (l : List (Aim × List Byte)) : State :=
  let s := l.foldl (fun s a => match a.1 with
    | .keys ks left va => s.putAt ag ks left va a.2 .plain
    | .remote _ _ _ => s) s
  (remoteLines l).foldl (fun s x => s.putRemoteLine ag w x.1 x.2.1 x.2.2 l) s

/-- A whole line put where it was aimed, with its tag. -/
def State.putLine (s : State) (ag : Agent) (w : Waiter) (a : Aim) (d : List Byte) (t : Word) : State :=
  match a with
  | .keys ks left va => s.putAt ag ks left va d (.line t)
  | .remote dev p va => s.writeRemote ag w dev p va d [t]

/-- A request of a task to another device that is not answered (R217). -/
def State.unanswered (s : State) (u : UnitId) (c : CoreId) (h : Handle) : Bool :=
  s.requests.any fun r => r.who == Waiter.unit u c h

/-- The task of a unit has done its work: it completes once its writes have been made at every copy and those to other
devices are answered (R217, R311). -/
def State.completeUnit (s : State) (u : UnitId) (c : CoreId) (h : Handle) : State :=
  if s.waiting (.unit u) then s
  else if s.unanswered u c h then s.once (.event (.taskCompletion c h) .none)
  else s.complete c h

end Sys2Proof.Machine
end

