-- ==== Sys2Proof/Machine/Vector.lean ====
section
/-! DEFINITION. The vector engine: its register file (R16-R22), operands and results (R182-R189), the end of a word and
of a kernel (R237, R238), and the arithmetic, function and integer instructions of chapter 6 (R191-R211). -/

namespace Sys2Proof

/-- The rounding mode of a word. -/
def VWord.mode (f : VWord) : Rm := (rmOf f.rm.toNat).getD .rne

/-- A bit of AUX. -/
def VWord.auxBit (f : VWord) (i : Nat) : Bool := f.aux.toNat.testBit i

end Sys2Proof

namespace Sys2Proof.Machine

/-! ### The register file -/

/-- `n` bytes from `k` as a memory of their own. -/
def Memory.slice (m : Memory) (k n : Nat) : Memory :=
  (m.filter fun c => decide (k ≤ c.1) && decide (c.1 < k + n)).map fun c => (c.1 - k, c.2)

/-- SHAPE (Table 1.8). -/
def VectorUnit.rows (v : VectorUnit) : Nat := bits v.shape.toNat 16 16

def VectorUnit.cols (v : VectorUnit) : Nat := bits v.shape.toNat 0 16

/-- Positions of the shape. -/
def VectorUnit.size (v : VectorUnit) : Nat := v.rows * v.cols

/-- Number of the V register that a specifier names (R19). -/
def VectorUnit.reg (v : VectorUnit) (sp : BitVec 8) : Nat := if sp.toNat < 64 then sp.toNat else (v.wb.val + sp.toNat % 16) % 48

/-- The first `n` bytes of a V register, a W name or Z. -/
def VectorUnit.tileBytes (v : VectorUnit) (sp : BitVec 8) (n : Nat) : List Byte :=
  if sp = 0xC0#8 then v.z.read 0 n else v.v.read (32768 * v.reg sp) n

/-- The first `n` elements of `b` bytes of a line register. -/
def VectorUnit.line (v : VectorUnit) (sp : BitVec 8) (b n : Nat) : List Nat :=
  codesOf b n (v.l.read (2048 * (sp.toNat % 16)) (b * n))

/-- An S register. -/
def VectorUnit.scalar (v : VectorUnit) (sp : BitVec 8) : Word := vget v.s (Fin.ofNat 16 sp.toNat)

/-- The codes of an operand at `b` bytes per element, by linear index (R182). -/
def VectorUnit.operand (v : VectorUnit) (sp : BitVec 8) (b : Nat) : List Nat :=
  if specTile sp then codesOf b v.size (v.tileBytes sp (b * v.size))
  else if specL sp then
    if sp.toNat / 16 = 8 then (List.replicate v.rows (v.line sp b v.cols)).flatten
    else ((v.line sp b v.rows).map fun x => List.replicate v.cols x).flatten
  else if specS sp then List.replicate v.size ((v.scalar sp).toNat % 2 ^ (8 * b))
  else List.replicate v.size 0

/-- The shape check (R20) at `b` bytes per element. -/
def VectorUnit.shapeOk (v : VectorUnit) (b : Nat) : Bool := v.rows != 0 && v.cols != 0 && decide (v.size * b ≤ 32768)

/-- The line-length check of an operand (R182). -/
def VectorUnit.lengthOk (v : VectorUnit) (sp : BitVec 8) (b : Nat) : Bool :=
  !specL sp || decide ((if sp.toNat / 16 = 8 then v.cols else v.rows) * b ≤ 2048)

/-- Whether a predicate register governs a position (R21, R185). -/
def VectorUnit.governs (v : VectorUnit) (p : BitVec 3) (k : Nat) : Bool :=
  p == 0#3 || (vget v.p (Fin.ofNat 8 p.toNat)).getLsbD k

/-- The first bytes of a tile replaced: V and Z, or Z alone (R185). -/
def VectorUnit.setTile (v : VectorUnit) (dst : BitVec 8) (d : List Byte) : VectorUnit :=
  if dst = 0xC0#8 then { v with z := v.z.write 0 d }
  else
    let m := v.v.write (32768 * v.reg dst) d
    { v with v := m, z := m.slice (32768 * v.reg dst) 32768 }

/-- Results written by linear index; `none` keeps the element (R185). -/
def VectorUnit.setCodes (v : VectorUnit) (dst : BitVec 8) (b : Nat) (l : List (Option Nat)) : VectorUnit :=
  let old := codesOf b l.length (v.tileBytes dst (b * l.length))
  v.setTile dst (bytesOfCodes b (List.zipWith (fun o x => x.getD o) old l))

/-- The first elements of a line register replaced; `none` keeps the element. -/
def VectorUnit.setLine (v : VectorUnit) (dst : BitVec 8) (b : Nat) (l : List (Option Nat)) : VectorUnit :=
  let old := v.line dst b l.length
  { v with l := v.l.write (2048 * (dst.toNat % 16)) (bytesOfCodes b (List.zipWith (fun o x => x.getD o) old l)) }

/-- A predicate register as a number, bit k for position k; P0 is all true (R21). -/
def VectorUnit.pred (v : VectorUnit) (p : Nat) : Nat :=
  if p % 8 = 0 then 2 ^ 32768 - 1 else (vget v.p (Fin.ofNat 8 p)).toNat

/-- The `n` low bits of a predicate register replaced; P0 is not written (R21). -/
def VectorUnit.setPred (v : VectorUnit) (p n low : Nat) : VectorUnit :=
  if p % 8 = 0 then v
  else
    let old := v.pred p
    { v with p := vset v.p (Fin.ofNat 8 p) (BitVec.ofNat 32768 (old - old % 2 ^ n + low % 2 ^ n)) }

/-- Truth values as a number, the first lowest. -/
def bitsOf (l : List Bool) : Nat := l.foldr (fun b n => b.toNat + 2 * n) 0

/-! ### Words and kernels -/

/-- The element type of a word's TYPE or SRC code; a code that the load checks refuse reads as n8. -/
def elOf (t : BitVec 5) : El :=
  match tyOf t with
  | some (.el e) => e
  | _ => .int ⟨false, 8⟩

def El.bytes (e : El) : Nat := e.width / 8

/-- The format of a floating TYPE. -/
def flOf (t : BitVec 5) : Fl :=
  match elOf t with
  | .fl f => f
  | _ => .f32

/-- The type of an integer TYPE. -/
def intOf (t : BitVec 5) : ITy :=
  match elOf t with
  | .int i => i
  | _ => ⟨false, 8⟩

/-- The vector engine of the core in focus. -/
def State.vec (s : State) : VectorUnit := (s.core s.focus).vec

def State.setVec (s : State) (c : CoreId) (v : VectorUnit) : State := s.setCore c { s.core c with vec := v }

/-- The vector task completes (R217). -/
def State.vectorEnd (s : State) (c : CoreId) : State :=
  match (s.core c).vec.task with
  | some h => s.completeUnit (.vector c) c h
  | none => s

/-- The vector task meets causes and completes; no later word issues (R189). -/
def State.vectorFail (s : State) (c : CoreId) (k : Causes) : State :=
  match (s.core c).vec.task with
  | some h =>
    let s := s.setVec c { (s.core c).vec with after := none }
    ((s.unpark (.unit (.vector c))).cause c h k).vectorEnd c
  | none => s

/-- What follows the word before `next`: an iteration end, the kernel's end, or the next word (R237, R238). -/
def State.vectorGo (s : State) (c : CoreId) : State :=
  let v := (s.core c).vec
  if v.loops.toList.any fun l => l.active && l.last + 1 == v.next then s.once (.event (.loopIterationEnd c) .none)
  else if v.next ≥ v.kernel.length then s.vectorEnd c
  else s.once (.unit (.vector c))

/-- A word has taken effect: the engine's registers are `v`, the task's flags gain `f`, and the next word follows.
`draws`: the word's RM is RSR, so it counts in x (R186). -/
def State.vectorDone (s : State) (v : VectorUnit) (f : Sticky) (draws : Bool) : State :=
  let c := s.focus
  let s := s.setVec c { v with next := v.next + 1, waiting := false, after := none, x := if draws then (v.x + 1) % 2 ^ 32 else v.x }
  let s := match v.task with
    | some h => s.raiseTask c h f
    | none => s
  s.vectorGo c

/-- The stochastic draw of a site (Table 2.10): x counts the task's words, y names the element. -/
def State.vectorDraw (s : State) (f : VWord) (y : Nat) : Nat :=
  if f.mode = .rsr then
    let v := s.vec
    let e := s.entry s.focus (v.task.getD 0)
    (rand32 (randKey (vget v.s 15) (e.field 0 16 16) (e.field 0 32 16) (e.field 0 48 16)) (BitVec.ofNat 32 v.x)
      (BitVec.ofNat 32 y)).toNat
  else 0

/-! ### Element by element -/

/-- The codes of several operands, position by position. -/
def rowsOf : Nat → List (List Nat) → List (List Nat)
  | 0, _ => []
  | n + 1, ls => (ls.map fun l => l.headD 0) :: rowsOf n (ls.map List.tail)

/-- The shape and length checks of an instruction's tile of `b` bytes and its operands (R20, R182). -/
def VectorUnit.operandsOk (v : VectorUnit) (b : Nat) (ops : List (BitVec 8 × Nat)) : Bool :=
  v.shapeOk b && ops.all fun o => v.shapeOk o.2 && v.lengthOk o.1 o.2

/-- Results at the governed positions (R185). -/
def State.vectorResults (s : State) (f : VWord) (ops : List (BitVec 8 × Nat)) (fn : Nat → List Nat → Coded) :
    List (Option Coded) :=
  let v := s.vec
  ((rowsOf v.size (ops.map fun o => v.operand o.1 o.2)).zipIdx).map fun p =>
    if v.governs f.pred p.2 then some (fn (s.vectorDraw f p.2) p.1) else none

/-- An instruction that computes each governed element of a tile of `b`-byte elements from its operands (R182-R186). -/
def State.vectorMap (s : State) (f : VWord) (b : Nat) (ops : List (BitVec 8 × Nat)) (fn : Nat → List Nat → Coded) :
    Host.Outcome State Fault Refusal :=
  let v := s.vec
  if v.operandsOk b ops then
    let rs := s.vectorResults f ops fn
    .next (s.vectorDone (v.setCodes f.dst b (rs.map fun r => r.map Coded.code)) (flagsOf (rs.filterMap id))
      (f.mode == .rsr))
  else .next (s.vectorFail s.focus causeFormat)

/-- An instruction whose operands have its TYPE. -/
def State.vectorTyped (s : State) (f : VWord) (ops : List (BitVec 8)) (fn : Nat → List Nat → Coded) :
    Host.Outcome State Fault Refusal :=
  let b := (elOf f.type).bytes
  s.vectorMap f b (ops.map fun o => (o, b)) fn

/-- An instruction that writes a predicate register from each governed element; the other bits of the shape become
false (R201, R202). -/
def State.vectorTest (s : State) (f : VWord) (ops : List (BitVec 8)) (fn : List Nat → Bool × Sticky) :
    Host.Outcome State Fault Refusal :=
  let v := s.vec
  let b := (elOf f.type).bytes
  if v.operandsOk b (ops.map fun o => (o, b)) then
    let rs := ((rowsOf v.size (ops.map fun o => v.operand o b)).zipIdx).map fun p =>
      if v.governs f.pred p.2 then fn p.1 else (false, 0)
    .next (s.vectorDone (v.setPred (bits f.aux.toNat 0 3) rs.length (bitsOf (rs.map (·.1)))) (rs.foldl (fun a r => a ||| r.2) 0) false)
  else .next (s.vectorFail s.focus causeFormat)

/-- Operand `i` of a position. -/
def nth (l : List Nat) (i : Nat) : Nat := l.getD i 0

/-! ### Floating point (R192-R202) -/

/-- A valued result rounded into a format, with its flags. -/
def Fl.finish (g : Fl) (sat : Bool) (rm : Rm) (draw : Nat) (v : Valued) : Coded :=
  let k := g.round sat rm draw v.val
  ⟨k.code, v.flags ||| k.flags⟩

/-- Negation of a value, which leaves a NaN as it is (R192). -/
def Val.minus (v : Val) : Val := if v.isNan then v else v.negate

/-- An arithmetic instruction on the values of its operands, rounded by its mode and SAT (R192). -/
def State.vectorFloat (s : State) (f : VWord) (ops : List (BitVec 8)) (fn : (Nat → Val) → Valued) :
    Host.Outcome State Fault Refusal :=
  let g := flOf f.type
  s.vectorTyped f ops fun draw l => g.finish (f.auxBit 0) f.mode draw (fn fun i => g.decode (nth l i))

/-- VADD. -/
def execVadd (f : VWord) (s : State) : Host.Outcome State Fault Refusal :=
  s.vectorFloat f [f.a, f.b] fun o => addVal f.mode (o 0) (o 1)

/-- VSUB. -/
def execVsub (f : VWord) (s : State) : Host.Outcome State Fault Refusal :=
  s.vectorFloat f [f.a, f.b] fun o => addVal f.mode (o 0) (o 1).minus

/-- VMUL; a zero product has the exclusive-or of its factors' signs. -/
def execVmul (f : VWord) (s : State) : Host.Outcome State Fault Refusal :=
  s.vectorFloat f [f.a, f.b] fun o => mulVal (o 0) (o 1)

/-- VFMA. -/
def execVfma (f : VWord) (s : State) : Host.Outcome State Fault Refusal :=
  s.vectorFloat f [f.a, f.b, f.c] fun o => fmaVal f.mode (o 0) (o 1) (o 2)

/-- VFMS. -/
def execVfms (f : VWord) (s : State) : Host.Outcome State Fault Refusal :=
  s.vectorFloat f [f.a, f.b, f.c] fun o => fmaVal f.mode (o 0) (o 1) (o 2).minus

/-- VFNMA. -/
def execVfnma (f : VWord) (s : State) : Host.Outcome State Fault Refusal :=
  s.vectorFloat f [f.a, f.b, f.c] fun o => fmaVal f.mode (o 0).minus (o 1) (o 2).minus

/-- VFNMS. -/
def execVfnms (f : VWord) (s : State) : Host.Outcome State Fault Refusal :=
  s.vectorFloat f [f.a, f.b, f.c] fun o => fmaVal f.mode (o 0).minus (o 1) (o 2)

/-- VDIV (R193). -/
def execVdiv (f : VWord) (s : State) : Host.Outcome State Fault Refusal :=
  s.vectorFloat f [f.a, f.b] fun o => divVal (o 0) (o 1)

/-- VSQRT (R193). -/
def execVsqrt (f : VWord) (s : State) : Host.Outcome State Fault Refusal :=
  s.vectorFloat f [f.a] fun o => sqrtVal (o 0)

/-- A bounded function (R194, R203-R208). -/
def State.vectorFn (s : State) (f : VWord) (g : Fn) : Host.Outcome State Fault Refusal :=
  s.vectorTyped f [f.a] fun _ l => g.apply (flOf f.type) (f.auxBit 0) f.mode f.type.toNat f.rm.toNat (nth l 0)

/-- VRCP. -/
def execVrcp (f : VWord) (s : State) : Host.Outcome State Fault Refusal := s.vectorFn f .rcp

/-- VRSQ. -/
def execVrsq (f : VWord) (s : State) : Host.Outcome State Fault Refusal := s.vectorFn f .rsq

/-- The lesser or greater of two codes, by value or by magnitude (R196, R197). -/
def Fl.choose (g : Fl) (greater magnitude num : Bool) (a b : Nat) : Coded :=
  let x := g.decode a
  let y := g.decode b
  let flags := if x.isSnan || y.isSnan then invalidFlag else 0
  let quiet (v : Val) : Nat := match v with
    | .nan n _ p => g.nanCode n p
    | _ => g.canon
  if x.isNan || y.isNan then
    if num && !(x.isNan && y.isNan) then ⟨if x.isNan then b else a, flags⟩
    else ⟨if x.isNan then quiet x else quiet y, flags⟩
  else
    let o := if magnitude then compareVal x.abs y.abs else .eq
    let below := match o with
      | .lt => true
      | .gt => false
      | .eq => belowVal x y
    let same := o == .eq && !belowVal x y && !belowVal y x
    ⟨if same then a else if below == greater then b else a, flags⟩

/-- A minimum or maximum instruction (R196, R197). -/
def State.vectorChoose (s : State) (f : VWord) (greater magnitude : Bool) : Host.Outcome State Fault Refusal :=
  s.vectorTyped f [f.a, f.b] fun _ l => (flOf f.type).choose greater magnitude (f.auxBit 1) (nth l 0) (nth l 1)

/-- VMIN. -/
def execVmin (f : VWord) (s : State) : Host.Outcome State Fault Refusal := s.vectorChoose f false false

/-- VMAX. -/
def execVmax (f : VWord) (s : State) : Host.Outcome State Fault Refusal := s.vectorChoose f true false

/-- VMINM. -/
def execVminm (f : VWord) (s : State) : Host.Outcome State Fault Refusal := s.vectorChoose f false true

/-- VMAXM. -/
def execVmaxm (f : VWord) (s : State) : Host.Outcome State Fault Refusal := s.vectorChoose f true true

/-- VABS (R198). -/
def execVabs (f : VWord) (s : State) : Host.Outcome State Fault Refusal :=
  s.vectorTyped f [f.a] fun _ l => ⟨nth l 0 % 2 ^ ((flOf f.type).width - 1), 0⟩

/-- VNEG (R198). -/
def execVneg (f : VWord) (s : State) : Host.Outcome State Fault Refusal :=
  s.vectorTyped f [f.a] fun _ l => ⟨nth l 0 ^^^ (flOf f.type).signBit true, 0⟩

/-- VCPS (R198). -/
def execVcps (f : VWord) (s : State) : Host.Outcome State Fault Refusal :=
  s.vectorTyped f [f.a, f.b] fun _ l =>
    let w := (flOf f.type).width
    ⟨nth l 0 % 2 ^ (w - 1) + nth l 1 / 2 ^ (w - 1) * 2 ^ (w - 1), 0⟩

/-- VSCL (R199). A power of two beyond ±5000 gives what ±5000 gives in every format and mode. -/
def execVscl (f : VWord) (s : State) : Host.Outcome State Fault Refusal :=
  let g := flOf f.type
  s.vectorTyped f [f.a, f.b] fun draw l =>
    let n := max (-5000) (min 5000 (signed g.width (nth l 1)))
    let v := g.decode (nth l 0)
    g.finish (f.auxBit 0) f.mode draw ((firstNan [v]).getD ⟨v.scale n, 0⟩)

/-- A value rounded to an integral value (R200). -/
def Fl.integral (g : Fl) (rm : Rm) (x : Bool) (draw code : Nat) : Coded :=
  match g.decode code with
  | .fin neg m e =>
    let r := roundAt rm neg draw m e 0
    ⟨(g.round false .rtz 0 (.fin neg r.1 0)).code, if x && !r.2 then inexactFlag else 0⟩
  | .inf _ => ⟨code, 0⟩
  | .nan neg sig pay => ⟨g.nanCode neg pay, if sig then invalidFlag else 0⟩

/-- VRND (R200). -/
def execVrnd (f : VWord) (s : State) : Host.Outcome State Fault Refusal :=
  s.vectorTyped f [f.a] fun draw l => (flOf f.type).integral f.mode (f.auxBit 0) draw (nth l 0)

/-- The class of a code (Table 6.4). -/
def Fl.classOf (g : Fl) (code : Nat) : Nat :=
  match g.decode code with
  | .nan _ sig _ => if sig then 0 else 1
  | .inf neg => if neg then 2 else 9
  | .fin neg m _ =>
    if m = 0 then (if neg then 5 else 6)
    else if m < 2 ^ g.p then (if neg then 4 else 7)
    else if neg then 3 else 8

/-- VCLS (R202). -/
def execVcls (f : VWord) (s : State) : Host.Outcome State Fault Refusal :=
  s.vectorTest f [f.a] fun l => ((bits f.aux.toNat 3 10).testBit ((flOf f.type).classOf (nth l 0)), 0)

/-- The comparisons of Table 6.3 by their code. -/
def holdsFor (cmp : Nat) (unordered : Bool) (o : Ordering) : Bool :=
  match cmp with
  | 0 => !unordered && o == .eq
  | 1 => unordered || o != .eq
  | 2 => !unordered && o == .lt
  | 3 => !unordered && o != .gt
  | 4 => !unordered && o == .gt
  | 5 => !unordered && o != .lt
  | 6 => unordered
  | _ => !unordered

/-- VCMP (R201). -/
def execVcmp (f : VWord) (s : State) : Host.Outcome State Fault Refusal :=
  let cmp := bits f.aux.toNat 3 4
  s.vectorTest f [f.a, f.b] fun l =>
    match elOf f.type with
    | .fl g =>
      let x := g.decode (nth l 0)
      let y := g.decode (nth l 1)
      let signals := if decide (2 ≤ cmp) && decide (cmp ≤ 5) then x.isNan || y.isNan else x.isSnan || y.isSnan
      (holdsFor cmp (x.isNan || y.isNan) (compareVal x y), if signals then invalidFlag else 0)
    | .int t => (holdsFor cmp false (compare (t.read (nth l 0)) (t.read (nth l 1))), 0)
    | .c4 _ => (false, 0)

/-- VEXP. -/
def execVexp (f : VWord) (s : State) : Host.Outcome State Fault Refusal := s.vectorFn f .exp

/-- VEXP2. -/
def execVexp2 (f : VWord) (s : State) : Host.Outcome State Fault Refusal := s.vectorFn f .exp2

/-- VLOG. -/
def execVlog (f : VWord) (s : State) : Host.Outcome State Fault Refusal := s.vectorFn f .log

/-- VLOG2. -/
def execVlog2 (f : VWord) (s : State) : Host.Outcome State Fault Refusal := s.vectorFn f .log2

/-- VSIN. -/
def execVsin (f : VWord) (s : State) : Host.Outcome State Fault Refusal := s.vectorFn f .sin

/-- VCOS. -/
def execVcos (f : VWord) (s : State) : Host.Outcome State Fault Refusal := s.vectorFn f .cos

/-- VTANH. -/
def execVtanh (f : VWord) (s : State) : Host.Outcome State Fault Refusal := s.vectorFn f .tanh

/-- VSIGM. -/
def execVsigm (f : VWord) (s : State) : Host.Outcome State Fault Refusal := s.vectorFn f .sigm

/-- VERF. -/
def execVerf (f : VWord) (s : State) : Host.Outcome State Fault Refusal := s.vectorFn f .erf

/-! ### Integers (R209-R211) -/

/-- An instruction on the integers its operands hold, reduced once by SAT (R210). -/
def State.vectorInt (s : State) (f : VWord) (ops : List (BitVec 8)) (fn : (Nat → Int) → Int) :
    Host.Outcome State Fault Refusal :=
  let t := intOf f.type
  s.vectorTyped f ops fun _ l => ⟨t.write (f.auxBit 0) (fn fun i => t.read (nth l i)), 0⟩

/-- VIADD. -/
def execViadd (f : VWord) (s : State) : Host.Outcome State Fault Refusal :=
  s.vectorInt f [f.a, f.b] fun o => o 0 + o 1

/-- VISUB. -/
def execVisub (f : VWord) (s : State) : Host.Outcome State Fault Refusal :=
  s.vectorInt f [f.a, f.b] fun o => o 0 - o 1

/-- VIMUL. -/
def execVimul (f : VWord) (s : State) : Host.Outcome State Fault Refusal :=
  s.vectorInt f [f.a, f.b] fun o => o 0 * o 1

/-- VIMULH: the floor of the quotient by 2^w. -/
def execVimulh (f : VWord) (s : State) : Host.Outcome State Fault Refusal :=
  s.vectorInt f [f.a, f.b] fun o => o 0 * o 1 / (2 ^ (intOf f.type).w : Nat)

/-- VIMAD. -/
def execVimad (f : VWord) (s : State) : Host.Outcome State Fault Refusal :=
  s.vectorInt f [f.a, f.b, f.c] fun o => o 0 * o 1 + o 2

/-- VIMIN. -/
def execVimin (f : VWord) (s : State) : Host.Outcome State Fault Refusal :=
  s.vectorInt f [f.a, f.b] fun o => min (o 0) (o 1)

/-- VIMAX. -/
def execVimax (f : VWord) (s : State) : Host.Outcome State Fault Refusal :=
  s.vectorInt f [f.a, f.b] fun o => max (o 0) (o 1)

/-- VIABS. -/
def execViabs (f : VWord) (s : State) : Host.Outcome State Fault Refusal :=
  s.vectorInt f [f.a] fun o => ((o 0).natAbs : Int)

/-- VSHL (R211); the amount is natural, and one of w or more gives what w gives. -/
def execVshl (f : VWord) (s : State) : Host.Outcome State Fault Refusal :=
  let t := intOf f.type
  s.vectorTyped f [f.a, f.b] fun _ l =>
    ⟨t.write (f.auxBit 0) (t.read (nth l 0) * (2 ^ min t.w (nth l 1) : Nat)), 0⟩

/-- VSHR (R211). -/
def execVshr (f : VWord) (s : State) : Host.Outcome State Fault Refusal :=
  let t := intOf f.type
  s.vectorTyped f [f.a, f.b] fun _ l => ⟨nth l 0 >>> min t.w (nth l 1), 0⟩

/-- VSRA (R211): copies of the top bit, whatever the signedness of TYPE. -/
def execVsra (f : VWord) (s : State) : Host.Outcome State Fault Refusal :=
  let t := intOf f.type
  s.vectorTyped f [f.a, f.b] fun _ l => ⟨wrapTo t.w (signed t.w (nth l 0) / (2 ^ min t.w (nth l 1) : Nat)), 0⟩

/-- VAND. -/
def execVand (f : VWord) (s : State) : Host.Outcome State Fault Refusal :=
  s.vectorTyped f [f.a, f.b] fun _ l => ⟨nth l 0 &&& nth l 1, 0⟩

/-- VOR. -/
def execVor (f : VWord) (s : State) : Host.Outcome State Fault Refusal :=
  s.vectorTyped f [f.a, f.b] fun _ l => ⟨nth l 0 ||| nth l 1, 0⟩

/-- VXOR. -/
def execVxor (f : VWord) (s : State) : Host.Outcome State Fault Refusal :=
  s.vectorTyped f [f.a, f.b] fun _ l => ⟨nth l 0 ^^^ nth l 1, 0⟩

/-- VNOT. -/
def execVnot (f : VWord) (s : State) : Host.Outcome State Fault Refusal :=
  s.vectorTyped f [f.a] fun _ l => ⟨2 ^ (intOf f.type).w - 1 - nth l 0, 0⟩

end Sys2Proof.Machine
end

