-- ==== Sys2Proof/Machine/VectorMem.lean ====
section
/-! DEFINITION. Vector storage instructions (R212-R223, R232, R233): address words, issue checks (Table 7.2), element
checks (Table 7.3), loads, stores, gather and scatter, packing and unpacking of described lines. -/

namespace Sys2Proof.Machine

/-! ### Address words -/

/-- The space of a storage instruction (R212): 0 ts, 1 peer, 2 mem. -/
def spaceOf (f : VWord) : Nat := bits f.aux.toNat 11 2

/-- An address word with the stride register of space mem. -/
structure Place where
  space : Nat
  word : Nat
  stride : Int
  deriving DecidableEq, Repr

def Place.row (p : Place) : Nat := bits p.word 0 12
def Place.col (p : Place) : Nat := bits p.word 12 11
def Place.pitch (p : Place) : Nat := bits p.word 23 12
def Place.rank (p : Place) : Nat := bits p.word 35 8
def Place.group (p : Place) : Nat := bits p.word 43 8
def Place.slot (p : Place) : Fin 8 := Fin.ofNat 8 (bits p.word 0 3)
def Place.offset (p : Place) : Nat := bits p.word 3 42

/-- The place that a word's operand a names; `strided`: operand b is the stride register in space mem. -/
def VectorUnit.place (v : VectorUnit) (f : VWord) (strided : Bool) : Place :=
  { space := spaceOf f, word := (v.scalar f.a).toNat
    stride := if strided && spaceOf f == 2 then (v.scalar f.b).toInt else 0 }

/-- The task of a core's vector engine. -/
def State.vectorEntry (s : State) (c : CoreId) : Entry := s.entry c ((s.core c).vec.task.getD 0)

/-- Checks 2-5 of Table 7.2, ranked together (R214); `w` is the alignment. -/
def State.placeCauses (s : State) (c : CoreId) (p : Place) (w : Nat) (noPitch : Bool) : Causes :=
  match p.space with
  | 0 => Causes.when (p.word >>> 35 != 0 || (noPitch && p.pitch != 0) || p.col % w != 0) causeFormat
  | 1 => (Causes.when (p.word >>> 51 != 0 || (noPitch && p.pitch != 0) || p.col % w != 0) causeFormat).or
      (Causes.when (s.peerCore c p.group p.rank).isNone causeAccess)
  | _ =>
    match s.slotStart (s.vectorEntry c) p.slot with
    | none => causeFormat
    | some b => Causes.when (p.word >>> 45 != 0 || (b + p.offset) % w != 0 || p.stride % w != 0) causeFormat

/-- Checks 1-3 of Table 7.3 for `n` bytes at a byte distance into tile row `r` (R213). -/
def State.placeAt (s : State) (c : CoreId) (p : Place) (write : Bool) (r : Nat) (d : Nat) (n : Nat) : Reach :=
  let e := s.vectorEntry c
  match p.space with
  | 0 => s.reachTile c e write (p.row + r * p.pitch) (p.col + d) n
  | 1 =>
    match s.peerCore c p.group p.rank with
    | some k => s.reachPeer c e write false p.group p.rank k (p.row + r * p.pitch) (p.col + d) n
    | none => .bad
  | _ =>
    match s.slotStart e p.slot with
    | some b => s.reachVa e write ((b : Int) + p.offset + r * p.stride + d) n
    | none => .bad

/-- The same at an index of VGATH and VSCAT (R223). -/
def State.placeIndexed (s : State) (c : CoreId) (p : Place) (write : Bool) (j : Int) (w : Nat) : Reach :=
  let e := s.vectorEntry c
  let byte : Int := p.row * 2048 + p.col + j * w
  match p.space with
  | 0 => if byte < 0 then .bad else s.reachTile c e write (byte.toNat / 2048) (byte.toNat % 2048) w
  | 1 =>
    match s.peerCore c p.group p.rank with
    | some k =>
      if byte < 0 then .bad
      else s.reachPeer c e write false p.group p.rank k (byte.toNat / 2048) (byte.toNat % 2048) w
    | none => .bad
  | _ =>
    match s.slotStart e p.slot with
    | some b => s.reachVa e write ((b : Int) + p.offset + j * w) w
    | none => .bad

/-! ### Accesses of one instruction -/

/-- What a load finds at a position: its line, the line's tag, and the column within it; `none` is suppressed. -/
abbrev Found := Option (List Byte × Word × Nat)

/-- The reads of an instruction so far: the last line read, the causes met, and what was found, newest first. -/
structure Reads where
  line : Option (Loc × Got (List Byte × Word))
  causes : Causes
  found : List (Option Found)
  deriving DecidableEq, Repr

/-- The positions of a load in order (R215): `none` is not governed. Every access that misses is parked (R219). -/
def State.readAll (s : State) (ag : Agent) : List (Option Reach) → Reads → State × Option Reads
  | [], a => (s, some a)
  | none :: r, a => s.readAll ag r { a with found := none :: a.found }
  | some .bad :: r, a => s.readAll ag r { a with causes := a.causes.or causeAccess, found := none :: a.found }
  | some .suppressed :: r, a =>
    s.readAll ag r { a with causes := a.causes.or causeUndeclared, found := some none :: a.found }
  | some (.found l) :: r, a =>
    let got := match a.line with
      | some (m, g) => if m = l.line then (s, g) else s.readLoc ag l
      | none => s.readLoc ag l
    match got.2 with
    | .ok (d, t) =>
      got.1.readAll ag r { a with line := some (l.line, got.2), found := some (some (d, t, l.inLine)) :: a.found }
    | .wait => ((got.1.readAll ag r { a with line := some (l.line, .wait), found := none :: a.found }).1, none)
    | g => got.1.readAll ag r
        { a with line := some (l.line, g), causes := a.causes.or g.causes, found := none :: a.found }

/-- The writes of an instruction aimed in order: each with its bytes. Every access that misses is parked, and none is
made before all may be (R219). -/
def State.aimAll (s : State) (ag : Agent) : List (Reach × List Byte) → Causes → List (Aim × List Byte) →
    State × Option (Causes × List (Aim × List Byte))
  | [], k, l => (s, some (k, l.reverse))
  | (.bad, _) :: r, k, l => s.aimAll ag r (k.or causeAccess) l
  | (.suppressed, _) :: r, k, l => s.aimAll ag r (k.or causeUndeclared) l
  | (.found p, d) :: r, k, l =>
    let a := s.aim ag p true
    match a.2 with
    | .ok m => a.1.aimAll ag r k ((m, d) :: l)
    | .wait => ((a.1.aimAll ag r k l).1, none)
    | g => a.1.aimAll ag r (k.or g.causes) l

/-- The instruction waits for its accesses (R219). -/
def State.vectorWait (s : State) : State :=
  s.setVec s.focus { s.vec with waiting := true }

/-- Whether causes stop an instruction; a suppressed access does not (Table 7.3). -/
def Causes.stops (k : Causes) : Bool := k.data || k.access || k.queue || k.format

/-- A load: its positions, and what each element found becomes (a code with flags, or `none` for DATA); the results
then go to the destination. -/
def State.vectorLoad (s : State) (f : VWord) (places : List (Option Reach))
    (value : (k : Nat) → List Byte × Word × Nat → Option Coded) (put : VectorUnit → List (Option Nat) → VectorUnit) :
    Host.Outcome State Fault Refusal :=
  let c := s.focus
  let r := s.readAll (s.taskAgent c (.vector c)) places ⟨none, Causes.none, []⟩
  match r.2 with
  | none => .next r.1.vectorWait
  | some a =>
    let s := r.1
    let got : List (Option (Option Coded)) := a.found.reverse.zipIdx.map fun p =>
      match p.1 with
      | none => none
      | some none => some (some ⟨0, 0⟩)
      | some (some x) => some (value p.2 x)
    let causes := a.causes.or (Causes.when (got.any fun g => g == some none) causeData)
    if causes.stops then .next (s.vectorFail c causes)
    else
      let codes := got.map fun g => g.bind id
      let s := s.cause c (s.vec.task.getD 0) causes
      .next (s.vectorDone (put s.vec (codes.map fun g => g.map Coded.code)) (flagsOf (codes.filterMap id))
        (f.mode == .rsr))

/-- A store that has been made ends once its parts at replicated pages have been written and the other devices have
answered (R217, R219): with its flags or, when one of them has failed, without, as the last instruction (R215). -/
def State.storeEnds (s : State) (flags : Sticky) (draws : Bool) : Host.Outcome State Fault Refusal :=
  let c := s.focus
  let h := s.vec.task.getD 0
  let k := (s.entry c h).causes
  if k.stops then .next (s.vectorFail c k)
  else if s.waiting (.unit (.vector c)) || s.unanswered (.vector c) c h then
    .next (s.setVec c { s.vec with waiting := true, after := some (flags, draws) })
  else .next (s.vectorDone s.vec flags draws)

/-- A store: its positions and bytes, in linear order (R216). -/
def State.vectorStore (s : State) (f : VWord) (writes : List (Reach × List Byte)) (flags : Sticky)
    (put : State → Agent → Waiter → List (Aim × List Byte) → State) : Host.Outcome State Fault Refusal :=
  let c := s.focus
  let ag := s.taskAgent c (.vector c)
  let h := s.vec.task.getD 0
  match s.vec.after with
  | some a => s.storeEnds a.1 a.2
  | none =>
    let r := s.aimAll ag writes Causes.none []
    match r.2 with
    | none => .next r.1.vectorWait
    | some (k, l) =>
      if k.stops then .next (r.1.vectorFail c k)
      else (put (r.1.cause c h k) ag (.unit (.vector c) c h) l).storeEnds flags (f.mode == .rsr)

/-! ### VLD, VST, VLDL, VSTL, VGATH, VSCAT -/

/-- The value of a loaded element, by the branches of R221 in their order: a NaN or infinity code is loaded as stored, also
from a line with e = 63; `none` is DATA. -/
def loadValue (f : VWord) (draw : Nat) (x : List Byte × Word × Nat) : Option Coded :=
  let t := elOf f.type
  let code := ofBytes ((x.1.drop x.2.2).take t.bytes)
  match resolve (.el t) x.2.1 with
  | none => none
  | some r =>
    let v := t.decode code
    match r.2 with
    | .invalid => if v.isNan || v.isInf then some ⟨code, 0⟩ else match t with
        | .fl g => some ⟨g.canon, 0⟩
        | _ => some ⟨0, invalidFlag⟩
    | .by k => if k = 0 ∨ v.isNan ∨ v.isInf then some ⟨code, 0⟩ else some (t.round (f.auxBit 0) f.mode draw (v.scale k))

/-- Positions of the shape, by row and column. -/
def VectorUnit.positions (v : VectorUnit) : List (Nat × Nat) :=
  ((List.range v.rows).map fun r => (List.range v.cols).map fun c => (r, c)).flatten

/-- VLD (R221). -/
def execVld (f : VWord) (s : State) : Host.Outcome State Fault Refusal :=
  let c := s.focus
  let v := s.vec
  let w := (elOf f.type).bytes
  let p := v.place f true
  let causes := (Causes.when (!v.shapeOk w) causeFormat).or (s.placeCauses c p w false)
  if causes.stops then .next (s.vectorFail c causes)
  else
    let places := v.positions.zipIdx.map fun q =>
      if v.governs f.pred q.2 then some (s.placeAt c p false q.1.1 (q.1.2 * w) w) else none
    s.vectorLoad f places (fun k x => loadValue f (s.vectorDraw f k) x) fun v l => v.setCodes f.dst w l

/-- VST (R221). -/
def execVst (f : VWord) (s : State) : Host.Outcome State Fault Refusal :=
  let c := s.focus
  let v := s.vec
  let w := (elOf f.type).bytes
  let p := v.place f true
  let causes := (Causes.when (!v.shapeOk w) causeFormat).or (s.placeCauses c p w false)
  if causes.stops then .next (s.vectorFail c causes)
  else
    let writes := (v.positions.zip (v.operand f.c w)).zipIdx.filterMap fun q =>
      if v.governs f.pred q.2 then some (s.placeAt c p true q.1.1.1 (q.1.1.2 * w) w, bytesOf w q.1.2) else none
    s.vectorStore f writes 0 State.putRuns

/-- The count of a line specifier (R222), and the linear index whose bit governs element `k` (R218). -/
def VectorUnit.lineCount (v : VectorUnit) (sp : BitVec 8) : Nat := if sp.toNat / 16 = 8 then v.cols else v.rows

def VectorUnit.lineIndex (v : VectorUnit) (sp : BitVec 8) (k : Nat) : Nat :=
  if sp.toNat / 16 = 8 then k else k * v.cols

/-- The issue checks of VLDL and VSTL (R222, Table 7.2). -/
def State.lineCauses (s : State) (c : CoreId) (p : Place) (sp : BitVec 8) (w : Nat) : Causes :=
  let v := (s.core c).vec
  (Causes.when (v.rows == 0 || v.cols == 0 || decide (v.lineCount sp * w > 2048)) causeFormat).or
    (s.placeCauses c p w true)

/-- VLDL (R222). Element k draws at the governing position of R218, k × COLS for a count of ROWS, where R213 takes it as
position (0, k) (DESIGN CHOICE, log 57). -/
def execVldl (f : VWord) (s : State) : Host.Outcome State Fault Refusal :=
  let c := s.focus
  let v := s.vec
  let w := (elOf f.type).bytes
  let p := v.place f false
  let causes := s.lineCauses c p f.dst w
  if causes.stops then .next (s.vectorFail c causes)
  else
    let places := (List.range (v.lineCount f.dst)).map fun k =>
      if v.governs f.pred (v.lineIndex f.dst k) then some (s.placeAt c p false 0 (k * w) w) else none
    s.vectorLoad f places (fun k x => loadValue f (s.vectorDraw f (v.lineIndex f.dst k)) x) fun v l => v.setLine f.dst w l

/-- VSTL (R222). -/
def execVstl (f : VWord) (s : State) : Host.Outcome State Fault Refusal :=
  let c := s.focus
  let v := s.vec
  let w := (elOf f.type).bytes
  let p := v.place f false
  let causes := s.lineCauses c p f.c w
  if causes.stops then .next (s.vectorFail c causes)
  else
    let n := v.lineCount f.c
    let writes := (v.line f.c w n).zipIdx.filterMap fun q =>
      if v.governs f.pred (v.lineIndex f.c q.2) then some (s.placeAt c p true 0 (q.2 * w) w, bytesOf w q.1) else none
    s.vectorStore f writes 0 State.putRuns

/-- The issue checks of VGATH and VSCAT (R223): the index tile has 4 bytes per element. -/
def State.indexCauses (s : State) (c : CoreId) (p : Place) (w : Nat) : Causes :=
  let v := (s.core c).vec
  (Causes.when (!v.shapeOk w || !v.shapeOk 4) causeFormat).or (s.placeCauses c p w true)

/-- VGATH (R223). -/
def execVgath (f : VWord) (s : State) : Host.Outcome State Fault Refusal :=
  let c := s.focus
  let v := s.vec
  let w := (elOf f.type).bytes
  let p := v.place f false
  let causes := s.indexCauses c p w
  if causes.stops then .next (s.vectorFail c causes)
  else
    let places := (v.operand f.b 4).zipIdx.map fun q =>
      if v.governs f.pred q.2 then some (s.placeIndexed c p false (signed 32 q.1) w) else none
    s.vectorLoad f places (fun k x => loadValue f (s.vectorDraw f k) x) fun v l => v.setCodes f.dst w l

/-- VSCAT (R223). -/
def execVscat (f : VWord) (s : State) : Host.Outcome State Fault Refusal :=
  let c := s.focus
  let v := s.vec
  let w := (elOf f.type).bytes
  let p := v.place f false
  let causes := s.indexCauses c p w
  if causes.stops then .next (s.vectorFail c causes)
  else
    let writes := ((v.operand f.b 4).zip (v.operand f.c w)).zipIdx.filterMap fun q =>
      if v.governs f.pred q.2 then some (s.placeIndexed c p true (signed 32 q.1.1) w, bytesOf w q.1.2) else none
    s.vectorStore f writes 0 State.putRuns

/-! ### Described lines: VPACK and VUNPK -/

/-- The element type of a packed line: TYPE, or the 4-bit type of CTYPE. -/
def packEl (f : VWord) : El := if f.type = 0x06#5 then .c4 (bits f.aux.toNat 8 2) else elOf f.type

/-- FMT of a packed line (R232). -/
def packFmt (f : VWord) : Nat := ((tyOf f.type).bind Ty.fmt).getD 0

/-- MAX of a line type (R232): its largest positive value. -/
def maxOf (e : El) : Val :=
  match e with
  | .fl g => g.decode g.maxCode
  | .int t => Val.ofInt t.hi
  | .c4 ty => .fin false (match ty with
      | 0 => 7
      | 1 => 6
      | 2 => 16
      | _ => 12) 0

/-- The scale exponent under .amax for the largest magnitude `m` (R232): the least in 0-62 that brings it to MAX. -/
def amaxExp (e : El) (m : Val) : Nat :=
  if m.isZero then 32
  else ((List.range 63).find? fun (x : Nat) => compareVal (m.scale (32 - (x : Int))) (maxOf e) != .gt).getD 62

/-- One line packed from its elements, `none` where the position's bit is false: data, tag and flags (R232). -/
def packLine (f : VWord) (draw : Nat → Nat) (l : List (Option Nat)) (first : Nat) : List Byte × Word × Sticky :=
  let el := packEl f
  let vals := l.map fun x => x.map Fl.f32.decode
  let live := vals.filterMap id
  let fixed := f.auxBit 10
  let floats := match el with
    | .fl _ => true
    | _ => false
  let ctype := if f.type = 0x06#5 then bits f.aux.toNat 8 2 else 0
  if !fixed && !floats && live.any Val.isNan then
    let d := List.replicate 64 (0 : Byte)
    (d, makeTag (packFmt f) (64 * ctype + 63) 0 d, invalidFlag)
  else
    let m := (live.filter fun v => !v.isNan && !v.isInf).foldl (fun a v => if belowVal a v.abs then v.abs else a)
      (.fin false 0 0)
    let e := if fixed then bits f.aux.toNat 1 6 else amaxExp el m
    let rs := vals.zipIdx.map fun p => match p.1 with
      | none => (⟨0, 0⟩ : Coded)
      | some v => writeElement el e (f.auxBit 7) f.mode (draw (first + p.2)) v
    let d := pack el.width (rs.map Coded.code)
    (d, makeTag (packFmt f) (64 * ctype + e) 0 d, flagsOf rs)

/-- A list cut into runs of `n`; `fuel` bounds their number. -/
def runsOf {α : Type} (n : Nat) : (fuel : Nat) → List α → List (List α)
  | 0, _ => []
  | fuel + 1, l => if l.isEmpty then [] else l.take n :: runsOf n fuel (l.drop n)

/-- Whole lines put in order, each followed by its tag. -/
def State.putTagged (s : State) (ag : Agent) (w : Waiter) (l : List (Aim × List Byte)) : State :=
  l.foldl (fun s a => s.putLine ag w a.1 (a.2.take 64) (wordOf (a.2.drop 64))) s

/-- VPACK (R232). A line is one access to its region: one not whole in a region that gives it is suppressed whole, and its
elements raise their flags (DESIGN CHOICE, log 90). -/
def execVpack (f : VWord) (s : State) : Host.Outcome State Fault Refusal :=
  let c := s.focus
  let v := s.vec
  let p := v.place f true
  let n := 512 / (packEl f).width
  let causes := (Causes.when (!v.shapeOk 4 || v.cols % n != 0) causeFormat).or (s.placeCauses c p 64 false)
  if causes.stops then .next (s.vectorFail c causes)
  else
    let elems := (v.operand f.c 4).zipIdx.map fun q => if v.governs f.pred q.2 then some q.1 else none
    let lines := (runsOf n v.size elems).zipIdx.map fun q => packLine f (s.vectorDraw f) q.1 (q.2 * n)
    let perRow := v.cols / n
    let writes := lines.zipIdx.map fun q =>
      (s.placeAt c p true (q.2 / perRow) (64 * (q.2 % perRow)) 64, q.1.1 ++ bytesOf 8 q.1.2.1.toNat)
    s.vectorStore f writes (lines.foldl (fun a l => a ||| l.2.2) 0) State.putTagged

/-- The value of an element of a described line (R233); `none` is DATA. -/
def unpackValue (f : VWord) (width : Nat) (low : Bool) (draw : Nat) (x : List Byte × Word × Nat) : Option Coded :=
  match resolve .desc x.2.1 with
  | none => none
  | some r =>
    if r.1.width ≠ width then none
    else
      let i := if width = 4 then 2 * x.2.2 + (if low then 0 else 1) else x.2.2 / (width / 8)
      let v := readElement true r (element x.1 width i)
      some ((flOf f.type).finish (f.auxBit 0) f.mode draw v)

/-- VUNPK (R233). -/
def execVunpk (f : VWord) (s : State) : Host.Outcome State Fault Refusal :=
  let c := s.focus
  let v := s.vec
  let p := v.place f true
  let b := (elOf f.type).bytes
  let width := 4 * 2 ^ bits f.aux.toNat 9 2
  let n := 512 / width
  let causes := (Causes.when (!v.shapeOk b || v.cols % n != 0) causeFormat).or (s.placeCauses c p 64 false)
  if causes.stops then .next (s.vectorFail c causes)
  else
    let places := v.positions.zipIdx.map fun q =>
      if v.governs f.pred q.2 then
        some (s.placeAt c p false q.1.1 (64 * (q.1.2 / n) + q.1.2 % n * width / 8) ((width + 7) / 8))
      else none
    s.vectorLoad f places (fun k x => unpackValue f width (k % v.cols % n % 2 == 0) (s.vectorDraw f k) x)
      fun v l => v.setCodes f.dst b l

end Sys2Proof.Machine
end

