-- ==== Sys2Proof/Machine/VectorFold.lean ====
section
/-! DEFINITION. Moves within the register file (R224, R225), reductions and scans (R226-R228), conversions (R229-R231)
and predicate logic (R234, R235). -/

namespace Sys2Proof.Machine

/-! ### Moves -/

/-- VMOV. -/
def execVmov (f : VWord) (s : State) : Host.Outcome State Fault Refusal :=
  s.vectorTyped f [f.a] fun _ l => ⟨nth l 0, 0⟩

/-- A tile whose codes are given by linear index, written at the governed positions. -/
def State.vectorPut (s : State) (f : VWord) (codes : List Nat) : Host.Outcome State Fault Refusal :=
  let v := s.vec
  let l := codes.zipIdx.map fun p => if v.governs f.pred p.2 then some p.1 else none
  .next (s.vectorDone (v.setCodes f.dst (elOf f.type).bytes l) 0 false)

/-- VBCAST (R225): an index outside the shape has no effect. -/
def execVbcast (f : VWord) (s : State) : Host.Outcome State Fault Refusal :=
  let v := s.vec
  let b := (elOf f.type).bytes
  let k := (v.scalar f.b).toNat % 2 ^ 32
  let mode := bits f.aux.toNat 0 2
  let limit := match mode with
    | 0 => v.size
    | 1 => v.rows
    | _ => v.cols
  if !v.shapeOk b || decide (limit ≤ k) then .next (s.vectorFail s.focus causeFormat)
  else
    let l := v.operand f.a b
    s.vectorPut f (match mode with
      | 0 => List.replicate v.size (l.getD k 0)
      | 1 => (List.replicate v.rows ((l.drop (k * v.cols)).take v.cols)).flatten
      | _ => ((runsOf v.cols v.rows l).map fun r => List.replicate v.cols (r.getD k 0)).flatten)

/-- VTRN (R225): SHAPE stays; predicate bit k governs destination index k. -/
def execVtrn (f : VWord) (s : State) : Host.Outcome State Fault Refusal :=
  let v := s.vec
  let b := (elOf f.type).bytes
  if v.shapeOk b then s.vectorPut f (rowsOf v.cols (runsOf v.cols v.rows (v.operand f.a b))).flatten
  else .next (s.vectorFail s.focus causeFormat)

/-- VSEL (R225): PRED selects, and every position is written. -/
def execVsel (f : VWord) (s : State) : Host.Outcome State Fault Refusal :=
  let v := s.vec
  let b := (elOf f.type).bytes
  if v.operandsOk b [(f.a, b), (f.b, b)] then
    let l := ((v.operand f.a b).zip (v.operand f.b b)).zipIdx.map fun p =>
      some (if v.governs f.pred p.2 then p.1.1 else p.1.2)
    .next (s.vectorDone (v.setCodes f.dst b l) 0 false)
  else .next (s.vectorFail s.focus causeFormat)

/-! ### Reductions and scans -/

/-- What a reduction or scan does to leaves and pairs of codes (Table 7.7); `draw` is the draw of a site. -/
structure FoldOp where
  identity : Nat
  leaf : Nat → Nat
  pair : (draw a b : Nat) → Coded

/-- Table 7.7 by TYPE and AUX. -/
def foldOp (f : VWord) : FoldOp :=
  let op := bits f.aux.toNat 0 2
  let num := f.auxBit 2
  let sat := f.auxBit 3
  match elOf f.type with
  | .fl g =>
    { identity := match op with
        | 0 => g.signBit true
        | 1 => g.infCode
        | 2 => g.signBit true ||| g.infCode
        | _ => 0
      leaf := fun x => if op = 3 then x % 2 ^ (g.width - 1) else x
      pair := fun draw a b =>
        if op = 0 then g.finish sat f.mode draw (addVal f.mode (g.decode a) (g.decode b))
        else g.choose (op != 1) false num a b }
  | e =>
    let t := intOf f.type
    { identity := match op with
        | 1 => wrapTo t.w t.hi
        | 2 => wrapTo t.w t.lo
        | _ => 0
      leaf := fun x => if op = 3 ∧ t.signed then t.write sat (t.read x).natAbs else x
      pair := fun _ a b =>
        let x := t.read a
        let y := t.read b
        ⟨match op with
          | 0 => t.write sat (x + y)
          | 1 => wrapTo e.width (min x y)
          | _ => wrapTo e.width (max x y), 0⟩ }

/-- A reduction of one row or column (R227): `index` gives the linear index of a position along the reduced axis. -/
def State.reduceLane (s : State) (f : VWord) (o : FoldOp) (index : Nat → Nat) (leaves : List Nat) : Coded :=
  (tree (fun level leaf (a b : Coded) =>
      let k := o.pair (s.vectorDraw f (index leaf + 2 ^ 16 * level)) a.code b.code
      ⟨k.code, a.flags ||| b.flags ||| k.flags⟩)
    leaves.length 1 (leaves.map fun x => ⟨x, 0⟩)).getD ⟨o.identity, 0⟩

/-- The leaves of a tile, by linear index: a position that is not governed enters as the identity. -/
def VectorUnit.leaves (v : VectorUnit) (f : VWord) (o : FoldOp) : List Nat :=
  (v.operand f.a (elOf f.type).bytes).zipIdx.map fun p => if v.governs f.pred p.2 then o.leaf p.1 else o.identity

/-- A reduction of every lane into a line register. -/
def State.vectorReduce (s : State) (f : VWord) (byRow : Bool) : Host.Outcome State Fault Refusal :=
  let v := s.vec
  let b := (elOf f.type).bytes
  let o := foldOp f
  if !v.shapeOk b || decide ((if byRow then v.rows else v.cols) * b > 2048) then .next (s.vectorFail s.focus causeFormat)
  else
    let rows := runsOf v.cols v.rows (v.leaves f o)
    let lanes := if byRow then rows else rowsOf v.cols rows
    let rs := lanes.zipIdx.map fun p =>
      s.reduceLane f o (fun i => if byRow then p.2 * v.cols + i else i * v.cols + p.2) p.1
    .next (s.vectorDone (v.setLine f.dst b (rs.map fun r => some r.code)) (flagsOf rs) (f.mode == .rsr))

/-- VREDR. -/
def execVredr (f : VWord) (s : State) : Host.Outcome State Fault Refusal := s.vectorReduce f true

/-- VREDC. -/
def execVredc (f : VWord) (s : State) : Host.Outcome State Fault Refusal := s.vectorReduce f false

/-- The recurrence of R71 over the leaves that remain: `prev` is the value before, when there is one. -/
def scanLane (o : FoldOp) (draw : Nat → Nat) : Nat → Option Nat → List Nat → List Coded
  | _, _, [] => []
  | i, none, x :: r => ⟨x, 0⟩ :: scanLane o draw (i + 1) (some x) r
  | i, some p, x :: r =>
    let k := o.pair (draw i) p x
    k :: scanLane o draw (i + 1) (some k.code) r

/-- The output of a lane (R71, R228), `first` being what an exclusive scan shows first. Exclusive, output element i shows
s_(i-1), drawn at the site of that output element (Table 2.10), and the last sum is not formed (DESIGN CHOICE,
log 56). -/
def scanOut (o : FoldOp) (draw : Nat → Nat) (excl : Bool) (first : Nat) (start : Option Nat) (l : List Nat) : List Coded :=
  if excl then ⟨start.getD first, 0⟩ :: scanLane o (fun i => draw (i + 1)) 0 start l.dropLast
  else scanLane o draw 0 start l

/-- VSCAN (R228). The carry line of a row scan is as long as its rows are many, and the step of a position that is not
governed raises its flags (DESIGN CHOICE, log 91). -/
def execVscan (f : VWord) (s : State) : Host.Outcome State Fault Refusal :=
  let v := s.vec
  let b := (elOf f.type).bytes
  let o := foldOp f
  let down := f.auxBit 4
  let carry := f.auxBit 6
  let lanesN := if down then v.cols else v.rows
  if !v.shapeOk b || (carry && decide (lanesN * b > 2048)) then .next (s.vectorFail s.focus causeFormat)
  else
    let rows := runsOf v.cols v.rows (v.leaves f o)
    let lanes := if down then rowsOf v.cols rows else rows
    let starts := if carry then (v.line f.b b lanesN).map some else List.replicate lanesN none
    let first := if bits f.aux.toNat 0 2 = 0 then 0 else o.identity
    let outs := (lanes.zip starts).zipIdx.map fun p =>
      scanOut o (fun i => s.vectorDraw f (if down then i * v.cols + p.2 else p.2 * v.cols + i)) (f.auxBit 5) first
        p.1.2 p.1.1
    let flags := flagsOf outs.flatten
    let codes := outs.map fun l => l.map (·.code)
    let flat := (if down then rowsOf v.rows codes else codes).flatten
    let l := flat.zipIdx.map fun p => if v.governs f.pred p.2 then some p.1 else none
    .next (s.vectorDone (v.setCodes f.dst b l) flags (f.mode == .rsr))

/-! ### Conversions -/

/-- The conversion of R67 from one element type to another. -/
def El.convert (src dst : El) (sat : Bool) (rm : Rm) (draw code : Nat) : Coded :=
  let v := src.decode code
  match src, dst with
  | .int a, .int b => ⟨b.write (sat && decide (b.w ≤ a.w)) (a.read code), 0⟩
  | .int _, _ => dst.round sat rm draw v
  | _, .int b => b.convert rm draw v
  | _, _ => dst.round sat rm draw v

/-- VCVT (R230). -/
def execVcvt (f : VWord) (s : State) : Host.Outcome State Fault Refusal :=
  let src := elOf (BitVec.ofNat 5 f.aux.toNat)
  s.vectorMap f (elOf f.type).bytes [(f.a, src.bytes)] fun draw l =>
    src.convert (elOf f.type) (f.auxBit 5) f.mode draw (nth l 0)

/-- VQNT (R231). -/
def execVqnt (f : VWord) (s : State) : Host.Outcome State Fault Refusal :=
  let t := elOf f.type
  s.vectorMap f t.bytes [(f.a, 4), (f.b, 4), (f.c, 4)] fun draw l =>
    let a := if f.auxBit 0 then Fl.f32.decode (nth l 0) else Val.ofInt (signed 32 (nth l 0))
    let v := fmaVal f.mode a (Fl.f32.decode (nth l 1)) (Val.ofInt (signed 32 (nth l 2)))
    let k := t.round (f.auxBit 1) f.mode draw v.val
    ⟨k.code, v.flags ||| k.flags⟩

/-! ### Predicate logic -/

/-- The shape check of predicate instructions (R234). -/
def VectorUnit.predOk (v : VectorUnit) : Bool := v.rows != 0 && v.cols != 0 && decide (v.size ≤ 32768)

/-- A predicate instruction: the bits of the shape become those of a number. -/
def State.vectorPred (s : State) (f : VWord) (value : VectorUnit → Nat) : Host.Outcome State Fault Refusal :=
  let v := s.vec
  if v.predOk then .next (s.vectorDone (v.setPred f.dst.toNat v.size (value v)) 0 false)
  else .next (s.vectorFail s.focus causeFormat)

/-- PAND. -/
def execPand (f : VWord) (s : State) : Host.Outcome State Fault Refusal :=
  s.vectorPred f fun v => v.pred f.a.toNat &&& v.pred f.b.toNat

/-- POR. -/
def execPor (f : VWord) (s : State) : Host.Outcome State Fault Refusal :=
  s.vectorPred f fun v => v.pred f.a.toNat ||| v.pred f.b.toNat

/-- PXOR. -/
def execPxor (f : VWord) (s : State) : Host.Outcome State Fault Refusal :=
  s.vectorPred f fun v => v.pred f.a.toNat ^^^ v.pred f.b.toNat

/-- PNOT. -/
def execPnot (f : VWord) (s : State) : Host.Outcome State Fault Refusal :=
  s.vectorPred f fun v => 2 ^ 32768 - 1 - v.pred f.a.toNat

/-- PSET (R235). -/
def execPset (f : VWord) (s : State) : Host.Outcome State Fault Refusal :=
  s.vectorPred f fun v =>
    let n := (v.scalar f.a).toInt
    let where_ (p : Nat → Nat → Bool) : Nat := bitsOf (v.positions.map fun q => p q.1 q.2)
    match bits f.aux.toNat 0 3 with
    | 0 => 0
    | 1 => 2 ^ v.size - 1
    | 2 => where_ fun r c => decide ((r * v.cols + c : Int) < n)
    | 3 => where_ fun r _ => decide ((r : Int) < n)
    | 4 => where_ fun _ c => decide ((c : Int) < n)
    | _ => where_ fun r c => decide ((c : Int) ≤ r + n)

end Sys2Proof.Machine
end

