-- ==== Sys2Proof/Machine/Kernel.lean ====
section
/-! DEFINITION. Vector kernels: reading and checking one (R84, R85, R239), the next word, and the control instructions
(R236-R238). -/

namespace Sys2Proof.Machine

/-! ### Control -/

/-- VSHAPE (R237). -/
def execVshape (f : VWord) (s : State) : Host.Outcome State Fault Refusal :=
  let v := s.vec
  .next (s.vectorDone { v with shape := (v.scalar f.a).truncate 32 } 0 false)

/-- Number of open loops. -/
def VectorUnit.depth (v : VectorUnit) : Nat := (v.loops.toList.filter (·.active)).length

/-- LOOP (R238). -/
def execLoop (f : VWord) (s : State) : Host.Outcome State Fault Refusal :=
  let v := s.vec
  let n := if f.auxBit 12 then f.b.toNat * 256 + f.c.toNat else (v.scalar f.a).toNat % 2 ^ 32
  let d : Fin 3 := Fin.ofNat 3 v.depth
  let last := v.next + 1 + bits f.aux.toNat 0 8
  let v := { v with lc := vset v.lc d 0 }
  if n = 0 then .next (s.vectorDone { v with next := last } 0 false)
  else .next (s.vectorDone { v with loops := vset v.loops d ⟨v.next + 1, last, bits f.aux.toNat 9 3, true, n⟩ } 0 false)

/-- LOOP_ITERATION_END (R238): the innermost loop whose body has just ended goes round or closes. -/
def execLoopIterationEnd (core : CoreId) (s : State) : Host.Outcome State Fault Refusal :=
  let v := (s.core core).vec
  let ends (d : Fin 3) : Bool := (vget v.loops d).active && (vget v.loops d).last + 1 == v.next
  match ([2, 1, 0] : List (Fin 3)).find? ends with
  | none => .next s
  | some d =>
    let l := vget v.loops d
    let n := vget v.lc d + 1
    let v := { v with lc := vset v.lc d n, wb := Fin.ofNat 48 (v.wb.val + l.step) }
    let v := if n.toNat < l.count then { v with next := l.first }
      else { v with loops := vset v.loops d { l with active := false } }
    .next ((s.setVec core v).vectorGo core)

/-- ROT (R237). -/
def execRot (f : VWord) (s : State) : Host.Outcome State Fault Refusal :=
  let v := s.vec
  let n := bits f.aux.toNat 0 6
  .next (s.vectorDone { v with wb := Fin.ofNat 48 (if f.auxBit 6 then n else v.wb.val + n) } 0 false)

/-- VSETS (R237). -/
def execVsets (f : VWord) (s : State) : Host.Outcome State Fault Refusal :=
  let v := s.vec
  let imm := vsetsImm f
  let wide : Word := (BitVec.ofNat 34 imm).signExtend 64
  let old := v.scalar f.dst
  let x : Word := match bits f.aux.toNat 10 3 with
    | 0 => wide
    | 1 => BitVec.ofNat 64 (imm % 2 ^ 30 * 2 ^ 34 + old.toNat % 2 ^ 34)
    | 2 => old + wide
    | 3 => (vget v.lc (Fin.ofNat 3 imm)).zeroExtend 64
    | 4 => BitVec.ofNat 64 v.wb.val
    | _ => v.shape.zeroExtend 64
  .next (s.vectorDone { v with s := vset v.s (Fin.ofNat 16 f.dst.toNat) x } 0 false)

/-- VDONE (R237). -/
def execVdone (_ : VWord) (s : State) : Host.Outcome State Fault Refusal := .next (s.vectorEnd s.focus)

/-! ### Reading a kernel -/

/-- The loop structure of a kernel (R239): the ends of the open bodies, innermost first, and the index of the word. -/
def loopsOk (len : Nat) : (ends : List Nat) → (i : Nat) → List Instr → Bool
  | _, _, [] => true
  | ends, i, w :: r =>
    let live := ends.filter fun e => decide (i ≤ e)
    match w with
    | .loop f =>
      let last := i + 1 + bits f.aux.toNat 0 8
      decide (last < len) && live.all (fun e => decide (last ≤ e)) && decide (live.length < 3)
        && loopsOk len (last :: live) (i + 1) r
    | _ => loopsOk len live (i + 1) r

/-- A kernel that passes every load check (R84, R239). -/
def kernelLoads (l : List Word) : Bool :=
  match l.mapM decodeKernel with
  | some is => is.all kernelOk && loopsOk l.length [] 0 is
  | none => false

/-- The lines of a kernel read in order, with the causes met (R85). A miss stops them. -/
def State.kernelLines (s : State) (ag : Agent) : (n : Nat) → (va : Word) → Causes → List Byte →
    State × Option (Causes × List Byte)
  | 0, _, k, d => (s, some (k, d))
  | n + 1, va, k, d =>
    let r := s.readLineVa ag va
    match r.2 with
    | .ok (l, _) => r.1.kernelLines ag n (va + 64) k (d ++ l)
    | .wait => (r.1, none)
    | g => r.1.kernelLines ag n (va + 64) (k.or g.causes) (d ++ List.replicate 64 0)

/-- The vector engine reads and checks the kernel of its task (R84, R85), whose queues must be OPEN (R181); `false` when
the step ends with that. -/
def State.loadKernel (s : State) (c : CoreId) : State × Bool :=
  let e := s.vectorEntry c
  let va := e.word 19
  let n := (e.word 20).toNat
  if (s.queueGate c e).queue then (s.vectorFail c causeQueue, false)
  else if va.toNat % 8 ≠ 0 ∨ n = 0 ∨ n > 256 then (s.vectorFail c causeFormat, false)
  else
    let skip := va.toNat % 64
    let ag := { s.taskAgent c (.vector c) with exec := true }
    let r := s.kernelLines ag ((skip + 8 * n + 63) / 64) (va - BitVec.ofNat 64 skip) Causes.none []
    match r.2 with
    | none => (r.1.setVec c { (r.1.core c).vec with waiting := true }, false)
    | some (k, d) =>
      if k.stops then (r.1.vectorFail c k, false)
      else
        let l := (codesOf 8 n (d.drop skip)).map (BitVec.ofNat 64)
        if kernelLoads l then (r.1.setVec c { (r.1.core c).vec with kernel := l, waiting := false }, true)
        else (r.1.vectorFail c causeFormat, false)

/-- The word that the vector engine of a core issues; `none` when the step is something else. -/
def State.nextVector (s : State) (c : CoreId) : State × Option Instr :=
  let s := { s with focus := c }
  if s.vec.task.isNone || s.waiting (.unit (.vector c)) then (s, none)
  else if (s.vectorEntry c).causes.stops then (s.vectorEnd c, none)
  else
    let r := if s.vec.kernel.isEmpty then s.loadKernel c else (s, true)
    if !r.2 then (r.1, none)
    else
      let v := r.1.vec
      if v.loops.toList.any fun l => l.active && l.last + 1 == v.next then (r.1.vectorGo c, none)
      else match v.kernel[v.next]? with
        | some w => (r.1, decodeKernel w)
        | none => (r.1.vectorEnd c, none)

end Sys2Proof.Machine
end

