-- ==== Sys2Proof/Machine/Engine.lean ====
section
/-! DEFINITION. What the records of the matrix, transpose and copy engines share: descriptors and trip counts (R87, R88),
release checks (R90, R243), addresses (R242), checked accesses (R244), and running a record (R245, R246, R254). -/

namespace Sys2Proof

/-! ### Descriptors (Table 3.10) -/

def Desc.cls (d : Desc) : Nat := bits d.toNat 109 3
def Desc.row (d : Desc) : Nat := bits d.toNat 75 12
def Desc.col (d : Desc) : Nat := bits d.toNat 64 11
def Desc.group (d : Desc) : Nat := bits d.toNat 95 8
def Desc.rank (d : Desc) : Nat := bits d.toNat 87 8
def Desc.slot (d : Desc) : Fin 8 := Fin.ofNat 8 (bits d.toNat 106 3)
def Desc.offset (d : Desc) : Nat := bits d.toNat 64 42
def Desc.queue (d : Desc) : QNum := Fin.ofNat 16 (bits d.toNat 64 4)
def Desc.accRow (d : Desc) : Nat := bits d.toNat 64 7
def Desc.accCol (d : Desc) : Nat := bits d.toNat 71 9

/-- Linear tile-store address of a base (R242). -/
def Desc.base (d : Desc) : Nat := d.row * 2048 + d.col

/-- A stride, signed. -/
def Desc.stride (d : Desc) (j : Nat) : Int := (BitVec.ofNat 16 (bits d.toNat (16 * j) 16)).toInt

/-- A descriptor's class and base bits are legal for one of the classes an operand admits; strides of a link queue, and
stride0 of an accumulator, are zero (R90, R242). -/
def Desc.ok (d : Desc) (classes : List Nat) : Bool :=
  classes.contains d.cls && (match d.cls with
    | 0 => d == 0
    | 1 => bits d.toNat 87 22 == 0
    | 2 => bits d.toNat 103 6 == 0
    | 3 => true
    | 4 => bits d.toNat 68 41 == 0 && bits d.toNat 0 64 == 0
    | 5 => bits d.toNat 80 29 == 0 && bits d.toNat 0 16 == 0
    | _ => false)

/-- Trip count j as the record holds it. -/
def Rec.trip (r : Rec) (j : Nat) : Nat := bits r.trips.toNat (16 * j) 16

/-- Bits of SPEC and of the tail. -/
def Rec.specBits (r : Rec) (lo len : Nat) : Nat := bits r.spec.toNat lo len
def Rec.tailBits (r : Rec) (lo len : Nat) : Nat := bits r.tail.toNat lo len

/-- The rounding mode of a record. -/
def Rec.mode (r : Rec) : Rm := (rmOf r.rm.toNat).getD .rne

/-- An operand whose strides a record does not use has none (R90). -/
def Desc.unstrided (d : Desc) : Bool := bits d.toNat 0 64 == 0

/-- Every field that a record leaves unused is zero, among those of word 0 and the tail. -/
structure Unused where
  fa : Bool := true
  fb : Bool := true
  fc : Bool := true
  rm : Bool := true
  chain : Bool := true
  sat : Bool := true
  sasb : Bool := true
  deriving DecidableEq, Repr

def Rec.unusedOk (r : Rec) (u : Unused) : Bool :=
  (!u.fa || r.fa == 0) && (!u.fb || r.fb == 0) && (!u.fc || r.fc == 0) && (if u.rm then r.rm == 0 else r.rm != 7)
    && (!u.chain || !(r.cb || r.ce || r.ord)) && (!u.sat || !r.sat) && (!u.sasb || !(r.sa || r.sb))

/-- Byte displacement of an operand at loop indexes. -/
def Desc.shift (d : Desc) (i0 i1 i2 i3 : Int) : Int :=
  64 * (d.stride 0 * i0 + d.stride 1 * i1 + d.stride 2 * i2 + d.stride 3 * i3)

end Sys2Proof

namespace Sys2Proof.Machine

/-! ### Trip counts and bound values (R87) -/

/-- A bound register as a task reads it at its release. -/
def Entry.boundValue (e : Entry) (b : Nat) : Nat × Causes :=
  match e.bounds.find? fun p => p.1.val == b with
  | some p => (p.2.toNat, Causes.none)
  | none => (0, causeUndeclared)

/-- A count in the encoding of R87. -/
def Entry.count (e : Entry) (raw : Nat) : Nat × Causes :=
  if raw < 0x8000 then (raw, Causes.none)
  else if raw < 0x8040 then
    let v := e.boundValue (raw - 0x8000)
    (v.1, v.2.or (Causes.when (decide (v.1 > 32767)) causeFormat))
  else (0, causeFormat)

/-- The four trip counts of a record. -/
structure Trips where
  t0 : Nat
  t1 : Nat
  t2 : Nat
  t3 : Nat
  causes : Causes
  deriving DecidableEq, Repr

def Entry.trips (e : Entry) (r : Rec) : Trips :=
  let a := e.count (r.trip 0)
  let b := e.count (r.trip 1)
  let c := e.count (r.trip 2)
  let d := e.count (r.trip 3)
  ⟨a.1, b.1, c.1, d.1, ((a.2.or b.2).or c.2).or d.2⟩

/-- Iterations of loops 1-3, and the indexes of the n-th, T1 innermost. -/
def Trips.outer (t : Trips) : Nat := t.t1 * t.t2 * t.t3

def Trips.at3 (t : Trips) (n : Nat) : Nat × Nat × Nat := (n % t.t1, n / t.t1 % t.t2, n / t.t1 / t.t2)

/-- Iterations of all four loops, and the indexes of the n-th. -/
def Trips.all (t : Trips) : Nat := t.t0 * t.outer

/-! ### Addresses (R242) -/

/-- `n` bytes of a storage operand at byte `off` of the operand row that a displacement begins. -/
def State.operandAt (s : State) (c : CoreId) (e : Entry) (d : Desc) (write : Bool) (shift : Int) (off n : Nat) : Reach :=
  let lam : Int := d.base + shift
  match d.cls with
  | 1 => if lam < 0 then .bad else s.reachTile c e write (lam.toNat / 2048) (lam.toNat % 2048 + off) n
  | 2 =>
    match s.peerCore c d.group d.rank with
    | some k =>
      if lam < 0 then .bad
      else s.reachPeer c e write true d.group d.rank k (lam.toNat / 2048) (lam.toNat % 2048 + off) n
    | none => .bad
  | _ =>
    match s.slotStart e d.slot with
    | some b => s.reachVa e write ((b : Int) + d.offset + shift + off) n
    | none => .bad

/-- Column within its line of the byte at a displacement. -/
def State.operandCol (s : State) (e : Entry) (d : Desc) (shift : Int) : Nat :=
  let a : Int := if d.cls = 3 then ((s.slotStart e d.slot).getD 0 : Nat) + d.offset + shift else d.base + shift
  (a % 64).toNat

/-- An operand row: how its bytes are reached, and the column of its first within a line. -/
structure Row where
  reach : (off n : Nat) → Reach
  col : Nat

def State.operandRow (s : State) (c : CoreId) (e : Entry) (d : Desc) (write : Bool) (shift : Int) : Row :=
  ⟨s.operandAt c e d write shift, s.operandCol e d shift⟩

/-- A row of a queue slot that begins at slot byte `b` (R254). -/
def State.slotRow (s : State) (c : CoreId) (n : QNum) (i : Fin 8) (b : Nat) : Row :=
  let q := s.queue c n
  ⟨fun off _ =>
    let x := b + off
    .found (.tile c (q.box.row + i.val * q.srows + x / q.box.cols) (q.box.col + x % q.box.cols)), b % 64⟩

/-! ### Release checks (R243) -/

/-- Extent of a sum of strides over loops of given counts: its least and greatest value. -/
def extent : List (Int × Nat) → Int × Int
  | [] => (0, 0)
  | (st, n) :: r =>
    let e := extent r
    let v := st * ((n : Int) - 1)
    (e.1 + min 0 v, e.2 + max 0 v)

/-- Residues modulo 32 of a sum of strides over loops. -/
def residues : List (Int × Nat) → List Nat
  | [] => [0]
  | (st, n) :: r =>
    (((List.range (min n 32)).map fun (i : Nat) => (residues r).map fun (x : Nat) => ((st * (i : Int) + (x : Int)) % 32).toNat).flatten).dedup

/-- Checks 4-7 of R243 on a storage operand: `loops` are its strides with their counts, `first` a fixed displacement in
lines, `bytes` the length of an operand row, and `w` the element width. -/
def State.hull (s : State) (c : CoreId) (e : Entry) (d : Desc) (first : Int) (loops : List (Int × Nat)) (bytes w : Nat) :
    Causes :=
  if d.cls = 2 ∧ (s.peerCore c d.group d.rank).isNone then causeAccess
  else if (loops.any fun l => l.2 == 0) || bytes == 0 then Causes.none
  else
    let x := extent loops
    if d.cls = 3 then
      let b : Int := ((s.slotStart e d.slot).getD 0 : Nat) + d.offset
      (Causes.when (decide (b + 64 * (first + x.1) < 0) || decide (b + 64 * (first + x.2) + bytes > 2 ^ 58)) causeAccess).or
        (Causes.when (b % w != 0) causeFormat)
    else
      let lo : Int := d.base + 64 * (first + x.1)
      let hi : Int := d.base + 64 * (first + x.2)
      let crosses (r : Nat) : Bool := decide (((d.base : Int) + 64 * (first + r)) % 2048 + bytes > 2048)
      Causes.when (decide (lo < 0) || decide (hi / 2048 > 3071) || decide (hi / 2048 ≥ s.annexRow (s.partOf c))
        || (residues loops).any crosses) causeAccess

/-- Check 1 of R243: accumulator rows and columns; an FP64 element begins at an even column in every iteration (R250). -/
def accHull (d : Desc) (rows span : Nat) (t : Trips) (even : Bool) : Causes :=
  if rows = 0 ∨ span = 0 ∨ t.outer = 0 then Causes.none
  else
    let x := extent [(d.stride 1, t.t1), (d.stride 2, t.t2), (d.stride 3, t.t3)]
    let fits := decide (d.accRow + rows ≤ 128) && decide (0 ≤ d.accCol + x.1) && decide (d.accCol + x.2 + span ≤ 512)
    let odd (l : Int × Nat) : Bool := l.2 != 1 && l.1 % 2 != 0
    let uneven := d.accCol % 2 != 0 || [(d.stride 1, t.t1), (d.stride 2, t.t2), (d.stride 3, t.t3)].any odd
    Causes.when (!fits || (even && uneven)) causeFormat

/-- Checks 2, 3 and 8 of R243 on a link-queue operand that holds `bytes` in a slot. -/
def State.queueHull (s : State) (c : CoreId) (e : Entry) (d : Desc) (produces : Bool) (bytes : Nat) : Causes :=
  if d.cls ≠ 4 then Causes.none
  else
    let q := s.queue c d.queue
    let declared := (e.slotsOf 5).any fun n => bits (e.region n) 5 4 == d.queue.val && gives produces (e.region n)
    ((Causes.when (q.state != .opened) causeQueue).or
      (Causes.when (q.state == .opened && (q.outbound != produces || decide (q.slotBytes < bytes))) causeFormat)).or
      (Causes.when (!declared) causeUndeclared)

/-! ### Reading and writing operands (R244) -/

/-- Pieces of `n` bytes at a column that lie within one line each: offset and length. -/
def pieces (col n : Nat) : List (Nat × Nat) :=
  if col % 64 + n ≤ 64 then [(0, n)] else [(0, 64 - col % 64), (64 - col % 64, n - (64 - col % 64))]

/-- An element as it was read: its bytes, and the tags of the lines they came from. A suppressed read is zero data with
the plain tag. -/
structure Elem where
  data : List Byte
  tags : List Word
  deriving DecidableEq, Repr

/-- Bytes of an element of `w` bits. -/
def elemBytes (w : Nat) : Nat := (w + 7) / 8

/-- The pieces of the elements of `w` bits from `first` on of a row, element by element. -/
def Row.elems (row : Row) (w first n : Nat) : List (List (Nat × Reach)) :=
  (List.range n).map fun k =>
    let off := (first + k) * w / 8
    (pieces (row.col + off) (elemBytes w)).map fun p => (p.2, row.reach (off + p.1) p.2)

/-- Found pieces gathered into elements. -/
def gather : List (List (Nat × Reach)) → List (Option Found) → List Elem
  | [], _ => []
  | ps :: r, fs =>
    let mine := ps.zip (fs.take ps.length)
    let bytes := (mine.map fun p => match p.2 with
      | some (some x) => (x.1.drop x.2.2).take p.1.1
      | _ => List.replicate p.1.1 0).flatten
    let tags := mine.map fun p => match p.2 with
      | some (some x) => x.2.1
      | _ => zeroTag
    ⟨bytes, tags⟩ :: gather r (fs.drop ps.length)

/-- The elements of several rows read in order; `none` waits. -/
def State.readElems (s : State) (ag : Agent) (es : List (List (Nat × Reach))) : State × Option (Causes × List Elem) :=
  let r := s.readAll ag (es.flatten.map fun p => some p.2) ⟨none, Causes.none, []⟩
  (r.1, r.2.map fun a => (a.causes, gather es a.found.reverse))

/-- A whole line read at a location; a suppressed one is a line of zeros. -/
def State.readWhole (s : State) (ag : Agent) (p : Reach) : State × Option (Causes × List Byte × Word) :=
  match p with
  | .bad => (s, some (causeAccess, [], 0))
  | .suppressed => (s, some (causeUndeclared, List.replicate 64 0, zeroTag))
  | .found l =>
    let r := s.readLoc ag l
    (r.1, match r.2 with
      | .ok x => some (Causes.none, x)
      | .wait => none
      | g => some (g.causes, [], 0))

/-- An element resolved as a type (R55): its type, scale and code; `none` is DATA. `i` is its index in its row. -/
def Elem.read (x : Elem) (t : Ty) (w i : Nat) : Option ((El × Scale) × Nat) :=
  let code := if w = 4 then ofBytes x.data / 16 ^ (i % 2) % 16 else ofBytes x.data
  if x.tags.all fun g => (resolve t g).isSome then
    match x.tags with
    | g :: _ => (resolve t g).map fun r => (r, code)
    | [] => none
  else none

/-- The writes of codes of `w` bits to a row, from its first element. -/
def Row.writes (row : Row) (w : Nat) (codes : List Nat) : List (Reach × List Byte) :=
  (codes.zipIdx.map fun p =>
    let off := p.2 * w / 8
    (pieces (row.col + off) (elemBytes w)).map fun q =>
      (row.reach (off + q.1) q.2, ((bytesOf (elemBytes w) p.1).drop q.1).take q.2)).flatten

/-! ### Running a record -/

/-- The engine of a kind on a core. -/
def Core.engine (k : Core) (kind : Kind) : Engine :=
  match kind with
  | .matrix => k.matrix
  | .transpose => k.transpose
  | _ => k.copy

def State.engine (s : State) (c : CoreId) (kind : Kind) : Engine := (s.core c).engine kind

def State.setEngine (s : State) (c : CoreId) (kind : Kind) (x : Engine) : State :=
  let k := s.core c
  s.setCore c (match kind with
    | .matrix => { k with matrix := x }
    | .transpose => { k with transpose := x }
    | _ => { k with copy := x })

def unitOf (c : CoreId) : Kind → UnitId
  | .matrix => .matrix c
  | .transpose => .transpose c
  | _ => .copy c

/-- The task that an engine runs. -/
def Engine.handle (x : Engine) : Option Handle :=
  match x.job with
  | .task h => some h
  | _ => none

/-- The task of an engine completes, having met causes (R245, R270). The slot that a record holds when it stops in the middle
of a step is left as it is, DRAINING or FILLING: the spec says nothing of it (DESIGN CHOICE, log 80). -/
def State.endRecord (s : State) (c : CoreId) (kind : Kind) (k : Causes) : State :=
  match (s.engine c kind).handle with
  | some h =>
    let s := (if k.stops then s.unpark (.unit (unitOf c kind)) else s).cause c h k
    let s := if kind = .matrix then s.failChain c h (s.entry c h).causes.status else s
    s.completeUnit (unitOf c kind) c h
  | none => s

/-- TASK_COMPLETION (R44, R301): a task whose work is done completes, once its writes to other devices are answered
(R217, R311); a refused write of a matrix task fails its chain (R248). -/
def execTaskCompletion (core : CoreId) (h : Handle) (s : State) : Host.Outcome State Fault Refusal :=
  let e := s.entry core h
  if s.unanswered (e.unit core) core h then .next (s.once (.event (.taskCompletion core h) .none))
  else
    let s := if e.kind = 2 ∧ e.state = .running then s.failChain core h e.causes.status else s
    .next (s.complete core h)

/-- The outcome of one unit of a record's work: done; waiting, for a queue slot or an access; or stopped by causes. -/
inductive Work where
  | done (s : State)
  | wait (s : State) (queue : Bool)
  | stop (s : State) (k : Causes)

/-- Units of a record from `i` on, one after another; a queue that has broken, a refused request to another device, or a
part of a write that failed stops them (R181, R245, R347, R378). -/
def runUnits (c : CoreId) (kind : Kind) (h : Handle) (work : Nat → State → Work) : (n i : Nat) → State → State
  | 0, _, s => s.endRecord c kind Causes.none
  | n + 1, i, s =>
    if (s.entry c h).causes.queue || (s.entry c h).causes.access || (s.entry c h).causes.data then s.endRecord c kind Causes.none
    else match work i s with
      | .done s =>
        let s := s.setEngine c kind { s.engine c kind with progress := i + 1 }
        if s.waiting (.unit (unitOf c kind)) then s else runUnits c kind h work n (i + 1) s
      | .wait s q => s.setEngine c kind { s.engine c kind with waiting := q }
      | .stop s k => s.endRecord c kind k

/-- A record in the engine of a kind: the checks of its release (R90, then R243), and its units from where it stands.
An illegal place in a chain is a check of R90, and a failed chain stops a member before it acts (R248). -/
def State.runRecord (s : State) (kind : Kind) (bad hull : Causes) (units : Nat)
    (work : CoreId → Handle → Entry → Nat → State → Work) : Host.Outcome State Fault Refusal :=
  let c := s.focus
  let x := s.engine c kind
  match x.handle with
  | none => .next s
  | some h =>
    let e := s.entry c h
    let failed := (s.core c).chains.failed.find? fun f => kind == .matrix && f.1 == e.chain.id
    let hull := hull.or (s.queueGate c e)
    if !x.started && (bad.stops || e.chain.illegal) then .next (s.endRecord c kind (bad.or (Causes.when e.chain.illegal causeFormat)))
    else if !x.started && hull.status != 0 then .next (s.endRecord c kind (bad.or hull))
    else
      let s := (s.cause c h bad).setEngine c kind { x with started := true, waiting := false }
      match failed with
      | some f => .next (s.endRecord c kind (match f.2.toNat with
          | 3 => causeData
          | 2 => causeAccess
          | _ => causeQueue))
      | none => .next (runUnits c kind h (work c h e) (units - x.progress) x.progress s)

/-- What a record does (R242): the causes of R90 it meets of itself, those of its release checks (R243), how many units of
work it has, and each unit. -/
structure Plan where
  bad : Causes
  hull : Causes
  units : Nat
  unit : CoreId → Handle → Entry → Nat → State → Work

/-- The record of the task that an engine of the core in focus runs, by its plan. -/
def State.runPlan (s : State) (kind : Kind) (p : Entry → Plan) : Host.Outcome State Fault Refusal :=
  match (s.engine s.focus kind).handle with
  | none => .next s
  | some h =>
    let p := p (s.entry s.focus h)
    s.runRecord kind p.bad p.hull p.units p.unit

/-- The waiter of a task's remote writes. -/
def writerOf (c : CoreId) (kind : Kind) (h : Handle) : Waiter := .unit (unitOf c kind) c h

/-! ### Queue slots (R254) -/

/-- The slot a unit holds of a queue, taken if none is held; `none` waits. -/
def State.takeSlot (s : State) (c : CoreId) (kind : Kind) (d : Desc) (produces : Bool) : State × Option (Option (Fin 8)) :=
  if d.cls ≠ 4 then (s, some none)
  else match (s.engine c kind).held.find? fun p => p.1 == d.queue with
    | some p => (s, some (some p.2))
    | none =>
      let r := if produces then s.fillSlot c d.queue else s.drainSlot c d.queue
      match r.2 with
      | none => (r.1, none)
      | some i =>
        let x := r.1.engine c kind
        (r.1.setEngine c kind { x with held := x.held ++ [(d.queue, i)] }, some (some i))

/-- The slot of an iteration is finished: a consumer's becomes EMPTY, a producer's READY. -/
def State.dropSlot (s : State) (c : CoreId) (kind : Kind) (d : Desc) (produces : Bool) : State :=
  match (s.engine c kind).held.find? fun p => d.cls == 4 && p.1 == d.queue with
  | none => s
  | some p =>
    let x := s.engine c kind
    let s := s.setEngine c kind { x with held := x.held.filter fun q => q.1 != d.queue }
    if produces then s.readySlot c d.queue p.2 else s.emptySlot c d.queue p.2

/-- The stochastic draw of a record's site: VSEED at release and the task's coordinate (Table 2.10). -/
def Entry.draw (e : Entry) (rm : Rm) (x y : Nat) : Nat :=
  if rm = .rsr then
    (rand32 (randKey e.seed (e.field 0 16 16) (e.field 0 32 16) (e.field 0 48 16)) (BitVec.ofNat 32 x)
      (BitVec.ofNat 32 y)).toNat
  else 0

/-- The record of an engine task, decoded; `none` is an undefined OP or one of another kind (R89, R90). -/
def Entry.record (e : Entry) (kind : Kind) : Option Instr :=
  let op := bits e.recordBits 56 8
  let mine := match kind with
    | .matrix => op / 16 == 1
    | .transpose => op / 16 == 2
    | _ => op / 16 == 3
  if mine then decodeRecord e.recordBits else none

/-- The record that an engine issues; `none` when the step is something else. -/
def State.nextRecord (s : State) (c : CoreId) (kind : Kind) : State × Option Instr :=
  let s := { s with focus := c }
  match if s.waiting (.unit (unitOf c kind)) then none else (s.engine c kind).handle with
  | none => (s, none)
  | some h =>
    match (s.entry c h).record kind with
    | some i => (s, some i)
    | none => (s.endRecord c kind causeFormat, none)

end Sys2Proof.Machine
end

