-- ==== Sys2Proof/Machine/Matrix.lean ====
section
/-! DEFINITION. The matrix engine: MMA, DMMA, MZERO, MLDC and MDRAIN (R248-R257), and the group form (R253). -/

namespace Sys2Proof.Machine

/-! ### The accumulator (R248) -/

/-- The code of an accumulator element of `b` bytes at a row and 32-bit column. -/
def accRead (m : Memory) (row col b : Nat) : Nat :=
  ofBytes ((List.range b).map fun i => Memory.byte m (4 * (row * 512 + col) + i))

/-- Consecutive codes of `b` bytes written from a row and column. -/
def accWrite (m : Memory) (row col b : Nat) (l : List Nat) : Memory := m.write (4 * (row * 512 + col)) (bytesOfCodes b l)

def State.acc (s : State) (c : CoreId) : Memory := (s.core c).acc

def State.setAcc (s : State) (c : CoreId) (m : Memory) : State := s.setCore c { s.core c with acc := m }

/-- f64, f32 or i32 (R248). -/
def accType (t : BitVec 5) : Bool := t == 0x00#5 || t == 0x01#5 || t == 0x0B#5

/-- 32-bit columns of an accumulator element. -/
def accCols (t : BitVec 5) : Nat := if t = 0x00#5 then 2 else 1

/-- The accumulator column at loop indexes (R242). -/
def accColAt (d : Desc) (i1 i2 i3 : Nat) : Nat :=
  ((d.accCol : Int) + d.stride 1 * i1 + d.stride 2 * i2 + d.stride 3 * i3).toNat

/-- MROWS (Table 8.2). -/
def Entry.mrows (e : Entry) (raw : Nat) : Nat × Causes :=
  if raw = 0 then (128, Causes.none)
  else if raw ≤ 0x80 then (raw, Causes.none)
  else if raw < 0xC0 then (0, causeFormat)
  else
    let v := e.boundValue (raw - 0xC0)
    (v.1, v.2.or (Causes.when (decide (v.1 > 128)) causeFormat))

/-- KROWS (Table 8.2); `none`: every k is valid. A bound value above 32767 is accepted: R90 does not say whether its limit
on bound values covers KROWS (DESIGN CHOICE, log 79). -/
def Entry.krows (e : Entry) (raw : Nat) : Option Nat × Causes :=
  if raw = 0 then (none, Causes.none)
  else if raw < 0x8000 then (some raw, Causes.none)
  else if raw < 0x8040 then
    let v := e.boundValue (raw - 0x8000)
    (some v.1, v.2)
  else (none, causeFormat)

/-! ### MMA and DMMA (R249-R252) -/

/-- The element types that the exact step admits (R249). -/
def exactType (t : BitVec 5) : Bool :=
  [0x02, 0x03, 0x04, 0x05, 0x06, 0x07, 0x08, 0x09, 0x10, 0x11].contains t.toNat

/-- Width of an operand's elements in bits: its type's, or that of WA or WB for desc. -/
def operandWidth (t : BitVec 5) (w : Nat) : Nat :=
  if t = 0x07#5 then 4 * 2 ^ w
  else match tyOf t with
    | some u => u.width
    | none => 8

/-- SA and SB fit a type (R249). -/
def signOk (t : BitVec 5) (sg : Bool) : Bool :=
  if t = 0x08#5 ∨ t = 0x09#5 then sg else if t = 0x06#5 ∨ t = 0x07#5 then true else !sg

/-- A multiply record as it runs. -/
structure Mma where
  trips : Trips
  mrows : Nat
  krows : Option Nat
  wa : Nat
  wb : Nat
  bad : Causes
  deriving DecidableEq, Repr

/-- The fields of an MMA or DMMA record, with the checks of R90 (R249). -/
def Entry.mma (e : Entry) (r : Rec) (double : Bool) : Mma :=
  let t := e.trips r
  let m := e.mrows (r.specBits 0 8)
  let k := e.krows (r.specBits 8 16)
  let wa := r.specBits 24 2
  let wb := r.specBits 26 2
  let types := if double then r.fa == 0x00#5 && r.fb == 0x00#5 && r.fc == 0x00#5
    else if r.fa == 0x01#5 || r.fb == 0x01#5 then r.fa == 0x01#5 && r.fb == 0x01#5 && r.fc == 0x01#5
    else exactType r.fa && exactType r.fb && (r.fc == 0x01#5 || r.fc == 0x0B#5)
  let i32 := r.fc == 0x0B#5
  let gang := r.specBits 28 1 == 1
  let ok := types && r.rm != 7 && (!r.sat || i32) && (!i32 || r.rm == 0) && signOk r.fa r.sa && signOk r.fb r.sb
    && r.specBits 29 3 == 0 && (if r.fa = 0x07#5 then wa != 3 else wa == 0) && (if r.fb = 0x07#5 then wb != 3 else wb == 0)
    && r.tailBits 24 24 == 0 && (gang || r.tail == 0)
    && r.a.ok [1, 2, 4] && r.b.ok (if gang then [2] else [1, 2, 4]) && r.c.ok [5] && r.c.stride 1 == 0
    && !(r.a.cls == 4 && r.b.cls == 4 && r.a.queue == r.b.queue)
    && decide (t.t0 ≤ if double then 256 else 512)
  ⟨t, m.1, k.1, operandWidth r.fa wa, operandWidth r.fb wb,
    ((t.causes.or m.2).or k.2).or (Causes.when (!ok) causeFormat)⟩

/-- Bytes of a row of `n` elements, and the same rounded up to lines (R254). -/
def rowBytes (w n : Nat) : Nat := (n * w + 7) / 8

def rowPitch (w n : Nat) : Nat := roundUp (rowBytes w n) 64

/-- Columns rounded up to groups of 16. -/
def Mma.groups (m : Mma) : Nat := (m.trips.t0 + 15) / 16

/-- Valid k of a K-step (R251). -/
def Mma.valid (m : Mma) (i1 : Nat) : Nat :=
  match m.krows with
  | none => 64
  | some k => min 64 (k - 64 * i1)

/-- The checks of R243 on a multiply record: its operands as R250 lays them out, over the whole loop nest, padding
included (log 59). -/
def State.mmaHull (s : State) (c : CoreId) (e : Entry) (r : Rec) (m : Mma) : Causes :=
  let t := m.trips
  let cols := accCols r.fc
  if t.t0 = 0 then Causes.none
  else
    let operand (d : Desc) (rows bytes : Nat) : Causes :=
      if d.cls = 4 then Causes.none
      else s.hull c e d 0 [(d.stride 0, rows), (d.stride 1, t.t1), (d.stride 2, t.t2), (d.stride 3, t.t3)] bytes 1
    ((((accHull r.c 128 (cols * 16 * m.groups) t (cols == 2)).or (operand r.a 128 (rowBytes m.wa 64))).or
      (operand r.b 64 (rowBytes m.wb t.t0))).or
      (s.queueHull c e r.a false (m.mrows * rowPitch m.wa 64))).or (s.queueHull c e r.b false (64 * rowPitch m.wb t.t0))

/-- An element as an MMA operand (R249): 4-bit type 00 reads by SA or SB, desc has the width of WA or WB, and with FC =
i32 only integers are admitted; `none` is DATA. -/
def mmaElem (t : BitVec 5) (w : Nat) (sg flt : Bool) (x : Elem) (i : Nat) : Option Valued :=
  match tyOf t with
  | none => none
  | some ty =>
    match x.read ty w i with
    | none => none
    | some ((el, sc), code) =>
      let el' := if el = .c4 0 then .int ⟨sg, 4⟩ else el
      let isInt := match el' with
        | .int _ => true
        | _ => false
      if el.width ≠ w ∨ (!flt && !isInt) then none else some (readElement flt (el', sc) code)

/-- Rows of operand values; `none` is DATA. -/
def mmaRows (t : BitVec 5) (w : Nat) (sg flt : Bool) (first n : Nat) (l : List Elem) : Option (List (List Valued)) :=
  (runsOf n l.length l).mapM fun row => (row.zipIdx).mapM fun p => mmaElem t w sg flt p.1 (first + p.2)

/-- One accumulator element of a K-step (R251): code and flags. -/
def mmaElement (r : Rec) (e : Entry) (x site code : Nat) (terms : List (Val × Val)) : Coded :=
  let draw := e.draw r.mode x site
  if terms.isEmpty then ⟨code, 0⟩
  else match elOf r.fc with
    | .fl g =>
      if r.fa = 0x00#5 ∨ r.fa = 0x01#5 then
        terms.foldl (fun a p =>
          let k := fusedStep g r.mode draw (g.decode a.code) p.1 p.2
          ⟨k.code, a.flags ||| k.flags⟩) ⟨code, 0⟩
      else exactStep true r.mode false draw (Fl.f32.decode code) terms
    | _ => exactStep false r.mode r.sat draw (Val.ofInt (signed 32 code)) terms

/-- Row `row` of an operand at loop indexes: of its slot, or of storage. -/
def State.mmaRow (s : State) (c : CoreId) (e : Entry) (d : Desc) (slot : Option (Fin 8)) (pitch row : Nat)
    (i : Nat × Nat × Nat) : Row :=
  match slot with
  | some n => s.slotRow c d.queue n (row * pitch)
  | none => s.operandRow c e d false (d.shift row i.1 i.2.1 i.2.2)

/-- One column group of one K-step (R251); the site is the count of K-steps applied before it (Table 2.10). -/
def State.mmaGroup (s : State) (c : CoreId) (e : Entry) (h : Handle) (r : Rec) (m : Mma) (sa sb : Option (Fin 8))
    (step g : Nat) : Work :=
  let i := m.trips.at3 step
  let kv := m.valid i.1
  let n := min 16 (m.trips.t0 - 16 * g)
  let ag := s.taskAgent c (.matrix c)
  let flt := r.fc != 0x0B#5
  let cols := accCols r.fc
  let x := (s.engine c .matrix).x
  let as_ := ((List.range m.mrows).map fun row =>
    (s.mmaRow c e r.a sa (rowPitch m.wa 64) row i).elems m.wa 0 kv).flatten
  let bs := ((List.range kv).map fun row =>
    (s.mmaRow c e r.b sb (rowPitch m.wb m.trips.t0) row i).elems m.wb (16 * g) n).flatten
  if kv = 0 then .done s
  else
    let ra := s.readElems ag as_
    match ra.2 with
    | none => .wait ra.1 false
    | some (ka, ea) =>
      let rb := ra.1.readElems ag bs
      match rb.2 with
      | none => .wait rb.1 false
      | some (kb, eb) =>
        let s := rb.1
        let k := ka.or kb
        let va := mmaRows r.fa m.wa r.sa flt 0 kv ea
        let vb := mmaRows r.fb m.wb r.sb flt (16 * g) n eb
        if k.stops then .stop s k
        else match va, vb with
          | some xs, some ys =>
            let read : Sticky := ((xs ++ ys).flatten).foldl (fun a v => a ||| v.flags) 0
            let cc := accColAt r.c i.1 i.2.1 i.2.2 + cols * 16 * g
            let byCol := rowsOfVals n ys
            let res := xs.zipIdx.foldl (fun (a : Memory × Sticky) row =>
              let line := byCol.zipIdx.map fun col =>
                let at_ := cc + cols * col.2
                mmaElement r e x ((r.c.accRow + row.2) * 512 + at_) (accRead a.1 (r.c.accRow + row.2) at_ (4 * cols))
                  ((row.1.map (·.val)).zip (col.1.map (·.val)))
              (accWrite a.1 (r.c.accRow + row.2) cc (4 * cols) (line.map Coded.code), a.2 ||| flagsOf line))
              (s.acc c, 0)
            .done (((s.setAcc c res.1).cause c h k).raiseTask c h (read ||| res.2))
          | _, _ => .stop s (k.or causeData)
where
  /-- The columns of a list of rows. -/
  rowsOfVals : Nat → List (List Valued) → List (List Valued)
    | 0, _ => []
    | n + 1, ls => (ls.filterMap List.head?) :: rowsOfVals n (ls.map List.tail)

/-- The engine of a kind has made one more of the counted steps of its record (Table 2.10). -/
def State.countStep (s : State) (c : CoreId) (kind : Kind) : State :=
  s.setEngine c kind { s.engine c kind with x := (s.engine c kind).x + 1 }

/-- The slots of both operands of a K-step, taken if they are not held; `none` waits (R254). -/
def State.mmaSlots (s : State) (c : CoreId) (r : Rec) : State × Option (Option (Fin 8) × Option (Fin 8)) :=
  let a := s.takeSlot c .matrix r.a false
  match a.2 with
  | none => (a.1, none)
  | some sa =>
    let b := a.1.takeSlot c .matrix r.b false
    (b.1, b.2.map fun sb => (sa, sb))

/-- One unit of a multiply record: a column group, with its slots taken before the first group and finished after the
last (R254). -/
def State.mmaUnit (s : State) (c : CoreId) (h : Handle) (e : Entry) (r : Rec) (m : Mma) (i : Nat) : Work :=
  let g := i % m.groups
  let t := s.mmaSlots c r
  match t.2 with
  | none => .wait t.1 true
  | some l =>
    match t.1.mmaGroup c e h r m l.1 l.2 (i / m.groups) g with
    | .done s =>
      .done (if g + 1 = m.groups then
        ((s.dropSlot c .matrix r.a false).dropSlot c .matrix r.b false).countStep c .matrix else s)
    | w => w

/-- Units of a multiply record: column groups of every K-step; none for an empty operand. -/
def Mma.units (m : Mma) : Nat := if m.trips.t0 = 0 then 0 else m.trips.outer * m.groups

/-! ### The group form (R253) -/

/-- The members of a gang or ring: the cores of its group, when the group has at most `limit` members, all in the
issuing core's cluster, itself among them. -/
def State.gangCores (s : State) (c : CoreId) (group limit : Nat) : Option (List CoreId) :=
  let p := s.partOf c
  let g := s.group (Fin.ofNat 256 group)
  let ls := setBits 160 g.members.toNat
  let cs := ls.filterMap (s.physical p)
  if g.part.toNat = p.val ∧ ls.length ≤ limit ∧ cs.length = ls.length ∧ cs.contains c ∧ cs.all fun k => k.val / 8 = c.val / 8
  then some cs else none

/-- The record that a core's engine of a kind has taken, with its task. -/
def State.taken (s : State) (kind : Kind) (c : CoreId) : Option (Handle × Instr) :=
  match (s.engine c kind).handle with
  | some h => ((s.entry c h).record kind).map fun i => (h, i)
  | none => none

/-- A multiply record of the group form with a group and tag. -/
def gangOf (i : Instr) : Option (Rec × Bool) :=
  match i with
  | .mma r => if r.specBits 28 1 = 1 then some (r, false) else none
  | .dmma r => if r.specBits 28 1 = 1 then some (r, true) else none
  | _ => none

/-- The gang member at a core that matches a record's GROUP and TAG. -/
def State.gangMember (s : State) (c : CoreId) (r : Rec) : Option (Handle × Rec × Bool) :=
  match s.taken .matrix c with
  | some (h, i) =>
    match gangOf i with
    | some (m, d) => if m.tailBits 0 24 = r.tailBits 0 24 then some (h, m, d) else none
    | none => none
  | none => none

/-- Every member of the gang of the record at a core, once all have been released. -/
def State.gang (s : State) (c : CoreId) (r : Rec) : Option (List (CoreId × Handle × Rec × Bool)) :=
  match s.gangCores c (r.tailBits 0 8) 4 with
  | none => none
  | some cs => cs.mapM fun k => (s.gangMember k r).map fun x => (k, x)

/-- Gang members agree in FB, WB, KROWS, T0-T3 and the B descriptor, bound values as each reads them. -/
def State.gangAgrees (s : State) (l : List (CoreId × Handle × Rec × Bool)) : Bool :=
  let view (x : CoreId × Handle × Rec × Bool) :=
    let m := (s.entry x.1 x.2.1).mma x.2.2.1 x.2.2.2
    (x.2.2.1.fb, x.2.2.1.specBits 26 2, m.krows, m.trips.t0, m.trips.t1, m.trips.t2, m.trips.t3, x.2.2.1.b, x.2.2.2)
  match l with
  | [] => true
  | x :: r => r.all fun y => view y == view x

/-- The queue slots of a unit, of every member before any of them acts: `false` when a member waits. -/
def gangSlots : List (CoreId × Handle × Rec × Bool) → State → State × Bool
  | [], s => (s, true)
  | x :: r, s =>
    let t := s.mmaSlots x.1 x.2.2.1
    if t.2.isSome then gangSlots r t.1
    else ((gangSlots r (t.1.setEngine x.1 .matrix { t.1.engine x.1 .matrix with waiting := true })).1, false)

/-- One unit of every member, one after another, their slots at hand. -/
def gangUnit (i : Nat) : List (CoreId × Handle × Rec × Bool) → State → Work
  | [], s => .done s
  | x :: r, s =>
    let e := s.entry x.1 x.2.1
    match s.mmaUnit x.1 x.2.1 e x.2.2.1 (e.mma x.2.2.1 x.2.2.2) i with
    | .done s => gangUnit i r (s.setEngine x.1 .matrix { s.engine x.1 .matrix with progress := i + 1 })
    | w => w

/-- Every member of a gang completes, having met causes (R253). -/
def State.endGang (s : State) (l : List (CoreId × Handle × Rec × Bool)) (k : Causes) : State :=
  l.foldl (fun s x => s.endRecord x.1 .matrix k) s

/-- The units of a gang, all members together; an error stops every member with the same status. -/
def gangRun (l : List (CoreId × Handle × Rec × Bool)) : (n i : Nat) → State → State
  | 0, _, s => s.endGang l Causes.none
  | n + 1, i, s =>
    if l.any fun x => (s.entry x.1 x.2.1).causes.queue then s.endGang l causeQueue
    else
      let t := gangSlots l s
      if !t.2 then t.1
      else match gangUnit i l t.1 with
        | .done s => gangRun l n (i + 1) s
        | .wait s _ => s
        | .stop s k => s.endGang l k

/-- The cause with which a failed chain stops a member (R248). -/
def State.chainFailure (s : State) (c : CoreId) (e : Entry) : Causes :=
  match (s.core c).chains.failed.find? fun f => f.1 == e.chain.id with
  | none => Causes.none
  | some f => match f.2.toNat with
    | 3 => causeData
    | 2 => causeAccess
    | _ => causeQueue

/-- What a gang member's own release checks give (R253, R248): of R90, and of R243, R181 and its chain. A B descriptor that
names another group than GROUP gives ACCESS, a status that R253 does not name (DESIGN CHOICE, log 77). -/
def State.gangCauses (s : State) (x : CoreId × Handle × Rec × Bool) : Causes × Causes :=
  let e := s.entry x.1 x.2.1
  let r := x.2.2.1
  let m := e.mma r x.2.2.2
  (m.bad.or (Causes.when e.chain.illegal causeFormat),
    (((s.mmaHull x.1 e r m).or (s.queueGate x.1 e)).or (s.chainFailure x.1 e)).or
      (Causes.when (r.b.group != r.tailBits 0 8) causeAccess))

/-- GANG_START (R253): once every member's record has been released, all are checked, and all proceed together; what
stops one stops all. -/
def execGangStart (core : CoreId) (s : State) : Host.Outcome State Fault Refusal :=
  match s.taken .matrix core with
  | none => .next s
  | some (h, i) =>
    match gangOf i with
    | none => .next s
    | some (r, d) =>
      match s.gang core r with
      | none => .next s
      | some l =>
        let started := l.all fun x => (s.engine x.1 .matrix).started
        let ks := l.map s.gangCauses
        let bad := (ks.foldl (fun a k => a.or k.1) Causes.none).or (Causes.when (!s.gangAgrees l) causeFormat)
        let hull := ks.foldl (fun a k => a.or k.2) Causes.none
        if !started && bad.stops then .next (s.endGang l bad)
        else if !started && hull.status != 0 then .next (s.endGang l (bad.or hull))
        else
          let m := (s.entry core h).mma r d
          let done := (s.engine core .matrix).progress
          let s := l.foldl (fun s x => (s.cause x.1 x.2.1 (s.gangCauses x).1).setEngine x.1 .matrix
            { s.engine x.1 .matrix with started := true, waiting := false }) s
          .next (gangRun l (m.units - done) done s)

/-- The units of a multiply record that is in no gang. -/
def State.mmaPlan (s : State) (e : Entry) (r : Rec) (double : Bool) : Plan :=
  let m := e.mma r double
  .mk m.bad (s.mmaHull s.focus e r m) m.units fun c h e i s => s.mmaUnit c h e r m i

/-- A multiply record: alone, or in its gang, for whose members it waits whatever its own checks say, since what stops
one member stops all (R253, log 59). -/
def State.multiply (s : State) (r : Rec) (double : Bool) : Host.Outcome State Fault Refusal :=
  let c := s.focus
  match (s.engine c .matrix).handle with
  | none => .next s
  | some h =>
    if r.specBits 28 1 = 0 then s.runPlan .matrix fun e => s.mmaPlan e r double
    else if (s.gangCores c (r.tailBits 0 8) 4).isNone then
      let e := s.entry c h
      let m := e.mma r double
      s.runRecord .matrix m.bad ((s.mmaHull c e r m).or causeAccess) 0 fun _ _ _ _ s => .done s
    else
      let s := s.setEngine c .matrix { s.engine c .matrix with waiting := true }
      .next (if (s.gang c r).isSome then s.once (.event (.gangStart c) .none) else s)

/-- MMA (R249, R251). -/
def execMma (r : Rec) (s : State) : Host.Outcome State Fault Refusal := s.multiply r false

/-- DMMA (R249). -/
def execDmma (r : Rec) (s : State) : Host.Outcome State Fault Refusal := s.multiply r true

/-! ### MZERO, MLDC, MDRAIN -/

/-- MZERO (R255). -/
def State.mzeroPlan (_ : State) (e : Entry) (r : Rec) : Plan :=
  let t := e.trips r
  let m := e.mrows (r.specBits 0 8)
  let cols := accCols r.fc
  let ok := r.unusedOk { fc := false, chain := false } && accType r.fc && r.specBits 8 24 == 0 && r.tail == 0
    && r.a.ok [0] && r.b.ok [0] && r.c.ok [5]
  let bad := (t.causes.or m.2).or (Causes.when (!ok) causeFormat)
  let hull := accHull r.c m.1 (cols * t.t0) t (cols == 2)
  .mk bad hull (if t.t0 = 0 then 0 else t.outer) fun c _ _ i s =>
    let j := t.at3 i
    let cc := accColAt r.c j.1 j.2.1 j.2.2
    .done (s.setAcc c ((List.range m.1).foldl (fun a row =>
      accWrite a (r.c.accRow + row) cc 4 (List.replicate (cols * t.t0) 0)) (s.acc c)))

/-- MZERO (R255). -/
def execMzero (r : Rec) (s : State) : Host.Outcome State Fault Refusal := s.runPlan .matrix fun e => s.mzeroPlan e r

/-- MLDC (R256). -/
def State.mldcPlan (s : State) (e : Entry) (r : Rec) : Plan :=
  let c := s.focus
  let t := e.trips r
  let m := e.mrows (r.specBits 0 8)
  let cols := accCols r.fc
  let w := 32 * cols
  let ok := r.unusedOk { fa := false, fc := false, chain := false } && accType r.fc && r.fa == r.fc
    && r.specBits 8 24 == 0 && r.tail == 0 && r.a.ok [1, 2, 3] && r.b.ok [0] && r.c.ok [5]
    && (r.a.cls != 3 || (s.slotStart e r.a.slot).isSome) && decide (cols * t.t0 ≤ 512)
  let bad := (t.causes.or m.2).or (Causes.when (!ok) causeFormat)
  let hull := if t.t0 = 0 then Causes.none else (accHull r.c m.1 (cols * t.t0) t (cols == 2)).or (s.hull c e r.a 0
    [(r.a.stride 0, m.1), (r.a.stride 1, t.t1), (r.a.stride 2, t.t2), (r.a.stride 3, t.t3)] (4 * cols * t.t0) (4 * cols))
  .mk bad hull (if t.t0 = 0 then 0 else t.outer) fun c h e i s =>
    let j := t.at3 i
    let rows := ((List.range m.1).map fun (row : Nat) =>
      (s.operandRow c e r.a false (r.a.shift row j.1 j.2.1 j.2.2)).elems w 0 t.t0).flatten
    let a := s.readElems (s.taskAgent c (.matrix c)) rows
    match a.2 with
    | none => .wait a.1 false
    | some (k, es) =>
      let codes := es.mapM fun x => (x.read (.el (elOf r.fa)) w 0).map (·.2)
      if k.stops then .stop a.1 k
      else match codes with
        | none => .stop a.1 (k.or causeData)
        | some l =>
          let cc := accColAt r.c j.1 j.2.1 j.2.2
          let acc := (runsOf t.t0 m.1 l).zipIdx.foldl (fun a p => accWrite a (r.c.accRow + p.2) cc (4 * cols) p.1)
            (a.1.acc c)
          .done ((a.1.setAcc c acc).cause c h k)

/-- MLDC (R256). -/
def execMldc (r : Rec) (s : State) : Host.Outcome State Fault Refusal := s.runPlan .matrix fun e => s.mldcPlan e r

/-- The output types of MDRAIN (R257). -/
def drainType (t : BitVec 5) : Bool :=
  [0x00, 0x01, 0x02, 0x03, 0x04, 0x05, 0x09, 0x0A, 0x0B, 0x11, 0x12, 0x13].contains t.toNat

/-- One element drained (R257): `par` is M_j, S_j and Z_j. -/
def drainElement (r : Rec) (draw : Nat) (a : Val) (par : Option (Val × Int × Val)) : Coded :=
  let out := elOf r.fc
  let desc := r.specBits 10 1 == 1
  let scale : Int := if desc then 32 - r.specBits 11 6 else 0
  let ints := par.isNone && r.fa == 0x0B#5 && !out.isFloat
  if ints && !desc then (El.int ⟨true, 32⟩).convert out r.sat .rne 0 (match a with
    | .fin n m e => wrapTo 32 (Val.inUnits 0 (.fin n m e))
    | _ => 0)
  else
    let v := match par with
      | none => (firstNan [a]).getD ⟨a, 0⟩
      | some (m, sh, z) => fmaVal r.mode a (m.scale (-sh)) z
    let v := v.canonical
    let k := out.roundCanon r.sat r.mode draw (v.val.scale scale)
    ⟨k.code, v.flags ||| k.flags⟩

/-- The parameter rows of MDRAIN (R257): M, S and Z by column; `none` is DATA. -/
def drainParams (r : Rec) (n : Nat) (l : List Elem) : Option (List (Val × Int × Val)) :=
  let el : El := if r.fa = 0x0B#5 then .int ⟨true, 32⟩ else .fl .f32
  let value (t : El) (x : Elem) : Option Val := (x.read (.el t) 32 0).map fun p => t.decode p.2
  match (l.take n).mapM (value el), ((l.drop n).take n).mapM (fun x => (x.read (.el (.int ⟨true, 32⟩)) 32 0).map (·.2)),
    (l.drop (2 * n)).mapM (value el) with
  | some ms, some ss, some zs => some (ms.zip ((ss.map fun x => signed 32 x).zip zs))
  | _, _, _ => none

/-- The writes of one drained row: elements of plain lines, or whole described lines (R216, R257). -/
def drainWrites (r : Rec) (row : Row) (w : Nat) (codes : List Nat) : List (Reach × List Byte) :=
  if r.specBits 10 1 = 1 then
    (runsOf (512 / w) codes.length codes).zipIdx.map fun p => (row.reach (64 * p.2) 64, pack w p.1)
  else row.writes w codes

/-- MDRAIN (R257). The site of an FP64 element takes its first 32-bit column, 2j, as R251 does: R257 says only the column of
the accumulator element (DESIGN CHOICE, log 78). -/
def State.mdrainPlan (s : State) (e : Entry) (r : Rec) : Plan :=
  let c := s.focus
  let t := e.trips r
  let m := e.mrows (r.specBits 0 8)
  let qm := r.specBits 8 2
  let desc := r.specBits 10 1 == 1
  let ex := r.specBits 11 6
  let cols := accCols r.fa
  let out := elOf r.fc
  let w := out.width
  let lineFmt := (Ty.el out).fmt
  let ok := r.unusedOk { fa := false, fc := false, rm := false, chain := false, sat := false } && accType r.fa
    && drainType r.fc && decide (qm < 2) && r.specBits 17 15 == 0 && ex != 63 && (desc || ex == 0) && r.tail == 0
    && r.a.ok [1, 2, 4] && r.b.ok (if qm = 1 then [1] else [0]) && r.c.ok [5] && !(qm == 1 && r.fa == 0x00#5)
    && !(qm == 0 && r.fa == 0x0B#5 && !out.isFloat && r.rm != 0)
    && (!desc || (lineFmt.isSome && (r.a.cls == 4 || r.a.col % 64 == 0) && t.t0 % (512 / w) == 0))
  let bad := (t.causes.or m.2).or (Causes.when (!ok) causeFormat)
  let bytes := rowBytes w t.t0
  let pitch := rowPitch w t.t0
  let dest := if r.a.cls = 4 then s.queueHull c e r.a true (m.1 * pitch)
    else s.hull c e r.a 0 [(r.a.stride 0, m.1), (r.a.stride 1, t.t1), (r.a.stride 2, t.t2), (r.a.stride 3, t.t3)] bytes
      (w / 8)
  let pars := if qm = 1 ∧ t.outer ≠ 0 then s.hull c e r.b 0
    [(r.b.stride 0, 3), (r.b.stride 1, t.t1), (r.b.stride 2, t.t2), (r.b.stride 3, t.t3)] (4 * t.t0) 4 else Causes.none
  let hull := if t.t0 = 0 then Causes.none
    else ((accHull r.c m.1 (cols * t.t0) t (cols == 2)).or dest).or pars
  .mk bad hull (if t.t0 = 0 then 0 else t.outer) fun c h e i s =>
    let j := t.at3 i
    let ag := s.taskAgent c (.matrix c)
    let took := s.takeSlot c .matrix r.a true
    match took.2 with
    | none => .wait took.1 true
    | some slot =>
      let rows := if qm = 1 then ((List.range 3).map fun (q : Nat) =>
        (took.1.operandRow c e r.b false (r.b.shift q j.1 j.2.1 j.2.2)).elems 32 0 t.t0).flatten else []
      let rp := took.1.readElems ag rows
      match rp.2 with
      | none => .wait rp.1 false
      | some (k, es) =>
        let par := if qm = 1 then (drainParams r t.t0 es).map fun l => l.map some
          else some (List.replicate t.t0 none)
        if k.stops then .stop rp.1 k
        else match par with
          | none => .stop rp.1 (k.or causeData)
          | some ps =>
            if ps.any fun p => match p with
              | some (_, sh, _) => decide (sh < -63) || decide (63 < sh)
              | none => false
            then .stop rp.1 (k.or causeFormat)
            else
              let s := rp.1
              let cc := accColAt r.c j.1 j.2.1 j.2.2
              let lines := (List.range m.1).map fun row => ps.zipIdx.map fun p =>
                let at_ := cc + cols * p.2
                drainElement r (e.draw r.mode (s.engine c .matrix).x ((r.c.accRow + row) * 512 + at_))
                  ((elOf r.fa).decode (accRead (s.acc c) (r.c.accRow + row) at_ (4 * cols))) p.1
              let rowAt (row : Nat) : Row := match slot with
                | some n => s.slotRow c r.a.queue n (row * pitch)
                | none => s.operandRow c e r.a true (r.a.shift row j.1 j.2.1 j.2.2)
              let ws := (lines.zipIdx.map fun p => drainWrites r (rowAt p.2) w (p.1.map Coded.code)).flatten
              let am := s.aimAll ag ws Causes.none []
              match am.2 with
              | none => .wait am.1 false
              | some (kw, l) =>
                if kw.stops then .stop am.1 (k.or kw)
                else
                  let s := if desc then
                      l.foldl (fun s a => s.putLine ag (writerOf c .matrix h) a.1 a.2 (makeTag (lineFmt.getD 0) ex 0 a.2)) am.1
                    else am.1.putRuns ag (writerOf c .matrix h) l
                  let s := match slot with
                    | some n => (List.range (m.1 * pitch / 64)).foldl (fun (s : State) x =>
                        if 64 * x % pitch < bytes then s.wroteSlot c r.a.queue n x else s) s
                    | none => s
                  .done ((((s.dropSlot c .matrix r.a true).countStep c .matrix).cause c h (k.or kw)).raiseTask c h
                    (lines.foldl (fun a x => a ||| flagsOf x) 0))

/-- MDRAIN (R257). -/
def execMdrain (r : Rec) (s : State) : Host.Outcome State Fault Refusal := s.runPlan .matrix fun e => s.mdrainPlan e r

end Sys2Proof.Machine
end

