-- ==== Sys2Proof/Machine/Copy.lean ====
section
/-! DEFINITION. The transpose record (R258) and the copy records but for RELOC (R259-R268). -/

namespace Sys2Proof.Machine

/-! ### TRN (R258) -/

/-- The element types of TRN. -/
def trnType (t : BitVec 5) : Bool :=
  [0x00, 0x01, 0x02, 0x03, 0x04, 0x05, 0x09, 0x0A, 0x0B, 0x0C, 0x11, 0x12, 0x13, 0x14].contains t.toNat

/-- Conv of TRN: R67 on a value, NaN results Canon(FC) (R64). -/
def trnConvert (src dst : El) (sat : Bool) (rm : Rm) (draw : Nat) (v : Valued) : Coded :=
  let x := v.canonical
  let r : Coded := match src, dst with
    | .int a, .int b => ⟨(b.round (sat && decide (b.w ≤ a.w)) .rtz 0 x.val).code, 0⟩
    | .int _, _ => dst.roundCanon sat rm draw x.val
    | _, .int b => b.convert rm draw v.val
    | _, _ => dst.roundCanon sat rm draw x.val
  ⟨r.code, v.flags ||| r.flags ||| (if v.val.isSnan then invalidFlag else 0)⟩

/-- A region slot that a descriptor names is a memory or commons slot (R90). -/
def State.slotOk (s : State) (e : Entry) (d : Desc) : Bool := d.cls != 3 || (s.slotStart e d.slot).isSome

/-- An element of a TRN source: `none` is DATA; without conversion a line must be plain. -/
def trnElem (same flt : Bool) (t : BitVec 5) (x : Elem) : Option (El × Valued × Nat) :=
  (x.read (.el (elOf t)) (elOf t).width 0).bind fun r =>
    if same && !(x.tags.all fun g => tagFmt g == 0) then none else some (r.1.1, readElement flt r.1 r.2, r.2)

/-- Destination rows of a block: every conversion in the order of the writes, with the count of roundings. -/
def trnRows (same : Bool) (dst : El) (sat : Bool) (rm : Rm) (draw : Nat → Nat) (cols : List (List (El × Valued × Nat)))
    (x : Nat) : List (List Coded) :=
  cols.zipIdx.map fun c => c.1.zipIdx.map fun p =>
    if same then ⟨p.1.2.2, 0⟩ else trnConvert p.1.1 dst sat rm (draw (x + c.2 * c.1.length + p.2)) p.1.2.1

/-- Columns of a list of `n`-element rows. -/
def columns {α : Type} : Nat → List (List α) → List (List α)
  | 0, _ => []
  | n + 1, ls => (ls.filterMap List.head?) :: columns n (ls.map List.tail)

/-- Rows of `n` elements each. -/
def rowRuns {α : Type} (n : Nat) : (count : Nat) → List α → List (List α)
  | 0, _ => []
  | k + 1, l => l.take n :: rowRuns n k (l.drop n)

/-- TRN (R258). A conversion between integer types never rounds by RM, so its RM is 000 (R58, R67). -/
def State.trnPlan (s : State) (e : Entry) (r : Rec) : Plan :=
  let c := s.focus
  let t := e.trips r
  let rows := e.count (r.specBits 0 16)
  let src := elOf r.fa
  let dst := elOf r.fc
  let same := r.fa == r.fc
  let wa := src.bytes
  let wc := dst.bytes
  let ok := r.unusedOk { fa := false, fc := false, rm := false, sat := false } && trnType r.fa && trnType r.fc
    && r.specBits 16 16 == 0 && r.tail == 0 && (!same || (r.rm == 0 && !r.sat))
    && (!(typeInt r.fa && typeInt r.fc) || r.rm == 0)
    && r.a.ok [1, 2, 3] && r.b.ok [0] && r.c.ok [1, 3] && s.slotOk e r.a && s.slotOk e r.c
    && decide (1 ≤ rows.1) && decide (rows.1 ≤ 2048)
    && (r.a.cls == 3 || decide (t.t0 * wa ≤ 2048)) && (r.c.cls == 3 || decide (rows.1 * wc ≤ 2048))
  let bad := (t.causes.or rows.2).or (Causes.when (!ok) causeFormat)
  let nest (d : Desc) (n : Nat) : List (Int × Nat) :=
    [(d.stride 0, n), (d.stride 1, t.t1), (d.stride 2, t.t2), (d.stride 3, t.t3)]
  let hull := if t.t0 = 0 then Causes.none
    else (s.hull c e r.a 0 (nest r.a rows.1) (t.t0 * wa) wa).or (s.hull c e r.c 0 (nest r.c t.t0) (rows.1 * wc) wc)
  .mk bad hull (if t.t0 = 0 then 0 else t.outer) fun c h e i s =>
    let j := t.at3 i
    let ag := s.taskAgent c (.transpose c)
    let es := ((List.range rows.1).map fun (q : Nat) =>
      (s.operandRow c e r.a false (r.a.shift q j.1 j.2.1 j.2.2)).elems src.width 0 t.t0).flatten
    let a := s.readElems ag es
    match a.2 with
    | none => .wait a.1 false
    | some (k, l) =>
      match k.stops, l.mapM (trnElem same dst.isFloat r.fa) with
      | true, _ => .stop a.1 k
      | false, none => .stop a.1 (k.or causeData)
      | false, some vs =>
        let x := (a.1.engine c .transpose).x
        let out := trnRows same dst r.sat r.mode (fun n => e.draw r.mode n 0) (columns t.t0 (rowRuns t.t0 rows.1 vs)) x
        let writes := (out.zipIdx.map fun p =>
          (a.1.operandRow c e r.c true (r.c.shift p.2 j.1 j.2.1 j.2.2)).writes dst.width (p.1.map Coded.code)).flatten
        let am := a.1.aimAll ag writes Causes.none []
        match am.2 with
        | none => .wait am.1 false
        | some (kw, ws) =>
          if kw.stops then .stop am.1 (k.or kw)
          else
            let s := am.1.putRuns ag (writerOf c .transpose h) ws
            let en := s.engine c .transpose
            let s := s.setEngine c .transpose { en with x := x + (if r.mode = .rsr then rows.1 * t.t0 else 0) }
            .done ((s.cause c h (k.or kw)).raiseTask c h (out.foldl (fun f row => f ||| flagsOf row) 0))

/-- TRN (R258). -/
def execTrn (r : Rec) (s : State) : Host.Outcome State Fault Refusal := s.runPlan .transpose fun e => s.trnPlan e r

/-! ### Lines (R259) -/

end Sys2Proof.Machine

/-- The fields of Table 8.4: GROUP and AUXT are zero where a record does not use them. -/
def Sys2Proof.Rec.copyTail (r : Rec) (group aux : Bool) : Bool :=
  r.tailBits 33 15 == 0 && (group || r.tailBits 9 8 == 0) && (aux || r.tailBits 17 16 == 0)

namespace Sys2Proof.Machine

/-- A delivery arrives at DCTR of a core (R259). -/
def State.deliver (s : State) (r : Rec) (c : CoreId) : State :=
  if r.tailBits 8 1 = 1 then s.arrival c (Fin.ofNat 256 (r.tailBits 0 8)) 64 false false else s

/-- The core that receives the delivery of a line. -/
def Loc.receiver (l : Loc) (issuer : CoreId) : CoreId :=
  match l with
  | .tile k _ _ => k
  | .va _ => issuer

/-- The records that deliver a line once it is performed (R259). -/
def delivering (i : Instr) : Option Rec :=
  match i with
  | .cpy r => some r
  | .cpyx r => some r
  | .fill r => some r
  | .cpyq r => some r
  | _ => none

/-- A line of the copy record of a core has been performed at a destination in memory. -/
def State.lineDelivered (s : State) (c : CoreId) : State :=
  match (s.taken .copy c).bind fun x => delivering x.2 with
  | some r => s.deliver r c
  | none => s

/-- A write is made whole at once: every copy is at hand. -/
def Aim.now : Aim → Bool
  | .keys _ left _ => left.isEmpty
  | .remote _ _ _ => false

/-- The step that serves a line written to an aperture (R349): a reduction slot, which the line reaches with the clock of
its sender (R316), or an appraiser. -/
def apertureStep (off : Nat) (w : Writer) (clock : Clock) (d : List Byte) (t : Word) : Option (Instr × Arg) :=
  let unit (lo size n : Nat) : Option (Nat × Nat) :=
    if lo ≤ off ∧ off < lo + size * n then some ((off - lo) / size, (off - lo) % size) else none
  match unit 0x1FFFFA000000 0x1000 64, unit 0x1FFFFA200000 0x1000 16, unit 0x1FFFFB000000 0x100000 16 with
  | some (n, 0), _, _ => some (.reductionAllocate, .slot (Fin.ofNat 64 n) w d clock)
  | some (n, 64), _, _ => some (.reductionContribute, .slot (Fin.ofNat 64 n) w d clock)
  | _, some (n, 0), _ => some (.appraiserConfiguration, .appraiser (Fin.ofNat 16 n) w 0 d t)
  | _, _, some (n, x) => some (.appraiserWeightWrite, .appraiser (Fin.ofNat 16 n) w x d t)
  | _, _, _ => none

/-- The tag of a moved line: MOVING is written clear (R259). -/
def movedTag (t : Word) : Word := t &&& ~~~0x2000000#64

/-- A whole line written by a copy record at a location (R259), delivered once it is performed there, or to an aperture
of the device, whose step then answers (R350). -/
def State.putWhole (s : State) (c : CoreId) (h : Handle) (r : Rec) (dst : Reach) (d : List Byte) (t : Word)
    (k : Causes) : Work :=
  match dst with
  | .bad => .stop s (k.or causeAccess)
  | .suppressed => .done (s.cause c h (k.or causeUndeclared))
  | .found l =>
    let off : Option Nat := match l with
      | .va a => match s.target a with
        | .aperture off => some off
        | _ => none
      | _ => none
    match off with
    | some o =>
      match apertureStep o (.record c) (s.clock (dieOf c)) d t with
      | some p => .wait ((s.cause c h k).eventWith p.1 p.2) false
      | none => .stop s (k.or causeAccess)
    | none =>
      let ag := s.taskAgent c (.copy c)
      let a := s.aim ag l false
      match a.2 with
      | .ok m =>
        let s := a.1.putLine ag (writerOf c .copy h) m d t
        .done ((if m.now then s.deliver r (l.receiver c) else s).cause c h k)
      | .wait => .wait a.1 false
      | g => .stop a.1 (k.or g.causes)

/-- A line moved from one place to another. -/
def State.moveLine (s : State) (c : CoreId) (h : Handle) (r : Rec) (src dst : Reach) : Work :=
  let a := s.readWhole (s.taskAgent c (.copy c)) src
  match a.2 with
  | none => .wait a.1 false
  | some (k, d, t) => if k.stops then .stop a.1 k else a.1.putWhole c h r dst d (movedTag t) k

/-- The line of a storage operand at loop indexes. -/
def State.lineAtIndex (s : State) (c : CoreId) (e : Entry) (d : Desc) (write : Bool) (i0 i1 i2 i3 : Int) : Reach :=
  s.operandAt c e d write (d.shift i0 i1 i2 i3) 0 64

/-- The loop indexes of the n-th line of a copy record, T0 innermost. -/
def Trips.at4 (t : Trips) (n : Nat) : Nat × Nat × Nat × Nat :=
  let j := t.at3 (n / t.t0)
  (n % t.t0, j.1, j.2.1, j.2.2)

/-- A base is a multiple of `n` bytes; otherwise the record is refused (R259). -/
def State.baseCauses (s : State) (e : Entry) (d : Desc) (n : Nat) : Causes :=
  Causes.when ((if d.cls = 3 then (s.slotStart e d.slot).getD 0 + d.offset else d.base) % n != 0) causeFormat

/-- The release checks of an operand of lines (R243, R259). -/
def State.lineHull (s : State) (c : CoreId) (e : Entry) (d : Desc) (t : Trips) : Causes :=
  if d.cls = 4 then Causes.none
  else (s.baseCauses e d 64).or
    (s.hull c e d 0 [(d.stride 0, t.t0), (d.stride 1, t.t1), (d.stride 2, t.t2), (d.stride 3, t.t3)] 64 64)

/-- The task that the copy engine in focus runs. -/
def State.copying (s : State) : Option (Handle × Entry) :=
  (s.engine s.focus .copy).handle.map fun h => (h, s.entry s.focus h)

/-- CPY (R260). -/
def State.cpyPlan (s : State) (e : Entry) (r : Rec) : Plan :=
  let t := e.trips r
  let ok := r.unusedOk {} && r.spec == 0 && r.copyTail false false && r.a.ok [1, 2, 3] && r.b.ok [0]
    && r.c.ok [1, 2, 3] && s.slotOk e r.a && s.slotOk e r.c
  let hull := (s.lineHull s.focus e r.a t).or (s.lineHull s.focus e r.c t)
  .mk (t.causes.or (Causes.when (!ok) causeFormat)) hull t.all fun c h e i s =>
    let j := t.at4 i
    s.moveLine c h r (s.lineAtIndex c e r.a false j.1 j.2.1 j.2.2.1 j.2.2.2)
      (s.lineAtIndex c e r.c true j.1 j.2.1 j.2.2.1 j.2.2.2)

/-- CPY (R260). -/
def execCpy (r : Rec) (s : State) : Host.Outcome State Fault Refusal := s.runPlan .copy fun e => s.cpyPlan e r

/-- The index of a row of CPYX, read once per row: the engine keeps it, plus one, while the row's lines move. -/
def State.rowIndex (s : State) (c : CoreId) (e : Entry) (r : Rec) (fresh : Bool) (n i2 i3 : Nat) :
    State × Option (Causes × Int) :=
  let en := s.engine c .copy
  if !fresh && en.x != 0 then (s, some (Causes.none, signed 32 (en.x - 1)))
  else
    let a := s.readElems (s.taskAgent c (.copy c)) [[(4, s.operandAt c e r.b false (r.b.shift 0 0 i2 i3) (4 * n) 4)]]
    match a.2 with
    | none => (a.1, none)
    | some (k, l) =>
      let v := ofBytes ((l.map (·.data)).flatten)
      (a.1.setEngine c .copy { a.1.engine c .copy with x := v + 1 }, some (k, signed 32 v))

/-- CPYX (R261). -/
def State.cpyxPlan (s : State) (e : Entry) (r : Rec) : Plan :=
  let t := e.trips r
  let scat := r.specBits 0 1 == 1
  let skip := r.specBits 1 1 == 1
  let ok := r.unusedOk {} && r.specBits 2 30 == 0 && r.copyTail false false && r.a.ok [1, 2, 3] && r.b.ok [1]
    && r.c.ok [1, 2, 3] && s.slotOk e r.a && s.slotOk e r.c && r.b.stride 0 == 0 && r.b.stride 1 == 0
  let fixed := if scat then r.a else r.c
  let moved := if scat then r.c else r.a
  let none_ : Trips := { t with t0 := 0 }
  let index := if t.t0 = 0 then Causes.none
    else s.hull s.focus e r.b 0 [(r.b.stride 2, t.t2), (r.b.stride 3, t.t3)] (4 * t.t1) 1
  let hull := (((s.baseCauses e r.b 4).or (s.lineHull s.focus e fixed t)).or (s.lineHull s.focus e moved none_)).or index
  .mk (t.causes.or (Causes.when (!ok) causeFormat)) hull t.all fun c h e i s =>
    let j := t.at4 i
    let a := s.rowIndex c e r (j.1 == 0) j.2.1 j.2.2.1 j.2.2.2
    match a.2 with
    | none => .wait a.1 false
    | some (k, x) =>
      if k.stops then .stop a.1 k
      else if skip && x == -1 then .done (a.1.cause c h k)
      else
        let s := a.1.cause c h k
        let na : Int := if scat then j.2.1 else x
        let nc : Int := if scat then x else j.2.1
        s.moveLine c h r (s.lineAtIndex c e r.a false j.1 na j.2.2.1 j.2.2.2)
          (s.lineAtIndex c e r.c true j.1 nc j.2.2.1 j.2.2.2)

/-- CPYX (R261). -/
def execCpyx (r : Rec) (s : State) : Host.Outcome State Fault Refusal := s.runPlan .copy fun e => s.cpyxPlan e r

/-- FILL (R264). -/
def State.fillPlan (s : State) (e : Entry) (r : Rec) : Plan :=
  let t := e.trips r
  let fmt := r.tailBits 17 8
  let scale := r.tailBits 25 8
  let ok := r.unusedOk {} && r.copyTail false true && r.a.ok [0] && r.b.ok [0] && r.c.ok [1, 2, 3] && s.slotOk e r.c
    && (fmt == 0 || (fmtEl fmt scale).isSome) && (fmt == 0x10 || decide (scale < 64))
  let d := (List.replicate 16 (bytesOf 4 r.spec.toNat)).flatten
  .mk (t.causes.or (Causes.when (!ok) causeFormat)) (s.lineHull s.focus e r.c t) t.all fun c h e i s =>
    let j := t.at4 i
    s.putWhole c h r (s.lineAtIndex c e r.c true j.1 j.2.1 j.2.2.1 j.2.2.2) d (makeTag fmt scale 0 d) Causes.none

/-- FILL (R264). -/
def execFill (r : Rec) (s : State) : Host.Outcome State Fault Refusal := s.runPlan .copy fun e => s.fillPlan e r

/-- The line of a queue slot that a unit of CPYQ moves. -/
def State.slotLine (s : State) (c : CoreId) (d : Desc) (slot : Option (Fin 8)) (i0 : Nat) : Reach :=
  match slot with
  | some n => (s.slotRow c d.queue n (64 * i0)).reach 0 64
  | none => .bad

/-- The last line of a slot finishes it (R254). -/
def State.cpyqEnd (s : State) (c : CoreId) (r : Rec) (last : Bool) : State :=
  if last then (s.dropSlot c .copy r.a false).dropSlot c .copy r.c true else s

/-- CPYQ (R266). -/
def State.cpyqPlan (s : State) (e : Entry) (r : Rec) : Plan :=
  let t := e.trips r
  let produces := r.c.cls == 4
  let ok := r.unusedOk {} && r.spec == 0 && r.copyTail false false && r.a.ok [1, 2, 3, 4] && r.b.ok [0]
    && r.c.ok [1, 2, 3, 4] && ((r.a.cls == 4) != produces) && s.slotOk e r.a && s.slotOk e r.c
  let q := if produces then r.c else r.a
  let hull := ((s.queueHull s.focus e q produces (64 * t.t0)).or (s.lineHull s.focus e r.a t)).or
    (s.lineHull s.focus e r.c t)
  .mk (t.causes.or (Causes.when (!ok) causeFormat)) hull t.all fun c h e i s =>
    let j := t.at4 i
    let took := s.takeSlot c .copy q produces
    match took.2 with
    | none => .wait took.1 true
    | some slot =>
      let s := took.1
      let line (d : Desc) (write : Bool) : Reach :=
        if d.cls = 4 then s.slotLine c d slot j.1 else s.lineAtIndex c e d write j.1 j.2.1 j.2.2.1 j.2.2.2
      match s.moveLine c h r (line r.a false) (line r.c true) with
      | .done s =>
        let s := match slot with
          | some n => if produces then s.wroteSlot c q.queue n j.1 else s
          | none => s
        .done (s.cpyqEnd c r (j.1 + 1 == t.t0))
      | w => w

/-- CPYQ (R266). -/
def execCpyq (r : Rec) (s : State) : Host.Outcome State Fault Refusal := s.runPlan .copy fun e => s.cpyqPlan e r

/-- An aperture has answered the line that a copy record wrote to it: the record goes on, or ends with ACCESS (R350). -/
def State.apertureAnswered (s : State) (c : CoreId) (accepted : Bool) : State :=
  match s.taken .copy c with
  | none => s
  | some (h, i) =>
    if accepted then
      let en := s.engine c .copy
      let s := s.setEngine c .copy { en with progress := en.progress + 1 }
      let s := s.lineDelivered c
      let s := match i with
        | .cpyq r => s.cpyqEnd c r ((en.progress + 1) % ((s.entry c h).trips r).t0 == 0)
        | _ => s
      s.once (.unit (.copy c))
    else s.endRecord c .copy causeAccess

/-! ### MCAST and RING -/

/-- MCAST (R263). -/
def State.mcastPlan (s : State) (e : Entry) (r : Rec) : Plan :=
  let t := e.trips r
  let group := r.tailBits 9 8
  let self := r.specBits 0 1 == 1
  let ok := r.unusedOk {} && r.specBits 1 31 == 0 && r.copyTail true false && r.a.ok [1, 3] && r.b.ok [0]
    && r.c.ok [1] && s.slotOk e r.a
  let members := s.gangCores s.focus group 160
  let hull := ((Causes.when members.isNone causeAccess).or (s.lineHull s.focus e r.a t)).or (s.lineHull s.focus e r.c t)
  let dests := (members.getD []).filter fun k => self || k != s.focus
  .mk (t.causes.or (Causes.when (!ok) causeFormat)) hull t.all fun c h e i s =>
    let j := t.at4 i
    let a := s.readWhole (s.taskAgent c (.copy c)) (s.lineAtIndex c e r.a false j.1 j.2.1 j.2.2.1 j.2.2.2)
    match a.2 with
    | none => .wait a.1 false
    | some (k, d, g) =>
      if k.stops then .stop a.1 k
      else
        let lam : Int := r.c.base + r.c.shift j.1 j.2.1 j.2.2.1 j.2.2.2
        let put (w : Work) (m : CoreId) : Work :=
          match w with
          | .done s => s.putWhole c h r (if lam < 0 then .bad
              else s.reachPeer c e true true group 255 m (lam.toNat / 2048) (lam.toNat % 2048) 64) d (movedTag g) k
          | w => w
        dests.foldl put (.done a.1)

/-- MCAST (R263). -/
def execMcast (r : Rec) (s : State) : Host.Outcome State Fault Refusal := s.runPlan .copy fun e => s.mcastPlan e r

/-- The fields of a RING record with the checks of R90 that every record has of itself. -/
def Entry.ringCauses (e : Entry) (r : Rec) : Causes :=
  (e.trips r).causes.or (Causes.when (!(r.unusedOk {} && r.specBits 8 24 == 0 && r.copyTail true true
    && r.a.ok [1] && r.b.ok [0] && r.c.ok [1])) causeFormat)

/-- The ring member at a core that matches a record's GROUP and TAG. -/
def State.ringMember (s : State) (c : CoreId) (r : Rec) : Option (Handle × Rec) :=
  match s.taken .copy c with
  | some (h, .ring q) => if q.tailBits 9 24 = r.tailBits 9 24 then some (h, q) else none
  | _ => none

/-- Every member of the ring of a record, once all have been released, in rank order. -/
def State.ringOf (s : State) (c : CoreId) (r : Rec) : Option (List (CoreId × Handle × Rec)) :=
  match s.gangCores c (r.tailBits 9 8) 160 with
  | none => none
  | some cs => cs.mapM fun k => (s.ringMember k r).map fun x => (k, x)

/-- What a ring member's own release checks give: of R90 and R262, and of R243 and R181. -/
def State.ringChecks (s : State) (c : CoreId) (e : Entry) (r : Rec) : Causes × Causes :=
  let t := e.trips r
  let shift := r.specBits 0 8
  ((e.ringCauses r).or (match s.gangCores c (r.tailBits 9 8) 160 with
      | some l => Causes.when (shift == 0 || decide (l.length ≤ shift)) causeFormat
      | none => Causes.none),
    ((s.lineHull c e r.a t).or (s.lineHull c e r.c t)).or ((s.queueGate c e).or (Causes.when e.causes.queue causeQueue)))

/-- RING (R262): the record waits until every member's has been released. -/
def execRing (r : Rec) (s : State) : Host.Outcome State Fault Refusal :=
  let c := s.focus
  match s.copying with
  | none => .next s
  | some (_, e) =>
    if (s.gangCores c (r.tailBits 9 8) 160).isNone then
      let k := s.ringChecks c e r
      s.runRecord .copy k.1 (k.2.or causeAccess) 0 fun _ _ _ _ s => .done s
    else
      let s := s.setEngine c .copy { s.engine c .copy with waiting := true }
      .next (if (s.ringOf c r).isSome then s.once (.event (.ringStart c) .none) else s)

/-- The n-th line of every member moves: all are read, then each is written at its receiver (R262). Each core's causes
are those it met. -/
def State.ringLine (s : State) (l : List (CoreId × Handle × Rec)) (shift n : Nat) : State × Causes :=
  let size := l.length
  let read (a : State × List (Causes × List Byte × Word)) (x : CoreId × Handle × Rec) :
      State × List (Causes × List Byte × Word) :=
    let e := a.1.entry x.1 x.2.1
    let j := (e.trips x.2.2).at4 n
    let g := a.1.readWhole (a.1.taskAgent x.1 (.copy x.1)) (a.1.lineAtIndex x.1 e x.2.2.a false j.1 j.2.1 j.2.2.1 j.2.2.2)
    (g.1.cause x.1 x.2.1 ((g.2.map (·.1)).getD Causes.none), a.2 ++ [(g.2).getD (Causes.none, [], 0)])
  let got := l.foldl read (s, [])
  let stop := got.2.foldl (fun k x => k.or x.1) Causes.none
  if stop.stops then (got.1, stop)
  else
    let write (s : State) (p : (CoreId × Handle × Rec) × (Causes × List Byte × Word) × Nat) : State :=
      match l[(p.2.2 + shift) % size]? with
      | none => s
      | some (k, kh, kr) =>
        let e := s.entry k kh
        let j := (e.trips kr).at4 n
        match s.lineAtIndex k e kr.c true j.1 j.2.1 j.2.2.1 j.2.2.2 with
        | .found (.tile m row col) =>
          (s.lineBy (dieOf p.1.1) (tileKey m row col) p.2.1.2.1 (movedTag p.2.1.2.2)).deliver p.1.2.2 m
        | _ => s.cause k kh causeUndeclared
    ((l.zip got.2.zipIdx).foldl write got.1, Causes.none)

/-- The lines of a ring from `n` on; an error stops every member with the same status. -/
def ringRun (l : List (CoreId × Handle × Rec)) (shift : Nat) : (count n : Nat) → State → State
  | 0, _, s =>
    let s := l.foldl (fun s x => s.setEntry x.1 x.2.1 { s.entry x.1 x.2.1 with received := true }) s
    l.foldl (fun s x => s.endRecord x.1 .copy Causes.none) s
  | k + 1, n, s =>
    let a := s.ringLine l shift n
    if a.2.stops then l.foldl (fun s x => s.endRecord x.1 .copy a.2) a.1 else ringRun l shift k (n + 1) a.1

/-- RING_START (R262): once every member's record has been released, all are checked, and all rotate together, as a gang
does (log 59); they must agree in SHIFT and trip counts. -/
def execRingStart (core : CoreId) (s : State) : Host.Outcome State Fault Refusal :=
  match s.taken .copy core with
  | some (h, .ring r) =>
    match s.ringOf core r with
    | none => .next s
    | some l =>
      let view (x : CoreId × Handle × Rec) :=
        let t := (s.entry x.1 x.2.1).trips x.2.2
        (x.2.2.specBits 0 8, t.t0, t.t1, t.t2, t.t3)
      let ks := l.map fun x => s.ringChecks x.1 (s.entry x.1 x.2.1) x.2.2
      let bad := (ks.foldl (fun a k => a.or k.1) Causes.none).or
        (Causes.when (l.any fun x => view x != view (core, h, r)) causeFormat)
      let hull := ks.foldl (fun a k => a.or k.2) Causes.none
      let s := l.foldl (fun s x => s.cause x.1 x.2.1 (s.ringChecks x.1 (s.entry x.1 x.2.1) x.2.2).1) s
      if bad.stops then .next (l.foldl (fun s x => s.endRecord x.1 .copy bad) s)
      else if hull.status != 0 then .next (l.foldl (fun s x => s.endRecord x.1 .copy (bad.or hull)) s)
      else .next (ringRun l (r.specBits 0 8) ((s.entry core h).trips r).all 0 s)
  | _ => .next s

/-! ### CPYA (R265) -/

/-- The operation of SPEC[3:0] on words of a width, with the draw of its rounding. -/
def cpyaResult (op : Nat) (t : BitVec 5) (rm : Rm) (draw m v : Nat) : Coded :=
  let w := (elOf t).width
  let int (o : AmoOp) : Coded := ⟨amoResult o w m v, 0⟩
  match op with
  | 0 => int .add
  | 1 => int .and
  | 2 => int .or
  | 3 => int .xor
  | 4 => int .min
  | 5 => int .max
  | 6 => int .minn
  | 7 => int .maxn
  | 8 => famoResult .add rm (flOf t) draw m v
  | 9 => famoResult .min rm (flOf t) draw m v
  | _ => famoResult .max rm (flOf t) draw m v

/-- Memory or commons of this device: what CPYA's destination must be (R265). -/
def State.ownMemory (s : State) (va : Word) : Bool :=
  match s.target va with
  | .mem _ _ => true
  | .commons _ _ => true
  | _ => false

/-- CPYA (R265): each unit is one element's step at its home. A source line is resolved as an operand of the element type
FA (Table 2.7), although CPYA is a copy record (R55; DEDUCED, log 60). -/
def State.cpyaPlan (s : State) (e : Entry) (r : Rec) : Plan :=
  let t := e.trips r
  let op := r.specBits 0 4
  let types : List Nat := if op < 8 then [0x0B, 0x13, 0x0C, 0x14] else [0x00, 0x01]
  let ok := r.unusedOk { fa := false, rm := false } && decide (op ≤ 10) && types.contains r.fa.toNat
    && (op == 8 || (r.rm == 0 && r.specBits 4 1 == 0)) && r.specBits 5 27 == 0 && r.copyTail false false
    && r.a.ok [1, 2, 3] && r.b.ok [0] && r.c.ok [3] && s.slotOk e r.a && s.slotOk e r.c
  let n := (elOf r.fa).bytes
  let per := 64 / n
  let hull := (s.lineHull s.focus e r.a t).or (s.lineHull s.focus e r.c t)
  .mk (t.causes.or (Causes.when (!ok) causeFormat)) hull (t.all * per) fun c h e i s =>
    let j := t.at4 (i / per)
    let at_ := n * (i % per)
    let ag := s.taskAgent c (.copy c)
    let sa := r.a.shift j.1 j.2.1 j.2.2.1 j.2.2.2
    let sc := r.c.shift j.1 j.2.1 j.2.2.1 j.2.2.2
    let a := s.readElems ag [[(n, s.operandAt c e r.a false sa at_ n)]]
    match a.2 with
    | none => .wait a.1 false
    | some (k, l) =>
      let code : Option Nat := match l with
        | [x] => (x.read (.el (elOf r.fa)) (8 * n) 0).map (·.2)
        | _ => none
      if k.stops then .stop a.1 k
      else match code, a.1.operandAt c e r.c true sc at_ n with
        | none, _ => .stop a.1 (k.or causeData)
        | _, .bad => .stop a.1 (k.or causeAccess)
        | _, .suppressed => .done (a.1.cause c h (k.or causeUndeclared))
        | _, .found (.tile _ _ _) => .stop a.1 (k.or causeAccess)
        | some v, .found (.va va) =>
          if !a.1.ownMemory va then .stop a.1 (k.or causeAccess)
          else
            let x := (a.1.engine c .copy).x
            let draw := e.draw r.mode x 0
            let step (m : Nat) : Coded := cpyaResult op r.fa r.mode draw m v
            let w := a.1.rmw ag va n fun s m => (s.raiseTask c h (step m).flags, some (step m).code)
            match w.2 with
            | .ok _ =>
              let s := w.1.setEngine c .copy { w.1.engine c .copy with x := x + (if r.mode = .rsr then 1 else 0) }
              let whole := (List.range per).all fun m => match s.operandAt c e r.c true sc (n * m) n with
                | .found _ => true
                | _ => false
              .done ((if i % per + 1 = per ∧ whole then s.deliver r c else s).cause c h k)
            | .wait => .wait w.1 false
            | g => .stop w.1 (k.or g.causes)

/-- CPYA (R265): each unit is one element's step at its home. -/
def execCpya (r : Rec) (s : State) : Host.Outcome State Fault Refusal := s.runPlan .copy fun e => s.cpyaPlan e r

/-! ### LDBND and SCANREF -/

/-- A task may write a bound register (R267, R269). -/
def Entry.bindsBound (e : Entry) (b : BNum) : Bool :=
  (e.slotsOf 4).any fun n =>
    (e.region n).testBit 4 && decide (bits (e.region n) 5 6 ≤ b.val) && decide (b.val ≤ bits (e.region n) 11 6)

/-- A record writes a bound register; outside its regions the write is suppressed (R244). -/
def State.writeBound (s : State) (c : CoreId) (h : Handle) (b v : Nat) : State :=
  let n : BNum := Fin.ofNat 64 b
  if (s.entry c h).bindsBound n then
    s.setCore c { s.core c with bregs := vset (s.core c).bregs n (BitVec.ofNat 32 v) }
  else s.cause c h causeUndeclared

/-- LDBND (R267). -/
def State.ldbndPlan (s : State) (e : Entry) (r : Rec) : Plan :=
  let t := e.trips r
  let first := r.specBits 0 6
  let ok := r.unusedOk {} && r.specBits 6 26 == 0 && r.tail == 0 && r.a.ok [1, 3] && r.b.ok [0] && r.c.ok [0]
    && r.a.unstrided && s.slotOk e r.a && decide (1 ≤ t.t0) && decide (first + t.t0 ≤ 64) && t.t1 == 1 && t.t2 == 1 && t.t3 == 1
  let hull := (s.baseCauses e r.a 4).or (s.hull s.focus e r.a 0 [] (4 * t.t0) 4)
  .mk (t.causes.or (Causes.when (!ok) causeFormat)) hull t.t0 fun c h e i s =>
    let a := s.readElems (s.taskAgent c (.copy c)) [[(4, s.operandAt c e r.a false 0 (4 * i) 4)]]
    match a.2 with
    | none => .wait a.1 false
    | some (k, l) =>
      if k.stops then .stop a.1 k
      else .done ((a.1.writeBound c h (first + i) (ofBytes ((l.map (·.data)).flatten))).cause c h k)

/-- LDBND (R267). -/
def execLdbnd (r : Rec) (s : State) : Host.Outcome State Fault Refusal := s.runPlan .copy fun e => s.ldbndPlan e r

/-- The entries of one line of SCANREF: for each reference word, its address and, with VAL, its value. -/
def scanEntries (addr : Nat) (d : List Byte) (t : Word) (val : Bool) : List (List Byte) :=
  ((List.range 8).filter fun n => (tagRefb t).testBit n).map fun n =>
    bytesOf 8 (addr + 8 * n) ++ (if val then (d.drop (8 * n)).take 8 else [])

/-- SCANREF (R268). The count of entries found stands in the engine. BCNT counts as unused, and must be zero, when CEN is
clear, although DCTR and RB stand free of DLV and REN (R90; DEDUCED, log 60). -/
def State.scanrefPlan (s : State) (e : Entry) (r : Rec) : Plan :=
  let t := e.trips r
  let cen := r.specBits 6 1 == 1
  let val := r.specBits 7 1 == 1
  let cap := r.tailBits 0 16
  let size := if val then 16 else 8
  let ok := r.unusedOk {} && r.specBits 8 24 == 0 && r.tailBits 16 32 == 0 && (cen || r.specBits 0 6 == 0)
    && r.a.ok [1, 3] && r.b.ok [0] && r.c.ok [1, 3] && r.c.unstrided && s.slotOk e r.a && s.slotOk e r.c
  let list := size * min cap (8 * t.all)
  let lo : Int := (if r.c.cls = 3 then (s.slotStart e r.c.slot).getD 0 + r.c.offset else r.c.base : Nat)
  let room := list == 0 || (if r.c.cls = 3 then decide (lo + list ≤ 2 ^ 58)
    else decide (r.c.row ≤ 3071) && decide ((lo + list - 1) / 2048 < s.annexRow (s.partOf s.focus)))
  let hull := ((s.lineHull s.focus e r.a t).or (Causes.when (!room) causeAccess)).or
    (if r.c.cls = 3 then s.baseCauses e r.c 8 else Causes.none)
  .mk (t.causes.or (Causes.when (!ok) causeFormat)) hull (t.all + 1) fun c h e i s =>
    if i = t.all then .done (if cen ∧ t.all ≠ 0 then s.writeBound c h (r.specBits 0 6) (min ((s.engine c .copy).x) (2 ^ 32 - 1)) else s)
    else
      let j := t.at4 i
      let ag := s.taskAgent c (.copy c)
      let sh := r.a.shift j.1 j.2.1 j.2.2.1 j.2.2.2
      let a := s.readWhole ag (s.operandAt c e r.a false sh 0 64)
      match a.2 with
      | none => .wait a.1 false
      | some (k, d, g) =>
        if k.stops then .stop a.1 k
        else
          let base : Int := if r.a.cls = 3 then ((s.slotStart e r.a.slot).getD 0 : Nat) + r.a.offset + sh
            else 2 ^ 63 + r.a.base + sh
          let es := scanEntries base.toNat d g val
          let x := (a.1.engine c .copy).x
          let writes := (es.take (cap - x)).zipIdx.map fun p =>
            let off := size * (x + p.2)
            let lam := r.c.base + off
            let row : Row := if r.c.cls = 3 then a.1.operandRow c e r.c true off
              else ⟨fun o n => a.1.reachTile c e true (lam / 2048) (lam % 2048 + o) n, lam % 64⟩
            (pieces row.col size).map fun q => (row.reach q.1 q.2, (p.1.drop q.1).take q.2)
          let am := a.1.aimAll ag writes.flatten Causes.none []
          match am.2 with
          | none => .wait am.1 false
          | some (kw, ws) =>
            if kw.stops then .stop am.1 (k.or kw)
            else
              let s := am.1.putRuns ag (writerOf c .copy h) ws
              .done ((s.setEngine c .copy { s.engine c .copy with x := x + es.length }).cause c h (k.or kw))

/-- SCANREF (R268). The count of entries found stands in the engine. -/
def execScanref (r : Rec) (s : State) : Host.Outcome State Fault Refusal := s.runPlan .copy fun e => s.scanrefPlan e r

end Sys2Proof.Machine
end

