-- ==== Sys2Proof/Machine/Resume.lean ====
section
/-! DEFINITION. A parked or held access is made again (R338, R380, R381), and RELOC (R269, R338). -/

namespace Sys2Proof.Machine

/-- Those that wait behind a request of another device on its plane are served next, in order, after the given steps
(R346). -/
def State.serveBehind (s : State) (a : Arg) (first : List Act) : State :=
  let behind : List Parked := match a.source with
    | some src => s.parked.filter fun p => p.who.sameSource src
    | none => []
  let acts : List Act := behind.filterMap fun p => match p.who with
    | .fabric j b => some (Act.event j b)
    | _ => none
  { s with
    parked := s.parked.filter fun p => !behind.contains p
    agenda := first ++ (acts ++ s.agenda) }

/-- A request of another device is served next, and then those that wait behind it. -/
def State.serveNext (s : State) (i : Instr) (a : Arg) : State := s.serveBehind a [.event i a]

/-- The last part of a requester's write has been made (R378): a line of a copy record is delivered (R259) and its task
goes on, a store leaves its queue, a reference instruction ends (R168), a request of another device is answered, and a
slot becomes FREE (R366). -/
def State.partsDone (s : State) (who : Requester) (va : Word) : State :=
  match who with
  | .unit (.copy c) =>
    let same (w : Requester) : Bool := match w with
      | .part (.unit v) x => v == .copy c && x.va == va
      | _ => false
    let s := if (s.parked.any fun p => same p.who) || s.heldMoving.any fun p => same p.2 then s else s.lineDelivered c
    s.once (.unit (.copy c))
  | .unit u => s.once (.unit u)
  | .store u => s.storesGo u
  | .retry u =>
    match s.waiting who, (s.ctx u).park with
    | false, .parts _ next h =>
      let x := s.ctx u
      let x := match h with
        | some p => x.setH p.1 p.2
        | none => x
      (s.setCtx u { x with pc := next, midRef := false }).wakes u
    | _, _ => s
  | .fabric _ a =>
    match s.waiting who, a.source with
    | false, some src =>
      (s.reply src true 0 [] []).serveBehind a []
    | _, _ => s
  | .slot n => s.once (.event (.reductionDeadline n) .none)
  | _ => s

/-- A part of a requester's write has failed with causes (R378, R383). -/
def State.partFails (s : State) (who : Requester) (va : Word) (k : Causes) : State :=
  let data := k.data
  match who with
  | .unit u => match s.unitTask u with
    | some (c, h) => (s.cause c h k).once (.unit u)
    | none => s
  | .store u =>
    match (s.ctx u).stores with
    | w :: _ => (s.unpark who).storeFails u w (if data then 0x0B else 0x05)
    | [] => s
  | .retry u =>
    match (s.ctx u).park with
    | .parts first _ _ =>
      let s := s.unpark who
      (s.setCtx u { s.ctx u with midRef := false }).enterTrap u (if data then 0x0B else 0x05) va first
    | _ => s
  | .fabric _ a =>
    match a.source with
    | some src => ((s.unpark who).reply src false (if data then 2 else 1) [] []).serveBehind a []
    | none => s
  | .slot n =>
    let x := vget s.slots n
    { s.unpark who with slots := vset s.slots n { x with parked := x.parked.map fun w => w ||| 1 } }.once
      (.event (.reductionDeadline n) .none)
  | _ => s

/-- A parked part of a write meets its die's copy: it is made, waits again, or fails (R330, R378, R383). -/
def State.putPart (s : State) (w : Requester) (x : WritePart) : State :=
  let ag := x.agent w
  let r := s.locateOn ag true x.va x.die (x.va.toNat % 2 ^ 45) true
  match r.2 with
  | .ok (k, _) =>
    if r.1.moving k then r.1.hold k ag.who
    else
      let v := match x.put with
        | .line _ => (r.1, true)
        | _ => r.1.verifyAll [k]
      if v.2 then (v.1.propagateAt x.mark k x.data x.put).partsDone w x.va else v.1.partFails w x.va causeData
  | .wait => r.1
  | .access => r.1.partFails w x.va causeAccess
  | .data => r.1.partFails w x.va causeData

/-- An access that a REPLAY or a settle point releases is made again by its requester, once no other part of it waits. -/
def State.resume (s : State) (who : Requester) : State :=
  if s.waiting who then s
  else match who with
    | .load u seq => s.once (.event (.homeAccess (.load u seq)) .none)
    | .waita u seq => s.once (.event (.homeAccess (.waita u seq)) .none)
    | .store u => s.storesGo u
    | .retry u => if (s.ctx u).state = .parked ∧ (s.ctx u).park = .load then s.wakes u else s
    | .unit u => s.once (.unit u)
    | .part w x => s.putPart w x
    | .release c k _ => s.once (.event (.taskRelease c k) .none)
    | .entry c h => s.once (.event (.taskCompletion c h) .none)
    | .fabric i a => s.serveNext i a
    | .gone => s
    | .slot n => s.once (.event (.reductionDeadline n) .none)

/-- The docent of a requester that a step has woken, or whose access has trapped, chooses (R14). -/
def State.chooseFor (s : State) (who : Requester) : State :=
  match who.whole with
  | .retry u => s.dispatch u.core
  | _ => s

/-- Accesses are made again together, and the docents of those that they wake choose (R14). -/
def State.resumeAll (s : State) (ws : List Requester) : State := ws.foldl State.chooseFor (ws.foldl State.resume s)

/-- A parked request of another device is the first that waits of its source and plane (R346). -/
def State.firstOfSource (s : State) (a : Parked) : Bool :=
  match a.who with
  | .fabric _ b => match b.source with
    | some src => s.parked.find? (fun x => x.who.sameSource src) == some a
        && (!s.heldMoving.any fun x => x.2.sameSource src) && !s.behind.any fun x => x.who.sameSource src
    | none => true
  | _ => true

/-- Accesses that wait in a slice's input walk when it has a park entry again (R380), and writes among them when their
predecessors have left it (R316). -/
def State.wakeSlices (s : State) : State :=
  let busy (a : Parked) : Nat := (s.parked.filter fun b =>
    b.part == a.part && b.die == a.die && b.slice == a.slice && b.record.isSome).length
  let goes (a : Parked) : Bool := a.record.isNone && decide (busy a < 128) && s.firstOfSource a
    && !(a.write && s.preceded a.ag a.die a.slice)
  { s with parked := s.parked.filter fun a => !goes a }.resumeAll ((s.parked.filter goes).map Parked.who)

/-- Accesses that wait behind parked writes go on once those have been applied there, or have failed (R316, R332). -/
def State.wakeBehind (s : State) : State :=
  let goes (a : Behind) : Bool := !s.partPending a.part a.die a.block
  { s with behind := s.behind.filter fun a => !goes a }.resumeAll ((s.behind.filter goes).map Behind.who)

/-- Whatever waits for room at a walker, or behind a write, goes on when a step has made that possible (R380). -/
def State.wakeWaiting (s : State) : State := s.wakeSlices.wakeBehind

/-! ### RELOC -/

end Sys2Proof.Machine

/-- The reference of the object that a RELOC names (R269). -/
def Sys2Proof.Rec.object (r : Rec) : Nat := r.specBits 0 32 * 2 ^ 32 + r.tailBits 0 10 * 2 ^ 22

namespace Sys2Proof.Machine

/-- The gallery of the partition that holds an address, among those from `g` on. -/
def State.galleryAt (s : State) (ag : Agent) (va : Nat) : (n g : Nat) → State × Got (Option (Nat × Gallery))
  | 0, _ => (s, .ok none)
  | n + 1, g =>
    let r := s.gallery ag g
    match r.2 with
    | .ok (some x) =>
      if x.base ≤ va ∧ va < x.base + x.size then (r.1, .ok (some (g, x))) else State.galleryAt r.1 ag va n (g + 1)
    | .ok none => State.galleryAt r.1 ag va n (g + 1)
    | .wait => (r.1, .wait)
    | .access => (r.1, .access)
    | .data => (r.1, .data)

/-- Whether spans of a gallery from `k` on are STABLE, as their home reads them (R334, R338). -/
def State.spansStable (s : State) (ag : Agent) (g : Gallery) : (n k : Nat) → State × Got Bool
  | 0, _ => (s, .ok true)
  | n + 1, k =>
    let r := s.readVa ag (BitVec.ofNat 64 (g.smap + k / 4)) 1
    match r.2 with
    | .ok l => if bits (ofBytes l) (2 * (k % 4)) 2 = 0 then State.spansStable r.1 ag g n (k + 1) else (r.1, .ok false)
    | .wait => (r.1, .wait)
    | .access => (r.1, .access)
    | .data => (r.1, .data)

/-- The locations of `n` lines from an address on, for writing. -/
def State.lineKeys (s : State) (ag : Agent) (va : Nat) : Nat → State × Got (List Nat)
  | 0 => (s, .ok [])
  | n + 1 =>
    let r := s.locateWrite ag (BitVec.ofNat 64 va) .never
    match r.2 with
    | .ok ks =>
      let q := State.lineKeys r.1 ag (va + 64) n
      (q.1, match q.2 with
        | .ok l => .ok (ks.take 1 ++ l)
        | g => g)
    | .wait => (r.1, .wait)
    | .access => (r.1, .access)
    | .data => (r.1, .data)

/-- What a RELOC's checks find: the move may be made, or it has ended with a result (R269). -/
inductive Move where
  | go (r : RelocState)
  | result (n : Nat)
  deriving DecidableEq, Repr

/-- The free entries of a bucket: their offsets in it, lowest first (R338). -/
def State.freeEntries (s : State) (key : Nat) (d : List Byte) : List Nat :=
  [0, 16, 32, 48].filter fun o => !(ofBytes ((d.drop o).take 8)).testBit 0 && !s.reserved.contains (key + o)

/-- Step 1 of R338 once the old copy and its gallery are known. -/
def State.movePoint (s : State) (ag : Agent) (w old len dest : Nat) (g : Gallery) (dn : Nat) (dg : Gallery) :
    State × Got Move :=
  let tag : Agent := { ag with source := 3 }
  let b := s.locateWrite tag (BitVec.ofNat 64 (g.ptab + 64 * bucketOf g (refOffset w))) .never
  match b.2 with
  | .ok ks =>
    let key := ks.headD 0
    let l := b.1.readLineKey key
    match l.2 with
    | .ok (d, _) =>
      if (matchEntry (bits w 22 42) (elements d 64)).isSome then (l.1, .ok (.result 2))
      else
        let ls := l.1.lineKeys ag (old / 64 * 64) ((old % 64 + len + 63) / 64)
        match ls.2 with
        | .ok lines =>
          let header := lines.headD 0 + old % 64
          let hd := ls.1.readKey header 16
          match hd.2 with
          | .ok x =>
            if bits (ofBytes x) 64 16 ≠ 0 then (hd.1, .ok (.result 1))
            else match hd.1.freeEntries key d with
              | [] => (hd.1, .access)
              | o :: _ =>
                (hd.1, .ok (.go (.moved old dest len lines (key + o)
                  (BitVec.ofNat 64 (bits w 22 42 * 2 ^ 22 + 1))
                  (BitVec.ofNat 64 (dn * 2 ^ 58 + (dest - dg.base) / 16 * 2 ^ 22)))))
          | .wait => (hd.1, .wait)
          | .access => (hd.1, .access)
          | .data => (hd.1, .data)
        | .wait => (ls.1, .wait)
        | .access => (ls.1, .access)
        | .data => (ls.1, .data)
    | .wait => (l.1, .wait)
    | .access => (l.1, .access)
    | .data => (l.1, .data)
  | .wait => (b.1, .wait)
  | .access => (b.1, .access)
  | .data => (b.1, .data)

/-- The checks of a RELOC (R338): those before step 1, each with status ACCESS, then those of step 1. -/
def State.relocChecks (s : State) (ag : Agent) (w dest : Nat) : State × Got Move :=
  let tag : Agent := { ag with source := 3 }
  let a := s.checkRef tag w
  match a.2 with
  | .ok (.ok _, some g) =>
    let old := (objectAddress g w).toNat
    let sp := a.1.readVa tag (BitVec.ofNat 64 (g.smap + (16 * refOffset w / 2 ^ 21) / 4)) 1
    let hd := sp.1.readVa ag (BitVec.ofNat 64 old) 16
    match sp.2, hd.2 with
    | .ok b, .ok x =>
      let len := 16 + bits (ofBytes x) 0 36
      let dg := hd.1.galleryAt tag dest 64 0
      match dg.2 with
      | .ok (some (n, y)) =>
        let first := (dest - y.base) / 2 ^ 21
        let last := (dest + len - 1 - y.base) / 2 ^ 21
        if bits (ofBytes b) (2 * ((16 * refOffset w / 2 ^ 21) % 4)) 2 ≠ 1 ∨ dest % 16 ≠ 0 ∨ dest % 64 ≠ old % 64
            ∨ (n = 0 ∧ dest = y.base) ∨ y.base + y.size < dest + len then (dg.1, .access)
        else
          let st := dg.1.spansStable tag y (last + 1 - first) first
          match st.2 with
          | .ok true => st.1.movePoint ag w old len dest g n y
          | .ok false => (st.1, .access)
          | .wait => (st.1, .wait)
          | .access => (st.1, .access)
          | .data => (st.1, .data)
      | .ok none => (dg.1, .access)
      | .wait => (dg.1, .wait)
      | .access => (dg.1, .access)
      | .data => (dg.1, .data)
    | .wait, _ => (sp.1, .wait)
    | .access, _ => (sp.1, .access)
    | .data, _ => (sp.1, .data)
    | _, .wait => (hd.1, .wait)
    | _, .access => (hd.1, .access)
    | _, .data => (hd.1, .data)
  | .ok (.trap k, _) => (a.1, if k = 0x0B then .data else .access)
  | .ok (.ok _, none) => (a.1, .access)
  | .wait => (a.1, .wait)
  | .access => (a.1, .access)
  | .data => (a.1, .data)

/-- A header's second word with MV clear (Table 11.2). -/
def clearMv (w : Nat) : Nat := (w ||| 0x10000) - 0x10000

/-- A line belongs to an old copy that the relocation of another core still moves: copies begin at granules of 16 bytes,
so two may share a line (R335, R338). -/
def State.stillMoves (s : State) (c : CoreId) (k : Nat) : Bool :=
  (List.finRange 160).any fun d => d != c && match (s.core d).copy.reloc with
    | .moved _ _ _ lines _ _ _ => lines.any fun l => l / 64 == k / 64
    | _ => false

/-- MOVING of the lines, and MV of the header at `hd`, set or cleared by a core, indivisibly (R338); a line that another
relocation moves keeps MOVING. The write of MV tests the wait entries of its word (R327). -/
def State.setMoving (s : State) (c : CoreId) (lines : List Nat) (hd : Nat) (on : Bool) : State :=
  let w := ofBytes (s.mem.read (hd + 8) 8)
  let v := if on then w ||| 0x10000 else clearMv w
  let mem := s.mem.write (hd + 8) (bytesOf 8 v)
  let t := s.tags.get (hd / 64)
  let hdTag := makeTag (tagFmt t) (tagScale t) (tagRefb t) (mem.read (hd / 64 * 64) 64) ||| (t &&& 0x1000000)
  let tags := lines.foldl (fun (ts : Tags) k =>
    let g := if k / 64 = hd / 64 then hdTag else ts.get (k / 64)
    ts.set (k / 64) (if on || s.stillMoves c k then g ||| 0x2000000 else movedTag g)) s.tags
  ({ s with mem := mem, tags := tags }.advanceClock (dieOf c)).performed (dieOf c) (hd + 8) 8

/-- Accesses held at lines that no longer move proceed (R338). -/
def State.releaseHeld (s : State) (lines : List Nat) : State :=
  let mine (p : Nat × Requester) : Bool := lines.any fun k => k / 64 == p.1
  { s with heldMoving := s.heldMoving.filter fun p => !mine p }.resumeAll ((s.heldMoving.filter mine).map Prod.snd)

/-- The relocation of a core ends: MOVING and MV are cleared, accesses held at lines that no longer move proceed, and the
reservation ends. -/
def State.settle (s : State) (c : CoreId) (lines : List Nat) (hd entry : Nat) : State :=
  let s := s.setMoving c lines hd false
  { s with reserved := s.reserved.filter fun k => k != entry }.releaseHeld (lines.filter fun k => !s.stillMoves c k)

/-- One line of the copy (step 2 of R338): whole lines keep their tags; partial lines merge and get a new CHECK; REFB
bits move with their words; the copy's header has MV = 0. A partial line of another device that takes REFB bits is merged
here and leaves whole (log 61). -/
def State.relocLine (s : State) (c : CoreId) (h : Handle) (e : Entry) (old new len : Nat) (lines : List Nat) (i : Nat) :
    Work :=
  let ag := s.taskAgent c (.copy c)
  let la := old / 64 * 64 + 64 * i
  let lo := max old la - la
  let hi := min (old + len) (la + 64) - la
  let src := s.readLineKey (lines.getD i 0)
  match src.2 with
  | .ok (d, t) =>
    match src.1.reachVa e true ((la : Int) - old + new + lo) (hi - lo) with
    | .bad => .stop src.1 causeAccess
    | .suppressed => .done (src.1.cause c h causeUndeclared)
    | .found l =>
      let whole := lo == 0 && hi == 64
      let a := src.1.aim ag l (!whole)
      let part := (d.drop lo).take (hi - lo)
      let data := if i = 0 then part.take 8 ++ bytesOf 8 (clearMv (ofBytes ((part.drop 8).take 8)))
        ++ part.drop 16 else part
      let merged := relocMerge lo data t
      let tag := if i ≠ 0 then movedTag t else makeTag (tagFmt t) (tagScale t) (tagRefb t) data
      let w := writerOf c .copy h
      match a.2 with
      | .ok (.keys ks left va) =>
        if whole then .done (a.1.putLine ag w (.keys ks left va) data tag)
        else .done (a.1.putAt ag ks left va data (.reloc t))
      | .ok (.remote dev p va) =>
        if whole then .done (a.1.putLine ag w (.remote dev p va) data tag)
        else if tagRefb t &&& refMask lo (hi - lo) = 0 then .done (a.1.mergeBytes ag w (.remote dev p va) data)
        else
          let there := a.1.readLoc ag l
          match there.2 with
          | .ok x => .done (there.1.putLine ag w (.remote dev p (va &&& ~~~63#64)) (merged x).1 (merged x).2)
          | .wait => .wait there.1 false
          | g => .stop there.1 g.causes
      | .wait => .wait a.1 false
      | g => .stop a.1 g.causes
  | g => .stop src.1 g.causes

/-- The lines of a RELOC from where it stands; an error after the move point settles without an entry. -/
def relocRun (c : CoreId) (h : Handle) (e : Entry) (old new len : Nat) (lines : List Nat) (entry : Nat) :
    (n i : Nat) → State → State
  | 0, _, s => s.once (.event (.relocSettle c) .none)
  | n + 1, i, s =>
    match s.relocLine c h e old new len lines i with
    | .done s => relocRun c h e old new len lines entry n (i + 1) (s.setEngine c .copy { s.engine c .copy with progress := i + 1 })
    | .wait s _ => s
    | .stop s k => (s.settle c lines (lines.headD 0 + old % 64) entry).endRecord c .copy k

/-- A RELOC ends with a result (R269). -/
def State.relocResult (s : State) (c : CoreId) (h : Handle) (r : Rec) (n : Nat) : State :=
  (if r.tailBits 22 1 = 1 then s.writeBound c h (r.tailBits 16 6) n else s).endRecord c .copy Causes.none

/-- The task declares the object as a managed-object region of access RW (R269). -/
def Entry.mayMove (e : Entry) (w : Nat) : Bool :=
  (e.slotsOf 6).any fun n =>
    (e.region n).testBit 3 && (e.region n).testBit 4 && (bits (e.region n) 86 42 == bits w 22 42
      || (slotValue e.objects n).any fun v => bits v.toNat 22 42 == bits w 22 42)

/-- The task declares the object of a RELOC (R269): a region names it as the record does, or in its present form (R277),
which a save and restore leaves in the region (R342; DEDUCED, log 92); `wait` waits for the lookup. -/
def State.declared (s : State) (ag : Agent) (e : Entry) (w : Nat) : State × Got Bool :=
  if e.mayMove w || !(e.slotsOf 6).any (fun n => (e.region n).testBit 3 && (e.region n).testBit 4) then (s, .ok (e.mayMove w))
  else
    let r := s.present { ag with source := 3 } w
    match r.2 with
    | .ok (.ok v, _) => (r.1, .ok (e.mayMove v))
    | .wait => (r.1, .wait)
    | _ => (r.1, .ok false)

/-- RELOC (R269, R338). -/
def execReloc (r : Rec) (s : State) : Host.Outcome State Fault Refusal :=
  let c := s.focus
  match s.copying with
  | none => .next s
  | some (h, e) =>
    let x := s.engine c .copy
    let ok := r.unusedOk {} && r.tailBits 10 6 == 0 && r.tailBits 23 25 == 0 && r.trips == 0x0001000100010001#64
      && r.a.ok [0] && r.b.ok [3] && r.b.unstrided && r.c.ok [0] && bits (e.region r.b.slot) 0 3 == 2 && s.slotOk e r.b
    let dest := (s.slotStart e r.b.slot).getD 0 + r.b.offset
    let checks (declared : Bool) := ((Causes.when (decide (dest ≥ 2 ^ 58)) causeAccess).or (s.queueGate c e)).or
      (Causes.when (!declared) causeUndeclared)
    match x.reloc with
    | .moved old new len lines entry _ _ =>
      if e.causes.data || e.causes.access then
        .next ((s.settle c lines (lines.headD 0 + old % 64) entry).endRecord c .copy Causes.none)
      else .next (relocRun c h e old new len lines entry (lines.length - x.progress) x.progress s)
    | .ended _ => .next s
    | .none =>
      if !ok then .next (s.endRecord c .copy causeFormat)
      else
        let d := s.declared (s.taskAgent c (.copy c)) e r.object
        match d.2 with
        | .ok declared =>
          if (checks declared).status != 0 then .next (d.1.endRecord c .copy (checks declared))
          else
            let s := d.1.setEngine c .copy { d.1.engine c .copy with started := true }
            let m := s.relocChecks (s.taskAgent c (.copy c)) r.object dest
            match m.2 with
            | .ok (.result n) => .next (m.1.relocResult c h r n)
            | .ok (.go (.moved old new len lines entry ow nw)) =>
              let s := m.1.setMoving c lines (lines.headD 0 + old % 64) true
              let s := { s with reserved := s.reserved ++ [entry] }
              let s := s.setEngine c .copy { s.engine c .copy with
                reloc := .moved old new len lines entry ow nw, progress := 0 }
              .next (relocRun c h e old new len lines entry lines.length 0 s)
            | .ok (.go _) => .next m.1
            | .wait => .next m.1
            | g => .next (m.1.endRecord c .copy g.causes)
        | _ => .next d.1

/-- RELOC_SETTLE (R338): once the copy has been performed, the entry is installed, then MOVING and MV are cleared, and the
result is 0. A part of the copy that failed ends the record in its own step. -/
def execRelocSettle (core : CoreId) (s : State) : Host.Outcome State Fault Refusal :=
  match s.taken .copy core, (s.engine core .copy).reloc with
  | some (h, .reloc r), .moved old _ _ lines entry ow nw =>
    let ag := s.taskAgent core (.copy core)
    if s.waiting (.unit (.copy core)) then .next s
    else if s.unanswered (.copy core) core h then .next (s.once (.event (.relocSettle core) .none))
    else if (s.entry core h).causes.access || (s.entry core h).causes.data then .next (s.once (.unit (.copy core)))
    else
    let s := s.storeBy ag.die entry (bytesOf 8 ow.toNat ++ bytesOf 8 nw.toNat) false
    let s := s.settle core lines (lines.headD 0 + old % 64) entry
    .next (s.relocResult core h r 0)
  | _, _ => .next s

end Sys2Proof.Machine
end

