-- ==== Sys2Proof/Machine/Fabric.lean ====
section
/-! DEFINITION. What reaches the device from the fabric and the packets within it: task packets (R351, R352), requests of
other devices (R344-R348, R440), planes (R345-R347), fence markers (R353) and fault records (R379). -/

namespace Sys2Proof

/-- The header of a packet (Table 3.16). -/
def Packet.head (k : Packet) : Nat := (k.words.headD 0).toNat

/-- A packet of SIGNAL rather than POST. -/
def Packet.isSignal (k : Packet) : Bool := k.head % 256 == 2

/-- The step that a packet takes at its aperture. -/
def Packet.step (k : Packet) : Instr := if k.isSignal then .signalPacket else .postPacket

/-- The words of a packet that its LEN counts. -/
def Packet.used (k : Packet) : List Nat := (k.words.take (2 * bits k.head 8 5)).map BitVec.toNat

/-- The checks of R99 on a packet's form. -/
def Packet.bad (k : Packet) : Bool :=
  let len := bits k.head 8 5
  let n := 1 + Machine.popNat 32 (bits k.head 16 32) + bits k.head 13 3
  decide (len < 2) || decide (16 < len) || k.used.length != 2 * len || bits k.head 48 16 != 0
    || len != max 2 ((n + 1) / 2) || (k.used.drop n).any (fun w => w != 0) || bits k.head 43 5 != 0

/-- The image that a POST packet carries, and its successor handles. -/
def Packet.image (k : Packet) : Vector Word 32 × List Nat :=
  let body := k.used.drop 1
  let ws := Machine.setBits 32 (bits k.head 16 32)
  let hs := (body.drop ws.length).take (bits k.head 13 3)
  (Vector.ofFn fun i : Fin 32 =>
    if 27 ≤ i.val then BitVec.ofNat 64 (hs.getD (i.val - 27) 0)
    else match (ws.zipIdx.find? fun p => p.1 == i.val) with
      | some p => BitVec.ofNat 64 (body.getD p.2 0)
      | none => 0, hs)

end Sys2Proof

namespace Sys2Proof.Machine

/-! ### Fault records (R379) -/

/-- Waiting records of a partition are written as room appears. -/
def State.flushRecords (s : State) (p : PartNum) : State :=
  if s.records.any fun r => r.part == p then s.once (.event .faultRecordWrite (.part p 0)) else s

/-- FAULT_RECORD_WRITE: the oldest waiting record of a partition is written to its ring when there is room; the others
follow. -/
def execFaultRecordWrite (s : State) : Host.Outcome State Fault Refusal :=
  match s.arg with
  | .part p _ =>
    match s.records.find? fun r => r.part == p with
    | none => .next s
    | some r =>
      let x := s.part p
      let size := 2 ^ x.flsize.toNat
      if size ≤ (x.flprod - x.flcons).toNat then .next (s.setPart p { x with ovf := true })
      else
        let s := s.storeKey (hostKey (x.flbase.toNat + 32 * (x.flprod.toNat % size)))
          ((r.words.toList.map fun w => bytesOf 8 w.toNat).flatten) false
        let s := { s with records := s.records.erase r }
        let s := s.setPart p { x with flprod := x.flprod + 1, armed := x.armed && x.flprod + 1 == x.flcons }
        .next ((if x.armed ∧ x.flprod + 1 ≠ x.flcons then s.raiseSource p 5 else s).flushRecords p)
  | _ => .next s

/-! ### Task packets (R99, R351, R352) -/

/-- Whether a partition takes no packet for now: it is being saved, or is saved (R389). -/
def State.holdsPackets (s : State) (p : PartNum) : Bool := (s.part p).state == .stopped || s.saving p

/-- What became of a packet: answered with a reply of R158; held at its station, for shadow room when `cramped`; or parked
in a lookup. -/
inductive Taken where
  | answered (code : Nat)
  | hold (cramped : Bool)
  | parked
  deriving DecidableEq, Repr

/-- A SIGNAL packet is delivered as an arrival (R27, R351). -/
def State.takeSignal (s : State) (c : CoreId) (k : Packet) : State × Taken :=
  let h := k.used.getD 1 0
  let names := bits h 0 10 == s.devId.toNat && bits h 44 4 == k.part.val && decide (bits h 12 6 ≤ 39)
    && 40 * bits h 10 2 + bits h 12 6 == k.core && bits h 48 16 == 0
  if k.head ≠ 0x2202 ∨ k.bad ∨ !names ∨ (s.core c).failed then (s, .answered 1)
  else ((s.mergeClock (dieOf c) k.clock).arrival c (Fin.ofNat 256 (bits h 18 8)) (signed 16 (bits h 26 16)) (h.testBit 42)
    (h.testBit 43), .answered 0)

/-- A POST packet enters the catalogue of its core (R99, R155, R303). `grant`: it was held, and its turn has come. -/
def State.takePost (s : State) (c : CoreId) (k : Packet) (grant : Bool) : State × Taken :=
  let im := k.image
  if k.head % 256 ≠ 1 ∨ k.bad ∨ (vget im.1 0).getLsbD 9 ≠ !im.2.isEmpty then (s, .answered 1)
  else
    let s := s.mergeClock (dieOf c) k.clock
    let r := s.enterTask c im.1 ((im.2.drop 5).map (BitVec.ofNat 64)) grant (.fabric .postPacket (.packet k))
    (r.1, match r.2 with
      | .closed => .answered 2
      | .badKind => .answered 1
      | .full => .hold (if grant then (s.core c).entries.toList.any fun e => e.state == .free else s.entriesLeft c != 0)
      | .wait => .parked
      | .entered _ => .answered 0)

/-- A packet at the posting aperture of its core: one for a partition that is not there is refused, and one for a
partition that is being saved, or is saved, is held (R389). -/
def State.takePacket (s : State) (k : Packet) (grant : Bool) : State × Taken :=
  match (s.part k.part).state, s.physical k.part k.core with
  | .empty, _ => (s, .answered 1)
  | .resetting, _ => (s, .answered 2)
  | _, none => (s, .answered 1)
  | _, some c =>
    if s.holdsPackets k.part then (s, .hold false)
    else if k.isSignal then s.takeSignal c k
    else s.takePost c k grant

/-- A packet's sender has its reply: POSTR's register (R158), or the lost-arrival count of a handle or of a host SIGNAL
(R352, R398). -/
def State.answerPacket (s : State) (k : Packet) (code : Nat) : State :=
  if k.srcDev ≠ s.devId then
    s.reply ⟨k.srcDev, k.srcPart, k.seq, k.plane.getD 0⟩ (code == 0) code [] []
  else match k.sender with
    | some (u, q) => s.event (.postrReply u q (BitVec.ofNat 3 code))
    | none =>
      if code = 0 then s
      else
        let x := s.part k.srcPart
        s.setPart k.srcPart { x with lostarr := if x.lostarr = 0xFFFFFFFF#32 then x.lostarr else x.lostarr + 1 }

/-- Whether an earlier packet for the same core from the same device is held, which a POST packet waits for (R352). -/
def State.queuesBehind (s : State) (k : Packet) : Bool := !k.isSignal && !(s.heldOfPair k).isEmpty

/-- The catalogue that a packet is for is closed (R303, R388). -/
def State.shut (s : State) (k : Packet) : Bool :=
  match s.physical k.part k.core with
  | some c => (s.core c).closed
  | none => false

/-- A packet is held; while two of its pair are, it waits at its source station (R352). -/
def State.holdPacket (s : State) (k : Packet) (cramped : Bool) : State :=
  if 2 ≤ (s.heldOfPair k).length then { s with stationed := s.stationed ++ [k] }
  else { s with heldPackets := s.heldPackets ++ [⟨k, s.now, cramped⟩] }

/-- A packet of a pair is held no more: the next of the pair that waits at its source station is sent (R352). -/
def State.unhold (s : State) (h : HeldPacket) : State :=
  let s := { s with heldPackets := s.heldPackets.erase h }
  match s.stationed.find? fun k => k.samePair h.packet with
  | some k => { s with stationed := s.stationed.erase k, agenda := .event k.step (.packet k) :: s.agenda }
  | none => s

/-- A packet arrives (R351, R352), in the order of its plane (R346): it is taken, or held. One that has been applied is
answered again (R347). -/
def State.packetArrives (s : State) (k : Packet) : State :=
  let fabric := k.srcDev != s.devId
  let src : FabricSrc := ⟨k.srcDev, k.srcPart, k.seq, k.plane.getD 0⟩
  let mine (h : Packet) : Bool := fabric && h.srcDev == k.srcDev && h.seq == k.seq
  match (if fabric then s.answered k.srcDev k.seq else none) with
  | some code => s.replyAgain src code 0 0
  | none =>
    let again (h : Packet) : Packet := if mine h then { h with plane := k.plane } else h
    if (s.heldPackets.any fun h => mine h.packet) || s.stationed.any mine then
      { s with
        heldPackets := s.heldPackets.map fun (h : HeldPacket) => { h with packet := again h.packet }
        stationed := s.stationed.map again }
    else if fabric && s.waitsAlready src then s.comesAgain src
    else if fabric && s.sourceWaits src then s.queueBehind k.step src
    else
      let r := if s.queuesBehind k && (s.part k.part).state != .empty && (s.part k.part).state != .resetting && !s.shut k
        then (s, Taken.hold false) else s.takePacket k false
      match r.2 with
      | .answered n => r.1.answerPacket k n
      | .hold cramped => r.1.holdPacket k cramped
      | .parked => r.1

/-- SIGNAL_PACKET (R351). -/
def execSignalPacket (s : State) : Host.Outcome State Fault Refusal :=
  match s.arg with
  | .packet k => .next (s.packetArrives k)
  | _ => .next s

/-- POST_PACKET (R351, R352). -/
def execPostPacket (s : State) : Host.Outcome State Fault Refusal :=
  match s.arg with
  | .packet k => .next (s.packetArrives k)
  | _ => .next s

/-- HELD_PACKET_ACCEPT (R352): the oldest held packet of a core, of those that do not wait for shadow room or behind
another of their source, is tried again, unless a post of the core has waited longer (R287). Then whatever waits for an
entry of the core goes on: parked posts and held packets. -/
def execHeldPacketAccept (core : CoreId) (s : State) : Host.Outcome State Fault Refusal :=
  let mayGo (x : HeldPacket) : Bool := s.wantsEntry core x && (s.heldOfPair x.packet).head? == some x
  let next (s : State) : State := s.once (.event (.parkedPostResume core) .none)
  match s.heldPackets.find? mayGo with
  | none => .next s
  | some x =>
    let older := (s.core core).waitingPosts.any fun i => decide ((s.ctx ⟨core, i⟩).postAt ≤ x.at_)
    if older && !s.holdsPackets x.packet.part && !x.packet.isSignal then .next (next s)
    else
      let r := s.takePacket x.packet true
      match r.2 with
      | .hold false => .next r.1
      | .hold true =>
        let l := r.1.heldPackets.map fun y => if y == x then { y with cramped := true } else y
        .next (next { r.1 with heldPackets := l })
      | .parked => .next (next (r.1.unhold x))
      | .answered n => .next (next ((r.1.unhold x).answerPacket x.packet n))

/-! ### Requests of other devices (R344, R347, R348, R440) -/

/-- A request is served once (R347), in its order (R346), for a partition that serves it; `go` performs it. -/
def State.serve (s : State) (i : Instr) (src : FabricSrc) (n lines : Nat) (go : State → State) :
    Host.Outcome State Fault Refusal :=
  let p := (s.part src.part).state
  match s.answered src.dev src.seq with
  | some code => .next (s.replyAgain src code n lines)
  | none =>
    if s.waitsAlready src then .next (s.comesAgain src)
    else if s.sourceWaits src then .next (s.queueBehind i src)
    else if p = .empty ∨ p = .resetting then .next (s.reply src false 1 [] [])
    else .next (go s)

/-- An address of device memory or commons of this device. -/
def State.reachable (s : State) (va : Word) : Bool := s.ownMemory va

/-- Lines read for a reply, each with its tag; a failing line is poisoned and carries POISON (R37, R348). -/
def State.replyLines (s : State) (ag : Agent) (va : Word) : Nat → State × Got (List (List Byte × Word))
  | 0 => (s, .ok [])
  | n + 1 =>
    let a := s.locateRead ag va
    match a.2 with
    | .ok k =>
      let v := a.1.verify (k / 64)
      let r := State.replyLines v.1 ag (va + 64) n
      (r.1, match r.2 with
        | .ok l => .ok ((v.1.lineData (k / 64), v.1.tags.get (k / 64)) :: l)
        | g => g)
    | .wait => (a.1, .wait)
    | .access => (a.1, .access)
    | .data => (a.1, .data)

/-- FABRIC_READ (R344, R348, R440). -/
def execFabricRead (s : State) : Host.Outcome State Fault Refusal :=
  match s.arg with
  | .read src va size =>
    s.serve .fabricRead src size (if size < 64 then 0 else size / 64) fun s =>
      let ag := s.fabricAgent src .fabricRead
      if !([8, 16, 32, 64, 128, 256].contains size) || va.toNat % size != 0 || !s.reachable va then s.reply src false 1 [] []
      else if size < 64 then
        let r := s.readVa ag va size
        match r.2 with
        | .ok d => r.1.reply src true 0 d []
        | .wait => r.1
        | .access => r.1.reply src false 1 [] []
        | .data => r.1.reply src false 2 [] []
      else
        let r := s.replyLines ag va (size / 64)
        match r.2 with
        | .ok l => r.1.reply src true 0 ((l.map (·.1)).flatten) (l.map (·.2))
        | .wait => r.1
        | .access => r.1.reply src false 1 [] []
        | .data => r.1.reply src false 2 [] []
  | _ => .next s

/-- Whole lines aimed one by one (R344): where each goes. -/
def State.aimLines (s : State) (ag : Agent) (va : Word) (merges : Bool) : Nat → State × Got (List Aim)
  | 0 => (s, .ok [])
  | n + 1 =>
    let a := s.aim ag (.va va) merges
    match a.2 with
    | .ok m =>
      let r := State.aimLines a.1 ag (va + 64) merges n
      (r.1, match r.2 with
        | .ok l => .ok (m :: l)
        | g => g)
    | .wait => (a.1, .wait)
    | .access => (a.1, .access)
    | .data => (a.1, .data)

/-- A whole line from the fabric: with its tag, POISON set where its CHECK fails, which is counted (R387, R414), or merged
as a docent store (R348). -/
def State.putFabricLine (s : State) (ag : Agent) (m : Aim) (d : List Byte) (t : Option Word) : State :=
  match m, t with
  | .keys ks left va, some g =>
    let r := s.arrivingTag ((ks.headD 0) / 64) d g
    r.1.putAt ag ks left va d (.line r.2)
  | .keys ks left va, none => s.putAt ag ks left va d (.merge false)
  | _, _ => s

/-- Whether a located write leaves parts parked (R378). -/
def Aim.parted : Aim → Bool
  | .keys _ left _ => !left.isEmpty
  | .remote _ _ _ => false

/-- A request of a task to another device is answered: a line of a copy record is delivered (R259), and the task goes on
when it waited for this (R217). -/
def State.writeAnswered (s : State) (seq : BitVec 32) : State :=
  match s.requests.find? fun q => q.seq == seq with
  | none => s
  | some q =>
    let s := { s with requests := s.requests.erase q }
    match q.who with
    | .unit (.copy c) _ h => if (s.engine c .copy).handle = some h then s.lineDelivered c else s
    | .unit (.vector c) _ _ => s.once (.unit (.vector c))
    | .unit (.docent c) _ h => s.docentComplete ⟨c, (s.entry c h).ctx⟩ h (s.entry c h).gen
    | _ => s

/-- FABRIC_WRITE (R344, R348, R440): a write of another device, or another device's answer to one. A line for a reduction
slot's line 1 goes to its step at once, in the order of its plane (R346, R364). -/
def execFabricWrite (s : State) : Host.Outcome State Fault Refusal :=
  match s.arg with
  | .completion seq _ => .next (s.writeAnswered seq)
  | .store src va d tags =>
    let n := d.length
    let lines := n % 64 == 0 && decide (64 ≤ n) && decide (n ≤ 256) && va.toNat % 64 == 0
      && (tags.isEmpty || tags.length == n / 64)
    let small := tags.isEmpty && [1, 2, 4, 8].contains n && va.toNat % n == 0
    let slot := match s.target va with
      | .aperture off => if n = 64 ∧ lines then apertureStep off (.fabric src) (Vector.replicate 4 0) d 0 else none
      | _ => none
    match slot with
    | some (.reductionContribute, a) =>
      .next (if s.waitsAlready src then s.comesAgain src
        else if s.sourceWaits src then s.queueBehind .fabricWrite src
        else { s with agenda := .event .reductionContribute a :: s.agenda })
    | _ =>
      s.serve .fabricWrite src 0 0 fun s =>
        let ag := s.fabricAgent src .fabricWrite
        if !(lines || small) || !s.reachable va then s.reply src false 1 [] []
        else if small then
          let a := s.locateAll ag va
          match a.2 with
          | .ok p =>
            let r := a.1.storeSpread ag none va p d false
            match r.2 with
            | .ok _ => if p.2.isEmpty then r.1.reply src true 0 [] [] else r.1
            | .wait => r.1
            | .access => r.1.reply src false 1 [] []
            | .data => r.1.reply src false 2 [] []
          | .wait => a.1
          | .access => a.1.reply src false 1 [] []
          | .data => a.1.reply src false 2 [] []
        else
          let a := s.aimLines ag va tags.isEmpty (n / 64)
          match a.2 with
          | .ok ms =>
            let s := ms.zipIdx.foldl (fun s p => s.putFabricLine ag p.1 ((d.drop (64 * p.2)).take 64) (tags[p.2]?)) a.1
            if ms.any Aim.parted then s else s.reply src true 0 [] []
          | .wait => a.1
          | .access => a.1.reply src false 1 [] []
          | .data => a.1.reply src false 2 [] []
  | _ => .next s

/-- FABRIC_ATOMIC (R132, R133, R344, R440): an operation, or compare-and-swap. -/
def execFabricAtomic (s : State) : Host.Outcome State Fault Refusal :=
  match s.arg with
  | .atomic src va op z v cmp =>
    let n := z.size.bytes
    s.serve .fabricAtomic src n 0 fun s =>
      if va.toNat % n ≠ 0 ∨ !s.reachable va then s.reply src false 1 [] []
      else
        let r := s.rmw (s.fabricAgent src .fabricAtomic) va n fun s old =>
          (s, match op with
            | some o => some (amoResult o (8 * n) old v.toNat)
            | none => if old = cmp.toNat % 2 ^ (8 * n) then some (v.toNat % 2 ^ (8 * n)) else none)
        match r.2 with
        | .ok old => r.1.reply src true 0 (bytesOf n old) []
        | .wait => r.1
        | .access => r.1.reply src false 1 [] []
        | .data => r.1.reply src false 2 [] []
  | _ => .next s

/-! ### Answers and planes (R347, R350, R361) -/

/-- A request to another device has failed: its requester meets the error (R347, R440), or DATA where the home's line
failed verification, which is reply 2 (Table 4.5, R37). A handle that its target refuses is counted; one whose target no
plane reaches, which is reply 3, is refused by none (R352). -/
def State.requestFails (s : State) (q : Request) (reply : BitVec 3) (cause : Nat) : State :=
  let s := { s with requests := s.requests.erase q }
  let trap : BitVec 8 := if reply = 2 then 0x0B else 0x05
  match q.who with
  | .load u seq =>
    match (s.ctx u).load with
    | some l => if l.seq = seq ∧ l.failure = none then s.loadFails u l trap else s
    | none => s
  | .store u =>
    match (s.ctx u).stores with
    | w :: _ => s.storeFails u w trap
    | [] => s
  | .marker u dev p fseq => s.eventWith .fenceMarkerAnswer (.markerAnswer u dev p fseq)
  | .postr u seq => s.event (.postrReply u seq reply)
  | .handle p =>
    let x := s.part p
    if reply = 3 then s else s.setPart p { x with lostarr := if x.lostarr = 0xFFFFFFFF#32 then x.lostarr else x.lostarr + 1 }
  | .queue c n => s.breakQueue c n cause
  | .fillLine c n _ => s.breakQueue c n cause
  | .unit (.docent _) c h =>
    (s.cause c h (if reply = 2 then causeData else causeAccess)).docentComplete ⟨c, (s.entry c h).ctx⟩ h (s.entry c h).gen
  | .unit u c h => (s.cause c h (if reply = 2 then causeData else causeAccess)).once (.unit u)
  | .drain _ => s

/-- ERROR_COMPLETION (R350, R355, R440): an error response to a request. -/
def execErrorCompletion (s : State) : Host.Outcome State Fault Refusal :=
  match s.arg with
  | .completion seq reply =>
    match s.requests.find? fun q => q.seq == seq with
    | some q => .next (s.requestFails q reply 2)
    | none => .next s
  | _ => .next s

/-- What a request sent, by its sequence number. -/
def Out.seq : Out → Option (BitVec 32)
  | .read _ _ q _ _ _ => some q
  | .write _ _ q _ _ _ _ => some q
  | .atomic _ _ q _ _ _ _ _ _ => some q
  | .line _ _ q _ _ _ => some q
  | .packet _ _ q _ => some q
  | .marker _ _ q _ _ => some q
  | _ => none

/-- The same request on another plane. -/
def Out.onPlane (o : Out) (p : Plane) : Out :=
  match o with
  | .read d _ q part va n => .read d p q part va n
  | .write d _ q part va l t => .write d p q part va l t
  | .atomic d _ q part va op z v c => .atomic d p q part va op z v c
  | .packet d _ q k => .packet d p q k
  | .line d _ q l x t => .line d p q l x t
  | .marker d _ q part w => .marker d p q part w
  | o => o

/-- The start value of a request that is sent again (R346); a store or atomic that a docent task left at DONE keeps that of
its context. -/
def State.startOf (s : State) (q : Request) (o : Out) : Nat :=
  match q.who, o with
  | .load u _, _ => docentStart q.dev u
  | .store u, _ => docentStart q.dev u
  | .postr u _, _ => docentStart q.dev u
  | .unit (.docent _) c h, _ => docentStart q.dev ⟨c, (s.entry c h).ctx⟩
  | _, .write _ _ _ _ va _ _ => lineStart va
  | _, .packet _ _ _ k => k.core
  | _, _ => q.plane.val

/-- A link queue whose plane is lost breaks with cause 1, and sends BREAK on a plane that still reaches the other end
(R361); an outbound queue is bound to a plane by its first permit (R354). -/
def State.planeQueues (s : State) (p : Plane) (hit : DevNum → Bool) : State :=
  (List.finRange 160).foldl (fun s c => (List.finRange 16).foldl (fun s n =>
    let q := s.queue c n
    if q.state == .opened && q.plane == p && q.dev != s.devId && hit q.dev && (q.bound || !q.outbound)
    then s.breakBoth c n 1 else s) s) s

/-- A BREAK line. -/
def Out.isBreak : Out → Bool
  | .line _ _ _ l _ _ => bits l.word.toNat 0 4 == 4
  | _ => false

/-- An unanswered request on a lost plane is sent again on the plane that R346 now gives, or fails (R347); a BREAK, on any
plane that still reaches the other end (R361). -/
def State.resend (s : State) (q : Request) : State :=
  match s.out.find? fun o => o.seq == some q.seq with
  | none => s
  | some o =>
    let dropped := match q.who with
      | .queue _ _ => !o.isBreak || s.planes q.dev == 0
      | .fillLine _ _ _ => true
      | _ => false
    if dropped then { s with requests := s.requests.erase q }
    else match q.who, s.planeFor q.dev (s.startOf q o) with
    | _, none => s.requestFails q 3 1
    | _, some p =>
      { s with
        requests := s.requests.map fun r => if r == q then { r with plane := p } else r
        out := s.out ++ [o.onPlane p] }

/-- Queues and unanswered requests of a plane that no longer reaches the devices given (R347, R361). -/
def State.losePlane (s : State) (p : Plane) (hit : DevNum → Bool) : State :=
  (s.requests.filter fun (q : Request) => q.plane == p && hit q.dev).foldl (fun s q => s.resend q) (s.planeQueues p hit)

/-- The leader changes the live masks for a link that has gone down or come up (R345, R408). -/
def State.changeLinks (s : State) (a : Arg) : State :=
  match a with
  | .down p (some e) =>
    { s with live := s.live.map fun (x : DevNum × BitVec 16) =>
        if x.1 == e then (x.1, x.2 &&& ~~~(1#16 <<< p.val)) else x }.losePlane p fun d => d == e
  | .up p devs => devs.foldl (fun s d =>
      let m : BitVec 16 := match s.live.find? fun x => x.1 == d with
        | some x => x.2
        | none => 0
      { s with live := (d, m ||| (1#16 <<< p.val)) :: s.live.filter fun x => x.1 != d }) s
  | _ => s

/-- A change of links reaches the live masks, or waits until a keeper leads (R408). -/
def State.linksChange (s : State) (a : Arg) : State :=
  if s.leads then s.changeLinks a else { s with linkChanges := s.linkChanges ++ [a] }

/-- PLANE_DOWN (R345, R347, R361): a plane is lost to one device, or here to all. -/
def execPlaneDown (s : State) : Host.Outcome State Fault Refusal :=
  match s.arg with
  | .down p none => .next ({ s with stations := vset s.stations p false }.losePlane p fun _ => true)
  | .down p (some d) => .next (s.linksChange (.down p (some d)))
  | _ => .next s

/-- PLANE_UP (R345): a plane reaches devices. -/
def execPlaneUp (s : State) : Host.Outcome State Fault Refusal :=
  match s.arg with
  | .up p devs => .next ({ s with stations := vset s.stations p true }.linksChange (.up p devs))
  | _ => .next s

/-! ### Fence markers (R353) -/

/-- FENCE_MARKER: a marker of another device is answered once every earlier request of its plane has been applied. -/
def execFenceMarker (s : State) : Host.Outcome State Fault Refusal :=
  match s.arg with
  | .marker src _ =>
    match s.answered src.dev src.seq with
    | some code => .next (s.replyAgain src code 0 0)
    | none =>
      if s.waitsAlready src then .next (s.comesAgain src)
      else if s.sourceWaits src then .next (s.queueBehind .fenceMarker src) else .next (s.reply src true 0 [] [])
  | _ => .next s

/-- FENCE_MARKER_ANSWER: the fence, or the draining of a partition's reset (R406), waits for one answer less; an answer to
an earlier fence is dropped. -/
def execFenceMarkerAnswer (s : State) : Host.Outcome State Fault Refusal :=
  match s.arg with
  | .markerAnswer u dev p fseq =>
    let x := s.ctx u
    let s := { s with requests := s.requests.filter fun r => r.who != Waiter.marker u dev p fseq }
    .next (if x.fseq = fseq then (s.setCtx u { x with markers := x.markers.erase (dev, p) }).endTrail u else s)
  | .completion seq _ =>
    .next { s with requests := s.requests.filter fun r => !(r.seq == seq && (match r.who with
      | .drain _ => true
      | _ => false)) }
  | _ => .next s

end Sys2Proof.Machine
end

