-- ==== Sys2Proof/Machine/Reduction.lean ====
section
/-! DEFINITION. Reduction slots (R362-R367) and appraisers (R368-R372). -/

namespace Sys2Proof.Machine

/-! ### Reduction slots -/

def State.slot (s : State) (n : BNum) : RSlot := vget s.slots n

def State.setSlot (s : State) (n : BNum) (x : RSlot) : State := { s with slots := vset s.slots n x }

/-- The die of a slot's station (R346, R362). -/
def slotDie (n : BNum) : DieNum := Fin.ofNat 4 (n.val / 16)

/-- Fields of an allocation (Table 12.6). -/
def RSlot.word0 (x : RSlot) : Nat := (vget x.alloc 0).toNat
def RSlot.op (x : RSlot) : Nat := bits x.word0 0 2
def RSlot.ty (x : RSlot) : BitVec 5 := BitVec.ofNat 5 (bits x.word0 2 5)
def RSlot.elems (x : RSlot) : Nat := bits x.word0 11 6
def RSlot.part (x : RSlot) : PartNum := Fin.ofNat 16 (bits x.word0 43 4)

/-- The element types of a slot (Table 12.6). -/
def slotType (t : BitVec 5) : Bool := [0x00, 0x01, 0x02, 0x03, 0x0B, 0x0C, 0x13, 0x14].contains t.toNat

/-- Whether an allocation breaks R363. -/
def State.allocationBad (s : State) (n : BNum) (core : CoreId) (ws : List Nat) : Bool :=
  let w0 := nth ws 0
  let t : BitVec 5 := BitVec.ofNat 5 (bits w0 2 5)
  let el := elOf t
  let rm := bits w0 8 3
  let elems := bits w0 11 6
  let part : PartNum := Fin.ofNat 16 (bits w0 43 4)
  let w3 := nth ws 3
  !slotType t || (!el.isFloat && w0.testBit 7) || rm == 7 || (rm != 0 && !(el.isFloat && bits w0 0 2 == 0))
    || elems == 0 || decide (56 / el.bytes < elems) || bits w0 48 16 != 0
    || (nth ws 2).testBit 42 || (nth ws 2).testBit 43
    || w3 % 64 != 0 || w3 >>> 57 != 0 || bits w3 47 10 != s.devId.toNat
    || (ws.drop 4).any (fun w => w != 0)
    || s.partOf core != part || !(s.part part).rslot.toNat.testBit n.val

/-- The writer of an aperture line has its answer (R350). -/
def State.answerWriter (s : State) (w : Writer) (ok : Bool) : State :=
  match w with
  | .record c => s.apertureAnswered c ok
  | .fabric src => s.reply src ok (if ok then 0 else 1) [] []

/-- The tick of 256 ns at which a slot allocated at a time completes with TIMEOUT (R366): the first at or after its
deadline; the next one, for a deadline that is past. -/
def dueTick (time deadline : Nat) : Nat :=
  if deadline ≤ time then (time / 256 + 1) * 256 else roundUp deadline 256

/-- REDUCTION_ALLOCATE (R363). The slot's seed is VSEED of its partition as it stands at the allocation (Table 2.10; DESIGN
CHOICE, log 86). -/
def execReductionAllocate (s : State) : Host.Outcome State Fault Refusal :=
  match s.arg with
  | .slot n w line _ =>
    let ws := codesOf 8 8 line
    match w with
    | .fabric _ => .next (s.answerWriter w false)
    | .record core =>
      if (s.slot n).opened ∨ s.allocationBad n core ws then .next (s.answerWriter w false)
      else
        let word (i : Nat) : Word := BitVec.ofNat 64 (nth ws i)
        let x : RSlot := { s.slot n with
          opened := true
          alloc := #v[word 0, word 1, word 2, word 3]
          arrivals := []
          parked := none
          parted := false
          seed := (s.part (s.partOf core)).rseed
          due := dueTick s.time.toNat (nth ws 1) }
        .next ((s.setSlot n x).answerWriter w true)
  | _ => .next s

/-- A position of a floating-point result: the value rounded, with flags (R365). -/
def slotFloat (x : RSlot) (g : Fl) (draw : Nat) (codes : List Nat) : Coded :=
  let rm := (rmOf (bits x.word0 8 3)).getD .rne
  let vs := codes.map g.decode
  let both := x.op == 0 && vs.contains (.inf false) && vs.contains (.inf true)
  let signals := if both || vs.any Val.isSnan then invalidFlag else 0
  let nums := vs.filter fun v => !v.isNan
  if nums.length ≠ vs.length ∧ !x.word0.testBit 7 then ⟨g.canon, signals⟩
  else
    let r : Coded := match x.op with
      | 0 =>
        if nums.isEmpty then ⟨0, 0⟩
        else
          let v := (exactSum rm nums).canonical
          let k := g.round false rm draw v.val
          ⟨k.code, v.flags ||| k.flags⟩
      | 1 => g.round false .rne 0 (nums.foldl (fun a b => if belowVal b a then b else a) (.inf false))
      | 2 => g.round false .rne 0 (nums.foldl (fun a b => if belowVal a b then b else a) (.inf true))
      | _ => g.round false .rne 0 ((nums.map Val.abs).foldl (fun a b => if belowVal a b then b else a) (.fin false 0 0))
    ⟨r.code, r.flags ||| signals⟩

/-- A position of an integer result (R365). -/
def slotInt (x : RSlot) (t : ITy) (codes : List Nat) : Nat :=
  let vs := codes.map t.read
  let sat := x.word0.testBit 47
  match x.op with
  | 0 => t.write sat (vs.foldl (· + ·) 0)
  | 1 => t.write false (vs.foldl min t.hi)
  | 2 => t.write false (vs.foldl max t.lo)
  | _ => t.write sat (vs.foldl (fun a v => max a (v.natAbs : Int)) 0)

/-- The result elements of a slot with their flags (R365). -/
def RSlot.results (x : RSlot) (n : BNum) : List Coded :=
  (List.range x.elems).map fun i =>
    let codes := x.arrivals.map fun a => (a.2.getD i 0).toNat
    match elOf x.ty with
    | .fl g =>
      let draw := (rand32 (randKey x.seed n.val (bits x.word0 27 16) 0) (BitVec.ofNat 32 i) 0).toNat
      slotFloat x g draw codes
    | .int t => ⟨slotInt x t codes, 0⟩
    | .c4 _ => ⟨0, 0⟩

/-- The status word of a completing slot (Table 12.7). -/
def RSlot.status (x : RSlot) (n : BNum) (code : Nat) : Word :=
  BitVec.ofNat 64 (code + 4 * x.arrivals.length + 2 ^ 13 * (flagsOf (x.results n)).toNat
    + 2 ^ 18 * bits x.word0 27 16 + 2 ^ 34 * x.late)

/-- The agent of a slot's result write, at its station. -/
def State.slotAgent (s : State) (n : BNum) : Agent :=
  { part := (s.slot n).part, die := slotDie n, sdev := s.devId, slog := 0xFF, source := 2, sup := false
    exec := false, who := .slot n }

/-- The slot becomes FREE, its handle delivering an arrival with marks (R44, R366). -/
def State.freeSlot (s : State) (n : BNum) (mark : Nat) : State :=
  let x := s.slot n
  let h := (vget x.alloc 2).toNat
  let s := s.setSlot n { x with opened := false, arrivals := [], parked := none, parted := false }
  if h = 0 then s else s.sendHandleFrom x.part (slotDie n) (h ||| mark)

/-- A slot completes with its status word (R366): the result line is written, the arrival delivered, the slot freed; a
miss parks the write, or a die's part of it (R378). -/
def State.completeSlot (s : State) (n : BNum) (w : Word) : State :=
  let x := s.slot n
  let ag := s.slotAgent n
  let mark := if bits w.toNat 0 2 = 0 then 0 else 2 ^ 42
  let a := s.aim ag (.va (vget x.alloc 3)) false
  match a.2 with
  | .ok (.keys ks left va) =>
    let data := bytesOf 8 w.toNat ++ ((x.results n).map fun k => bytesOf (elOf x.ty).bytes k.code).flatten
    let line := (data ++ List.replicate 64 0).take 64
    let s := a.1.putAt ag ks left va line .plain
    if left.isEmpty then s.freeSlot n mark else s.setSlot n { s.slot n with parked := some w, parted := true }
  | .wait => a.1.setSlot n { a.1.slot n with parked := some w }
  | _ => a.1.freeSlot n (2 ^ 42)

/-- A contribution dropped as late (R364). -/
def State.dropLate (s : State) (n : BNum) : State :=
  let x := s.slot n
  s.setSlot n { x with late := min (x.late + 1) (2 ^ 30 - 1) }

/-- A slot whose tick has come and gone completes with TIMEOUT before a contribution that comes after it (R366). -/
def State.slotTimeout (s : State) (n : BNum) : State :=
  let x := s.slot n
  if x.opened ∧ x.parked = none ∧ s.agenda.contains (.event (.reductionDeadline n) .none) ∧ x.due < s.time.toNat then s.completeSlot n (x.status n 1) else s

/-- What becomes of a contribution (R364): refused, late, or accepted, in the table's order (log 41). One that is accepted
brings the clock of its sender (R316). -/
def State.contribute (s : State) (n : BNum) (w : Writer) (clock : Clock) (ws : List Nat) (line : List Byte) :
    State × Bool :=
  let x := s.slot n
  let w0 := nth ws 0
  let index := bits w0 16 10
  let foreign := match w with
    | .record c => s.partOf c != x.part
    | .fabric _ => false
  if !x.opened || x.parked.isSome || bits w0 0 16 != bits x.word0 27 16 then (s.dropLate n, false)
  else if x.arrivals.any fun a => a.1 == index then (s.dropLate n, false)
  else if foreign || decide (bits x.word0 17 10 < index) || w0 >>> 26 != 0 then (s, false)
  else
    let s := match w with
      | .record _ => s.mergeClock (slotDie n) clock
      | .fabric _ => s
    let els := (codesOf (elOf x.ty).bytes x.elems (line.drop 8)).map (BitVec.ofNat 64)
    let x := { x with arrivals := x.arrivals ++ [(index, els)] }
    let s := s.setSlot n x
    (if x.arrivals.length = bits x.word0 17 10 + 1 then s.completeSlot n (x.status n 0) else s, true)

/-- REDUCTION_CONTRIBUTE (R364, R366). -/
def execReductionContribute (s : State) : Host.Outcome State Fault Refusal :=
  match s.arg with
  | .slot n w line clock =>
    let go (s : State) : State :=
      let s := s.slotTimeout n
      let r := s.contribute n w clock (codesOf 8 8 line) line
      r.1.answerWriter w r.2
    match w with
    | .record _ => .next (go s)
    | .fabric src => s.serve .reductionContribute src 0 0 go
  | _ => .next s

/-- REDUCTION_DEADLINE (R366): a slot whose deadline has come completes with TIMEOUT; one whose result write was parked
makes it again. -/
def execReductionDeadline (n : BNum) (s : State) : Host.Outcome State Fault Refusal :=
  let x := s.slot n
  if !x.opened then .next s
  else match x.parked with
    | some w =>
      if s.waiting (.slot n) then .next s
      else if x.parted then .next (s.freeSlot n (if bits w.toNat 0 2 = 0 then 0 else 2 ^ 42))
      else .next (s.completeSlot n w)
    | none =>
      if x.due ≤ s.time.toNat then .next (s.completeSlot n (x.status n 1)) else .next s

/-- The OPEN slots of a partition are freed at its teardown (R367); LATE starts anew (R362). -/
def State.abandonSlots (s : State) (p : PartNum) : State :=
  (List.finRange 64).foldl (fun s n =>
    let x := s.slot n
    if x.part != p then s
    else
      let s := if x.opened then s.freeSlot n (2 ^ 43) else s
      s.setSlot n { s.slot n with late := 0 }) s

/-! ### Appraisers -/

def State.appraiser (s : State) (t : Plane) : Appraiser := vget s.appraisers t

/-- Whether a configuration breaks Table 12.8 or its limit (R368). -/
def configBad (ws : List Nat) : Bool :=
  let w := nth ws 0
  let k := bits w 22 4
  k == 0 || decide (8 < k) || bits w 26 2 == 3 || decide (159 < bits w 32 8) || bits w 44 12 == 0 || bits w 56 8 != 0
    || (ws.drop 1).any (fun x => x != 0) || decide (2 ^ 19 < (bits w 1 13 + 1) * (bits w 14 8 + 1))
    || decide (8192 < bits w 1 13 + 1)

/-- APPRAISER_CONFIGURATION (R368): it takes effect from the next fill to begin arriving. -/
def execAppraiserConfiguration (s : State) : Host.Outcome State Fault Refusal :=
  match s.arg with
  | .appraiser t w off line _ =>
    let ws := codesOf 8 8 line
    match w with
    | .fabric _ => .next (s.answerWriter w false)
    | .record _ =>
      if off ≠ 0 ∨ configBad ws then .next (s.answerWriter w false)
      else
        let a := { s.appraiser t with nextConfig := some (BitVec.ofNat 64 (nth ws 0)) }
        let s := { s with appraisers := vset s.appraisers t a }
        .next ((s.settleAppraiser t).answerWriter w true)
  | _ => .next s

/-- APPRAISER_WEIGHT_WRITE (R369): a write during a scored fill takes effect after it. -/
def execAppraiserWeightWrite (s : State) : Host.Outcome State Fault Refusal :=
  match s.arg with
  | .appraiser t w off line tag =>
    match w with
    | .fabric _ => .next (s.answerWriter w false)
    | .record _ =>
      if tagFmt tag ≠ 0 then .next (s.answerWriter w false)
      else
        let a := s.appraiser t
        let s := { s with appraisers := vset s.appraisers t { a with nextWeights := a.nextWeights ++ [(off, line)] } }
        .next ((s.settleAppraiser t).answerWriter w true)
  | _ => .next s

/-- An FP32 operation rounded to nearest even: the code. -/
def f32Of (v : Valued) : Nat := (Fl.f32.round false .rne 0 v.canonical.val).code

/-- The logits of a token row, one per expert (R370). -/
def logits (a : Memory) (d e : Nat) (x : List Val) : List Nat :=
  (List.range e).map fun j =>
    let ws := (codesOf 2 d (a.read (2 * (j * d)) (2 * d))).map Fl.bf16.decode
    ((List.range ((d + 63) / 64)).foldl (fun l g =>
      (exactStep true .rne false 0 (Fl.f32.decode l) (((x.zip ws).drop (64 * g)).take 64)).code) 0)

/-- Experts ranked by logit, greatest first; NaN last, ties by index (R371). -/
def rankExperts (ls : List Nat) : List Nat :=
  let v (i : Nat) : Val := Fl.f32.decode (nth ls i)
  let before (a b : Nat) : Bool :=
    if (v a).isNan then (v b).isNan && decide (a < b)
    else if (v b).isNan then true
    else match compareVal (v a) (v b) with
      | .gt => true
      | .eq => decide (a < b)
      | .lt => false
  let insert (l : List Nat) (i : Nat) : List Nat := l.takeWhile (before · i) ++ i :: l.dropWhile (before · i)
  (List.range ls.length).foldl insert []

/-- The selected weights, with DEGENERATE and NANLOGIT (R371). -/
def routeWeights (mode : Nat) (ls sel : List Nat) : List Nat × Bool × Bool :=
  let val (i : Nat) : Val := Fl.f32.decode (nth ls i)
  let used := if mode = 1 then List.range ls.length else sel
  let nan := used.any fun i => (val i).isNan
  let bad := nan || used.any fun i => (val i).isInf
  let top := val (sel.headD 0)
  let fn (g : Fn) (c : Nat) : Nat := (g.apply .f32 false .rne 1 0 c).code
  let term (i : Nat) : Nat :=
    if mode = 2 then fn .sigm (nth ls i) else fn .exp (f32Of (addVal .rne (val i) top.minus))
  let sum (l : List Nat) : Nat := l.foldl (fun s i => f32Of (addVal .rne (Fl.f32.decode s) (Fl.f32.decode (term i)))) 0
  let total := sum used
  let degenerate := bad || (mode == 2 && decide (total % 2 ^ 31 < 2 ^ 23))
  let share := f32Of (divVal (.fin false 1 0) (.fin false sel.length 0))
  (sel.map fun i => if degenerate then share else f32Of (divVal (Fl.f32.decode (term i)) (Fl.f32.decode total)),
    degenerate, nan)

/-- The values of a token row whose lines lie at the given keys; `none` is BADLINE (R370). -/
def State.tokenRow (s : State) (d : Nat) (keys : List Nat) : Option (List Val) :=
  (keys.mapM fun k =>
    let line := k / 64
    if lineOk (s.lineData line) (s.tags.get line) then
      (resolve (.el (.fl .bf16)) (s.tags.get line)).map fun r =>
        (codesOf 2 32 (s.lineData line)).map fun c => (readElement true r c).val
    else none).map fun l => l.flatten.take d

/-- The route line of a token (Table 12.9); `key` places the bytes of the slot. -/
def State.routeLine (s : State) (a : Appraiser) (key : Nat → Nat) (n : Nat) : List Byte :=
  let w := a.config.toNat
  let d := bits w 1 13 + 1
  let e := bits w 14 8 + 1
  let k := min (bits w 22 4) e
  let rho := roundUp (2 * d) 64
  let pad (b n v : Nat) (l : List Nat) : List Byte := (((l ++ List.replicate n v).take n).map (bytesOf b)).flatten
  match s.tokenRow d ((List.range (rho / 64)).map fun j => key (n * rho + 64 * j)) with
  | none => pad 2 8 0xFFFF [] ++ pad 4 8 0 [] ++ bytesOf 4 n ++ bytesOf 4 4 ++ bytesOf 4 0 ++ bytesOf 4 0
  | some x =>
    let ls := logits a.weights d e x
    let sel := (rankExperts ls).take k
    let r := routeWeights (bits w 26 2) ls sel
    pad 2 8 0xFFFF sel ++ pad 4 8 0 r.1 ++ bytesOf 4 n ++ bytesOf 4 (r.2.1.toNat + 2 * r.2.2.toNat)
      ++ bytesOf 4 (nth ls (sel.headD 0)) ++ bytesOf 4 0

/-- ROUTE_LINE_WRITE (R370-R372): the route line of the next token; the last makes the slot READY. -/
def execRouteLineWrite (s : State) : Host.Outcome State Fault Refusal :=
  match s.arg with
  | .queue c n i =>
    let q := s.queue c n
    if q.state ≠ .opened ∨ q.routes = 0 then .next s
    else
      let a := s.appraiser q.plane
      let w := a.config.toNat
      let tokens := bits w 44 12
      let rho := roundUp (2 * (bits w 1 13 + 1)) 64
      let token := tokens - q.routes
      let line := s.routeLine a (q.slotKey c i.val) token
      let s := s.storeLine (q.slotKey c i.val (tokens * rho + 64 * token)) line (makeTag 0 0 0 line)
      if q.routes = 1 then .next ((s.filled c n i).settleAppraiser q.plane)
      else .next (s.setQueue c n { s.queue c n with routes := q.routes - 1 })
  | _ => .next s

end Sys2Proof.Machine
end

