-- ==== Sys2Proof/Machine/Errors.lean ====
section
/-! DEFINITION. Uncorrectable and corrected errors (R387, R388), the tearing down of a catalogue (R302), and host accesses
to device memory (R414). -/

namespace Sys2Proof.Machine

/-! ### What belongs to a core -/

/-- The core of a unit. -/
def UnitId.core? : UnitId → Option CoreId
  | .docent c => some c
  | .vector c => some c
  | .matrix c => some c
  | .transpose c => some c
  | .copy c => some c
  | .cmdq _ => none

/-- The core that an instruction of the agenda acts for, when it carries one. -/
def coreOf (i : Instr) : Option CoreId :=
  match i with
  | .loadReply u _ _ => some u.core
  | .storePerformed u => some u.core
  | .delayedFault u _ _ _ _ => some u.core
  | .waitaReply u _ _ => some u.core
  | .postrReply u _ _ => some u.core
  | .qcloseCompletion u _ => some u.core
  | .homeAccess (.load u _) => some u.core
  | .homeAccess (.waita u _) => some u.core
  | .turnExpiry c => some c
  | .parkedPostResume c => some c
  | .loopIterationEnd c => some c
  | .relocSettle c => some c
  | .gangStart c => some c
  | .ringStart c => some c
  | .taskRelease c _ => some c
  | .taskCompletion c _ => some c
  | .homingCopy c _ => some c
  | .renameRetire c _ => some c
  | .primingCopy c _ => some c
  | .taskAging c _ => some c
  | .taskStarvation c _ => some c
  | _ => none

/-- An act of a core's own units. -/
def Act.ofCore (a : Act) (c : CoreId) : Bool :=
  match a with
  | .unit u => u.core? == some c
  | .event i arg => coreOf i == some c || a.answersCopy c || (match arg with
    | .queue k _ _ => k == c
    | .markerAnswer u _ _ _ => u.core == c
    | _ => false)

/-- A requester of a core. -/
def Requester.ofCore (r : Requester) (c : CoreId) : Bool :=
  match r with
  | .load u _ => u.core == c
  | .store u => u.core == c
  | .retry u => u.core == c
  | .waita u _ => u.core == c
  | .unit u => u.core? == some c
  | .part w _ => w.ofCore c
  | .release k _ _ => k == c
  | .entry k _ => k == c
  | .fabric _ _ => false
  | .slot _ => false
  | .gone => false

/-- A waiter of a core, but for its queues and handles. -/
def Waiter.ofCore (w : Waiter) (c : CoreId) : Bool :=
  match w with
  | .load u _ => u.core == c
  | .store u => u.core == c
  | .marker u _ _ _ => u.core == c
  | .postr u _ => u.core == c
  | .unit _ k _ => k == c
  | _ => false

/-! ### Tearing down (R302, R388) -/

/-- A relocation that has passed its move point is settled without an entry, and its reservation ends. -/
def State.endReloc (s : State) (c : CoreId) : State :=
  match (s.core c).copy.reloc with
  | .moved old _ _ lines entry _ _ => s.settle c lines (lines.headD 0 + old % 64) entry
  | _ => s

/-- The flags that running docent tasks of a core have raised stand in their contexts: they go to the entries (R43). -/
def State.keepFlags (s : State) (c : CoreId) : State :=
  (List.finRange 8).foldl (fun s i =>
    let x := s.ctx ⟨c, i⟩
    if x.state = .empty then s else s.setEntry c x.task { s.entry c x.task with flags := x.tflags }) s

/-- Every task in flight of a core completes with a status; its remote successor handles receive their arrivals with a
mark, its counters nothing. -/
def State.dropTasks (s : State) (c : CoreId) (status : BitVec 4) (mark : Nat) : State :=
  ((s.core c).handles Entry.inFlight).foldl (fun s h =>
    let e := s.entry c h
    let ws := ([27, 28, 29, 30, 31].map fun i : Fin 32 => e.word i) ++ e.extra
    let s := if e.field 0 9 1 = 1 then ws.foldl (fun s w => if w = 0 then s else s.sendHandle c (w.toNat ||| mark)) s else s
    s.setEntry c h { Entry.free with gen := e.gen, status := status, flags := e.flags }) s

/-- A context that a teardown empties. -/
def Context.emptied (x : Context) : Context :=
  { x with state := .empty, park := .none, load := none, stores := [], fencing := false, trailing := false, markers := []
           posting := false, midRef := false }

/-- What a core was doing stops: contexts EMPTY, engines idle, renames, shadows and hidden copies discarded, guards
FREE, the timer wheel emptied, and nothing of it parked, waiting or due. -/
def State.stopCore (s : State) (c : CoreId) : State :=
  let k := s.core c
  let s := s.setCore c { k with
    ctxs := k.ctxs.map Context.emptied
    posters := []
    cramped := []
    renames := Vector.replicate 64 Rename.reset
    annex := 0
    guards := Vector.replicate 32 .free
    chains := Core.reset.chains
    vec := { k.vec with task := none, waiting := false }
    matrix := Engine.reset
    transpose := Engine.reset
    copy := Engine.reset
    timers := [] }
  { s with
    agenda := s.agenda.filter fun a => !a.ofCore c
    parked := s.parked.filter fun a => !a.who.ofCore c
    heldMoving := s.heldMoving.filter fun p => !p.2.ofCore c
    behind := s.behind.filter fun a => !a.who.ofCore c
    waits := s.waits.filter fun w => w.who.core != c
    requests := s.requests.filter fun q => !q.who.ofCore c }.wakeSlices

/-- Every task in flight of a failed core completes with DATA, its pins released (R300, R388): one whose unpin misses
completes once that is made. -/
def State.failTasks (s : State) (c : CoreId) : State :=
  ((s.core c).handles Entry.inFlight).foldl (fun s h =>
    (s.setEntry c h { s.entry c h with state := .running, causes := causeData, squash := false }).complete c h) s

/-- A post that waits traps when the teardown of its catalogue begins (R155). -/
def State.trapPosts (s : State) (c : CoreId) : State :=
  ((List.finRange 8).foldl (fun s i =>
    let x := s.ctx ⟨c, i⟩
    match x.state, x.park with
    | .parked, .post _ => let d := s.draw; d.1.enterTrap ⟨c, i⟩ 0x0D d.2 x.pc
    | _, _ => s) s).dispatch c

/-- A gang or ring record that waits at a core, and its group. -/
def State.joint (s : State) (k : CoreId) : List (Kind × GroupNum) :=
  (match s.taken .matrix k with
    | some (_, i) => match gangOf i with
      | some (r, _) => [(Kind.matrix, Fin.ofNat 256 (r.tailBits 0 8))]
      | none => []
    | none => []) ++
  (match s.taken .copy k with
    | some (_, .ring r) => [(Kind.copy, Fin.ofNat 256 (r.tailBits 9 8))]
    | _ => [])

/-- The gang and ring records that other cores hold with a core stop and complete with DATA (R253, R388). -/
def State.stopJoint (s : State) (c : CoreId) : State :=
  (s.coresOf (s.partOf c)).foldl (fun s k =>
    (s.joint k).foldl (fun s x =>
      if k != c && ((s.group x.2).rank (s.logical c)).isSome then s.endRecord k x.1 causeData else s) s) s

/-- Packets held for a core, and those that wait behind them, have their answers when its catalogue closes (R303). -/
def State.answerHeld (s : State) (c : CoreId) : State :=
  if s.heldPackets.any (s.heldFor c) then
    { s with heldPackets := s.heldPackets.map fun h => if s.heldFor c h then { h with cramped := false } else h }.once
      (.event (.heldPacketAccept c) .none)
  else s

/-- CORE_FAILURE (R388). -/
def execCoreFailure (s : State) : Host.Outcome State Fault Refusal :=
  match s.arg with
  | .core c =>
    if (s.core c).failed then .next s
    else if !s.inPart c then .next (s.setCore c { s.core c with failed := true, closed := true })
    else
      let gs := s.groupsOf c
      let s := (s.endReloc c).stopJoint c
      let s := (List.finRange 16).foldl (fun s n => if (s.queue c n).state = .opened then s.breakBoth c n 1 else s) s
      let s := ((s.keepFlags c).leave fun w => w.ofCore c).stopCore c
      let s := (s.setCore c { s.core c with failed := true, closed := true }).failTasks c
      let s := gs.foldl State.breakGroup s
      .next ((s.raiseSource (s.partOf c) 6).answerHeld c)
  | _ => .next s

/-- LINE_POISON (R387): of a line of host memory, the host returns it poisoned (R414). -/
def execLinePoison (s : State) : Host.Outcome State Fault Refusal :=
  match s.arg with
  | .line n => .next (s.poison n)
  | _ => .next s

/-- CORRECTED_SOFT_ERROR (R387, R407): counted; a count beyond the threshold raises the error source. -/
def execCorrectedSoftError (s : State) : Host.Outcome State Fault Refusal :=
  match s.arg with
  | .part p _ =>
    let x := s.part p
    let s := s.setPart p { x with softErrors := x.softErrors + 1 }
    .next (if Config.softErrorThreshold < x.softErrors + 1 then s.raiseSource p 6 else s)
  | _ => .next s

/-! ### Host accesses (R307, R414) -/

/-- The lines that a range of a die's memory covers: each with the offset in the range and the length of its part. -/
def linesOf (k n : Nat) : List (Nat × Nat × Nat) :=
  (List.range (n / 64 + 2)).filterMap fun i =>
    let lo := max k ((k / 64 + i) * 64)
    let hi := min (k + n) ((k / 64 + i + 1) * 64)
    if lo < hi then some (lo, lo - k, hi - lo) else none

/-- The present entries of a page table (R374): index and entry. -/
def State.tableEntries (s : State) (die : DieNum) (table width : Nat) : List (Nat × Nat) :=
  let k := devKey die table
  s.mem.filterMap fun c =>
    if k ≤ c.1 ∧ c.1 < k + 8 * 2 ^ width ∧ (c.1 - k) % 8 = 0 ∧ c.2.getLsbD 0 then
      some ((c.1 - k) / 8, ofBytes (s.mem.read c.1 8))
    else none

/-- The offset at which a tree maps a location of its die as one of a replicated page (R374, R378). -/
def State.replicaOffset (s : State) (die : DieNum) (pa : Nat) :
    List (Nat × Nat × Nat × Nat) → (table base : Nat) → Option Nat
  | [], _, _ => none
  | (_, shift, width, _) :: rest, table, base =>
    (s.tableEntries die table width).findSome? fun e =>
      let addr := bits e.2 8 40 * 256
      let off := base + e.1 * 2 ^ shift
      if e.2.testBit 1 then
        if e.2.testBit 5 ∧ addr ≤ pa ∧ pa < addr + 2 ^ shift then some (off + (pa - addr)) else none
      else State.replicaOffset s die pa rest addr off

/-- The partition and offset of a replicated page that holds a location of device memory: that which the tree of its die
maps to it (log 62). -/
def State.replicaOf (s : State) (die : DieNum) (pa : Nat) : Option (PartNum × Nat) :=
  match s.ownerOf (devKey die pa / 64) with
  | none => none
  | some (_, p) =>
    let root := vget (s.part p).roots die
    if root = 0 then none else (s.replicaOffset die pa walkLevels root.toNat 0).map fun o => (p, o)

/-- The place in the order of R330 of a host write through the memory of a die. R330 names no die for it: it counts as
issued on the die of its address, with the clock of everything performed so far, so that it follows the host's earlier
writes and whatever the host may have seen in host memory (R321; DESIGN CHOICE, log 73). -/
def State.hostMark (s : State) (die : DieNum) : State × Mark :=
  let s := (s.mergeClock die ((List.finRange 4).foldl (fun k d => Clock.max k (s.clock d)) s.fenceClock)).advanceClock die
  (s, s.markOf die)

/-- Bytes of one line that the host, or a command, writes to device memory. On a replicated page each other die's part is
walked and applied there, or waits, as that of any propagated write (R330, R378); the part of its own die waits only for
writes that precede it (R316). -/
def State.hostLine (s : State) (m : Mark) (die : DieNum) (k : Nat) (d : List Byte) (p : Put) : State :=
  match s.replicaOf die (k - devKey die 0) with
  | none => s.writeAs m [k] d p
  | some (part, off) =>
    let w : Requester := .fabric .hostWrite .none
    let va := BitVec.ofNat 64 (s.devId.toNat * 2 ^ 47 + die.val * 2 ^ 45 + off)
    let x (d' : DieNum) : WritePart := ⟨d', part, s.devId, 0xFF, 2, true, va, d, p, m⟩
    let s := if s.preceded ((x die).agent w) die (Fin.ofNat 96 (off / 65536)) then s.putPart w (x die)
      else s.propagateAt m k d p
    (s.replicas.filter fun d' => d' != die).foldl (fun s d' => s.putPart w (x d')) s

/-- A host write of bytes to device memory: whole lines become plain, others merge as docent stores do (R120, R414), at
every copy of a replicated page (R330); a line that fails verification refuses its part. -/
def State.hostPut (s : State) (die : DieNum) (k : Nat) (d : List Byte) : State :=
  let m := s.hostMark die
  (linesOf k d.length).foldl (fun s p =>
    let part := (d.drop p.2.1).take p.2.2
    if p.2.2 = 64 then s.hostLine m.2 die p.1 part (.line (makeTag 0 0 0 part))
    else
      let v := s.verifyAll [p.1]
      if v.2 then v.1.hostLine m.2 die p.1 part (.merge false) else v.1) m.1

/-- HOST_WRITE (R414): a line under relocation holds it (R338); the memory of a die that has not joined the device takes none
(R409, log 74). -/
def execHostWrite (s : State) : Host.Outcome State Fault Refusal :=
  match s.arg with
  | .host die pa d =>
    let k := devKey die pa
    if pa + d.length > 2 ^ 37 ∨ !s.dieJoins die then .next s
    else match (linesOf k d.length).find? fun p => s.moving p.1 with
      | some p => .next (s.hold p.1 (.fabric .hostWrite s.arg))
      | none => .next (s.hostPut die k d)
  | _ => .next s

/-- The copy of a replicated page, among `n` bytes that the host reads, where a write has still to be applied. -/
def State.copyBehind (s : State) (die : DieNum) (k n : Nat) (who : Requester) : Option Behind :=
  (linesOf k n).findSome? fun p => match s.replicaOf die (p.1 - devKey die 0) with
    | some (part, off) => if s.partPending part die (off / 65536) then some ⟨part, die, off / 65536, who⟩ else none
    | none => none

/-- HOST_READ (R414): as many bytes as `data` has; a line that fails is poisoned, and the response carries poison. A read
of a copy of a replicated page waits for the writes that are parked there (R332). -/
def execHostRead (s : State) : Host.Outcome State Fault Refusal :=
  match s.arg with
  | .host die pa d =>
    let k := devKey die pa
    if pa + d.length > 2 ^ 37 ∨ !s.dieJoins die then .next s
    else match s.copyBehind die k d.length (.fabric .hostRead s.arg) with
    | some b => .next { s with behind := s.behind ++ [b] }
    | none =>
      let v := (linesOf k d.length).foldl (fun (a : State × Bool) p =>
        let r := a.1.verify (p.1 / 64); (r.1, a.2 && r.2)) (s, true)
      .next { v.1 with out := v.1.out ++ [.hostReadReply (v.1.mem.read k d.length) (!v.2)] }
  | _ => .next s

end Sys2Proof.Machine
end

