-- ==== Sys2Proof/Machine/Command.lean ====
section
/-! DEFINITION. Command queues (R397-R403): the fetch of a packet, its checks and its completion; and the commands that
act on no partition as a whole. -/

namespace Sys2Proof

/-- The partition that a command names (R398): its queue's, or A[11:8] in the device queue. -/
def Cmd.target (c : Cmd) : PartNum :=
  match c.q with
  | .part p _ => p
  | .device => Fin.ofNat 16 (bits c.a.toNat 8 4)

/-- Whether a command stands in the device queue. -/
def Cmd.onDevice (c : Cmd) : Bool := c.q == .device

/-- Whether a command names its partition in A[11:8] when it stands in the device queue (R398). -/
def Instr.namesPartition : Instr → Bool
  | .write => false
  | .fenceCommand => false
  | .link => false
  | .timebase => false
  | _ => true

/-- Whose windows bound the addresses of a queue (R397). -/
def CmdQ.own : CmdQ → Option PartNum
  | .part p _ => some p
  | .device => none

/-- A queue's completion source (Table 14.4). -/
def CmdQ.source : CmdQ → Nat
  | .part _ n => n.val
  | .device => 0

end Sys2Proof

namespace Sys2Proof.Machine

/-! ### Addresses and reading -/

/-- A command address (R397) as a place in the model's memory, for `n` bytes: host memory, or device memory of a die of the
device (R409, log 74) in a window of the partition; `none` is any partition, for the device queue. -/
def State.commandKey (s : State) (own : Option PartNum) (a n : Nat) : Option Nat :=
  let die : DieNum := Fin.ofNat 4 (bits a 37 2)
  let pa := bits a 0 37
  if bits a 58 6 ≠ 0 then none
  else if a.testBit 57 then if bits a 0 57 + n ≤ 2 ^ 57 then some (hostKey (bits a 0 57)) else none
  else if bits a 39 18 ≠ 0 ∨ 2 ^ 37 < pa + n ∨ !s.dieJoins die then none
  else match own with
    | some p => if s.inWindow p die pa n then some (devKey die.val pa) else none
    | none => some (devKey die.val pa)

/-- Bytes read for a command, line by line; `none` when a line of them fails. -/
def State.fetchBytes (s : State) (k n : Nat) : State × Option (List Byte) :=
  if isHostKey k then
    (s, if (linesOf k n).any (fun p => tagPoison (s.tags.get (p.1 / 64))) then none else some (s.mem.read k n))
  else
    let v := (linesOf k n).foldl (fun (a : State × Bool) p =>
      let r := a.1.verify (p.1 / 64); (r.1, a.2 && r.2)) (s, true)
    (v.1, if v.2 then some (v.1.mem.read k n) else none)

/-- Bytes written for a command, as a host writes them (R414). -/
def State.commandPut (s : State) (k : Nat) (d : List Byte) : State :=
  if isHostKey k then s.storeKey k d false else s.hostPut (Fin.ofNat 4 (k / 2 ^ 37)) k d

/-- Whether a line that a command is to write is held by a relocation (R338). -/
def State.commandHeld (s : State) (k n : Nat) : Bool := !isHostKey k && (linesOf k n).any fun p => s.moving p.1

/-! ### The queues -/

/-- The command address of the packet that a queue executes next (R397, R399). -/
def CmdQueue.packetAddress (x : CmdQueue) : Nat :=
  match x.links with
  | l :: _ => l.addr.toNat
  | [] => x.base.toNat + 16 * (x.head.toNat % 2 ^ x.size.toNat)

/-- A queue has a packet to execute. -/
def CmdQueue.ready (x : CmdQueue) : Bool := x.en && x.state != .error && x.head != x.tail

/-- A queue runs on, or stops, after a command or a register write (R397). -/
def State.requeue (s : State) (q : CmdQ) : State :=
  let x := s.cmdQueue q
  if x.state = .error then s
  else if x.busy.isSome ∨ x.ready then (s.setCmdQueue q { x with state := .running }).once (.unit (.cmdq q))
  else s.setCmdQueue q { x with state := .stopped }

/-- The partition's command of a queue ends (R405). -/
def State.releasePart (s : State) (c : Cmd) : State :=
  let x := s.part c.target
  if x.command = some c.q then s.setPart c.target { x with command := none } else s

/-- A queue leaves the command in progress. -/
def State.leaveCommand (s : State) (c : Cmd) : State :=
  let s := s.releasePart c
  let x := s.cmdQueue c.q
  let s := s.setCmdQueue c.q { x with busy := none, progress := 0, failed := [] }
  { s with journal := s.journal.filter fun j => j.1 != c.q }

/-- A queue raises a source of its partition; the device queue has none (Table 14.4). -/
def State.raiseQueue (s : State) (q : CmdQ) (src : Nat) : State :=
  match q with
  | .part p _ => s.raiseSource p src
  | .device => s

/-- A queue stops in ERROR at its packet (R403). -/
def State.commandError (s : State) (c : Cmd) (cause : Nat) : State :=
  let s := s.leaveCommand c
  let x := s.cmdQueue c.q
  let s := s.setCmdQueue c.q { x with
    state := .error, cause := BitVec.ofNat 4 cause, errAddr := BitVec.ofNat 64 x.packetAddress }
  s.raiseQueue c.q 4

/-- The levels left when a packet of the innermost block has completed, whether the top level has moved on, and whether
a LINK that completed with it asks for the interrupt (R399). -/
def linksDone : List LinkLevel → List LinkLevel × Bool × Bool
  | [] => ([], true, false)
  | l :: r =>
    if l.rem ≤ 1 then
      let d := linksDone r
      (d.1, d.2.1, d.2.2 || l.irq)
    else ({ l with addr := l.addr + 16, rem := l.rem - 1 } :: r, false, false)

/-- A command completes (R397, R399, R405): HEAD or its LINK level moves on, and the completion source is raised when
its IRQ bit, or that of a LINK that completes with it, is set. -/
def State.commandDone (s : State) (c : Cmd) : State :=
  let s := s.leaveCommand c
  let x := s.cmdQueue c.q
  let d := linksDone x.links
  let s := s.setCmdQueue c.q { x with
    links := d.1, aborted := false, head := if d.2.1 then x.head + 1 else x.head }
  (if c.irq || d.2.2 then s.raiseQueue c.q c.q.source else s).requeue c.q

/-- Bits of A, B and C that a command does not use (R398, Table 14.3). -/
def unusedBits (i : Instr) (c : Cmd) : Bool :=
  let named := if c.onDevice && i.namesPartition then 0x0F00 else 0
  let a (mask : Nat) := c.a.toNat &&& (0xFFFF ^^^ (mask ||| named)) != 0
  let b (mask : Nat) := c.b.toNat &&& (0xFFFFFFFF ^^^ mask) != 0
  match i with
  | .quiesce => a 0 || b 0 || c.c != 0
  | .resetPart => a 0 || b 0 || c.c != 0
  | .signal => if c.onDevice then a 0 || b 0xFF else a 0xFF || b 0
  | .write => a 0
  | .fenceCommand => a 0
  | .link => b 0
  | .replay => if c.onDevice then a 0 || b 0x300 || bits c.c.toNat 32 32 != 0 else a 3 || c.c != 0
  | _ => a 0 || b 0

/-- The partition states in which a command is allowed (Table 14.3). -/
def allowedIn (i : Instr) (p : PState) : Bool :=
  match i with
  | .restore => p == .empty || p == .stopped
  | .save => p == .running
  | .quiesce => p == .running || p == .stopped
  | .signal => p == .running || p == .stopped
  | .partcfg => p == .empty
  | _ => true

/-- The checks of Table 14.5 that need only the packet: the cause of the first that fails. Addresses are those that the
command itself reads or writes. -/
def State.packetFault (s : State) (i : Instr) (c : Cmd) : Option Nat :=
  let va := c.c.toNat
  let own := c.q.own
  let bad (al n : Nat) : Bool := va % al != 0 || (s.commandKey own va n).isNone
  if !c.onDevice && (i == .timebase || i == .partcfg) then some 8
  else if unusedBits i c then some 2
  else match i with
    | .restore => if bad 4096 4096 || va.testBit 57 then some 3 else none
    | .save => if bad 4096 4096 || va.testBit 57 then some 3 else none
    | .signal => if bad 16 16 then some 3 else none
    | .write => if bad 4 4 then some 3 else none
    | .fenceCommand => if va ≠ 0 && bad 4 4 then some 3 else none
    | .link =>
      if c.a = 0 || bad 16 (16 * c.a.toNat) then some 3
      else if (s.cmdQueue c.q).links.length ≥ 4 then some 4 else none
    | .tagload => if bad 16 32 then some 3 else none
    | .partcfg => if bad 64 128 then some 3 else none
    | _ => none

/-- A host write waits for a relocation to settle (R338). -/
def State.hostHeld (s : State) : Bool :=
  s.heldMoving.any fun a => match a.2 with
    | .fabric .hostWrite _ => true
    | _ => false

/-- The command that a queue executes: the one in progress again, or the next packet (R397, R403), which is acted on once
every earlier host write has been applied (R321); `none` when nothing is executed. -/
def State.nextCommand (s : State) (q : CmdQ) : State × Option Instr :=
  let x := s.cmdQueue q
  if !s.leads then (s, none)
  else match x.busy with
    | some (i, c) => ({ s with arg := .cmd c }, some i)
    | none =>
      if !x.ready || s.hostHeld then (s, none)
      else
        let s := s.setCmdQueue q { x with state := .running }
        let a := x.packetAddress
        let none_ : Cmd := ⟨q, false, 0, 0, 0⟩
        match s.commandKey q.own a 16 with
        | none => (s.commandError none_ 3, none)
        | some k =>
          let r := s.fetchBytes k 16
          match r.2 with
          | none => (r.1.commandError none_ 7, none)
          | some l =>
            let v := ofBytes l
            let c := cmdOf q v
            match decodeCommand v with
            | none => (r.1.commandError c 1, none)
            | some i =>
              if bits v 9 7 ≠ 0 then (r.1.commandError c 2, none)
              else
                let s := r.1.setCmdQueue q { r.1.cmdQueue q with busy := some (i, c) }
                ({ s with arg := .cmd c, journal := s.journal ++ [(q, c)] }, some i)

/-- A command is executed: a packet that fails a check stops its queue (R403). A command that waits is tried again at
the next tick. -/
def State.onCommand (s : State) (i : Instr) (f : Cmd → Host.Outcome State Fault Refusal) :
    Host.Outcome State Fault Refusal :=
  match s.arg with
  | .cmd c => match s.packetFault i c with
    | some n => .next (s.commandError c n)
    | none => f c
  | _ => .next s

/-! ### WRITE, FENCE, LINK -/

/-- The clock of everything performed so far, which a host's and a queue's FENCE order (R400). -/
def State.allClocks (s : State) : Clock := (List.finRange 4).foldl (fun k d => Clock.max k (s.clock d)) s.fenceClock

/-- WRITE (Table 14.3): a 4-byte store at package scope. -/
def execWrite (s : State) : Host.Outcome State Fault Refusal :=
  s.onCommand .write fun c =>
    match s.commandKey c.q.own c.c.toNat 4 with
    | none => .next (s.commandError c 3)
    | some k =>
      if s.commandHeld k 4 then .next s else .next ((s.commandPut k (bytesOf 4 c.b.toNat)).commandDone c)

/-- FENCE (R400): once what came before is performed, B is stored at C, unless C is 0. -/
def execFenceCommand (s : State) : Host.Outcome State Fault Refusal :=
  s.onCommand .fenceCommand fun c =>
    if s.hostHeld then .next s else
    let all := s.allClocks
    let s := { s with fenceClock := all }
    if c.c = 0 then .next (s.commandDone c)
    else match s.commandKey c.q.own c.c.toNat 4 with
      | none => .next (s.commandError c 3)
      | some k =>
        if s.commandHeld k 4 then .next s
        else
          let s := if isHostKey k then s else s.mergeClock (Fin.ofNat 4 (k / 2 ^ 37)) all
          .next ((s.commandPut k (bytesOf 4 c.b.toNat)).commandDone c)

/-- LINK (R399): a further level opens; it completes with the last packet of its block. -/
def execLink (s : State) : Host.Outcome State Fault Refusal :=
  s.onCommand .link fun c =>
    let s := s.leaveCommand c
    let x := s.cmdQueue c.q
    let s := s.setCmdQueue c.q { x with links := ⟨c.c, c.a.toNat, c.irq⟩ :: x.links }
    let x := s.cmdQueue c.q
    if x.en then .next (s.once (.unit (.cmdq c.q))) else .next (s.setCmdQueue c.q { x with state := .stopped })

/-! ### SIGNAL -/

/-- A QUIESCE of the partition runs, and holds the SIGNALs of its queues (R404). -/
def State.quiescing (s : State) (p : PartNum) : Bool :=
  match (s.part p).command with
  | some q => match (s.cmdQueue q).busy with
    | some (.quiesce, _) => true
    | _ => false
  | none => false

/-- A host's packet, by number, is on its way: it waits at its source station, or a lookup for it is parked (R352). -/
def State.packetWaits (s : State) (n : BitVec 32) : Bool :=
  let mine (k : Packet) : Bool := k.host && k.seq == n
  let asks (w : Requester) : Bool := match w with
    | .fabric _ (.packet k) => mine k
    | _ => false
  s.stationed.any mine || (s.parked.any fun a => asks a.who) || (s.heldMoving.any fun a => asks a.2)
    || (s.behind.any fun a => asks a.who) || s.agenda.any fun a => match a with
      | .event _ (.packet k) => mine k
      | _ => false

/-- SIGNAL (R398, R99): the packet is delivered as the host's own posting, and the command completes when it is accepted,
refused or held. The packet carries the clock of everything performed so far: the host may have seen any of it in host
memory (R316; DESIGN CHOICE, log 21). -/
def execSignal (s : State) : Host.Outcome State Fault Refusal :=
  s.onCommand .signal fun c =>
    let p := c.target
    let on := (s.cmdQueue c.q).progress
    if on ≠ 0 then .next (if s.packetWaits (BitVec.ofNat 32 (on - 1)) then s else s.commandDone c)
    else if !allowedIn .signal (s.part p).state then .next (s.commandError c 5)
    else if !c.onDevice && s.quiescing p then .next s
    else match s.commandKey c.q.own c.c.toNat 16 with
      | none => .next (s.commandError c 3)
      | some k =>
        let hd := s.fetchBytes k 8
        match hd.2 with
        | none => .next (hd.1.commandError c 7)
        | some l =>
          let len := bits (ofBytes l) 8 5
          let n := if len < 2 ∨ 16 < len then 16 else 16 * len
          match hd.1.commandKey c.q.own c.c.toNat n with
          | none => .next (hd.1.commandError c 3)
          | some k =>
            let r := hd.1.fetchBytes k n
            match r.2 with
            | none => .next (r.1.commandError c 7)
            | some d =>
              let core := if c.onDevice then bits c.b.toNat 0 8 else bits c.a.toNat 0 8
              let s := r.1
              let k : Packet := { srcDev := s.devId, srcPart := p, sender := none, host := true, part := p, core := core
                                  words := (codesOf 8 (n / 8) d).map (BitVec.ofNat 64), seq := s.reqSeq
                                  clock := s.allClocks, plane := none }
              let s := { s with reqSeq := s.reqSeq + 1 }.packetArrives k
              .next (if s.packetWaits k.seq then s.setCmdQueue c.q { s.cmdQueue c.q with progress := k.seq.toNat + 1 }
                else s.commandDone c)

/-! ### TIMEBASE -/

/-- TIMEBASE (R412): device time is set; R295 is applied to every waiting task at the next tick, and R366 to the deadlines
of slots, whose ticks are found anew. -/
def execTimebase (s : State) : Host.Outcome State Fault Refusal :=
  s.onCommand .timebase fun c =>
    let due (x : RSlot) : RSlot := { x with due := dueTick c.c.toNat (vget x.alloc 1).toNat }
    .next ({ s with time := c.c, stepped := true, slots := s.slots.map due }.commandDone c)

/-! ### TAGLOAD -/

/-- A tag word that TAGLOAD refuses (R401). -/
def tagWordBad (w : Nat) : Bool :=
  bits w 26 6 != 0 || (bits w 0 8 != 0 && (fmtEl (bits w 0 8) (bits w 8 8)).isNone) || (bits w 14 2 != 0 && bits w 0 8 != 0x10)

/-- The lines of a TAGLOAD from `i` on, each a host write (R307, R321, R401); a line under relocation is waited for. -/
def State.tagLines (s : State) (c : Cmd) (dest data tags : Nat) : (n i : Nat) → State
  | 0, _ => s.commandDone c
  | n + 1, i =>
    let src := s.commandKey c.q.own (data + 64 * i) 64
    let tag := s.commandKey c.q.own (tags + 8 * i) 8
    match src, tag, s.commandKey (some c.target) (dest + 64 * i) 64 with
    | some a, some b, some k =>
      let d := s.fetchBytes a 64
      let t := d.1.fetchBytes b 8
      match d.2, t.2 with
      | some l, some w =>
        let w := ofBytes w
        if tagWordBad w then t.1.commandError c 3
        else if t.1.moving k then t.1.setCmdQueue c.q { t.1.cmdQueue c.q with progress := i }
        else
          let die : DieNum := Fin.ofNat 4 (k / 2 ^ 37)
          let g := makeTag (bits w 0 8) (bits w 8 8) (bits w 16 8) l
          let m := t.1.hostMark die
          State.tagLines (m.1.hostLine m.2 die k l (.line g)) c dest data tags n (i + 1)
      | _, _ => t.1.commandError c 7
    | _, _, none => s.commandError c 3
    | _, _, _ => s.commandError c 7

/-- TAGLOAD (R401). -/
def execTagload (s : State) : Host.Outcome State Fault Refusal :=
  s.onCommand .tagload fun c =>
    match s.commandKey c.q.own c.c.toNat 32 with
    | none => .next (s.commandError c 3)
    | some k =>
      let r := s.fetchBytes k 32
      match r.2 with
      | none => .next (r.1.commandError c 7)
      | some l =>
        let w (i : Nat) : Nat := element l 64 i
        let count := bits (w 3) 0 24
        let dest := w 0
        if dest % 64 ≠ 0 ∨ w 1 % 64 ≠ 0 ∨ w 2 % 8 ≠ 0 ∨ count = 0 ∨ bits (w 3) 24 40 ≠ 0 ∨ dest.testBit 57
            ∨ (r.1.commandKey (some c.target) dest (64 * count)).isNone
            ∨ (r.1.commandKey c.q.own (w 1) 64).isNone ∨ (r.1.commandKey c.q.own (w 2) 8).isNone then
          .next (r.1.commandError c 3)
        else
          let i := (r.1.cmdQueue c.q).progress
          .next (r.1.tagLines c dest (w 1) (w 2) (count - i) i)

/-! ### PARTCFG -/

/-- The bits that Table 14.1 names in word `i` of a configuration block (Table 14.8). -/
def cfgMask (i : Nat) : Nat :=
  match i with
  | 0 => 0xFFFFF
  | 1 => 0xFF7F
  | 2 => 0xFF7F
  | 3 => 0xFF7F
  | 4 => 0xFF7F
  | 5 => 0x1FFF
  | 6 => 0x1FFFF
  | 7 => 0xFFFFFFFFFFFFFFFF
  | 8 => 0x7FF
  | _ => 0

/-- Two ranges of numbers meet. -/
def meet (a la b lb : Nat) : Bool := decide (a < b + lb) && decide (b < a + la) && la != 0 && lb != 0

/-- The rules of R394 on one partition's isolation registers. -/
def Partition.isolationOk (x : Partition) : Bool :=
  let cw := x.cwin.toNat
  let g := x.grp.toNat
  x.mwin.toList.all (fun w => decide (bits w.toNat 0 7 + bits w.toNat 8 8 ≤ 128)) && decide (bits cw 0 6 + bits cw 6 7 ≤ 64)
    && decide (bits g 0 8 + bits g 8 9 ≤ 256)

/-- Two partitions share nothing (R394). -/
def Partition.disjoint (x y : Partition) : Bool :=
  let cw (p : Partition) := (bits p.cwin.toNat 0 6, bits p.cwin.toNat 6 7)
  let g (p : Partition) := (bits p.grp.toNat 0 8, bits p.grp.toNat 8 9)
  (x.clmask.toNat &&& y.clmask.toNat) == 0 && (x.rslot.toNat &&& y.rslot.toNat) == 0
    && !meet (cw x).1 (cw x).2 (cw y).1 (cw y).2 && !meet (g x).1 (g x).2 (g y).1 (g y).2
    && (List.finRange 4).all fun d =>
      let a := (vget x.mwin d).toNat
      let b := (vget y.mwin d).toNat
      !meet (bits a 0 7) (bits a 8 8) (bits b 0 7) (bits b 8 8)

/-- A partition with the registers of a configuration block. -/
def Partition.configured (x : Partition) (w : Nat → Word) : Partition :=
  { x with clmask := w 0, mwin := #v[w 1, w 2, w 3, w 4], cwin := w 5, grp := w 6, rslot := w 7, msix := w 8 }

/-- The clusters and the device memory of a partition lie on dies of the device: one that has not joined has neither (R409,
log 74). -/
def State.clustersJoin (s : State) (x : Partition) : Bool :=
  (setBits 20 x.clmask.toNat).all (fun k => s.dieJoins (Fin.ofNat 4 (k / 5)))
    && (List.finRange 4).all fun d => s.dieJoins d || bits (vget x.mwin d).toNat 8 8 == 0

/-- PARTCFG (R402): the trusted part writes every isolation register of an EMPTY partition, or none. -/
def execPartcfg (s : State) : Host.Outcome State Fault Refusal :=
  s.onCommand .partcfg fun c =>
    let p := c.target
    if !allowedIn .partcfg (s.part p).state then .next (s.commandError c 5)
    else match s.commandKey c.q.own c.c.toNat 128 with
      | none => .next (s.commandError c 3)
      | some k =>
        let r := s.fetchBytes k 128
        match r.2 with
        | none => .next (r.1.commandError c 7)
        | some l =>
          let w (i : Nat) : Nat := element l 64 i
          if (List.range 16).any fun i => w i &&& (2 ^ 64 - 1 - cfgMask i) != 0 then .next (r.1.commandError c 2)
          else
            let x := (r.1.part p).configured fun i => BitVec.ofNat 64 (w i)
            if x.isolationOk && r.1.clustersJoin x && (List.finRange 16).all fun o => o == p || x.disjoint (r.1.part o) then
              .next ((r.1.setPart p x).commandDone c)
            else .next (r.1.commandError c 9)

end Sys2Proof.Machine
end

