-- ==== Sys2Proof/Machine/System.lean ====
section
/-! DEFINITION. System instructions, system registers, undefined words and the end of a turn (R14, R29, R30, R78,
R145-R152). -/

namespace Sys2Proof.Machine

def execNop (s : State) : Host.Outcome State Fault Refusal := .next (s.retire (s.ctx s.me).issue id)

/-- TRAP (R146). -/
def execTrap (s : State) : Host.Outcome State Fault Refusal := .next (s.trap (s.ctx s.me).issue 0x10 0)

/-- BRK (R146). -/
def execBrk (s : State) : Host.Outcome State Fault Refusal := .next (s.trap (s.ctx s.me).issue 0x0A 0)

/-- ERET (R147). -/
def execEret (s : State) : Host.Outcome State Fault Refusal :=
  let x := s.ctx s.me
  if x.stalls [] true then .next s
  else if x.level = .u then .next (s.trap x.issue 0x09 (wordEval .eret))
  else if x.epc.toNat % 4 ≠ 0 then .next (s.trap x.issue 0x04 x.epc)
  else .next (s.setCtx s.me x.returned)

/-- YIELD (R149): the context returns to READY and the docent chooses (R14). -/
def execYield (s : State) : Host.Outcome State Fault Refusal :=
  let x := s.ctx s.me
  .next ((s.setCtx s.me { x with pc := x.issue.next, state := .ready, readyAt := s.now }).select s.focus)

/-- DONE (R150). -/
def execDone (s : State) : Host.Outcome State Fault Refusal := .next (s.endTask s.me Causes.none)

/-- A context that has run 256 cycles of its turn while another is READY ends its turn (R14). -/
def execTurnExpiry (core : CoreId) (s : State) : Host.Outcome State Fault Refusal :=
  let u : CtxRef := ⟨core, (s.core core).cur⟩
  let x := s.ctx u
  let others := (List.finRange 8).any fun j => (s.ctx ⟨core, j⟩).state == .ready
  if x.state = .running ∧ 256 ≤ (s.core core).turn ∧ others then
    .next ((s.setCtx u { x with state := .ready, readyAt := s.now }).select core)
  else .next s

/-- A word that is no instruction traps (R78). -/
def execIllegalInstruction (w : Word32) (reserved : Bool) (s : State) : Host.Outcome State Fault Refusal :=
  .next (s.trap (s.ctx s.me).issue (if reserved then 0x02 else 0x01) (w.zeroExtend 64))

/-- Time is observed (R411, log 5). It passes by a free amount, within the 256 ns whose end is a tick of the timer wheel
(R294): what falls due at a tick takes place in the tick's own step. -/
def State.observeTime (s : State) : State :=
  let t := s.time.toNat
  { s with free := s.free + 1, time := BitVec.ofNat 64 (min (t + Config.elapsedNs s.free) (t / 256 * 256 + 255)) }

/-- TIME (R151). -/
def execTime (d : XReg) (s : State) : Host.Outcome State Fault Refusal :=
  let x := s.ctx s.me
  if x.stalls [d] false then .next s
  else
    let s := s.observeTime
    .next (s.retire x.issue fun x => x.setX d s.time)

/-- The tile coordinate of a context's task as TILEC lays it out (Table 1.7). -/
def State.tilec (s : State) (u : CtxRef) : Word :=
  BitVec.ofNat 64 ((s.entry u.core (s.ctx u).task).field 0 16 48)

/-- TCOORD (R151). -/
def execTcoord (d : XReg) (s : State) : Host.Outcome State Fault Refusal :=
  let t := s.tilec s.me
  s.plain (s.ctx s.me).issue [d] fun x => x.setX d t

/-! ### System registers (Table 1.7) -/

/-- The assigned numbers (Table 1.7). -/
def sysAssigned (r : BitVec 10) : Bool := decide (r.toNat ≤ 0x00C) || (decide (0x100 ≤ r.toNat) && decide (r.toNat ≤ 0x106))

/-- Write right at level S (Table 1.7); level U has none. -/
def sysWritable (r : BitVec 10) : Bool := [0x008, 0x100, 0x101, 0x102, 0x105, 0x106].contains r.toNat

/-- GMEMB (Table 1.7). -/
def State.gmemb (s : State) (c : CoreId) : Word :=
  BitVec.ofNat 64 (((s.groupsOf c).take 4).zipIdx.foldl (fun a p => a + (p.1.val + 256) * 2 ^ (16 * p.2)) 0)

def levelBit : Level → Nat
  | .u => 0
  | .s => 1

def levelOf (b : Bool) : Level := if b then .s else .u

/-- The value of a system register, as it stands (Table 1.7). -/
def State.sysValue (s : State) (u : CtxRef) (r : BitVec 10) : Word :=
  let x := s.ctx u
  match r.toNat with
  | 0x000 => s.time
  | 0x001 => (s.core u.core).cycles
  | 0x002 => BitVec.ofNat 64 (s.logical u.core % 256)
  | 0x003 => BitVec.ofNat 64 u.core.val
  | 0x004 => s.devId.zeroExtend 64
  | 0x005 => BitVec.ofNat 64 (s.partOf u.core).val
  | 0x006 => BitVec.ofNat 64 u.ctx.val
  | 0x007 => s.tilec u
  | 0x008 => x.tflags.zeroExtend 64
  | 0x009 => BitVec.ofNat 64 (s.classOf u)
  | 0x00A => s.gmemb u.core
  | 0x00B => BitVec.ofNat 64 (s.part (s.partOf u.core)).annex
  | 0x00C => BitVec.ofNat 64 (x.handle.toNat + 256 * x.gen.toNat)
  | 0x100 => BitVec.ofNat 64 (levelBit x.level + 2 * levelBit x.prev)
  | 0x101 => x.tvec
  | 0x102 => x.epc
  | 0x103 => x.ecause.zeroExtend 64
  | 0x104 => x.eval
  | 0x105 => x.sscr
  | 0x106 => (s.part (s.partOf u.core)).vseed
  | _ => 0

/-- Time and cycles pass before they are read (log 5). -/
def State.observe (s : State) (r : BitVec 10) : State :=
  if r = 0x000 then s.observeTime
  else if r = 0x001 then
    let k := s.core s.focus
    { s with free := s.free + 1 }.setCore s.focus
      { k with cycles := k.cycles + BitVec.ofNat 64 (Config.elapsedCycles s.free) }
  else s

/-- SYSR (R29, R30, R148). -/
def execSysr (d : XReg) (r : BitVec 10) (s : State) : Host.Outcome State Fault Refusal :=
  let x := s.ctx s.me
  if x.stalls [d] true then .next s
  else if !sysAssigned r then .next (s.trap x.issue 0x01 (wordEval (.sysr d r)))
  else if r.toNat ≥ 0x100 ∧ x.level = .u then .next (s.trap x.issue 0x09 (wordEval (.sysr d r)))
  else
    let s := s.observe r
    .next (s.retire x.issue fun x => x.setX d (s.sysValue s.me r))

/-- Reserved bits of PSTAT, TVEC and TFLAGS (R30). -/
def sysReserved (r : BitVec 10) (v : Word) : Bool :=
  match r.toNat with
  | 0x008 => v.toNat >>> 5 != 0
  | 0x100 => v.toNat >>> 2 != 0
  | 0x101 => v.toNat % 64 != 0
  | _ => false

/-- The registers of a context after a permitted write (Table 1.7). -/
def Context.sysWrite (x : Context) (r : BitVec 10) (v : Word) : Context :=
  match r.toNat with
  | 0x008 => { x with tflags := v.truncate 5 }
  | 0x100 => { x with level := levelOf (v.getLsbD 0), prev := levelOf (v.getLsbD 1) }
  | 0x101 => { x with tvec := v }
  | 0x102 => { x with epc := v }
  | 0x105 => { x with sscr := v }
  | _ => x

/-- SYSW (R29, R30, R148). -/
def execSysw (d : XReg) (r : BitVec 10) (s : State) : Host.Outcome State Fault Refusal :=
  let x := s.ctx s.me
  let v := x.getX d
  if x.stalls [d] true then .next s
  else if !sysAssigned r then .next (s.trap x.issue 0x01 (wordEval (.sysw d r)))
  else if x.level = .u ∨ !sysWritable r then .next (s.trap x.issue 0x09 (wordEval (.sysw d r)))
  else if sysReserved r v then .next (s.trap x.issue 0x02 (wordEval (.sysw d r)))
  else
    let p := s.partOf s.focus
    let s := if r = 0x106 then s.setPart p { s.part p with vseed := v } else s
    .next (s.retire x.issue fun x => x.sysWrite r v)

end Sys2Proof.Machine
end

