-- ==== Sys2Proof/Machine/Imx.lean ====
section
/-! DEFINITION. IMX: a prefix and its instruction execute as one indivisible pair (R76, R77). -/

namespace Sys2Proof.Machine

/-- The majors marked X in Table 3.2. -/
def xMajor (w : Word32) : Bool :=
  let m := w.toNat / 2 ^ 26
  [0x02, 0x03, 0x04, 0x05, 0x09, 0x0A, 0x12, 0x13, 0x14, 0x15, 0x16, 0x17, 0x18, 0x19, 0x20, 0x21, 0x22, 0x23, 0x24,
    0x25, 0x26, 0x28, 0x29, 0x2A, 0x2B, 0x2C, 0x33, 0x37, 0x38, 0x39, 0x3A].contains m

/-- An X form with its immediate replaced by the 42-bit value (R76); `none` is no X form. -/
def State.prefixed (s : State) (i : Issue) (p : BitVec 26) (x : Instr) : Option (Host.Outcome State Fault Refusal) :=
  let z (imm : BitVec 16) : Word := naturalImm (p ++ imm)
  let g (imm : BitVec 16) : Word := signedImm (p ++ imm)
  match x with
  | .addi d a imm => some (s.addImm i d a (g imm))
  | .andi d a imm => some (s.andImm i d a (z imm))
  | .ori d a imm => some (s.orImm i d a (z imm))
  | .xori d a imm => some (s.xorImm i d a (z imm))
  | .slti d a imm => some (s.sltImm i d a (g imm))
  | .lil d imm => some (s.loadImm i d (g imm))
  | .beq a b off => some (s.branchIf i a b (g off) (· == ·))
  | .bne a b off => some (s.branchIf i a b (g off) (· != ·))
  | .blt a b off => some (s.branchIf i a b (g off) fun x y => x.slt y)
  | .bge a b off => some (s.branchIf i a b (g off) fun x y => !x.slt y)
  | .bltn a b off => some (s.branchIf i a b (g off) fun x y => x.ult y)
  | .bgen a b off => some (s.branchIf i a b (g off) fun x y => !x.ult y)
  | .bz a off => some (s.branchZ i a (g off) (· == 0))
  | .bnz a off => some (s.branchZ i a (g off) (· != 0))
  | .ldB d a imm => some (s.loadAt i d a (g imm) .b false)
  | .ldBn d a imm => some (s.loadAt i d a (g imm) .b true)
  | .ldH d a imm => some (s.loadAt i d a (g imm) .h false)
  | .ldHn d a imm => some (s.loadAt i d a (g imm) .h true)
  | .ldW d a imm => some (s.loadAt i d a (g imm) .w false)
  | .ldWn d a imm => some (s.loadAt i d a (g imm) .w true)
  | .ldD d a imm => some (s.loadAt i d a (g imm) .d false)
  | .stB a b imm => some (s.storeImm i a b (g imm) .b)
  | .stH a b imm => some (s.storeImm i a b (g imm) .h)
  | .stW a b imm => some (s.storeImm i a b (g imm) .w)
  | .stD a b imm => some (s.storeImm i a b (g imm) .d)
  | .stloc a b imm => some (s.storeLocal i a b (g imm))
  | .tseti w imm => some (s.stageImm i w (g imm))
  | .ldref d a imm => some (s.loadRef i d a (g imm))
  | .stref a b imm => some (s.storeRef i a b (g imm))
  | .ldh d a imm => some (s.loadField i d a (g imm))
  | .sth a b imm => some (s.storeField i a b (g imm))
  | _ => none

/-- IMX (R76, R77): the word that follows comes from the read that fetched the prefix (R74). Where that word, of an X form,
has a field that must be zero and is not, EVAL is that word and EPC the prefix (R78; DESIGN CHOICE, log 89). -/
def execImx (payload : BitVec 26) (s : State) : Host.Outcome State Fault Refusal :=
  let u := s.me
  let x := s.ctx u
  let i : Issue := ⟨x.pc, x.pc + 4, x.pc + 8⟩
  let misused (s : State) : Host.Outcome State Fault Refusal := .next (s.trap i 0x03 (wordEval (.imx payload)))
  if x.pc.toNat % 64 = 60 then misused s
  else
    match decodeDocent s.second with
    | .ok j => (s.prefixed i payload j).getD (misused s)
    | .undefined => misused s
    | .reserved => if xMajor s.second then .next (s.trap i 0x02 (s.second.zeroExtend 64)) else misused s

end Sys2Proof.Machine
end

