-- ==== Sys2Proof/Machine/Keepers.lean ====
section
/-! DEFINITION. The keepers' lease (R408), firmware and attestation (R409, R410), device time from the management port
(R411, R413), clock steps and sensors (R415-R417). -/

namespace Sys2Proof.Machine

/-- A keeper. -/
def State.keeper (s : State) (k : DieNum) : Keeper := vget s.keepers k

/-- Sets a keeper. -/
def State.setKeeper (s : State) (k : DieNum) (x : Keeper) : State := { s with keepers := vset s.keepers k x }

/-! ### The lease (R408) -/

/-- A keeper that has come to lead shows the links that changed meanwhile in the live masks (R408). -/
def State.showLinks (s : State) : State :=
  if s.leads then s.linkChanges.foldl State.changeLinks { s with linkChanges := [] } else s

/-- LEASE_RENEWAL: a holder that leads sets EXPIRY to its device time + 2 ms; after 1.5 ms it no longer does. -/
def execLeaseRenewal (s : State) : Host.Outcome State Fault Refusal :=
  match s.arg with
  | .keeper k =>
    if s.lease.die = k ∧ s.leads then
      let s := { s with lease := { s.lease with expiry := s.time + 2000000 } }
      .next (s.setKeeper k { s.keeper k with renewed := s.time.toNat })
    else .next s
  | _ => .next s

/-- LEADER_STOP: a leader that has not renewed for 1.5 ms stops all leader actions. -/
def execLeaderStop (s : State) : Host.Outcome State Fault Refusal :=
  match s.arg with
  | .keeper k =>
    if s.lease.valid ∧ s.lease.die = k ∧ (s.keeper k).renewed + 1500000 ≤ s.time.toNat then
      .next (s.setKeeper k { s.keeper k with stopped := true })
    else .next s
  | _ => .next s

/-- LEASE_TAKEOVER: a follower takes a lapsed lease with EPOCH + 1, continues each queue's command, and shows the links that
changed meanwhile. -/
def execLeaseTakeover (s : State) : Host.Outcome State Fault Refusal :=
  match s.arg with
  | .keeper k =>
    let holder := s.lease.valid && s.lease.die == k
    if !holder ∧ (s.keeper k).runs ∧ s.lease.expiry.toNat + 50000 * k.val ≤ s.time.toNat then
      let s := { s with lease := ⟨k, true, s.lease.epoch + 1, s.time + 2000000⟩, leaseLost := false }
      let s := s.setKeeper k { s.keeper k with renewed := s.time.toNat, stopped := false }
      .next (allQueues.foldl State.requeue s).showLinks
    else .next s
  | _ => .next s

/-- KEEPER_FAILURE: a keeper hangs; if it is D0's, the device is failed and every partition receives its error source. -/
def execKeeperFailure (s : State) : Host.Outcome State Fault Refusal :=
  match s.arg with
  | .keeper k =>
    let s := s.setKeeper k { s.keeper k with alive := false }
    if k = 0 then .next { (List.finRange 16).foldl (fun s p => s.raiseSource p 6) s with deviceFailed := true } else .next s
  | _ => .next s

/-! ### Firmware (R409) -/

/-- Both signatures verify, and the version is not below the fused minimum. -/
def firmwareAccepted (f : Firmware) : Bool :=
  Config.ed25519Verifies f.image f.ed25519 && Config.mldsaVerifies f.image f.mldsa
    && decide (Config.fusedMinimum ≤ f.version)

/-- The n-th measurement of a power-up is extended into its register. -/
def Keeper.measure (k : Keeper) (n : Nat) (image : List Byte) : Keeper :=
  let r := Config.measurementRegister n
  { k with measurements := vset k.measurements r (Config.extendMeasurement (vget k.measurements r) (Config.sha512 image)) }

/-- POWER_UP (R409): the boot ROM of a keeper measures and verifies the trusted part, which then verifies the untrusted
part in the same way; a keeper whose trusted part is refused stays in recovery, and its die does not join the device. -/
def execPowerUp (s : State) : Host.Outcome State Fault Refusal :=
  match s.arg with
  | .firmware k t u =>
    let x := (Keeper.reset.measure 0 t.image).measure 1 Config.fusedConfiguration
    let ok := firmwareAccepted t
    let x := if ok then x.measure 2 u.image else x
    .next (s.setKeeper k { x with trusted := ok, untrusted := ok && firmwareAccepted u, refused := !ok }).showLinks
  | _ => .next s

/-! ### Attestation (R410) -/

/-- The measurements of the keeper that holds the host's port, as bytes. -/
def State.measurementBytes (s : State) : List (List Byte) :=
  (s.keeper 0).measurements.toList.map fun m => bytesOf 64 m.toNat

/-- A message with both signatures over it. -/
def signedBytes (m : List Byte) : List Byte := m ++ Config.signEd25519 m ++ Config.signMldsa m

/-- An SPDM response leaves, if the trusted part runs. -/
def State.attest (s : State) (d : List Byte) : State :=
  if (s.keeper 0).alive && (s.keeper 0).trusted then { s with out := s.out ++ [.spdm d] } else s

/-- GET_MEASUREMENTS: each measurement signed by both algorithms. -/
def execGetMeasurements (s : State) : Host.Outcome State Fault Refusal :=
  match s.arg with
  | .nonce n => .next (s.attest ((s.measurementBytes.map fun m => signedBytes (n ++ m)).flatten))
  | _ => .next s

/-- GET_CERTIFICATE. -/
def execGetCertificate (s : State) : Host.Outcome State Fault Refusal :=
  match s.arg with
  | .certificate slot => .next (s.attest (Config.certificate slot))
  | _ => .next s

/-- CHALLENGE. -/
def execChallenge (s : State) : Host.Outcome State Fault Refusal :=
  match s.arg with
  | .nonce n => .next (s.attest (signedBytes (n ++ s.measurementBytes.flatten)))
  | _ => .next s

/-! ### Clock steps (R415, R416) -/

/-- Clusters that an OPEN group holds together. -/
def State.joined (s : State) (a b : Fin 20) : Bool :=
  (List.finRange 256).any fun g =>
    (s.group g).state == .opened && (s.memberCores g).any (fun c => c.val / 8 == a.val)
      && (s.memberCores g).any fun c => c.val / 8 == b.val

/-- One round of raising each cluster to the highest step of those it is held with. -/
def State.levelSteps (s : State) (v : Vector (Fin 9) 20) : Vector (Fin 9) 20 :=
  Vector.ofFn fun a : Fin 20 => (List.finRange 20).foldl (fun m b => if s.joined a b then (if m < vget v b then vget v b else m) else m) (vget v a)

/-- The steps at which clusters run: their own, or the highest that any cluster of the same OPEN groups needs (R416). -/
def State.clusterSteps (s : State) : Vector (Fin 9) 20 := (List.range 20).foldl (fun v _ => s.levelSteps v) s.steps

/-- CLOCK_STEP_CHANGE (R416): the leader chooses the steps that clusters need. -/
def execClockStepChange (s : State) : Host.Outcome State Fault Refusal :=
  match s.arg with
  | .clocks l =>
    if s.leads then
      .next (l.foldl (fun s p =>
        let up := p.2.val - (vget s.steps p.1).val
        { s with steps := vset s.steps p.1 p.2, raised := min (s.raised + up) 0xFFFFFFFF }) s)
    else .next s
  | _ => .next s

/-! ### Sensors (R417) -/

/-- The physical sensors: offset and width (Table 14.6). -/
def sensorMap : List (Nat × Nat) :=
  (List.range 5).map (fun i => (0x800 + 8 * i, 32)) ++ (List.range 20).map fun i => (0x828 + 8 * i, 16)

/-- STEPS0 and STEPS1: four bits per cluster. -/
def State.stepsReg (s : State) (h : Nat) : Word :=
  BitVec.ofNat 64 ((List.finRange 20).foldl (fun a c =>
    if c.val / 16 = h then a + (vget s.clusterSteps c).val * 2 ^ (4 * (c.val % 16)) else a) 0)

/-- SENSOR_UPDATE (R417): each physical sensor shows the value given, or a free one; STEPS and THREV show the clusters'
steps and the steps raised. -/
def execSensorUpdate (s : State) : Host.Outcome State Fault Refusal :=
  let given : List (BitVec 16 × Word) := match s.arg with
    | .sensors l => l
    | _ => []
  let value (p : Nat × Nat) : BitVec 16 × Word :=
    let off := BitVec.ofNat 16 p.1
    let v : Word := match given.find? fun x => x.1 == off with
      | some x => x.2
      | none => Config.sensor s.free off
    (off, v &&& BitVec.ofNat 64 (2 ^ p.2 - 1))
  .next { s with
    free := s.free + 1
    sensors := sensorMap.map value ++ [(0x8C8, s.stepsReg 0), (0x8D0, s.stepsReg 1), (0x8D8, BitVec.ofNat 64 s.raised)] }

/-! ### Device time (R411, R413) -/

/-- PTP_SYNC: at a synchronisation interval the offset is measured, and with EN the leader disciplines the rate; LOCKED shows
whether it does. -/
def execPtpSync (s : State) : Host.Outcome State Fault Refusal :=
  match s.arg with
  | .ptp offset ppm =>
    let on := s.ptpcfg.getLsbD 10 && s.leads
    .next { s with
      toffset := offset
      holdover := false
      locked := on
      rate := if on then max (-500) (min 500 ppm) else s.rate }
  | _ => .next s

/-- PTP_MASTER_LOSS: time continues at the last rate. -/
def execPtpMasterLoss (s : State) : Host.Outcome State Fault Refusal :=
  .next { s with holdover := true, locked := false }

end Sys2Proof.Machine
end

