-- ==== Sys2Proof/Machine/Replay.lean ====
section
/-! DEFINITION. REPLAY (R383): covered accesses walk again, or fail. -/

namespace Sys2Proof.Machine

/-- The instruction that a context issues next is WAITA. -/
def State.atWaita (s : State) (u : CtxRef) : Bool :=
  match (s.fetch u (s.ctx u).pc).2 with
  | .ok w => match decodeDocent w.1 with
    | .ok (.waita _ _ _ _) => true
    | _ => false
  | _ => false

/-- The members that end with a record: those of its gang, or its own core. -/
def State.recordCores (s : State) (c : CoreId) (kind : Kind) : List CoreId :=
  match kind, s.taken kind c with
  | .matrix, some (_, i) => match gangOf i with
    | some (r, _) => ((s.gang c r).map fun l => l.map fun x => x.1).getD [c]
    | none => [c]
  | _, _ => [c]

/-- An engine task's access has failed as a protection error (R244). -/
def State.unitFails (s : State) (u : UnitId) : State :=
  match u with
  | .vector c => s.vectorFail c causeAccess
  | .matrix c => (s.recordCores c .matrix).foldl (fun s k => s.endRecord k .matrix causeAccess) s
  | .transpose c => s.endRecord c .transpose causeAccess
  | .copy c => (s.endReloc c).endRecord c .copy causeAccess
  | .docent _ => s
  | .cmdq _ => s

/-- The release of a task fails with ACCESS (R85, R300). -/
def State.releaseFails (s : State) (c : CoreId) (k : Kind) (h : Handle) : State :=
  if (s.entry c h).state = .ready then (s.failRelease c h causeAccess).once (.event (.taskRelease c k) .none) else s

/-- The lookup of a partition command has failed: the reference keeps its form, as one whose lookup traps does (R342), and
the command goes on with the next. -/
def State.lookupFails (s : State) (q : CmdQ) (va : Word) : State :=
  (s.setCmdQueue q { s.cmdQueue q with failed := va :: (s.cmdQueue q).failed }).once (.unit (.cmdq q))

/-- The instruction that a context issues next is one that posts. -/
def State.atPost (s : State) (u : CtxRef) : Bool :=
  match (s.fetch u (s.ctx u).pc).2 with
  | .ok w => match decodeDocent w.1 with
    | .ok (.post _) => true
    | .ok (.trypost _) => true
    | .ok (.postl _ _ _) => true
    | .ok (.join _) => true
    | _ => false
  | _ => false

/-- A lookup of a task that enters has failed: it is posted again, with the failure noted (R277, R383). -/
def State.entryLookupFails (s : State) (a : Parked) : State :=
  { s with failedLookups := (a.who, a.va) :: s.failedLookups }.resume a.who

/-- A parked access fails as a protection error, with no new record (R383). -/
def State.parkedFails (s : State) (a : Parked) : State :=
  match a.who with
  | .load u seq =>
    match (s.ctx u).load with
    | some l => if l.seq = seq ∧ l.failure = none then s.loadFails u l 0x05 else s
    | none => s
  | .store u =>
    match (s.ctx u).stores with
    | w :: _ => (s.unpark a.who).storeFails u w 0x05
    | [] => s
  | .waita u seq =>
    match (s.ctx u).park with
    | .waita _ _ _ _ _ => if (s.ctx u).state = .parked ∧ (s.ctx u).seq = seq then s.waitFails u 0x05 a.va else s
    | _ => s
  | .retry u =>
    let x := s.ctx u
    if x.state ≠ .parked ∨ x.park ≠ .load then s
    else if a.va = x.pc then s.fetchTraps u 0x05
    else if a.ag.source = 3 ∧ s.atPost u then s.entryLookupFails a
    else if s.atWaita u then s.enterTrap u 0x05 a.va (x.pc + 4)
    else s.enterTrap u 0x05 a.va x.pc
  | .unit (.cmdq q) => s.lookupFails q a.va
  | .unit u => s.unitFails u
  | .part w x => s.partFails w x.va causeAccess
  | .release c k h => s.releaseFails c k h
  | .entry c h =>
    (s.setEntry c h { s.entry c h with pins := (s.entry c h).pins.drop 1 }).once (.event (.taskCompletion c h) .none)
  | .fabric _ (.packet _) => s.entryLookupFails a
  | .fabric _ b => match b.source with
    | some src => s.reply src false 1 [] []
    | none => s
  | .slot n => (s.unpark a.who).freeSlot n (2 ^ 42)
  | .gone => s

/-- A covered access walks again (R383): a miss makes or joins a new record; else its requester makes the access, once
no other of its accesses waits. -/
def State.walkAgain (s : State) (a : Parked) : State :=
  let off := a.va.toNat % 2 ^ 45
  let w := s.walk a.ag a.write a.die off
  match w.2 with
  | .miss l => w.1.parkMiss a.ag a.write l a.va a.die off
  | _ => w.1.resume a.who

/-- A covered access fails, unless what made it has left it with another of its accesses. -/
def State.failAgain (s : State) (a : Parked) : State :=
  if s.parked.contains a then { s with parked := s.parked.erase a }.parkedFails a else s

/-- A sequence number is covered by UPTO (R383). -/
def coveredBy (upto : Nat) (seq : BitVec 32) : Bool := decide ((upto + 2 ^ 32 - seq.toNat) % 2 ^ 32 < 2 ^ 31)

/-- Every covered access of a partition fails, or walks again, in the order parked; then requests that wait for a park
entry have room (R380, R383). -/
def State.replay (s : State) (p : PartNum) (upto : Nat) (fail : Bool) : State :=
  let hit (a : Parked) : Bool := a.part == p && (match a.record with
    | some n => coveredBy upto n
    | none => false)
  let covered := s.parked.filter hit
  let s := { s with misses := s.misses.filter fun m => !(m.part == p && coveredBy upto m.seq) }
  let t := if fail then
      let t := covered.foldl State.failAgain s
      { t with parked := t.parked.filter fun a => !(hit a && a.who.whole == .gone) }
    else covered.foldl State.walkAgain { s with parked := s.parked.filter fun a => !hit a }
  ((covered.map Parked.who).foldl State.chooseFor t).wakeSlices

/-- REPLAY (R383): it completes when every covered access has had its walk, or has failed. -/
def execReplay (s : State) : Host.Outcome State Fault Refusal :=
  s.onCommand .replay fun c =>
    let flags := if c.onDevice then bits c.b.toNat 8 2 else bits c.a.toNat 0 2
    let upto := if c.onDevice then bits c.c.toNat 0 32 else c.b.toNat
    let p := c.target
    let s := if flags.testBit 1 then { s with copies := s.copies.filter fun k => k.part != p } else s
    .next ((s.replay p upto (flags.testBit 0)).commandDone c)

end Sys2Proof.Machine
end

