-- ==== Sys2Proof/Machine/Image.lean ====
section
/-! DEFINITION. The context image (R393, Tables 13.5-13.9, Table 7.11, Table 8.1): how each unit's state is written as
words and read back. What the tables give no place for is rebuilt at restore (log 20). -/

namespace Sys2Proof.Machine

/-! ### Bytes of an image -/

/-- Bytes written line by line as plain lines; a line of zeros stays as the clearing left it. -/
def State.imageLines (s : State) (k : Nat) : Nat → List Byte → State
  | 0, _ => s
  | n + 1, d =>
    let l := d.take 64
    let l := l ++ List.replicate (64 - l.length) 0
    State.imageLines (if l.all (· == 0) then s else s.storeLine k l (makeTag 0 0 0 l)) (k + 64) n (d.drop 64)

/-- Bytes at a line-aligned place of an image. -/
def State.imageBytes (s : State) (k : Nat) (d : List Byte) : State := s.imageLines k ((d.length + 63) / 64) d

/-- The lines of a memory that hold something. -/
def Memory.lines (m : Memory) : List Nat := (m.map fun c => c.1 / 64).eraseDups

/-- A memory of its own written into an image. -/
def State.imageMemory (s : State) (k : Nat) (m : Memory) : State :=
  m.lines.foldl (fun s i =>
    let d := m.read (64 * i) 64
    s.storeLine (k + 64 * i) d (makeTag 0 0 0 d)) s

/-- Words as bytes. -/
def wordBytes (l : List Nat) : List Byte := bytesOfCodes 8 l

/-- A word of an image. -/
def Memory.word (m : Memory) (k i : Nat) : Nat := ofBytes (m.read (k + 8 * i) 8)

/-- A word of an image as a register. -/
def Memory.reg (m : Memory) (k i : Nat) : Word := BitVec.ofNat 64 (m.word k i)

/-- The bytes of one core's section (Table 13.6). -/
def sectionBytes : Nat := 0x900000

/-- Where the section of logical core n begins. -/
def sectionAt (image n : Nat) : Nat := image + 4096 + n * sectionBytes

/-! ### Contexts (Table 13.8) -/

/-- A reference brought to present form (R342); one whose lookup traps, or has failed in a REPLAY (R383), keeps its form,
and `none` waits for a lookup that misses (R337). -/
def State.healed (s : State) (c : CoreId) (who : Requester) (w : Word) : State × Option Word :=
  let r := s.present (s.registrarAgent c who) w.toNat
  match r.2 with
  | .ok (.ok v, _) => (r.1, some (BitVec.ofNat 64 v))
  | .wait => if s.lookupStuck r.1 who then (s, some w) else (r.1, none)
  | _ => (r.1, some w)

/-- The H registers of a context from a number on are brought to present form; `false` waits. -/
def State.healContext (s : State) (u : CtxRef) (who : Requester) : List HReg → State × Bool
  | [] => (s, true)
  | h :: r =>
    let a := s.healed u.core who ((s.ctx u).getH h)
    match a.2 with
    | some v => State.healContext (a.1.setCtx u ((a.1.ctx u).setH h v)) u who r
    | none => (a.1, false)

/-- The managed-object regions of an entry are brought to present form, each from the present form that it had last;
`false` waits. -/
def State.healEntry (s : State) (c : CoreId) (h : Handle) (who : Requester) : List (Fin 8) → State × Bool
  | [] => (s, true)
  | n :: r =>
    let w : Fin 32 := Fin.ofNat 32 (4 + 2 * n.val)
    let a := s.healed c who ((slotValue (s.entry c h).objects n).getD ((s.entry c h).word w))
    match a.2 with
    | some v =>
      let e := a.1.entry c h
      State.healEntry (a.1.setEntry c h { e with image := vset e.image w v, objects := Machine.setSlot e.objects n v }) c h who r
    | none => (a.1, false)

/-- A step over the members of a list, while none waits. -/
def whileDone {α : Type} (f : State → α → State × Bool) : List α → State → State × Bool
  | [], s => (s, true)
  | a :: r, s =>
    let t := f s a
    if t.2 then whileDone f r t.1 else t

/-- Every H register and managed-object region of a core is brought to present form (R342); `false` waits. -/
def State.healCore (who : Requester) (s : State) (c : CoreId) : State × Bool :=
  let a := whileDone (fun s i => s.healContext ⟨c, i⟩ who (List.finRange 16)) (List.finRange 8) s
  if a.2 then
    whileDone (fun s h => s.healEntry c h who ((s.entry c h).slotsOf 6)) ((a.1.core c).handles Entry.inFlight) a.1
  else a

/-- Code of a comparison (Table 3.3). -/
def cmpCode : Cmp → Nat
  | .eq => 0
  | .ne => 1
  | .lt => 2
  | .ge => 3
  | .ltn => 4
  | .gen => 5

/-- The comparison of a code. -/
def cmpOf (n : Nat) : Cmp :=
  match n with
  | 0 => .eq
  | 1 => .ne
  | 2 => .lt
  | 3 => .ge
  | 4 => .ltn
  | _ => .gen

/-- The PARK code and the park record of a context. One parked on an access issues it again, as does one that waits in
GBAR for a later generation (R166); one that waits in a post, or stands between two entries of a POSTL (R157), goes on
with it. -/
def Context.parkWords (x : Context) : Nat × List Nat :=
  if x.posting then (4, [0, 0, 0, 0])
  else match x.park with
  | .waitc n p => (1, [n.val + 256 * p.toNat, 0, 0, 0])
  | .waita _ va m e c => (2, [va.toNat, m.toNat, e.toNat, cmpCode c])
  | .gbar g again => if again then (0, [0, 0, 0, 0]) else (3, [g.val, 0, 0, 0])
  | .post _ => (4, [0, 0, 0, 0])
  | .parts _ _ _ => (0, [0, 0, 0, 0])
  | .load => (0, [0, 0, 0, 0])
  | .none => (0, [0, 0, 0, 0])

/-- STATE and PARK of a context block. -/
def Context.stateWord (x : Context) : Nat :=
  let k := x.parkWords.1
  match x.state with
  | .empty => 0
  | _ => if k = 0 then 1 else 2 + 4 * k

/-- Code of an access size. -/
def Size.code : Size → Nat
  | .b => 0
  | .h => 1
  | .w => 2
  | .d => 3

/-- The size of a code. -/
def sizeOf (n : Nat) : Size :=
  match n with
  | 0 => .b
  | 1 => .h
  | 2 => .w
  | _ => .d

/-- The pending-load record: LADDR and word 57; a parked WAITA keeps its destination in LDST. A load that has failed is
not made again: its fault is saved. -/
def Context.loadWords (x : Context) : Nat × Nat :=
  match x.load.filter (fun l => l.failure.isNone), x.park with
  | some l, _ => (l.addr.toNat, l.dest.val + 32 + 64 * Size.code l.size + 256 * l.nat.toNat)
  | none, .waita d _ _ _ _ => (0, d.val)
  | none, _ => (0, 0)

/-- The words of a context block, with the fault reported during the save (R126). -/
def State.contextWords (s : State) (u : CtxRef) : List Nat :=
  let x := s.ctx u
  let regs := (x.x.toList.drop 1).map BitVec.toNat
  let hs := x.h.toList.map BitVec.toNat
  let fault : Nat × Nat := match s.faultOf u with
    | some f => (f.1.toNat, f.2.toNat)
    | none => (0, 0)
  let lvl (l : Level) : Nat := if l = .s then 1 else 0
  let sys := [lvl x.level + 2 * lvl x.prev, x.tvec.toNat, x.epc.toNat, x.ecause.toNat, x.eval.toNat, x.sscr.toNat]
  let task := x.tflags.toNat + 32 * x.pclass.toNat + 128 * x.pused.toNat + 256 * x.handle.toNat + 65536 * x.gen.toNat
  [x.pc.toNat, x.stateWord] ++ regs ++ hs ++ sys ++ [task, x.loadWords.1, x.loadWords.2, fault.1, fault.2] ++ x.parkWords.2
    ++ x.staging.toList.map BitVec.toNat ++ [x.stack.toNat]

/-- A context as its block says. The image names no level for a REISSUE load: where nothing else is kept of it, it is made
again at the level that the context is saved with (DESIGN CHOICE, log 20). -/
def Memory.context (m : Memory) (k : Nat) : Context :=
  let w (i : Nat) : Nat := m.word k i
  let park : Park := match bits (w 1) 2 3 with
    | 1 => .waitc (Fin.ofNat 256 (bits (w 60) 0 8)) ((w 60).testBit 8)
    | 2 => .waita (Fin.ofNat 32 (bits (w 57) 0 5)) (m.reg k 60) (m.reg k 61) (m.reg k 62) (cmpOf (bits (w 63) 0 3))
    | 3 => .gbar (Fin.ofNat 256 (bits (w 60) 0 8)) false
    | _ => .none
  let level : Level := if (w 49).testBit 0 then .s else .u
  let load : Option PendingLoad := if (w 57).testBit 5 then
      some ⟨Fin.ofNat 32 (bits (w 57) 0 5), m.reg k 56, sizeOf (bits (w 57) 6 2), (w 57).testBit 8, .load, 0, level, .core, 0, false⟩
    else none
  { Context.reset with
    pc := m.reg k 0
    x := Vector.ofFn fun r : Fin 32 => if r.val = 0 then 0 else m.reg k (1 + r.val)
    h := Vector.ofFn fun r : Fin 16 => m.reg k (33 + r.val)
    level := level
    prev := if (w 49).testBit 1 then .s else .u
    tvec := m.reg k 50
    epc := m.reg k 51
    ecause := BitVec.ofNat 8 (w 52)
    eval := m.reg k 53
    sscr := m.reg k 54
    tflags := BitVec.ofNat 5 (w 55)
    pclass := BitVec.ofNat 2 (bits (w 55) 5 2)
    pused := (w 55).testBit 7
    handle := Fin.ofNat 256 (bits (w 55) 8 8)
    gen := BitVec.ofNat 16 (bits (w 55) 16 16)
    state := match bits (w 1) 0 2 with
      | 0 => .empty
      | 2 => if park = .none then .ready else .parked
      | _ => .ready
    park := if bits (w 1) 0 2 = 2 then park else .none
    posting := decide (bits (w 1) 0 5 = 2 + 4 * 4)
    load := load
    seq := if load.isSome then 1 else 0
    staging := Vector.ofFn fun i : Fin 32 => m.reg k (64 + i.val)
    stack := m.reg k 96 }

/-! ### Progress (Table 8.1, Table 7.11) -/

/-- A record's place in its units: indices I0-I3 and the column group. -/
def Entry.place (e : Entry) (i : Instr) (n : Nat) : Nat × Nat × Nat × Nat × Nat :=
  match recordFields i with
  | none => (0, 0, 0, 0, 0)
  | some (_, r) =>
    let t := e.trips r
    let outer (k : Nat) := (k % t.t1, k / t.t1 % t.t2, k / t.t1 / t.t2)
    let multiply (d : Bool) :=
      let g := (e.mma r d).groups
      let o := outer (n / g)
      (0, o.1, o.2.1, o.2.2, n % g)
    let copy (per : Nat) :=
      let o := outer (n / per / t.t0)
      (n / per % t.t0, o.1, o.2.1, o.2.2, 0)
    match i with
    | .mma _ => multiply false
    | .dmma _ => multiply true
    | .cpya r => copy (64 / (elOf r.fa).bytes)
    | _ =>
      if e.kind = 4 then copy 1
      else
        let o := outer n
        (0, o.1, o.2.1, o.2.2, 0)

/-- The units before a place. -/
def Entry.unitsBefore (e : Entry) (i : Instr) (i0 i1 i2 i3 grp : Nat) : Nat :=
  match recordFields i with
  | none => 0
  | some (_, r) =>
    let t := e.trips r
    let outer := (i3 * t.t2 + i2) * t.t1 + i1
    match i with
    | .mma r => outer * (e.mma r false).groups + grp
    | .dmma r => outer * (e.mma r true).groups + grp
    | .cpya r => (outer * t.t0 + i0) * (64 / (elOf r.fa).bytes)
    | _ => if e.kind = 4 then outer * t.t0 + i0 else outer

/-- The progress words of a running record (Table 8.1). Table 8.1 names no place for the entries that a SCANREF has found:
they stand where x does, which a SCANREF does not use (DESIGN CHOICE, log 20). -/
def Entry.progressWords (e : Entry) (kind : Kind) (en : Engine) : Nat × Nat :=
  match e.record kind with
  | none => (en.started.toNat * 2 ^ 63, 0)
  | some i =>
    let p := e.place i en.progress
    let x := match i with
      | .cpyx _ => 0
      | _ => en.x
    (p.1 + p.2.1 * 2 ^ 16 + p.2.2.1 * 2 ^ 32 + p.2.2.2.1 % 256 * 2 ^ 48 + p.2.2.2.2 * 2 ^ 56
        + (!en.held.isEmpty).toNat * 2 ^ 62 + en.started.toNat * 2 ^ 63,
      p.2.2.2.1 / 256 + x % 2 ^ 32 * 2 ^ 32)

/-- The queues that a record's operands name, each with whether the record produces into it: C, and the A of an MDRAIN
(R254, R257). -/
def Rec.queueUses (r : Rec) (i : Instr) : List (QNum × Bool) :=
  let drains := match i with
    | .mdrain _ => true
    | _ => false
  ([(r.a, drains), (r.b, false), (r.c, true)].filter fun d => d.1.cls == 4).map fun d => (d.1.queue, d.2)

/-- A running record as its progress words say; the slot it holds is the one its queue shows in use (R254). -/
def State.engineOf (s : State) (c : CoreId) (kind : Kind) (h : Handle) (w0 w1 : Nat) : Engine :=
  let e := s.entry c h
  let base : Engine := { Engine.reset with job := .task h, started := w0.testBit 63, x := bits w1 32 32 }
  match e.record kind with
  | none => base
  | some i =>
    let n := e.unitsBefore i (bits w0 0 16) (bits w0 16 16) (bits w0 32 16) (bits w0 48 8 + 256 * bits w1 0 8) (bits w0 56 6)
    let held := if w0.testBit 62 then
        match recordFields i with
        | some (_, r) => (Rec.queueUses r i).filterMap fun u =>
            (firstFin fun k : Fin 8 => vget (s.queue c u.1).slots k == if u.2 then .filling else .draining).map
              fun k => (u.1, k)
        | none => []
      else []
    { base with progress := n, held := held }

/-- A saved loop word (Table 7.11). -/
def LoopWord.code (l : LoopWord) : Nat :=
  l.first + 256 * l.last + 65536 * l.step + l.active.toNat * 2 ^ 19 + l.count * 2 ^ 32

/-- The loop of a saved word. -/
def loopOf (w : Nat) : LoopWord := ⟨bits w 0 8, bits w 8 8, bits w 16 3, w.testBit 19, bits w 32 32⟩

/-! ### Catalogue entries (Table 13.9) -/

/-- Code of an entry's state. -/
def EState.code : EState → Nat
  | .free => 0
  | .pending => 1
  | .ready => 2
  | .running => 3
  | .held => 4

/-- The state of a code. -/
def estateOf (n : Nat) : EState :=
  match n with
  | 1 => .pending
  | 2 => .ready
  | 3 => .running
  | 4 => .held
  | _ => .free

/-- The engine a task runs on. -/
def State.jobOf (s : State) (c : CoreId) (h : Handle) : Option (Kind × Engine) :=
  [Kind.matrix, Kind.transpose, Kind.copy].findSome? fun k =>
    if (s.engine c k).handle = some h then some (k, s.engine c k) else none

/-- The context that runs a docent task. -/
def State.runsIn (s : State) (c : CoreId) (h : Handle) : Option Context :=
  let e := s.entry c h
  let x := s.ctx ⟨c, e.ctx⟩
  if e.kind = 0 ∧ e.state = .running ∧ x.state ≠ .empty ∧ x.task = h ∧ x.gen = e.gen then some x else none

/-- The 64 words of a catalogue entry. A docent task's suppression (R131) is part of its status, and its count x stands in
word 42 as a kernel's does (DESIGN CHOICE, log 20: Table 2.10 has it saved, Table 13.9 places a kernel's alone). -/
def State.entryWords (s : State) (c : CoreId) (h : Handle) : List Nat :=
  let e := s.entry c h
  if !e.inFlight then List.replicate 32 0 ++ [e.gen.toNat * 65536]
  else
    let v := (s.core c).vec
    let runs := v.task == some h
    let x := s.runsIn c h
    let quiet := (x.map fun y => y.suppressed).getD false
    let causes := if quiet then e.causes.or causeUndeclared else e.causes
    let status := if e.state = .running then causes.status else e.status
    let flags := (x.map fun y => y.tflags).getD e.flags
    let cycles := if e.state = .ready then min (s.now - e.readySince) (2 ^ 20) else 0
    let deps (i : Nat) : Nat := e.deps.foldl (fun a d => if d.val / 64 = i then a ||| 2 ^ (d.val % 64) else a) 0
    let primes := (s.core c).renamesIn.filter fun i =>
      (vget (s.core c).renames i).owner == h && (vget (s.core c).renames i).priming
    let ren := (e.renDeps ++ primes).foldl (fun a d => a ||| 2 ^ d.val) 0
    let prog := match s.jobOf c h with
      | some (k, en) => e.progressWords k en
      | none => (0, 0)
    let kern := if runs then v.next + v.x % 2 ^ 32 * 2 ^ 32 else if x.isSome then e.rsr % 2 ^ 32 * 2 ^ 32 else 0
    let loops := if runs then v.loops.toList.map LoopWord.code else [0, 0, 0]
    let red := (List.finRange 8).flatMap fun n => match slotValue e.redirected n with
      | some r => [r.toNat % 2 ^ 64, r.toNat / 2 ^ 64]
      | none => [0, 0]
    e.image.toList.map BitVec.toNat
      ++ [e.state.code + e.gen.toNat * 2 ^ 16 + status.toNat * 2 ^ 32 + flags.toNat * 2 ^ 36 + e.ctrLatched.toNat * 2 ^ 41
          + e.timeLatched.toNat * 2 ^ 42 + e.aged.toNat * 2 ^ 43, cycles, deps 0, deps 1, deps 2, deps 3, ren, 0, prog.1,
        prog.2, kern] ++ loops ++ [0, 0] ++ red

/-- The causes behind a saved status. -/
def causesOf (status : Nat) : Causes :=
  match status with
  | 3 => causeData
  | 2 => causeAccess
  | 6 => causeQueue
  | 7 => causeFormat
  | 1 => causeUndeclared
  | _ => Causes.none

/-- A catalogue entry as its words say, but for its order of entry. -/
def State.entryOf (s : State) (p : PartNum) (k : Nat) (h : Handle) : Entry :=
  let m := s.mem
  let w := m.word k 32
  let cycles := bits (m.word k 33) 0 21
  let st := estateOf (bits w 0 3)
  let status := bits w 32 4
  if st = .free then { Entry.free with gen := BitVec.ofNat 16 (bits w 16 16) }
  else
    { Entry.free with
      state := st
      gen := BitVec.ofNat 16 (bits w 16 16)
      image := Vector.ofFn fun i : Fin 32 => m.reg k i.val
      age := h.val
      deps := (setBits 256 (ofBytes (m.read (k + 8 * 34) 32))).map (Fin.ofNat 256)
      renDeps := (setBits 64 (m.word k 38)).map (Fin.ofNat 64)
      ctrLatched := w.testBit 41
      timeLatched := w.testBit 42
      aged := w.testBit 43
      starved := decide (2 ^ 20 ≤ cycles)
      readySince := s.now - cycles
      status := BitVec.ofNat 4 status
      flags := BitVec.ofNat 5 (bits w 36 5)
      causes := if st = .held then Causes.none else causesOf status
      redirected := (List.finRange 8).filterMap fun n =>
        let r := m.word k (48 + 2 * n.val) + 2 ^ 64 * m.word k (49 + 2 * n.val)
        if r = 0 then none else some (n, BitVec.ofNat 128 r)
      seed := (s.part p).vseed
      rsr := if st = .running ∧ bits (m.word k 0) 0 3 = 0 then bits (m.word k 42) 32 32 else 0
      failed := status != 0 && (st == .pending || st == .ready) }

/-! ### Control block (Table 13.7) -/

/-- A counter's two words (Table 1.5). -/
def Counter.words (k : Counter) : List Nat :=
  [k.count.toNat + k.expect.toNat * 2 ^ 32, k.phase.toNat + 2 * k.err.toNat + 4 * k.aband.toNat]

/-- A counter as its words say. -/
def counterOf (a b : Nat) : Counter :=
  ⟨BitVec.ofNat 32 a, BitVec.ofNat 32 (a >>> 32), b.testBit 0, b.testBit 1, b.testBit 2⟩

/-- Code of a guard's state. -/
def Guard.code : Guard → Nat
  | .free => 0
  | .opened => 1
  | .committing => 2
  | .squashing => 3

/-- The guard state of a code. -/
def guardOf (n : Nat) : Guard :=
  match n with
  | 1 => .opened
  | 2 => .committing
  | 3 => .squashing
  | _ => .free

/-- Own slots of an outbound queue that have taken a permit. -/
def Queue.fillingSlots (q : Queue) : List (Fin 8) :=
  (List.finRange 8).filter fun i => q.outbound && (vget q.slots i == .filling || vget q.slots i == .ready)

/-- A held permit as a queue block gives it. -/
def heldWord (l : QLine) : Nat :=
  bits l.word.toNat 0 32 + l.sDev.toNat * 2 ^ 32 + l.sCore / 40 * 2 ^ 42 + l.sCore % 40 * 2 ^ 44 + l.sQ.val * 2 ^ 50
    + l.sPart.val * 2 ^ 54 + 2 ^ 63

/-- The permit line of a held word. -/
def heldOf (p : PartNum) (core : Nat) (q : QNum) (w : Nat) : QLine where
  sDev := BitVec.ofNat 10 (bits w 32 10)
  sPart := Fin.ofNat 16 (bits w 54 4)
  sCore := 40 * bits w 42 2 + bits w 44 6
  sQ := Fin.ofNat 16 (bits w 50 4)
  part := p
  core := core
  q := q
  word := BitVec.ofNat 64 (bits w 0 32)
  seq := 0
  clock := Vector.replicate 4 0
  plane := none

/-- The words of a queue block: consumer slots of the slots in a fill come before the permits still held. -/
def Queue.words (q : Queue) : List Nat :=
  let permits := (q.fillingSlots.map fun i => (vget q.fills i).1.val) ++ q.permits.map Fin.val
  let stat := q.qstat.toNat + if q.outbound || q.state == .closed then 0 else 2 ^ 24 * q.permits.length
  [q.word0.toNat, q.word1.toNat, stat, q.plane.val, permits.zipIdx.foldl (fun a p => a + p.1 * 16 ^ p.2) 0]
    ++ q.held.map heldWord

/-- The slot state of a code. -/
def slotOf (n : Nat) : Slot :=
  match n with
  | 1 => .filling
  | 2 => .ready
  | 3 => .draining
  | _ => .empty

/-- A queue as its block says. -/
def Memory.queue (m : Memory) (k : Nat) (p : PartNum) (core : Nat) (n : QNum) : Queue :=
  let st := m.word k 2
  let held := (List.range 8).filterMap fun i =>
    let w := m.word k (5 + i)
    if w.testBit 63 then some (heldOf p core n w) else none
  let state : QState := match bits st 0 2 with
    | 1 => .opened
    | 2 => .broken
    | _ => .closed
  if state = .closed then { Queue.reset with held := held }
  else
    let q : Queue := { Queue.reset with
      state := state
      word0 := m.reg k 0
      word1 := m.reg k 1
      bound := st.testBit 7
      slots := Vector.ofFn fun i : Fin 8 => slotOf (bits st (8 + 2 * i.val) 2)
      cause := BitVec.ofNat 4 (bits st 28 4)
      plane := Fin.ofNat 16 (bits (m.word k 3) 0 4)
      held := held }
    let busy := q.fillingSlots
    let nib (i : Nat) : Fin 8 := Fin.ofNat 8 (bits (m.word k 4) (4 * i) 4)
    let ready := (List.finRange 8).filter fun i => vget q.slots i == .ready
    { q with
      order := ready
      permits := (List.range (bits st 24 4)).map fun i => nib (busy.length + i)
      fills := Vector.ofFn fun i : Fin 8 => match busy.idxOf? i with
        | some j => (nib j, if vget q.slots i = .ready then q.slotBytes / 64 else 0)
        | none => (0, 0) }

/-- Code of a rename's state. -/
def RState.code : RState → Nat
  | .free => 0
  | .opened => 1
  | .closed => 2
  | .homing => 3

/-- A box in the places of a region's first word (Table 3.14). -/
def Box.code (b : Box) : Nat := b.row * 2 ^ 5 + b.rows * 2 ^ 17 + b.col * 2 ^ 29 + b.cols * 2 ^ 40

/-- The words of a rename-table entry; word 2 counts the lines its homing copy has written. -/
def Rename.words (r : Rename) : List Nat :=
  if r.state = .free then [0, 0, 0, 0]
  else
    let g := match r.guard with
      | some g => g.val * 2 ^ 12 + 2 ^ 17
      | none => 0
    [r.box.code, r.shadow + g + r.state.code * 2 ^ 18, r.progress % 65536, r.owner.val]

/-- A rename as its words say, but for the tasks that hold it. -/
def Memory.rename (m : Memory) (k : Nat) (e : Fin 64) : Rename :=
  let w := m.word k 1
  { Rename.reset with
    state := match bits w 18 2 with
      | 1 => .opened
      | 2 => .closed
      | 3 => .homing
      | _ => .free
    box := boxOf (m.word k 0)
    shadow := bits w 0 12
    guard := if w.testBit 17 then some (Fin.ofNat 32 (bits w 12 5)) else none
    owner := Fin.ofNat 256 (bits (m.word k 3) 0 8)
    progress := bits (m.word k 2) 0 16
    age := e.val }

/-- The registers of the vector state block. -/
def VectorUnit.words (v : VectorUnit) : List Nat :=
  v.s.toList.map BitVec.toNat ++ v.lc.toList.map BitVec.toNat ++ [v.wb.val, v.shape.toNat]

/-- Words padded to a block. -/
def padWords (n : Nat) (l : List Nat) : List Nat := l ++ List.replicate (n - l.length) 0

/-- The control block of a core (Table 13.7). -/
def State.controlBytes (s : State) (c : CoreId) : List Byte :=
  let k := s.core c
  let gs := s.groupsOf c
  let arrived := gs.zipIdx.foldl (fun a g => if k.arrived.contains g.1 then a + 2 ^ g.2 else a) 0
  wordBytes ((List.finRange 8).flatMap fun i => padWords 128 (s.contextWords ⟨c, i⟩))
    ++ wordBytes (k.counters.toList.flatMap Counter.words)
    ++ bytesOfCodes 4 (k.bregs.toList.map BitVec.toNat)
    ++ bytesOfCodes 1 (k.guards.toList.map Guard.code)
    ++ wordBytes (padWords 28 [arrived])
    ++ wordBytes (padWords 64 k.vec.words)
    ++ wordBytes (k.queues.toList.flatMap fun q => padWords 32 q.words)
    ++ wordBytes (k.renames.toList.flatMap Rename.words)
    ++ wordBytes [k.annex.toNat]

/-- The lines of a range that hold something or whose tag is not that of an unwritten line. -/
def State.listedLines (s : State) (k n : Nat) : List Nat :=
  (((s.mem.slice k n).map fun c => (k + c.1) / 64)
    ++ (s.tags.filter fun t => decide (k / 64 ≤ t.1) && decide (t.1 < (k + n + 63) / 64)).map fun t => t.1).eraseDups

/-- The lines of a range are verified: those that fail are poisoned, and counted (R37, R414). -/
def State.verifyLines (s : State) (k n : Nat) : State := (s.listedLines k n).foldl (fun s l => (s.verify l).1) s

/-- The tag words of a core's tile store; an unreadable line is saved with POISON (R393). -/
def State.tileTags (s : State) (c : CoreId) : List Nat :=
  (List.range 98304).map fun i =>
    let n := tileKey c.val 0 0 / 64 + i
    let t := s.tags.get n
    (if lineOk (s.lineData n) t then t else t ||| 0x1000000#64).toNat

/-- One core's section (Table 13.6), in cleared memory. -/
def State.writeSection (s : State) (c : CoreId) (k : Nat) : State :=
  let v := (s.core c).vec
  let parts : List (Nat × List Byte) :=
    [(0, s.controlBytes c),
      (0x10000, wordBytes ((List.finRange 256).flatMap fun h => padWords 64 (s.entryWords c h))),
      (0x210000, (v.p.toList.drop 1).flatMap fun p => bytesOf 4096 p.toNat),
      (0x220000, wordBytes (s.tileTags c))]
  let mems : List (Nat × Memory) :=
    [(0x40000, (s.core c).acc), (0x80000, v.v), (0x200000, v.l), (0x208000, v.z),
      (0x300000, s.mem.slice (tileKey c.val 0 0) 0x600000)]
  let t := parts.foldl (fun t p => t.imageBytes (k + p.1) p.2) s
  mems.foldl (fun t p => t.imageMemory (k + p.1) p.2) t

/-! ### Group entries (Table 1.6) -/

/-- A group entry as one number. -/
def Group.code (g : Group) : Nat :=
  let st : Nat := match g.state with
    | .idle => 0
    | .opened => 1
    | .broken => 2
  g.members.toNat + g.part.toNat * 2 ^ 160 + g.cls.toNat * 2 ^ 164 + st * 2 ^ 166 + g.arrived.toNat * 2 ^ 168
    + g.gen.toNat * 2 ^ 176

/-- The group of an entry. What its arrivals carried is past: memory as restored is the initial write (R308). -/
def groupOf (v : Nat) : Group :=
  ⟨BitVec.ofNat 160 v, BitVec.ofNat 4 (v >>> 160), BitVec.ofNat 2 (v >>> 164),
    match bits v 166 2 with
    | 1 => .opened
    | 2 => .broken
    | _ => .idle, BitVec.ofNat 8 (v >>> 168), BitVec.ofNat 16 (v >>> 176), Vector.replicate 4 0⟩

/-- Entry g of an image's device section. -/
def Memory.groupEntry (m : Memory) (k g : Nat) : Nat := ofBytes (m.read (k + 32 * g) 32)

/-- The bytes of an image of `n` cores: header, sections and device section. -/
def imageBytesOf (n : Nat) : Nat := 4096 + n * sectionBytes + 8192

/-- Writes the image of a partition (R389): header, sections and device section. -/
def State.writeImage (s : State) (p : PartNum) (k : Nat) : State :=
  let cs := s.coresOf p
  let s := cs.foldl (fun s c => s.verifyLines (tileKey c.val 0 0) 0x600000) s
  let x := s.part p
  let n := cs.length
  let header := [0x43463449 + 2 ^ 32, p.val + n / 8 * 2 ^ 8 + x.annex * 2 ^ 16, x.vseed.toNat, x.heap.toNat]
    ++ x.roots.toList.map BitVec.toNat ++ [4096 + n * sectionBytes]
  let t := { s with
    mem := s.mem.clear k (imageBytesOf n)
    tags := s.tags.clear (k / 64) (imageBytesOf n / 64) }
  let t := t.imageBytes k (wordBytes header)
  let t := cs.zipIdx.foldl (fun t c => t.writeSection c.1 (sectionAt k c.2)) t
  let t := t.imageBytes (sectionAt k n) ((t.groups.toList.map fun g =>
    bytesOf 32 (if g.part.toNat = p.val ∧ g.members ≠ 0 then g.code else 0)).flatten)
  t

end Sys2Proof.Machine
end

