-- ==== Sys2Proof/Machine/Partition.lean ====
section
/-! DEFINITION. The partition commands (R389-R392, R404-R406): SAVE, RESTORE, QUIESCE and RESET.PART. -/

namespace Sys2Proof.Machine

/-! ### One partition command at a time (R405) -/

/-- Whether a partition command may act: it has the partition, or takes it; a RESET.PART ends a QUIESCE first. -/
def State.claim (s : State) (c : Cmd) (reset : Bool) : State × Bool :=
  let p := c.target
  let take (s : State) : State := s.setPart p { s.part p with command := some c.q }
  match (s.part p).command with
  | none => (take s, true)
  | some q =>
    if q = c.q then (s, true)
    else if reset ∧ s.quiescing p then
      match (s.cmdQueue q).busy with
      | some (_, d) =>
        let s := s.commandDone d
        (take (s.setCmdQueue q { s.cmdQueue q with aborted := true }), true)
      | none => (s, false)
    else (s, false)

/-- A partition command waits for its turn, fails in a STATE that does not allow it, or acts. -/
def State.partitionCommand (s : State) (i : Instr) (f : Cmd → State → State) : Host.Outcome State Fault Refusal :=
  s.onCommand i fun c =>
    let a := s.claim c (i == .resetPart)
    if !a.2 then .next s
    else if (s.cmdQueue c.q).progress = 0 ∧ !allowedIn i (s.part c.target).state then .next (a.1.commandError c 5)
    else .next (f c a.1)

/-! ### QUIESCE -/

/-- No task is in flight and every context is EMPTY (R404). -/
def State.quiet (s : State) (p : PartNum) : Bool :=
  (s.coresOf p).all fun c =>
    ((s.core c).handles Entry.inFlight).isEmpty && (s.core c).ctxs.toList.all fun x => x.state == .empty

/-- QUIESCE (R404). -/
def execQuiesce (s : State) : Host.Outcome State Fault Refusal :=
  s.partitionCommand .quiesce fun c s =>
    if (s.part c.target).state = .stopped ∨ s.quiet c.target then s.commandDone c else s

/-! ### SAVE -/

/-- A vector store that has begun and waits for a translation (R219), or has been made and waits for its copies and
answers. -/
def VectorUnit.storing (v : VectorUnit) : Bool :=
  v.task.isSome && (v.after.isSome || (v.waiting && match v.kernel[v.next]? with
    | some w => match decodeKernel w with
      | some (.vst _) => true
      | some (.vstl _) => true
      | some (.vscat _) => true
      | some (.vpack _) => true
      | _ => false
    | none => false))

/-- A copy record between the element steps of a line (R247), or a RELOC past its move point (R342). -/
def State.copyMidway (s : State) (c : CoreId) : Bool :=
  let x := s.engine c .copy
  (match x.reloc with
    | .moved _ _ _ _ _ _ _ => true
    | _ => false)
  || (match s.taken .copy c with
    | some (_, .cpya r) => x.progress % (64 / (elOf r.fa).bytes) != 0
    | _ => false)

/-- An element step of a CPYA that is parked, or held at a line under relocation, holds the save; a read of its source may
be abandoned (R246, R247, R389). -/
def State.copyParked (s : State) (c : CoreId) : Bool :=
  let me : Requester := .unit (.copy c)
  (match s.taken .copy c with
    | some (_, .cpya _) => true
    | _ => false) && ((s.parked.any fun a => a.who == me && a.write) || s.heldMoving.any fun a => a.2 == me)

/-- Acts that begin or continue work of a core's units, and so stop at a save's boundary (R389); a reference instruction
that has parked goes on (R168). -/
def State.beginsWork (s : State) (a : Act) : Option CoreId :=
  match a with
  | .unit (.docent c) => if (s.ctx ⟨c, (s.core c).cur⟩).midRef then none else some c
  | .unit (.vector c) => if (s.core c).vec.storing then none else some c
  | .unit (.matrix c) => some c
  | .unit (.transpose c) => some c
  | .unit (.copy c) => if s.copyMidway c then none else some c
  | .unit (.cmdq _) => none
  | .event (.taskRelease c _) _ => some c
  | .event (.gangStart c) _ => some c
  | .event (.ringStart c) _ => some c
  | .event (.homingCopy c _) _ => some c
  | .event (.primingCopy c _) _ => some c
  | .event (.parkedPostResume c) _ => some c
  | .event (.qcloseCompletion u _) _ => some u.core
  | .event _ _ => none

/-- The units of a partition stand still: it is being saved, restored or torn down, or is saved (R302, R389, R392). -/
def State.still (s : State) (p : PartNum) : Bool :=
  s.saving p || s.restoring p || (s.part p).state == .stopped || (s.part p).state == .resetting

/-- An act does not take place: its unit stands at a save's boundary (R389). -/
def State.halted (s : State) (a : Act) : Bool :=
  match s.beginsWork a with
  | some c => s.still (s.partOf c)
  | none => false

/-- A fault report stays on its way while its partition is saved or restored (R126): it is the one of its context. -/
def State.keepsFault (s : State) (a : Act) : Bool :=
  match a with
  | .event (.delayedFault u _ _ _ _) _ =>
    (s.saving (s.partOf u.core) || s.restoring (s.partOf u.core)) && ({ s with agenda := s.agenda ++ [a] }.faultOf u).isSome
  | _ => false

/-- A line for a queue of a STOPPED partition is held (R389). -/
def State.holdsLine (s : State) (a : Act) : Bool :=
  match a with
  | .event _ (.qline l _ _) => (s.part l.part).state == .stopped
  | _ => false

/-- Steps that a save waits for (R389): fault reports but the one that the image records (R126), replies on their way to a
context, completions, iteration ends of a kernel (R240), settle points, answers to a copy record and to the tile walk, and
lines for the partition's queues. -/
def State.savesAfter (s : State) (p : PartNum) (a : Act) : Bool :=
  let mine (c : CoreId) : Bool := s.partOf c == p
  match a with
  | .event _ (.qline l _ _) => l.part == p
  | .event .tileWalkSend (.queue c _ _) => mine c
  | .event .tileWalkSlotAnswered (.queue c _ _) => mine c
  | .event (.delayedFault u _ _ _ _) _ => mine u.core && (s.faultOf u).isNone
  | .event (.loopIterationEnd c) _ => mine c
  | .event (.waitaReply u _ _) _ => mine u.core
  | .event (.postrReply u _ _) _ => mine u.core
  | .event (.taskCompletion c _) _ => mine c
  | .event (.relocSettle c) _ => mine c
  | a => (s.coresOf p).any fun c => a.answersCopy c

/-- A part of a write that its maker has left, or of a host write, is still due at a copy (R330). -/
def State.partsLeft (s : State) (p : PartNum) : Bool :=
  let mine (w : Requester) : Bool := match w with
    | .part v x => (v == .gone || w.ofHost) && x.part == p
    | _ => false
  (s.parked.any fun a => mine a.who) || s.heldMoving.any fun a => mine a.2

/-- A part of a write of a core, or an unpin of a completion. -/
def Requester.mustEnd (w : Requester) (c : CoreId) : Bool :=
  match w with
  | .entry d _ => d == c
  | .part w _ => w.ofCore c
  | _ => false

/-- A context has reached its boundary: its stores are performed, its atomic and the fence after it, its POSTR and its
reference instruction are complete (R126, R158, R168). A load is abandoned, or has failed. -/
def Context.atBoundary (x : Context) : Bool :=
  x.stores.isEmpty && !x.trailing && (x.state == .empty || !x.midRef) && (match x.load with
    | some l => l.op == .load || l.failure.isSome
    | none => true)

/-- A core has reached its boundaries: its contexts have, no store instruction, element step or write to another device is
part-way (R219, R247), and no fill arrives or is unanswered (R360, R389). -/
def State.coreSettled (s : State) (c : CoreId) : Bool :=
  let k := s.core c
  k.ctxs.toList.all Context.atBoundary
  && !k.vec.storing && !s.copyMidway c && !s.copyParked c
  && k.queues.toList.all (fun q => q.state != .opened || (q.fill.isNone && q.routes == 0))
  && !(s.parked.any fun a => a.who.mustEnd c) && !(s.heldMoving.any fun a => a.2.mustEnd c)
  && !s.requests.any fun r => match r.who with
    | .unit _ d _ => d == c
    | .fillLine d _ _ => d == c
    | _ => false

/-- Held packets that a partition has sent are refused with reply 4 (R352, R389); arrivals stay held. -/
def State.refuseSent (s : State) (p : PartNum) : State :=
  let mine (k : Packet) : Bool := k.srcDev == s.devId && k.srcPart == p && k.sender.isSome
  let waiting := s.stationed.filter mine
  let s := waiting.foldl (fun s k => s.answerPacket k 4) { s with stationed := s.stationed.filter fun k => !mine k }
  (s.heldPackets.filter fun h => mine h.packet).foldl (fun s h => (s.unhold h).answerPacket h.packet 4) s

/-- A context whose parked reference instruction may go on is the one that its core runs, until the instruction completes
(R168). -/
def State.finishRef (s : State) (c : CoreId) : State :=
  let cur : CtxRef := ⟨c, (s.core c).cur⟩
  if (s.ctx cur).state = .running ∧ (s.ctx cur).midRef then s.once (.unit (.docent c))
  else match firstFin fun i : CtxId => (s.ctx ⟨c, i⟩).midRef && (s.ctx ⟨c, i⟩).state == .ready with
    | none => s
    | some i =>
      let s := if (s.ctx cur).state = .running then s.wakes cur else s
      (s.runs c i).once (.unit (.docent c))

/-- Stores that waited for a load of their context, which a save abandons, go on (R126). -/
def State.releaseStores (s : State) (c : CoreId) : State :=
  (List.finRange 8).foldl (fun s i => s.storesGo ⟨c, i⟩) s

/-- Who waits for the lookups of a partition command (R337, R342). -/
def commandWho (c : Cmd) : Requester := .unit (.cmdq c.q)

/-- Every OPEN queue of a partition sends a control line to its other end. -/
def State.tellQueues (s : State) (p : PartNum) (i : Instr) (kind : Nat) : State :=
  (s.coresOf p).foldl (fun s c => (List.finRange 16).foldl (fun s n =>
    if (s.queue c n).state = .opened then s.sendControl c n i (controlWord kind 0 0 0 0) else s) s) s

/-- What a core leaves beside its section (log 20): a context that runs enters READY at the save (R14, Table 13.8). -/
def Core.left (k : Core) (now : Nat) : Core :=
  { k with ctxs := k.ctxs.map fun x => if x.state = .running then { x with state := .ready, readyAt := now } else x }

/-- What a save leaves beside the image that it has written (log 20). -/
def State.keep (s : State) (p : PartNum) (k : Nat) : State :=
  let l := s.coresOf p
  let m := s.mem.slice k (imageBytesOf l.length)
  { s with kept := ⟨k, m, l.map fun c => (s.core c).left s.now⟩ :: s.kept.filter fun x => !(x.key == k && x.image == m) }

/-- SAVE (R389): packets are refused and queues suspended; when every unit stands at its boundary, references are brought
to present form (R342) and the image is written, and STATE becomes STOPPED. -/
def execSave (s : State) : Host.Outcome State Fault Refusal :=
  s.partitionCommand .save fun c s =>
    let p := c.target
    let n := (s.coresOf p).length
    match s.commandKey (some p) c.c.toNat (imageBytesOf n) with
    | none => s.commandError c 3
    | some k =>
      if (s.cmdQueue c.q).progress = 0 then
        let s := (s.refuseSent p).tellQueues p .queueSuspend 5
        let s := (s.coresOf p).foldl State.releaseStores s
        s.setCmdQueue c.q { s.cmdQueue c.q with progress := 1 }
      else
        let s := (s.coresOf p).foldl State.finishRef (s.refuseSent p)
        if !(s.coresOf p).all s.coreSettled || s.partsLeft p || s.agenda.any (s.savesAfter p) || s.waiting (commandWho c)
        then s
        else
          let h := whileDone (State.healCore (commandWho c)) (s.coresOf p) s
          if !h.2 then h.1
          else
            let s := (h.1.writeImage p k).keep p k
            let s := (s.coresOf p).foldl (fun s c => s.stopCore c) s
            let s := { s with parked := s.parked.filter fun a => !(a.part == p && a.who == Requester.gone) }
            (s.setPart p { s.part p with state := .stopped }).commandDone c

/-! ### RESTORE -/

/-- A header that RESTORE refuses (Table 13.5, R342). -/
def State.headerBad (s : State) (p : PartNum) (k : Nat) : Bool :=
  let w (i : Nat) : Nat := s.mem.word k i
  let annex := bits (w 1) 16 11
  w 0 != 0x43463449 + 2 ^ 32 || bits (w 1) 0 4 != p.val || bits (w 1) 4 4 != 0 || bits (w 1) 27 37 != 0
    || 8 * bits (w 1) 8 8 != s.coreCount p || annex % 16 != 0 || decide (1024 < annex)
    || bits (w 3) 0 6 != 0 || bits (w 3) 58 6 != 0
    || [4, 5, 6, 7].any (fun i => bits (w i) 0 18 != 0 || bits (w i) 37 27 != 0)
    || (List.range 503).any fun i => w (9 + i) != 0

/-- A device section that RESTORE refuses (Table 1.6, R28, R395). -/
def State.groupsBad (s : State) (p : PartNum) (k : Nat) : Bool :=
  let g := (s.part p).grp.toNat
  let entry (i : Nat) : Nat := s.mem.groupEntry k i
  let bad (i : Nat) : Bool :=
    let v := entry i
    if bits g 0 8 ≤ i ∧ i < bits g 0 8 + bits g 8 9 then
      v != 0 && (bits v 192 64 != 0 || bits v 166 2 == 3 || bits v 160 4 != p.val)
    else v != 0
  (List.range 256).any bad
    || (List.range (s.coreCount p)).any fun l => decide (4 < ((List.range 256).filter fun i => (entry i).testBit l).length)

/-- A core section that RESTORE refuses (Table 7.11, Table 8.1, Table 13.8, Table 13.9). -/
def State.sectionBad (s : State) (k : Nat) : Bool :=
  (List.range 8).any (fun i => s.mem.word (k + 1024 * i) 96 % 16 != 0)
    || (List.range 256).any fun h =>
      let e := k + 0x10000 + 512 * h
      decide (4 < bits (s.mem.word e 32) 0 3) || bits (s.mem.word e 41) 8 24 != 0
        || [43, 44, 45].any fun i => bits (s.mem.word e i) 20 12 != 0

/-- Every line of a range verifies. -/
def State.linesOk (s : State) (k n : Nat) : Bool :=
  (s.listedLines k n).all fun l => lineOk (s.lineData l) (s.tags.get l)

/-- A core's tile store as an image section holds it, each line verified under R37 and a failure of its check counted for
its die and partition (R414). -/
def State.readTile (s : State) (c : CoreId) (k : Nat) : State :=
  let data := s.mem.slice (k + 0x300000) 0x600000
  let base := tileKey c.val 0 0
  let mem := data.lines.foldl (fun m i => m.write (base + 64 * i) (data.read (64 * i) 64)) (s.mem.clear base 0x600000)
  let tags := (List.range 98304).foldl (fun (ts : Tags) i =>
    let t := s.mem.reg (k + 0x220000) i
    ts.set (base / 64 + i) (if lineOk (data.read (64 * i) 64) t then t else t ||| 0x1000000#64)) s.tags
  let fails := (List.range 98304).filter fun i =>
    !lineOk (data.read (64 * i) 64) (s.mem.reg (k + 0x220000) i &&& ~~~0x1000000#64)
  fails.foldl (fun s _ => s.countCheck (dieOf c) (s.partOf c)) ({ s with mem := mem, tags := tags }.unstamp base 0x600000)

/-- A core's registers, catalogue and stores as an image section holds them. Where nothing else is kept of them, every
context has become READY at the restore, has not run, and counts every device that the partition has written as written
since its last FENCE.fabric: Table 13.8 names no place for these (DESIGN CHOICE, log 20). -/
def State.readCore (s : State) (p : PartNum) (c : CoreId) (n k : Nat) : State :=
  let m := s.mem
  let old := s.core c
  let entries := Vector.ofFn fun h : Handle => s.entryOf p (k + 0x10000 + 512 * h.val) h
  let gs := s.groupsOf c
  let vec : VectorUnit := { VectorUnit.reset with
    v := m.slice (k + 0x80000) 0x180000
    l := m.slice (k + 0x200000) 0x8000
    z := m.slice (k + 0x208000) 0x8000
    s := Vector.ofFn fun i : Fin 16 => m.reg (k + 0x3200) i.val
    p := Vector.ofFn fun i : Fin 8 =>
      if i.val = 0 then BitVec.allOnes 32768
      else BitVec.ofNat 32768 (ofBytes (m.read (k + 0x210000 + 4096 * (i.val - 1)) 4096))
    lc := Vector.ofFn fun i : Fin 3 => BitVec.ofNat 32 (m.word (k + 0x3200) (16 + i.val))
    wb := Fin.ofNat 48 (m.word (k + 0x3200) 19)
    shape := BitVec.ofNat 32 (m.word (k + 0x3200) 20) }
  s.setCore c { Core.reset with
    ctxs := Vector.ofFn fun i : CtxId => { m.context (k + 1024 * i.val) with
      written := (s.part p).written, readyAt := s.now }
    cycles := old.cycles
    entries := entries
    nextAge := 256
    renames := Vector.ofFn fun e : Fin 64 => m.rename (k + 0x4400 + 32 * e.val) e
    annex := m.reg (k + 0x4C00) 0
    guards := Vector.ofFn fun g : GuardNum => guardOf ((m.byte (k + 0x3100 + g.val)).toNat % 4)
    counters := Vector.ofFn fun i : CtrNum => counterOf (m.word (k + 0x2000) (2 * i.val)) (m.word (k + 0x2000) (2 * i.val + 1))
    bregs := Vector.ofFn fun b : BNum => BitVec.ofNat 32 (ofBytes (m.read (k + 0x3000 + 4 * b.val) 4))
    queues := Vector.ofFn fun q : QNum => m.queue (k + 0x3400 + 256 * q.val) p n q
    arrived := (gs.zipIdx.filter fun g => (m.word (k + 0x3120) 0).testBit g.2).map fun g => g.1
    acc := m.slice (k + 0x40000) 0x40000
    vec := vec }

/-- The entries of a catalogue in an order of entry that its dependences allow: a task before those that depend on it. -/
def orderByDeps (deps : Handle → List Handle) : (n : Nat) → (rest done : List Handle) → List Handle
  | 0, rest, done => done ++ rest
  | n + 1, rest, done =>
    match rest.find? fun h => (deps h).all fun d => !rest.contains d with
    | some h => orderByDeps deps n (rest.erase h) (done ++ [h])
    | none => done ++ rest

/-- The entries in flight of a core in the order of their restored ages (log 20). -/
def Core.restoredOrder (k : Core) : List Handle :=
  orderByDeps (fun h => (vget k.entries h).deps) 256 (k.handles Entry.inFlight) []

/-- A task has a region redirected to the shadow of a rename. -/
def Entry.inShadow (x : Entry) (r : Rename) : Bool :=
  x.inFlight && x.redirected.any fun d =>
    let b := boxOf d.2.toNat
    decide (r.shadow ≤ b.row) && decide (b.row < r.shadow + r.box.rows)

/-- What a rename's tasks are, from the entries in flight (R284, R288). A task that reaches the box, neither redirected nor
dependent on the homing copy, is one that entered before the owner (R283, R290). An owner that depends on its own rename
waits for the priming copy (word 38 of Table 13.9). -/
def State.renameTasks (s : State) (c : CoreId) (e : Fin 64) : State :=
  let k := s.core c
  let r := vget k.renames e
  if r.state = .free then s
  else
    let l := s.logical c
    let owner := s.entry c r.owner
    let lives := owner.inShadow r
    let reaches (bit : Nat) (x : Entry) : Bool := x.used.any fun n =>
      (x.region n).testBit bit && (boxOf (x.region n)).meets r.box && match bits (x.region n) 0 3 with
        | 0 => (slotValue x.redirected n).isNone
        | 1 => ((slotValue x.peers n).getD []).contains l
        | _ => false
    let older (x : Entry) : Bool := x.inFlight && !(lives && x.age == owner.age) && !x.renDeps.contains e
    let before (j : Fin 64) : Bool :=
      let q := vget k.renames j
      j != e && q.box.meets r.box && !(q.state == .opened && (s.entry c q.owner).inShadow q
        && decide (owner.age ≤ (s.entry c q.owner).age))
    let primes := lives && r.state == .opened && owner.renDeps.contains e
    let s := s.setCore c { k with renames := vset k.renames e { r with
      cls := if lives then owner.field 0 4 2 else 0
      readers := (if lives then [r.owner] else []) ++ k.handles fun x => older x && reaches 3 x
      holders := k.handles fun x => x.inShadow r && !(lives && x.age == owner.age)
      primeDeps := if primes then k.handles fun x => older x && reaches 4 x else []
      priming := primes
      primeRenames := if primes then k.renamesIn.filter before else []
      age := if lives then owner.age else r.age } }
    if lives then s.setEntry c r.owner { owner with renDeps := owner.renDeps.filter fun d => d != e } else s

/-- The parts of an entry that its words do not give: its order of entry, peer cores, references, bound values, its
context, its place in a chain, and what has become of its guard. -/
def State.completeEntry (s : State) (p : PartNum) (c : CoreId) (h : Handle) (age : Nat) : State :=
  let e := s.entry c h
  if !e.inFlight then s
  else
    let k := s.core c
    let g := vget k.guards e.guard
    let objects := (e.slotsOf 6).map fun n => (n, BitVec.ofNat 64 (bits (e.region n) 64 64))
    let running := e.state == .running
    let ch := k.placeIn e
    let e := { e with
      age := age
      peers := (e.slotsOf 1).map fun n => (n, s.peerCores p (e.region n))
      objects := objects
      pins := if running && e.pinsObjects then objects.map fun x => x.2 else []
      bounds := if running then s.readBounds c e else []
      ctx := (firstFin fun i : CtxId =>
        (vget k.ctxs i).state != .empty && (vget k.ctxs i).task == h && (vget k.ctxs i).gen == e.gen).getD 0
      chain := ch.2
      squash := running && e.provisional && g == .squashing
      committed := e.provisional && (g == .committing || g == .free) }
    let k := { k with
      chains := ch.1
      timers := if e.field 0 8 1 = 1 ∧ !e.timeLatched then k.timers ++ [h] else k.timers }
    (s.setCore c k).setEntry c h e

/-- A running task goes back into its unit at its saved place, from which the unit goes on once all is restored. -/
def State.resumeTask (s : State) (c : CoreId) (h : Handle) (k : Nat) : State :=
  let e := s.entry c h
  if e.state ≠ .running then s
  else
    let en (kind : Kind) : Engine := s.engineOf c kind h (s.mem.word k 40) (s.mem.word k 41)
    match e.kind with
    | 1 =>
      let v := (s.core c).vec
      (s.setCore c { s.core c with vec := { v with
        task := some h
        next := bits (s.mem.word k 42) 0 8
        x := bits (s.mem.word k 42) 32 32
        loops := #v[loopOf (s.mem.word k 43), loopOf (s.mem.word k 44), loopOf (s.mem.word k 45)] } })
    | 2 => s.setEngine c .matrix (en .matrix)
    | 3 => s.setEngine c .transpose (en .transpose)
    | 4 => s.setEngine c .copy (en .copy)
    | _ => s

/-- A saved delayed fault is on its way again (R126). -/
def State.readFault (s : State) (u : CtxRef) (k : Nat) : State :=
  let x := s.ctx u
  let cause := BitVec.ofNat 8 (s.mem.word k 58)
  if cause ≠ 0 ∧ x.state ≠ .empty then s.event (.delayedFault u x.task x.gen cause (s.mem.reg k 59)) else s

/-- A core's catalogue and units as far as its section alone gives them (log 20). -/
def State.rebuildCore (s : State) (p : PartNum) (c : CoreId) (k : Nat) : State :=
  let s := (s.core c).restoredOrder.zipIdx.foldl (fun s h => s.completeEntry p c h.1 h.2) s
  let s := (List.finRange 64).foldl (fun s e => s.renameTasks c e) s
  (List.finRange 256).foldl (fun s h => s.resumeTask c h (k + 0x10000 + 512 * h.val)) s

/-- A context with what its save kept of it beside its block: its place among READY contexts (R14), the devices that it has
written (R139), the level of its load (R126), and a post that waits (R287). -/
def Context.keptOver (x o : Context) : Context :=
  let waits := match o.park with
    | .post _ => true
    | _ => false
  { x with
    readyAt := o.readyAt
    ranAt := o.ranAt
    written := o.written
    fseq := o.fseq
    suppressed := o.suppressed
    postAt := o.postAt
    posting := o.posting
    load := x.load.map fun l => { l with level := (o.load.map PendingLoad.level).getD l.level }
    state := if waits then o.state else x.state
    park := if waits then o.park else x.park }

/-- An engine as its save kept it, which goes on with its task; a hidden copy is chosen anew. -/
def Engine.resumed (x : Engine) : Engine :=
  match x.job with
  | .task _ => { x with waiting := false }
  | _ => Engine.reset

/-- A restored core with what its save kept of it beside its section (R390): its entries whole, but that cycles in READY
count from their saved values (R304), with the rename table, chains, queues and units as they stood. -/
def Core.keptOver (k o : Core) : Core :=
  { k with
    ctxs := Vector.ofFn fun i : CtxId => (vget k.ctxs i).keptOver (vget o.ctxs i)
    entries := Vector.ofFn fun h : Handle => { vget o.entries h with
      readySince := (vget k.entries h).readySince, image := (vget k.entries h).image }
    nextAge := o.nextAge
    posters := o.posters
    cramped := o.cramped
    renames := o.renames
    queues := o.queues
    chains := o.chains
    timers := o.timers
    vec := { k.vec with task := o.vec.task, next := o.vec.next, loops := o.vec.loops, x := o.vec.x }
    matrix := o.matrix.resumed
    transpose := o.transpose.resumed
    copy := o.copy.resumed }

/-- A core is restored from its section and from what its save kept (step 1 of R392); a failed core stays failed (R388). -/
def State.readSection (s : State) (p : PartNum) (c : CoreId) (n k : Nat) (o : Option Core) : State :=
  if (s.core c).failed then s
  else
    let s := (s.readCore p c n k).readTile c k
    let s := match o with
      | some o => s.setCore c ((s.core c).keptOver o)
      | none => s.rebuildCore p c k
    (List.finRange 8).foldl (fun s i => s.readFault ⟨c, i⟩ (k + 1024 * i.val)) s

/-- Step 3 of R392: counter conditions are evaluated again; time conditions are at the next tick (R295). -/
def State.resumeCounters (s : State) (c : CoreId) : State :=
  (List.finRange 256).foldl (fun s n =>
    let p := (s.counter c n).phase
    (s.passCounter c n p).latch c n p) s

/-- Step 4 of R392: wait entries are entered again (R143). -/
def State.resumeWaits (s : State) (c : CoreId) : State :=
  (List.finRange 8).foldl (fun s i => s.homeWait ⟨c, i⟩ (s.ctx ⟨c, i⟩).seq) s

/-- Step 5 of R392: REISSUE loads issue (R126). -/
def State.resumeLoads (s : State) (c : CoreId) : State :=
  (List.finRange 8).foldl (fun s i =>
    match (s.ctx ⟨c, i⟩).load with
    | some l => s.event (.homeAccess (.load ⟨c, i⟩ l.seq))
    | none => s) s

/-- Step 6 of R392: saved delayed faults are delivered (R126). -/
def State.resumeFaults (s : State) (c : CoreId) : State :=
  (List.finRange 8).foldl (fun s i =>
    let u : CtxRef := ⟨c, i⟩
    let x := s.ctx u
    match s.faultOf u with
    | some f =>
      { s with agenda := s.agenda.erase (.event (.delayedFault u x.task x.gen f.1 f.2) .none) }.faultArrives u x.task x.gen
        f.1 f.2
    | none => s) s

/-- Every unit of a core resumes: kernels, records and hidden copies at their places, and the docent. -/
def State.resumeUnits (s : State) (c : CoreId) : State :=
  let k := s.core c
  let runs (x : Engine) : Bool := x.handle.isSome
  let acts := (if k.vec.task.isSome then [Act.unit (.vector c)] else [])
    ++ (if runs k.matrix then [.unit (.matrix c)] else []) ++ (if runs k.transpose then [.unit (.transpose c)] else [])
    ++ if runs k.copy then [.unit (.copy c)] else []
  let s := (List.finRange 64).foldl (fun s e =>
    if (vget (s.core c).renames e).state = .homing then s.beginHidden c (.homing e) else s) (s.due acts)
  let s := if k.posters.isEmpty then s else s.once (.event (.parkedPostResume c) .none)
  (s.pokeAll c).dispatch c

/-- Queues go on after a restore (R360): permits that waited return, and READY slots are sent, unless the other end has
suspended the queue. -/
def State.resumeQueues (s : State) (c : CoreId) : State :=
  (List.finRange 16).foldl (fun s n =>
    let q := s.queue c n
    if q.state ≠ .opened || q.suspended then s
    else if q.outbound then q.order.foldl (fun s i => s.eventWith .tileWalkSend (.queue c n i)) s
    else q.permits.foldl (fun s i => s.sendPermit c n i.val) (s.setQueue c n { q with permits := [] })) s

/-- Held packets and lines of a partition are offered again (R392). -/
def State.offerHeld (s : State) (p : PartNum) : State :=
  let s := { s with
    agenda := s.agenda ++ s.heldLines.filter fun a => !s.holdsLine a
    heldLines := s.heldLines.filter s.holdsLine }
  (s.coresOf p).foldl (fun s c =>
    if s.heldPackets.any (s.heldFor c) then s.once (.event (.heldPacketAccept c) .none) else s) s

/-- The group entries of a partition's range as a device section holds them. -/
def State.readGroups (s : State) (p : PartNum) (k : Nat) : State :=
  let g := (s.part p).grp.toNat
  { s with groups := Vector.ofFn fun i : GroupNum =>
      if bits g 0 8 ≤ i.val ∧ i.val < bits g 0 8 + bits g 8 9 then groupOf (s.mem.groupEntry k i.val) else vget s.groups i }

/-- What stands in the memory of a partition is the initial write of each location (R308). -/
def State.unstampPart (s : State) (p : PartNum) : State :=
  let x := s.part p
  let cw := x.cwin.toNat
  (List.finRange 4).foldl (fun s d =>
    let w := (vget x.mwin d).toNat
    (s.unstamp (devKey d (bits w 0 7 * 2 ^ 30)) (bits w 8 8 * 2 ^ 30)).unstamp (commonsKey d (bits cw 0 6 * 2 ^ 20))
      (bits cw 6 7 * 2 ^ 20)) s

/-- What the save that wrote an image kept beside it: that of the save to this place or, where the image has been moved or
copied, of the last that wrote such bytes (log 20). -/
def State.keptFor (s : State) (p : PartNum) (k : Nat) : List Core :=
  let m := s.mem.slice k (imageBytesOf (s.coreCount p))
  match (s.kept.find? fun x => x.key == k && x.image == m).or (s.kept.find? fun x => x.image == m) with
  | some x => x.cores
  | none => []

/-- Step 1 of R392: a partition is written from an image that has been checked. -/
def State.readImage (s : State) (p : PartNum) (k dev : Nat) : State :=
  let m := s.mem
  let o := s.keptFor p k
  let s := s.setPart p { s.part p with
    vseed := m.reg k 2
    rseed := m.reg k 2
    heap := m.reg k 3
    roots := #v[m.reg k 4, m.reg k 5, m.reg k 6, m.reg k 7]
    annex := bits (m.word k 1) 16 11 }
  let s := (s.unstampPart p).readGroups p dev
  (s.coresOf p).zipIdx.foldl (fun s c => s.readSection p c.1 c.2 (sectionAt k c.2) o[c.2]?) s

/-- Steps 3 to 7 of R392, in their order; then every unit resumes, and what was held is offered. -/
def State.goOn (s : State) (p : PartNum) : State :=
  let cs := s.coresOf p
  let s := cs.foldl State.resumeCounters s
  let s := cs.foldl State.resumeWaits s
  let s := cs.foldl State.resumeLoads s
  let s := cs.foldl State.resumeFaults s
  let s := s.tellQueues p .queueResume 6
  let s := cs.foldl State.resumeUnits (s.setPart p { s.part p with state := .running })
  (cs.foldl State.resumeQueues s).offerHeld p

/-- An image that RESTORE refuses (R393). -/
def State.imageBad (s : State) (p : PartNum) (k dev n : Nat) : Bool :=
  !s.linesOk k (4096 + n * sectionBytes) || !s.linesOk dev 8192 || s.headerBad p k || s.groupsBad p dev
    || (List.range n).any fun i => s.sectionBad (sectionAt k i)

/-- RESTORE (R392, R404): the state is written, references are brought to present form (R342), and the units resume. -/
def execRestore (s : State) : Host.Outcome State Fault Refusal :=
  s.partitionCommand .restore fun c s =>
    let p := c.target
    let a := c.c.toNat
    let n := s.coreCount p
    let go (s : State) : State :=
      if s.waiting (commandWho c) then s
      else
        let h := whileDone (State.healCore (commandWho c)) (s.coresOf p) s
        if !h.2 then h.1 else (h.1.goOn p).commandDone c
    if (s.cmdQueue c.q).progress ≠ 0 then go s
    else match s.commandKey (some p) a (4096 + n * sectionBytes) with
    | none => s.commandError c 3
    | some k =>
      match s.commandKey (some p) (a + s.mem.word k 8) 8192 with
      | none => s.commandError c 6
      | some dev =>
        if s.imageBad p k dev n then ((s.verifyLines k (4096 + n * sectionBytes)).verifyLines dev 8192).commandError c 6
        else
          let s := s.setCmdQueue c.q { s.cmdQueue c.q with progress := 1 }
          go (s.readImage p k dev)

/-! ### RESET.PART -/

/-- The pins of a core's tasks are released (R343); `false` waits. -/
def State.unpinTasks (who : Requester) (s : State) (c : CoreId) : State × Bool :=
  whileDone (fun s h => s.unpinAll c h who (s.entry c h).pins) ((s.core c).handles fun e => !e.pins.isEmpty) s

/-- The queues of a core break at their remote ends and become CLOSED; held permits go back with BREAK (R358, R361). -/
def State.resetQueues (s : State) (c : CoreId) : State :=
  (List.finRange 16).foldl (fun s n =>
    let s := if (s.queue c n).state = .opened then s.breakBoth c n 4 else s
    let s := (s.queue c n).held.foldl (fun s l => s.breakSender c l 4) s
    s.setQueue c n Queue.reset) s

/-- A marker on every live plane to every device that the partition has written (R353, R406). -/
def State.sendDrains (s : State) (p : PartNum) : State :=
  (s.part p).written.foldl (fun s dev =>
    let ps := planeList (s.planes dev)
    let w := s.devId.toNat + 2 ^ 21 * (ps.length % 16)
    ps.foldl (fun s pl =>
      let q := s.reqSeq
      (s.request dev pl (.drain p) fun n => .marker dev pl n p (BitVec.ofNat 64 w)).eventWith .fenceMarkerAnswer
        (.completion q 0)) s) s

/-- An access in a partition by another device, or a part of a write in it. -/
def Requester.foreignIn (p : PartNum) : Requester → Bool
  | .part _ x => x.part == p
  | .fabric _ a => match a.source with
    | some src => src.part == p
    | none => false
  | _ => false

/-- Requests of other devices for the partition that wait are answered as a RESETTING partition answers them, and what is
parked leaves its park (R380). -/
def State.dropParked (s : State) (p : PartNum) : State :=
  let whos := (s.parked.map Parked.who ++ s.heldMoving.map Prod.snd ++ s.behind.map Behind.who).filter
    (Requester.foreignIn p)
  let s := ((whos.map Requester.whole).eraseDups).foldl (fun s w => match w with
    | .fabric _ b => match b.source with
      | some src => s.reply src false 1 [] []
      | none => s
    | _ => s) s
  { s with
    parked := s.parked.filter fun a => a.part != p
    heldMoving := s.heldMoving.filter fun a => !a.2.foreignIn p
    behind := s.behind.filter fun a => !a.who.foreignIn p }

/-- A core is scrubbed (R39, R406). -/
def State.scrub (s : State) (c : CoreId) : State :=
  let k := s.core c
  let base := tileKey c.val 0 0
  let s := { s with mem := s.mem.clear base 0x600000, tags := s.tags.clear (base / 64) 98304 }.unstamp base 0x600000
  s.setCore c { Core.reset with
    entries := k.entries.map fun e => { Entry.free with gen := e.gen }
    vec := { VectorUnit.reset with p := Vector.replicate 8 0 } }

/-- The appraisers of a partition are cleared (R369). -/
def State.clearAppraisers (s : State) (p : PartNum) : State :=
  { s with appraisers := s.appraisers.map fun (a : Appraiser) =>
      if bits a.config.toNat 40 4 = p.val then ⟨a.config &&& ~~~1#64, [], none, []⟩ else a }

/-- Teardown begins (R302): the partition is RESETTING, packets for it that are held, or wait in a lookup, are refused
(R303), posts that wait trap (R155), and the units stop. -/
def State.beginReset (s : State) (p : PartNum) : State :=
  let s := s.setPart p { s.part p with state := .resetting }
  let mine (k : Packet) : Bool := k.part == p
  let looking (w : Requester) : Option Packet := match w with
    | .fabric _ (.packet k) => if mine k then some k else none
    | _ => none
  let ks := (s.heldPackets.map HeldPacket.packet ++ s.stationed).filter mine ++ s.parked.filterMap (fun a => looking a.who)
    ++ s.behind.filterMap fun a => looking a.who
  let s := ks.foldl (fun s k => s.answerPacket k 2) { s with
    heldPackets := s.heldPackets.filter fun h => !mine h.packet
    stationed := s.stationed.filter fun k => !mine k
    parked := s.parked.filter fun a => (looking a.who).isNone
    behind := s.behind.filter fun a => (looking a.who).isNone
    failedLookups := s.failedLookups.filter fun l => (looking l.1).isNone }
  (s.coresOf p).foldl (fun s c =>
    let s := s.setCore c { s.core c with closed := true }
    (((s.endReloc c).trapPosts c).keepFlags c).stopCore c) s

/-- The rest of steps 1 to 3 of R406, once the pins are released (R343), and the markers of step 4. -/
def State.tearDown (s : State) (p : PartNum) : State :=
  let s := (s.coresOf p).foldl (fun s c => s.dropTasks c 5 (2 ^ 43)) s
  let s := (s.coresOf p).foldl (fun s c => s.resetQueues c) s
  let s := (s.abandonSlots p).sendDrains p
  { s with
    agenda := s.agenda ++ s.heldLines.filter fun a => !s.holdsLine a
    heldLines := s.heldLines.filter s.holdsLine }

/-- Steps 5 to 7 of R406. -/
def State.scrubPart (s : State) (p : PartNum) : State :=
  let s := s.dropParked p
  let s := (s.coresOf p).foldl (fun s c => s.scrub c) s
  let g := (s.part p).grp.toNat
  let s := { s with
    groups := Vector.ofFn fun i : GroupNum =>
      if bits g 0 8 ≤ i.val ∧ i.val < bits g 0 8 + bits g 8 9 then Group.reset else vget s.groups i }
  let s := (s.clearAppraisers p).unstampPart p
  (s.setPart p { s.part p with state := .empty, written := [] }).raiseSource p 7

/-- RESET.PART (R406). -/
def execResetPart (s : State) : Host.Outcome State Fault Refusal :=
  s.partitionCommand .resetPart fun c s =>
    let p := c.target
    let at_ (s : State) (n : Nat) : State := s.setCmdQueue c.q { s.cmdQueue c.q with progress := n }
    let s := if (s.cmdQueue c.q).progress = 0 then at_ (s.beginReset p) 1 else s
    let u : State × Bool :=
      if (s.cmdQueue c.q).progress ≠ 1 then (s, true)
      else if s.waiting (commandWho c) then (s, false)
      else
        let u := whileDone (State.unpinTasks (commandWho c)) (s.coresOf p) s
        if u.2 then (at_ (u.1.tearDown p) 2, true) else u
    if !u.2 || u.1.requests.any (fun r => r.who == .drain p) then u.1 else (u.1.scrubPart p).commandDone c

end Sys2Proof.Machine
end

