-- ==== Sys2Proof/Machine/Registers.lean ====
section
/-! DEFINITION. The management blocks (R394-R397, R407, Table 14.1, Table 14.2, Table 14.9): what a host write of each
register does, and what a host read of it gives. -/

namespace Sys2Proof.Machine

/-! ### Command queue registers -/

/-- CQTAIL is written (R397). -/
def State.putTail (s : State) (q : CmdQ) (v : BitVec 32) : State :=
  (s.setCmdQueue q { s.cmdQueue q with tail := v }).requeue q

/-- CQHEAD is written (R397, R403): while STOPPED or ERROR, the queue runs again at top level from HEAD. -/
def State.putHead (s : State) (q : CmdQ) (v : BitVec 32) : State :=
  let x := s.cmdQueue q
  if x.state = .running then s else (s.setCmdQueue q { x with head := v, links := [] }).requeue q

/-- EN becomes 1 (R397, R403): a queue in ERROR runs again from the offending packet. -/
def State.runQueue (s : State) (q : CmdQ) : State :=
  let x := s.cmdQueue q
  if x.en then s
  else (s.setCmdQueue q { x with
    en := true
    state := if x.state = .error then .stopped else x.state
    cause := if x.state = .error then 0 else x.cause }).requeue q

/-- EN becomes 0: the queue stops after the command in progress (R397). -/
def State.stopQueue (s : State) (q : CmdQ) : State := (s.setCmdQueue q { s.cmdQueue q with en := false }).requeue q

/-- LSEL is written (R397). -/
def State.putLsel (s : State) (q : CmdQ) (v : Nat) : State :=
  s.setCmdQueue q { s.cmdQueue q with lsel := Fin.ofNat 4 v }

/-- CQTAIL_DOORBELL. -/
def execCqtailDoorbell (s : State) : Host.Outcome State Fault Refusal :=
  match s.arg with
  | .queueReg q v => .next (s.putTail q v)
  | _ => .next s

/-- CQHEAD_WRITE. -/
def execCqheadWrite (s : State) : Host.Outcome State Fault Refusal :=
  match s.arg with
  | .queueReg q v => .next (s.putHead q v)
  | _ => .next s

/-- COMMAND_QUEUE_RUN. -/
def execCommandQueueRun (s : State) : Host.Outcome State Fault Refusal :=
  match s.arg with
  | .queueReg q _ => .next (s.runQueue q)
  | _ => .next s

/-- COMMAND_QUEUE_STOP. -/
def execCommandQueueStop (s : State) : Host.Outcome State Fault Refusal :=
  match s.arg with
  | .queueReg q _ => .next (s.stopQueue q)
  | _ => .next s

/-- LSEL_WRITE. -/
def execLselWrite (s : State) : Host.Outcome State Fault Refusal :=
  match s.arg with
  | .queueReg q v => .next (s.putLsel q v.toNat)
  | _ => .next s

/-! ### Partition registers with behaviour -/

/-- FLCONS is written (R379): records are consumed, the fault interrupt is armed again, and records that wait have room. -/
def State.putFlcons (s : State) (p : PartNum) (v : BitVec 32) : State :=
  let x := s.part p
  let raise := x.flprod != v
  let s := s.setPart p { x with flcons := v, armed := !raise }
  (if raise then s.raiseSource p 5 else s).flushRecords p

/-- A 1 written to OVF clears it (R379). -/
def State.clearOvf (s : State) (p : PartNum) (v : Nat) : State :=
  if v.testBit 0 then s.setPart p { s.part p with ovf := false } else s

/-- ISTAT: write 1 to clear (R407). -/
def State.clearIstat (s : State) (p : PartNum) (v : Nat) : State :=
  s.setPart p { s.part p with istat := (s.part p).istat &&& ~~~(BitVec.ofNat 8 v) }

/-- LOSTARR is cleared by writing 0 (R352). -/
def State.clearLostarr (s : State) (p : PartNum) (v : Nat) : State :=
  if v % 2 ^ 32 = 0 then s.setPart p { s.part p with lostarr := 0 } else s

/-- FLCONS_WRITE. -/
def execFlconsWrite (s : State) : Host.Outcome State Fault Refusal :=
  match s.arg with
  | .part p v => .next (s.putFlcons p v)
  | _ => .next s

/-- OVF_CLEAR. -/
def execOvfClear (s : State) : Host.Outcome State Fault Refusal :=
  match s.arg with
  | .part p v => .next (s.clearOvf p v.toNat)
  | _ => .next s

/-- ISTAT_CLEAR. -/
def execIstatClear (s : State) : Host.Outcome State Fault Refusal :=
  match s.arg with
  | .part p v => .next (s.clearIstat p v.toNat)
  | _ => .next s

/-- LOSTARR_CLEAR. -/
def execLostarrClear (s : State) : Host.Outcome State Fault Refusal :=
  match s.arg with
  | .part p v => .next (s.clearLostarr p v.toNat)
  | _ => .next s

/-! ### Time registers -/

/-- STEPPED: write 1 to clear (R413). -/
def State.clearStepped (s : State) (v : Nat) : State := if v.testBit 2 then { s with stepped := false } else s

/-- PTPCFG is written; a value holding transport 3 is ignored as a whole (R413). -/
def State.putPtpcfg (s : State) (v : Word) : State :=
  if bits v.toNat 8 2 = 3 then s else { s with ptpcfg := v &&& 0x7FF#64 }

/-- STEPPED_CLEAR. -/
def execSteppedClear (s : State) : Host.Outcome State Fault Refusal :=
  match s.arg with
  | .reg v => .next (s.clearStepped v.toNat)
  | _ => .next s

/-- PTPCFG_WRITE. -/
def execPtpcfgWrite (s : State) : Host.Outcome State Fault Refusal :=
  match s.arg with
  | .reg v => .next (s.putPtpcfg v)
  | _ => .next s

/-! ### Registers with no behaviour of their own -/

/-- A write of trusted-only state is refused and counted (R394). -/
def Partition.refuse (x : Partition) : Partition :=
  { x with ignored := if x.ignored = 0xFFFFFFFF#32 then x.ignored else x.ignored + 1 }

/-- Whether an offset of a partition's block is partition isolation state (Table 14.1). -/
def trustedOnly (off : Nat) : Bool :=
  off == 0x08 || off == 0x10 || off == 0x18 || off == 0x20 || off == 0x28 || off == 0x30 || off == 0x38 || off == 0x40
    || off == 0x48

/-- A write of a command queue's register (Table 14.2). -/
def State.writeQueueReg (s : State) (q : CmdQ) (off : Nat) (v : Word) : State :=
  let x := s.cmdQueue q
  match off with
  | 0x00 => if x.state = .stopped ∧ v.toNat % 4096 = 0 then s.setCmdQueue q { x with base := v } else s
  | 0x08 =>
    let n := bits v.toNat 0 5
    if 4 ≤ n ∧ n ≤ 16 then s.setCmdQueue q { x with size := BitVec.ofNat 5 n } else s
  | 0x10 => s.putTail q (v.setWidth 32)
  | 0x18 => s.putHead q (v.setWidth 32)
  | 0x20 =>
    let s := s.putLsel q (bits v.toNat 2 2)
    if v.getLsbD 0 then s.runQueue q else s.stopQueue q
  | _ => s

/-- QOS as it is stored: a weight of 0 is stored as 1 (Table 14.1). -/
def qosOf (v : Nat) : Word :=
  let w (n : Nat) : Nat := if n = 0 then 1 else n
  BitVec.ofNat 64 (w (bits v 0 8) + 256 * w (bits v 8 8))

/-- A write of a partition's block (R394, Table 13.3, Table 14.1). A larger ring takes records that wait (R379). -/
def State.writePartReg (s : State) (p : PartNum) (off : Nat) (v : Word) : State :=
  let x := s.part p
  if trustedOnly off then s.setPart p x.refuse
  else match off with
    | 0x50 => s.setPart p { x with qos := qosOf v.toNat }
    | 0x58 => s.clearLostarr p v.toNat
    | 0x60 => s.clearIstat p v.toNat
    | 0x80 => if v.toNat % 4096 = 0 then s.setPart p { x with flbase := v } else s
    | 0x88 =>
      let n := bits v.toNat 0 5
      if 7 ≤ n ∧ n ≤ 20 then (s.setPart p { x with flsize := BitVec.ofNat 5 n }).flushRecords p else s
    | 0x98 => s.putFlcons p (v.setWidth 32)
    | 0xA0 => s.clearOvf p v.toNat
    | _ =>
      if 0x100 ≤ off ∧ off < 0x200 then
        s.writeQueueReg (.part p (Fin.ofNat 4 ((off - 0x100) / 0x40))) ((off - 0x100) % 0x40) v
      else s

/-- A write of the device block (R397, R413, Table 14.9). -/
def State.writeDeviceReg (s : State) (off : Nat) (v : Word) : State :=
  match off with
  | 0x40 => s.clearStepped v.toNat
  | 0x48 => s.putPtpcfg v
  | _ => if 0x100 ≤ off ∧ off < 0x140 then s.writeQueueReg .device (off - 0x100) v else s

/-- What an access of BAR0 reaches (R394): the device block, or the block of a partition, with the offset in it. Only
naturally aligned accesses of 8 bytes reach a register. -/
def barPlace (addr bytes : Nat) : Option (Option PartNum × Nat) :=
  if bytes ≠ 8 ∨ addr % 8 ≠ 0 ∨ 0x110000 ≤ addr then none
  else if addr < 0x10000 then some (none, addr)
  else some (some (Fin.ofNat 16 (addr / 0x10000 - 1)), addr % 0x10000)

/-- REGISTER_WRITE (R394): a host write through BAR0; one that reaches no register is ignored. -/
def execRegisterWrite (s : State) : Host.Outcome State Fault Refusal :=
  match s.arg with
  | .bar addr bytes v => .next (match barPlace addr bytes with
    | some (some p, off) => s.writePartReg p off v
    | some (none, off) => s.writeDeviceReg off v
    | none => s)
  | _ => .next s

/-! ### Reads -/

/-- The level that CQLINK and LREM report (Table 14.2). -/
def CmdQueue.level (x : CmdQueue) : Option LinkLevel := x.links.reverse[x.lsel.val]?

/-- The registers of a command queue as a host reads them (Table 14.2). -/
def CmdQueue.read (x : CmdQueue) (off : Nat) : Word :=
  match off with
  | 0x00 => x.base
  | 0x08 => x.size.setWidth 64
  | 0x10 => x.tail.setWidth 64
  | 0x18 => x.head.setWidth 64
  | 0x20 =>
    let rem := match x.level with
      | some l => l.rem
      | none => 0
    BitVec.ofNat 64 (x.en.toNat + 4 * x.lsel.val + 65536 * rem)
  | 0x28 =>
    let st : Nat := match x.state with
      | .stopped => 0
      | .running => 1
      | .error => 2
    BitVec.ofNat 64 (st + 16 * x.cause.toNat + 256 * x.aborted.toNat + 512 * x.links.length)
  | 0x30 => x.errAddr
  | 0x38 => match x.level with
    | some l => l.addr
    | none => 0
  | _ => 0

/-- STATE of PSTATE (Table 14.1). -/
def PState.code : PState → Nat
  | .empty => 0
  | .running => 1
  | .stopped => 2
  | .resetting => 3

/-- The registers of a partition's block as a host reads them (Table 14.1, Table 13.3). -/
def Partition.read (x : Partition) (off : Nat) : Word :=
  match off with
  | 0x00 => BitVec.ofNat 64 x.state.code
  | 0x08 => x.clmask
  | 0x10 => vget x.mwin 0
  | 0x18 => vget x.mwin 1
  | 0x20 => vget x.mwin 2
  | 0x28 => vget x.mwin 3
  | 0x30 => x.cwin
  | 0x38 => x.grp
  | 0x40 => x.rslot
  | 0x48 => x.msix
  | 0x50 => x.qos
  | 0x58 => x.lostarr.setWidth 64
  | 0x60 => x.istat.setWidth 64
  | 0x68 => x.ignored.setWidth 64
  | 0x80 => x.flbase
  | 0x88 => x.flsize.setWidth 64
  | 0x90 => x.flprod.setWidth 64
  | 0x98 => x.flcons.setWidth 64
  | 0xA0 => BitVec.ofNat 64 (x.ovf.toNat + 2 * x.armed.toNat)
  | _ =>
    if 0x100 ≤ off ∧ off < 0x200 then
      (vget x.queues (Fin.ofNat 4 ((off - 0x100) / 0x40))).read ((off - 0x100) % 0x40)
    else 0

/-- The registers of the device block as a host reads them (Table 14.9, Table 14.6, R397). -/
def State.readDeviceReg (s : State) (off : Nat) : Word :=
  match off with
  | 0x40 => BitVec.ofNat 64 (s.holdover.toNat + 2 * s.locked.toNat + 4 * s.stepped.toNat)
  | 0x48 => s.ptpcfg
  | 0x50 => s.toffset
  | _ =>
    if 0x100 ≤ off ∧ off < 0x140 then s.devq.read (off - 0x100)
    else match s.sensors.find? fun x => x.1.toNat == off with
      | some x => x.2
      | none => 0

/-- What a host read through BAR0 gives (R394); one that reaches no register reads 0. -/
def State.readBar (s : State) (addr bytes : Nat) : Word :=
  match barPlace addr bytes with
  | some (some p, off) => (s.part p).read off
  | some (none, off) => s.readDeviceReg off
  | none => 0

end Sys2Proof.Machine
end

