-- ==== Sys2Proof/Machine/Dispatch.lean ====
section
/-! DEFINITION. One arm per instruction: its meaning, or its name where it has none yet. -/

namespace Sys2Proof.Machine

/-- The meaning of each instruction. -/
def exec (i : Instr) (s : State) : Host.Outcome State Fault Refusal :=
  match i with
  | .add d a b => Sys2Proof.Machine.execAdd d a b s
  | .sub d a b => Sys2Proof.Machine.execSub d a b s
  | .mul d a b => Sys2Proof.Machine.execMul d a b s
  | .mulh d a b => Sys2Proof.Machine.execMulh d a b s
  | .mulhn d a b => Sys2Proof.Machine.execMulhn d a b s
  | .div d a b => Sys2Proof.Machine.execDiv d a b s
  | .divn d a b => Sys2Proof.Machine.execDivn d a b s
  | .rem d a b => Sys2Proof.Machine.execRem d a b s
  | .remn d a b => Sys2Proof.Machine.execRemn d a b s
  | .and d a b => Sys2Proof.Machine.execAnd d a b s
  | .or d a b => Sys2Proof.Machine.execOr d a b s
  | .xor d a b => Sys2Proof.Machine.execXor d a b s
  | .andn d a b => Sys2Proof.Machine.execAndn d a b s
  | .shl d a b => Sys2Proof.Machine.execShl d a b s
  | .shr d a b => Sys2Proof.Machine.execShr d a b s
  | .sra d a b => Sys2Proof.Machine.execSra d a b s
  | .rotl d a b => Sys2Proof.Machine.execRotl d a b s
  | .min d a b => Sys2Proof.Machine.execMin d a b s
  | .max d a b => Sys2Proof.Machine.execMax d a b s
  | .minn d a b => Sys2Proof.Machine.execMinn d a b s
  | .maxn d a b => Sys2Proof.Machine.execMaxn d a b s
  | .slt d a b => Sys2Proof.Machine.execSlt d a b s
  | .sltn d a b => Sys2Proof.Machine.execSltn d a b s
  | .seq d a b => Sys2Proof.Machine.execSeq d a b s
  | .clz d a => Sys2Proof.Machine.execClz d a s
  | .ctz d a => Sys2Proof.Machine.execCtz d a s
  | .popc d a => Sys2Proof.Machine.execPopc d a s
  | .sel d c a b => Sys2Proof.Machine.execSel d c a b s
  | .addi d a imm => Sys2Proof.Machine.execAddi d a imm s
  | .andi d a imm => Sys2Proof.Machine.execAndi d a imm s
  | .ori d a imm => Sys2Proof.Machine.execOri d a imm s
  | .xori d a imm => Sys2Proof.Machine.execXori d a imm s
  | .shli d a sh => Sys2Proof.Machine.execShli d a sh s
  | .shri d a sh => Sys2Proof.Machine.execShri d a sh s
  | .srai d a sh => Sys2Proof.Machine.execSrai d a sh s
  | .slti d a imm => Sys2Proof.Machine.execSlti d a imm s
  | .lil d imm => Sys2Proof.Machine.execLil d imm s
  | .lih d imm => Sys2Proof.Machine.execLih d imm s
  | .exts d a pos w => Sys2Proof.Machine.execExts d a pos w s
  | .extz d a pos w => Sys2Proof.Machine.execExtz d a pos w s
  | .insf d a pos w => Sys2Proof.Machine.execInsf d a pos w s
  | .b off => Sys2Proof.Machine.execB off s
  | .bl off => Sys2Proof.Machine.execBl off s
  | .beq a b off => Sys2Proof.Machine.execBeq a b off s
  | .bne a b off => Sys2Proof.Machine.execBne a b off s
  | .blt a b off => Sys2Proof.Machine.execBlt a b off s
  | .bge a b off => Sys2Proof.Machine.execBge a b off s
  | .bltn a b off => Sys2Proof.Machine.execBltn a b off s
  | .bgen a b off => Sys2Proof.Machine.execBgen a b off s
  | .bz a off => Sys2Proof.Machine.execBz a off s
  | .bnz a off => Sys2Proof.Machine.execBnz a off s
  | .br a => Sys2Proof.Machine.execBr a s
  | .blr a => Sys2Proof.Machine.execBlr a s
  | .ldB d a imm => Sys2Proof.Machine.execLdB d a imm s
  | .ldBn d a imm => Sys2Proof.Machine.execLdBn d a imm s
  | .ldH d a imm => Sys2Proof.Machine.execLdH d a imm s
  | .ldHn d a imm => Sys2Proof.Machine.execLdHn d a imm s
  | .ldW d a imm => Sys2Proof.Machine.execLdW d a imm s
  | .ldWn d a imm => Sys2Proof.Machine.execLdWn d a imm s
  | .ldD d a imm => Sys2Proof.Machine.execLdD d a imm s
  | .stB a b imm => Sys2Proof.Machine.execStB a b imm s
  | .stH a b imm => Sys2Proof.Machine.execStH a b imm s
  | .stW a b imm => Sys2Proof.Machine.execStW a b imm s
  | .stD a b imm => Sys2Proof.Machine.execStD a b imm s
  | .stloc a b imm => Sys2Proof.Machine.execStloc a b imm s
  | .ldx d a b z nat sc => Sys2Proof.Machine.execLdx d a b z nat sc s
  | .stx d a b z sc => Sys2Proof.Machine.execStx d a b z sc s
  | .ldt d a b z nat => Sys2Proof.Machine.execLdt d a b z nat s
  | .stt d a b z => Sys2Proof.Machine.execStt d a b z s
  | .amo d a b op z sc => Sys2Proof.Machine.execAmo d a b op z sc s
  | .amoi a b op z sc => Sys2Proof.Machine.execAmoi a b op z sc s
  | .cas d a b z sc => Sys2Proof.Machine.execCas d a b z sc s
  | .famo d a b op rm z sc reord => Sys2Proof.Machine.execFamo d a b op rm z sc reord s
  | .nop => Sys2Proof.Machine.execNop s
  | .fence sc => Sys2Proof.Machine.execFence sc s
  | .tfence sc => Sys2Proof.Machine.execTfence sc s
  | .waita d a b c => Sys2Proof.Machine.execWaita d a b c s
  | .notify a b => Sys2Proof.Machine.execNotify a b s
  | .trap => Sys2Proof.Machine.execTrap s
  | .eret => Sys2Proof.Machine.execEret s
  | .brk => Sys2Proof.Machine.execBrk s
  | .yield => Sys2Proof.Machine.execYield s
  | .done => Sys2Proof.Machine.execDone s
  | .time d => Sys2Proof.Machine.execTime d s
  | .tcoord d => Sys2Proof.Machine.execTcoord d s
  | .sysr d r => Sys2Proof.Machine.execSysr d r s
  | .sysw d r => Sys2Proof.Machine.execSysw d r s
  | .tset w a => Sys2Proof.Machine.execTset w a s
  | .treg n a b => Sys2Proof.Machine.execTreg n a b s
  | .tclr => Sys2Proof.Machine.execTclr s
  | .post d => Sys2Proof.Machine.execPost d s
  | .trypost d => Sys2Proof.Machine.execTrypost d s
  | .postl d a b => Sys2Proof.Machine.execPostl d a b s
  | .postr d a b => Sys2Proof.Machine.execPostr d a b s
  | .join mask => Sys2Proof.Machine.execJoin mask s
  | .gnew d => Sys2Proof.Machine.execGnew d s
  | .gok a => Sys2Proof.Machine.execGok a s
  | .gno a => Sys2Proof.Machine.execGno a s
  | .setb n a => Sys2Proof.Machine.execSetb n a s
  | .getb d n => Sys2Proof.Machine.execGetb d n s
  | .tseti w imm => Sys2Proof.Machine.execTseti w imm s
  | .armc n a => Sys2Proof.Machine.execArmc n a s
  | .armcInit n a => Sys2Proof.Machine.execArmcInit n a s
  | .arrc n a => Sys2Proof.Machine.execArrc n a s
  | .waitc n p => Sys2Proof.Machine.execWaitc n p s
  | .readc d n => Sys2Proof.Machine.execReadc d n s
  | .gbar g => Sys2Proof.Machine.execGbar g s
  | .grank d g => Sys2Proof.Machine.execGrank d g s
  | .gsize d g => Sys2Proof.Machine.execGsize d g s
  | .prio c => Sys2Proof.Machine.execPrio c s
  | .cash d a b => Sys2Proof.Machine.execCash d a b s
  | .refeq d a b => Sys2Proof.Machine.execRefeq d a b s
  | .mkref d a => Sys2Proof.Machine.execMkref d a s
  | .pin d a => Sys2Proof.Machine.execPin d a s
  | .unpin a => Sys2Proof.Machine.execUnpin a s
  | .ldref d a imm => Sys2Proof.Machine.execLdref d a imm s
  | .stref a b imm => Sys2Proof.Machine.execStref a b imm s
  | .ldh d a imm => Sys2Proof.Machine.execLdh d a imm s
  | .sth a b imm => Sys2Proof.Machine.execSth a b imm s
  | .qopen n a => Sys2Proof.Machine.execQopen n a s
  | .qclose n => Sys2Proof.Machine.execQclose n s
  | .qstat d n => Sys2Proof.Machine.execQstat d n s
  | .imx payload => Sys2Proof.Machine.execImx payload s
  | .loadReply u seq v => Sys2Proof.Machine.execLoadReply u seq v s
  | .storePerformed u => Sys2Proof.Machine.execStorePerformed u s
  | .delayedFault u h gen cause va => Sys2Proof.Machine.execDelayedFault u h gen cause va s
  | .waitaReply u seq evicted => Sys2Proof.Machine.execWaitaReply u seq evicted s
  | .turnExpiry core => Sys2Proof.Machine.execTurnExpiry core s
  | .parkedPostResume core => Sys2Proof.Machine.execParkedPostResume core s
  | .heldPacketAccept core => Sys2Proof.Machine.execHeldPacketAccept core s
  | .postrReply u seq reply => Sys2Proof.Machine.execPostrReply u seq reply s
  | .qcloseCompletion u q => Sys2Proof.Machine.execQcloseCompletion u q s
  | .vadd f => Sys2Proof.Machine.execVadd f s
  | .vsub f => Sys2Proof.Machine.execVsub f s
  | .vmul f => Sys2Proof.Machine.execVmul f s
  | .vfma f => Sys2Proof.Machine.execVfma f s
  | .vfms f => Sys2Proof.Machine.execVfms f s
  | .vfnma f => Sys2Proof.Machine.execVfnma f s
  | .vfnms f => Sys2Proof.Machine.execVfnms f s
  | .vdiv f => Sys2Proof.Machine.execVdiv f s
  | .vsqrt f => Sys2Proof.Machine.execVsqrt f s
  | .vrcp f => Sys2Proof.Machine.execVrcp f s
  | .vrsq f => Sys2Proof.Machine.execVrsq f s
  | .vmin f => Sys2Proof.Machine.execVmin f s
  | .vmax f => Sys2Proof.Machine.execVmax f s
  | .vminm f => Sys2Proof.Machine.execVminm f s
  | .vmaxm f => Sys2Proof.Machine.execVmaxm f s
  | .vabs f => Sys2Proof.Machine.execVabs f s
  | .vneg f => Sys2Proof.Machine.execVneg f s
  | .vcps f => Sys2Proof.Machine.execVcps f s
  | .vscl f => Sys2Proof.Machine.execVscl f s
  | .vrnd f => Sys2Proof.Machine.execVrnd f s
  | .vcls f => Sys2Proof.Machine.execVcls f s
  | .vcmp f => Sys2Proof.Machine.execVcmp f s
  | .vexp f => Sys2Proof.Machine.execVexp f s
  | .vexp2 f => Sys2Proof.Machine.execVexp2 f s
  | .vlog f => Sys2Proof.Machine.execVlog f s
  | .vlog2 f => Sys2Proof.Machine.execVlog2 f s
  | .vsin f => Sys2Proof.Machine.execVsin f s
  | .vcos f => Sys2Proof.Machine.execVcos f s
  | .vtanh f => Sys2Proof.Machine.execVtanh f s
  | .vsigm f => Sys2Proof.Machine.execVsigm f s
  | .verf f => Sys2Proof.Machine.execVerf f s
  | .viadd f => Sys2Proof.Machine.execViadd f s
  | .visub f => Sys2Proof.Machine.execVisub f s
  | .vimul f => Sys2Proof.Machine.execVimul f s
  | .vimulh f => Sys2Proof.Machine.execVimulh f s
  | .vimad f => Sys2Proof.Machine.execVimad f s
  | .vimin f => Sys2Proof.Machine.execVimin f s
  | .vimax f => Sys2Proof.Machine.execVimax f s
  | .viabs f => Sys2Proof.Machine.execViabs f s
  | .vshl f => Sys2Proof.Machine.execVshl f s
  | .vshr f => Sys2Proof.Machine.execVshr f s
  | .vsra f => Sys2Proof.Machine.execVsra f s
  | .vand f => Sys2Proof.Machine.execVand f s
  | .vor f => Sys2Proof.Machine.execVor f s
  | .vxor f => Sys2Proof.Machine.execVxor f s
  | .vnot f => Sys2Proof.Machine.execVnot f s
  | .vmov f => Sys2Proof.Machine.execVmov f s
  | .vbcast f => Sys2Proof.Machine.execVbcast f s
  | .vld f => Sys2Proof.Machine.execVld f s
  | .vst f => Sys2Proof.Machine.execVst f s
  | .vldl f => Sys2Proof.Machine.execVldl f s
  | .vstl f => Sys2Proof.Machine.execVstl f s
  | .vgath f => Sys2Proof.Machine.execVgath f s
  | .vscat f => Sys2Proof.Machine.execVscat f s
  | .vtrn f => Sys2Proof.Machine.execVtrn f s
  | .vredr f => Sys2Proof.Machine.execVredr f s
  | .vredc f => Sys2Proof.Machine.execVredc f s
  | .vscan f => Sys2Proof.Machine.execVscan f s
  | .vcvt f => Sys2Proof.Machine.execVcvt f s
  | .vpack f => Sys2Proof.Machine.execVpack f s
  | .vunpk f => Sys2Proof.Machine.execVunpk f s
  | .vqnt f => Sys2Proof.Machine.execVqnt f s
  | .vsel f => Sys2Proof.Machine.execVsel f s
  | .pand f => Sys2Proof.Machine.execPand f s
  | .por f => Sys2Proof.Machine.execPor f s
  | .pxor f => Sys2Proof.Machine.execPxor f s
  | .pnot f => Sys2Proof.Machine.execPnot f s
  | .pset f => Sys2Proof.Machine.execPset f s
  | .vshape f => Sys2Proof.Machine.execVshape f s
  | .loop f => Sys2Proof.Machine.execLoop f s
  | .loopIterationEnd core => Sys2Proof.Machine.execLoopIterationEnd core s
  | .rot f => Sys2Proof.Machine.execRot f s
  | .vsets f => Sys2Proof.Machine.execVsets f s
  | .vdone f => Sys2Proof.Machine.execVdone f s
  | .mma r => Sys2Proof.Machine.execMma r s
  | .dmma r => Sys2Proof.Machine.execDmma r s
  | .mzero r => Sys2Proof.Machine.execMzero r s
  | .mldc r => Sys2Proof.Machine.execMldc r s
  | .mdrain r => Sys2Proof.Machine.execMdrain r s
  | .trn r => Sys2Proof.Machine.execTrn r s
  | .cpy r => Sys2Proof.Machine.execCpy r s
  | .cpyx r => Sys2Proof.Machine.execCpyx r s
  | .ring r => Sys2Proof.Machine.execRing r s
  | .mcast r => Sys2Proof.Machine.execMcast r s
  | .fill r => Sys2Proof.Machine.execFill r s
  | .cpya r => Sys2Proof.Machine.execCpya r s
  | .cpyq r => Sys2Proof.Machine.execCpyq r s
  | .ldbnd r => Sys2Proof.Machine.execLdbnd r s
  | .scanref r => Sys2Proof.Machine.execScanref r s
  | .reloc r => Sys2Proof.Machine.execReloc r s
  | .relocSettle core => Sys2Proof.Machine.execRelocSettle core s
  | .gangStart core => Sys2Proof.Machine.execGangStart core s
  | .ringStart core => Sys2Proof.Machine.execRingStart core s
  | .taskRelease core k => Sys2Proof.Machine.execTaskRelease core k s
  | .taskCompletion core h => Sys2Proof.Machine.execTaskCompletion core h s
  | .homingCopy core e => Sys2Proof.Machine.execHomingCopy core e s
  | .renameRetire core e => Sys2Proof.Machine.execRenameRetire core e s
  | .primingCopy core e => Sys2Proof.Machine.execPrimingCopy core e s
  | .taskAging core h => Sys2Proof.Machine.execTaskAging core h s
  | .taskStarvation core h => Sys2Proof.Machine.execTaskStarvation core h s
  | .timerWheelTick => Sys2Proof.Machine.execTimerWheelTick s
  | .homeAccess r => Sys2Proof.Machine.execHomeAccess r s
  | .reductionDeadline sc => Sys2Proof.Machine.execReductionDeadline sc s
  | .illegalInstruction w reserved => Sys2Proof.Machine.execIllegalInstruction w reserved s
  | .faultRecordWrite => Sys2Proof.Machine.execFaultRecordWrite s
  | .signalPacket => Sys2Proof.Machine.execSignalPacket s
  | .postPacket => Sys2Proof.Machine.execPostPacket s
  | .fabricRead => Sys2Proof.Machine.execFabricRead s
  | .fabricWrite => Sys2Proof.Machine.execFabricWrite s
  | .fabricAtomic => Sys2Proof.Machine.execFabricAtomic s
  | .errorCompletion => Sys2Proof.Machine.execErrorCompletion s
  | .planeDown => Sys2Proof.Machine.execPlaneDown s
  | .planeUp => Sys2Proof.Machine.execPlaneUp s
  | .fenceMarker => Sys2Proof.Machine.execFenceMarker s
  | .fenceMarkerAnswer => Sys2Proof.Machine.execFenceMarkerAnswer s
  | .queuePermit => Sys2Proof.Machine.execQueuePermit s
  | .queueFill => Sys2Proof.Machine.execQueueFill s
  | .queueFillLine => Sys2Proof.Machine.execQueueFillLine s
  | .queueClose => Sys2Proof.Machine.execQueueClose s
  | .queueBreak => Sys2Proof.Machine.execQueueBreak s
  | .queueSuspend => Sys2Proof.Machine.execQueueSuspend s
  | .queueResume => Sys2Proof.Machine.execQueueResume s
  | .tileWalkSend => Sys2Proof.Machine.execTileWalkSend s
  | .tileWalkSlotAnswered => Sys2Proof.Machine.execTileWalkSlotAnswered s
  | .reductionAllocate => Sys2Proof.Machine.execReductionAllocate s
  | .reductionContribute => Sys2Proof.Machine.execReductionContribute s
  | .appraiserConfiguration => Sys2Proof.Machine.execAppraiserConfiguration s
  | .appraiserWeightWrite => Sys2Proof.Machine.execAppraiserWeightWrite s
  | .routeLineWrite => Sys2Proof.Machine.execRouteLineWrite s
  | .coreFailure => Sys2Proof.Machine.execCoreFailure s
  | .linePoison => Sys2Proof.Machine.execLinePoison s
  | .hostWrite => Sys2Proof.Machine.execHostWrite s
  | .hostRead => Sys2Proof.Machine.execHostRead s
  | .restore => Sys2Proof.Machine.execRestore s
  | .save => Sys2Proof.Machine.execSave s
  | .quiesce => Sys2Proof.Machine.execQuiesce s
  | .resetPart => Sys2Proof.Machine.execResetPart s
  | .signal => Sys2Proof.Machine.execSignal s
  | .write => Sys2Proof.Machine.execWrite s
  | .fenceCommand => Sys2Proof.Machine.execFenceCommand s
  | .link => Sys2Proof.Machine.execLink s
  | .replay => Sys2Proof.Machine.execReplay s
  | .timebase => Sys2Proof.Machine.execTimebase s
  | .tagload => Sys2Proof.Machine.execTagload s
  | .partcfg => Sys2Proof.Machine.execPartcfg s
  | .cqtailDoorbell => Sys2Proof.Machine.execCqtailDoorbell s
  | .cqheadWrite => Sys2Proof.Machine.execCqheadWrite s
  | .commandQueueRun => Sys2Proof.Machine.execCommandQueueRun s
  | .commandQueueStop => Sys2Proof.Machine.execCommandQueueStop s
  | .lselWrite => Sys2Proof.Machine.execLselWrite s
  | .flconsWrite => Sys2Proof.Machine.execFlconsWrite s
  | .ovfClear => Sys2Proof.Machine.execOvfClear s
  | .istatClear => Sys2Proof.Machine.execIstatClear s
  | .lostarrClear => Sys2Proof.Machine.execLostarrClear s
  | .steppedClear => Sys2Proof.Machine.execSteppedClear s
  | .ptpcfgWrite => Sys2Proof.Machine.execPtpcfgWrite s
  | .registerWrite => Sys2Proof.Machine.execRegisterWrite s
  | .leaseRenewal => Sys2Proof.Machine.execLeaseRenewal s
  | .leaderStop => Sys2Proof.Machine.execLeaderStop s
  | .leaseTakeover => Sys2Proof.Machine.execLeaseTakeover s
  | .powerUp => Sys2Proof.Machine.execPowerUp s
  | .clockStepChange => Sys2Proof.Machine.execClockStepChange s
  | .sensorUpdate => Sys2Proof.Machine.execSensorUpdate s
  | .ptpSync => Sys2Proof.Machine.execPtpSync s
  | .ptpMasterLoss => Sys2Proof.Machine.execPtpMasterLoss s
  | .getMeasurements => Sys2Proof.Machine.execGetMeasurements s
  | .getCertificate => Sys2Proof.Machine.execGetCertificate s
  | .challenge => Sys2Proof.Machine.execChallenge s
  | .keeperFailure => Sys2Proof.Machine.execKeeperFailure s
  | .correctedSoftError => Sys2Proof.Machine.execCorrectedSoftError s

end Sys2Proof.Machine
end

