-- ==== Sys2Proof/Machine/Step.lean ====
section
/-! DEFINITION. One step of the machine: the next step is picked (log 1); a unit's step fetches and decodes its
instruction, an event's operands are set; the instruction has its meaning; the step is counted. -/

namespace Sys2Proof.Machine

/-- The instruction of a picked act, and the state in which it executes. Work of a partition that is being saved stands
at its boundary, its fault reports stay on their way (R126), and lines for a STOPPED partition are held (R389). -/
def State.instrOf (s : State) (a : Act) : State × Option Instr :=
  if s.halted a then (s, none)
  else if s.keepsFault a then ({ s with agenda := s.agenda ++ [a] }, none)
  else if s.holdsLine a then ({ s with heldLines := s.heldLines ++ [a] }, none)
  else match a with
    | .event i arg => ({ s with arg := arg }, some i)
    | .unit (.docent c) => s.nextDocent c
    | .unit (.vector c) => s.nextVector c
    | .unit (.matrix c) => s.nextRecord c .matrix
    | .unit (.transpose c) => s.nextRecord c .transpose
    | .unit (.copy c) => s.nextRecord c .copy
    | .unit (.cmdq q) => s.nextCommand q

/-- What follows every step: it is counted, and what waited for room at a walker or behind a write goes on (R380). -/
def State.afterStep (s : State) (a : Act) : State := (s.tally a).wakeWaiting

/-- One step. -/
def step (s : State) : Host.Outcome State Fault Refusal :=
  if s.deviceFailed then .fault .deviceFailed
  else
    let p := s.pick
    let n := p.1.instrOf p.2
    match n.2 with
    | none => .next (n.1.afterStep p.2)
    | some i =>
      match exec i n.1 with
      | .next t => .next (t.afterStep p.2)
      | .fault f => .fault f
      | .refused r => .refused r

/-! ### Placing an instruction (log 2) -/

/-- The address at which `withFetchWord` stores an instruction: the start of the commons of die 0 of this device. -/
def State.fetchPlace (s : State) : Word := BitVec.ofNat 64 (s.devId.toNat * 2 ^ 47 + 0x1FFFFC000000)

/-- Bytes as a plain line of memory. -/
def State.placeLine (s : State) (k : Nat) (d : List Byte) : State :=
  let mem := s.mem.write k d
  { s with mem := mem, tags := s.tags.set (k / 64) (makeTag 0 0 0 (mem.read (k / 64 * 64) 64)) }

/-- The given unit's act goes next. -/
def State.goesNext (s : State) (u : UnitId) : State := { s with agenda := .unit u :: s.agenda, schedule := [1] }

/-- Partition 0 runs with cluster 0 and commons bank 0 of each die. -/
def State.hostsProgram (s : State) : State :=
  let p := s.part 0
  { s.setPart 0 { p with state := .running, clmask := p.clmask ||| 1, cwin := 0x40, command := none } with
    focus := 0, schedule := [0], deviceFailed := false }

/-- A docent word at the next fetch of context K0 of core 0. -/
def State.placeDocent (s : State) (d : List Byte) : State :=
  let k := s.core 0
  let x := vget k.ctxs 0
  (s.setCore 0 { k with cur := 0, ctxs := vset k.ctxs 0 { x with pc := s.fetchPlace, state := .running } }).placeLine
    (commonsKey 0 0) d

/-- A kernel of one word that the vector engine of core 0 has loaded, for a running task. -/
def State.placeKernel (s : State) (d : List Byte) : State :=
  let k := s.core 0
  let image := (Entry.free.image.set 19 s.fetchPlace).set 20 1
  let s := s.setCore 0 { k with
    entries := vset k.entries 0 { Entry.free with state := .running, image := image.set 0 1 }
    vec := { k.vec with task := some 0, kernel := [wordOf d], next := 0, waiting := false
                        loops := VectorUnit.reset.loops } }
  (s.placeLine (commonsKey 0 0) d).goesNext (.vector 0)

/-- A record that an engine of core 0 has taken, as a running task. -/
def State.placeRecord (s : State) (w : Nat) : State :=
  let k := s.core 0
  let kind : Nat := match bits w 60 4 with
    | 1 => 2
    | 2 => 3
    | _ => 4
  let image : Vector Word 32 := Vector.ofFn fun i : Fin 32 =>
    if i.val = 0 then BitVec.ofNat 64 kind
    else if 19 ≤ i.val ∧ i.val ≤ 26 then BitVec.ofNat 64 (w >>> (64 * (i.val - 19))) else 0
  let job : Engine := { Engine.reset with job := .task 0 }
  let s := s.setCore 0 { k with entries := vset k.entries 0 { Entry.free with state := .running, image := image } }
  match kind with
  | 2 => (s.setEngine 0 .matrix job).goesNext (.matrix 0)
  | 3 => (s.setEngine 0 .transpose job).goesNext (.transpose 0)
  | _ => (s.setEngine 0 .copy job).goesNext (.copy 0)

/-- A packet that the device queue executes next, for a leader that acts. -/
def State.placeCommand (s : State) (d : List Byte) : State :=
  let q := s.devq
  let s := { s with
    devq := { CmdQueue.reset with base := 0, tail := 1, en := true, lsel := q.lsel, state := .running }
    lease := { s.lease with die := 0, valid := true }
    keepers := vset s.keepers 0 { vget s.keepers 0 with
      alive := true, trusted := true, untrusted := true, stopped := false, renewed := s.time.toNat } }
  (s.placeLine (devKey 0 0) d).goesNext (.cmdq .device)

/-- `s` with an instruction stored where `step` fetches next: a docent word for context K0 of core 0, a kernel word for
its vector engine, a record for the engine of its kind, or a command packet in the device queue. Partition 0 runs on
cluster 0 (log 2). -/
def State.withFetchWord (s : State) (nbits w : Nat) : State :=
  let d := bytesOf (nbits / 8) w
  let s := s.hostsProgram
  if nbits ≤ 32 then s.placeDocent d
  else if nbits ≤ 64 then s.placeKernel d
  else if nbits ≤ 128 then s.placeCommand d
  else s.placeRecord w

end Sys2Proof.Machine
end

