-- ==== Sys2Proof/Safety.lean ====
section
/-! DEFINITION. The terms in which claims are stated: what a safe run is (the memories stay in canonical form, so that
equal memories are equal data, and no step stops); how a docent instruction goes on, writes a register, traps or waits;
and the tables of the manual that a claim ranges over. -/

namespace Sys2Proof

/-! ### Safe runs -/

/-- The byte memory and the line tags are in canonical form. -/
def Machine.State.Canonical (s : Machine.State) : Prop := s.mem.wf ∧ s.tags.wf

/-- A step that goes on. -/
def Machine.State.Goes (s : Machine.State) : Prop := ∃ t, Machine.step s = .next t

/-! ### A docent instruction -/

/-- The context that a docent instruction acts for. -/
abbrev Machine.State.acting (s : Machine.State) : Machine.Context := s.ctx s.me

/-- An instruction that names these registers stalls on the context's outstanding load (R121). -/
def Machine.Context.Awaits (x : Machine.Context) (regs : List XReg) : Prop := ∃ l, x.load = some l ∧ l.dest ∈ regs

/-- The acting context becomes another, and nothing else changes. -/
def Machine.State.becomes (s : Machine.State) (x : Machine.Context) : Machine.State := s.setCtx s.me x

/-- The acting context goes on at the next word, and nothing else changes. -/
def Machine.State.onward (s : Machine.State) : Machine.State := s.becomes { s.acting with pc := s.acting.pc + 4 }

/-- Xd := v, and the acting context goes on at the next word; nothing else changes. A write of X0 is discarded (R11). -/
def Machine.State.puts (s : Machine.State) (d : XReg) (v : Word) : Machine.State :=
  s.becomes { s.acting.setX d v with pc := s.acting.pc + 4 }

/-- The acting context traps with EPC at its instruction (R112, R384). -/
def Machine.State.traps (s : Machine.State) (cause : BitVec 8) (eval : Word) : Machine.State :=
  s.takeTrap s.me cause eval s.acting.pc

/-- The acting context's reference instruction has written the copies at hand: the context is held until the other copies
are written, and then writes the H register named, if any, and goes on (R168, R378). -/
def Machine.State.holdsRef (s : Machine.State) (i : Machine.Issue) (h : Option (HReg × Word)) : Machine.State :=
  let t := s.becomes { s.acting with midRef := false }
  (t.becomes { t.acting with midRef := true }).parkCtx s.me (.parts i.first i.next h)

/-! ### Accesses of a docent instruction

Each says what one instruction does, `run` being its outcome and `i` the words it stands in, for its unprefixed form and for
the pair with IMX alike. -/

/-- A load (R118, R121, R123): it stalls on an outstanding load, and on an unfinished fence of an atomic (R135; logs 64 and
66); a failing check of Table 4.5 traps; else the load is outstanding with its address, size and extension, and is due at its
home. -/
def Machine.State.IssuesLoad (s : Machine.State) (run : Host.Outcome Machine.State Machine.Fault Machine.Refusal)
    (i : Machine.Issue) (d : XReg) (va : Word) (z : Size) (nat : Bool) : Prop :=
  (s.acting.load ≠ none ∨ s.fenced s.me = true → run = .next s) ∧
  (s.acting.load = none → s.fenced s.me = false →
    (∀ c, s.accessFault s.me .any va z.bytes false = some c → run = .next (s.takeTrap s.me c va i.first)) ∧
    (s.accessFault s.me .any va z.bytes false = none → run = .next ((s.becomes { s.acting with
      load := some ⟨d, va, z, nat, .load, s.acting.seq, s.acting.level, .core, s.acting.stores.length, false⟩
      seq := s.acting.seq + 1
      pc := i.next }).event (.homeAccess (.load s.me s.acting.seq)))))

/-- A store, or STLOC, of a register's value (R118, R122, R129): it stalls on a load of a register it names, while the queue
of 16 is full, and on an unfinished fence of an atomic (R135; logs 64 and 66); a failing check of Table 4.5 traps; else the
store joins the queue, and a device that it goes to is one that the context has written. -/
def Machine.State.IssuesStore (s : Machine.State) (run : Host.Outcome Machine.State Machine.Fault Machine.Refusal)
    (i : Machine.Issue) (regs : List XReg) (va data : Word) (z : Size) (loc : Bool) : Prop :=
  let acc : Machine.Accepts := if loc then .stloc else .any
  let w : Machine.StoreReq :=
    ⟨va, z, data, none, loc, .core, s.acting.level, s.acting.task, s.acting.gen, none, false, none⟩
  (16 ≤ s.acting.stores.length ∨ s.fenced s.me = true ∨ s.acting.Awaits regs → run = .next s) ∧
  (¬ s.acting.Awaits regs → s.fenced s.me = false → s.acting.stores.length < 16 →
    (∀ c, s.accessFault s.me acc va z.bytes false = some c → run = .next (s.takeTrap s.me c va i.first)) ∧
    (s.accessFault s.me acc va z.bytes false = none → (∀ dev, s.target va ≠ .remote dev) →
      run = .next ((s.becomes { s.acting with stores := s.acting.stores ++ [w], pc := i.next }).once
        (.event (.storePerformed s.me) .none))) ∧
    (∀ dev, s.accessFault s.me acc va z.bytes false = none → s.target va = .remote dev → ∃ t : Machine.State,
      run = .next t ∧ dev ∈ (t.ctx s.me).written ∧ (t.ctx s.me).stores = s.acting.stores ++ [w]))

/-- LDREF at an address (R168, R170, R378): an unsettled context waits; a failing check of Table 4.5 traps; a word without its
REFB bit traps with cause 0x06; else the H register takes the present form, healed where it differs. -/
def Machine.State.LoadsReference (s : Machine.State) (run : Host.Outcome Machine.State Machine.Fault Machine.Refusal)
    (i : Machine.Issue) (d : HReg) (va : Word) : Prop :=
  (s.settled s.me = false → run = .next s) ∧
  (s.settled s.me = true → (∀ c, s.accessFault s.me .any va 8 false = some c →
    run = .next (s.takeTrap s.me c va i.first))) ∧
  (s.settled s.me = true → s.accessFault s.me .any va 8 false = none →
    (∀ (s1 : Machine.State) (w : Word), s.readRef va = (s1, .ok (w, false)) →
      ∃ e, run = .next ({ s1.resumed with free := s1.free + 1 }.trap i 0x06 e)) ∧
    ∀ (s1 t : Machine.State) (w v : Word) (g : Option Machine.Gallery), s.readRef va = (s1, .ok (w, true)) →
      s1.resumed.refPresent w = (t, .ok (v, g)) →
      (v = w → run = .next (t.resumed.retire i fun x => x.setH d v)) ∧
      ∀ q : Machine.State, v ≠ w →
        (t.resumed.heal va w v = (q, .ok false) → run = .next (q.resumed.retire i fun x => x.setH d v)) ∧
        (t.resumed.heal va w v = (q, .ok true) → run = .next (q.holdsRef i (some (d, v)))))

/-- STREF at an address (R168, R171, R378). -/
def Machine.State.StoresReference (s : Machine.State) (run : Host.Outcome Machine.State Machine.Fault Machine.Refusal)
    (i : Machine.Issue) (b : HReg) (va : Word) : Prop :=
  (s.settled s.me = false → run = .next s) ∧
  (s.settled s.me = true → ∀ c, s.accessFault s.me .any va 8 false = some c →
    run = .next (s.takeTrap s.me c va i.first)) ∧
  (s.settled s.me = true → s.accessFault s.me .any va 8 false = none → ∀ t : Machine.State,
    (s.writeRef va (s.acting.getH b) true = (t, .ok false) → run = .next (t.resumed.retire i id)) ∧
    (s.writeRef va (s.acting.getH b) true = (t, .ok true) → run = .next (t.holdsRef i none)))

/-- LDH of the field at a byte offset (R168, R172). -/
def Machine.State.LoadsField (s : Machine.State) (run : Host.Outcome Machine.State Machine.Fault Machine.Refusal)
    (i : Machine.Issue) (d : XReg) (a : HReg) (off : Word) : Prop :=
  (s.settled s.me = false → run = .next s) ∧
  (s.settled s.me = true → s.acting.getH a = 0 → ∃ e, run = .next ({ s.resumed with free := s.free + 1 }.trap i 0x07 e)) ∧
  (s.settled s.me = true → ∀ (t q : Machine.State) (v va : Word) (l : List Byte), s.fieldOf a off = (t, .ok (v, va)) →
    t.resumed.readVa t.resumed.refAgent va 8 = (q, .ok l) →
    run = .next (q.resumed.retire i fun x => (x.setH a v).setX d (Machine.wordOf l)))

/-- STH of the field at a byte offset (R168, R172, R378). -/
def Machine.State.StoresField (s : Machine.State) (run : Host.Outcome Machine.State Machine.Fault Machine.Refusal)
    (i : Machine.Issue) (a : HReg) (b : XReg) (off : Word) : Prop :=
  (s.settled s.me = false → run = .next s) ∧
  (s.settled s.me = true → s.acting.getH a = 0 → ∃ e, run = .next ({ s.resumed with free := s.free + 1 }.trap i 0x07 e)) ∧
  (s.settled s.me = true → ∀ (t q : Machine.State) (v va : Word), s.fieldOf a off = (t, .ok (v, va)) →
    (t.resumed.writeRef va (s.acting.getX b) false = (q, .ok false) →
      run = .next (q.resumed.retire i fun x => x.setH a v)) ∧
    (t.resumed.writeRef va (s.acting.getX b) false = (q, .ok true) → run = .next (q.holdsRef i (some (a, v)))))

/-- The agent of a context's queued store. -/
def Machine.State.storeAgent (s : Machine.State) (u : CtxRef) (w : Machine.StoreReq) : Machine.Agent :=
  { s.docentAgent u (.store u) with sup := w.level == .s }

/-- Where the head of a context's store queue writes, by the functions of its meaning (R120, R129, R330, R378): the copies
of its location that are reached now. -/
def Machine.State.storePlaces (s : Machine.State) (u : CtxRef) (w : Machine.StoreReq) : List Nat :=
  let ag := s.storeAgent u w
  let keys (g : Machine.Got (List Nat)) : List Nat := match g with
    | .ok ks => ks
    | _ => []
  if w.amo.isSome || w.ret.isSome then keys (s.locateWrite ag w.addr .never).2
  else if w.loc then keys ((s.leaves u w).1.locateWrite ag w.addr .own).2
  else match ((s.leaves u w).1.locateAll ag w.addr).2 with
    | .ok p => p.1
    | _ => []

/-! ### Posting -/

/-- A context with the words of a POSTL entry staged: `ws` names the staging registers, in ascending order (R98). -/
def Machine.Context.stagedWords (x : Machine.Context) (ws : List Nat) (vs : List Word) : Machine.Context :=
  (ws.zip vs).foldl (fun x p => x.stage (Fin.ofNat 32 p.1) p.2) x

/-- The entry of a POSTL list at an address is read and staged (R98, R157): `ws` names its staging words, and `s2` is the
state that then enters the task. -/
def Machine.State.ReadsEntry (s : Machine.State) (u : CtxRef) (va : Word) (ws : List Nat) (s2 : Machine.State) : Prop :=
  ∃ (s1 t : Machine.State) (l : List Byte) (vs : List Word), s.syncRead u va 8 = (s1, .ok l) ∧
    (Machine.wordOf l).toNat / 2 ^ 32 = 0 ∧ ws = Machine.setBits 32 (Machine.wordOf l).toNat ∧
    s1.syncWords u (va + 8) ws.length = (t, .ok vs) ∧ s2 = t.setCtx u ((t.ctx u).stagedWords ws vs)

/-- What POSTL does with its registers once an entry's task has entered (R157): Xd takes the handle word, Xa passes the entry
and Xb counts it; after the last the context goes on at the next instruction, else it stands at the POSTL (log 50). -/
def Machine.State.entryPosted (t : Machine.State) (u : CtxRef) (d a b : XReg) (va : Word) (n : Nat) (h : Handle) :
    Machine.State :=
  let x := ((t.ctx u).setX d (BitVec.ofNat 64 (2 ^ 32 + 256 * (t.entry u.core h).gen.toNat + h.val))).setX a
    (va + BitVec.ofNat 64 (8 * (1 + n)))
  let q := t.setCtx u { x.setX b (x.getX b - 1) with posting := true }
  if (q.ctx u).getX b = 0 then (q.setCtx u { q.ctx u with posting := false }).proceed u ((q.ctx u).pc + 4)
  else q.proceed u (q.ctx u).pc

/-! ### Tables -/

/-- Table 4.1: fn, assembly, and Xd from Xa and Xb. -/
def aluTable : List (Nat × (XReg → XReg → XReg → Instr) × (Word → Word → Word)) :=
  [(0x001, .add, fun a b => BitVec.ofNat 64 (a.toNat + b.toNat)),
   (0x002, .sub, fun a b => BitVec.ofInt 64 (a.toInt - b.toInt)),
   (0x003, .mul, fun a b => BitVec.ofInt 64 (a.toInt * b.toInt)),
   (0x004, .mulh, fun a b => BitVec.ofInt 64 (a.toInt * b.toInt / 2 ^ 64)),
   (0x005, .mulhn, fun a b => BitVec.ofNat 64 (a.toNat * b.toNat / 2 ^ 64)),
   (0x006, .div, fun a b => if b = 0 then -1 else BitVec.ofInt 64 (a.toInt.tdiv b.toInt)),
   (0x007, .divn, fun a b => if b = 0 then BitVec.ofNat 64 (2 ^ 64 - 1) else BitVec.ofNat 64 (a.toNat / b.toNat)),
   (0x008, .rem, fun a b => if b = 0 then a else BitVec.ofInt 64 (a.toInt - b.toInt * a.toInt.tdiv b.toInt)),
   (0x009, .remn, fun a b => if b = 0 then a else BitVec.ofNat 64 (a.toNat % b.toNat)),
   (0x00A, .and, fun a b => BitVec.ofNat 64 (a.toNat &&& b.toNat)),
   (0x00B, .or, fun a b => BitVec.ofNat 64 (a.toNat ||| b.toNat)),
   (0x00C, .xor, fun a b => BitVec.ofNat 64 (a.toNat ^^^ b.toNat)),
   (0x00D, .andn, fun a b => BitVec.ofNat 64 (a.toNat &&& (2 ^ 64 - 1 - b.toNat))),
   (0x00E, .shl, fun a b => BitVec.ofNat 64 (a.toNat * 2 ^ (b.toNat % 64))),
   (0x00F, .shr, fun a b => BitVec.ofNat 64 (a.toNat / 2 ^ (b.toNat % 64))),
   (0x010, .sra, fun a b => BitVec.ofInt 64 (a.toInt / 2 ^ (b.toNat % 64))),
   (0x011, .rotl, fun a b => BitVec.ofNat 64 (a.toNat * 2 ^ (b.toNat % 64) + a.toNat / 2 ^ (64 - b.toNat % 64))),
   (0x012, .min, fun a b => BitVec.ofInt 64 (Min.min a.toInt b.toInt)),
   (0x013, .max, fun a b => BitVec.ofInt 64 (Max.max a.toInt b.toInt)),
   (0x014, .minn, fun a b => BitVec.ofNat 64 (Min.min a.toNat b.toNat)),
   (0x015, .maxn, fun a b => BitVec.ofNat 64 (Max.max a.toNat b.toNat)),
   (0x016, .slt, fun a b => if a.toInt < b.toInt then 1 else 0),
   (0x017, .sltn, fun a b => if a.toNat < b.toNat then 1 else 0),
   (0x018, .seq, fun a b => if a = b then 1 else 0)]

/-- The last rows of Table 4.1, which read Xa only: leading zeros, trailing zeros, set bits. -/
def countTable : List (Nat × (XReg → XReg → Instr) × (Word → Nat → Prop)) :=
  [(0x019, .clz, fun a n => n ≤ 64 ∧ (∀ i, 64 - n ≤ i → a.getLsbD i = false) ∧ (n < 64 → a.getLsbD (63 - n) = true)),
   (0x01A, .ctz, fun a n => n ≤ 64 ∧ (∀ i < n, a.getLsbD i = false) ∧ (n < 64 → a.getLsbD n = true)),
   (0x01B, .popc, fun a n => n = ((List.range 64).filter fun i => a.getLsbD i).length)]

/-- Table 4.2 and R116: major, assembly, and Xd from Xa and the immediate. -/
def immTable : List (Nat × (XReg → XReg → BitVec 16 → Instr) × (Word → BitVec 16 → Word)) :=
  [(0x02, .addi, fun a i => BitVec.ofInt 64 (a.toInt + i.toInt)),
   (0x03, .andi, fun a i => BitVec.ofNat 64 (a.toNat &&& i.toNat)),
   (0x04, .ori, fun a i => BitVec.ofNat 64 (a.toNat ||| i.toNat)),
   (0x05, .xori, fun a i => BitVec.ofNat 64 (a.toNat ^^^ i.toNat)),
   (0x09, .slti, fun a i => if a.toInt < i.toInt then 1 else 0)]

/-- The shifts of Table 4.2. -/
def shiftTable : List (Nat × (XReg → XReg → BitVec 6 → Instr) × (Word → BitVec 6 → Word)) :=
  [(0x06, .shli, fun a n => BitVec.ofNat 64 (a.toNat * 2 ^ n.toNat)),
   (0x07, .shri, fun a n => BitVec.ofNat 64 (a.toNat / 2 ^ n.toNat)),
   (0x08, .srai, fun a n => BitVec.ofInt 64 (a.toInt / 2 ^ n.toNat))]

/-- Table 4.3, the branches of two registers: taken when. -/
def branchTable : List ((XReg → XReg → BitVec 16 → Instr) × (Word → Word → Bool)) :=
  [(.beq, fun a b => decide (a = b)), (.bne, fun a b => decide (a ≠ b)),
   (.blt, fun a b => decide (a.toInt < b.toInt)), (.bge, fun a b => decide (b.toInt ≤ a.toInt)),
   (.bltn, fun a b => decide (a.toNat < b.toNat)), (.bgen, fun a b => decide (b.toNat ≤ a.toNat))]

/-- The branches of one register. -/
def branchZTable : List ((XReg → BitVec 16 → Instr) × (Word → Bool)) :=
  [(.bz, fun a => decide (a = 0)), (.bnz, fun a => decide (a ≠ 0))]

/-- Table 4.4: loads with an immediate, their bytes and whether they extend by zeros. -/
def loadTable : List ((XReg → XReg → BitVec 16 → Instr) × Size × Bool) :=
  [(.ldB, .b, false), (.ldBn, .b, true), (.ldH, .h, false), (.ldHn, .h, true), (.ldW, .w, false), (.ldWn, .w, true),
   (.ldD, .d, false)]

/-- Table 4.4: stores with an immediate. -/
def storeTable : List ((XReg → XReg → BitVec 16 → Instr) × Size) := [(.stB, .b), (.stH, .h), (.stW, .w), (.stD, .d)]

/-- `n` loaded bytes, read little-endian, as a register value (R45, R118): by sign, or by zeros. -/
def loadedValue (z : Size) (nat : Bool) (v : Nat) : Word :=
  let w := 8 * z.bytes
  if nat ∨ v % 2 ^ w < 2 ^ (w - 1) then BitVec.ofNat 64 (v % 2 ^ w) else BitVec.ofInt 64 ((v % 2 ^ w : Nat) - (2 ^ w : Nat))

/-- Docent instructions that change nothing but registers of their own context, on every path. -/
def Instr.registerOnly : Instr → Bool
  | .add _ _ _ | .sub _ _ _ | .mul _ _ _ | .mulh _ _ _ | .mulhn _ _ _ | .div _ _ _ | .divn _ _ _ | .rem _ _ _
  | .remn _ _ _ | .and _ _ _ | .or _ _ _ | .xor _ _ _ | .andn _ _ _ | .shl _ _ _ | .shr _ _ _ | .sra _ _ _
  | .rotl _ _ _ | .min _ _ _ | .max _ _ _ | .minn _ _ _ | .maxn _ _ _ | .slt _ _ _ | .sltn _ _ _ | .seq _ _ _
  | .clz _ _ | .ctz _ _ | .popc _ _ | .sel _ _ _ _ | .addi _ _ _ | .andi _ _ _ | .ori _ _ _ | .xori _ _ _
  | .shli _ _ _ | .shri _ _ _ | .srai _ _ _ | .slti _ _ _ | .lil _ _ | .lih _ _ | .exts _ _ _ _ | .extz _ _ _ _
  | .insf _ _ _ _ | .nop | .tcoord _ | .tset _ _ | .tseti _ _ | .treg _ _ _ | .tclr | .getb _ _ | .readc _ _
  | .grank _ _ | .gsize _ _ | .prio _ | .qstat _ _ => true
  | _ => false

/-- The general register that a register-only instruction writes. -/
def Instr.destination : Instr → Option XReg
  | .add d _ _ | .sub d _ _ | .mul d _ _ | .mulh d _ _ | .mulhn d _ _ | .div d _ _ | .divn d _ _ | .rem d _ _
  | .remn d _ _ | .and d _ _ | .or d _ _ | .xor d _ _ | .andn d _ _ | .shl d _ _ | .shr d _ _ | .sra d _ _
  | .rotl d _ _ | .min d _ _ | .max d _ _ | .minn d _ _ | .maxn d _ _ | .slt d _ _ | .sltn d _ _ | .seq d _ _
  | .clz d _ | .ctz d _ | .popc d _ | .sel d _ _ _ | .addi d _ _ | .andi d _ _ | .ori d _ _ | .xori d _ _
  | .shli d _ _ | .shri d _ _ | .srai d _ _ | .slti d _ _ | .lil d _ | .lih d _ | .exts d _ _ _ | .extz d _ _ _
  | .insf d _ _ _ | .tcoord d | .getb d _ | .readc d _ | .grank d _ | .gsize d _ | .qstat d _ => some d
  | _ => none

/-- Docent instructions that store nothing themselves: register-only ones, branches, loads, stores and atomics as they
issue, fences, waits and system instructions. -/
def Instr.storesNothing (i : Instr) : Bool :=
  i.registerOnly || match i with
    | .b _ | .bl _ | .beq _ _ _ | .bne _ _ _ | .blt _ _ _ | .bge _ _ _ | .bltn _ _ _ | .bgen _ _ _ | .bz _ _ | .bnz _ _
    | .br _ | .blr _ | .ldB _ _ _ | .ldBn _ _ _ | .ldH _ _ _ | .ldHn _ _ _ | .ldW _ _ _ | .ldWn _ _ _ | .ldD _ _ _
    | .ldx _ _ _ _ _ _ | .stB _ _ _ | .stH _ _ _ | .stW _ _ _ | .stD _ _ _ | .stloc _ _ _ | .stx _ _ _ _ _
    | .ldt _ _ _ _ _ | .amo _ _ _ _ _ _ | .amoi _ _ _ _ _ | .cas _ _ _ _ _ | .famo _ _ _ _ _ _ _ _ | .fence _
    | .tfence _ | .notify _ _ | .trap | .brk | .eret | .yield | .done | .time _ | .sysr _ _ | .sysw _ _ | .setb _ _
    | .gnew _ => true
    | _ => false

/-- The forms marked X in Table 3.2: their immediate takes a prefix. -/
def Instr.takesPrefix : Instr → Bool
  | .addi _ _ _ | .andi _ _ _ | .ori _ _ _ | .xori _ _ _ | .slti _ _ _ | .lil _ _ | .beq _ _ _ | .bne _ _ _
  | .blt _ _ _ | .bge _ _ _ | .bltn _ _ _ | .bgen _ _ _ | .bz _ _ | .bnz _ _ | .ldB _ _ _ | .ldBn _ _ _ | .ldH _ _ _
  | .ldHn _ _ _ | .ldW _ _ _ | .ldWn _ _ _ | .ldD _ _ _ | .stB _ _ _ | .stH _ _ _ | .stW _ _ _ | .stD _ _ _
  | .stloc _ _ _ | .tseti _ _ | .ldref _ _ _ | .stref _ _ _ | .ldh _ _ _ | .sth _ _ _ => true
  | _ => false

/-! ### Kernel tables -/

/-- The next word of the kernel follows: no loop ends at this word, and the kernel goes on after it (R237, R238). -/
def Machine.State.Follows (s : Machine.State) : Prop :=
  s.vec.next + 1 < s.vec.kernel.length ∧
  (s.vec.loops.toList.any fun l => l.active && l.last + 1 == s.vec.next + 1) = false

/-- A vector instruction that computes a tile: with its checks met, each governed element of the shape, by linear index,
becomes a function of its operands' elements at that index, the others stay, the flags join the task's, and the next word
follows; else the task completes with status FORMAT (R182-R186, R189). -/
def Machine.State.Computes (s : Machine.State) (i : Instr) (f : VWord) (b : Nat) (ops : List (BitVec 8 × Nat))
    (value : Nat → (Nat → Nat) → Machine.Coded) : Prop :=
  (s.vec.operandsOk b ops = true → ∃ out : List (Option Machine.Coded),
    Machine.exec i s = .next (s.vectorDone (s.vec.setCodes f.dst b (out.map fun r => r.map Machine.Coded.code))
      (Machine.flagsOf (out.filterMap id)) (f.mode == .rsr)) ∧
    out.length = s.vec.size ∧
    ∀ k < s.vec.size, out[k]? = some (if s.vec.governs f.pred k
      then some (value (s.vectorDraw f k) fun n => (ops.map fun o => (s.vec.operand o.1 o.2).getD k 0).getD n 0)
      else none)) ∧
  (s.vec.operandsOk b ops = false → Machine.exec i s = .next (s.vectorFail s.focus Machine.causeFormat))

/-- One row of a table of vector instructions: the instruction, its operands, and an element of its result. -/
structure VRow where
  instr : VWord → Instr
  operands : VWord → List (BitVec 8)
  value : VWord → Nat → (Nat → Nat) → Machine.Coded

/-- A floating result of values, rounded by the word's mode and SAT (R192). -/
def VRow.float (instr : VWord → Instr) (operands : VWord → List (BitVec 8))
    (value : VWord → (Nat → Machine.Val) → Machine.Valued) : VRow :=
  ⟨instr, operands, fun f draw o => (Machine.flOf f.type).finish (f.auxBit 0) f.mode draw
    (value f fun n => (Machine.flOf f.type).decode (o n))⟩

/-- An integer result, exact and reduced once by SAT (R210). -/
def VRow.int (instr : VWord → Instr) (operands : VWord → List (BitVec 8)) (value : (Nat → Int) → Int) : VRow :=
  ⟨instr, operands, fun f _ o =>
    ⟨(Machine.intOf f.type).write (f.auxBit 0) (value fun n => (Machine.intOf f.type).read (o n)), 0⟩⟩

/-- A function of Table 6.5, or VRCP or VRSQ, with its listed results and its bounded ones (R194, R203-R208). -/
def VRow.fn (instr : VWord → Instr) (g : Machine.Fn) : VRow :=
  ⟨instr, fun f => [f.a], fun f _ o =>
    g.apply (Machine.flOf f.type) (f.auxBit 0) f.mode f.type.toNat f.rm.toNat (o 0)⟩

/-- Table 6.2 and R192-R200: sums, products, quotients and roots of values, rounded once. -/
def floatTable : List VRow :=
  [.float .vadd (fun f => [f.a, f.b]) fun f o => Machine.addVal f.mode (o 0) (o 1),
   .float .vsub (fun f => [f.a, f.b]) fun f o => Machine.addVal f.mode (o 0) (o 1).minus,
   .float .vmul (fun f => [f.a, f.b]) fun _ o => Machine.mulVal (o 0) (o 1),
   .float .vfma (fun f => [f.a, f.b, f.c]) fun f o => Machine.fmaVal f.mode (o 0) (o 1) (o 2),
   .float .vfms (fun f => [f.a, f.b, f.c]) fun f o => Machine.fmaVal f.mode (o 0) (o 1) (o 2).minus,
   .float .vfnma (fun f => [f.a, f.b, f.c]) fun f o => Machine.fmaVal f.mode (o 0).minus (o 1) (o 2).minus,
   .float .vfnms (fun f => [f.a, f.b, f.c]) fun f o => Machine.fmaVal f.mode (o 0).minus (o 1) (o 2),
   .float .vdiv (fun f => [f.a, f.b]) fun _ o => Machine.divVal (o 0) (o 1),
   .float .vsqrt (fun f => [f.a]) fun _ o => Machine.sqrtVal (o 0)]

/-- R196-R200: minimum and maximum by value and by magnitude, sign changes, scaling and rounding to integral values. -/
def codeTable : List VRow :=
  [⟨.vmin, fun f => [f.a, f.b], fun f _ o => (Machine.flOf f.type).choose false false (f.auxBit 1) (o 0) (o 1)⟩,
   ⟨.vmax, fun f => [f.a, f.b], fun f _ o => (Machine.flOf f.type).choose true false (f.auxBit 1) (o 0) (o 1)⟩,
   ⟨.vminm, fun f => [f.a, f.b], fun f _ o => (Machine.flOf f.type).choose false true (f.auxBit 1) (o 0) (o 1)⟩,
   ⟨.vmaxm, fun f => [f.a, f.b], fun f _ o => (Machine.flOf f.type).choose true true (f.auxBit 1) (o 0) (o 1)⟩,
   ⟨.vabs, fun f => [f.a], fun f _ o => ⟨o 0 % 2 ^ ((Machine.flOf f.type).width - 1), 0⟩⟩,
   ⟨.vneg, fun f => [f.a], fun f _ o => ⟨o 0 ^^^ 2 ^ ((Machine.flOf f.type).width - 1), 0⟩⟩,
   ⟨.vcps, fun f => [f.a, f.b], fun f _ o =>
     let top := 2 ^ ((Machine.flOf f.type).width - 1)
     ⟨o 0 % top + o 1 / top * top, 0⟩⟩,
   ⟨.vscl, fun f => [f.a, f.b], fun f draw o =>
     let g := Machine.flOf f.type
     let n := max (-5000) (min 5000 (Machine.signed g.width (o 1)))
     g.finish (f.auxBit 0) f.mode draw
       ((Machine.firstNan [g.decode (o 0)]).getD ⟨(g.decode (o 0)).scale n, 0⟩)⟩,
   ⟨.vrnd, fun f => [f.a], fun f draw o => (Machine.flOf f.type).integral f.mode (f.auxBit 0) draw (o 0)⟩]

/-- Table 6.5, with VRCP and VRSQ. -/
def functionTable : List VRow :=
  [.fn .vrcp .rcp, .fn .vrsq .rsq, .fn .vexp .exp, .fn .vexp2 .exp2, .fn .vlog .log, .fn .vlog2 .log2, .fn .vsin .sin,
   .fn .vcos .cos, .fn .vtanh .tanh, .fn .vsigm .sigm, .fn .verf .erf]

/-- Table 6.8 and R209-R211: integer arithmetic, shifts, and logic on bits. -/
def integerTable : List VRow :=
  [.int .viadd (fun f => [f.a, f.b]) fun o => o 0 + o 1,
   .int .visub (fun f => [f.a, f.b]) fun o => o 0 - o 1,
   .int .vimul (fun f => [f.a, f.b]) fun o => o 0 * o 1,
   ⟨.vimulh, fun f => [f.a, f.b], fun f _ o =>
     let t := Machine.intOf f.type
     ⟨t.write (f.auxBit 0) (t.read (o 0) * t.read (o 1) / (2 ^ t.w : Nat)), 0⟩⟩,
   .int .vimad (fun f => [f.a, f.b, f.c]) fun o => o 0 * o 1 + o 2,
   .int .vimin (fun f => [f.a, f.b]) fun o => if o 0 ≤ o 1 then o 0 else o 1,
   .int .vimax (fun f => [f.a, f.b]) fun o => if o 0 ≤ o 1 then o 1 else o 0,
   .int .viabs (fun f => [f.a]) fun o => if o 0 < 0 then -(o 0) else o 0,
   ⟨.vshl, fun f => [f.a, f.b], fun f _ o =>
     let t := Machine.intOf f.type
     ⟨t.write (f.auxBit 0) (t.read (o 0) * (2 ^ min t.w (o 1) : Nat)), 0⟩⟩,
   ⟨.vshr, fun f => [f.a, f.b], fun f _ o => ⟨o 0 / 2 ^ min (Machine.intOf f.type).w (o 1), 0⟩⟩,
   ⟨.vsra, fun f => [f.a, f.b], fun f _ o =>
     let w := (Machine.intOf f.type).w
     ⟨Machine.wrapTo w (Machine.signed w (o 0) / (2 ^ min w (o 1) : Nat)), 0⟩⟩,
   ⟨.vand, fun f => [f.a, f.b], fun _ _ o => ⟨o 0 &&& o 1, 0⟩⟩,
   ⟨.vor, fun f => [f.a, f.b], fun _ _ o => ⟨o 0 ||| o 1, 0⟩⟩,
   ⟨.vxor, fun f => [f.a, f.b], fun _ _ o => ⟨o 0 ^^^ o 1, 0⟩⟩,
   ⟨.vnot, fun f => [f.a], fun f _ o => ⟨2 ^ (Machine.intOf f.type).w - 1 - o 0, 0⟩⟩]

/-- The comparison of Table 6.3 with code `cmp`, on an order or on unordered values. -/
def comparison (cmp : Nat) (o : Option Ordering) : Bool :=
  match cmp with
  | 0 => o == some .eq
  | 1 => o != some .eq
  | 2 => o == some .lt
  | 3 => o == some .lt || o == some .eq
  | 4 => o == some .gt
  | 5 => o == some .gt || o == some .eq
  | 6 => o == none
  | _ => o != none

/-- A move of a tile: with its checks met, each governed element of the shape becomes the code given for its linear index,
no flag is raised, and the next word follows. -/
def Machine.State.Places (s : Machine.State) (i : Instr) (f : VWord) (code : Nat → Nat) : Prop :=
  ∃ out : List (Option Nat),
    Machine.exec i s = .next (s.vectorDone (s.vec.setCodes f.dst (Machine.elOf f.type).bytes out) 0 false) ∧
    out.length = s.vec.size ∧
    ∀ k < s.vec.size, out[k]? = some (if s.vec.governs f.pred k then some (code k) else none)

/-- A load of the vector engine: failing issue checks complete the task with their status; a miss waits; a position that
cannot be reached or read completes the task with ACCESS or DATA, and one whose line does not describe its type with DATA,
before any result is written (R215, R217, R219); else what each governed position reads is its value, a suppressed position
reads zero and its cause is recorded, and the results go to the destination (R213-R221). -/
def Machine.State.LoadsTile (s : Machine.State) (i : Instr) (f : VWord) (issue : Machine.Causes)
    (places : List (Option Machine.Reach)) (value : Nat → List Byte × Word × Nat → Option Machine.Coded)
    (put : Machine.VectorUnit → List (Option Nat) → Machine.VectorUnit) : Prop :=
  (issue.stops = true → Machine.exec i s = .next (s.vectorFail s.focus issue)) ∧
  (issue.stops = false → ∀ t : Machine.State,
    let read := s.readAll (s.taskAgent s.focus (.vector s.focus)) places ⟨none, Machine.Causes.none, []⟩
    (read = (t, none) → Machine.exec i s = .next t.vectorWait) ∧
    ∀ a : Machine.Reads, read = (t, some a) →
    let described : Prop :=
      ∀ (k : Nat) (x : List Byte × Word × Nat), a.found.reverse[k]? = some (some (some x)) → value k x ≠ none
    (¬ described → Machine.exec i s = .next (t.vectorFail s.focus (a.causes.or Machine.causeData))) ∧
    (described → a.causes.stops = true → Machine.exec i s = .next (t.vectorFail s.focus a.causes)) ∧
    (described → a.causes.stops = false →
      ∃ codes : List (Option Machine.Coded),
        (let q := t.cause s.focus (t.vec.task.getD 0) a.causes
         Machine.exec i s = .next (q.vectorDone (put q.vec (codes.map fun g => g.map Machine.Coded.code))
          (Machine.flagsOf (codes.filterMap id)) (f.mode == .rsr))) ∧
        codes.length = a.found.length ∧
        ∀ k < a.found.length, codes[k]? = some (match a.found.reverse[k]? with
          | some (some (some x)) => value k x
          | some (some none) => some ⟨0, 0⟩
          | _ => none)))

/-- A store of the vector engine that has not begun: failing issue checks complete the task with their status; a miss waits,
and nothing is stored; else each position's bytes are put where they are aimed, in linear order (R213-R221), all of them by
`put`. Then a cause that the task has met stops it; else the next word follows at once, with the store's flags, where no
copy and no answer of another device is waited for, or the engine waits for those with the flags noted. -/
def Machine.State.StoresTile (s : Machine.State) (i : Instr) (f : VWord) (issue : Machine.Causes)
    (writes : List (Machine.Reach × List Byte)) (flags : Machine.Sticky)
    (put : Machine.State → Machine.Agent → Machine.Waiter → List (Machine.Aim × List Byte) → Machine.State) : Prop :=
  (issue.stops = true → Machine.exec i s = .next (s.vectorFail s.focus issue)) ∧
  (issue.stops = false → s.vec.after = none → ∀ t : Machine.State,
    let ag := s.taskAgent s.focus (.vector s.focus)
    let h := s.vec.task.getD 0
    let aimed := s.aimAll ag writes Machine.Causes.none []
    (aimed = (t, none) → Machine.exec i s = .next t.vectorWait) ∧
    ∀ (k : Machine.Causes) (l : List (Machine.Aim × List Byte)), aimed = (t, some (k, l)) →
      (k.stops = true → Machine.exec i s = .next (t.vectorFail s.focus k)) ∧
      (k.stops = false →
        let q := put (t.cause s.focus h k) ag (.unit (.vector s.focus) s.focus h) l
        let e := (q.entry q.focus (q.vec.task.getD 0)).causes
        let held : Prop := q.waiting (.unit (.vector q.focus)) = true ∨
          q.unanswered (.vector q.focus) q.focus (q.vec.task.getD 0) = true
        (e.stops = true → Machine.exec i s = .next (q.vectorFail q.focus e)) ∧
        (e.stops = false → ¬ held → Machine.exec i s = .next (q.vectorDone q.vec flags (f.mode == .rsr))) ∧
        (e.stops = false → held → Machine.exec i s =
          .next (q.setVec q.focus { q.vec with waiting := true, after := some (flags, f.mode == .rsr) }))))

/-- The lines that VPACK packs, each with its tag and flags (R232). -/
def Machine.State.packedLines (s : Machine.State) (f : VWord) : List (List Byte × Word × Machine.Sticky) :=
  let n := 512 / (Machine.packEl f).width
  let elems := (s.vec.operand f.c 4).zipIdx.map fun q => if s.vec.governs f.pred q.2 then some q.1 else none
  (Machine.runsOf n s.vec.size elems).zipIdx.map fun q => Machine.packLine f (s.vectorDraw f) q.1 (q.2 * n)

/-- A vector instruction that stores: the causes of its issue checks, and each position that it writes with its bytes, in
linear order (R216, R218, R221-R223, R232); a described line is followed by its tag. -/
def Machine.State.storesOf (s : Machine.State) (i : Instr) : Machine.Causes × List (Machine.Reach × List Byte) :=
  let c := s.focus
  let v := s.vec
  let bad (b : Bool) (p : Machine.Place) (w : Nat) (np : Bool) : Machine.Causes :=
    (Machine.Causes.when b Machine.causeFormat).or (s.placeCauses c p w np)
  match i with
  | .vst f =>
    let w := (Machine.elOf f.type).bytes
    (bad (!v.shapeOk w) (v.place f true) w false,
      (v.positions.zip (v.operand f.c w)).zipIdx.filterMap fun q => if v.governs f.pred q.2
        then some (s.placeAt c (v.place f true) true q.1.1.1 (q.1.1.2 * w) w, Machine.bytesOf w q.1.2) else none)
  | .vstl f =>
    let w := (Machine.elOf f.type).bytes
    (bad (v.rows == 0 || v.cols == 0 || decide (v.lineCount f.c * w > 2048)) (v.place f false) w true,
      (v.line f.c w (v.lineCount f.c)).zipIdx.filterMap fun q => if v.governs f.pred (v.lineIndex f.c q.2)
        then some (s.placeAt c (v.place f false) true 0 (q.2 * w) w, Machine.bytesOf w q.1) else none)
  | .vscat f =>
    let w := (Machine.elOf f.type).bytes
    (bad (!v.shapeOk w || !v.shapeOk 4) (v.place f false) w true,
      ((v.operand f.b 4).zip (v.operand f.c w)).zipIdx.filterMap fun q => if v.governs f.pred q.2
        then some (s.placeIndexed c (v.place f false) true (Machine.signed 32 q.1.1) w, Machine.bytesOf w q.1.2)
        else none)
  | .vpack f =>
    let n := 512 / (Machine.packEl f).width
    (bad (!v.shapeOk 4 || v.cols % n != 0) (v.place f true) 64 false,
      (s.packedLines f).zipIdx.map fun q =>
        (s.placeAt c (v.place f true) true (q.2 / (v.cols / n)) (64 * (q.2 % (v.cols / n))) 64,
          q.1.1 ++ Machine.bytesOf 8 q.1.2.1.toNat))
  | _ => (Machine.Causes.none, [])

/-- The vector instructions that store. -/
def Instr.vectorStores : Instr → Bool
  | .vst _ | .vstl _ | .vscat _ | .vpack _ => true
  | _ => false

/-- The vector instructions that compute in the engine's registers alone: they neither load, store nor loop. -/
def Instr.vectorComputes (i : Instr) : Bool :=
  (encodeKernel i).isSome && !i.vectorStores && match i with
    | .vld _ | .vldl _ | .vgath _ | .vunpk _ | .loop _ | .vdone _ => false
    | _ => true

/-! ### Records and lines -/

/-- A whole line put by a copy record where it is aimed (R259, R349): a bad place gives ACCESS, one outside the regions is
suppressed; else the line is put with its tag, and delivered when every copy of it has been written. -/
def Machine.State.PutsWhole (t : Machine.State) (work : Machine.Work) (c : CoreId) (h : Handle) (r : Rec)
    (dst : Machine.Reach) (d : List Byte) (tag : Word) (k : Machine.Causes) : Prop :=
  let ag := t.taskAgent c (.copy c)
  (dst = .bad → work = .stop t (k.or Machine.causeAccess)) ∧
  (dst = .suppressed → work = .done (t.cause c h (k.or Machine.causeUndeclared))) ∧
  ∀ l, dst = .found l → (∀ a off, l = .va a → t.target a ≠ .aperture off) → ∀ q : Machine.State,
    (∀ m, t.aim ag l false = (q, .ok m) →
      let p := q.putLine ag (Machine.writerOf c .copy h) m d tag
      work = .done ((if m.now then p.deliver r (l.receiver c) else p).cause c h k)) ∧
    (t.aim ag l false = (q, .wait) → work = .wait q false) ∧
    (t.aim ag l false = (q, .access) → work = .stop q (k.or Machine.causeAccess)) ∧
    (t.aim ag l false = (q, .data) → work = .stop q (k.or Machine.causeData))

/-- A whole line moved by a copy record (R259): it is read with its tag, and put where it is aimed with MOVING clear. -/
def Machine.State.MovesLine (s : Machine.State) (work : Machine.Work) (c : CoreId) (h : Handle) (r : Rec)
    (src dst : Machine.Reach) : Prop :=
  ∀ t : Machine.State,
    let read := s.readWhole (s.taskAgent c (.copy c)) src
    (read = (t, none) → work = .wait t false) ∧
    ∀ (k : Machine.Causes) (d : List Byte) (g : Word), read = (t, some (k, d, g)) →
      (k.stops = true → work = .stop t k) ∧
      (k.stops = false → t.PutsWhole work c h r dst d (Machine.movedTag g) k)

/-- A line put by a copy record at one core after another, each where `dst` aims it then, until one put waits or stops
(R263). -/
def Machine.State.PutsEach (c : CoreId) (h : Handle) (r : Rec) (dst : Machine.State → CoreId → Machine.Reach)
    (d : List Byte) (tag : Word) (k : Machine.Causes) (work : Machine.Work) : List CoreId → Machine.State → Prop
  | [], t => work = .done t
  | m :: l, t => ∃ w : Machine.Work, t.PutsWhole w c h r (dst t m) d tag k ∧
      (∀ q, w = .done q → Machine.State.PutsEach c h r dst d tag k work l q) ∧ ((∀ q, w ≠ .done q) → work = w)

/-- One accumulator element of a K-step (R251): its code becomes that of the terms added to it, in sequence with a fused
step each (f32 and f64 operands), or all of them exactly with one rounding; without a term it stays. -/
def Rec.stepped (r : Rec) (draw code : Nat) (terms : List (Machine.Val × Machine.Val)) : Nat :=
  let g := Machine.flOf r.fc
  if terms = [] then code
  else if r.fc = 0x0B#5 then
    (Machine.exactStep false r.mode r.sat draw (Machine.Val.ofInt (Machine.signed 32 code)) terms).code
  else if r.fa = 0x00#5 ∨ r.fa = 0x01#5 then
    terms.foldl (fun a p => (Machine.fusedStep g r.mode draw (g.decode a) p.1 p.2).code) code
  else (Machine.exactStep true r.mode false draw (Machine.Fl.f32.decode code) terms).code

/-- A record in the engine of a kind, by its plan (R242-R245, R248, R181): a failing check of R90, or an illegal place in a
chain, completes the task with that status before anything is done, then a failing release check does, a queue that the task
names and that is not OPEN among them; else the record's units of work run from where it stands. -/
def Machine.State.RunsRecord (s : Machine.State) (i : Instr) (kind : Kind) (plan : Machine.Entry → Machine.Plan) : Prop :=
  ∀ h, (s.engine s.focus kind).handle = some h →
    let e := s.entry s.focus h
    let p := plan e
    let x := s.engine s.focus kind
    let hull := p.hull.or (s.queueGate s.focus e)
    let illegal : Prop := p.bad.stops = true ∨ e.chain.illegal = true
    let t := (s.cause s.focus h p.bad).setEngine s.focus kind { x with started := true, waiting := false }
    (x.started = false → illegal → Machine.exec i s = .next (s.endRecord s.focus kind
      (p.bad.or (Machine.Causes.when e.chain.illegal Machine.causeFormat)))) ∧
    (x.started = false → ¬ illegal → hull.status ≠ 0 →
      Machine.exec i s = .next (s.endRecord s.focus kind (p.bad.or hull))) ∧
    (x.started = true ∨ ¬ illegal ∧ hull.status = 0 →
      (kind = .matrix → ∀ f ∈ (s.core s.focus).chains.failed, f.1 ≠ e.chain.id) →
      Machine.exec i s = .next (Machine.runUnits s.focus kind h (p.unit s.focus h e) (p.units - x.progress) x.progress t))

/-- A link-queue line in the step's operands reaches core `c` of a served partition, for the first time and with nothing of
its source before it where it comes from another device; `t` is the state with its clock merged (R346, R347, R355). -/
def Machine.State.Lands (s : Machine.State) (l : QLine) (d : List Byte) (tag : Word) (c : CoreId) (t : Machine.State) :
    Prop :=
  s.arg = .qline l d tag ∧ s.physical l.part l.core = some c ∧ (s.part l.part).state ≠ .empty ∧
  (s.part l.part).state ≠ .resetting ∧ (Machine.lineStep (l.word.toNat % 16)).isSome = true ∧
  t = s.mergeClock (Machine.dieOf c) l.clock ∧
  (l.sDev = s.devId ∨ l.sDev ≠ s.devId ∧ s.answered l.sDev l.seq = none ∧ s.sourceWaits (Machine.lineSource l) = false)

/-- A line that has been applied is answered to another device (R347). -/
def Machine.State.lineEnds (q : Machine.State) (l : QLine) : Machine.State :=
  if l.sDev = q.devId then q else q.reply (Machine.lineSource l) true 0 [] []

/-- A request of another device is served now: it is new and does not wait here already, nothing of its source waits before
it, and its partition serves (R347, R348). -/
def Machine.State.Serves (s : Machine.State) (src : FabricSrc) : Prop :=
  s.answered src.dev src.seq = none ∧ s.waitsAlready src = false ∧ s.sourceWaits src = false ∧ (s.part src.part).state ≠ .empty ∧
  (s.part src.part).state ≠ .resetting

/-! ### Commands -/

/-- A command packet passes the checks that need only the packet (R398, Table 14.5). -/
def Machine.State.Issues (s : Machine.State) (i : Instr) (c : Cmd) : Prop := s.arg = .cmd c ∧ s.packetFault i c = none

/-- A command packet that acts on its partition has it to itself, `t` being the state with the claim noted, in a state of the
partition that allows it, or goes on with what it has begun (R405). -/
def Machine.State.Claims (s : Machine.State) (i : Instr) (c : Cmd) (t : Machine.State) : Prop :=
  s.Issues i c ∧ s.claim c (i == .resetPart) = (t, true) ∧
  ((s.cmdQueue c.q).progress ≠ 0 ∨ Machine.allowedIn i (s.part c.target).state = true)

end Sys2Proof
end

