-- ==== Sys2Proof/WellFormed.lean ====
section
/-! DEFINITION. Which terms of `Instr` are instructions of the machine: the limits that the encodings set beyond the
widths of their fields. -/

namespace Sys2Proof

/-- A bit field that stays within a register: pos + count ≤ 64, the count being `w` + 1 (Table 3.2). -/
def fieldFits (pos w : BitVec 6) : Bool := decide (pos.toNat + w.toNat + 1 ≤ 64)

/-- The mode and the REORD bit that a floating-point atomic may carry: min and max carry mode 000 and no REORD (R134). -/
def famoOk (op : FamoOp) (rm : Rm) (reord : Bool) : Bool := op == .add || (rm == .rne && !reord)

/-- An illegal-instruction step carries a word that decodes to no instruction, and says which refusal it met (R78). -/
def illegalOk (w : Word32) (reserved : Bool) : Bool :=
  decodeDocent w == (if reserved then .reserved else .undefined)

/-- The mnemonics of kernel words. -/
def Instr.isKernel (i : Instr) : Bool := (kernelFields i).isSome

/-- A well-formed instruction. -/
def Instr.wf (i : Instr) : Bool :=
  if i.isKernel then kernelOk i
  else match i with
    | .exts _ _ pos w => fieldFits pos w
    | .extz _ _ pos w => fieldFits pos w
    | .insf _ _ pos w => fieldFits pos w
    | .famo _ _ _ op rm _ _ reord => famoOk op rm reord
    | .illegalInstruction w reserved => illegalOk w reserved
    | _ => true

end Sys2Proof
end

