-- ==== Sys2Proof/Certificates/Slice0/Obligations.lean ====
section
/-! DEFINITION. The statements for the provers. -/

open Sys2Proof Sys2Proof.Machine

/-! ### Reset, invariants, stepping -/

/-- Reset leaves every core, partition, queue and slot as the manual's reset columns give them. -/
def Obligations.ResetState : Prop :=
  (∀ c k, (State.reset.ctx ⟨c, k⟩).state = .empty) ∧
  (∀ c h, (State.reset.entry c h).state = .free) ∧
  (∀ c g, vget (State.reset.core c).guards g = .free) ∧
  (∀ c n, State.reset.counter c n = ⟨0, 0, false, false, false⟩) ∧
  (∀ c b, vget (State.reset.core c).bregs b = 0) ∧
  (∀ c q, (State.reset.queue c q).state = .closed) ∧
  (∀ c, (State.reset.core c).vec.rows = 16 ∧ (State.reset.core c).vec.cols = 512 ∧ (State.reset.core c).vec.wb = 0 ∧
    (State.reset.core c).vec.lc = #v[0, 0, 0] ∧ ∀ p, vget (State.reset.core c).vec.p p = BitVec.allOnes 32768) ∧
  (∀ p, (State.reset.part p).state = .empty ∧ (State.reset.part p).clmask = 0 ∧ (State.reset.part p).cwin = 0 ∧
    (State.reset.part p).grp = 0 ∧ (State.reset.part p).rslot = 0 ∧ (State.reset.part p).lostarr = 0 ∧
    (State.reset.part p).istat = 0 ∧ (State.reset.part p).ignored = 0 ∧ (State.reset.part p).qos = 0x101#64) ∧
  (∀ q, (State.reset.cmdQueue q).state = .stopped ∧ (State.reset.cmdQueue q).en = false ∧
    (State.reset.cmdQueue q).size = 4 ∧ (State.reset.cmdQueue q).head = 0 ∧ (State.reset.cmdQueue q).tail = 0) ∧
  (∀ n, (State.reset.slot n).opened = false)

/-- The memories are canonical at reset. -/
def Obligations.ResetCanonical : Prop := State.reset.Canonical

/-- Every step keeps the memories canonical. -/
def Obligations.StepKeepsCanonical : Prop := ∀ s t : State, s.Canonical → step s = .next t → t.Canonical

/-- A step executes the instruction that the picked act gives: for a docent, the one that the word fetched at the program
counter decodes to (or the trap of a word that is none), and nothing while the fence after an atomic is not complete (the
model's reading of R135, logs 64 and 66); for a vector engine, the word its kernel holds next; for another
engine, its task's record; for an event, the event itself. -/
def Obligations.StepRunsDecoded : Prop :=
  (∀ (s f : State) (i : Instr), s.deviceFailed = false → s.pick.1.instrOf s.pick.2 = (f, some i) →
    step s = match exec i f with
      | .next t => .next (t.afterStep s.pick.2)
      | .fault e => .fault e
      | .refused r => .refused r) ∧
  (∀ (s f : State) (c : CoreId) (w w' : Word32) (i : Instr), s.halted (.unit (.docent c)) = false →
    let q : State := { s with focus := c }
    (q.ctx q.me).state = .running → q.fenced q.me = false →
    (q.setCtx q.me { q.ctx q.me with ranAt := q.now }).fetch q.me (q.ctx q.me).pc = (f, .ok (w, w')) →
    let g : State := { f with second := w' }
    (decodeDocent w = .ok i → s.instrOf (.unit (.docent c)) = (g, some i)) ∧
    (decodeDocent w = .undefined → s.instrOf (.unit (.docent c)) = (g, some (.illegalInstruction w false))) ∧
    (decodeDocent w = .reserved → s.instrOf (.unit (.docent c)) = (g, some (.illegalInstruction w true)))) ∧
  (∀ (s : State) (c : CoreId), s.halted (.unit (.docent c)) = false →
    let q : State := { s with focus := c }
    (q.ctx q.me).state = .running → q.fenced q.me = true →
    s.instrOf (.unit (.docent c)) = (q.setCtx q.me { q.ctx q.me with ranAt := q.now }, none)) ∧
  (∀ (s : State) (c : CoreId) (w : Word), s.halted (.unit (.vector c)) = false → (s.core c).vec.task ≠ none →
    ({ s with focus := c } : State).waiting (.unit (.vector c)) = false →
    (({ s with focus := c } : State).vectorEntry c).causes.stops = false →
    ((s.core c).vec.loops.toList.any fun l => l.active && l.last + 1 == (s.core c).vec.next) = false →
    (s.core c).vec.kernel[(s.core c).vec.next]? = some w →
    s.instrOf (.unit (.vector c)) = ({ s with focus := c }, decodeKernel w)) ∧
  (∀ (s : State) (c : CoreId) (k : Kind) (h : Handle) (i : Instr), k = .matrix ∨ k = .transpose ∨ k = .copy →
    s.halted (.unit (unitOf c k)) = false → ({ s with focus := c } : State).waiting (.unit (unitOf c k)) = false →
    (s.engine c k).handle = some h → (s.entry c h).record k = some i →
    s.instrOf (.unit (unitOf c k)) = ({ s with focus := c }, some i)) ∧
  (∀ (s : State) (i : Instr) (a : Arg), s.halted (.event i a) = false → s.keepsFault (.event i a) = false →
    s.holdsLine (.event i a) = false →
    s.instrOf (.event i a) = ({ s with arg := a }, some i))

/-! ### Encodings -/

/-- A few words written out from the encoding tables, and what they are. -/
def Obligations.WordsDecode : Prop :=
  decodeDocent 0x4C22FFFD#32 = .ok (.bne 1 2 0xFFFD#16) ∧
  decodeDocent 0x47FFFFFE#32 = .ok (.bl 0x3FFFFFE#26) ∧
  decodeDocent 0xB48218A8#32 = .ok (.ldx 4 2 3 .w true 2#2) ∧
  decodeDocent 0xAFFEFFF0#32 = .ok (.stD 31 30 0xFFF0#16) ∧
  decodeDocent 0x90E30008#32 = .ok (.ldW 7 3 8#16) ∧
  decodeDocent 0xB9242814#32 = .ok (.amo 9 4 5 .add .d .die) ∧
  decodeDocent 0xBC46390E#32 = .ok (.famo 2 6 7 .add .rna .w .package true) ∧
  decodeDocent 0xFC000123#32 = .ok (.imx 0x123#26) ∧
  decodeDocent 0x28C04567#32 = .ok (.lil 6 0x4567#16) ∧
  decodeDocent 0x2CC000B0#32 = .ok (.lih 6 0x00B0#16) ∧
  decodeDocent 0x3C000000#32 = .undefined ∧
  decodeDocent 0x0022FFFF#32 = .undefined

/-- Every well-formed docent instruction is read back from its word, with every operand. -/
def Obligations.DocentRoundTrip : Prop :=
  ∀ (i : Instr) (w : Nat), i.wf = true → encodeDocent i = some w → w < 2 ^ 32 ∧ decodeDocent (BitVec.ofNat 32 w) = .ok i

/-- Every docent word that decodes is the word of the instruction it decodes to: no two words are one instruction, and no
bit of a word goes unread. -/
def Obligations.DocentDecodeExact : Prop :=
  ∀ (w : Word32) (i : Instr), decodeDocent w = .ok i → i.wf = true ∧ encodeDocent i = some w.toNat

/-- Every kernel word and every engine record is read back, with every field. Every command packet is read back: its
operation, and each operand. -/
def Obligations.OtherRoundTrips : Prop :=
  ((∀ (i : Instr) (w : Nat), encodeKernel i = some w → w < 2 ^ 64 ∧ decodeKernel (BitVec.ofNat 64 w) = some i) ∧
  (∀ (i : Instr) (w : Nat), encodeRecord i = some w → w < 2 ^ 512 ∧ decodeRecord w = some i)) ∧
  (∀ (i : Instr) (n : Nat) (c : Cmd), commandCode i = some n →
    decodeCommand (encodeCommand n c) = some i ∧ cmdOf c.q (encodeCommand n c) = c)

/-! ### Integer, immediate and branch instructions -/

/-- R113: the ALU group. Each word of form A with major 0x00 is its row of Table 4.1, which computes Xd from Xa and Xb and
goes on; CLZ, CTZ and POPC read Xa only, and their b must be zero. An instruction that names the destination of an
outstanding load stalls. -/
def Obligations.AluInstructions : Prop :=
  (∀ r ∈ aluTable, ∀ (s : State) (d a b : XReg),
    decodeDocent (BitVec.ofNat 32 (formA 0x00 d a b r.1)) = .ok (r.2.1 d a b) ∧
    (¬ s.acting.Awaits [d, a, b] →
      exec (r.2.1 d a b) s = .next (s.puts d (r.2.2 (s.acting.getX a) (s.acting.getX b)))) ∧
    (s.acting.Awaits [d, a, b] → exec (r.2.1 d a b) s = .next s)) ∧
  (∀ r ∈ countTable, ∀ (s : State) (d a b : XReg),
    decodeDocent (BitVec.ofNat 32 (formA 0x00 d a b r.1)) = (if b = 0 then .ok (r.2.1 d a) else .reserved) ∧
    (¬ s.acting.Awaits [d, a] →
      ∃ n, r.2.2 (s.acting.getX a) n ∧ exec (r.2.1 d a) s = .next (s.puts d (BitVec.ofNat 64 n))) ∧
    (s.acting.Awaits [d, a] → exec (r.2.1 d a) s = .next s))

/-- R114: SEL takes c from fn[10:6], and fn[5:0] must be zero; it sets Xd to Xa if Xc is not 0, else to Xb, all three read
before Xd is written. -/
def Obligations.SelInstruction : Prop :=
  ∀ (s : State) (d c a b : XReg) (low : BitVec 6),
    decodeDocent (BitVec.ofNat 32 (formA 0x01 d a b (64 * c.val + low.toNat)))
      = (if low = 0 then .ok (.sel d c a b) else .reserved) ∧
    (¬ s.acting.Awaits [d, c, a, b] → exec (.sel d c a b) s
      = .next (s.puts d (if s.acting.getX c ≠ 0 then s.acting.getX a else s.acting.getX b))) ∧
    (s.acting.Awaits [d, c, a, b] → exec (.sel d c a b) s = .next s)

/-- EXTS, EXTZ and INSF (R115): a field of width + 1 bits at pos, extended by sign or by zeros, or inserted with the other
bits of Xd kept; a word whose field passes bit 63 is reserved. -/
def Obligations.FieldInstructions : Prop :=
  ∀ (s : State) (d a : XReg) (pos width : BitVec 6),
    let x := s.acting.getX a
    let n := width.toNat + 1
    let field (i : Nat) : Bool := decide (i < n) && x.getLsbD (pos.toNat + i)
    (fieldFits pos width = false → ∀ m ∈ [0x0C, 0x0D, 0x0E],
      decodeDocent (BitVec.ofNat 32 (formI m d a (64 * pos.toNat + width.toNat))) = .reserved) ∧
    (fieldFits pos width = true → ¬ s.acting.Awaits [d, a] →
      (∃ v : Word, exec (.extz d a pos width) s = .next (s.puts d v) ∧ ∀ i < 64, v.getLsbD i = field i) ∧
      (∃ v : Word, exec (.exts d a pos width) s = .next (s.puts d v) ∧
        ∀ i < 64, v.getLsbD i = if i < n then field i else field (n - 1)) ∧
      ∃ v : Word, exec (.insf d a pos width) s = .next (s.puts d v) ∧
        ∀ i < 64, v.getLsbD i = if pos.toNat ≤ i ∧ i < pos.toNat + n then x.getLsbD (i - pos.toNat)
          else (s.acting.getX d).getLsbD i) ∧
    (s.acting.Awaits [d, a] → exec (.extz d a pos width) s = .next s ∧ exec (.exts d a pos width) s = .next s ∧
      exec (.insf d a pos width) s = .next s)

/-- The immediate forms without a prefix (R116, Table 4.2). -/
def Obligations.ImmediateInstructions : Prop :=
  (∀ r ∈ immTable, ∀ (s : State) (d a : XReg) (imm : BitVec 16),
    (¬ s.acting.Awaits [d, a] → exec (r.2.1 d a imm) s = .next (s.puts d (r.2.2 (s.acting.getX a) imm))) ∧
    (s.acting.Awaits [d, a] → exec (r.2.1 d a imm) s = .next s)) ∧
  (∀ r ∈ shiftTable, ∀ (s : State) (d a : XReg) (sh : BitVec 6),
    (¬ s.acting.Awaits [d, a] → exec (r.2.1 d a sh) s = .next (s.puts d (r.2.2 (s.acting.getX a) sh))) ∧
    (s.acting.Awaits [d, a] → exec (r.2.1 d a sh) s = .next s)) ∧
  (∀ (s : State) (d : XReg) (imm : BitVec 16),
    (¬ s.acting.Awaits [d] →
      exec (.lil d imm) s = .next (s.puts d (BitVec.ofInt 64 imm.toInt)) ∧
      exec (.lih d imm) s
        = .next (s.puts d (BitVec.ofNat 64 (imm.toNat * 2 ^ 42 + (s.acting.getX d).toNat % 2 ^ 42)))) ∧
    (s.acting.Awaits [d] → exec (.lil d imm) s = .next s ∧ exec (.lih d imm) s = .next s))

/-- Branches without a prefix (R117, Table 4.3): not taken, the context goes on at the next word; taken, at the address of
the branch plus four times its offset (or at Xa), with X30 written by BL and BLR after Xa is read; a misaligned target
traps with cause 0x04. -/
def Obligations.BranchInstructions : Prop :=
  (∀ r ∈ branchTable, ∀ (s : State) (a b : XReg) (off : BitVec 16),
    let target : Word := BitVec.ofInt 64 (s.acting.pc.toInt + 4 * off.toInt)
    ¬ s.acting.Awaits [a, b] →
      (r.2 (s.acting.getX a) (s.acting.getX b) = false → exec (r.1 a b off) s = .next s.onward) ∧
      (r.2 (s.acting.getX a) (s.acting.getX b) = true → target.toNat % 4 = 0 →
        exec (r.1 a b off) s = .next (s.becomes { s.acting with pc := target })) ∧
      (r.2 (s.acting.getX a) (s.acting.getX b) = true → target.toNat % 4 ≠ 0 →
        exec (r.1 a b off) s = .next (s.traps 0x04 target))) ∧
  (∀ r ∈ branchZTable, ∀ (s : State) (a : XReg) (off : BitVec 16),
    let target : Word := BitVec.ofInt 64 (s.acting.pc.toInt + 4 * off.toInt)
    ¬ s.acting.Awaits [a] →
      (r.2 (s.acting.getX a) = false → exec (r.1 a off) s = .next s.onward) ∧
      (r.2 (s.acting.getX a) = true → target.toNat % 4 = 0 →
        exec (r.1 a off) s = .next (s.becomes { s.acting with pc := target })) ∧
      (r.2 (s.acting.getX a) = true → target.toNat % 4 ≠ 0 → exec (r.1 a off) s = .next (s.traps 0x04 target))) ∧
  (∀ (s : State) (off : BitVec 26), s.acting.pc.toNat % 4 = 0 →
    let target : Word := BitVec.ofInt 64 (s.acting.pc.toInt + 4 * off.toInt)
    exec (.b off) s = .next (s.becomes { s.acting with pc := target }) ∧
    (¬ s.acting.Awaits [30] →
      exec (.bl off) s = .next (s.becomes { s.acting.setX 30 (s.acting.pc + 4) with pc := target }))) ∧
  (∀ (s : State) (a : XReg),
    let target : Word := s.acting.getX a
    (¬ s.acting.Awaits [a] → target.toNat % 4 = 0 → exec (.br a) s = .next (s.becomes { s.acting with pc := target })) ∧
    (¬ s.acting.Awaits [a] → target.toNat % 4 ≠ 0 → exec (.br a) s = .next (s.traps 0x04 target)) ∧
    (¬ s.acting.Awaits [a, 30] → target.toNat % 4 = 0 →
      exec (.blr a) s = .next (s.becomes { s.acting.setX 30 (s.acting.pc + 4) with pc := target })) ∧
    (¬ s.acting.Awaits [a, 30] → target.toNat % 4 ≠ 0 → exec (.blr a) s = .next (s.traps 0x04 target)))

/-- What a register-only docent instruction may change: the general registers it names as destinations, the staging
registers, the class, and the program counter of the acting context; nothing else of the machine. -/
def Obligations.RegisterFrame : Prop :=
  ∀ (i : Instr) (s t : State), i.registerOnly = true → exec i s = .next t →
    ∃ x : Context, t = s.becomes x ∧
      (∀ r, some r ≠ i.destination → x.getX r = s.acting.getX r) ∧
      x = { s.acting with x := x.x, pc := x.pc, staging := x.staging, pclass := x.pclass, pused := x.pused }

/-- A docent instruction that only issues, computes or transfers control leaves every byte of memory as it was: stores are
made later, at their homes (R122). -/
def Obligations.IssueLeavesMemory : Prop :=
  ∀ (i : Instr) (s t : State), i.storesNothing = true → exec i s = .next t →
    ∀ a, Memory.byte t.mem a = Memory.byte s.mem a

/-! ### Loads, stores and atomics -/

/-- Loads issue (R118, R121, R123, Table 4.4): LD of each size and LDX stall on an outstanding load, and on an unfinished
fence of an atomic (R135; that it holds a load back is the model's reading, logs 64 and 66); a failing check of Table 4.5
traps; else the load is outstanding with its address, size and extension, and is due at its home. -/
def Obligations.LoadsIssue : Prop :=
  (∀ r ∈ loadTable, ∀ (s : State) (d a : XReg) (imm : BitVec 16),
    s.IssuesLoad (exec (r.1 d a imm) s) s.acting.issue d (BitVec.ofInt 64 ((s.acting.getX a).toInt + imm.toInt))
      r.2.1 r.2.2) ∧
  (∀ (s : State) (d a b : XReg) (z : Size) (nat : Bool) (sc : BitVec 2),
    s.IssuesLoad (exec (.ldx d a b z nat sc) s) s.acting.issue d
      (BitVec.ofNat 64 ((s.acting.getX a).toNat + (s.acting.getX b).toNat * 2 ^ sc.toNat)) z nat)

/-- A load at its home, and its reply (R118, R121, R122, R124): the bytes read there, with the context's own stores that
precede it and are still queued laid over them, are its value, and stores that waited for it go on; the reply writes the
value to the destination by sign or by zeros, and the load is no longer outstanding; after an atomic of a wider scope a
fence of that scope is complete (R135). A reply to no outstanding load changes nothing. -/
def Obligations.LoadsReturn : Prop :=
  (∀ (s t : State) (u : CtxRef) (l : PendingLoad) (b : List Byte), (s.ctx u).load = some l → l.op = .load →
    l.homed = false → (∀ dev, s.target l.addr ≠ .remote dev) →
    let own := s.overlaps u l.addr l.size.bytes ((s.ctx u).stores.take l.before)
    (((s.ctx u).stores.take l.before).all fun w => w.amo.isNone || s.side w.addr != s.side l.addr) = true →
    (own.all fun w => w.1.amo.isNone) = true →
    s.readVa { s.docentAgent u (.load u l.seq) with sup := l.level == .s } l.addr l.size.bytes = (t, .ok b) →
    exec (.homeAccess (.load u l.seq)) s
      = .next (((t.setCtx u { t.ctx u with load := some { l with homed := true } }).event (.loadReply u l.seq
          (BitVec.ofNat 64 (ofBytes (overlay b own))))).storesGo u)) ∧
  (∀ (s : State) (u : CtxRef) (l : PendingLoad) (v : Word), (s.ctx u).load = some l → l.homed = true →
    (∀ c, l.op ≠ .failed c) → (l.scope = .fabric → (s.ctx u).written = []) →
    let x : Context := { (s.ctx u).setX l.dest (loadedValue l.size l.nat v.toNat) with load := none }
    let r : State := { s with requests := s.requests.filter fun r => r.who != Waiter.load u l.seq }.setCtx u x
    let t : State := if l.scope = .core then r else r.fenceDone u l.scope
    exec (.loadReply u l.seq v) s = .next (if (s.ctx u).state = .parked ∧ (s.ctx u).park = .load then t.ready u else t)) ∧
  (∀ (s : State) (u : CtxRef) (n : Nat) (v : Word), (∀ l, (s.ctx u).load = some l → l.seq ≠ n) →
    exec (.loadReply u n v) s = .next s)

/-- Stores issue (R118, R122, R129): ST of each size, STLOC and STX stall while the queue of 16 is full, and on an unfinished
fence of an atomic (R135; logs 64 and 66); a failing check of Table 4.5 traps; else the store joins the queue with its
address, size and the data register's value, and a device that it goes to is one that the context has written. -/
def Obligations.StoresIssue : Prop :=
  (∀ r ∈ storeTable, ∀ (s : State) (a b : XReg) (imm : BitVec 16),
    s.IssuesStore (exec (r.1 a b imm) s) s.acting.issue [a, b]
      (BitVec.ofInt 64 ((s.acting.getX a).toInt + imm.toInt)) (s.acting.getX b) r.2 false) ∧
  (∀ (s : State) (a b : XReg) (imm : BitVec 16),
    s.IssuesStore (exec (.stloc a b imm) s) s.acting.issue [a, b]
      (BitVec.ofInt 64 ((s.acting.getX a).toInt + imm.toInt)) (s.acting.getX b) .d true) ∧
  (∀ (s : State) (d a b : XReg) (z : Size) (sc : BitVec 2),
    s.IssuesStore (exec (.stx d a b z sc) s) s.acting.issue [d, a, b]
      (BitVec.ofNat 64 ((s.acting.getX a).toNat + (s.acting.getX b).toNat * 2 ^ sc.toNat)) (s.acting.getX d) z false)

/-- The oldest queued store is performed at its home (R120, R122): its bytes stand at its location, but for those that a
write which happens after it has written (R316), and it leaves the queue; it waits for a load that precedes it on its side
and whose value is not fixed (R310). A store of a replicated page that reaches only some of its copies stays queued until
the others are written (R378). Whatever becomes of it, no byte of memory outside the copies that are reached changes (R330,
R378). A queued AMOI, and an atomic that its task left behind at DONE (log 65), reads its word and writes what Table 4.6,
R133 and R134 give. A store to another device leaves as a request on the plane of R346, and leaves its queue once it has
left; where no plane reaches the device it fails with cause 0x05. The moment at which a store takes its place in the order of
R316 (`leaves`, as it goes from its queue to its home), and that a later write's bytes are kept (`followsAt`), are the
model's reading (log 81); that every FAMO in mode RSR counts as a rounding of its task is the model's choice (log 85). -/
def Obligations.StoresPerform : Prop :=
  (∀ (s t : State) (u : CtxRef) (w : StoreReq) (r : List StoreReq) (k : Nat), (s.ctx u).stores = w :: r →
    s.waiting (.store u) = false → s.heldByLoad u (s.side w.addr) 0 = false → w.amo = none → w.ret = none →
    w.parted = false → (∀ dev, s.target w.addr ≠ .remote dev) →
    let ag := s.storeAgent u w
    let l := s.leaves u w
    (if w.loc then l.1.locateWrite ag w.addr .own = (t, .ok [k]) else l.1.locateAll ag w.addr = (t, .ok ([k], []))) →
    t.moving k = false → (isHostKey k = false → (t.verify (k / 64)).2 = true) →
    (∀ i < w.size.bytes, w.loc = true ∧ s.replicated ag w.addr = true ∨ t.followsAt l.2 (k + i) = true) →
    ∃ q : State, exec (.storePerformed u) s = .next (q.storeDone u w) ∧
      (∀ i < w.size.bytes, Memory.byte q.mem (k + i) = BitVec.ofNat 8 (w.data.toNat / 256 ^ i)) ∧
      q.ctx u = t.ctx u) ∧
  (∀ (s t : State) (u : CtxRef) (w : StoreReq) (r : List StoreReq), (s.ctx u).stores = w :: r →
    exec (.storePerformed u) s = .next t →
    ∀ a, (∀ k ∈ s.storePlaces u w, a < k ∨ k + w.size.bytes ≤ a) → Memory.byte t.mem a = Memory.byte s.mem a) ∧
  (∀ (s : State) (u : CtxRef) (w : StoreReq) (r : List StoreReq), (s.ctx u).stores = w :: r →
    (s.heldByLoad u (s.side w.addr) 0 = true → exec (.storePerformed u) s = .next s) ∧
    (s.waiting (.store u) = true → exec (.storePerformed u) s = .next s) ∧
    (s.heldByLoad u (s.side w.addr) 0 = false → s.waiting (.store u) = false → w.parted = true →
      exec (.storePerformed u) s = .next (s.storeDone u w))) ∧
  (∀ (s t : State) (u : CtxRef) (w : StoreReq) (r : List StoreReq) (ks : List Nat) (left : List DieNum),
    (s.ctx u).stores = w :: r → s.waiting (.store u) = false → s.heldByLoad u (s.side w.addr) 0 = false →
    w.amo = none → w.ret = none → w.parted = false → w.loc = false → (∀ dev, s.target w.addr ≠ .remote dev) →
    let l := s.leaves u w
    l.1.locateAll (s.storeAgent u w) w.addr = (t, .ok (ks, left)) → ks.find? t.moving = none →
    (t.verifyAll ks).2 = true → left ≠ [] → ∃ q : State, exec (.storePerformed u) s = .next q ∧
      ∃ x : StoreReq, (q.ctx u).stores = x :: r ∧ x.parted = true ∧ x.mark = some l.2) ∧
  (∀ (s : State) (u : CtxRef), (s.ctx u).stores = [] → exec (.storePerformed u) s = .next s) ∧
  (∀ (s : State) (u : CtxRef) (w : StoreReq) (r : List StoreReq) (dev : DevNum), (s.ctx u).stores = w :: r →
    s.waiting (.store u) = false → s.heldByLoad u (s.side w.addr) 0 = false → w.parted = false →
    s.target w.addr = .remote dev →
    let z : ASize := if w.size.bytes = 4 then .w else .d
    let part := s.partOf u.core
    ((∃ q ∈ s.requests, q.who = .store u) → exec (.storePerformed u) s = .next (s.storeDone u w)) ∧
    ((∀ q ∈ s.requests, q.who ≠ .store u) →
      (s.planeFor dev (docentStart dev u) = none → exec (.storePerformed u) s = .next (s.storeFails u w 0x05)) ∧
      ∀ p, s.planeFor dev (docentStart dev u) = some p → ∃ f : BitVec 32 → Out,
        exec (.storePerformed u) s = .next ((s.request dev p (.store u) f).event (.storePerformed u)) ∧ ∀ q,
          (w.amo = none → w.ret = none → f q = .write dev p q part w.addr (bytesOf w.size.bytes w.data.toNat) []) ∧
          (∀ op, w.amo = some op → f q = .atomic dev p q part w.addr (some op) z w.data 0) ∧
          (∀ op v, w.amo = none → w.ret = some (.amo op v) → f q = .atomic dev p q part w.addr (some op) z v 0) ∧
          ∀ x v, w.amo = none → w.ret = some (.cas x v) → f q = .atomic dev p q part w.addr none z v x)) ∧
  (∀ (s s1 s2 s3 : State) (u : CtxRef) (w : StoreReq) (r : List StoreReq) (k : Nat) (l : List Byte) (x : Option Nat),
    (s.ctx u).stores = w :: r → s.waiting (.store u) = false → s.heldByLoad u (s.side w.addr) 0 = false →
    w.amo ≠ none ∨ w.ret ≠ none → w.parted = false → (∀ dev, s.target w.addr ≠ .remote dev) →
    let ag := s.storeAgent u w
    let n := w.size.bytes
    s.locateWrite ag w.addr .never = (s1, .ok [k]) → s1.moving k = false → s1.readKey k n = (s2, .ok l) →
    (s2.readsFrom ag.die k n).storeValue u w n (ofBytes l) = (s3, x) →
    ∃ q : State, exec (.storePerformed u) s = .next (q.storeDone u w) ∧ (x = none → q = s3) ∧
      ∀ v, x = some v → s3.moving k = false → (isHostKey k = false → (s3.verify (k / 64)).2 = true) →
        (let c := (s3.verifyAll [k]).1.advanceClock ag.die
         ∀ i < n, c.followsAt (c.markOf ag.die) (k + i) = true) →
        ∀ i < n, Memory.byte q.mem (k + i) = BitVec.ofNat 8 (v / 256 ^ i)) ∧
  (∀ (s : State) (u : CtxRef) (w : StoreReq) (n old : Nat),
    let g : Fl := if n = 4 then .f32 else .f64
    (∀ op, w.amo = some op → s.storeValue u w n old = (s, some (amoResult op (8 * n) old w.data.toNat))) ∧
    (∀ op v, w.amo = none → w.ret = some (.amo op v) →
      s.storeValue u w n old = (s, some (amoResult op (8 * n) old v.toNat))) ∧
    (∀ x v, w.amo = none → w.ret = some (.cas x v) → s.storeValue u w n old
      = (s, if old = x.toNat % 2 ^ (8 * n) then some (v.toNat % 2 ^ (8 * n)) else none)) ∧
    (∀ op rm v b, w.amo = none → w.ret = some (.famo op rm v b) → ∃ (t : State) (draw : Nat),
      (rm ≠ .rsr → t = s) ∧ (rm = .rsr → (t, draw) = s.otherDraw u.core w.handle) ∧
      let k := famoResult op rm g draw old v.toNat
      s.storeValue u w n old = (t.raiseTask u.core w.handle k.flags, some k.code)))

/-- LDT and STT (R130, R131): a location that fails check 1, 2 or 3 traps with cause 0x05, 0x04 or 0x05, in this order, and a
line that does not verify with cause 0x0B, each with EVAL 2^63 + ((Xa × 2048 + Xb) mod 2^63); a location outside the task's
regions is suppressed; inside them, LDT reads its own row or its shadow's and STT stores there at once, once the context's
earlier accesses to its device have their effect (R310). -/
def Obligations.TileAccess : Prop :=
  (∀ (s : State) (d a b : XReg) (z : Size) (nat : Bool), s.acting.load = none → s.fenced s.me = false →
    s.amoiQueued s.me 0 = false → s.tileFault (s.acting.getX a) (s.acting.getX b) z = none →
    let e := s.entry s.focus s.acting.task
    let row := e.tileRow false (s.acting.getX a).toNat (s.acting.getX b).toNat z.bytes
    (row = none → exec (.ldt d a b z nat) s
      = .next (s.becomes { s.acting.setX d 0 with suppressed := true, pc := s.acting.pc + 4 })) ∧
    (∀ r v l, row = some r → s.readKey (tileKey s.focus r (s.acting.getX b).toNat) z.bytes = (v, .ok l) →
      exec (.ldt d a b z nat) s
        = .next (v.retire s.acting.issue fun x => x.setX d (loadedValue z nat (ofBytes l))))) ∧
  (∀ (s : State) (d a b : XReg) (z : Size), ¬ s.acting.Awaits [d, a, b] → s.fenced s.me = false →
    (∀ w ∈ s.acting.stores, s.side w.addr ≠ 0) → s.heldByLoad s.me 0 s.acting.stores.length = false →
    s.tileFault (s.acting.getX a) (s.acting.getX b) z = none →
    let e := s.entry s.focus s.acting.task
    let row := e.tileRow true (s.acting.getX a).toNat (s.acting.getX b).toNat z.bytes
    (row = none → exec (.stt d a b z) s
      = .next (s.becomes { s.acting with suppressed := true, pc := s.acting.pc + 4 })) ∧
    (∀ r, row = some r →
      let k := tileKey s.focus r (s.acting.getX b).toNat
      (s.verify (k / 64)).2 = true → exec (.stt d a b z) s
        = .next (((s.verify (k / 64)).1.storeBy (dieOf s.focus) k (bytesOf z.bytes (s.acting.getX d).toNat) false).retire
            s.acting.issue id))) ∧
  (∀ (s : State) (row col : Word) (z : Size),
    s.tileFault row col z = none ↔ row.toNat ≤ 3071 ∧ col.toNat + z.bytes ≤ 2048 ∧ col.toNat % z.bytes = 0 ∧
      row.toNat < s.annexRow (s.partOf s.focus)) ∧
  (∀ (s : State) (row col : Word) (z : Size),
    (3071 < row.toNat ∨ 2048 < col.toNat + z.bytes → s.tileFault row col z = some 0x05) ∧
    (row.toNat ≤ 3071 → col.toNat + z.bytes ≤ 2048 →
      (col.toNat % z.bytes ≠ 0 → s.tileFault row col z = some 0x04) ∧
      (col.toNat % z.bytes = 0 → s.annexRow (s.partOf s.focus) ≤ row.toNat → s.tileFault row col z = some 0x05))) ∧
  (∀ (s : State) (d a b : XReg) (z : Size),
    let row := (s.acting.getX a).toNat
    let col := (s.acting.getX b).toNat
    let eval : Word := BitVec.ofNat 64 (2 ^ 63 + (row * 2048 + col) % 2 ^ 63)
    let e := s.entry s.focus s.acting.task
    let loads : Prop := s.acting.load = none ∧ s.fenced s.me = false ∧ s.amoiQueued s.me 0 = false
    let stores : Prop := ¬ s.acting.Awaits [d, a, b] ∧ s.fenced s.me = false ∧
      (∀ w ∈ s.acting.stores, s.side w.addr ≠ 0) ∧ s.heldByLoad s.me 0 s.acting.stores.length = false
    (∀ c, s.tileFault (s.acting.getX a) (s.acting.getX b) z = some c →
      (loads → ∀ nat, exec (.ldt d a b z nat) s = .next (s.traps c eval)) ∧
      (stores → exec (.stt d a b z) s = .next (s.traps c eval))) ∧
    (s.tileFault (s.acting.getX a) (s.acting.getX b) z = none → ∀ r,
      (∀ (v : State) (g : Got (List Byte)), loads → e.tileRow false row col z.bytes = some r →
        s.readKey (tileKey s.focus r col) z.bytes = (v, g) → (∀ l, g ≠ .ok l) → ∀ nat,
        exec (.ldt d a b z nat) s = .next (v.takeTrap s.me 0x0B eval s.acting.pc)) ∧
      (∀ v : State, stores → e.tileRow true row col z.bytes = some r →
        s.verify (tileKey s.focus r col / 64) = (v, false) →
        exec (.stt d a b z) s = .next (v.takeTrap s.me 0x0B eval s.acting.pc))))

/-- Atomics issue as loads do, and AMOI as a store does (R121, R132-R134): AMO, CAS and FAMO stall on an outstanding load,
AMOI on a full queue, and each on an unfinished fence of an earlier atomic (logs 64 and 66); a failing check of Table 4.5
traps; one of a wider scope than core first waits as FENCE of its scope does and takes its place in fence order (R135), and
then is outstanding or queued with its scope. What atomics write (Table 4.6, R133): on a word of `w` bits, the sum wrapped,
the bitwise operations, the lesser and greater by sign and natural, the new value; compare-and-swap writes only where the old
value is the compared one. -/
def Obligations.Atomics : Prop :=
  (∀ (s : State) (d a b : XReg) (z : ASize) (sc : Scope),
    let va : Word := s.acting.getX a
    (s.acting.load ≠ none ∨ s.fenced s.me = true → exec (.cas d a b z sc) s = .next s ∧
      (∀ op, exec (.amo d a b op z sc) s = .next s) ∧ ∀ op rm r, exec (.famo d a b op rm z sc r) s = .next s) ∧
    (s.fenced s.me = true ∨ 16 ≤ s.acting.stores.length → ∀ op, exec (.amoi a b op z sc) s = .next s) ∧
    (s.acting.load = none → s.fenced s.me = false → ∀ c,
      (s.accessFault s.me .atomic va z.size.bytes true = some c → exec (.cas d a b z sc) s = .next (s.traps c va) ∧
        (∀ op, exec (.amo d a b op z sc) s = .next (s.traps c va)) ∧
        (s.acting.stores.length < 16 → ∀ op, exec (.amoi a b op z sc) s = .next (s.traps c va))) ∧
      (s.accessFault s.me .own va z.size.bytes true = some c → ∀ op rm r,
        exec (.famo d a b op rm z sc r) s = .next (s.traps c va))) ∧
    (s.acting.load = none → s.fenced s.me = false → sc ≠ .core → s.acting.stores.length < 16 →
      (s.fenceStep s.me sc).2 = false →
      (s.accessFault s.me .atomic va z.size.bytes true = none →
        (∀ op, exec (.amo d a b op z sc) s = exec (.fence sc) s ∧ exec (.amoi a b op z sc) s = exec (.fence sc) s) ∧
        exec (.cas d a b z sc) s = exec (.fence sc) s) ∧
      (s.accessFault s.me .own va z.size.bytes true = none → ∀ op rm r,
        exec (.famo d a b op rm z sc r) s = exec (.fence sc) s)) ∧
    (s.acting.load = none → s.fenced s.me = false → (∀ dev, s.target va ≠ .remote dev) →
      (sc ≠ .core → s.storesLeft s.me sc = false ∧ s.faultDue s.me = false) →
      (sc = .fabric → s.acting.fencing = false ∧ s.acting.written = []) →
      let f : State := if sc = .core then s else s.fenceDone s.me sc
      let goes (nat : Bool) (op : LoadOp) : State := (f.becomes { s.acting with
        load := some ⟨d, va, z.size, nat, op, s.acting.seq, s.acting.level, sc, s.acting.stores.length, false⟩
        seq := s.acting.seq + 1
        pc := s.acting.pc + 4 }).event (.homeAccess (.load s.me s.acting.seq))
      (s.accessFault s.me .atomic va z.size.bytes true = none →
        (∀ op, exec (.amo d a b op z sc) s = .next (goes (op == .minn || op == .maxn) (.amo op (s.acting.getX b)))) ∧
        exec (.cas d a b z sc) s = .next (goes false (.cas (s.acting.getX d) (s.acting.getX b))) ∧
        (s.acting.stores.length < 16 → ∀ op, exec (.amoi a b op z sc) s = .next ((f.becomes { s.acting with
          stores := s.acting.stores ++
            [⟨va, z.size, s.acting.getX b, some op, false, sc, s.acting.level, s.acting.task, s.acting.gen, none, false,
              none⟩]
          pc := s.acting.pc + 4 }).once (.event (.storePerformed s.me) .none)))) ∧
      (s.accessFault s.me .own va z.size.bytes true = none → ∀ op rm r,
        exec (.famo d a b op rm z sc r) s = .next (goes true (.famo op rm (s.acting.getX b) r))))) ∧
  ((∀ w m v : Nat, 0 < w → m < 2 ^ w → v < 2 ^ w →
    amoResult .add w m v = (m + v) % 2 ^ w ∧ amoResult .and w m v = m &&& v ∧ amoResult .or w m v = m ||| v ∧
    amoResult .xor w m v = m ^^^ v ∧ amoResult .swap w m v = v ∧ amoResult .minn w m v = min m v ∧
    amoResult .maxn w m v = max m v ∧
    signed w (amoResult .min w m v) = min (signed w m) (signed w v) ∧
    signed w (amoResult .max w m v) = max (signed w m) (signed w v)) ∧
  (∀ (s : State) (u : CtxRef) (c v : Word) (n old : Nat),
    s.atomicValue u (.cas c v) n old
      = (s, if old = c.toNat % 2 ^ (8 * n) then some (v.toNat % 2 ^ (8 * n)) else none)) ∧
  (∀ (s t : State) (u : CtxRef) (l : PendingLoad) (old : Nat), (s.ctx u).load = some l →
    l.op ≠ .load → l.op ≠ .postr → l.open_ = true → (∀ dev, s.target l.addr ≠ .remote dev) →
    (∀ w ∈ (s.ctx u).stores.take l.before, s.side w.addr ≠ s.side l.addr) →
    (∀ w ∈ s.overlaps u l.addr l.size.bytes ((s.ctx u).stores.take l.before), w.1.amo = none) →
    s.rmw { s.docentAgent u (.load u l.seq) with sup := l.level == .s } l.addr l.size.bytes
      (fun s old => s.atomicValue u l.op l.size.bytes old) = (t, .ok old) →
    exec (.homeAccess (.load u l.seq)) s = .next (t.loadHomed u l (BitVec.ofNat 64 old))))

/-- FENCE, TFENCE and NOTIFY (R127, R135, R138-R140, R144): a fence waits for the context's load and stores, for the fence
after an earlier atomic (that this is a fence of its own, which a later FENCE or NOTIFY waits for, is the model's reading of
R135: log 66), and for the delivery of a fault that is on its way; one that has nothing to wait for goes on, having taken
its place in fence order. At core, cluster and die scope a store that has been applied at its own die's copy of a replicated
page, and waits only for the copies of other dies, is waited for no longer (R318). FENCE.fabric of a context that has written other
devices sends a marker on each live plane of each of them, and then waits until every marker is answered (R139, R353). TFENCE
at level U traps with cause 0x09; at level S it drops the partition's translation copies in its scope. NOTIFY queues its store
after the fence. -/
def Obligations.Fences : Prop :=
  (∀ (s : State) (sc : Scope),
    (s.acting.load ≠ none ∨ s.storesLeft s.me sc = true ∨ s.acting.trailing = true ∨ s.faultDue s.me = true →
      exec (.fence sc) s = .next s) ∧
    (s.acting.load = none → s.storesLeft s.me sc = false → s.acting.trailing = false → s.faultDue s.me = false →
      (sc = .fabric → s.acting.fencing = false ∧ s.acting.written = []) →
      exec (.fence sc) s = .next (s.fenceDone s.me sc).onward)) ∧
  (∀ s : State, s.acting.load = none → s.storesLeft s.me .fabric = false → s.acting.trailing = false →
    s.faultDue s.me = false →
    (s.acting.fencing = false → s.acting.written ≠ [] → exec (.fence .fabric) s
      = .next (s.acting.written.foldl (fun q d => q.sendMarkers s.me d)
          (s.becomes { s.acting with fencing := true, fseq := s.acting.fseq + 1 }))) ∧
    (s.acting.fencing = true → s.acting.markers ≠ [] → exec (.fence .fabric) s = .next s) ∧
    (s.acting.fencing = true → s.acting.markers = [] → exec (.fence .fabric) s
      = .next ((s.becomes { s.acting with fencing := false, written := [] }).fenceDone s.me .fabric).onward)) ∧
  (∀ (s : State) (u : CtxRef) (dev : DevNum),
    let t := s.sendMarkers u dev
    let ps := planeList (s.planes dev)
    let f := (s.ctx u).fseq
    let w : Word := BitVec.ofNat 64 (s.devId.toNat + 2 ^ 10 * u.core.val + 2 ^ 18 * u.ctx.val
      + 2 ^ 21 * (ps.length % 16) + 2 ^ 32 * f.toNat)
    (∀ p, p ∈ ps ↔ vget s.stations p = true ∧
      ∃ m, (s.live.find? fun x => x.1 == dev) = some (dev, m) ∧ m.getLsbD p.val = true) ∧
    (t.ctx u).markers = (s.ctx u).markers ++ ps.map (fun p => (dev, p)) ∧
    t.out = s.out ++ ps.zipIdx.map (fun x => .marker dev x.1 (s.reqSeq + BitVec.ofNat 32 x.2) (s.partOf u.core) w) ∧
    t.requests = s.requests ++ ps.zipIdx.map (fun x => ⟨s.reqSeq + BitVec.ofNat 32 x.2, dev, x.1, .marker u dev x.1 f⟩) ∧
    t.mem = s.mem) ∧
  (∀ (s : State) (u : CtxRef) (sc : Scope),
    ((s.ctx u).stores = [] → s.storesLeft u sc = false) ∧
    (2 ≤ (s.ctx u).stores.length → s.storesLeft u sc = true) ∧
    ∀ w : StoreReq, (s.ctx u).stores = [w] →
      (w.parted = false ∨ sc.wide = true → s.storesLeft u sc = true) ∧
      (w.parted = true → sc.wide = false → s.storesLeft u sc
        = s.partPending (s.partOf u.core) (dieOf u.core) (w.addr.toNat % 2 ^ 45 / 65536))) ∧
  (∀ (s : State) (sc : Scope), s.acting.load = none →
    (s.acting.level = .u → exec (.tfence sc) s = .next (s.traps 0x09 (wordEval (.tfence sc)))) ∧
    (s.acting.level = .s → s.storesLeft s.me sc = true → exec (.tfence sc) s = .next s) ∧
    (s.acting.level = .s → s.storesLeft s.me sc = false → exec (.tfence sc) s
      = .next ({ s with copies := s.copies.filter fun c =>
          !(c.part == s.partOf s.focus && c.within sc (dieOf s.focus)) }.onward))) ∧
  (∀ (s : State) (a b : XReg), s.acting.load = none → s.accessFault s.me .own (s.acting.getX a) 8 false = none →
    (s.acting.stores ≠ [] ∨ s.acting.trailing = true ∨ s.faultDue s.me = true → exec (.notify a b) s = .next s) ∧
    (s.acting.stores = [] → s.acting.trailing = false → s.faultDue s.me = false →
      ∃ f : State, f = s.fenceDone s.me .package ∧ exec (.notify a b) s = .next ((f.becomes { s.acting with
        stores := [⟨s.acting.getX a, .d, s.acting.getX b, none, false, .core, s.acting.level, s.acting.task, s.acting.gen,
          none, false, none⟩]
        pc := s.acting.pc + 4 }).once (.event (.storePerformed s.me) .none))))

/-- WAITA and its reply (R141, R142): a failing check of Table 4.5 traps. The word is tested at its home: where the masked
comparison holds the reply goes at once, else a wait entry is made, the oldest of a home that holds 32 being evicted with its
own reply; the context parks until its reply comes, and sets Xd to 0, or to 1 when its entry was evicted. A write to the word
that makes the comparison hold takes the entry away and sends its reply. A home that refuses the access traps. -/
def Obligations.WaitInstruction : Prop :=
  (∀ (s t : State) (d a b : XReg) (c : Cmp), s.acting.load = none → s.fenced s.me = false →
    s.accessFault s.me .own (s.acting.getX a) 8 false = none →
    s.overlaps s.me (s.acting.getX a) 8 s.acting.stores = [] → s.amoiQueued s.me (s.side (s.acting.getX a)) = false →
    s.waitTest s.me (s.acting.getX a) (s.acting.getX d) (s.acting.getX b) c (.retry s.me) = (t, .ok ()) →
    exec (.waita d a b c) s
      = .next (t.parkCtx s.me (.waita d (s.acting.getX a) (s.acting.getX d) (s.acting.getX b) c))) ∧
  (∀ (s : State) (d a b : XReg) (c : Cmp),
    let va := s.acting.getX a
    (s.acting.load ≠ none ∨ s.fenced s.me = true → exec (.waita d a b c) s = .next s) ∧
    (s.acting.load = none → s.fenced s.me = false →
      (∀ k, s.accessFault s.me .own va 8 false = some k → exec (.waita d a b c) s = .next (s.traps k va)) ∧
      (s.accessFault s.me .own va 8 false = none → s.overlaps s.me va 8 s.acting.stores = [] →
        s.amoiQueued s.me (s.side va) = false → ∀ t : State,
        let test := s.waitTest s.me va (s.acting.getX d) (s.acting.getX b) c (.retry s.me)
        (test = (t, .wait) → exec (.waita d a b c) s = .next (t.parkCtx s.me .load)) ∧
        (test = (t, .access) → exec (.waita d a b c) s = .next (t.takeTrap s.me 0x05 va (s.acting.pc + 4))) ∧
        (test = (t, .data) → exec (.waita d a b c) s = .next (t.takeTrap s.me 0x0B va (s.acting.pc + 4)))))) ∧
  (∀ (s s1 s2 : State) (u : CtxRef) (va m e : Word) (c : Cmp) (who : Requester) (k : Nat) (l : List Byte),
    s.locateRead (s.docentAgent u who) va = (s1, .ok k) → s1.readKey k 8 = (s2, .ok l) →
    let x := s2.readsFrom (dieOf u.core) k 8
    let n := (x.ctx u).seq
    let q := x.setCtx u { x.ctx u with seq := n + 1 }
    (waitHolds c m e (wordOf l) = true → s.waitTest u va m e c who = (q.event (.waitaReply u n false), .ok ())) ∧
    (waitHolds c m e (wordOf l) = false → s.waitTest u va m e c who
      = (q.enterWait ⟨q.waitHome (s.docentAgent u who) va, k, va, m, e, c, u, n⟩, .ok ()))) ∧
  (∀ (s : State) (e : WaitEntry),
    let mine := s.waits.filter fun w => w.home == e.home
    (mine.length < 32 → s.enterWait e = { s with waits := s.waits ++ [e] }) ∧
    ∀ (o : WaitEntry) (r : List WaitEntry), mine = o :: r → 32 ≤ mine.length →
      s.enterWait e = { s with waits := s.waits.erase o ++ [e] }.event (.waitaReply o.who o.seq true)) ∧
  (∀ (s : State) (m : Mark) (k : Nat) (d : List Byte) (p : Put) (w : WaitEntry),
    let t := s.writeAs m [k] d p
    w ∈ s.waits →
    let hit : Prop := w.key < k + d.length ∧ k < w.key + 8 ∧
      waitHolds w.c w.mask w.expected (wordOf (Memory.read t.mem w.key 8)) = true
    (hit → w ∉ t.waits ∧ .event (.waitaReply w.who w.seq false) .none ∈ t.agenda) ∧ (¬ hit → w ∈ t.waits)) ∧
  (∀ (s : State) (u : CtxRef) (d : XReg) (va m e : Word) (c : Cmp) (n : Nat) (ev : Bool),
    (s.ctx u).park = .waita d va m e c → (s.ctx u).state = .parked → (s.ctx u).seq = n + 1 →
    exec (.waitaReply u n ev) s
      = .next ((s.setCtx u { (s.ctx u).setX d (if ev then 1 else 0) with pc := (s.ctx u).pc + 4 }).ready u)) ∧
  (∀ (s t : State) (u : CtxRef) (d : XReg) (va m e : Word) (c : Cmp) (n : Nat),
    (s.ctx u).park = .waita d va m e c → (s.ctx u).state = .parked → (s.ctx u).seq = n →
    s.waitTest u va m e c (.waita u n) = (t, .ok ()) → exec (.homeAccess (.waita u n)) s = .next t) ∧
  (∀ c mask expected v, waitHolds c mask expected v = match c with
    | .eq => decide (v &&& mask = expected &&& mask)
    | .ne => decide (v &&& mask ≠ expected &&& mask)
    | .lt => decide ((v &&& mask).toInt < (expected &&& mask).toInt)
    | .ge => decide ((expected &&& mask).toInt ≤ (v &&& mask).toInt)
    | .ltn => decide ((v &&& mask).toNat < (expected &&& mask).toNat)
    | .gen => decide ((expected &&& mask).toNat ≤ (v &&& mask).toNat))

/-! ### System instructions -/

/-- R146: NOP has no effect but to go on; TRAP traps with cause 0x10 and BRK with cause 0x0A, each with EPC the address of
the instruction and EVAL 0, and ERET to that EPC stands at the instruction again. -/
def Obligations.NopTrapBrk : Prop :=
  ∀ s : State, exec .nop s = .next s.onward ∧
    exec .trap s = .next (s.takeTrap s.me 0x10 0 s.acting.pc) ∧
    exec .brk s = .next (s.takeTrap s.me 0x0A 0 s.acting.pc) ∧
    ∀ cause ∈ [0x10#8, 0x0A#8], s.acting.tvec ≠ 0 → s.acting.state = .running →
      let t := s.takeTrap s.me cause 0 s.acting.pc
      t.acting.epc = s.acting.pc ∧ t.acting.eval = 0 ∧ t.acting.ecause = cause ∧
      (s.acting.load = none → s.acting.pc.toNat % 4 = 0 →
        ∃ q : State, exec .eret t = .next q ∧ q.acting.pc = s.acting.pc ∧ q.acting.level = s.acting.level)

/-- R384: what taking a trap does to the registers of its context: EPC, ECAUSE and EVAL are written, PSTAT[1] takes the
level and the level becomes S, X31 and SSCR are exchanged when the level was U, and the program counter goes to TVEC;
every other register, the flags, the class, the task, the outstanding load and the queued stores stay. With TVEC = 0 the
task ends instead, and its context is EMPTY. -/
def Obligations.TrapEntry : Prop :=
  ∀ (s : State) (u : CtxRef) (cause : BitVec 8) (eval epc : Word),
    let x := s.ctx u
    let y := (s.takeTrap u cause eval epc).ctx u
    (x.tvec ≠ 0 →
      y.epc = epc ∧ y.ecause = cause ∧ y.eval = eval ∧ y.prev = x.level ∧ y.level = .s ∧ y.pc = x.tvec ∧
      (∀ r, r ≠ 31 → y.getX r = x.getX r) ∧
      (x.level = .u → y.getX 31 = x.sscr ∧ y.sscr = x.getX 31) ∧
      (x.level = .s → y.getX 31 = x.getX 31 ∧ y.sscr = x.sscr) ∧
      y.h = x.h ∧ y.tflags = x.tflags ∧ y.pclass = x.pclass ∧ y.handle = x.handle ∧ y.gen = x.gen ∧
      y.load = x.load ∧ y.stores = x.stores ∧ y.tvec = x.tvec ∧
      (x.state = .running → y.state = .running)) ∧
    (x.tvec = 0 → y.state = .empty ∧ y.load = none ∧ ((s.takeTrap u cause eval epc).entry u.core x.task).done = true)

/-- R147: ERET at level S sets the program counter to EPC, the level to PSTAT[1] and PSTAT[1] to U, exchanging X31 and SSCR
when it returns to level U (R384); from a misaligned EPC it makes none of these changes and traps with cause 0x04 and EVAL
the old EPC; it stalls on an outstanding load; at level U it traps with cause 0x09. -/
def Obligations.EretInstruction : Prop :=
  ∀ s : State,
    (s.acting.load ≠ none → exec .eret s = .next s) ∧
    (s.acting.load = none → s.acting.level = .u → exec .eret s = .next (s.traps 0x09 (wordEval .eret))) ∧
    (s.acting.load = none → s.acting.level = .s → s.acting.epc.toNat % 4 ≠ 0 →
      exec .eret s = .next (s.traps 0x04 s.acting.epc)) ∧
    (s.acting.load = none → s.acting.level = .s → s.acting.epc.toNat % 4 = 0 →
      exec .eret s = .next (s.becomes { s.acting with
        pc := s.acting.epc
        level := s.acting.prev
        prev := .u
        x := if s.acting.prev = .u then vset s.acting.x 31 s.acting.sscr else s.acting.x
        sscr := if s.acting.prev = .u then s.acting.getX 31 else s.acting.sscr }))

/-- A word that is no instruction traps with cause 0x02 where it is a reserved form of a defined one, else 0x01, with the
word in EVAL (R78, Table 1.7). -/
def Obligations.IllegalInstruction : Prop :=
  ∀ (s : State) (w : Word32),
    exec (.illegalInstruction w false) s = .next (s.traps 0x01 (BitVec.ofNat 64 w.toNat)) ∧
    exec (.illegalInstruction w true) s = .next (s.traps 0x02 (BitVec.ofNat 64 w.toNat))

/-- Turns, time and place (R14, R149, R151): YIELD moves the context past itself and to READY, and a turn of 256 cycles
ends while another context is READY, each with the docent's choice of the next context; where no other context of the
core is READY, YIELD leaves it RUNNING. TIME writes a device time not before the last
one, which is the device time from then on; TCOORD writes the task's coordinates. -/
def Obligations.TurnsAndTime : Prop :=
  (∀ s : State, exec .yield s
    = .next ((s.becomes { s.acting with pc := s.acting.pc + 4, state := .ready, readyAt := s.now }).select s.focus)) ∧
  (∀ (s : State) (c : CoreId),
    let u : CtxRef := ⟨c, (s.core c).cur⟩
    (s.ctx u).state = .running → 256 ≤ (s.core c).turn → (∃ j, (s.ctx ⟨c, j⟩).state = .ready) →
    exec (.turnExpiry c) s = .next ((s.setCtx u { s.ctx u with state := .ready, readyAt := s.now }).select c)) ∧
  (∀ s : State, (∀ j, j ≠ s.me.ctx → (s.ctx ⟨s.focus, j⟩).state ≠ .ready) → ∃ t, exec .yield s = .next t ∧
    t.me = s.me ∧ t.acting.state = .running ∧ t.acting.pc = s.acting.pc + 4) ∧
  (∀ (s : State) (d : XReg), ¬ s.acting.Awaits [d] →
    (∃ v : Word, s.time.toNat ≤ v.toNat ∧ exec (.time d) s = .next ({ s with free := s.free + 1, time := v }.puts d v)) ∧
    exec (.tcoord d) s = .next (s.puts d
      (BitVec.ofNat 64 ((vget (s.entry s.focus s.acting.task).image 0).toNat / 2 ^ 16))))

/-- DONE (R150): the context is EMPTY at once and its outstanding load is discarded; the task is done, with the sticky
flags of its context, and completes with UNDECLARED among its causes if an LDT or STT was suppressed (R131); the stores
that are still queued stay queued, and an atomic with return that has still to be performed is queued with them (R311; that
it is owed so is the model's reading, log 65). -/
def Obligations.DoneEndsTask : Prop :=
  ∀ s : State, ∃ t, exec .done s = .next t ∧ (t.ctx s.me).state = .empty ∧ (t.ctx s.me).load = none ∧
    (t.entry s.focus s.acting.task).done = true ∧ (t.entry s.focus s.acting.task).flags = s.acting.tflags ∧
    (s.acting.suppressed = true → (t.entry s.focus s.acting.task).causes.undeclared = true) ∧
    (∀ w ∈ s.acting.stores, w ∈ (t.ctx s.me).stores) ∧
    ((∀ l, s.acting.load = some l → l.open_ = true → l.op = .load ∨ l.op = .postr) →
      (t.ctx s.me).stores = s.acting.stores) ∧
    (∀ l, s.acting.load = some l → l.open_ = true → l.op ≠ .load → l.op ≠ .postr → ∃ w ∈ (t.ctx s.me).stores,
      w.ret = some l.op ∧ w.addr = l.addr ∧ w.size = l.size) ∧ t.mem = s.mem ∧ t.tags = s.tags

/-- Reads of system registers (R29, R30, Table 1.7): an unassigned number traps with cause 0x01 (at level U and above 0x106,
where R30 lists two cases, by the model's reading, log 51); a number from 0x100 on at level U traps with cause 0x09; else Xd
takes the register's value; cycles and time pass freely before they are read (log 5). Writes of system registers (R29, R30, R148,
Table 1.7): an unassigned number traps with cause 0x01; level U and read-only registers trap with cause 0x09, reserved bits
with cause 0x02; else the register takes the value, and nothing else changes. -/
def Obligations.SystemRegisters : Prop :=
  (∀ (s : State) (d : XReg), s.acting.load = none →
    (∀ r : BitVec 10, 0x00C < r.toNat ∧ r.toNat < 0x100 ∨ 0x106 < r.toNat →
      exec (.sysr d r) s = .next (s.traps 0x01 (wordEval (.sysr d r)))) ∧
    (s.acting.level = .u → ∀ r : BitVec 10, 0x100 ≤ r.toNat ∧ r.toNat ≤ 0x106 →
      exec (.sysr d r) s = .next (s.traps 0x09 (wordEval (.sysr d r)))) ∧
    exec (.sysr d 0x002) s = .next (s.puts d (BitVec.ofNat 64 (s.logical s.focus % 256))) ∧
    exec (.sysr d 0x003) s = .next (s.puts d (BitVec.ofNat 64 s.focus.val)) ∧
    exec (.sysr d 0x004) s = .next (s.puts d (s.devId.zeroExtend 64)) ∧
    exec (.sysr d 0x005) s = .next (s.puts d (BitVec.ofNat 64 (s.partOf s.focus).val)) ∧
    exec (.sysr d 0x006) s = .next (s.puts d (BitVec.ofNat 64 s.me.ctx.val)) ∧
    exec (.sysr d 0x008) s = .next (s.puts d (s.acting.tflags.zeroExtend 64)) ∧
    exec (.sysr d 0x009) s = .next (s.puts d (BitVec.ofNat 64 (s.classOf s.me))) ∧
    exec (.sysr d 0x00B) s = .next (s.puts d (BitVec.ofNat 64 (s.part (s.partOf s.focus)).annex)) ∧
    exec (.sysr d 0x00C) s
      = .next (s.puts d (BitVec.ofNat 64 (s.acting.handle.toNat + 256 * s.acting.gen.toNat))) ∧
    exec (.sysr d 0x007) s
      = .next (s.puts d (BitVec.ofNat 64 (((s.entry s.focus s.acting.task).word 0).toNat / 2 ^ 16))) ∧
    (∃ v : Word, exec (.sysr d 0x00A) s = .next (s.puts d v) ∧
      ∀ i < 4, v.toNat / 2 ^ (16 * i) % 2 ^ 16 = match (s.groupsOf s.focus)[i]? with
        | some g => g.val + 256
        | none => 0) ∧
    (∃ v : Word, exec (.sysr d 0x001) s = .next (({ s with free := s.free + 1 }.setCore s.focus
      { s.core s.focus with cycles := v }).puts d v)) ∧
    (∃ v : Word, s.time.toNat ≤ v.toNat ∧
      exec (.sysr d 0x000) s = .next ({ s with free := s.free + 1, time := v }.puts d v)) ∧
    (s.acting.level = .s →
      exec (.sysr d 0x100) s = .next (s.puts d
        ((if s.acting.level = .s then 1 else 0) + (if s.acting.prev = .s then 2 else 0))) ∧
      exec (.sysr d 0x101) s = .next (s.puts d s.acting.tvec) ∧
      exec (.sysr d 0x102) s = .next (s.puts d s.acting.epc) ∧
      exec (.sysr d 0x103) s = .next (s.puts d (s.acting.ecause.zeroExtend 64)) ∧
      exec (.sysr d 0x104) s = .next (s.puts d s.acting.eval) ∧
      exec (.sysr d 0x105) s = .next (s.puts d s.acting.sscr) ∧
      exec (.sysr d 0x106) s = .next (s.puts d (s.part (s.partOf s.focus)).vseed))) ∧
  (∀ (s : State) (d : XReg), s.acting.load = none →
    let v := s.acting.getX d
    let go (x : Context) : Host.Outcome State Fault Refusal := .next (s.becomes { x with pc := s.acting.pc + 4 })
    (∀ r : BitVec 10, 0x00C < r.toNat ∧ r.toNat < 0x100 ∨ 0x106 < r.toNat →
      exec (.sysw d r) s = .next (s.traps 0x01 (wordEval (.sysw d r)))) ∧
    (∀ r : BitVec 10, r.toNat ≤ 0x00C ∨ (0x100 ≤ r.toNat ∧ r.toNat ≤ 0x106) →
      s.acting.level = .u ∨ r.toNat ∉ [0x008, 0x100, 0x101, 0x102, 0x105, 0x106] →
      exec (.sysw d r) s = .next (s.traps 0x09 (wordEval (.sysw d r)))) ∧
    (s.acting.level = .s →
      (v.toNat < 32 → exec (.sysw d 0x008) s = go { s.acting with tflags := v.truncate 5 }) ∧
      (32 ≤ v.toNat → exec (.sysw d 0x008) s = .next (s.traps 0x02 (wordEval (.sysw d 0x008)))) ∧
      (v.toNat < 4 → exec (.sysw d 0x100) s = go { s.acting with
        level := if v.toNat % 2 = 1 then .s else .u
        prev := if v.toNat / 2 = 1 then .s else .u }) ∧
      (4 ≤ v.toNat → exec (.sysw d 0x100) s = .next (s.traps 0x02 (wordEval (.sysw d 0x100)))) ∧
      (v.toNat % 64 = 0 → exec (.sysw d 0x101) s = go { s.acting with tvec := v }) ∧
      (v.toNat % 64 ≠ 0 → exec (.sysw d 0x101) s = .next (s.traps 0x02 (wordEval (.sysw d 0x101)))) ∧
      exec (.sysw d 0x102) s = go { s.acting with epc := v } ∧
      exec (.sysw d 0x105) s = go { s.acting with sscr := v } ∧
      exec (.sysw d 0x106) s
        = .next ((s.setPart (s.partOf s.focus) { s.part (s.partOf s.focus) with vseed := v }).onward)))

/-! ### Tasks, guards, counters, groups -/

/-- The staging set and bound registers (R153, R161, Table 5.1): each word that is staged, and nothing else, changes. -/
def Obligations.StagingAndBounds : Prop :=
  (∀ (s : State) (w : Fin 32) (a : XReg), ¬ s.acting.Awaits [a] → exec (.tset w a) s = .next (s.becomes { s.acting with
    staging := vset s.acting.staging w (s.acting.getX a), pc := s.acting.pc + 4 })) ∧
  (∀ (s : State) (w : Fin 32) (imm : BitVec 16), exec (.tseti w imm) s = .next (s.becomes { s.acting with
    staging := vset s.acting.staging w (BitVec.ofInt 64 imm.toInt), pc := s.acting.pc + 4 })) ∧
  (∀ (s : State) (n : Fin 8) (a b : XReg), ¬ s.acting.Awaits [a, b] → ∃ g : Vector Word 32,
    exec (.treg n a b) s = .next (s.becomes { s.acting with staging := g, pc := s.acting.pc + 4 }) ∧
    ∀ w : Fin 32, vget g w = if w.val = 3 + 2 * n.val then s.acting.getX a
      else if w.val = 4 + 2 * n.val then s.acting.getX b else vget s.acting.staging w) ∧
  (∀ s : State, exec .tclr s
    = .next (s.becomes { s.acting with staging := Vector.replicate 32 0, pc := s.acting.pc + 4 })) ∧
  (∀ (s : State) (n : BNum) (a : XReg), ¬ s.acting.Awaits [a] → exec (.setb n a) s
    = .next (s.setCore s.focus { s.core s.focus with
        bregs := vset (s.core s.focus).bregs n (BitVec.ofNat 32 (s.acting.getX a).toNat) }).onward) ∧
  (∀ (s : State) (d : XReg) (n : BNum), ¬ s.acting.Awaits [d] →
    exec (.getb d n) s = .next (s.puts d (BitVec.ofNat 64 (vget (s.core s.focus).bregs n).toNat)))

/-- Posting (R155, R157, R159): a task that enters the catalogue gives Xd := 2^32 + 256 × generation + handle; TRYPOST
gives 0 where POST parks for want of an entry; a catalogue being torn down traps with cause 0x0D, a kind of 6 or 7 with
cause 0x02 and the instruction word in EVAL; JOIN of no kind traps with cause 0x02; an empty POSTL writes Xd := 0 and goes
on; a list's next entry is read and staged word by word, its reserved bits trap with cause 0x02 and the entry's address in
EVAL, a word that cannot be read with the cause of the read and its address, and its task enters with Xd, Xa and Xb advanced;
Xd equal to Xa or Xb traps with cause 0x02, and a misaligned list with cause 0x04; the context that parked first, in POST, JOIN
or POSTL, goes on when an entry is freed, and then those behind it (R287). That a POSTL takes one entry a step, with a flag
that keeps Xd from being set to 0 again, is the model's reading (log 50). -/
def Obligations.Posting : Prop :=
  (∀ (s t : State) (d : XReg) (h : Handle), ¬ s.acting.Awaits [d] →
    s.enterTask s.focus s.acting.staging [] false (.retry s.me) = (t, .entered h) →
    let v : Word := BitVec.ofNat 64 (2 ^ 32 + 256 * (t.entry s.focus h).gen.toNat + h.val)
    exec (.trypost d) s = .next (t.retire s.acting.issue fun x => x.setX d v) ∧
    exec (.post d) s = .next ((t.setCtx s.me { (t.ctx s.me).setX d v with posting := false }).proceed s.me
      ((t.ctx s.me).pc + 4))) ∧
  (∀ (s : State) (d : XReg), ¬ s.acting.Awaits [d] → (s.core s.focus).closed = true →
    (∃ v, exec (.trypost d) s = .next ({ s with free := s.free + 1 }.traps 0x0D v)) ∧
    ∃ v, exec (.post d) s = .next ({ s with free := s.free + 1 }.traps 0x0D v)) ∧
  (∀ (s : State) (d : XReg), ¬ s.acting.Awaits [d] → (s.core s.focus).closed = false →
    6 ≤ (vget s.acting.staging 0).toNat % 8 →
    exec (.trypost d) s = .next (s.traps 0x02 (wordEval (.trypost d))) ∧
    exec (.post d) s = .next (s.traps 0x02 (wordEval (.post d)))) ∧
  (∀ (s : State) (d : XReg), ¬ s.acting.Awaits [d] → (s.core s.focus).closed = false →
    (vget s.acting.staging 0).toNat % 8 < 6 → (∀ h, (s.entry s.focus h).state ≠ .free) →
    exec (.trypost d) s = .next (s.puts d 0) ∧ exec (.post d) s = .next (s.parkPost s.me (.post d) false)) ∧
  (∀ (s t : State) (m : BitVec 5) (h : Handle), m ≠ 0 →
    s.enterTask s.focus (joinImage m) [] false (.retry s.me) = (t, .entered h) →
    exec (.join m) s = .next ((t.setCtx s.me { t.ctx s.me with posting := false }).proceed s.me ((t.ctx s.me).pc + 4))) ∧
  (∀ s : State, exec (.join 0) s = .next (s.traps 0x02 (wordEval (.join 0)))) ∧
  (∀ (s : State) (m : BitVec 5), m ≠ 0 →
    ((s.core s.focus).closed = true → ∃ v, exec (.join m) s = .next ({ s with free := s.free + 1 }.traps 0x0D v)) ∧
    ((s.core s.focus).closed = false → (∀ h, (s.entry s.focus h).state ≠ .free) →
      exec (.join m) s = .next (s.parkPost s.me (.join m) false))) ∧
  (∀ (s : State) (d a b : XReg), ¬ s.acting.Awaits [d, a, b] → (d = 0 ∨ d ≠ a ∧ d ≠ b) →
    (s.acting.getX a).toNat % 8 = 0 → s.acting.getX b = 0 → s.acting.state = .running → s.acting.posting = false →
    exec (.postl d a b) s = .next (s.puts d 0)) ∧
  (∀ (s : State) (d a b : XReg), ¬ s.acting.Awaits [d, a, b] →
    (d ≠ 0 → d = a ∨ d = b → exec (.postl d a b) s = .next (s.traps 0x02 (wordEval (.postl d a b)))) ∧
    ((d = 0 ∨ d ≠ a ∧ d ≠ b) → (s.acting.getX a).toNat % 8 ≠ 0 →
      exec (.postl d a b) s = .next (s.traps 0x04 (s.acting.getX a)))) ∧
  (∀ (s : State) (d a b : XReg), ¬ s.acting.Awaits [d, a, b] → (d = 0 ∨ d ≠ a ∧ d ≠ b) →
    (s.acting.getX a).toNat % 8 = 0 → s.acting.getX b ≠ 0 →
    let va := s.acting.getX a
    let u := s.me
    let s0 := if s.acting.posting then s else s.becomes (s.acting.setX d 0)
    (∀ (s1 : State) (l : List Byte), s0.syncRead u va 8 = (s1, .ok l) →
      ((wordOf l).toNat / 2 ^ 32 ≠ 0 → exec (.postl d a b) s = .next (s1.takeTrap u 0x02 va s.acting.pc)) ∧
      ((wordOf l).toNat / 2 ^ 32 = 0 → ∀ t : State,
        let words := s1.syncWords u (va + 8) (setBits 32 (wordOf l).toNat).length
        (words = (t, .stall) → exec (.postl d a b) s = .next t) ∧
        (words = (t, .park) → exec (.postl d a b) s = .next (t.parkCtx u .load)) ∧
        ∀ c v, words = (t, .trap c v) → exec (.postl d a b) s = .next (t.takeTrap u c v s.acting.pc))) ∧
    (∀ s1 : State, (s0.syncRead u va 8 = (s1, .stall) → exec (.postl d a b) s = .next s1) ∧
      (s0.syncRead u va 8 = (s1, .park) → exec (.postl d a b) s = .next (s1.parkCtx u .load)) ∧
      ∀ c, s0.syncRead u va 8 = (s1, .trap c) → exec (.postl d a b) s = .next (s1.takeTrap u c va s.acting.pc)) ∧
    ∀ (ws : List Nat) (s2 t : State), s0.ReadsEntry u va ws s2 →
      let posts (p : Machine.Posting) : Prop := s2.enterTask u.core (s2.ctx u).staging [] false (.retry u) = (t, p)
      (∀ h, posts (.entered h) → exec (.postl d a b) s = .next (t.entryPosted u d a b va ws.length h)) ∧
      (posts .closed → ∃ v, exec (.postl d a b) s
        = .next ({ t with free := t.free + 1 }.takeTrap u 0x0D v (t.ctx u).pc)) ∧
      (posts .badKind → exec (.postl d a b) s
        = .next (t.takeTrap u 0x02 (wordEval (.postl d a b)) (t.ctx u).pc)) ∧
      (posts .full → exec (.postl d a b) s = .next (t.parkPost u (.list d a b) false)) ∧
      (posts .wait → exec (.postl d a b) s = .next (t.parkCtx u .load))) ∧
  (∀ (s t q : State) (c : CoreId) (k : CtxId) (r : List CtxId) (h : Handle),
    let u : CtxRef := ⟨c, k⟩
    (s.core c).posters = k :: r → s.heldPackets = [] → (t.ctx u).state = .parked →
    (∃ d, (s.ctx u).park = .post (.post d) ∧
        s.enterTask c (s.ctx u).staging [] true (.retry u) = (t, .entered h) ∧
        q = (t.setCtx u { (t.ctx u).setX d
          (BitVec.ofNat 64 (2 ^ 32 + 256 * (t.entry c h).gen.toNat + h.val)) with posting := false }).proceed u
            ((t.ctx u).pc + 4)) ∨
      (∃ m, (s.ctx u).park = .post (.join m) ∧
        s.enterTask c (joinImage m) [] true (.retry u) = (t, .entered h) ∧
        q = (t.setCtx u { t.ctx u with posting := false }).proceed u ((t.ctx u).pc + 4)) ∨
      (∃ (d a b : XReg) (ws : List Nat) (s2 : State), (s.ctx u).park = .post (.list d a b) ∧ (s.ctx u).getX b ≠ 0 ∧
        s.ReadsEntry u ((s.ctx u).getX a) ws s2 ∧
        s2.enterTask c (s2.ctx u).staging [] true (.retry u) = (t, .entered h) ∧
        q = t.entryPosted u d a b ((s.ctx u).getX a) ws.length h) →
    exec (.parkedPostResume c) s = .next ((q.setCore c { q.core c with
      posters := (q.core c).posters.filter fun j => j != k }).resumePosts c r))

/-- POSTR and its reply (R158): reserved bits of Xb trap with cause 0x02, and a misaligned or failing packet address with
the cause of the check and the address in EVAL. The packet goes to the partition, core and device that Xb names, with the
words read, its sender and a clock; its reply is outstanding like a load. One for this device leaves as a packet of its
kind; one for another as a request on the plane of R346, or is answered 3 where no plane reaches the device; the reply is
written to Xd. -/
def Obligations.PostRemote : Prop :=
  (∀ (s : State) (d a b : XReg), s.acting.load = none → s.acting.fenced = false →
    (postrBad (s.acting.getX b).toNat = true →
      exec (.postr d a b) s = .next (s.traps 0x02 (wordEval (.postr d a b)))) ∧
    (postrBad (s.acting.getX b).toNat = false →
      (∀ c, s.accessFault s.me .any (s.acting.getX a) 16 false = some c →
        exec (.postr d a b) s = .next (s.traps c (s.acting.getX a))) ∧
      (s.target (s.acting.getX a) ≠ .bad → (s.acting.getX a).toNat % 16 ≠ 0 →
        exec (.postr d a b) s = .next (s.traps 0x04 (s.acting.getX a))) ∧
      (s.accessFault s.me .any (s.acting.getX a) 16 false = none → ∀ (s1 : State) (c : BitVec 8),
        s.syncRead s.me (s.acting.getX a) 8 = (s1, .trap c) →
        exec (.postr d a b) s = .next (s1.takeTrap s.me c (s.acting.getX a) s.acting.pc)))) ∧
  (∀ x : Nat, postrBad x = true ↔ x / 2 ^ 18 % 2 ^ 26 ≠ 0 ∨ x / 2 ^ 48 % 2 ^ 16 ≠ 0) ∧
  (∀ (s s1 t : State) (d a b : XReg) (l : List Byte) (ws : List Word), s.acting.load = none → s.acting.fenced = false →
    postrBad (s.acting.getX b).toNat = false → s.accessFault s.me .any (s.acting.getX a) 16 false = none →
    s.syncRead s.me (s.acting.getX a) 8 = (s1, .ok l) →
    s1.syncWords s.me (s.acting.getX a + 8) (2 * bits (wordOf l).toNat 8 5 - 1) = (t, .ok ws) →
    let u := s.me
    let x := t.ctx u
    let w := (s.acting.getX b).toNat
    let dev : DevNum := BitVec.ofNat 10 (w % 1024)
    let q := t.setCtx u { x with
      load := some ⟨d, s.acting.getX a, .d, true, .postr, x.seq, x.level, .core, 0, true⟩
      seq := x.seq + 1
      pc := x.pc + 4 }
    let k : Packet :=
      { srcDev := t.devId
        srcPart := t.partOf u.core
        sender := if dev = t.devId then some (u, x.seq) else none
        host := false
        part := Fin.ofNat 16 (w / 2 ^ 44 % 16)
        core := if w / 2 ^ 12 % 64 ≤ 39 then 40 * (w / 2 ^ 10 % 4) + w / 2 ^ 12 % 64 else 255
        words := wordOf l :: ws
        seq := t.reqSeq
        clock := t.clock (dieOf u.core)
        plane := none }
    (dev = t.devId → exec (.postr d a b) s
      = .next (q.eventWith (if (wordOf l).toNat % 256 = 2 then .signalPacket else .postPacket) (.packet k))) ∧
    (dev ≠ t.devId →
      (q.planeFor dev (docentStart dev u) = none → exec (.postr d a b) s = .next (q.event (.postrReply u x.seq 3))) ∧
      ∀ p, q.planeFor dev (docentStart dev u) = some p → ∃ n : BitVec 3, n.toNat ≤ 4 ∧
        let v := q.wrote u dev
        exec (.postr d a b) s = .next (({ v with free := v.free + 1 }.request dev p (.postr u x.seq) fun z =>
          .packet dev p z k.padded).event (.postrReply u x.seq n)))) ∧
  (∀ (s : State) (u : CtxRef) (l : PendingLoad) (n : BitVec 3), (s.ctx u).load = some l → l.op = .postr →
    exec (.postrReply u l.seq n) s = .next ({ s with
      requests := s.requests.filter fun r => r.who != Waiter.postr u l.seq }.setCtx u
        { (s.ctx u).setX l.dest (BitVec.ofNat 64 n.toNat) with load := none })) ∧
  (∀ (s : State) (u : CtxRef) (n : Nat) (v : BitVec 3), (s.ctx u).load = none → exec (.postrReply u n v) s = .next s)

/-- Guards (R160, Table 5.2): GNEW opens the lowest FREE guard, or answers all ones; GOK and GNO have no effect on a guard
that is not OPEN, and commit or squash one that is. -/
def Obligations.Guards : Prop :=
  (∀ (s : State) (d : XReg) (g : GuardNum), ¬ s.acting.Awaits [d] → vget (s.core s.focus).guards g = .free →
    (∀ j, j < g → vget (s.core s.focus).guards j ≠ .free) →
    exec (.gnew d) s = .next ((s.setCore s.focus { s.core s.focus with
      guards := vset (s.core s.focus).guards g .opened }).puts d (BitVec.ofNat 64 g.val))) ∧
  (∀ (s : State) (d : XReg), ¬ s.acting.Awaits [d] → (∀ g, vget (s.core s.focus).guards g ≠ .free) →
    exec (.gnew d) s = .next (s.puts d (BitVec.ofNat 64 (2 ^ 64 - 1)))) ∧
  (∀ (s : State) (a : XReg), ¬ s.acting.Awaits [a] →
    let g : GuardNum := Fin.ofNat 32 (s.acting.getX a).toNat
    (vget (s.core s.focus).guards g ≠ .opened → exec (.gok a) s = .next s.onward ∧ exec (.gno a) s = .next s.onward) ∧
    (vget (s.core s.focus).guards g = .opened → exec (.gok a) s = .next (s.onward.commit s.focus g) ∧
      exec (.gno a) s = .next (s.onward.squashGuard s.focus g)))

/-- Signal counters (R27, R162, Table 5.3, Table 5.4): what an arrival and an arming leave in a counter, the checks of the
instructions, and what READC reads. -/
def Obligations.Counters : Prop :=
  (∀ (k : Counter) (n : Int) (aband : Bool),
    let v := k.count.toInt + n
    let c := max (-(2 ^ 31 : Int)) (min (2 ^ 31 - 1) v)
    let r := k.arrive n false aband
    let flip : Prop := k.expect ≠ 0 ∧ (k.expect.toNat : Int) ≤ c
    r.err = (k.err || decide (v > 2 ^ 31 - 1 ∨ v < -(2 ^ 31 : Int))) ∧ r.aband = (k.aband || aband) ∧
    (flip → r.count.toInt = c - k.expect.toNat ∧ r.expect = 0 ∧ r.phase = !k.phase) ∧
    (¬ flip → r.count.toInt = c ∧ r.expect = k.expect ∧ r.phase = k.phase)) ∧
  (∀ (k : Counter) (e : BitVec 32),
    let r := k.arm e
    let flip : Prop := e ≠ 0 ∧ (e.toNat : Int) ≤ k.count.toInt
    r.err = k.err ∧ r.aband = k.aband ∧
    (flip → r.count.toInt = k.count.toInt - e.toNat ∧ r.expect = 0 ∧ r.phase = !k.phase) ∧
    (¬ flip → r.count = k.count ∧ r.expect = e ∧ r.phase = k.phase)) ∧
  (∀ (s : State) (n : CtrNum) (a : XReg), ¬ s.acting.Awaits [a] →
    let v := (s.acting.getX a).toNat
    let k := s.counter s.focus n
    (0 < v → v < 2 ^ 32 → k.expect = 0 →
      exec (.armc n a) s = .next (s.onward.setCounter s.focus n (k.arm (BitVec.ofNat 32 v)))) ∧
    (v = 0 ∨ 2 ^ 32 ≤ v ∨ k.expect ≠ 0 →
      ∃ e, exec (.armc n a) s = .next ({ s with free := s.free + 1 }.traps 0x0E e)) ∧
    (v < 2 ^ 32 → exec (.armcInit n a) s
      = .next (s.onward.setCounter s.focus n ⟨0, BitVec.ofNat 32 v, k.phase, false, false⟩)) ∧
    (2 ^ 32 ≤ v → ∃ e, exec (.armcInit n a) s = .next ({ s with free := s.free + 1 }.traps 0x0E e)) ∧
    (-(2 ^ 31 : Int) ≤ (s.acting.getX a).toInt → (s.acting.getX a).toInt < 2 ^ 31 →
      exec (.arrc n a) s = .next (s.onward.setCounter s.focus n (k.arrive (s.acting.getX a).toInt false false))) ∧
    ((s.acting.getX a).toInt < -(2 ^ 31 : Int) ∨ 2 ^ 31 ≤ (s.acting.getX a).toInt →
      ∃ e, exec (.arrc n a) s = .next ({ s with free := s.free + 1 }.traps 0x0E e))) ∧
  (∀ (s : State) (n : CtrNum) (p : Bool),
    ((s.counter s.focus n).phase = p → exec (.waitc n p) s = .next s.onward) ∧
    ((s.counter s.focus n).phase ≠ p → exec (.waitc n p) s = .next (s.parkCtx s.me (.waitc n p)))) ∧
  (∀ (s : State) (d : XReg) (n : CtrNum), ¬ s.acting.Awaits [d] → ∃ v : Word, exec (.readc d n) s = .next (s.puts d v) ∧
    v.toNat % 2 ^ 32 = (s.counter s.focus n).count.toNat ∧ v.getLsbD 32 = (s.counter s.focus n).phase ∧
    v.getLsbD 33 = (s.counter s.focus n).err ∧ v.getLsbD 34 = (s.counter s.focus n).aband ∧
    v.getLsbD 35 = decide ((s.counter s.focus n).expect ≠ 0) ∧ v.toNat < 2 ^ 36)

/-- Groups and priority (R165-R167, Table 5.5): GBAR of a core that is no member traps with cause 0x05 and of a BROKEN group
with cause 0x0C; the last member's GBAR completes the generation, an earlier one's parks, and one of a core that has arrived
already parks until the generation changes and then stands at the GBAR again (R166); GRANK and GSIZE read the group; PRIO sets
the class. The group's clock, the greatest of its members' clocks at their arrivals, carries the edges of Table 10.3 in the
order of R316: that it is taken as each arrival is sent is the model's reading (log 81). -/
def Obligations.Groups : Prop :=
  (∀ (s : State) (g : GroupNum), s.rankOf s.focus g = none →
    ∃ v, exec (.gbar g) s = .next ({ s with free := s.free + 1 }.traps 0x05 v)) ∧
  (∀ (s : State) (g : GroupNum), s.rankOf s.focus g ≠ none → (s.group g).state = .broken →
    ∃ v, exec (.gbar g) s = .next ({ s with free := s.free + 1 }.traps 0x0C v)) ∧
  (∀ (s : State) (g : GroupNum), s.rankOf s.focus g ≠ none → (s.group g).state ≠ .broken →
    (s.core s.focus).arrived.contains g = false →
    let t := (s.setCore s.focus { s.core s.focus with arrived := g :: (s.core s.focus).arrived }).setGroup g
      { s.group g with
        arrived := (s.group g).arrived + 1
        state := .opened
        clock := Clock.max (s.group g).clock (s.clock (dieOf s.focus)) }
    ((s.group g).arrived.toNat + 1 = (s.group g).size → exec (.gbar g) s = .next ((t.retire s.acting.issue id).generation g)) ∧
    ((s.group g).arrived.toNat + 1 ≠ (s.group g).size → exec (.gbar g) s = .next (t.parkCtx s.me (.gbar g false)))) ∧
  (∀ (s : State) (g : GroupNum), s.rankOf s.focus g ≠ none → (s.group g).state ≠ .broken →
    (s.core s.focus).arrived.contains g = true → exec (.gbar g) s = .next (s.parkCtx s.me (.gbar g true))) ∧
  (∀ (s : State) (g : GroupNum),
    let t := s.generation g
    (t.group g).gen = (s.group g).gen + 1 ∧ (t.group g).arrived = 0 ∧ (t.group g).state = .idle ∧
    (∀ c ∈ s.memberCores g, (t.core c).arrived.contains g = false) ∧
    ∀ (u : CtxRef) (again : Bool), u.core ∈ s.memberCores g → (s.ctx u).state = .parked →
      (s.ctx u).park = .gbar g again → (t.ctx u).state ≠ .parked ∧
        (t.ctx u).pc = if again then (s.ctx u).pc else (s.ctx u).pc + 4) ∧
  (∀ (s : State) (d : XReg) (g : GroupNum), ¬ s.acting.Awaits [d] →
    (∀ r, s.rankOf s.focus g = some r → exec (.grank d g) s = .next (s.puts d (BitVec.ofNat 64 r))) ∧
    (s.rankOf s.focus g = none → exec (.grank d g) s = .next (s.puts d (BitVec.ofNat 64 (2 ^ 64 - 1)))) ∧
    ((s.group g).part.toNat = (s.partOf s.focus).val →
      exec (.gsize d g) s = .next (s.puts d (BitVec.ofNat 64 (s.group g).size))) ∧
    ((s.group g).part.toNat ≠ (s.partOf s.focus).val → exec (.gsize d g) s = .next (s.puts d 0))) ∧
  (∀ (s : State) (c : BitVec 2),
    exec (.prio c) s = .next (s.becomes { s.acting with pclass := c, pused := true, pc := s.acting.pc + 4 }))

/-! ### References, queues, prefixes -/

/-- References (R168-R175): on a settled context with a legal address, LDREF, STREF, LDH, STH, CASH, REFEQ, MKREF, PIN and
UNPIN have their effect and complete in one step; where a write goes to a replicated page whose copy on another die waits,
LDREF, STREF and STH hold the context until that copy is written (R168, R378). An unsettled context waits, and one is
settled whose earlier accesses are performed, the fence after an atomic among them and the delivery of their faults (that
these are waited for is the model's reading of R168 and R138, log 66); LDREF and CASH of a word without its REFB bit trap
with cause 0x06, and LDH, STH, PIN and UNPIN of null with cause 0x07. -/
def Obligations.References : Prop :=
  (∀ (s : State) (d b : HReg) (a e : XReg), s.settled s.me = false →
    ∀ i ∈ [Instr.cash d a b, .refeq e d b, .mkref d a, .pin e d, .unpin d], exec i s = .next s) ∧
  (∀ (s : State) (u : CtxRef), s.settled u = true ↔ (s.ctx u).load = none ∧ s.storesLeft u .core = false ∧
    (s.ctx u).trailing = false ∧ s.faultDue u = false) ∧
  (∀ (s : State) (d b : HReg) (a : XReg) (imm : BitVec 16),
    let va : Word := BitVec.ofInt 64 ((s.acting.getX a).toInt + imm.toInt)
    s.LoadsReference (exec (.ldref d a imm) s) s.acting.issue d va ∧
    s.StoresReference (exec (.stref a b imm) s) s.acting.issue b va) ∧
  (∀ (s : State) (d b : XReg) (a : HReg) (imm : BitVec 16),
    s.LoadsField (exec (.ldh d a imm) s) s.acting.issue d a (BitVec.ofInt 64 imm.toInt) ∧
    s.StoresField (exec (.sth a b imm) s) s.acting.issue a b (BitVec.ofInt 64 imm.toInt)) ∧
  (∀ (s s1 s2 s3 t q : State) (d b : HReg) (a : XReg) (w old p : Word) (keys : List Nat) (g g' : Option Gallery),
    let va := s.acting.getX a
    s.settled s.me = true → s.accessFault s.me .any va 8 true = none → (∀ dev, s.target va ≠ .remote dev) →
    s.locateWrite s.refAgent va .never = (s1, .ok keys) → s1.resumed.moving (keys.headD 0) = false →
    s1.resumed.readRef va = (s2, .ok (w, true)) → s2.resumed.refPresent w = (s3, .ok (old, g)) →
    s3.resumed.refPresent (s.acting.getH d) = (t, .ok (p, g')) →
    let same : Prop := old.toNat / 2 ^ 22 = p.toNat / 2 ^ 22 ∧ old.toNat % 2 ^ 22 = (s.acting.getH d).toNat % 2 ^ 22
    (∀ parts : Bool, same → t.resumed.writeRef va (s.acting.getH b) true = (q, .ok parts) →
      exec (.cash d a b) s = .next (q.resumed.retire s.acting.issue fun x => x.setH d old)) ∧
    (¬ same → exec (.cash d a b) s = .next (t.resumed.retire s.acting.issue fun x => x.setH d old))) ∧
  (∀ (s s1 s2 : State) (d b : HReg) (a : XReg) (w : Word) (keys : List Nat),
    let va := s.acting.getX a
    s.settled s.me = true → s.accessFault s.me .any va 8 true = none → (∀ dev, s.target va ≠ .remote dev) →
    s.locateWrite s.refAgent va .never = (s1, .ok keys) → s1.resumed.moving (keys.headD 0) = false →
    s1.resumed.readRef va = (s2, .ok (w, false)) →
    ∃ e, exec (.cash d a b) s = .next ({ s2.resumed with free := s2.free + 1 }.trap s.acting.issue 0x06 e)) ∧
  (∀ (s s1 t : State) (d : XReg) (a b : HReg) (p q : Word) (g g' : Option Gallery), s.settled s.me = true →
    s.refPresent (s.acting.getH a) = (s1, .ok (p, g)) → s1.resumed.refPresent (s.acting.getH b) = (t, .ok (q, g')) →
    exec (.refeq d a b) s = .next (t.resumed.retire s.acting.issue fun x =>
      ((x.setH a p).setH b q).setX d (if p.toNat / 2 ^ 22 = q.toNat / 2 ^ 22 then 1 else 0))) ∧
  (∀ (s t : State) (d : HReg) (a : XReg) (p : Word) (g : Option Gallery), s.settled s.me = true →
    s.refPresent (s.acting.getX a) = (t, .ok (p, g)) →
    exec (.mkref d a) s = .next (t.resumed.retire s.acting.issue fun x => x.setH d p)) ∧
  (∀ (s : State) (d : XReg) (a : HReg), s.settled s.me = true → s.acting.getH a = 0 →
    ∀ i ∈ [Instr.pin d a, .unpin a],
      ∃ e, exec i s = .next ({ s with free := s.free + 1 }.traps 0x07 e)) ∧
  (∀ (s t q : State) (d : XReg) (a : HReg) (p : Word) (g : Gallery), s.settled s.me = true → s.acting.getH a ≠ 0 →
    s.refPresent (s.acting.getH a) = (t, .ok (p, some g)) →
    (t.resumed.pinWord t.resumed.refAgent g p.toNat true = (q, .ok ()) →
      exec (.pin d a) s
        = .next (q.resumed.retire s.acting.issue fun x => (x.setH a p).setX d (objectAddress g p.toNat + 16))) ∧
    (t.resumed.pinWord t.resumed.refAgent g p.toNat false = (q, .ok ()) →
      exec (.unpin a) s = .next (q.resumed.retire s.acting.issue fun x => x.setH a p)))

/-- Link-queue instructions (R176-R181, Table 5.8): QOPEN of a CLOSED queue with a legal descriptor binds it and goes on;
a BROKEN one traps with cause 0x0F, an OPEN one, an illegal descriptor, or a box that meets that of another queue, with cause
0x02 and the instruction word in EVAL; a descriptor at a misaligned address, or that cannot be read, traps before the state of
the queue is looked at (the model's reading, log 49), and an inbound queue whose sender no plane reaches is BROKEN as QOPEN
completes (the model's choice, log 76); QCLOSE by the queue's state, now or when the tasks that name
it have left; QSTAT reads the snapshot, zero for a CLOSED queue. -/
def Obligations.QueueInstructions : Prop :=
  (∀ (s : State) (n : QNum) (a : XReg), ¬ s.acting.Awaits [a] → s.target (s.acting.getX a) ≠ .bad →
    (s.acting.getX a).toNat % 16 ≠ 0 → exec (.qopen n a) s = .next (s.traps 0x04 (s.acting.getX a))) ∧
  (∀ (s t : State) (n : QNum) (a : XReg) (w0 w1 : Word), ¬ s.acting.Awaits [a] →
    s.accessFault s.me .any (s.acting.getX a) 16 false = none →
    s.syncWords s.me (s.acting.getX a) 2 = (t, .ok [w0, w1]) →
    ((t.queue s.focus n).state = .closed → descriptorBad (t.annexRow (t.partOf s.focus)) w0 w1 = false →
      (∀ m, m ≠ n → (t.queue s.focus m).state ≠ .closed → (t.queue s.focus m).box.meets (boxOf w1.toNat) = false) →
      exec (.qopen n a) s = .next ((t.bindQueue s.focus n w0 w1).retire s.acting.issue id)) ∧
    ((t.queue s.focus n).state = .opened ∨ (t.queue s.focus n).state = .closed ∧
        (descriptorBad (t.annexRow (t.partOf s.focus)) w0 w1 = true ∨
          ∃ m, m ≠ n ∧ (t.queue s.focus m).state ≠ .closed ∧ (t.queue s.focus m).box.meets (boxOf w1.toNat) = true) →
      exec (.qopen n a) s = .next (t.trap s.acting.issue 0x02 (wordEval (.qopen n a)))) ∧
    ((t.queue s.focus n).state = .broken →
      ∃ v, exec (.qopen n a) s = .next ({ t with free := t.free + 1 }.trap s.acting.issue 0x0F v))) ∧
  (∀ (s : State) (n : QNum),
    ((s.queue s.focus n).state = .closed → exec (.qclose n) s = .next s.onward) ∧
    ((s.queue s.focus n).state = .broken →
      exec (.qclose n) s = .next ((s.setQueue s.focus n Queue.reset).retire s.acting.issue id)) ∧
    ((s.queue s.focus n).state = .opened → s.queueQuiet s.focus n s.acting.task = true →
      exec (.qclose n) s = .next ((s.closeQueue s.focus n).retire s.acting.issue id) ∧
      ((s.closeQueue s.focus n).queue s.focus n).state = .closed) ∧
    ((s.queue s.focus n).state = .opened → s.queueQuiet s.focus n s.acting.task = false →
      exec (.qclose n) s = .next (s.once (.event (.qcloseCompletion s.me n) .none)))) ∧
  (∀ (s s1 : State) (u : CtxRef) (n : QNum) (w w' : Word32), s.fetch u (s.ctx u).pc = (s1, .ok (w, w')) →
    decodeDocent w = .ok (.qclose n) → (s.ctx u).state = .running ∨ (s.ctx u).state = .ready →
    (s.queue u.core n).state = .opened → s.queueQuiet u.core n (s.ctx u).task = true →
    let t := s.closeQueue u.core n
    exec (.qcloseCompletion u n) s = .next (t.setCtx u { t.ctx u with pc := (s.ctx u).pc + 4 })) ∧
  (∀ (s : State) (d : XReg) (n : QNum), ¬ s.acting.Awaits [d] →
    let q := s.queue s.focus n
    ∃ v : Word, exec (.qstat d n) s = .next (s.puts d v) ∧ (q.state = .closed → v = 0) ∧
      (q.state ≠ .closed → q.nslot ≤ 8 → (q.outbound = true → q.permits.length < 16) →
        v.toNat % 4 = (if q.state = .opened then 1 else 2) ∧ v.getLsbD 2 = q.outbound ∧ v.toNat / 8 % 16 = q.nslot ∧
        v.getLsbD 7 = q.bound ∧
        (∀ i < 8, v.toNat / 2 ^ (8 + 2 * i) % 4 = if i < q.nslot then slotCode (vget q.slots (Fin.ofNat 8 i)) else 0) ∧
        v.toNat / 2 ^ 24 % 16 = (if q.outbound then q.permits.length else 0) ∧ v.toNat / 2 ^ 28 % 16 = q.cause.toNat ∧
        v.toNat < 2 ^ 32))

/-- IMX and its instruction are one pair (R74, R76, R77): the second word comes from the read of the first; the 42-bit
immediate takes the 16-bit one's place, in each form marked X: arithmetic, staging, branches (whose target counts from the
second word), loads, stores, and the reference forms, and the context goes on after the second word; a trap of the pair is at
the IMX; a word that takes no prefix, or an IMX in the last word of a line, traps with cause 0x03 at the IMX. -/
def Obligations.ImxPairs : Prop :=
  (∀ (s : State) (p : BitVec 26) (w : Word32), s.acting.pc.toNat % 64 ≠ 60 → s.second = w →
    let goes (f : Context → Context) : Host.Outcome State Fault Refusal :=
      .next (s.becomes { f s.acting with pc := s.acting.pc + 8 })
    let x := s.acting
    let pair : Issue := ⟨x.pc, x.pc + 4, x.pc + 8⟩
    (x.load = none → ∀ (d a : XReg) (imm : BitVec 16),
      let g : Int := (p ++ imm).toInt
      let z : Nat := (p ++ imm).toNat
      (decodeDocent w = .ok (.addi d a imm) →
        exec (.imx p) s = goes fun y => y.setX d (BitVec.ofInt 64 ((x.getX a).toInt + g))) ∧
      (decodeDocent w = .ok (.andi d a imm) →
        exec (.imx p) s = goes fun y => y.setX d (BitVec.ofNat 64 ((x.getX a).toNat &&& z))) ∧
      (decodeDocent w = .ok (.ori d a imm) →
        exec (.imx p) s = goes fun y => y.setX d (BitVec.ofNat 64 ((x.getX a).toNat ||| z))) ∧
      (decodeDocent w = .ok (.xori d a imm) →
        exec (.imx p) s = goes fun y => y.setX d (BitVec.ofNat 64 ((x.getX a).toNat ^^^ z))) ∧
      (decodeDocent w = .ok (.slti d a imm) →
        exec (.imx p) s = goes fun y => y.setX d (if (x.getX a).toInt < g then 1 else 0)) ∧
      (decodeDocent w = .ok (.lil d imm) → exec (.imx p) s = goes fun y => y.setX d (BitVec.ofInt 64 g)) ∧
      (∀ n, decodeDocent w = .ok (.tseti n imm) →
        exec (.imx p) s = goes fun y => { y with staging := vset y.staging n (BitVec.ofInt 64 g) })) ∧
    (∀ (a b : XReg) (imm : BitVec 16),
      let target : Word := BitVec.ofInt 64 (x.pc.toInt + 4 + 4 * (p ++ imm).toInt)
      let branches (taken : Bool) : Prop :=
        exec (.imx p) s = if taken = false then goes id
          else if target.toNat % 4 ≠ 0 then .next (s.traps 0x04 target)
          else .next (s.becomes { x with pc := target })
      (∀ r ∈ branchTable, decodeDocent w = .ok (r.1 a b imm) →
        (¬ x.Awaits [a, b] → branches (r.2 (x.getX a) (x.getX b))) ∧ (x.Awaits [a, b] → exec (.imx p) s = .next s)) ∧
      (∀ r ∈ branchZTable, decodeDocent w = .ok (r.1 a imm) →
        (¬ x.Awaits [a] → branches (r.2 (x.getX a))) ∧ (x.Awaits [a] → exec (.imx p) s = .next s))) ∧
    (∀ (a b : XReg) (h : HReg) (imm : BitVec 16),
      let va : Word := BitVec.ofInt 64 ((x.getX a).toInt + (p ++ imm).toInt)
      let off : Word := BitVec.ofInt 64 (p ++ imm).toInt
      (∀ r ∈ loadTable, decodeDocent w = .ok (r.1 b a imm) → s.IssuesLoad (exec (.imx p) s) pair b va r.2.1 r.2.2) ∧
      (∀ r ∈ storeTable, decodeDocent w = .ok (r.1 a b imm) →
        s.IssuesStore (exec (.imx p) s) pair [a, b] va (x.getX b) r.2 false) ∧
      (decodeDocent w = .ok (.stloc a b imm) →
        s.IssuesStore (exec (.imx p) s) pair [a, b] va (x.getX b) .d true) ∧
      (decodeDocent w = .ok (.ldref h a imm) → s.LoadsReference (exec (.imx p) s) pair h va) ∧
      (decodeDocent w = .ok (.stref a h imm) → s.StoresReference (exec (.imx p) s) pair h va) ∧
      (decodeDocent w = .ok (.ldh b h imm) → s.LoadsField (exec (.imx p) s) pair b h off) ∧
      (decodeDocent w = .ok (.sth h b imm) → s.StoresField (exec (.imx p) s) pair h b off)) ∧
    ((decodeDocent w = .undefined ∨ ∃ j : Instr, decodeDocent w = .ok j ∧ j.takesPrefix = false) →
      exec (.imx p) s = .next (s.traps 0x03 (wordEval (.imx p))))) ∧
  (∀ (s : State) (p : BitVec 26), s.acting.pc.toNat % 64 = 60 →
    exec (.imx p) s = .next (s.traps 0x03 (wordEval (.imx p))))

/-! ### Vector kernels -/

/-- Where the results of vector instructions go (R16-R22, R185): a tile register written is mirrored in Z, its other bytes
and every other register stay; a predicate register takes the bits of the shape and keeps the others, and P0 is never
written. -/
def Obligations.VectorRegisters : Prop :=
  (∀ (v : VectorUnit) (dst : BitVec 8) (d : List Byte) (n : Nat), v.v.wf → v.z.wf → d.length ≤ n → n ≤ 32768 →
    let w := v.setTile dst d
    w.tileBytes dst n = d ++ (v.tileBytes dst n).drop d.length ∧ w.v.wf ∧ w.z.wf ∧
    (dst ≠ 0xC0#8 → w.tileBytes 0xC0#8 n = w.tileBytes dst n) ∧
    (∀ sp : BitVec 8, sp ≠ 0xC0#8 → (dst = 0xC0#8 ∨ v.reg sp ≠ v.reg dst) → w.tileBytes sp n = v.tileBytes sp n) ∧
    w = { v with v := w.v, z := w.z }) ∧
  (∀ (v : VectorUnit) (p n low k : Nat) (q : Fin 8), k < 32768 → (vget (v.setPred p n low).p q).getLsbD k
    = if q.val = p % 8 ∧ q.val ≠ 0 ∧ k < n then low.testBit k else (vget v.p q).getLsbD k) ∧
  (∀ (v : VectorUnit) (k : Nat), v.governs 0#3 k = true) ∧
  (∀ (v : VectorUnit) (p : BitVec 3) (k : Nat), p ≠ 0#3 → v.governs p k = (vget v.p (Fin.ofNat 8 p.toNat)).getLsbD k)

/-- Vector arithmetic, element by element (R182-R211): floating sums, products, quotients and roots rounded once (R192,
R193), minimum, maximum and sign changes (R196-R200), bounded functions (R194, R203-R208), integers, shifts and logic
(R209-R211). -/
def Obligations.VectorArithmetic : Prop :=
  ∀ r ∈ floatTable ++ codeTable ++ functionTable ++ integerTable, ∀ (s : State) (f : VWord),
    let b := (elOf f.type).bytes
    s.Computes (r.instr f) f b ((r.operands f).map fun o => (o, b)) (r.value f)

/-- Comparisons and classes (R201, R202, Table 6.3, Table 6.4): the predicate register named in AUX takes a bit for each
position of the shape, false where it is not governed. Predicate logic and PSET (R234, R235, Table 7.9): the bits of
the shape are set, and a shape that fails its check completes the task with status FORMAT. -/
def Obligations.PredicateResults : Prop :=
  (∀ (s : State) (f : VWord),
    let b := (elOf f.type).bytes
    let v := s.vec
    let sets (i : Instr) (ops : List (BitVec 8)) (test : (Nat → Nat) → Bool × Sticky) : Prop :=
      (v.operandsOk b (ops.map fun o => (o, b)) = true → ∃ out : List (Bool × Sticky),
        exec i s = .next (s.vectorDone (v.setPred (f.aux.toNat % 8) v.size (bitsOf (out.map fun r => r.1)))
          (out.foldl (fun a r => a ||| r.2) 0) false) ∧
        out.length = v.size ∧
        ∀ k < v.size, out[k]? = some (if v.governs f.pred k
          then test fun n => (ops.map fun o => (v.operand o b).getD k 0).getD n 0 else (false, 0))) ∧
      (v.operandsOk b (ops.map fun o => (o, b)) = false → exec i s = .next (s.vectorFail s.focus causeFormat))
    let cmp := f.aux.toNat / 8 % 16
    (∀ g, elOf f.type = .fl g → sets (.vcmp f) [f.a, f.b] fun o =>
      let x := g.decode (o 0)
      let y := g.decode (o 1)
      (comparison cmp (if x.isNan || y.isNan then none else some (compareVal x y)),
        if (if 2 ≤ cmp ∧ cmp ≤ 5 then x.isNan || y.isNan else x.isSnan || y.isSnan) then invalidFlag else 0)) ∧
    (∀ t, elOf f.type = .int t → sets (.vcmp f) [f.a, f.b] fun o =>
      (comparison cmp (some (compare (t.read (o 0)) (t.read (o 1)))), 0)) ∧
    sets (.vcls f) [f.a] fun o => ((f.aux.toNat / 8 % 1024).testBit ((flOf f.type).classOf (o 0)), 0)) ∧
  ((∀ (s : State) (f : VWord), s.vec.predOk = true →
    let v := s.vec
    let gives (i : Instr) (bit : Nat → Bool) : Prop := ∃ n : Nat,
      exec i s = .next (s.vectorDone (v.setPred f.dst.toNat v.size n) 0 false) ∧ ∀ k < v.size, n.testBit k = bit k
    let p (sp : BitVec 8) (k : Nat) : Bool := v.governs (BitVec.ofNat 3 sp.toNat) k
    gives (.pand f) (fun k => p f.a k && p f.b k) ∧ gives (.por f) (fun k => p f.a k || p f.b k) ∧
    gives (.pxor f) (fun k => p f.a k != p f.b k) ∧ gives (.pnot f) (fun k => !p f.a k) ∧
    gives (.pset f) fun k =>
      let n := (v.scalar f.a).toInt
      let row : Int := k / v.cols
      let col : Int := k % v.cols
      match f.aux.toNat % 8 with
      | 0 => false
      | 1 => true
      | 2 => decide (k < n)
      | 3 => decide (row < n)
      | 4 => decide (col < n)
      | _ => decide (col ≤ row + n)) ∧
  (∀ (s : State) (f : VWord), s.vec.predOk = false → ∀ i ∈ [Instr.pand f, .por f, .pxor f, .pnot f, .pset f],
    exec i s = .next (s.vectorFail s.focus causeFormat)))

/-- Moves (R224, R225): VMOV copies, VBCAST repeats an element, a row or a column (with no effect but FORMAT for an
index at or above ROWS × COLS, ROWS or COLS by its mode), VTRN transposes, and VSEL selects at every position. Conversions (R67, R229-R231): VCVT
converts each element from the type in AUX; VQNT forms a × b + c once, of a tile of s32 or f32, an f32 scale and an
s32 zero point, and rounds it into TYPE. -/
def Obligations.VectorMoves : Prop :=
  (∀ (s : State) (f : VWord),
    let b := (elOf f.type).bytes
    let v := s.vec
    let at_ (sp : BitVec 8) (k : Nat) : Nat := (v.operand sp b).getD k 0
    s.Computes (.vmov f) f b [(f.a, b)] (fun _ o => ⟨o 0, 0⟩) ∧
    (let n := (v.scalar f.b).toNat % 2 ^ 32
     (v.shapeOk b = true → specTile f.a = true →
       (f.aux.toNat % 4 = 0 → n < v.size → s.Places (.vbcast f) f fun _ => at_ f.a n) ∧
       (f.aux.toNat % 4 = 1 → n < v.rows → s.Places (.vbcast f) f fun k => at_ f.a (n * v.cols + k % v.cols)) ∧
       (f.aux.toNat % 4 = 2 → n < v.cols → s.Places (.vbcast f) f fun k => at_ f.a (k / v.cols * v.cols + n))) ∧
     (v.size ≤ n ∨ f.aux.toNat % 4 = 1 ∧ v.rows ≤ n ∨ f.aux.toNat % 4 = 2 ∧ v.cols ≤ n →
      exec (.vbcast f) s = .next (s.vectorFail s.focus causeFormat))) ∧
    (v.shapeOk b = true → specTile f.a = true →
      s.Places (.vtrn f) f fun k => at_ f.a (k % v.rows * v.cols + k / v.rows)) ∧
    (v.operandsOk b [(f.a, b), (f.b, b)] = true → ∃ out : List (Option Nat),
      exec (.vsel f) s = .next (s.vectorDone (v.setCodes f.dst b out) 0 false) ∧ out.length = v.size ∧
      ∀ k < v.size, out[k]? = some (some (if v.governs f.pred k then at_ f.a k else at_ f.b k)))) ∧
  (∀ (s : State) (f : VWord),
    let t := elOf f.type
    let src := elOf (BitVec.ofNat 5 f.aux.toNat)
    s.Computes (.vcvt f) f t.bytes [(f.a, src.bytes)] (fun draw o =>
      src.convert t (f.auxBit 5) f.mode draw (o 0)) ∧
    s.Computes (.vqnt f) f t.bytes [(f.a, 4), (f.b, 4), (f.c, 4)] fun draw o =>
      let x := if f.auxBit 0 then Fl.f32.decode (o 0) else Val.ofInt (signed 32 (o 0))
      let v := fmaVal f.mode x (Fl.f32.decode (o 1)) (Val.ofInt (signed 32 (o 2)))
      ⟨(t.round (f.auxBit 1) f.mode draw v.val).code, v.flags ||| (t.round (f.auxBit 1) f.mode draw v.val).flags⟩)

/-- Reductions and scans (R226-R228, R71): a lane is reduced by the tree over its leaves, or scanned by the recurrence,
where a position that is not governed enters as the identity. A scan draws each
sum at the site of the output element that shows it, and an exclusive scan forms no sum that it does not show (the model's
choice, log 56); the length of a CARRY line by the number of lanes, and the flags of the step at a position that is not
governed, are the model's choice too (log 91). -/
def Obligations.Reductions : Prop :=
  ∀ (s : State) (f : VWord),
    let b := (elOf f.type).bytes
    let v := s.vec
    let o := foldOp f
    let leaf (k : Nat) : Nat := if v.governs f.pred k then o.leaf ((v.operand f.a b).getD k 0) else o.identity
    v.shapeOk b = true → specTile f.a = true →
    (v.rows * b ≤ 2048 → ∃ rs : List Coded, exec (.vredr f) s
        = .next (s.vectorDone (v.setLine f.dst b (rs.map fun r => some r.code)) (flagsOf rs) (f.mode == .rsr)) ∧
      rs.length = v.rows ∧ ∀ i < v.rows, rs[i]? = some (s.reduceLane f o (fun j => i * v.cols + j)
        ((List.range v.cols).map fun j => leaf (i * v.cols + j)))) ∧
    (v.cols * b ≤ 2048 → ∃ rs : List Coded, exec (.vredc f) s
        = .next (s.vectorDone (v.setLine f.dst b (rs.map fun r => some r.code)) (flagsOf rs) (f.mode == .rsr)) ∧
      rs.length = v.cols ∧ ∀ i < v.cols, rs[i]? = some (s.reduceLane f o (fun j => j * v.cols + i)
        ((List.range v.rows).map fun j => leaf (j * v.cols + i)))) ∧
    (let down := f.auxBit 4
     let lanes := if down then v.cols else v.rows
     let steps := if down then v.rows else v.cols
     let index (i j : Nat) : Nat := if down then j * v.cols + i else i * v.cols + j
     let start (i : Nat) : Nat := (v.line f.b b lanes).getD i 0
     let sum (i j : Nat) (before : Coded) (k : Nat) : Coded := o.pair (s.vectorDraw f (index i j)) before.code (leaf k)
     f.auxBit 6 = false ∨ lanes * b ≤ 2048 →
     ∃ (val : Nat → Nat → Coded) (out : List (Option Nat)) (flags : Sticky),
      exec (.vscan f) s = .next (s.vectorDone (v.setCodes f.dst b out) flags (f.mode == .rsr)) ∧
      out.length = v.size ∧
      (∀ i < lanes, ∀ j < steps, out[index i j]? = some (if v.governs f.pred (index i j)
        then some (val i j).code else none)) ∧
      (∀ n < 5, flags.getLsbD n = true ↔ ∃ i < lanes, ∃ j < steps, (val i j).flags.getLsbD n = true) ∧
      ∀ i < lanes,
        (f.auxBit 5 = false →
          val i 0 = (if f.auxBit 6 then sum i 0 ⟨start i, 0⟩ (index i 0) else ⟨leaf (index i 0), 0⟩) ∧
          ∀ j, j + 1 < steps → val i (j + 1) = sum i (j + 1) (val i j) (index i (j + 1))) ∧
        (f.auxBit 5 = true →
          val i 0 = ⟨if f.auxBit 6 then start i else if f.aux.toNat % 4 = 0 then 0 else o.identity, 0⟩ ∧
          (f.auxBit 6 = false → 1 < steps → val i 1 = ⟨leaf (index i 0), 0⟩) ∧
          ∀ j, j + 1 < steps → f.auxBit 6 = true ∨ 0 < j →
            val i (j + 1) = sum i (j + 1) (val i j) (index i j)))

/-- Control (R236-R238): what VSHAPE, LOOP, ROT, VSETS and VDONE do, and the end of an iteration. -/
def Obligations.VectorControl : Prop :=
  (∀ (s : State) (f : VWord), exec (.vshape f) s
    = .next (s.vectorDone { s.vec with shape := BitVec.ofNat 32 (s.vec.scalar f.a).toNat } 0 false)) ∧
  (∀ (s : State) (f : VWord), exec (.rot f) s = .next (s.vectorDone { s.vec with
    wb := Fin.ofNat 48 (f.aux.toNat % 64 + if f.auxBit 6 then 0 else s.vec.wb.val) } 0 false)) ∧
  (∀ (s : State) (f : VWord), exec (.vdone f) s = .next (s.vectorEnd s.focus)) ∧
  (∀ (s : State) (f : VWord),
    let v := s.vec
    let n := if f.auxBit 12 then f.b.toNat * 256 + f.c.toNat else (v.scalar f.a).toNat % 2 ^ 32
    let d : Fin 3 := Fin.ofNat 3 v.depth
    let last := v.next + 1 + f.aux.toNat % 256
    (n = 0 → exec (.loop f) s = .next (s.vectorDone { v with lc := vset v.lc d 0, next := last } 0 false)) ∧
    (n ≠ 0 → exec (.loop f) s = .next (s.vectorDone { v with
      lc := vset v.lc d 0
      loops := vset v.loops d ⟨v.next + 1, last, f.aux.toNat / 512 % 8, true, n⟩ } 0 false))) ∧
  (∀ (s : State) (f : VWord),
    let v := s.vec
    let imm : BitVec 34 := BitVec.ofNat 34 (vsetsImm f)
    let old := v.scalar f.dst
    ∃ x : Word, exec (.vsets f) s
        = .next (s.vectorDone { v with s := vset v.s (Fin.ofNat 16 f.dst.toNat) x } 0 false) ∧
      (f.aux.toNat / 1024 = 0 → x.toInt = imm.toInt) ∧
      (f.aux.toNat / 1024 = 1 → x.toNat / 2 ^ 34 = imm.toNat % 2 ^ 30 ∧ x.toNat % 2 ^ 34 = old.toNat % 2 ^ 34) ∧
      (f.aux.toNat / 1024 = 2 → x = BitVec.ofInt 64 (old.toInt + imm.toInt)) ∧
      (f.aux.toNat / 1024 = 3 → ∀ n : Fin 3, vsetsImm f = n.val → x.toNat = (vget v.lc n).toNat) ∧
      (f.aux.toNat / 1024 = 4 → x.toNat = v.wb.val) ∧
      (f.aux.toNat / 1024 = 5 → x.toNat = v.shape.toNat)) ∧
  (∀ (s : State) (c : CoreId) (d : Fin 3),
    let v := (s.core c).vec
    let l := vget v.loops d
    let n := vget v.lc d + 1
    let u : VectorUnit := { v with lc := vset v.lc d n, wb := Fin.ofNat 48 (v.wb.val + l.step) }
    l.active = true → l.last + 1 = v.next →
    (∀ e, d < e → ((vget v.loops e).active && (vget v.loops e).last + 1 == v.next) = false) →
    (n.toNat < l.count → exec (.loopIterationEnd c) s = .next ((s.setVec c { u with next := l.first }).vectorGo c)) ∧
    (l.count ≤ n.toNat → exec (.loopIterationEnd c) s
      = .next ((s.setVec c { u with loops := vset v.loops d { l with active := false } }).vectorGo c)))

/-- Loads and stores of the vector engine (R212-R223, R232, R233): the checks at issue, the place of each position, and what
is read or put there; a load that meets ACCESS or DATA completes its task with that, and writes no result. That a store which
misses or stops puts nothing at all is the model's choice (log 12), and so are the site at which an element of VLDL draws for
a count of ROWS (log 57), and that VPACK's line is one access (log 90). -/
def Obligations.VectorStorage : Prop :=
  ∀ (s : State) (f : VWord),
    let c := s.focus
    let v := s.vec
    let w := (elOf f.type).bytes
    let strided := v.place f true
    let flat := v.place f false
    let bad (b : Bool) (p : Place) (w : Nat) (np : Bool) : Causes :=
      (Causes.when b causeFormat).or (s.placeCauses c p w np)
    let governed {α : Type} (k : Nat) (a : α) : Option α := if v.governs f.pred k then some a else none
    s.LoadsTile (.vld f) f (bad (!v.shapeOk w) strided w false)
      (v.positions.zipIdx.map fun q => governed q.2 (s.placeAt c strided false q.1.1 (q.1.2 * w) w))
      (fun k x => loadValue f (s.vectorDraw f k) x) (fun v l => v.setCodes f.dst w l) ∧
    s.LoadsTile (.vldl f) f (bad (v.rows == 0 || v.cols == 0 || decide (v.lineCount f.dst * w > 2048)) flat w true)
      ((List.range (v.lineCount f.dst)).map fun k =>
        governed (v.lineIndex f.dst k) (s.placeAt c flat false 0 (k * w) w))
      (fun k x => loadValue f (s.vectorDraw f (v.lineIndex f.dst k)) x) (fun v l => v.setLine f.dst w l) ∧
    s.LoadsTile (.vgath f) f (bad (!v.shapeOk w || !v.shapeOk 4) flat w true)
      ((v.operand f.b 4).zipIdx.map fun q => governed q.2 (s.placeIndexed c flat false (signed 32 q.1) w))
      (fun k x => loadValue f (s.vectorDraw f k) x) (fun v l => v.setCodes f.dst w l) ∧
    (∀ i ∈ [Instr.vst f, .vstl f, .vscat f], s.StoresTile i f (s.storesOf i).1 (s.storesOf i).2 0 State.putRuns) ∧
    s.StoresTile (.vpack f) f (s.storesOf (.vpack f)).1 (s.storesOf (.vpack f)).2
      ((s.packedLines f).foldl (fun a l => a ||| l.2.2) 0) State.putTagged ∧
    (let width := 4 * 2 ^ (f.aux.toNat / 512 % 4)
     let n := 512 / width
     s.LoadsTile (.vunpk f) f (bad (!v.shapeOk w || v.cols % n != 0) strided 64 false)
      (v.positions.zipIdx.map fun q => governed q.2
        (s.placeAt c strided false q.1.1 (64 * (q.1.2 / n) + q.1.2 % n * width / 8) ((width + 7) / 8)))
      (fun k x => unpackValue f width (k % v.cols % n % 2 == 0) (s.vectorDraw f k) x)
      fun v l => v.setCodes f.dst w l)

/-- What a word of the vector engine may change. An element-wise word of the arithmetic tables leaves the scalar,
line and predicate registers, the shape, the base and the loop counters. A word that computes in the engine's registers alone, and that the next word follows, changes the engine's
registers, the task's sticky flags and recorded causes, and the agenda; no byte of memory, no docent, no other core. A word
that stores nothing changes no byte of memory, whether it goes on, waits or ends its task, and one that stores changes none
outside the places that it is aimed at (R216; a task with pins to release, R300, writes their counts as it ends, and is set
apart). -/
def Obligations.VectorFrame : Prop :=
  (∀ (r : VRow) (s t : State) (f : VWord), r ∈ floatTable ++ codeTable ++ functionTable ++ integerTable →
    s.Follows → exec (r.instr f) s = .next t →
    s.vec.operandsOk (elOf f.type).bytes ((r.operands f).map fun o => (o, (elOf f.type).bytes)) = true →
    t.mem = s.mem ∧ t.tags = s.tags ∧ (∀ u, t.ctx u = s.ctx u) ∧ (∀ c, c ≠ s.focus → t.core c = s.core c) ∧
    (∀ p, t.part p = s.part p) ∧ t.vec.next = s.vec.next + 1 ∧ t.vec.s = s.vec.s ∧ t.vec.l = s.vec.l ∧
    t.vec.p = s.vec.p ∧ t.vec.shape = s.vec.shape ∧ t.vec.wb = s.vec.wb ∧ t.vec.lc = s.vec.lc) ∧
  (∀ (i : Instr) (s t : State), i.vectorComputes = true → s.Follows → exec i s = .next t →
    t.vec.next = s.vec.next + 1 →
    t.mem = s.mem ∧ t.tags = s.tags ∧ (∀ u, t.ctx u = s.ctx u) ∧ (∀ c, c ≠ s.focus → t.core c = s.core c) ∧
    (∀ p, t.part p = s.part p) ∧ t.vec.kernel = s.vec.kernel ∧ t.vec.task = s.vec.task ∧ t.vec.loops = s.vec.loops ∧
    t.vec.lc = s.vec.lc) ∧
  (∀ (i : Instr) (s t : State), (encodeKernel i).isSome = true → i.vectorStores = false →
    (s.entry s.focus (s.vec.task.getD 0)).pins = [] → exec i s = .next t →
    ∀ a, Memory.byte t.mem a = Memory.byte s.mem a) ∧
  (∀ (i : Instr) (s t : State), i.vectorStores = true → s.vec.after = none →
    (s.entry s.focus (s.vec.task.getD 0)).pins = [] → exec i s = .next t → ∀ a,
    (∀ (q : State) (k : Causes) (l : List (Aim × List Byte)) (ks : List Nat) (left : List DieNum) (va : Word)
      (d : List Byte), s.aimAll (s.taskAgent s.focus (.vector s.focus)) (s.storesOf i).2 Causes.none [] = (q, some (k, l)) →
      (.keys ks left va, d) ∈ l → ∀ x ∈ ks, a < x ∨ x + min 64 d.length ≤ a) →
    Memory.byte t.mem a = Memory.byte s.mem a)

/-! ### Engine records -/

/-- The records of the matrix, transpose and copy engines (R242-R270): each runs by its plan. MMA and DMMA of the group form
and RING wait for their partners. What one unit does: of MMA and DMMA, a column group of a K-step takes the elements read of
A and B into each accumulator element by the exact step or by fused steps in sequence (R249, R251); of MZERO, the elements of
an iteration become zero (R255); of MLDC, they become the codes that it reads (R256); of MDRAIN, the accumulator elements of an
iteration, converted with their parameters, are written where they are aimed (R257; the site of an f64 element is the model's
choice, log 78); of TRN, a block is written with rows and columns exchanged, each element converted (R258); of CPY, a line and
its tag move (R260), of CPYX, from or to the row that an index read once for the row names (R261), of MCAST, to each member in
turn (R263), of CPYQ, from or to a slot of a queue (R266); of FILL, sixteen copies of SPEC are written as a line (R264); of
CPYA, one element is combined at its home (R265); of LDBND, a bound register is loaded (R267); of SCANREF, the references of a
line are listed, and their count goes to a bound register last (R268). A line put at one copy stands there with its tag, and no
other byte changes. The plans hold the model's choices on a bound KROWS above 32,767 (log 79), on the slot that a record which
stops leaves (log 80), on how CPYA resolves a line and what SCANREF leaves unused (log 60), and on which roundings in mode
RSR count (log 85). -/
def Obligations.EngineRecords : Prop :=
  (∀ (s : State) (r : Rec),
    (r.specBits 28 1 = 0 → s.RunsRecord (.mma r) .matrix (fun e => s.mmaPlan e r false) ∧
      s.RunsRecord (.dmma r) .matrix (fun e => s.mmaPlan e r true)) ∧
    s.RunsRecord (.mzero r) .matrix (fun e => s.mzeroPlan e r) ∧
    s.RunsRecord (.mldc r) .matrix (fun e => s.mldcPlan e r) ∧
    s.RunsRecord (.mdrain r) .matrix (fun e => s.mdrainPlan e r) ∧
    s.RunsRecord (.trn r) .transpose (fun e => s.trnPlan e r) ∧
    s.RunsRecord (.cpy r) .copy (fun e => s.cpyPlan e r) ∧
    s.RunsRecord (.cpyx r) .copy (fun e => s.cpyxPlan e r) ∧
    s.RunsRecord (.mcast r) .copy (fun e => s.mcastPlan e r) ∧
    s.RunsRecord (.fill r) .copy (fun e => s.fillPlan e r) ∧
    s.RunsRecord (.cpya r) .copy (fun e => s.cpyaPlan e r) ∧
    s.RunsRecord (.cpyq r) .copy (fun e => s.cpyqPlan e r) ∧
    s.RunsRecord (.ldbnd r) .copy (fun e => s.ldbndPlan e r) ∧
    s.RunsRecord (.scanref r) .copy (fun e => s.scanrefPlan e r)) ∧
  (∀ (p s s1 s2 : State) (c : CoreId) (h : Handle) (e : Entry) (r : Rec) (double : Bool) (i : Nat) (ka kb : Causes)
    (ea eb : List Elem) (xs ys : List (List Valued)),
    let m := e.mma r double
    let g := i % m.groups
    let j := m.trips.at3 (i / m.groups)
    let kv := m.valid j.1
    let n := min 16 (m.trips.t0 - 16 * g)
    let at_ (col : Nat) : Nat := accColAt r.c j.1 j.2.1 j.2.2 + accCols r.fc * (16 * g) + accCols r.fc * col
    let read (t : State) (row col : Nat) : Nat := accRead (t.acc c) (r.c.accRow + row) (at_ col) (4 * accCols r.fc)
    accType r.fc = true → r.a.cls ≠ 4 → r.b.cls ≠ 4 → kv ≠ 0 → at_ n ≤ 512 →
    s.readElems (s.taskAgent c (.matrix c)) (((List.range m.mrows).map fun (row : Nat) =>
      (s.operandRow c e r.a false (r.a.shift row j.1 j.2.1 j.2.2)).elems m.wa 0 kv).flatten) = (s1, some (ka, ea)) →
    s1.readElems (s.taskAgent c (.matrix c)) (((List.range kv).map fun (row : Nat) =>
      (s.operandRow c e r.b false (r.b.shift row j.1 j.2.1 j.2.2)).elems m.wb (16 * g) n).flatten) = (s2, some (kb, eb)) →
    (ka.or kb).stops = false → mmaRows r.fa m.wa r.sa (r.fc != 0x0B#5) 0 kv ea = some xs →
    mmaRows r.fb m.wb r.sb (r.fc != 0x0B#5) (16 * g) n eb = some ys →
    ∃ q : State, (p.mmaPlan e r double).unit c h e i s = .done q ∧ ∀ row < xs.length, ∀ col < n,
      read q row col = r.stepped (e.draw r.mode (s.engine c .matrix).x ((r.c.accRow + row) * 512 + at_ col))
        (read s2 row col) (((xs.getD row []).map (·.val)).zip ((ys.filterMap fun y => y[col]?).map (·.val)))) ∧
  (∀ (p s s1 s2 : State) (c : CoreId) (h : Handle) (e : Entry) (r : Rec) (i : Nat) (k kw : Causes) (es : List Elem)
    (ps : List (Option (Val × Int × Val))) (l : List (Aim × List Byte)),
    let t := e.trips r
    let j := t.at3 i
    let ag := s.taskAgent c (.matrix c)
    let w := (elOf r.fc).width
    let rows := (e.mrows (r.specBits 0 8)).1
    let at_ (n : Nat) : Nat := accColAt r.c j.1 j.2.1 j.2.2 + accCols r.fa * n
    r.a.cls ≠ 4 → s.readElems ag (if r.specBits 8 2 = 1 then ((List.range 3).map fun (q : Nat) =>
      (s.operandRow c e r.b false (r.b.shift q j.1 j.2.1 j.2.2)).elems 32 0 t.t0).flatten else []) = (s1, some (k, es)) →
    k.stops = false →
    (if r.specBits 8 2 = 1 then (drainParams r t.t0 es).map fun x => x.map some
      else some (List.replicate t.t0 none)) = some ps →
    (∀ x ∈ ps, ∀ y, x = some y → -63 ≤ y.2.1 ∧ y.2.1 ≤ 63) →
    let drained : List (List Coded) := (List.range rows).map fun row => ps.zipIdx.map fun x =>
      drainElement r (e.draw r.mode (s1.engine c .matrix).x ((r.c.accRow + row) * 512 + at_ x.2))
        ((elOf r.fa).decode (accRead (s1.acc c) (r.c.accRow + row) (at_ x.2) (4 * accCols r.fa))) x.1
    s1.aimAll ag ((drained.zipIdx.map fun x =>
      drainWrites r (s1.operandRow c e r.a true (r.a.shift x.2 j.1 j.2.1 j.2.2)) w (x.1.map Coded.code)).flatten)
      Causes.none [] = (s2, some (kw, l)) → kw.stops = false →
    let put : State := if r.specBits 10 1 = 1 then l.foldl (fun s a => s.putLine ag (writerOf c .matrix h) a.1 a.2
        (makeTag (((Ty.el (elOf r.fc)).fmt).getD 0) (r.specBits 11 6) 0 a.2)) s2
      else s2.putRuns ag (writerOf c .matrix h) l
    (p.mdrainPlan e r).unit c h e i s = .done ((((put.countStep c .matrix).cause c h (k.or kw))).raiseTask c h
      (drained.foldl (fun a x => a ||| flagsOf x) 0))) ∧
  (∀ (p s : State) (c : CoreId) (h : Handle) (e : Entry) (r : Rec) (i : Nat),
    let j := (e.trips r).at4 i
    let line (d : Desc) (write : Bool) : Reach := s.lineAtIndex c e d write j.1 j.2.1 j.2.2.1 j.2.2.2
    s.MovesLine ((p.cpyPlan e r).unit c h e i s) c h r (line r.a false) (line r.c true)) ∧
  (∀ (p s : State) (c : CoreId) (h : Handle) (e : Entry) (r : Rec) (i : Nat),
    let j := (e.trips r).at4 i
    let d := (List.replicate 16 (bytesOf 4 r.spec.toNat)).flatten
    s.PutsWhole ((p.fillPlan e r).unit c h e i s) c h r (s.lineAtIndex c e r.c true j.1 j.2.1 j.2.2.1 j.2.2.2) d
      (makeTag (r.tailBits 17 8) (r.tailBits 25 8) 0 d) Causes.none) ∧
  (∀ (p s : State) (c : CoreId) (h : Handle) (e : Entry) (r : Rec) (i : Nat),
    let t := e.trips r
    let j := t.at3 i
    let rows := (e.mrows (r.specBits 0 8)).1
    let bytes := 4 * (accCols r.fc * t.t0)
    let start (row : Nat) : Nat := 4 * ((r.c.accRow + row) * 512 + accColAt r.c j.1 j.2.1 j.2.2)
    ∃ q : State, (p.mzeroPlan e r).unit c h e i s = .done q ∧ q.mem = s.mem ∧
      (∀ row < rows, ∀ x < bytes, Memory.byte (q.acc c) (start row + x) = 0) ∧
      ∀ a, (∀ row < rows, a < start row ∨ start row + bytes ≤ a) → Memory.byte (q.acc c) a = Memory.byte (s.acc c) a) ∧
  (∀ (p s s1 : State) (c : CoreId) (h : Handle) (e : Entry) (r : Rec) (i : Nat) (got : Option (Causes × List Elem)),
    let t := e.trips r
    let j := t.at3 i
    let rows := (e.mrows (r.specBits 0 8)).1
    let b := 4 * accCols r.fc
    let first := accColAt r.c j.1 j.2.1 j.2.2
    let start (row : Nat) : Nat := 4 * ((r.c.accRow + row) * 512 + first)
    let unit := (p.mldcPlan e r).unit c h e i s
    s.readElems (s.taskAgent c (.matrix c)) (((List.range rows).map fun (row : Nat) =>
      (s.operandRow c e r.a false (r.a.shift row j.1 j.2.1 j.2.2)).elems (32 * accCols r.fc) 0 t.t0).flatten) = (s1, got) →
    (got = none → unit = .wait s1 false) ∧
    ∀ (k : Causes) (es : List Elem), got = some (k, es) →
      let codes := es.mapM fun x => (x.read (.el (elOf r.fa)) (32 * accCols r.fc) 0).map (·.2)
      (k.stops = true → unit = .stop s1 k) ∧
      (k.stops = false → codes = none → unit = .stop s1 (k.or causeData)) ∧
      ∀ l : List Nat, k.stops = false → codes = some l → first + accCols r.fc * t.t0 ≤ 512 → ∃ acc : Memory,
        unit = .done ((s1.setAcc c acc).cause c h k) ∧
        (∀ row < rows, ∀ x < t.t0, ∀ y < b, Memory.byte acc (start row + b * x + y)
          = BitVec.ofNat 8 (l.getD (row * t.t0 + x) 0 / 256 ^ y)) ∧
        ∀ a, (∀ row < rows, a < start row ∨ start row + b * t.t0 ≤ a) → Memory.byte acc a = Memory.byte (s1.acc c) a) ∧
  (∀ (p s s1 : State) (c : CoreId) (h : Handle) (e : Entry) (r : Rec) (i : Nat) (got : Option (Causes × List Elem)),
    let t := e.trips r
    let j := t.at3 i
    let ag := s.taskAgent c (.transpose c)
    let rows := (e.count (r.specBits 0 16)).1
    let dst := elOf r.fc
    let same := r.fa == r.fc
    let unit := (p.trnPlan e r).unit c h e i s
    s.readElems ag (((List.range rows).map fun (q : Nat) =>
      (s.operandRow c e r.a false (r.a.shift q j.1 j.2.1 j.2.2)).elems (elOf r.fa).width 0 t.t0).flatten) = (s1, got) →
    (got = none → unit = .wait s1 false) ∧
    ∀ (k : Causes) (l : List Elem), got = some (k, l) →
      let read := l.mapM (trnElem same dst.isFloat r.fa)
      (k.stops = true → unit = .stop s1 k) ∧
      (k.stops = false → read = none → unit = .stop s1 (k.or causeData)) ∧
      ∀ vs : List (El × Valued × Nat), k.stops = false → read = some vs → ∃ out : List (List Coded),
        let x := (s1.engine c .transpose).x
        out.length = t.t0 ∧
        (∀ col < t.t0, (out.getD col []).length = rows ∧ ∀ row < rows, (out.getD col [])[row]?
          = (vs[row * t.t0 + col]?).map fun y => if same then ⟨y.2.2, 0⟩
            else trnConvert y.1 dst r.sat r.mode (e.draw r.mode (x + col * rows + row) 0) y.2.1) ∧
        ∀ (q : State) (aimed : Option (Causes × List (Aim × List Byte))),
          s1.aimAll ag ((out.zipIdx.map fun y =>
            (s1.operandRow c e r.c true (r.c.shift y.2 j.1 j.2.1 j.2.2)).writes dst.width (y.1.map Coded.code)).flatten)
            Causes.none [] = (q, aimed) →
          (aimed = none → unit = .wait q false) ∧
          ∀ (kw : Causes) (ws : List (Aim × List Byte)), aimed = some (kw, ws) →
            (kw.stops = true → unit = .stop q (k.or kw)) ∧
            (kw.stops = false →
              let z := q.putRuns ag (writerOf c .transpose h) ws
              unit = .done (((z.setEngine c .transpose { z.engine c .transpose with
                x := x + (if r.mode = .rsr then rows * t.t0 else 0) }).cause c h (k.or kw)).raiseTask c h
                  (out.foldl (fun f row => f ||| flagsOf row) 0)))) ∧
  (∀ (p s q : State) (c : CoreId) (h : Handle) (e : Entry) (r : Rec) (i : Nat) (got : Option (Causes × Int)),
    let j := (e.trips r).at4 i
    let scat := r.specBits 0 1 == 1
    let unit := (p.cpyxPlan e r).unit c h e i s
    s.rowIndex c e r (j.1 == 0) j.2.1 j.2.2.1 j.2.2.2 = (q, got) →
    (got = none → unit = .wait q false) ∧
    ∀ (k : Causes) (x : Int), got = some (k, x) →
      let z := q.cause c h k
      let skips : Prop := r.specBits 1 1 = 1 ∧ x = -1
      (k.stops = true → unit = .stop q k) ∧
      (k.stops = false → skips → unit = .done z) ∧
      (k.stops = false → ¬ skips → z.MovesLine unit c h r
        (z.lineAtIndex c e r.a false j.1 (if scat then j.2.1 else x) j.2.2.1 j.2.2.2)
        (z.lineAtIndex c e r.c true j.1 (if scat then x else j.2.1) j.2.2.1 j.2.2.2))) ∧
  (∀ (s t : State) (c : CoreId) (e : Entry) (r : Rec) (fresh : Bool) (n i2 i3 : Nat),
    let x := (s.engine c .copy).x
    let read := s.readElems (s.taskAgent c (.copy c)) [[(4, s.operandAt c e r.b false (r.b.shift 0 0 i2 i3) (4 * n) 4)]]
    (fresh = false → x ≠ 0 → s.rowIndex c e r fresh n i2 i3 = (s, some (Causes.none, signed 32 (x - 1)))) ∧
    (fresh = true ∨ x = 0 → (read = (t, none) → s.rowIndex c e r fresh n i2 i3 = (t, none)) ∧
      ∀ (k : Causes) (l : List Elem), read = (t, some (k, l)) →
        let v := ofBytes ((l.map fun y => y.data).flatten)
        s.rowIndex c e r fresh n i2 i3
          = (t.setEngine c .copy { t.engine c .copy with x := v + 1 }, some (k, signed 32 v)))) ∧
  (∀ (p s t : State) (c : CoreId) (h : Handle) (e : Entry) (r : Rec) (i : Nat)
    (got : Option (Causes × List Byte × Word)),
    let j := (e.trips r).at4 i
    let group := r.tailBits 9 8
    let lam : Int := r.c.base + r.c.shift j.1 j.2.1 j.2.2.1 j.2.2.2
    let unit := (p.mcastPlan e r).unit c h e i s
    s.readWhole (s.taskAgent c (.copy c)) (s.lineAtIndex c e r.a false j.1 j.2.1 j.2.2.1 j.2.2.2) = (t, got) →
    (got = none → unit = .wait t false) ∧
    ∀ (k : Causes) (d : List Byte) (g : Word), got = some (k, d, g) →
      (k.stops = true → unit = .stop t k) ∧
      (k.stops = false → State.PutsEach c h r (fun q m => if lam < 0 then .bad
          else q.reachPeer c e true true group 255 m (lam.toNat / 2048) (lam.toNat % 2048) 64) d (movedTag g) k unit
        (((p.gangCores p.focus group 160).getD []).filter fun m => r.specBits 0 1 == 1 || m != p.focus) t)) ∧
  (∀ (p s t : State) (c : CoreId) (h : Handle) (e : Entry) (r : Rec) (i : Nat) (took : Option (Option (Fin 8))),
    let j := (e.trips r).at4 i
    let produces := r.c.cls == 4
    let d := if produces then r.c else r.a
    let unit := (p.cpyqPlan e r).unit c h e i s
    s.takeSlot c .copy d produces = (t, took) →
    (took = none → unit = .wait t true) ∧
    ∀ slot : Option (Fin 8), took = some slot →
      let line (x : Desc) (write : Bool) : Reach := if x.cls = 4 then t.slotLine c x slot j.1
        else t.lineAtIndex c e x write j.1 j.2.1 j.2.2.1 j.2.2.2
      ∃ w : Work, t.MovesLine w c h r (line r.a false) (line r.c true) ∧
        (∀ q, w = .done q →
          (∀ n, produces = true → slot = some n →
            unit = .done ((q.wroteSlot c d.queue n j.1).cpyqEnd c r (j.1 + 1 == (e.trips r).t0))) ∧
          (produces = false ∨ slot = none → unit = .done (q.cpyqEnd c r (j.1 + 1 == (e.trips r).t0)))) ∧
        ((∀ q, w ≠ .done q) → unit = w)) ∧
  (∀ (p s t : State) (c : CoreId) (h : Handle) (e : Entry) (r : Rec) (i : Nat) (got : Option (Causes × List Elem)),
    let n := (elOf r.fa).bytes
    let per := 64 / n
    let j := (e.trips r).at4 (i / per)
    let ag := s.taskAgent c (.copy c)
    let shift := r.c.shift j.1 j.2.1 j.2.2.1 j.2.2.2
    let unit := (p.cpyaPlan e r).unit c h e i s
    s.readElems ag [[(n, s.operandAt c e r.a false (r.a.shift j.1 j.2.1 j.2.2.1 j.2.2.2) (n * (i % per)) n)]] = (t, got) →
    (got = none → unit = .wait t false) ∧
    ∀ (k : Causes) (y : Elem), got = some (k, [y]) →
      let code := (y.read (.el (elOf r.fa)) (8 * n) 0).map (·.2)
      let dst := t.operandAt c e r.c true shift (n * (i % per)) n
      (k.stops = true → unit = .stop t k) ∧
      (k.stops = false → code = none → unit = .stop t (k.or causeData)) ∧
      ∀ v, k.stops = false → code = some v →
        (dst = .bad → unit = .stop t (k.or causeAccess)) ∧
        (dst = .suppressed → unit = .done (t.cause c h (k.or causeUndeclared))) ∧
        ∀ va, dst = .found (.va va) →
          (t.ownMemory va = false → unit = .stop t (k.or causeAccess)) ∧
          (t.ownMemory va = true →
            let x := (t.engine c .copy).x
            let step (m : Nat) : Coded := cpyaResult (r.specBits 0 4) r.fa r.mode (e.draw r.mode x 0) m v
            let home := t.rmw ag va n fun q m => (q.raiseTask c h (step m).flags, some (step m).code)
            ∀ q : State, (home = (q, .wait) → unit = .wait q false) ∧
              ∀ old, home = (q, .ok old) →
                let z := q.setEngine c .copy { q.engine c .copy with x := x + (if r.mode = .rsr then 1 else 0) }
                let whole : Prop := i % per + 1 = per ∧
                  ∀ m < per, ∃ l, z.operandAt c e r.c true shift (n * m) n = .found l
                (whole → unit = .done ((z.deliver r c).cause c h k)) ∧ (¬ whole → unit = .done (z.cause c h k)))) ∧
  (∀ (t : BitVec 5) (rm : Rm) (draw m v : Nat),
    let w := (elOf t).width
    (∀ o ∈ [(0, AmoOp.add), (1, .and), (2, .or), (3, .xor), (4, .min), (5, .max), (6, .minn), (7, .maxn)],
      cpyaResult o.1 t rm draw m v = ⟨amoResult o.2 w m v, 0⟩) ∧
    cpyaResult 8 t rm draw m v = famoResult .add rm (flOf t) draw m v ∧
    cpyaResult 9 t rm draw m v = famoResult .min rm (flOf t) draw m v ∧
    cpyaResult 10 t rm draw m v = famoResult .max rm (flOf t) draw m v) ∧
  (∀ (p s t : State) (c : CoreId) (h : Handle) (e : Entry) (r : Rec) (i : Nat) (got : Option (Causes × List Elem)),
    let unit := (p.ldbndPlan e r).unit c h e i s
    s.readElems (s.taskAgent c (.copy c)) [[(4, s.operandAt c e r.a false 0 (4 * i) 4)]] = (t, got) →
    (got = none → unit = .wait t false) ∧
    ∀ (k : Causes) (l : List Elem), got = some (k, l) →
      (k.stops = true → unit = .stop t k) ∧
      (k.stops = false → unit = .done ((t.writeBound c h (r.specBits 0 6 + i)
        (ofBytes ((l.map fun y => y.data).flatten))).cause c h k))) ∧
  (∀ (s : State) (c : CoreId) (h : Handle) (n : BNum) (v : Nat),
    ((s.entry c h).bindsBound n = true → s.writeBound c h n.val v
      = s.setCore c { s.core c with bregs := vset (s.core c).bregs n (BitVec.ofNat 32 v) }) ∧
    ((s.entry c h).bindsBound n = false → s.writeBound c h n.val v = s.cause c h causeUndeclared)) ∧
  (∀ (p s t : State) (c : CoreId) (h : Handle) (e : Entry) (r : Rec) (i : Nat)
    (got : Option (Causes × List Byte × Word)),
    let all := (e.trips r).all
    let counts : Prop := r.specBits 6 1 = 1 ∧ all ≠ 0
    let val := r.specBits 7 1 == 1
    let size := if val then 16 else 8
    let j := (e.trips r).at4 i
    let ag := s.taskAgent c (.copy c)
    let shift := r.a.shift j.1 j.2.1 j.2.2.1 j.2.2.2
    let unit := (p.scanrefPlan e r).unit c h e i s
    (i = all → counts → unit = .done (s.writeBound c h (r.specBits 0 6) (min (s.engine c .copy).x (2 ^ 32 - 1)))) ∧
    (i = all → ¬ counts → unit = .done s) ∧
    (i ≠ all → s.readWhole ag (s.operandAt c e r.a false shift 0 64) = (t, got) →
      (got = none → unit = .wait t false) ∧
      ∀ (k : Causes) (d : List Byte) (g : Word), got = some (k, d, g) →
        let base : Int := if r.a.cls = 3 then ((s.slotStart e r.a.slot).getD 0 : Nat) + r.a.offset + shift
          else 2 ^ 63 + r.a.base + shift
        let found := scanEntries base.toNat d g val
        let x := (t.engine c .copy).x
        let row (off : Nat) : Row := if r.c.cls = 3 then t.operandRow c e r.c true off
          else ⟨fun o n => t.reachTile c e true ((r.c.base + off) / 2048) ((r.c.base + off) % 2048 + o) n,
            (r.c.base + off) % 64⟩
        let listed := t.aimAll ag (((found.take (r.tailBits 0 16 - x)).zipIdx.map fun y =>
          (pieces (row (size * (x + y.2))).col size).map fun z =>
            ((row (size * (x + y.2))).reach z.1 z.2, (y.1.drop z.1).take z.2)).flatten) Causes.none []
        (k.stops = true → unit = .stop t k) ∧
        (k.stops = false → ∀ q : State, (listed = (q, none) → unit = .wait q false) ∧
          ∀ (kw : Causes) (ws : List (Aim × List Byte)), listed = (q, some (kw, ws)) →
            (kw.stops = true → unit = .stop q (k.or kw)) ∧
            (kw.stops = false →
              let z := q.putRuns ag (writerOf c .copy h) ws
              unit = .done ((z.setEngine c .copy { z.engine c .copy with x := x + found.length }).cause c h (k.or kw)))))) ∧
  (∀ (s : State) (ag : Agent) (w : Waiter) (k : Nat) (va : Word) (d : List Byte) (tag : Word), s.Canonical →
    d.length = 64 → k % 64 = 0 → isHostKey k = false →
    let q := s.advanceClock ag.die
    (∀ i < 64, q.followsAt (q.markOf ag.die) (k + i) = true) →
    let t := s.putLine ag w (.keys [k] [] va) d tag
    (∀ i < 64, Memory.byte t.mem (k + i) = d.getD i 0) ∧ t.tags.get (k / 64) = tag ∧
      ∀ a, a < k ∨ k + 64 ≤ a → Memory.byte t.mem a = Memory.byte s.mem a)

/-- The groups of MMA and RING (R253, R262): a record waits until every member's has been released; then all are checked,
and what stops one stops all, with one status (log 59; a B descriptor of another group gives ACCESS, log 77); members that
disagree complete with status FORMAT; else a gang's units run together, and a ring rotates all its lines. A relocation (R269,
R338) first checks its record (FORMAT), its place, queues and regions, and then its object: an entry that exists gives result
2, pins give result 1, a full bucket gives ACCESS, in this order; else the lowest free entry is reserved and MOVING is set
(that a region in present form declares the object too is the model's reading, log 92).
Past its move point it copies its lines, and when the copy has been performed it settles by writing its entry, its old lines
and a result of 0. -/
def Obligations.JointRecords : Prop :=
  (∀ (s : State) (r : Rec) (h : Handle) (l : List CoreId), (s.engine s.focus .matrix).handle = some h →
    r.specBits 28 1 = 1 → s.gangCores s.focus (r.tailBits 0 8) 4 = some l →
    let q := s.setEngine s.focus .matrix { s.engine s.focus .matrix with waiting := true }
    ∀ i, i = .mma r ∨ i = .dmma r →
      exec i s = .next (if (q.gang s.focus r).isSome then q.once (.event (.gangStart s.focus) .none) else q)) ∧
  (∀ (s : State) (c : CoreId) (h : Handle) (i : Instr) (r : Rec) (d : Bool) (l : List (CoreId × Handle × Rec × Bool)),
    s.taken .matrix c = some (h, i) → gangOf i = some (r, d) → s.gang c r = some l →
    let checks := l.map s.gangCauses
    let bad := (checks.foldl (fun a k => a.or k.1) Causes.none).or (Causes.when (!s.gangAgrees l) causeFormat)
    let hull := checks.foldl (fun a k => a.or k.2) Causes.none
    let fresh : Prop := ∃ x ∈ l, (s.engine x.1 .matrix).started = false
    (s.gangAgrees l = false → bad.format = true) ∧
    (fresh → bad.stops = true → exec (.gangStart c) s = .next (s.endGang l bad)) ∧
    (fresh → bad.stops = false → hull.status ≠ 0 → exec (.gangStart c) s = .next (s.endGang l (bad.or hull))) ∧
    (¬ fresh ∨ bad.stops = false ∧ hull.status = 0 →
      let units := ((s.entry c h).mma r d).units
      let done := (s.engine c .matrix).progress
      exec (.gangStart c) s = .next (gangRun l (units - done) done
        (l.foldl (fun s x => (s.cause x.1 x.2.1 (s.gangCauses x).1).setEngine x.1 .matrix
          { s.engine x.1 .matrix with started := true, waiting := false }) s)))) ∧
  (∀ (s : State) (r : Rec) (h : Handle) (e : Entry) (l : List CoreId), s.copying = some (h, e) →
    s.gangCores s.focus (r.tailBits 9 8) 160 = some l →
    let q := s.setEngine s.focus .copy { s.engine s.focus .copy with waiting := true }
    exec (.ring r) s = .next (if (q.ringOf s.focus r).isSome then q.once (.event (.ringStart s.focus) .none) else q)) ∧
  (∀ (s : State) (c : CoreId) (h : Handle) (r : Rec) (l : List (CoreId × Handle × Rec)),
    s.taken .copy c = some (h, .ring r) → s.ringOf c r = some l →
    let t (x : CoreId × Handle × Rec) := (s.entry x.1 x.2.1).trips x.2.2
    let agree : Prop := ∀ x ∈ l, x.2.2.specBits 0 8 = r.specBits 0 8 ∧ (t x).t0 = (t (c, h, r)).t0 ∧
      (t x).t1 = (t (c, h, r)).t1 ∧ (t x).t2 = (t (c, h, r)).t2 ∧ (t x).t3 = (t (c, h, r)).t3
    let checks := l.map fun x => s.ringChecks x.1 (s.entry x.1 x.2.1) x.2.2
    let bad := checks.foldl (fun a k => a.or k.1) Causes.none
    let hull := checks.foldl (fun a k => a.or k.2) Causes.none
    let q := l.foldl (fun s x => s.cause x.1 x.2.1 (s.ringChecks x.1 (s.entry x.1 x.2.1) x.2.2).1) s
    let ends (k : Causes) : State := l.foldl (fun s x => s.endRecord x.1 .copy k) q
    (¬ agree → exec (.ringStart c) s = .next (ends (bad.or causeFormat))) ∧
    (agree → bad.stops = true → exec (.ringStart c) s = .next (ends bad)) ∧
    (agree → bad.stops = false → hull.status ≠ 0 → exec (.ringStart c) s = .next (ends (bad.or hull))) ∧
    (agree → bad.stops = false → hull.status = 0 →
      exec (.ringStart c) s = .next (ringRun l (r.specBits 0 8) (t (c, h, r)).all 0 q))) ∧
  (∀ (s : State) (r : Rec) (h : Handle) (e : Entry), s.copying = some (h, e) →
    (s.engine s.focus .copy).reloc = .none →
    let legal : Bool := r.unusedOk {} && r.tailBits 10 6 == 0 && r.tailBits 23 25 == 0 && r.trips == 0x0001000100010001#64
      && r.a.ok [0] && r.b.ok [3] && r.b.unstrided && r.c.ok [0] && bits (e.region r.b.slot) 0 3 == 2 && s.slotOk e r.b
    let dest := (s.slotStart e r.b.slot).getD 0 + r.b.offset
    let checks (declared : Bool) := ((Causes.when (decide (dest ≥ 2 ^ 58)) causeAccess).or (s.queueGate s.focus e)).or
      (Causes.when (!declared) causeUndeclared)
    let ag := s.taskAgent s.focus (.copy s.focus)
    (legal = false → exec (.reloc r) s = .next (s.endRecord s.focus .copy causeFormat)) ∧
    (e.mayMove r.object = true → s.declared ag e r.object = (s, .ok true)) ∧
    (legal = true → ∀ d : State, s.declared ag e r.object = (d, .wait) → exec (.reloc r) s = .next d) ∧
    (legal = true → ∀ (d : State) (b : Bool), s.declared ag e r.object = (d, .ok b) → (checks b).status ≠ 0 →
      exec (.reloc r) s = .next (d.endRecord s.focus .copy (checks b))) ∧
    (legal = true → ∀ (d : State) (b : Bool), s.declared ag e r.object = (d, .ok b) → (checks b).status = 0 → ∀ t : State,
      let q := d.setEngine s.focus .copy { d.engine s.focus .copy with started := true }
      let found := q.relocChecks ag r.object dest
      (∀ n, found = (t, .ok (.result n)) → exec (.reloc r) s = .next (t.relocResult s.focus h r n)) ∧
      (found = (t, .access) → exec (.reloc r) s = .next (t.endRecord s.focus .copy causeAccess)) ∧
      (found = (t, .data) → exec (.reloc r) s = .next (t.endRecord s.focus .copy causeData)) ∧
      (found = (t, .wait) → exec (.reloc r) s = .next t) ∧
      (∀ (old new len entry : Nat) (lines : List Nat) (ow nw : Word),
        found = (t, .ok (.go (.moved old new len lines entry ow nw))) →
        let m := t.setMoving s.focus lines (lines.headD 0 + old % 64) true
        let m := { m with reserved := m.reserved ++ [entry] }
        exec (.reloc r) s = .next (relocRun s.focus h e old new len lines entry lines.length 0
          (m.setEngine s.focus .copy
            { m.engine s.focus .copy with reloc := .moved old new len lines entry ow nw, progress := 0 }))))) ∧
  (∀ (s s1 s2 s3 s4 : State) (ag : Agent) (w old len dest dn key : Nat) (g dg : Gallery) (ks : List Nat) (d x : List Byte)
    (tag : Word) (lines : List Nat),
    s.locateWrite { ag with source := 3 } (BitVec.ofNat 64 (g.ptab + 64 * bucketOf g (refOffset w))) .never
      = (s1, .ok (key :: ks)) → s1.readLineKey key = (s2, .ok (d, tag)) →
    let found := matchEntry (bits w 22 42) (elements d 64)
    let free := s4.freeEntries key d
    (found.isSome = true → s.movePoint ag w old len dest g dn dg = (s2, .ok (.result 2))) ∧
    (found = none → s2.lineKeys ag (old / 64 * 64) ((old % 64 + len + 63) / 64) = (s3, .ok lines) →
      s3.readKey (lines.headD 0 + old % 64) 16 = (s4, .ok x) →
      (bits (ofBytes x) 64 16 ≠ 0 → s.movePoint ag w old len dest g dn dg = (s4, .ok (.result 1))) ∧
      (bits (ofBytes x) 64 16 = 0 → free = [] → s.movePoint ag w old len dest g dn dg = (s4, .access)) ∧
      (∀ o os, bits (ofBytes x) 64 16 = 0 → free = o :: os → ∃ ow nw : Word,
        s.movePoint ag w old len dest g dn dg = (s4, .ok (.go (.moved old dest len lines (key + o) ow nw))) ∧
        ow.getLsbD 0 = true ∧ ow.toNat / 2 ^ 22 = bits w 22 42))) ∧
  (∀ (s : State) (r : Rec) (h : Handle) (e : Entry) (old new len entry : Nat) (lines : List Nat) (ow nw : Word),
    s.copying = some (h, e) → (s.engine s.focus .copy).reloc = .moved old new len lines entry ow nw →
    let done := (s.engine s.focus .copy).progress
    (e.causes.data = false → e.causes.access = false →
      exec (.reloc r) s = .next (relocRun s.focus h e old new len lines entry (lines.length - done) done s)) ∧
    (e.causes.data = true ∨ e.causes.access = true → exec (.reloc r) s
      = .next ((s.settle s.focus lines (lines.headD 0 + old % 64) entry).endRecord s.focus .copy Causes.none))) ∧
  (∀ (s : State) (c : CoreId) (r : Rec) (h : Handle) (old new len entry : Nat) (lines : List Nat) (ow nw : Word),
    s.taken .copy c = some (h, .reloc r) → (s.engine c .copy).reloc = .moved old new len lines entry ow nw →
    let held := s.waiting (.unit (.copy c))
    (held = true → exec (.relocSettle c) s = .next s) ∧
    (held = false → s.unanswered (.copy c) c h = true →
      exec (.relocSettle c) s = .next (s.once (.event (.relocSettle c) .none))) ∧
    (held = false → s.unanswered (.copy c) c h = false → (s.entry c h).causes.access = false →
      (s.entry c h).causes.data = false →
      let d := (s.taskAgent c (.copy c)).die
      let t := s.storeBy d entry (bytesOf 8 ow.toNat ++ bytesOf 8 nw.toNat) false
      exec (.relocSettle c) s = .next ((t.settle c lines (lines.headD 0 + old % 64) entry).relocResult c h r 0)))

/-! ### The registrar -/

/-- The registrar's steps (R284-R301): release, completion, homing, priming, ageing and the timer wheel. Three things are
the model's choice: the steps come as log 1 picks them, ages are counted in steps and the tick goes to the next multiple of
256 cycles (log 5), and a released docent task takes the lowest EMPTY context (log 16). -/
def Obligations.Registrar : Prop :=
  (∀ (s : State) (c : CoreId) (k : Kind) (a : Candidate) (h : Handle), k ≠ .join →
    let q := s.makeReady c (kindCode k)
    (q.core c).unitFree k = true → q.releaseWaits c k = false → best (q.candidates c (kindCode k)) = some a →
    a.job = .task h → ∀ t : State,
    let todo := if (q.entry c h).pinsObjects then (q.entry c h).objects.drop (q.entry c h).pins.length else []
    let r := q.pinSlots c h (q.registrarAgent c (.release c k h)) todo
    (r = (t, .ok ()) → exec (.taskRelease c k) s = .next ((t.beginTask c k h).once (.event (.taskRelease c k) .none))) ∧
    (r = (t, .wait) → exec (.taskRelease c k) s = .next t) ∧
    (r = (t, .access) → exec (.taskRelease c k) s
      = .next ((t.failRelease c h causeAccess).once (.event (.taskRelease c k) .none))) ∧
    (r = (t, .data) → exec (.taskRelease c k) s
      = .next ((t.failRelease c h causeData).once (.event (.taskRelease c k) .none)))) ∧
  (∀ (s : State) (c : CoreId) (k : Kind) (a : Candidate) (e : Fin 64), k ≠ .join →
    let q := s.makeReady c (kindCode k)
    (q.core c).unitFree k = true → q.releaseWaits c k = false → best (q.candidates c (kindCode k)) = some a →
    a.job = .homing e ∨ a.job = .priming e → exec (.taskRelease c k) s = .next (q.beginHidden c a.job)) ∧
  (∀ (s : State) (c : CoreId), exec (.taskRelease c .join) s
    = (let q := s.makeReady c 5
       .next (((q.core c).handles fun e => e.state == .ready && e.kind == 5).foldl (fun s h =>
        (s.setEntry c h { s.entry c h with state := .running }).complete c h) q))) ∧
  (∀ (s : State) (c : CoreId) (h : Handle),
    let e := s.entry c h
    let open_ := s.unanswered (e.unit c) c h
    (open_ = true → exec (.taskCompletion c h) s = .next (s.once (.event (.taskCompletion c h) .none))) ∧
    (open_ = false → e.kind ≠ 2 → exec (.taskCompletion c h) s = .next (s.complete c h)) ∧
    (open_ = false → e.kind = 2 → e.state = .running →
      exec (.taskCompletion c h) s = .next ((s.failChain c h e.causes.status).complete c h))) ∧
  (∀ (s : State) (c : CoreId) (e : Fin 64),
    let r := vget (s.core c).renames e
    (r.state = .homing → (s.core c).copy.job = .homing e →
      exec (.homingCopy c e) s = .next ((s.hiddenCopy c r.box r.shadow r.box.row).event (.renameRetire c e))) ∧
    (r.state = .homing →
      let t := (s.copyIdle c).dropRename c e
      vget (t.core c).renames e = Rename.reset ∧
      exec (.renameRetire c e) s = .next (((t.setCore c (t.core c).freeGuards).offer c).pokeAll c)) ∧
    (r.priming = true → (s.core c).copy.job = .priming e →
      let t := s.hiddenCopy c r.box r.box.row r.shadow
      let q := t.setCore c { t.core c with
        renames := vset (t.core c).renames e { vget (t.core c).renames e with priming := false } }
      exec (.primingCopy c e) s = .next ((q.copyIdle c).pokeAll c))) ∧
  (∀ (s : State) (c : CoreId) (h : Handle), (s.entry c h).state = .ready →
    (s.now > (s.entry c h).readySince + 65536 →
      exec (.taskAging c h) s = .next (s.setEntry c h { s.entry c h with aged := true })) ∧
    (s.now ≥ (s.entry c h).readySince + 1048576 →
      exec (.taskStarvation c h) s = .next (s.setEntry c h { s.entry c h with starved := true }))) ∧
  (∀ s : State, ∃ t : State, exec .timerWheelTick s = .next t ∧
    t.time = BitVec.ofNat 64 (min ((s.time.toNat / 256 + 1) * 256) (2 ^ 64 - 1)) ∧ t.mem = s.mem ∧ t.tags = s.tags)

/-- Faults and packets that are delivered late (R125, R217, R352): a delayed fault traps a context that still runs its task,
and is recorded as a cause of a task that is done; of the packets held for a core that wait for no shadow room, nor behind
one of their own source, the oldest is tried, unless a post of the core has waited longer (this order by waiting time, and
that a packet which waits for shadow room holds back none that needs none but those of its own source, is the model's reading
of R287, R289 and R352: log 43). -/
def Obligations.DelayedEvents : Prop :=
  (∀ (s : State) (u : CtxRef) (h : Handle) (gen : BitVec 16) (cause : BitVec 8) (va : Word),
    let x := s.ctx u
    let e := s.entry u.core h
    (∀ y : Context, x.state ≠ .empty → x.task = h → x.gen = gen → e.done = false →
      (y = x ∧ (∀ l, x.load = some l → l.op ≠ .failed cause ∨ l.addr ≠ va) ∨
        y = { x with load := none } ∧ ∃ l, x.load = some l ∧ l.op = .failed cause ∧ l.addr = va) →
      exec (.delayedFault u h gen cause va) s = .next ((s.setCtx u y).takeTrap u cause va x.pc)) ∧
    (e.done = true → e.gen = gen → exec (.delayedFault u h gen cause va) s
      = .next ((s.cause u.core h (if cause = 0x0B then causeData else causeAccess)).docentComplete u h gen)) ∧
    (x.state = .empty ∨ x.task ≠ h ∨ x.gen ≠ gen → e.done = false ∨ e.gen ≠ gen →
      exec (.delayedFault u h gen cause va) s = .next s)) ∧
  (∀ (s t : State) (c : CoreId) (x : HeldPacket),
    (s.heldPackets.find? fun z => s.wantsEntry c z && (s.heldOfPair z.packet).head? == some z) = some x →
    let i := Instr.heldPacketAccept c
    let next (q : State) : State := q.once (.event (.parkedPostResume c) .none)
    let older : Prop := ∃ i ∈ (s.core c).waitingPosts, (s.ctx ⟨c, i⟩).postAt ≤ x.at_
    (older → s.holdsPackets x.packet.part = false → x.packet.isSignal = false → exec i s = .next (next s)) ∧
    (¬ older ∨ s.holdsPackets x.packet.part = true ∨ x.packet.isSignal = true →
      (s.takePacket x.packet true = (t, .hold false) → exec i s = .next t) ∧
      (s.takePacket x.packet true = (t, .hold true) → exec i s = .next (next { t with
        heldPackets := t.heldPackets.map fun z => if z == x then { z with cramped := true } else z })) ∧
      (s.takePacket x.packet true = (t, .parked) → exec i s = .next (next (t.unhold x))) ∧
      (∀ n, s.takePacket x.packet true = (t, .answered n) →
        exec i s = .next (next ((t.unhold x).answerPacket x.packet n)))))

/-! ### Reductions and appraisers -/

/-- Reduction slots (R362-R366): an allocation opens a FREE slot; one that breaks R363, that finds the slot OPEN, or that
comes from another device, is refused. A contribution, of a core or of another device, is late, refused or accepted, once a
tick that has come and gone has timed the slot out: that one which is both late and refused is late is the model's reading of
the table of R364 (log 41). Each position of the result is the sum, the minimum, the maximum or the greatest magnitude of what
was accepted (R365), with the seed of the slot's allocation (the model's choice, log 86); the result line, the arrival and the
freeing, and the deadline (R366). Appraisers (R368-R371):
configuration, weights and routes, and the configurations that are refused; when NANLOGIT is set is the model's reading of
R371 (log 54). -/
def Obligations.ReductionAndAppraisers : Prop :=
  (∀ (s : State) (n : BNum) (c : CoreId) (line : List Byte) (clock : Clock), s.arg = .slot n (.record c) line clock →
    let word (i : Nat) : Word := BitVec.ofNat 64 ((codesOf 8 8 line).getD i 0)
    ((s.slot n).opened = false → s.allocationBad n c (codesOf 8 8 line) = false →
      exec .reductionAllocate s = .next ((s.setSlot n { s.slot n with
        opened := true
        alloc := #v[word 0, word 1, word 2, word 3]
        arrivals := []
        parked := none
        parted := false
        seed := (s.part (s.partOf c)).rseed
        due := dueTick s.time.toNat (word 1).toNat }).answerWriter (.record c) true)) ∧
    ((s.slot n).opened = true ∨ s.allocationBad n c (codesOf 8 8 line) = true →
      exec .reductionAllocate s = .next (s.answerWriter (.record c) false)) ∧
    (let t := s.slotTimeout n
     let x := t.slot n
     let w0 := (codesOf 8 8 line).getD 0 0
     let index := w0 / 2 ^ 16 % 2 ^ 10
     let count := x.word0 / 2 ^ 17 % 2 ^ 10
     let late : Prop := x.opened = false ∨ x.parked ≠ none ∨ w0 % 2 ^ 16 ≠ x.word0 / 2 ^ 27 % 2 ^ 16 ∨
       ∃ a ∈ x.arrivals, a.1 = index
     let refused : Prop := t.partOf c ≠ x.part ∨ count < index ∨ 2 ^ 26 ≤ w0
     (late → exec .reductionContribute s = .next ((t.setSlot n { x with
       late := min (x.late + 1) (2 ^ 30 - 1) }).answerWriter (.record c) false)) ∧
     (¬ late → refused → exec .reductionContribute s = .next (t.answerWriter (.record c) false)) ∧
     (¬ late → ¬ refused →
       let y : RSlot := { x with arrivals := x.arrivals ++
         [(index, (codesOf (elOf x.ty).bytes x.elems (line.drop 8)).map (BitVec.ofNat 64))] }
       let q := (t.mergeClock (slotDie n) clock).setSlot n y
       (y.arrivals.length = count + 1 →
         exec .reductionContribute s = .next ((q.completeSlot n (y.status n 0)).answerWriter (.record c) true)) ∧
       (y.arrivals.length ≠ count + 1 →
         exec .reductionContribute s = .next (q.answerWriter (.record c) true))))) ∧
  (∀ (s : State) (n : BNum) (src : FabricSrc) (line : List Byte) (clock : Clock),
    s.arg = .slot n (.fabric src) line clock →
    exec .reductionAllocate s = .next (s.reply src false 1 [] []) ∧
    (s.Serves src →
     let t := s.slotTimeout n
     let x := t.slot n
     let w0 := (codesOf 8 8 line).getD 0 0
     let index := w0 / 2 ^ 16 % 2 ^ 10
     let count := x.word0 / 2 ^ 17 % 2 ^ 10
     let late : Prop := x.opened = false ∨ x.parked ≠ none ∨ w0 % 2 ^ 16 ≠ x.word0 / 2 ^ 27 % 2 ^ 16 ∨
       ∃ a ∈ x.arrivals, a.1 = index
     let refused : Prop := count < index ∨ 2 ^ 26 ≤ w0
     (late → exec .reductionContribute s = .next ((t.setSlot n { x with
       late := min (x.late + 1) (2 ^ 30 - 1) }).reply src false 1 [] [])) ∧
     (¬ late → refused → exec .reductionContribute s = .next (t.reply src false 1 [] [])) ∧
     (¬ late → ¬ refused →
       let y : RSlot := { x with arrivals := x.arrivals ++
         [(index, (codesOf (elOf x.ty).bytes x.elems (line.drop 8)).map (BitVec.ofNat 64))] }
       let q := t.setSlot n y
       exec .reductionContribute s = .next ((if y.arrivals.length = count + 1
         then q.completeSlot n (y.status n 0) else q).reply src true 0 [] [])))) ∧
  (∀ (s : State) (src : FabricSrc) (va : Word) (d : List Byte) (tags : List Word) (off : Nat) (a : Arg),
    s.arg = .store src va d tags → s.target va = .aperture off → d.length = 64 → va.toNat % 64 = 0 →
    tags = [] ∨ tags.length = 1 → s.waitsAlready src = false → s.sourceWaits src = false →
    apertureStep off (.fabric src) (Vector.replicate 4 0) d 0 = some (.reductionContribute, a) →
    exec .fabricWrite s = .next { s with agenda := .event .reductionContribute a :: s.agenda }) ∧
  (∀ (x : RSlot) (n : BNum) (i : Nat), i < x.elems → ∃ k : Coded, (x.results n)[i]? = some k ∧
    let codes := x.arrivals.map fun a => (a.2.getD i 0).toNat
    (∀ g : Fl, elOf x.ty = .fl g →
      let vs := codes.map g.decode
      let nums := vs.filter fun v => !v.isNan
      let rm := (rmOf (x.word0 / 2 ^ 8 % 8)).getD .rne
      let draw := (rand32 (randKey x.seed n.val (x.word0 / 2 ^ 27 % 2 ^ 16) 0) (BitVec.ofNat 32 i) 0).toNat
      let least (b : Bool) (l : List Val) (v : Val) : Nat :=
        (g.round false .rne 0 (l.foldl (fun a c => if belowVal (if b then c else a) (if b then a else c) then c else a) v)).code
      if x.word0.testBit 7 = false ∧ ∃ v ∈ vs, v.isNan = true then k.code = g.canon
      else (x.op = 0 → nums = [] → k.code = 0) ∧
        (x.op = 0 → nums ≠ [] → k.code = (g.round false rm draw (exactSum rm nums).canonical.val).code) ∧
        (x.op = 1 → k.code = least true nums (.inf false)) ∧ (x.op = 2 → k.code = least false nums (.inf true)) ∧
        (x.op = 3 → k.code = least false (nums.map Val.abs) (.fin false 0 0))) ∧
    (∀ t : ITy, elOf x.ty = .int t →
      let vs := codes.map t.read
      k.flags = 0 ∧ (x.op = 0 → k.code = t.write (x.word0.testBit 47) vs.sum) ∧
      (x.op = 1 → k.code = t.write false (vs.foldl min t.hi)) ∧ (x.op = 2 → k.code = t.write false (vs.foldl max t.lo)) ∧
      (x.op = 3 → k.code = t.write (x.word0.testBit 47) (vs.foldl (fun a v => max a v.natAbs) 0)))) ∧
  (∀ (s q : State) (n : BNum) (w : Word),
    let x := s.slot n
    let mark := if w.toNat % 4 = 0 then 0 else 2 ^ 42
    let line : List Byte := ((bytesOf 8 w.toNat ++ ((x.results n).map fun (k : Coded) => bytesOf (elOf x.ty).bytes k.code).flatten) ++
      List.replicate 64 0).take 64
    (∀ (ks : List Nat) (left : List DieNum) (va : Word),
      s.aim (s.slotAgent n) (.va (vget x.alloc 3)) false = (q, .ok (.keys ks left va)) →
      let t := q.putAt (s.slotAgent n) ks left va line .plain
      s.completeSlot n w = if left = [] then t.freeSlot n mark
        else t.setSlot n { t.slot n with parked := some w, parted := true }) ∧
    (s.aim (s.slotAgent n) (.va (vget x.alloc 3)) false = (q, .wait) →
      s.completeSlot n w = q.setSlot n { q.slot n with parked := some w }) ∧
    (s.aim (s.slotAgent n) (.va (vget x.alloc 3)) false = (q, .access) ∨
      s.aim (s.slotAgent n) (.va (vget x.alloc 3)) false = (q, .data) → s.completeSlot n w = q.freeSlot n (2 ^ 42))) ∧
  (∀ time deadline : Nat, let due := dueTick time deadline
    due % 256 = 0 ∧ deadline ≤ due ∧ (deadline ≤ time → time < due) ∧ due ≤ max time deadline + 256) ∧
  (∀ (s : State) (n : BNum), (s.slot n).opened = true →
    (∀ w, (s.slot n).parked = some w → s.waiting (.slot n) = false →
      ((s.slot n).parted = false → exec (.reductionDeadline n) s = .next (s.completeSlot n w)) ∧
      ((s.slot n).parted = true → exec (.reductionDeadline n) s
        = .next (s.freeSlot n (if w.toNat % 4 = 0 then 0 else 2 ^ 42)))) ∧
    ((s.slot n).parked = none → (s.slot n).due ≤ s.time.toNat →
      exec (.reductionDeadline n) s = .next (s.completeSlot n ((s.slot n).status n 1))) ∧
    ((s.slot n).parked = none → s.time.toNat < (s.slot n).due →
      exec (.reductionDeadline n) s = .next s)) ∧
  (∀ (s : State) (k : Plane) (c : CoreId) (off : Nat) (line : List Byte) (tag : Word),
    s.arg = .appraiser k (.record c) off line tag →
    let puts (a : Appraiser) : State := { s with appraisers := vset s.appraisers k a }
    (off = 0 → configBad (codesOf 8 8 line) = false → exec .appraiserConfiguration s = .next (((puts
      { s.appraiser k with nextConfig := some (BitVec.ofNat 64 ((codesOf 8 8 line).getD 0 0)) }).settleAppraiser k).answerWriter
        (.record c) true)) ∧
    (tagFmt tag = 0 → exec .appraiserWeightWrite s = .next (((puts
      { s.appraiser k with nextWeights := (s.appraiser k).nextWeights ++ [(off, line)] }).settleAppraiser k).answerWriter
        (.record c) true)) ∧
    (off ≠ 0 ∨ configBad (codesOf 8 8 line) = true →
      exec .appraiserConfiguration s = .next (s.answerWriter (.record c) false)) ∧
    (tagFmt tag ≠ 0 → exec .appraiserWeightWrite s = .next (s.answerWriter (.record c) false))) ∧
  (∀ (s : State) (k : Plane) (src : FabricSrc) (off : Nat) (line : List Byte) (tag : Word),
    s.arg = .appraiser k (.fabric src) off line tag →
    exec .appraiserConfiguration s = .next (s.reply src false 1 [] []) ∧
    exec .appraiserWeightWrite s = .next (s.reply src false 1 [] [])) ∧
  (∀ ws : List Nat, configBad ws = true ↔
    let w := ws.getD 0 0
    let k := w / 2 ^ 22 % 2 ^ 4
    k = 0 ∨ 8 < k ∨ w / 2 ^ 26 % 2 ^ 2 = 3 ∨ 159 < w / 2 ^ 32 % 2 ^ 8 ∨ w / 2 ^ 44 % 2 ^ 12 = 0 ∨
      w / 2 ^ 56 % 2 ^ 8 ≠ 0 ∨ (∃ x ∈ ws.drop 1, x ≠ 0) ∨
      2 ^ 19 < (w / 2 % 2 ^ 13 + 1) * (w / 2 ^ 14 % 2 ^ 8 + 1) ∨ 8192 < w / 2 % 2 ^ 13 + 1) ∧
  (∀ (s : State) (c : CoreId) (n : QNum) (i : Fin 8) (k : Plane), s.arg = .queue c n i → (s.queue c n).plane = k →
    (s.queue c n).state = .opened → (s.queue c n).routes ≠ 0 →
    let w := (s.appraiser k).config.toNat
    let tokens := w / 2 ^ 44 % 2 ^ 12
    let rho := roundUp (2 * (w / 2 % 2 ^ 13 + 1)) 64
    let token := tokens - (s.queue c n).routes
    let line := s.routeLine (s.appraiser k) ((s.queue c n).slotKey c i.val) token
    let t := s.storeLine ((s.queue c n).slotKey c i.val (tokens * rho + 64 * token)) line (makeTag 0 0 0 line)
    ((s.queue c n).routes = 1 → exec .routeLineWrite s = .next ((t.filled c n i).settleAppraiser k)) ∧
    ((s.queue c n).routes ≠ 1 → exec .routeLineWrite s
      = .next (t.setQueue c n { t.queue c n with routes := (s.queue c n).routes - 1 })))

/-! ### The fabric and link queues -/

/-- Requests of other devices, planes, markers and fault records (R345-R352, R379, R408): a request served for the first time
does its access and is answered, at once or when the parts of its write that wait have been made (R378); the live masks
change while a keeper leads, and a lost plane breaks its queues and has its unanswered requests sent again. The model reads
the order of a plane so that a request waits behind those of its source and plane that wait (log 42), and keeps a change of
links until a keeper leads (log 69). A request that waits here and is sent again on another plane is not done twice: the
one that waits answers on the new plane (R347). -/
def Obligations.FabricRequests : Prop :=
  (∀ (s : State) (k : Packet), s.arg = .packet k → exec .signalPacket s = .next (s.packetArrives k) ∧
    exec .postPacket s = .next (s.packetArrives k)) ∧
  (∀ (s t : State) (src : FabricSrc) (va : Word) (n : Nat) (d : List Byte), s.arg = .read src va n → s.Serves src →
    s.reachable va = true → va.toNat % n = 0 → n = 8 ∨ n = 16 ∨ n = 32 →
    s.readVa (s.fabricAgent src .fabricRead) va n = (t, .ok d) →
    exec .fabricRead s = .next (t.reply src true 0 d [])) ∧
  (∀ (s t : State) (src : FabricSrc) (va : Word) (n : Nat) (l : List (List Byte × Word)), s.arg = .read src va n →
    s.Serves src → s.reachable va = true → va.toNat % n = 0 → n = 64 ∨ n = 128 ∨ n = 256 →
    s.replyLines (s.fabricAgent src .fabricRead) va (n / 64) = (t, .ok l) →
    exec .fabricRead s = .next (t.reply src true 0 (l.map fun x => x.1).flatten (l.map fun x => x.2))) ∧
  (∀ (s t q : State) (src : FabricSrc) (va : Word) (d : List Byte) (p : List Nat × List DieNum),
    s.arg = .store src va d [] → s.Serves src → s.reachable va = true →
    d.length = 1 ∨ d.length = 2 ∨ d.length = 4 ∨ d.length = 8 → va.toNat % d.length = 0 →
    s.locateAll (s.fabricAgent src .fabricWrite) va = (t, .ok p) →
    t.storeSpread (s.fabricAgent src .fabricWrite) none va p d false = (q, .ok ()) →
    (p.2 = [] → exec .fabricWrite s = .next (q.reply src true 0 [] [])) ∧
    (p.2 ≠ [] → exec .fabricWrite s = .next q)) ∧
  (∀ (s t : State) (src : FabricSrc) (va : Word) (d : List Byte) (tags : List Word) (ms : List Aim),
    s.arg = .store src va d tags → s.Serves src → s.reachable va = true →
    d.length = 64 ∨ d.length = 128 ∨ d.length = 192 ∨ d.length = 256 → va.toNat % 64 = 0 →
    tags = [] ∨ tags.length = d.length / 64 → (∀ off, s.target va ≠ .aperture off) →
    s.aimLines (s.fabricAgent src .fabricWrite) va tags.isEmpty (d.length / 64) = (t, .ok ms) →
    let q := ms.zipIdx.foldl (fun q p => q.putFabricLine (s.fabricAgent src .fabricWrite) p.1
      ((d.drop (64 * p.2)).take 64) tags[p.2]?) t
    ((∀ m ∈ ms, m.parted = false) → exec .fabricWrite s = .next (q.reply src true 0 [] [])) ∧
    ((∃ m ∈ ms, m.parted = true) → exec .fabricWrite s = .next q)) ∧
  (∀ (s t : State) (src : FabricSrc) (va : Word) (op : Option AmoOp) (z : ASize) (v cmp : Word) (old : Nat),
    s.arg = .atomic src va op z v cmp → s.Serves src → s.reachable va = true → va.toNat % z.size.bytes = 0 →
    s.rmw (s.fabricAgent src .fabricAtomic) va z.size.bytes (fun q o => (q, match op with
      | some f => some (amoResult f (8 * z.size.bytes) o v.toNat)
      | none => if o = cmp.toNat % 2 ^ (8 * z.size.bytes) then some (v.toNat % 2 ^ (8 * z.size.bytes)) else none))
      = (t, .ok old) →
    exec .fabricAtomic s = .next (t.reply src true 0 (bytesOf z.size.bytes old) [])) ∧
  (∀ (s : State) (src : FabricSrc) (w : Word), s.arg = .marker src w → s.answered src.dev src.seq = none →
    s.waitsAlready src = false → s.sourceWaits src = false →
    exec .fenceMarker s = .next (s.reply src true 0 [] [])) ∧
  (∀ (s : State) (src : FabricSrc) (i : Instr), s.answered src.dev src.seq = none →
    (i = .fabricRead ∧ (∃ va n, s.arg = .read src va n) ∨
      i = .fabricWrite ∧ (∃ va d tags, s.arg = .store src va d tags) ∨
      i = .fabricAtomic ∧ (∃ va op z v cmp, s.arg = .atomic src va op z v cmp) ∨
      i = .fenceMarker ∧ ∃ w, s.arg = .marker src w) →
    (s.waitsAlready src = true → exec i s = .next (s.comesAgain src)) ∧
    (s.waitsAlready src = false → s.sourceWaits src = true → exec i s = .next (s.queueBehind i src))) ∧
  (∀ (s : State) (u : CtxRef) (dev : DevNum) (p : Plane) (f : BitVec 32), s.arg = .markerAnswer u dev p f →
    let t : State := { s with requests := s.requests.filter fun r => r.who != Waiter.marker u dev p f }
    ((s.ctx u).fseq = f → exec .fenceMarkerAnswer s
      = .next ((t.setCtx u { s.ctx u with markers := (s.ctx u).markers.erase (dev, p) }).endTrail u)) ∧
    ((s.ctx u).fseq ≠ f → exec .fenceMarkerAnswer s = .next t)) ∧
  (∀ (s : State) (q : BitVec 32) (n : BitVec 3) (r : Request), s.arg = .completion q n →
    (s.requests.find? fun x => x.seq == q) = some r → exec .errorCompletion s = .next (s.requestFails r n 2)) ∧
  (∀ (s : State) (p : Plane), s.arg = .down p none →
    exec .planeDown s = .next (({ s with stations := vset s.stations p false } : State).losePlane p fun _ => true)) ∧
  (∀ (s : State) (p : Plane) (d : DevNum), s.arg = .down p (some d) →
    let t : State := { s with
      live := s.live.map fun x => if x.1 == d then (x.1, x.2 &&& ~~~(1#16 <<< p.val)) else x }
    (s.leads = true → exec .planeDown s = .next (t.losePlane p fun e => e == d)) ∧
    (s.leads = false → exec .planeDown s
      = .next { s with linkChanges := s.linkChanges ++ [.down p (some d)] })) ∧
  (∀ (s : State) (p : Plane) (hit : DevNum → Bool), s.losePlane p hit
    = (s.requests.filter fun r => r.plane == p && hit r.dev).foldl (fun q r => q.resend r) (s.planeQueues p hit)) ∧
  (∀ (s : State) (p : Plane) (devs : List DevNum), s.arg = .up p devs → ∃ t : State, exec .planeUp s = .next t ∧
    vget t.stations p = true ∧ (∀ q, q ≠ p → vget t.stations q = vget s.stations q) ∧ t.mem = s.mem ∧
    (s.leads = true → ∀ d ∈ devs, ∃ m, (d, m) ∈ t.live ∧ m.getLsbD p.val = true) ∧
    (s.leads = false → t.live = s.live ∧ t.linkChanges = s.linkChanges ++ [.up p devs])) ∧
  (∀ (s : State) (p : PartNum) (v : BitVec 32) (r : FaultRecord), s.arg = .part p v →
    (s.records.find? fun r => r.part == p) = some r →
    let x := s.part p
    let size := 2 ^ x.flsize.toNat
    (size ≤ (x.flprod - x.flcons).toNat → exec .faultRecordWrite s = .next (s.setPart p { x with ovf := true })) ∧
    ((x.flprod - x.flcons).toNat < size → x.armed = false → ∃ t : State, exec .faultRecordWrite s = .next t ∧
      t = (let q := s.storeKey (hostKey (x.flbase.toNat + 32 * (x.flprod.toNat % size)))
              ((r.words.toList.map fun w => bytesOf 8 w.toNat).flatten) false
           (({ q with records := s.records.erase r } : State).setPart p { x with
              flprod := x.flprod + 1
              armed := false }).flushRecords p)))

/-- The lines of link queues (R254, R355-R361): what each kind does at the queue it reaches, and how a filled slot leaves and
is answered. That a FILL waits while a slot's routes are still to be written is the model's reading (log 71). -/
def Obligations.QueueLines : Prop :=
  (∀ (s t : State) (l : QLine) (d : List Byte) (g : Word) (c : CoreId), s.Lands l d g c t →
    let q := t.queue c l.q
    let w := l.word.toNat
    (q.state = .closed → q.held.length < 8 →
      exec .queuePermit s = .next ((t.setQueue c l.q { q with held := q.held ++ [l] }).lineEnds l)) ∧
    (q.state = .opened → q.outbound = true → q.matchesLine l = true →
      exec .queuePermit s = .next (((t.takePermitLine c l.q l.word).senderPassed l).lineEnds l)) ∧
    (q.state = .opened → q.routes ≠ 0 → exec .queueFill s = .next (s.afterRoutes c l.q (.event .queueFill s.arg))) ∧
    (q.state = .opened → q.routes = 0 → q.outbound = false → q.matchesLine l = true →
      (64 * (w / 2 ^ 7 % 2 ^ 17) ≤ q.slotBytes →
        let k := (List.finRange 16).foldl State.settleAppraiser t
        exec .queueFill s = .next ((k.setQueue c l.q { q with
          slots := vset q.slots (Fin.ofNat 8 (w / 2 ^ 4 % 2 ^ 3)) .filling
          fill := some ⟨Fin.ofNat 8 (w / 2 ^ 4 % 2 ^ 3), w / 2 ^ 7 % 2 ^ 17, 0, k.routeLines c l.q⟩
          bound := true }).lineEnds l)) ∧
      (q.slotBytes < 64 * (w / 2 ^ 7 % 2 ^ 17) → exec .queueFill s = .next ((t.breakBoth c l.q 3).lineEnds l))) ∧
    (∀ f, q.fill = some f → q.state = .opened → q.matchesLine l = true → f.got < f.size →
      let key := q.slotKey c f.slot.val (64 * f.got)
      let k := ((t.arrivingTag (key / 64) d g).1.storeLine key d (t.arrivingTag (key / 64) d g).2).setQueue c l.q { q with fill := some { f with got := f.got + 1 } }
      (lineOk d g = true → (t.arrivingTag (key / 64) d g) = (t, g)) ∧
      (lineOk d g = false → (t.arrivingTag (key / 64) d g).2 = g ||| 0x1000000) ∧
      (f.got + 1 < f.size → exec .queueFillLine s = .next (k.lineEnds l)) ∧
      (f.got + 1 = f.size → f.routes = 0 → exec .queueFillLine s = .next ((k.filled c l.q f.slot).lineEnds l))) ∧
    (q.matchesLine l = true → exec .queueClose s = .next ((t.breakQueue c l.q 2).lineEnds l) ∧
      exec .queueBreak s = .next ((t.breakQueue c l.q (w / 2 ^ 28 % 16)).lineEnds l)) ∧
    (q.state = .opened → q.matchesLine l = true →
      exec .queueSuspend s = .next ((t.setQueue c l.q { q with suspended := true }).lineEnds l) ∧
      (q.outbound = true → exec .queueResume s = .next ((q.order.foldl
        (fun k i => k.eventWith .tileWalkSend (.queue c l.q i)) (t.setQueue c l.q { q with suspended := false })).lineEnds
          l)) ∧
      (q.outbound = false → exec .queueResume s = .next ((q.permits.foldl (fun k i => k.sendPermit c l.q i.val)
        (t.setQueue c l.q { q with suspended := false, permits := [] })).lineEnds l)))) ∧
  (∀ (s : State) (c : CoreId) (n : QNum) (j i : Fin 8) (r : List (Fin 8)), s.arg = .queue c n j →
    let q := s.queue c n
    let f := vget q.fills i
    q.order = i :: r → q.state = .opened → q.outbound = true → q.suspended = false →
    let t := (s.setQueue c n { q with slots := vset q.slots i .draining, order := r }).sendControl c n .queueFill
      (controlWord 2 f.1.val f.2 0 0)
    let k := (List.range f.2).foldl (fun t j => t.sendFillLine c n i f.1.val f.2 j) t
    (q.dev = k.devId → exec .tileWalkSend s = .next (k.eventWith .tileWalkSlotAnswered (.queue c n i))) ∧
    (q.dev ≠ k.devId → exec .tileWalkSend s = .next k)) ∧
  (∀ (s : State) (c : CoreId) (n : QNum) (i : Fin 8), s.arg = .queue c n i →
    let q := s.queue c n
    (s.fillOnWay c n = true →
      exec .tileWalkSlotAnswered s = .next (s.once (.event .tileWalkSlotAnswered (.queue c n i)))) ∧
    (s.fillOnWay c n = false → q.state = .opened → vget q.slots i = .draining → exec .tileWalkSlotAnswered s
      = .next ((s.setQueue c n { q with slots := vset q.slots i .empty }).wakeUnits c))) ∧
  (∀ (s : State) (b : BitVec 32) (k : BitVec 3) (r : Request) (c : CoreId) (n : QNum) (i : Fin 8), s.arg = .completion b k →
    (s.requests.find? fun x => x.seq == b) = some r → r.who = .fillLine c n i →
    let t : State := { s with requests := s.requests.erase r }
    ((∃ x ∈ t.requests, x.who = .fillLine c n i) → exec .tileWalkSlotAnswered s = .next t) ∧
    ((∀ x ∈ t.requests, x.who ≠ .fillLine c n i) → exec .tileWalkSlotAnswered s = .next (t.slotAnswered c n i)))

/-! ### Errors and the host's memory -/

/-- Errors and host accesses (R387, R388, R407, R414). A core's failure: its tasks complete with DATA (one whose pins are
released first, when they are), its contexts are EMPTY and its engines idle, its groups and its OPEN queues are BROKEN, its
catalogue refuses, and its partition has its error interrupt; that every agent's reads of its tile store give DATA is the
model's reading, since R388 speaks of peer reads (log 45). A poisoned line. Corrected errors raise source 6 of Table 14.4 when
they pass a threshold that the device fixes (R407, log 15). The host's writes stand in device memory (with the die and the
clock that the model gives them, log 73), its reads return what is there, once the earlier writes that wait at a copy of a
replicated page have been made (log 62), and the memory of a die that has not joined the device takes neither (log 74). -/
def Obligations.ErrorsAndHost : Prop :=
  (∀ (s : State) (c : CoreId), s.arg = .core c →
    ((s.core c).failed = true → exec .coreFailure s = .next s) ∧
    ((s.core c).failed = false → s.inPart c = false →
      exec .coreFailure s = .next (s.setCore c { s.core c with failed := true, closed := true })) ∧
    ((s.core c).failed = false → s.inPart c = true → (s.core c).copy.reloc = .none → ∃ t : State,
      exec .coreFailure s = .next t ∧ (t.core c).failed = true ∧ (t.core c).closed = true ∧
      (∀ k, (t.ctx ⟨c, k⟩).state = .empty) ∧
      (∀ h, (s.entry c h).state ≠ .free → (s.entry c h).pins = [] →
        (t.entry c h).state = .free ∧ (t.entry c h).status = 3) ∧
      (t.core c).vec.task = none ∧ (t.core c).matrix.handle = none ∧ (t.core c).transpose.handle = none ∧
      (t.core c).copy.handle = none ∧ (∀ g ∈ s.groupsOf c, (t.group g).state = .broken) ∧
      (∀ n, (s.queue c n).state = .opened → (t.queue c n).state = .broken ∧ (t.queue c n).cause = 1) ∧
      (t.part (s.partOf c)).istat.getLsbD 6 = true)) ∧
  (∀ (s : State) (ag : Agent) (c : CoreId) (row col : Nat), (s.core c).failed = true →
    s.readLoc ag (.tile c row col) = (s, .data)) ∧
  (∀ (s : State) (c : CoreId) (k : Packet), ((s.core c).failed = true → s.takeSignal c k = (s, .answered 1)) ∧
    ((s.core c).closed = true → k.head % 256 = 1 → k.bad = false → (vget k.image.1 0).getLsbD 9 = !k.image.2.isEmpty →
      ∀ grant, (s.takePost c k grant).2 = .answered 2)) ∧
  (∀ (s : State) (n : Nat), s.arg = .line n → exec .linePoison s
    = .next { s with tags := s.tags.set n (s.tags.get n ||| 0x1000000) }) ∧
  (∀ (s : State) (p : PartNum) (v : BitVec 32), s.arg = .part p v →
    let t := s.setPart p { s.part p with softErrors := (s.part p).softErrors + 1 }
    exec .correctedSoftError s
      = .next (if Config.softErrorThreshold < (s.part p).softErrors + 1 then t.raiseSource p 6 else t)) ∧
  (∀ (s : State) (die : DieNum) (pa : Nat) (d : List Byte), s.arg = .host die pa d → pa + d.length ≤ 2 ^ 37 →
    let k := devKey die pa
    (s.dieJoins die = false → exec .hostWrite s = .next s ∧ exec .hostRead s = .next s) ∧
    (s.dieJoins die = true → (∀ p ∈ linesOf k d.length, s.moving p.1 = false) →
      exec .hostWrite s = .next (s.hostPut die k d) ∧
      ((∀ p, vget (s.part p).roots die = 0) →
        ((∀ p ∈ linesOf k d.length, p.2.2 < 64 → (s.verify (p.1 / 64)).2 = true) →
          (∀ i < d.length, (s.hostMark die).1.followsAt (s.hostMark die).2 (k + i) = true) →
          ∀ i < d.length, Memory.byte (s.hostPut die k d).mem (k + i) = d.getD i 0) ∧
        ∀ a, a < k ∨ k + d.length ≤ a → Memory.byte (s.hostPut die k d).mem a = Memory.byte s.mem a)) ∧
    (s.dieJoins die = true →
      (∀ b, s.copyBehind die k d.length (.fabric .hostRead s.arg) = some b →
        exec .hostRead s = .next { s with behind := s.behind ++ [b] }) ∧
      (s.copyBehind die k d.length (.fabric .hostRead s.arg) = none → ∃ (t : State) (failed : Bool), exec .hostRead s
        = .next { t with out := t.out ++ [.hostReadReply (Memory.read s.mem k d.length) failed] } ∧ t.mem = s.mem)))

/-! ### Commands, registers, keepers -/

/-- The commands of a command queue (R398-R403, R412, Table 14.3): a failing check of the packet alone stops its queue (their
order is the model's reading, log 17); WRITE and FENCE store at package scope, LINK opens a block, TIMEBASE sets the time,
and with it the ticks of the slots' deadlines, SIGNAL delivers its packet, with the clock of everything performed, and waits
while it is neither accepted, refused nor held (on the device queue also while its partition is quiesced; both log 21),
PARTCFG configures an EMPTY partition, whose clusters lie on dies that have joined the device (log 74), TAGLOAD moves lines
with their tags. -/
def Obligations.QueueCommands : Prop :=
  (∀ (s : State) (c : Cmd) (n : Nat), s.arg = .cmd c →
    ∀ i ∈ [Instr.restore, .save, .quiesce, .resetPart, .write, .signal, .fenceCommand, .link, .replay, .timebase, .tagload,
      .partcfg], s.packetFault i c = some n → exec i s = .next (s.commandError c n)) ∧
  (∀ (s : State) (c : Cmd) (k : Nat), s.Issues .write c → s.commandKey c.q.own c.c.toNat 4 = some k →
    s.commandHeld k 4 = false →
    exec .write s = .next ((s.commandPut k (bytesOf 4 c.b.toNat)).commandDone c)) ∧
  (∀ (s : State) (c : Cmd), s.Issues .fenceCommand c → s.hostHeld = true → exec .fenceCommand s = .next s) ∧
  (∀ (s : State) (c : Cmd), s.Issues .fenceCommand c → s.hostHeld = false →
    let t : State := { s with fenceClock := s.allClocks }
    (c.c = 0 → exec .fenceCommand s = .next (t.commandDone c)) ∧
    (∀ k, c.c ≠ 0 → t.commandKey c.q.own c.c.toNat 4 = some k → t.commandHeld k 4 = false → isHostKey k = true →
      exec .fenceCommand s = .next ((t.commandPut k (bytesOf 4 c.b.toNat)).commandDone c)) ∧
    (∀ k, c.c ≠ 0 → t.commandKey c.q.own c.c.toNat 4 = some k → t.commandHeld k 4 = false → isHostKey k = false →
      exec .fenceCommand s = .next (((t.mergeClock (Fin.ofNat 4 (k / 2 ^ 37)) s.allClocks).commandPut k
        (bytesOf 4 c.b.toNat)).commandDone c))) ∧
  (∀ (s : State) (c : Cmd), s.Issues .link c →
    let t := s.leaveCommand c
    let u := t.setCmdQueue c.q { t.cmdQueue c.q with links := ⟨c.c, c.a.toNat, c.irq⟩ :: (t.cmdQueue c.q).links }
    ((u.cmdQueue c.q).en = true → exec .link s = .next (u.once (.unit (.cmdq c.q)))) ∧
    ((u.cmdQueue c.q).en = false →
      exec .link s = .next (u.setCmdQueue c.q { u.cmdQueue c.q with state := .stopped }))) ∧
  (∀ (s : State) (c : Cmd), s.Issues .timebase c →
    exec .timebase s = .next (({ s with
      time := c.c
      stepped := true
      slots := s.slots.map fun x => { x with due := dueTick c.c.toNat (vget x.alloc 1).toNat } } : State).commandDone c)) ∧
  (∀ (s : State) (c : Cmd), s.Issues .signal c → (s.cmdQueue c.q).progress ≠ 0 →
    let n : BitVec 32 := BitVec.ofNat 32 ((s.cmdQueue c.q).progress - 1)
    (s.packetWaits n = true → exec .signal s = .next s) ∧
    (s.packetWaits n = false → exec .signal s = .next (s.commandDone c))) ∧
  (∀ (s t u : State) (c : Cmd) (k k' n : Nat) (l d : List Byte), s.Issues .signal c →
    (s.cmdQueue c.q).progress = 0 → (s.part c.target).state = .running ∨ (s.part c.target).state = .stopped →
    c.onDevice = true ∨ s.quiescing c.target = false → s.commandKey c.q.own c.c.toNat 16 = some k →
    s.fetchBytes k 8 = (t, some l) → 2 ≤ n → n ≤ 16 → ofBytes l / 2 ^ 8 % 2 ^ 5 = n →
    t.commandKey c.q.own c.c.toNat (16 * n) = some k' → t.fetchBytes k' (16 * n) = (u, some d) →
    ∃ x : Packet, x.srcPart = c.target ∧ x.host = true ∧ x.part = c.target ∧ x.seq = u.reqSeq ∧ x.clock = u.allClocks ∧
      x.words = (codesOf 8 (2 * n) d).map (BitVec.ofNat 64) ∧
      x.core = (if c.onDevice then c.b.toNat else c.a.toNat) % 2 ^ 8 ∧
      let q := ({ u with reqSeq := u.reqSeq + 1 } : State).packetArrives x
      (q.packetWaits x.seq = false → exec .signal s = .next (q.commandDone c)) ∧
      (q.packetWaits x.seq = true → exec .signal s
        = .next (q.setCmdQueue c.q { q.cmdQueue c.q with progress := x.seq.toNat + 1 }))) ∧
  (∀ (s t : State) (c : Cmd) (k : Nat) (l : List Byte), s.Issues .tagload c →
    s.commandKey c.q.own c.c.toNat 32 = some k → s.fetchBytes k 32 = (t, some l) →
    let w (i : Nat) : Nat := element l 64 i
    let count := w 3 % 2 ^ 24
    w 0 % 64 = 0 → (w 0).testBit 57 = false → w 1 % 64 = 0 → w 2 % 8 = 0 → 0 < count → w 3 < 2 ^ 24 →
    (t.commandKey (some c.target) (w 0) (64 * count)).isSome = true →
    (t.commandKey c.q.own (w 1) 64).isSome = true → (t.commandKey c.q.own (w 2) 8).isSome = true →
    exec .tagload s = .next (t.tagLines c (w 0) (w 1) (w 2) (count - (t.cmdQueue c.q).progress)
      (t.cmdQueue c.q).progress)) ∧
  (∀ (s t : State) (c : Cmd) (k : Nat) (l : List Byte), s.Issues .partcfg c → (s.part c.target).state = .empty →
    s.commandKey c.q.own c.c.toNat 128 = some k → s.fetchBytes k 128 = (t, some l) →
    let w (i : Nat) : Nat := element l 64 i
    let x := (t.part c.target).configured fun i => BitVec.ofNat 64 (w i)
    (∀ i < 16, w i &&& (2 ^ 64 - 1 - cfgMask i) = 0) →
    (x.isolationOk = true → t.clustersJoin x = true → (∀ o, o ≠ c.target → x.disjoint (t.part o) = true) →
      exec .partcfg s = .next ((t.setPart c.target x).commandDone c)) ∧
    (x.isolationOk = false ∨ t.clustersJoin x = false ∨ (∃ o, o ≠ c.target ∧ x.disjoint (t.part o) = false) → exec .partcfg s = .next (t.commandError c 9)))

/-- The commands that act on a partition (R383, R389-R393, R404-R406): QUIESCE ends when the partition is quiet; SAVE suspends
the queues, and once its cores have settled and its references are in present form writes the image and leaves the partition
STOPPED; RESTORE takes a good image, brings its references to present form and lets the units go on; RESET.PART stops the
units, releases pins, tears the partition down and scrubs it once its drain markers are answered; REPLAY walks covered
accesses again, or fails them. What SAVE waits for and refuses is the model's reading (logs 25 and 28), and so are what it
leaves beside the image (log 20), what RESTORE refuses (log 27) and what RESET.PART waits for (log 29). -/
def Obligations.PartitionCommands : Prop :=
  (∀ (s t : State) (c : Cmd), s.Claims .quiesce c t →
    ((t.part c.target).state = .stopped ∨ t.quiet c.target = true → exec .quiesce s = .next (t.commandDone c)) ∧
    ((t.part c.target).state ≠ .stopped → t.quiet c.target = false → exec .quiesce s = .next t)) ∧
  (∀ (s t : State) (c : Cmd) (k : Nat), s.Claims .save c t →
    let p := c.target
    t.commandKey (some p) c.c.toNat (imageBytesOf (t.coresOf p).length) = some k →
    ((t.cmdQueue c.q).progress = 0 →
      let u := (t.refuseSent p).tellQueues p .queueSuspend 5
      let w := (u.coresOf p).foldl State.releaseStores u
      exec .save s = .next (w.setCmdQueue c.q { w.cmdQueue c.q with progress := 1 })) ∧
    ((t.cmdQueue c.q).progress ≠ 0 → ∀ w : State,
      let u := (t.coresOf p).foldl State.finishRef (t.refuseSent p)
      (∀ d ∈ u.coresOf p, u.coreSettled d = true) → u.partsLeft p = false →
      (∀ a ∈ u.agenda, u.savesAfter p a = false) → u.waiting (commandWho c) = false → whileDone (State.healCore (commandWho c)) (u.coresOf p) u = (w, true) →
      let v := (w.writeImage p k).keep p k
      let x := (v.coresOf p).foldl (fun y d => y.stopCore d) v
      let y := { x with parked := x.parked.filter fun a => !(a.part == p && a.who == Requester.gone) }
      exec .save s = .next ((y.setPart p { y.part p with state := .stopped }).commandDone c))) ∧
  (∀ (s t : State) (c : Cmd) (k dev : Nat), s.Claims .restore c t → (t.cmdQueue c.q).progress = 0 →
    let p := c.target
    let n := t.coreCount p
    t.commandKey (some p) c.c.toNat (4096 + n * sectionBytes) = some k →
    t.commandKey (some p) (c.c.toNat + Memory.word t.mem k 8) 8192 = some dev →
    t.linesOk k (4096 + n * sectionBytes) = true → t.linesOk dev 8192 = true →
    t.headerBad p k = false → t.groupsBad p dev = false → (∀ i < n, t.sectionBad (sectionAt k i) = false) →
    let u := (t.setCmdQueue c.q { t.cmdQueue c.q with progress := 1 }).readImage p k dev
    u.waiting (commandWho c) = false → ∀ w : State,
      (whileDone (State.healCore (commandWho c)) (u.coresOf p) u = (w, true) →
        exec .restore s = .next ((w.goOn p).commandDone c)) ∧
      (whileDone (State.healCore (commandWho c)) (u.coresOf p) u = (w, false) → exec .restore s = .next w)) ∧
  (∀ (s t : State) (c : Cmd), s.Claims .resetPart c t →
    let p := c.target
    let goes (x : State) (n : Nat) : State := x.setCmdQueue c.q { x.cmdQueue c.q with progress := n }
    let ends (x : State) : Prop :=
      ((∀ r ∈ x.requests, r.who ≠ .drain p) → exec .resetPart s = .next ((x.scrubPart p).commandDone c)) ∧
      ((∃ r ∈ x.requests, r.who = .drain p) → exec .resetPart s = .next x)
    let u := if (t.cmdQueue c.q).progress = 0 then goes (t.beginReset p) 1 else t
    ((u.cmdQueue c.q).progress = 1 → u.waiting (commandWho c) = false → ∀ w : State,
      (whileDone (State.unpinTasks (commandWho c)) (u.coresOf p) u = (w, true) → ends (goes (w.tearDown p) 2)) ∧
      (whileDone (State.unpinTasks (commandWho c)) (u.coresOf p) u = (w, false) → exec .resetPart s = .next w)) ∧
    ((u.cmdQueue c.q).progress ≠ 1 → ends u)) ∧
  (∀ (s : State) (c : Cmd), s.Issues .replay c →
    let inval := if c.onDevice then c.b.toNat.testBit 9 else c.a.toNat.testBit 1
    let fail := if c.onDevice then c.b.toNat.testBit 8 else c.a.toNat.testBit 0
    let upto := if c.onDevice then c.c.toNat % 2 ^ 32 else c.b.toNat
    let t : State := if inval then { s with copies := s.copies.filter fun k => k.part != c.target } else s
    exec .replay s = .next ((t.replay c.target upto fail).commandDone c))

/-- Writes of the host's registers (R379, R394-R397, R407, R413, Table 14.1, Table 14.2, Table 14.6). That a queue run again
from ERROR has CAUSE 0 is the model's choice (log 19). -/
def Obligations.HostRegisters : Prop :=
  (∀ (s : State) (q : CmdQ) (v : BitVec 32), s.arg = .queueReg q v →
    let x := s.cmdQueue q
    exec .cqtailDoorbell s = .next ((s.setCmdQueue q { x with tail := v }).requeue q) ∧
    (x.state = .running → exec .cqheadWrite s = .next s) ∧
    (x.state ≠ .running → exec .cqheadWrite s = .next ((s.setCmdQueue q { x with head := v, links := [] }).requeue q)) ∧
    (x.en = true → exec .commandQueueRun s = .next s) ∧
    (x.en = false → x.state = .error →
      exec .commandQueueRun s = .next ((s.setCmdQueue q { x with en := true, state := .stopped, cause := 0 }).requeue q)) ∧
    (x.en = false → x.state ≠ .error → exec .commandQueueRun s = .next ((s.setCmdQueue q { x with en := true }).requeue q)) ∧
    exec .commandQueueStop s = .next ((s.setCmdQueue q { x with en := false }).requeue q) ∧
    exec .lselWrite s = .next (s.setCmdQueue q { x with lsel := Fin.ofNat 4 v.toNat })) ∧
  (∀ (s : State) (p : PartNum) (v : BitVec 32), s.arg = .part p v →
    let x := s.part p
    (x.flprod = v → exec .flconsWrite s = .next ((s.setPart p { x with flcons := v, armed := true }).flushRecords p)) ∧
    (x.flprod ≠ v → exec .flconsWrite s
      = .next (((s.setPart p { x with flcons := v, armed := false }).raiseSource p 5).flushRecords p)) ∧
    (v.getLsbD 0 = true → exec .ovfClear s = .next (s.setPart p { x with ovf := false })) ∧
    (v.getLsbD 0 = false → exec .ovfClear s = .next s) ∧
    (∃ n : BitVec 8, exec .istatClear s = .next (s.setPart p { x with istat := n }) ∧
      ∀ i < 8, n.getLsbD i = (x.istat.getLsbD i && !v.getLsbD i)) ∧
    (v = 0 → exec .lostarrClear s = .next (s.setPart p { x with lostarr := 0 })) ∧
    (v ≠ 0 → exec .lostarrClear s = .next s)) ∧
  (∀ (s : State) (v : Word), s.arg = .reg v →
    (v.getLsbD 2 = true → exec .steppedClear s = .next { s with stepped := false }) ∧
    (v.getLsbD 2 = false → exec .steppedClear s = .next s) ∧
    (v.toNat / 256 % 4 = 3 → exec .ptpcfgWrite s = .next s) ∧
    (v.toNat / 256 % 4 ≠ 3 → exec .ptpcfgWrite s = .next { s with ptpcfg := BitVec.ofNat 64 (v.toNat % 2 ^ 11) })) ∧
  (∀ (s : State) (addr bytes : Nat) (v : Word), s.arg = .bar addr bytes v → bytes ≠ 8 ∨ addr % 8 ≠ 0 →
    exec .registerWrite s = .next s ∧ s.readBar addr bytes = 0) ∧
  (∀ (s : State) (n : PartNum) (off : Nat) (v : Word), off < 0x10000 → off % 8 = 0 →
    s.readBar off 8 = s.readDeviceReg off ∧
    s.readBar (0x10000 * (n.val + 1) + off) 8 = (s.part n).read off ∧
    (s.arg = .bar off 8 v → exec .registerWrite s = .next (s.writeDeviceReg off v)) ∧
    (s.arg = .bar (0x10000 * (n.val + 1) + off) 8 v →
      let x := s.part n
      (8 ≤ off ∧ off ≤ 0x48 → exec .registerWrite s
        = .next (s.setPart n { x with ignored := BitVec.ofNat 32 (min (x.ignored.toNat + 1) (2 ^ 32 - 1)) })) ∧
      (off = 0x50 → ∃ w : Word, exec .registerWrite s = .next (s.setPart n { x with qos := w }) ∧
        w.toNat = max 1 (v.toNat % 256) + 256 * max 1 (v.toNat / 256 % 256)) ∧
      (off = 0x80 → v.toNat % 4096 = 0 → exec .registerWrite s = .next (s.setPart n { x with flbase := v })) ∧
      (off = 0x88 → 7 ≤ v.toNat % 32 → v.toNat % 32 ≤ 20 → exec .registerWrite s
        = .next ((s.setPart n { x with flsize := BitVec.ofNat 5 v.toNat }).flushRecords n))))

/-- Keepers, time and attestation (R408-R413, R416, R417): leases, clock steps, sensors, PTP, power-up and the answers to
SPDM requests. The model's readings and choices: takeover at the instant itself (log 31), the count of raised steps (log 32),
the bytes of SPDM answers (log 14), power-up (logs 13 and 74), the readings of the sensors (log 15), and the links that are
shown once a keeper leads (log 69). -/
def Obligations.KeepersTimeAttestation : Prop :=
  (∀ (s : State) (k : DieNum), s.arg = .keeper k →
    let x := s.keeper k
    (s.lease.die = k → s.leads = true → exec .leaseRenewal s
      = .next (({ s with lease := { s.lease with expiry := s.time + 2000000 } } : State).setKeeper k
        { x with renewed := s.time.toNat })) ∧
    (s.lease.valid = true → s.lease.die = k → x.renewed + 1500000 ≤ s.time.toNat →
      exec .leaderStop s = .next (s.setKeeper k { x with stopped := true })) ∧
    (s.lease.valid = false ∨ s.lease.die ≠ k → x.runs = true → s.lease.expiry.toNat + 50000 * k.val ≤ s.time.toNat →
      exec .leaseTakeover s = .next (allQueues.foldl State.requeue
        (({ s with lease := ⟨k, true, s.lease.epoch + 1, s.time + 2000000⟩, leaseLost := false } : State).setKeeper k
          { x with renewed := s.time.toNat, stopped := false })).showLinks) ∧
    (s.leads = true → s.showLinks = s.linkChanges.foldl State.changeLinks { s with linkChanges := [] }) ∧
    (s.leads = true → s.lease.valid = true ∧ s.time.toNat < (s.keeper s.lease.die).renewed + 1500000) ∧
    (k ≠ 0 → exec .keeperFailure s = .next (s.setKeeper k { x with alive := false })) ∧
    (k = 0 → ∃ t : State, exec .keeperFailure s = .next t ∧ t.deviceFailed = true ∧
      ∀ p, (t.part p).istat.getLsbD 6 = true)) ∧
  (∀ (s : State) (k : DieNum) (a b : Firmware), s.arg = .firmware k a b → ∃ x : Keeper,
    exec .powerUp s = .next (s.setKeeper k x).showLinks ∧ x.trusted = firmwareAccepted a ∧
    x.untrusted = (firmwareAccepted a && firmwareAccepted b) ∧ x.refused = !firmwareAccepted a) ∧
  (∀ (s : State) (f : Fin 20) (n : Fin 9), s.arg = .clocks [(f, n)] → s.leads = true →
    exec .clockStepChange s = .next { s with
      steps := vset s.steps f n
      raised := min (s.raised + (n.val - (vget s.steps f).val)) 0xFFFFFFFF }) ∧
  (∀ s : State, ∃ l : List (BitVec 16 × Word), exec .sensorUpdate s = .next { s with free := s.free + 1, sensors := l } ∧
    (0x8C8#16, s.stepsReg 0) ∈ l ∧ (0x8D0#16, s.stepsReg 1) ∈ l ∧ (0x8D8#16, BitVec.ofNat 64 s.raised) ∈ l) ∧
  (∀ (s : State) (offset : Word) (ppm : Int), s.arg = .ptp offset ppm → exec .ptpSync s = .next { s with
    toffset := offset
    holdover := false
    locked := s.ptpcfg.getLsbD 10 && s.leads
    rate := if s.ptpcfg.getLsbD 10 = true ∧ s.leads = true then max (-500) (min 500 ppm) else s.rate }) ∧
  (∀ s : State, exec .ptpMasterLoss s = .next { s with holdover := true, locked := false }) ∧
  (∀ (s : State) (n : List Byte), s.arg = .nonce n →
    exec .getMeasurements s = .next (s.attest ((s.measurementBytes.map fun m => signedBytes (n ++ m)).flatten)) ∧
    exec .challenge s = .next (s.attest (signedBytes (n ++ s.measurementBytes.flatten)))) ∧
  (∀ (s : State) (n : Nat), s.arg = .certificate n → exec .getCertificate s = .next (s.attest (Config.certificate n)))

/-- Every instruction goes on from every state: no meaning stops, and a step stops only on a failed device (R408). -/
def Obligations.EveryInstructionGoes : Prop :=
  (∀ (i : Instr) (s : State), ∃ t : State, exec i s = .next t) ∧
  (∀ s : State, s.deviceFailed = false → s.Goes) ∧
  (∀ s : State, s.deviceFailed = true → step s = .fault .deviceFailed)
end

