-- ==== Sys2Proof/Laws/Memory.lean ====
section
/-! SUPPORT. What the operations on byte memories and line tags do: each keeps the canonical form, and a read after a
write gives what was written there and what stood elsewhere. -/

namespace Sys2Proof.Machine

/-! ### Association lists with rising keys -/

/-- The part of a list below a bound and the part at or after it, with rising keys between, rises. -/
theorem rises_join {α : Type} (p q : Nat) (m l : List (Nat × α)) (hpq : p ≤ q)
    (hm : m.Pairwise fun a b => a.1 < b.1) (hl : l.Pairwise fun a b => a.1 < b.1)
    (hb : ∀ c ∈ l, p ≤ c.1 ∧ c.1 < q) :
    (m.filter (fun c => decide (c.1 < p)) ++ (l ++ m.filter (fun c => decide (q ≤ c.1)))).Pairwise
      fun a b => a.1 < b.1 := by
  rw [List.pairwise_append, List.pairwise_append]
  refine ⟨hm.filter _, ⟨hl, hm.filter _, ?_⟩, ?_⟩
  · intro a ha b hb'
    have := hb a ha
    simp only [List.mem_filter, decide_eq_true_eq] at hb'
    omega
  · intro a ha b hb'
    simp only [List.mem_filter, decide_eq_true_eq] at ha
    rw [List.mem_append] at hb'
    rcases hb' with h | h
    · have := hb b h
      omega
    · simp only [List.mem_filter, decide_eq_true_eq] at h
      omega

/-! ### Cells of a byte string -/

theorem cells_bounds (k : Nat) (d : List Byte) : ∀ c ∈ cells k d, k ≤ c.1 ∧ c.1 < k + d.length := by
  induction d generalizing k with
  | nil => simp [cells]
  | cons b r ih =>
    intro c hc
    simp only [cells] at hc
    split at hc
    · have := ih (k + 1) c hc
      simp only [List.length_cons]
      omega
    · rw [List.mem_cons] at hc
      rcases hc with rfl | hc
      · simp
      · have := ih (k + 1) c hc
        simp only [List.length_cons]
        omega

theorem cells_nonzero (k : Nat) (d : List Byte) : ∀ c ∈ cells k d, c.2 ≠ 0 := by
  induction d generalizing k with
  | nil => simp [cells]
  | cons b r ih =>
    intro c hc
    simp only [cells] at hc
    split at hc
    · exact ih _ c hc
    · rw [List.mem_cons] at hc
      rcases hc with rfl | hc
      · assumption
      · exact ih _ c hc

theorem cells_rise (k : Nat) (d : List Byte) : (cells k d).Pairwise fun a b => a.1 < b.1 := by
  induction d generalizing k with
  | nil => simp [cells]
  | cons b r ih =>
    simp only [cells]
    split
    · exact ih _
    · rw [List.pairwise_cons]
      refine ⟨fun c hc => ?_, ih _⟩
      have := cells_bounds (k + 1) r c hc
      simp only
      omega

/-! ### Canonical form -/

/-- A write keeps the canonical form. -/
theorem Memory.write_wf (m : Memory) (k : Nat) (d : List Byte) (h : m.wf) : (m.write k d).wf := by
  refine ⟨rises_join k (k + d.length) m (cells k d) (by omega) h.1 (cells_rise k d) (cells_bounds k d), ?_⟩
  intro c hc
  simp only [Memory.write, List.mem_append, List.mem_filter] at hc
  rcases hc with hc | hc | hc
  · exact h.2 c hc.1
  · exact cells_nonzero k d c hc
  · exact h.2 c hc.1

/-- Clearing keeps the canonical form. -/
theorem Memory.clear_wf (m : Memory) (k n : Nat) (h : m.wf) : (m.clear k n).wf := by
  refine ⟨?_, ?_⟩
  · have := rises_join k (k + n) m [] (by omega) h.1 List.Pairwise.nil (by simp)
    simpa [Memory.clear] using this
  · intro c hc
    simp only [Memory.clear, List.mem_append, List.mem_filter] at hc
    rcases hc with hc | hc
    · exact h.2 c hc.1
    · exact h.2 c hc.1

/-- Setting a tag keeps the canonical form. -/
theorem Tags.set_wf (t : Tags) (line : Nat) (w : Word) (h : t.wf) : (t.set line w).wf := by
  refine ⟨?_, ?_⟩
  · unfold Tags.set
    by_cases hw : w = zeroTag
    · rw [if_pos hw]
      exact rises_join line (line + 1) t [] (by omega) h.1 List.Pairwise.nil (by simp)
    · rw [if_neg hw]
      exact rises_join line (line + 1) t [(line, w)] (by omega) h.1 (List.pairwise_singleton _ _) (by simp)
  · intro c hc
    simp only [Tags.set, List.mem_append, List.mem_filter] at hc
    rcases hc with hc | hc | hc
    · exact h.2 c hc.1
    · by_cases hw : w = zeroTag
      · rw [if_pos hw] at hc
        exact absurd hc (by simp)
      · rw [if_neg hw, List.mem_singleton] at hc
        subst hc
        exact hw
    · exact h.2 c hc.1

/-- Clearing tags keeps the canonical form. -/
theorem Tags.clear_wf (t : Tags) (line n : Nat) (h : t.wf) : (t.clear line n).wf := by
  refine ⟨?_, ?_⟩
  · have := rises_join line (line + n) t [] (by omega) h.1 List.Pairwise.nil (by simp)
    simpa [Tags.clear] using this
  · intro c hc
    simp only [Tags.clear, List.mem_append, List.mem_filter] at hc
    rcases hc with hc | hc
    · exact h.2 c hc.1
    · exact h.2 c hc.1

/-! ### Reads -/

theorem Memory.byte_append_below (l r : Memory) (k a : Nat) (hl : ∀ c ∈ l, c.1 < k) (ha : k ≤ a) :
    Memory.byte (l ++ r) a = Memory.byte r a := by
  induction l with
  | nil => rfl
  | cons c l ih =>
    obtain ⟨x, b⟩ := c
    have hx := hl (x, b) (by simp)
    have : x ≠ a := by simp only at hx; omega
    simp only [List.cons_append, Memory.byte, if_neg this]
    exact ih fun c hc => hl c (by simp [hc])

theorem Memory.byte_append_above (l r : Memory) (k a : Nat) (hr : ∀ c ∈ r, k ≤ c.1) (ha : a < k) :
    Memory.byte (l ++ r) a = Memory.byte l a := by
  induction l with
  | nil =>
    simp only [List.nil_append, Memory.byte]
    induction r with
    | nil => rfl
    | cons c r ih =>
      obtain ⟨x, b⟩ := c
      have hx := hr (x, b) (by simp)
      have : x ≠ a := by simp only at hx; omega
      simp only [Memory.byte, if_neg this]
      exact ih fun c hc => hr c (by simp [hc])
  | cons c l ih =>
    obtain ⟨x, b⟩ := c
    simp only [List.cons_append, Memory.byte]
    split
    · rfl
    · exact ih

theorem Memory.byte_filter (m : Memory) (p : Nat → Bool) (a : Nat) (ha : p a = true) :
    Memory.byte (m.filter fun c => p c.1) a = Memory.byte m a := by
  induction m with
  | nil => rfl
  | cons c m ih =>
    obtain ⟨x, b⟩ := c
    by_cases hx : x = a
    · subst hx
      simp [List.filter, ha, Memory.byte]
    · cases hp : p x <;> simp [List.filter, hp, Memory.byte, hx, ih]

theorem Memory.byte_none (m : Memory) (a : Nat) (h : ∀ c ∈ m, c.1 ≠ a) : Memory.byte m a = 0 := by
  induction m with
  | nil => rfl
  | cons c m ih =>
    obtain ⟨x, b⟩ := c
    have hx : x ≠ a := h (x, b) (by simp)
    simp only [Memory.byte, if_neg hx]
    exact ih fun c hc => h c (by simp [hc])

theorem cells_byte (k : Nat) (d : List Byte) (i : Nat) (hi : i < d.length) :
    Memory.byte (cells k d) (k + i) = d.getD i 0 := by
  induction d generalizing k i with
  | nil => simp at hi
  | cons b r ih =>
    cases i with
    | zero =>
      simp only [cells]
      split
      · rename_i hb
        rw [Memory.byte_none _ _ fun c hc => by have := cells_bounds (k + 1) r c hc; omega]
        simp [hb]
      · simp [Memory.byte]
    | succ i =>
      have := ih (k + 1) i (by simpa using hi)
      rw [show k + 1 + i = k + (i + 1) by omega] at this
      simp only [cells]
      split
      · simpa using this
      · simp only [Memory.byte]
        rw [if_neg (by omega)]
        simpa using this

/-- A byte after a write: the byte written there, or the byte that stood there. -/
theorem Memory.byte_write (m : Memory) (k : Nat) (d : List Byte) (a : Nat) :
    Memory.byte (m.write k d) a = if k ≤ a ∧ a < k + d.length then d.getD (a - k) 0 else Memory.byte m a := by
  have hlow : ∀ c ∈ m.filter (fun c => decide (c.1 < k)), c.1 < k := fun c hc => by
    simpa using (List.mem_filter.1 hc).2
  have hhigh : ∀ c ∈ m.filter (fun c => decide (k + d.length ≤ c.1)), k + d.length ≤ c.1 := fun c hc => by
    simpa using (List.mem_filter.1 hc).2
  have hmid := cells_bounds k d
  unfold Memory.write
  split
  · rename_i h
    rw [Memory.byte_append_below _ _ k a hlow h.1, Memory.byte_append_above _ _ (k + d.length) a hhigh h.2]
    have := cells_byte k d (a - k) (by omega)
    rwa [show k + (a - k) = a by omega] at this
  · rename_i h
    by_cases ha : a < k
    · rw [Memory.byte_append_above _ _ k a (fun c hc => by
        rw [List.mem_append] at hc
        rcases hc with hc | hc
        · exact (hmid c hc).1
        · have := hhigh c hc; omega) ha]
      exact Memory.byte_filter m (fun x => decide (x < k)) a (by simpa using ha)
    · rw [Memory.byte_append_below _ _ k a hlow (by omega),
        Memory.byte_append_below _ _ (k + d.length) a (fun c hc => (hmid c hc).2) (by omega)]
      exact Memory.byte_filter m (fun x => decide (k + d.length ≤ x)) a (by simp; omega)

theorem readFrom_eq (n k : Nat) (m : Memory) (hm : m.Pairwise fun a b => a.1 < b.1) (hk : ∀ c ∈ m, k ≤ c.1) :
    readFrom n k m = (List.range n).map fun i => Memory.byte m (k + i) := by
  induction n generalizing k m with
  | zero => rfl
  | succ n ih =>
    rw [List.range_succ_eq_map, List.map_cons, List.map_map]
    cases m with
    | nil =>
      have := ih (k + 1) [] List.Pairwise.nil (by simp)
      simp only [readFrom, this, Memory.byte]
      rfl
    | cons c r =>
      obtain ⟨a, b⟩ := c
      rw [List.pairwise_cons] at hm
      simp only [readFrom]
      split
      · rename_i h
        subst h
        have hr : ∀ c ∈ r, a + 1 ≤ c.1 := fun c hc => by have := hm.1 c hc; simp only at this; omega
        rw [ih (a + 1) r hm.2 hr]
        simp only [Memory.byte, Nat.add_zero, if_pos, List.cons.injEq, true_and]
        apply List.map_congr_left
        intro i _
        simp only [Function.comp]
        rw [if_neg (by omega), show a + 1 + i = a + i.succ by omega]
      · rename_i h
        have ha := hk (a, b) (by simp)
        rw [ih (k + 1) ((a, b) :: r) (by rw [List.pairwise_cons]; exact hm) (fun c hc => by
          rw [List.mem_cons] at hc
          rcases hc with rfl | hc
          · simp only at ha ⊢; omega
          · have := hm.1 c hc
            simp only at this ha; omega)]
        have h0 : Memory.byte ((a, b) :: r) k = 0 := by
          apply Memory.byte_none
          intro c hc
          rw [List.mem_cons] at hc
          rcases hc with rfl | hc
          · exact h
          · have := hm.1 c hc
            simp only at this ha; omega
        rw [show k + 0 = k from rfl, h0]
        congr 1
        apply List.map_congr_left
        intro i _
        simp only [Function.comp]
        rw [show k + 1 + i = k + i.succ by omega]

theorem Memory.byte_dropWhile (m : Memory) (k a : Nat) (ha : k ≤ a) :
    Memory.byte (m.dropWhile fun c => decide (c.1 < k)) a = Memory.byte m a := by
  induction m with
  | nil => rfl
  | cons c m ih =>
    obtain ⟨x, b⟩ := c
    rw [List.dropWhile_cons]
    split
    · rename_i h
      have hx : x < k := by simpa using h
      rw [ih, Memory.byte, if_neg (by omega)]
    · rfl

theorem dropWhile_bounds (m : Memory) (k : Nat) (hm : m.Pairwise fun a b => a.1 < b.1) :
    ∀ c ∈ m.dropWhile fun c => decide (c.1 < k), k ≤ c.1 := by
  induction m with
  | nil => simp
  | cons c m ih =>
    obtain ⟨x, b⟩ := c
    rw [List.pairwise_cons] at hm
    rw [List.dropWhile_cons]
    split
    · exact ih hm.2
    · rename_i h
      have hx : k ≤ x := by simpa using h
      intro c hc
      rw [List.mem_cons] at hc
      rcases hc with rfl | hc
      · exact hx
      · have := hm.1 c hc
        simp only at this
        omega

/-- A read gives the bytes one after another. -/
theorem Memory.read_eq (m : Memory) (k n : Nat) (h : m.wf) :
    m.read k n = (List.range n).map fun i => m.byte (k + i) := by
  unfold Memory.read
  rw [readFrom_eq n k _ (List.Pairwise.sublist (List.dropWhile_sublist _) h.1) (dropWhile_bounds m k h.1)]
  apply List.map_congr_left
  intro i _
  exact Memory.byte_dropWhile m k (k + i) (by omega)

/-- A read of what was just written gives it. -/
theorem Memory.read_write (m : Memory) (k : Nat) (d : List Byte) (h : m.wf) : (m.write k d).read k d.length = d := by
  rw [Memory.read_eq _ _ _ (Memory.write_wf m k d h)]
  apply List.ext_getElem
  · simp
  · intro i h1 h2
    simp only [List.getElem_map, List.getElem_range]
    rw [Memory.byte_write, if_pos (by omega), Nat.add_sub_cancel_left]
    simp [List.getD, h2]

/-- A read of bytes that a write did not touch gives what stood there. -/
theorem Memory.read_write_apart (m : Memory) (k : Nat) (d : List Byte) (a n : Nat) (h : m.wf)
    (hd : a + n ≤ k ∨ k + d.length ≤ a) : (m.write k d).read a n = m.read a n := by
  rw [Memory.read_eq _ _ _ (Memory.write_wf m k d h), Memory.read_eq _ _ _ h]
  apply List.map_congr_left
  intro i hi
  rw [List.mem_range] at hi
  rw [Memory.byte_write, if_neg (by omega)]

end Sys2Proof.Machine
end

