-- ==== Sys2Proof/Laws/State.lean ====
section
/-! SUPPORT. Each update of the state leaves every other field as it was, and a read of what was set gives it. -/

namespace Sys2Proof.Machine

/-! ### setCore -/

@[simp] theorem State.setCore_agenda (s : State) (c : CoreId) (k : Core) : (s.setCore c k).agenda = s.agenda := rfl
@[simp] theorem State.setCore_schedule (s : State) (c : CoreId) (k : Core) : (s.setCore c k).schedule = s.schedule := rfl
@[simp] theorem State.setCore_focus (s : State) (c : CoreId) (k : Core) : (s.setCore c k).focus = s.focus := rfl
@[simp] theorem State.setCore_arg (s : State) (c : CoreId) (k : Core) : (s.setCore c k).arg = s.arg := rfl
@[simp] theorem State.setCore_now (s : State) (c : CoreId) (k : Core) : (s.setCore c k).now = s.now := rfl
@[simp] theorem State.setCore_free (s : State) (c : CoreId) (k : Core) : (s.setCore c k).free = s.free := rfl
@[simp] theorem State.setCore_out (s : State) (c : CoreId) (k : Core) : (s.setCore c k).out = s.out := rfl
@[simp] theorem State.setCore_mem (s : State) (c : CoreId) (k : Core) : (s.setCore c k).mem = s.mem := rfl
@[simp] theorem State.setCore_tags (s : State) (c : CoreId) (k : Core) : (s.setCore c k).tags = s.tags := rfl
@[simp] theorem State.setCore_groups (s : State) (c : CoreId) (k : Core) : (s.setCore c k).groups = s.groups := rfl
@[simp] theorem State.setCore_parts (s : State) (c : CoreId) (k : Core) : (s.setCore c k).parts = s.parts := rfl
@[simp] theorem State.setCore_devq (s : State) (c : CoreId) (k : Core) : (s.setCore c k).devq = s.devq := rfl
@[simp] theorem State.setCore_devId (s : State) (c : CoreId) (k : Core) : (s.setCore c k).devId = s.devId := rfl
@[simp] theorem State.setCore_time (s : State) (c : CoreId) (k : Core) : (s.setCore c k).time = s.time := rfl
@[simp] theorem State.setCore_rate (s : State) (c : CoreId) (k : Core) : (s.setCore c k).rate = s.rate := rfl
@[simp] theorem State.setCore_holdover (s : State) (c : CoreId) (k : Core) : (s.setCore c k).holdover = s.holdover := rfl
@[simp] theorem State.setCore_locked (s : State) (c : CoreId) (k : Core) : (s.setCore c k).locked = s.locked := rfl
@[simp] theorem State.setCore_stepped (s : State) (c : CoreId) (k : Core) : (s.setCore c k).stepped = s.stepped := rfl
@[simp] theorem State.setCore_ptpcfg (s : State) (c : CoreId) (k : Core) : (s.setCore c k).ptpcfg = s.ptpcfg := rfl
@[simp] theorem State.setCore_toffset (s : State) (c : CoreId) (k : Core) : (s.setCore c k).toffset = s.toffset := rfl
@[simp] theorem State.setCore_sensors (s : State) (c : CoreId) (k : Core) : (s.setCore c k).sensors = s.sensors := rfl
@[simp] theorem State.setCore_steps (s : State) (c : CoreId) (k : Core) : (s.setCore c k).steps = s.steps := rfl
@[simp] theorem State.setCore_raised (s : State) (c : CoreId) (k : Core) : (s.setCore c k).raised = s.raised := rfl
@[simp] theorem State.setCore_clocks (s : State) (c : CoreId) (k : Core) : (s.setCore c k).clocks = s.clocks := rfl
@[simp] theorem State.setCore_fenceClock (s : State) (c : CoreId) (k : Core) : (s.setCore c k).fenceClock = s.fenceClock := rfl
@[simp] theorem State.setCore_stamps (s : State) (c : CoreId) (k : Core) : (s.setCore c k).stamps = s.stamps := rfl
@[simp] theorem State.setCore_copies (s : State) (c : CoreId) (k : Core) : (s.setCore c k).copies = s.copies := rfl
@[simp] theorem State.setCore_parked (s : State) (c : CoreId) (k : Core) : (s.setCore c k).parked = s.parked := rfl
@[simp] theorem State.setCore_misses (s : State) (c : CoreId) (k : Core) : (s.setCore c k).misses = s.misses := rfl
@[simp] theorem State.setCore_records (s : State) (c : CoreId) (k : Core) : (s.setCore c k).records = s.records := rfl
@[simp] theorem State.setCore_waits (s : State) (c : CoreId) (k : Core) : (s.setCore c k).waits = s.waits := rfl
@[simp] theorem State.setCore_reserved (s : State) (c : CoreId) (k : Core) : (s.setCore c k).reserved = s.reserved := rfl
@[simp] theorem State.setCore_heldMoving (s : State) (c : CoreId) (k : Core) : (s.setCore c k).heldMoving = s.heldMoving := rfl
@[simp] theorem State.setCore_stations (s : State) (c : CoreId) (k : Core) : (s.setCore c k).stations = s.stations := rfl
@[simp] theorem State.setCore_live (s : State) (c : CoreId) (k : Core) : (s.setCore c k).live = s.live := rfl
@[simp] theorem State.setCore_reqSeq (s : State) (c : CoreId) (k : Core) : (s.setCore c k).reqSeq = s.reqSeq := rfl
@[simp] theorem State.setCore_requests (s : State) (c : CoreId) (k : Core) : (s.setCore c k).requests = s.requests := rfl
@[simp] theorem State.setCore_applied (s : State) (c : CoreId) (k : Core) : (s.setCore c k).applied = s.applied := rfl
@[simp] theorem State.setCore_heldPackets (s : State) (c : CoreId) (k : Core) : (s.setCore c k).heldPackets = s.heldPackets := rfl
@[simp] theorem State.setCore_heldLines (s : State) (c : CoreId) (k : Core) : (s.setCore c k).heldLines = s.heldLines := rfl
@[simp] theorem State.setCore_slots (s : State) (c : CoreId) (k : Core) : (s.setCore c k).slots = s.slots := rfl
@[simp] theorem State.setCore_appraisers (s : State) (c : CoreId) (k : Core) : (s.setCore c k).appraisers = s.appraisers := rfl
@[simp] theorem State.setCore_keepers (s : State) (c : CoreId) (k : Core) : (s.setCore c k).keepers = s.keepers := rfl
@[simp] theorem State.setCore_lease (s : State) (c : CoreId) (k : Core) : (s.setCore c k).lease = s.lease := rfl
@[simp] theorem State.setCore_journal (s : State) (c : CoreId) (k : Core) : (s.setCore c k).journal = s.journal := rfl
@[simp] theorem State.setCore_deviceFailed (s : State) (c : CoreId) (k : Core) : (s.setCore c k).deviceFailed = s.deviceFailed := rfl
@[simp] theorem State.setCore_second (s : State) (c : CoreId) (k : Core) : (s.setCore c k).second = s.second := rfl
@[simp] theorem State.setCore_linkChanges (s : State) (c : CoreId) (k : Core) : (s.setCore c k).linkChanges = s.linkChanges := rfl
@[simp] theorem State.setCore_stationed (s : State) (c : CoreId) (k : Core) : (s.setCore c k).stationed = s.stationed := rfl
@[simp] theorem State.setCore_leaseLost (s : State) (c : CoreId) (k : Core) : (s.setCore c k).leaseLost = s.leaseLost := rfl
@[simp] theorem State.setCore_behind (s : State) (c : CoreId) (k : Core) : (s.setCore c k).behind = s.behind := rfl
@[simp] theorem State.setCore_failedLookups (s : State) (c : CoreId) (k : Core) : (s.setCore c k).failedLookups = s.failedLookups := rfl
@[simp] theorem State.setCore_kept (s : State) (c : CoreId) (k : Core) : (s.setCore c k).kept = s.kept := rfl
@[simp] theorem State.setCore_sampled (s : State) (c : CoreId) (k : Core) : (s.setCore c k).sampled = s.sampled := rfl

/-! ### setCtx -/

@[simp] theorem State.setCtx_agenda (s : State) (u : CtxRef) (x : Context) : (s.setCtx u x).agenda = s.agenda := rfl
@[simp] theorem State.setCtx_schedule (s : State) (u : CtxRef) (x : Context) : (s.setCtx u x).schedule = s.schedule := rfl
@[simp] theorem State.setCtx_focus (s : State) (u : CtxRef) (x : Context) : (s.setCtx u x).focus = s.focus := rfl
@[simp] theorem State.setCtx_arg (s : State) (u : CtxRef) (x : Context) : (s.setCtx u x).arg = s.arg := rfl
@[simp] theorem State.setCtx_now (s : State) (u : CtxRef) (x : Context) : (s.setCtx u x).now = s.now := rfl
@[simp] theorem State.setCtx_free (s : State) (u : CtxRef) (x : Context) : (s.setCtx u x).free = s.free := rfl
@[simp] theorem State.setCtx_out (s : State) (u : CtxRef) (x : Context) : (s.setCtx u x).out = s.out := rfl
@[simp] theorem State.setCtx_mem (s : State) (u : CtxRef) (x : Context) : (s.setCtx u x).mem = s.mem := rfl
@[simp] theorem State.setCtx_tags (s : State) (u : CtxRef) (x : Context) : (s.setCtx u x).tags = s.tags := rfl
@[simp] theorem State.setCtx_groups (s : State) (u : CtxRef) (x : Context) : (s.setCtx u x).groups = s.groups := rfl
@[simp] theorem State.setCtx_parts (s : State) (u : CtxRef) (x : Context) : (s.setCtx u x).parts = s.parts := rfl
@[simp] theorem State.setCtx_devq (s : State) (u : CtxRef) (x : Context) : (s.setCtx u x).devq = s.devq := rfl
@[simp] theorem State.setCtx_devId (s : State) (u : CtxRef) (x : Context) : (s.setCtx u x).devId = s.devId := rfl
@[simp] theorem State.setCtx_time (s : State) (u : CtxRef) (x : Context) : (s.setCtx u x).time = s.time := rfl
@[simp] theorem State.setCtx_rate (s : State) (u : CtxRef) (x : Context) : (s.setCtx u x).rate = s.rate := rfl
@[simp] theorem State.setCtx_holdover (s : State) (u : CtxRef) (x : Context) : (s.setCtx u x).holdover = s.holdover := rfl
@[simp] theorem State.setCtx_locked (s : State) (u : CtxRef) (x : Context) : (s.setCtx u x).locked = s.locked := rfl
@[simp] theorem State.setCtx_stepped (s : State) (u : CtxRef) (x : Context) : (s.setCtx u x).stepped = s.stepped := rfl
@[simp] theorem State.setCtx_ptpcfg (s : State) (u : CtxRef) (x : Context) : (s.setCtx u x).ptpcfg = s.ptpcfg := rfl
@[simp] theorem State.setCtx_toffset (s : State) (u : CtxRef) (x : Context) : (s.setCtx u x).toffset = s.toffset := rfl
@[simp] theorem State.setCtx_sensors (s : State) (u : CtxRef) (x : Context) : (s.setCtx u x).sensors = s.sensors := rfl
@[simp] theorem State.setCtx_steps (s : State) (u : CtxRef) (x : Context) : (s.setCtx u x).steps = s.steps := rfl
@[simp] theorem State.setCtx_raised (s : State) (u : CtxRef) (x : Context) : (s.setCtx u x).raised = s.raised := rfl
@[simp] theorem State.setCtx_clocks (s : State) (u : CtxRef) (x : Context) : (s.setCtx u x).clocks = s.clocks := rfl
@[simp] theorem State.setCtx_fenceClock (s : State) (u : CtxRef) (x : Context) : (s.setCtx u x).fenceClock = s.fenceClock := rfl
@[simp] theorem State.setCtx_stamps (s : State) (u : CtxRef) (x : Context) : (s.setCtx u x).stamps = s.stamps := rfl
@[simp] theorem State.setCtx_copies (s : State) (u : CtxRef) (x : Context) : (s.setCtx u x).copies = s.copies := rfl
@[simp] theorem State.setCtx_parked (s : State) (u : CtxRef) (x : Context) : (s.setCtx u x).parked = s.parked := rfl
@[simp] theorem State.setCtx_misses (s : State) (u : CtxRef) (x : Context) : (s.setCtx u x).misses = s.misses := rfl
@[simp] theorem State.setCtx_records (s : State) (u : CtxRef) (x : Context) : (s.setCtx u x).records = s.records := rfl
@[simp] theorem State.setCtx_waits (s : State) (u : CtxRef) (x : Context) : (s.setCtx u x).waits = s.waits := rfl
@[simp] theorem State.setCtx_reserved (s : State) (u : CtxRef) (x : Context) : (s.setCtx u x).reserved = s.reserved := rfl
@[simp] theorem State.setCtx_heldMoving (s : State) (u : CtxRef) (x : Context) : (s.setCtx u x).heldMoving = s.heldMoving := rfl
@[simp] theorem State.setCtx_stations (s : State) (u : CtxRef) (x : Context) : (s.setCtx u x).stations = s.stations := rfl
@[simp] theorem State.setCtx_live (s : State) (u : CtxRef) (x : Context) : (s.setCtx u x).live = s.live := rfl
@[simp] theorem State.setCtx_reqSeq (s : State) (u : CtxRef) (x : Context) : (s.setCtx u x).reqSeq = s.reqSeq := rfl
@[simp] theorem State.setCtx_requests (s : State) (u : CtxRef) (x : Context) : (s.setCtx u x).requests = s.requests := rfl
@[simp] theorem State.setCtx_applied (s : State) (u : CtxRef) (x : Context) : (s.setCtx u x).applied = s.applied := rfl
@[simp] theorem State.setCtx_heldPackets (s : State) (u : CtxRef) (x : Context) : (s.setCtx u x).heldPackets = s.heldPackets := rfl
@[simp] theorem State.setCtx_heldLines (s : State) (u : CtxRef) (x : Context) : (s.setCtx u x).heldLines = s.heldLines := rfl
@[simp] theorem State.setCtx_slots (s : State) (u : CtxRef) (x : Context) : (s.setCtx u x).slots = s.slots := rfl
@[simp] theorem State.setCtx_appraisers (s : State) (u : CtxRef) (x : Context) : (s.setCtx u x).appraisers = s.appraisers := rfl
@[simp] theorem State.setCtx_keepers (s : State) (u : CtxRef) (x : Context) : (s.setCtx u x).keepers = s.keepers := rfl
@[simp] theorem State.setCtx_lease (s : State) (u : CtxRef) (x : Context) : (s.setCtx u x).lease = s.lease := rfl
@[simp] theorem State.setCtx_journal (s : State) (u : CtxRef) (x : Context) : (s.setCtx u x).journal = s.journal := rfl
@[simp] theorem State.setCtx_deviceFailed (s : State) (u : CtxRef) (x : Context) : (s.setCtx u x).deviceFailed = s.deviceFailed := rfl
@[simp] theorem State.setCtx_second (s : State) (u : CtxRef) (x : Context) : (s.setCtx u x).second = s.second := rfl
@[simp] theorem State.setCtx_linkChanges (s : State) (u : CtxRef) (x : Context) : (s.setCtx u x).linkChanges = s.linkChanges := rfl
@[simp] theorem State.setCtx_stationed (s : State) (u : CtxRef) (x : Context) : (s.setCtx u x).stationed = s.stationed := rfl
@[simp] theorem State.setCtx_leaseLost (s : State) (u : CtxRef) (x : Context) : (s.setCtx u x).leaseLost = s.leaseLost := rfl
@[simp] theorem State.setCtx_behind (s : State) (u : CtxRef) (x : Context) : (s.setCtx u x).behind = s.behind := rfl
@[simp] theorem State.setCtx_failedLookups (s : State) (u : CtxRef) (x : Context) : (s.setCtx u x).failedLookups = s.failedLookups := rfl
@[simp] theorem State.setCtx_kept (s : State) (u : CtxRef) (x : Context) : (s.setCtx u x).kept = s.kept := rfl
@[simp] theorem State.setCtx_sampled (s : State) (u : CtxRef) (x : Context) : (s.setCtx u x).sampled = s.sampled := rfl

/-! ### setEntry -/

@[simp] theorem State.setEntry_agenda (s : State) (c : CoreId) (h : Handle) (e : Entry) : (s.setEntry c h e).agenda = s.agenda := rfl
@[simp] theorem State.setEntry_schedule (s : State) (c : CoreId) (h : Handle) (e : Entry) : (s.setEntry c h e).schedule = s.schedule := rfl
@[simp] theorem State.setEntry_focus (s : State) (c : CoreId) (h : Handle) (e : Entry) : (s.setEntry c h e).focus = s.focus := rfl
@[simp] theorem State.setEntry_arg (s : State) (c : CoreId) (h : Handle) (e : Entry) : (s.setEntry c h e).arg = s.arg := rfl
@[simp] theorem State.setEntry_now (s : State) (c : CoreId) (h : Handle) (e : Entry) : (s.setEntry c h e).now = s.now := rfl
@[simp] theorem State.setEntry_free (s : State) (c : CoreId) (h : Handle) (e : Entry) : (s.setEntry c h e).free = s.free := rfl
@[simp] theorem State.setEntry_out (s : State) (c : CoreId) (h : Handle) (e : Entry) : (s.setEntry c h e).out = s.out := rfl
@[simp] theorem State.setEntry_mem (s : State) (c : CoreId) (h : Handle) (e : Entry) : (s.setEntry c h e).mem = s.mem := rfl
@[simp] theorem State.setEntry_tags (s : State) (c : CoreId) (h : Handle) (e : Entry) : (s.setEntry c h e).tags = s.tags := rfl
@[simp] theorem State.setEntry_groups (s : State) (c : CoreId) (h : Handle) (e : Entry) : (s.setEntry c h e).groups = s.groups := rfl
@[simp] theorem State.setEntry_parts (s : State) (c : CoreId) (h : Handle) (e : Entry) : (s.setEntry c h e).parts = s.parts := rfl
@[simp] theorem State.setEntry_devq (s : State) (c : CoreId) (h : Handle) (e : Entry) : (s.setEntry c h e).devq = s.devq := rfl
@[simp] theorem State.setEntry_devId (s : State) (c : CoreId) (h : Handle) (e : Entry) : (s.setEntry c h e).devId = s.devId := rfl
@[simp] theorem State.setEntry_time (s : State) (c : CoreId) (h : Handle) (e : Entry) : (s.setEntry c h e).time = s.time := rfl
@[simp] theorem State.setEntry_rate (s : State) (c : CoreId) (h : Handle) (e : Entry) : (s.setEntry c h e).rate = s.rate := rfl
@[simp] theorem State.setEntry_holdover (s : State) (c : CoreId) (h : Handle) (e : Entry) : (s.setEntry c h e).holdover = s.holdover := rfl
@[simp] theorem State.setEntry_locked (s : State) (c : CoreId) (h : Handle) (e : Entry) : (s.setEntry c h e).locked = s.locked := rfl
@[simp] theorem State.setEntry_stepped (s : State) (c : CoreId) (h : Handle) (e : Entry) : (s.setEntry c h e).stepped = s.stepped := rfl
@[simp] theorem State.setEntry_ptpcfg (s : State) (c : CoreId) (h : Handle) (e : Entry) : (s.setEntry c h e).ptpcfg = s.ptpcfg := rfl
@[simp] theorem State.setEntry_toffset (s : State) (c : CoreId) (h : Handle) (e : Entry) : (s.setEntry c h e).toffset = s.toffset := rfl
@[simp] theorem State.setEntry_sensors (s : State) (c : CoreId) (h : Handle) (e : Entry) : (s.setEntry c h e).sensors = s.sensors := rfl
@[simp] theorem State.setEntry_steps (s : State) (c : CoreId) (h : Handle) (e : Entry) : (s.setEntry c h e).steps = s.steps := rfl
@[simp] theorem State.setEntry_raised (s : State) (c : CoreId) (h : Handle) (e : Entry) : (s.setEntry c h e).raised = s.raised := rfl
@[simp] theorem State.setEntry_clocks (s : State) (c : CoreId) (h : Handle) (e : Entry) : (s.setEntry c h e).clocks = s.clocks := rfl
@[simp] theorem State.setEntry_fenceClock (s : State) (c : CoreId) (h : Handle) (e : Entry) : (s.setEntry c h e).fenceClock = s.fenceClock := rfl
@[simp] theorem State.setEntry_stamps (s : State) (c : CoreId) (h : Handle) (e : Entry) : (s.setEntry c h e).stamps = s.stamps := rfl
@[simp] theorem State.setEntry_copies (s : State) (c : CoreId) (h : Handle) (e : Entry) : (s.setEntry c h e).copies = s.copies := rfl
@[simp] theorem State.setEntry_parked (s : State) (c : CoreId) (h : Handle) (e : Entry) : (s.setEntry c h e).parked = s.parked := rfl
@[simp] theorem State.setEntry_misses (s : State) (c : CoreId) (h : Handle) (e : Entry) : (s.setEntry c h e).misses = s.misses := rfl
@[simp] theorem State.setEntry_records (s : State) (c : CoreId) (h : Handle) (e : Entry) : (s.setEntry c h e).records = s.records := rfl
@[simp] theorem State.setEntry_waits (s : State) (c : CoreId) (h : Handle) (e : Entry) : (s.setEntry c h e).waits = s.waits := rfl
@[simp] theorem State.setEntry_reserved (s : State) (c : CoreId) (h : Handle) (e : Entry) : (s.setEntry c h e).reserved = s.reserved := rfl
@[simp] theorem State.setEntry_heldMoving (s : State) (c : CoreId) (h : Handle) (e : Entry) : (s.setEntry c h e).heldMoving = s.heldMoving := rfl
@[simp] theorem State.setEntry_stations (s : State) (c : CoreId) (h : Handle) (e : Entry) : (s.setEntry c h e).stations = s.stations := rfl
@[simp] theorem State.setEntry_live (s : State) (c : CoreId) (h : Handle) (e : Entry) : (s.setEntry c h e).live = s.live := rfl
@[simp] theorem State.setEntry_reqSeq (s : State) (c : CoreId) (h : Handle) (e : Entry) : (s.setEntry c h e).reqSeq = s.reqSeq := rfl
@[simp] theorem State.setEntry_requests (s : State) (c : CoreId) (h : Handle) (e : Entry) : (s.setEntry c h e).requests = s.requests := rfl
@[simp] theorem State.setEntry_applied (s : State) (c : CoreId) (h : Handle) (e : Entry) : (s.setEntry c h e).applied = s.applied := rfl
@[simp] theorem State.setEntry_heldPackets (s : State) (c : CoreId) (h : Handle) (e : Entry) : (s.setEntry c h e).heldPackets = s.heldPackets := rfl
@[simp] theorem State.setEntry_heldLines (s : State) (c : CoreId) (h : Handle) (e : Entry) : (s.setEntry c h e).heldLines = s.heldLines := rfl
@[simp] theorem State.setEntry_slots (s : State) (c : CoreId) (h : Handle) (e : Entry) : (s.setEntry c h e).slots = s.slots := rfl
@[simp] theorem State.setEntry_appraisers (s : State) (c : CoreId) (h : Handle) (e : Entry) : (s.setEntry c h e).appraisers = s.appraisers := rfl
@[simp] theorem State.setEntry_keepers (s : State) (c : CoreId) (h : Handle) (e : Entry) : (s.setEntry c h e).keepers = s.keepers := rfl
@[simp] theorem State.setEntry_lease (s : State) (c : CoreId) (h : Handle) (e : Entry) : (s.setEntry c h e).lease = s.lease := rfl
@[simp] theorem State.setEntry_journal (s : State) (c : CoreId) (h : Handle) (e : Entry) : (s.setEntry c h e).journal = s.journal := rfl
@[simp] theorem State.setEntry_deviceFailed (s : State) (c : CoreId) (h : Handle) (e : Entry) : (s.setEntry c h e).deviceFailed = s.deviceFailed := rfl
@[simp] theorem State.setEntry_second (s : State) (c : CoreId) (h : Handle) (e : Entry) : (s.setEntry c h e).second = s.second := rfl
@[simp] theorem State.setEntry_linkChanges (s : State) (c : CoreId) (h : Handle) (e : Entry) : (s.setEntry c h e).linkChanges = s.linkChanges := rfl
@[simp] theorem State.setEntry_stationed (s : State) (c : CoreId) (h : Handle) (e : Entry) : (s.setEntry c h e).stationed = s.stationed := rfl
@[simp] theorem State.setEntry_leaseLost (s : State) (c : CoreId) (h : Handle) (e : Entry) : (s.setEntry c h e).leaseLost = s.leaseLost := rfl
@[simp] theorem State.setEntry_behind (s : State) (c : CoreId) (h : Handle) (e : Entry) : (s.setEntry c h e).behind = s.behind := rfl
@[simp] theorem State.setEntry_failedLookups (s : State) (c : CoreId) (h : Handle) (e : Entry) : (s.setEntry c h e).failedLookups = s.failedLookups := rfl
@[simp] theorem State.setEntry_kept (s : State) (c : CoreId) (h : Handle) (e : Entry) : (s.setEntry c h e).kept = s.kept := rfl
@[simp] theorem State.setEntry_sampled (s : State) (c : CoreId) (h : Handle) (e : Entry) : (s.setEntry c h e).sampled = s.sampled := rfl

/-! ### setQueue -/

@[simp] theorem State.setQueue_agenda (s : State) (c : CoreId) (q : QNum) (x : Queue) : (s.setQueue c q x).agenda = s.agenda := rfl
@[simp] theorem State.setQueue_schedule (s : State) (c : CoreId) (q : QNum) (x : Queue) : (s.setQueue c q x).schedule = s.schedule := rfl
@[simp] theorem State.setQueue_focus (s : State) (c : CoreId) (q : QNum) (x : Queue) : (s.setQueue c q x).focus = s.focus := rfl
@[simp] theorem State.setQueue_arg (s : State) (c : CoreId) (q : QNum) (x : Queue) : (s.setQueue c q x).arg = s.arg := rfl
@[simp] theorem State.setQueue_now (s : State) (c : CoreId) (q : QNum) (x : Queue) : (s.setQueue c q x).now = s.now := rfl
@[simp] theorem State.setQueue_free (s : State) (c : CoreId) (q : QNum) (x : Queue) : (s.setQueue c q x).free = s.free := rfl
@[simp] theorem State.setQueue_out (s : State) (c : CoreId) (q : QNum) (x : Queue) : (s.setQueue c q x).out = s.out := rfl
@[simp] theorem State.setQueue_mem (s : State) (c : CoreId) (q : QNum) (x : Queue) : (s.setQueue c q x).mem = s.mem := rfl
@[simp] theorem State.setQueue_tags (s : State) (c : CoreId) (q : QNum) (x : Queue) : (s.setQueue c q x).tags = s.tags := rfl
@[simp] theorem State.setQueue_groups (s : State) (c : CoreId) (q : QNum) (x : Queue) : (s.setQueue c q x).groups = s.groups := rfl
@[simp] theorem State.setQueue_parts (s : State) (c : CoreId) (q : QNum) (x : Queue) : (s.setQueue c q x).parts = s.parts := rfl
@[simp] theorem State.setQueue_devq (s : State) (c : CoreId) (q : QNum) (x : Queue) : (s.setQueue c q x).devq = s.devq := rfl
@[simp] theorem State.setQueue_devId (s : State) (c : CoreId) (q : QNum) (x : Queue) : (s.setQueue c q x).devId = s.devId := rfl
@[simp] theorem State.setQueue_time (s : State) (c : CoreId) (q : QNum) (x : Queue) : (s.setQueue c q x).time = s.time := rfl
@[simp] theorem State.setQueue_rate (s : State) (c : CoreId) (q : QNum) (x : Queue) : (s.setQueue c q x).rate = s.rate := rfl
@[simp] theorem State.setQueue_holdover (s : State) (c : CoreId) (q : QNum) (x : Queue) : (s.setQueue c q x).holdover = s.holdover := rfl
@[simp] theorem State.setQueue_locked (s : State) (c : CoreId) (q : QNum) (x : Queue) : (s.setQueue c q x).locked = s.locked := rfl
@[simp] theorem State.setQueue_stepped (s : State) (c : CoreId) (q : QNum) (x : Queue) : (s.setQueue c q x).stepped = s.stepped := rfl
@[simp] theorem State.setQueue_ptpcfg (s : State) (c : CoreId) (q : QNum) (x : Queue) : (s.setQueue c q x).ptpcfg = s.ptpcfg := rfl
@[simp] theorem State.setQueue_toffset (s : State) (c : CoreId) (q : QNum) (x : Queue) : (s.setQueue c q x).toffset = s.toffset := rfl
@[simp] theorem State.setQueue_sensors (s : State) (c : CoreId) (q : QNum) (x : Queue) : (s.setQueue c q x).sensors = s.sensors := rfl
@[simp] theorem State.setQueue_steps (s : State) (c : CoreId) (q : QNum) (x : Queue) : (s.setQueue c q x).steps = s.steps := rfl
@[simp] theorem State.setQueue_raised (s : State) (c : CoreId) (q : QNum) (x : Queue) : (s.setQueue c q x).raised = s.raised := rfl
@[simp] theorem State.setQueue_clocks (s : State) (c : CoreId) (q : QNum) (x : Queue) : (s.setQueue c q x).clocks = s.clocks := rfl
@[simp] theorem State.setQueue_fenceClock (s : State) (c : CoreId) (q : QNum) (x : Queue) : (s.setQueue c q x).fenceClock = s.fenceClock := rfl
@[simp] theorem State.setQueue_stamps (s : State) (c : CoreId) (q : QNum) (x : Queue) : (s.setQueue c q x).stamps = s.stamps := rfl
@[simp] theorem State.setQueue_copies (s : State) (c : CoreId) (q : QNum) (x : Queue) : (s.setQueue c q x).copies = s.copies := rfl
@[simp] theorem State.setQueue_parked (s : State) (c : CoreId) (q : QNum) (x : Queue) : (s.setQueue c q x).parked = s.parked := rfl
@[simp] theorem State.setQueue_misses (s : State) (c : CoreId) (q : QNum) (x : Queue) : (s.setQueue c q x).misses = s.misses := rfl
@[simp] theorem State.setQueue_records (s : State) (c : CoreId) (q : QNum) (x : Queue) : (s.setQueue c q x).records = s.records := rfl
@[simp] theorem State.setQueue_waits (s : State) (c : CoreId) (q : QNum) (x : Queue) : (s.setQueue c q x).waits = s.waits := rfl
@[simp] theorem State.setQueue_reserved (s : State) (c : CoreId) (q : QNum) (x : Queue) : (s.setQueue c q x).reserved = s.reserved := rfl
@[simp] theorem State.setQueue_heldMoving (s : State) (c : CoreId) (q : QNum) (x : Queue) : (s.setQueue c q x).heldMoving = s.heldMoving := rfl
@[simp] theorem State.setQueue_stations (s : State) (c : CoreId) (q : QNum) (x : Queue) : (s.setQueue c q x).stations = s.stations := rfl
@[simp] theorem State.setQueue_live (s : State) (c : CoreId) (q : QNum) (x : Queue) : (s.setQueue c q x).live = s.live := rfl
@[simp] theorem State.setQueue_reqSeq (s : State) (c : CoreId) (q : QNum) (x : Queue) : (s.setQueue c q x).reqSeq = s.reqSeq := rfl
@[simp] theorem State.setQueue_requests (s : State) (c : CoreId) (q : QNum) (x : Queue) : (s.setQueue c q x).requests = s.requests := rfl
@[simp] theorem State.setQueue_applied (s : State) (c : CoreId) (q : QNum) (x : Queue) : (s.setQueue c q x).applied = s.applied := rfl
@[simp] theorem State.setQueue_heldPackets (s : State) (c : CoreId) (q : QNum) (x : Queue) : (s.setQueue c q x).heldPackets = s.heldPackets := rfl
@[simp] theorem State.setQueue_heldLines (s : State) (c : CoreId) (q : QNum) (x : Queue) : (s.setQueue c q x).heldLines = s.heldLines := rfl
@[simp] theorem State.setQueue_slots (s : State) (c : CoreId) (q : QNum) (x : Queue) : (s.setQueue c q x).slots = s.slots := rfl
@[simp] theorem State.setQueue_appraisers (s : State) (c : CoreId) (q : QNum) (x : Queue) : (s.setQueue c q x).appraisers = s.appraisers := rfl
@[simp] theorem State.setQueue_keepers (s : State) (c : CoreId) (q : QNum) (x : Queue) : (s.setQueue c q x).keepers = s.keepers := rfl
@[simp] theorem State.setQueue_lease (s : State) (c : CoreId) (q : QNum) (x : Queue) : (s.setQueue c q x).lease = s.lease := rfl
@[simp] theorem State.setQueue_journal (s : State) (c : CoreId) (q : QNum) (x : Queue) : (s.setQueue c q x).journal = s.journal := rfl
@[simp] theorem State.setQueue_deviceFailed (s : State) (c : CoreId) (q : QNum) (x : Queue) : (s.setQueue c q x).deviceFailed = s.deviceFailed := rfl
@[simp] theorem State.setQueue_second (s : State) (c : CoreId) (q : QNum) (x : Queue) : (s.setQueue c q x).second = s.second := rfl
@[simp] theorem State.setQueue_linkChanges (s : State) (c : CoreId) (q : QNum) (x : Queue) : (s.setQueue c q x).linkChanges = s.linkChanges := rfl
@[simp] theorem State.setQueue_stationed (s : State) (c : CoreId) (q : QNum) (x : Queue) : (s.setQueue c q x).stationed = s.stationed := rfl
@[simp] theorem State.setQueue_leaseLost (s : State) (c : CoreId) (q : QNum) (x : Queue) : (s.setQueue c q x).leaseLost = s.leaseLost := rfl
@[simp] theorem State.setQueue_behind (s : State) (c : CoreId) (q : QNum) (x : Queue) : (s.setQueue c q x).behind = s.behind := rfl
@[simp] theorem State.setQueue_failedLookups (s : State) (c : CoreId) (q : QNum) (x : Queue) : (s.setQueue c q x).failedLookups = s.failedLookups := rfl
@[simp] theorem State.setQueue_kept (s : State) (c : CoreId) (q : QNum) (x : Queue) : (s.setQueue c q x).kept = s.kept := rfl
@[simp] theorem State.setQueue_sampled (s : State) (c : CoreId) (q : QNum) (x : Queue) : (s.setQueue c q x).sampled = s.sampled := rfl

/-! ### setPart -/

@[simp] theorem State.setPart_agenda (s : State) (p : PartNum) (x : Partition) : (s.setPart p x).agenda = s.agenda := rfl
@[simp] theorem State.setPart_schedule (s : State) (p : PartNum) (x : Partition) : (s.setPart p x).schedule = s.schedule := rfl
@[simp] theorem State.setPart_focus (s : State) (p : PartNum) (x : Partition) : (s.setPart p x).focus = s.focus := rfl
@[simp] theorem State.setPart_arg (s : State) (p : PartNum) (x : Partition) : (s.setPart p x).arg = s.arg := rfl
@[simp] theorem State.setPart_now (s : State) (p : PartNum) (x : Partition) : (s.setPart p x).now = s.now := rfl
@[simp] theorem State.setPart_free (s : State) (p : PartNum) (x : Partition) : (s.setPart p x).free = s.free := rfl
@[simp] theorem State.setPart_out (s : State) (p : PartNum) (x : Partition) : (s.setPart p x).out = s.out := rfl
@[simp] theorem State.setPart_cores (s : State) (p : PartNum) (x : Partition) : (s.setPart p x).cores = s.cores := rfl
@[simp] theorem State.setPart_mem (s : State) (p : PartNum) (x : Partition) : (s.setPart p x).mem = s.mem := rfl
@[simp] theorem State.setPart_tags (s : State) (p : PartNum) (x : Partition) : (s.setPart p x).tags = s.tags := rfl
@[simp] theorem State.setPart_groups (s : State) (p : PartNum) (x : Partition) : (s.setPart p x).groups = s.groups := rfl
@[simp] theorem State.setPart_devq (s : State) (p : PartNum) (x : Partition) : (s.setPart p x).devq = s.devq := rfl
@[simp] theorem State.setPart_devId (s : State) (p : PartNum) (x : Partition) : (s.setPart p x).devId = s.devId := rfl
@[simp] theorem State.setPart_time (s : State) (p : PartNum) (x : Partition) : (s.setPart p x).time = s.time := rfl
@[simp] theorem State.setPart_rate (s : State) (p : PartNum) (x : Partition) : (s.setPart p x).rate = s.rate := rfl
@[simp] theorem State.setPart_holdover (s : State) (p : PartNum) (x : Partition) : (s.setPart p x).holdover = s.holdover := rfl
@[simp] theorem State.setPart_locked (s : State) (p : PartNum) (x : Partition) : (s.setPart p x).locked = s.locked := rfl
@[simp] theorem State.setPart_stepped (s : State) (p : PartNum) (x : Partition) : (s.setPart p x).stepped = s.stepped := rfl
@[simp] theorem State.setPart_ptpcfg (s : State) (p : PartNum) (x : Partition) : (s.setPart p x).ptpcfg = s.ptpcfg := rfl
@[simp] theorem State.setPart_toffset (s : State) (p : PartNum) (x : Partition) : (s.setPart p x).toffset = s.toffset := rfl
@[simp] theorem State.setPart_sensors (s : State) (p : PartNum) (x : Partition) : (s.setPart p x).sensors = s.sensors := rfl
@[simp] theorem State.setPart_steps (s : State) (p : PartNum) (x : Partition) : (s.setPart p x).steps = s.steps := rfl
@[simp] theorem State.setPart_raised (s : State) (p : PartNum) (x : Partition) : (s.setPart p x).raised = s.raised := rfl
@[simp] theorem State.setPart_clocks (s : State) (p : PartNum) (x : Partition) : (s.setPart p x).clocks = s.clocks := rfl
@[simp] theorem State.setPart_fenceClock (s : State) (p : PartNum) (x : Partition) : (s.setPart p x).fenceClock = s.fenceClock := rfl
@[simp] theorem State.setPart_stamps (s : State) (p : PartNum) (x : Partition) : (s.setPart p x).stamps = s.stamps := rfl
@[simp] theorem State.setPart_copies (s : State) (p : PartNum) (x : Partition) : (s.setPart p x).copies = s.copies := rfl
@[simp] theorem State.setPart_parked (s : State) (p : PartNum) (x : Partition) : (s.setPart p x).parked = s.parked := rfl
@[simp] theorem State.setPart_misses (s : State) (p : PartNum) (x : Partition) : (s.setPart p x).misses = s.misses := rfl
@[simp] theorem State.setPart_records (s : State) (p : PartNum) (x : Partition) : (s.setPart p x).records = s.records := rfl
@[simp] theorem State.setPart_waits (s : State) (p : PartNum) (x : Partition) : (s.setPart p x).waits = s.waits := rfl
@[simp] theorem State.setPart_reserved (s : State) (p : PartNum) (x : Partition) : (s.setPart p x).reserved = s.reserved := rfl
@[simp] theorem State.setPart_heldMoving (s : State) (p : PartNum) (x : Partition) : (s.setPart p x).heldMoving = s.heldMoving := rfl
@[simp] theorem State.setPart_stations (s : State) (p : PartNum) (x : Partition) : (s.setPart p x).stations = s.stations := rfl
@[simp] theorem State.setPart_live (s : State) (p : PartNum) (x : Partition) : (s.setPart p x).live = s.live := rfl
@[simp] theorem State.setPart_reqSeq (s : State) (p : PartNum) (x : Partition) : (s.setPart p x).reqSeq = s.reqSeq := rfl
@[simp] theorem State.setPart_requests (s : State) (p : PartNum) (x : Partition) : (s.setPart p x).requests = s.requests := rfl
@[simp] theorem State.setPart_applied (s : State) (p : PartNum) (x : Partition) : (s.setPart p x).applied = s.applied := rfl
@[simp] theorem State.setPart_heldPackets (s : State) (p : PartNum) (x : Partition) : (s.setPart p x).heldPackets = s.heldPackets := rfl
@[simp] theorem State.setPart_heldLines (s : State) (p : PartNum) (x : Partition) : (s.setPart p x).heldLines = s.heldLines := rfl
@[simp] theorem State.setPart_slots (s : State) (p : PartNum) (x : Partition) : (s.setPart p x).slots = s.slots := rfl
@[simp] theorem State.setPart_appraisers (s : State) (p : PartNum) (x : Partition) : (s.setPart p x).appraisers = s.appraisers := rfl
@[simp] theorem State.setPart_keepers (s : State) (p : PartNum) (x : Partition) : (s.setPart p x).keepers = s.keepers := rfl
@[simp] theorem State.setPart_lease (s : State) (p : PartNum) (x : Partition) : (s.setPart p x).lease = s.lease := rfl
@[simp] theorem State.setPart_journal (s : State) (p : PartNum) (x : Partition) : (s.setPart p x).journal = s.journal := rfl
@[simp] theorem State.setPart_deviceFailed (s : State) (p : PartNum) (x : Partition) : (s.setPart p x).deviceFailed = s.deviceFailed := rfl
@[simp] theorem State.setPart_second (s : State) (p : PartNum) (x : Partition) : (s.setPart p x).second = s.second := rfl
@[simp] theorem State.setPart_linkChanges (s : State) (p : PartNum) (x : Partition) : (s.setPart p x).linkChanges = s.linkChanges := rfl
@[simp] theorem State.setPart_stationed (s : State) (p : PartNum) (x : Partition) : (s.setPart p x).stationed = s.stationed := rfl
@[simp] theorem State.setPart_leaseLost (s : State) (p : PartNum) (x : Partition) : (s.setPart p x).leaseLost = s.leaseLost := rfl
@[simp] theorem State.setPart_behind (s : State) (p : PartNum) (x : Partition) : (s.setPart p x).behind = s.behind := rfl
@[simp] theorem State.setPart_failedLookups (s : State) (p : PartNum) (x : Partition) : (s.setPart p x).failedLookups = s.failedLookups := rfl
@[simp] theorem State.setPart_kept (s : State) (p : PartNum) (x : Partition) : (s.setPart p x).kept = s.kept := rfl
@[simp] theorem State.setPart_sampled (s : State) (p : PartNum) (x : Partition) : (s.setPart p x).sampled = s.sampled := rfl

/-! ### setGroup -/

@[simp] theorem State.setGroup_agenda (s : State) (g : GroupNum) (x : Group) : (s.setGroup g x).agenda = s.agenda := rfl
@[simp] theorem State.setGroup_schedule (s : State) (g : GroupNum) (x : Group) : (s.setGroup g x).schedule = s.schedule := rfl
@[simp] theorem State.setGroup_focus (s : State) (g : GroupNum) (x : Group) : (s.setGroup g x).focus = s.focus := rfl
@[simp] theorem State.setGroup_arg (s : State) (g : GroupNum) (x : Group) : (s.setGroup g x).arg = s.arg := rfl
@[simp] theorem State.setGroup_now (s : State) (g : GroupNum) (x : Group) : (s.setGroup g x).now = s.now := rfl
@[simp] theorem State.setGroup_free (s : State) (g : GroupNum) (x : Group) : (s.setGroup g x).free = s.free := rfl
@[simp] theorem State.setGroup_out (s : State) (g : GroupNum) (x : Group) : (s.setGroup g x).out = s.out := rfl
@[simp] theorem State.setGroup_cores (s : State) (g : GroupNum) (x : Group) : (s.setGroup g x).cores = s.cores := rfl
@[simp] theorem State.setGroup_mem (s : State) (g : GroupNum) (x : Group) : (s.setGroup g x).mem = s.mem := rfl
@[simp] theorem State.setGroup_tags (s : State) (g : GroupNum) (x : Group) : (s.setGroup g x).tags = s.tags := rfl
@[simp] theorem State.setGroup_parts (s : State) (g : GroupNum) (x : Group) : (s.setGroup g x).parts = s.parts := rfl
@[simp] theorem State.setGroup_devq (s : State) (g : GroupNum) (x : Group) : (s.setGroup g x).devq = s.devq := rfl
@[simp] theorem State.setGroup_devId (s : State) (g : GroupNum) (x : Group) : (s.setGroup g x).devId = s.devId := rfl
@[simp] theorem State.setGroup_time (s : State) (g : GroupNum) (x : Group) : (s.setGroup g x).time = s.time := rfl
@[simp] theorem State.setGroup_rate (s : State) (g : GroupNum) (x : Group) : (s.setGroup g x).rate = s.rate := rfl
@[simp] theorem State.setGroup_holdover (s : State) (g : GroupNum) (x : Group) : (s.setGroup g x).holdover = s.holdover := rfl
@[simp] theorem State.setGroup_locked (s : State) (g : GroupNum) (x : Group) : (s.setGroup g x).locked = s.locked := rfl
@[simp] theorem State.setGroup_stepped (s : State) (g : GroupNum) (x : Group) : (s.setGroup g x).stepped = s.stepped := rfl
@[simp] theorem State.setGroup_ptpcfg (s : State) (g : GroupNum) (x : Group) : (s.setGroup g x).ptpcfg = s.ptpcfg := rfl
@[simp] theorem State.setGroup_toffset (s : State) (g : GroupNum) (x : Group) : (s.setGroup g x).toffset = s.toffset := rfl
@[simp] theorem State.setGroup_sensors (s : State) (g : GroupNum) (x : Group) : (s.setGroup g x).sensors = s.sensors := rfl
@[simp] theorem State.setGroup_steps (s : State) (g : GroupNum) (x : Group) : (s.setGroup g x).steps = s.steps := rfl
@[simp] theorem State.setGroup_raised (s : State) (g : GroupNum) (x : Group) : (s.setGroup g x).raised = s.raised := rfl
@[simp] theorem State.setGroup_clocks (s : State) (g : GroupNum) (x : Group) : (s.setGroup g x).clocks = s.clocks := rfl
@[simp] theorem State.setGroup_fenceClock (s : State) (g : GroupNum) (x : Group) : (s.setGroup g x).fenceClock = s.fenceClock := rfl
@[simp] theorem State.setGroup_stamps (s : State) (g : GroupNum) (x : Group) : (s.setGroup g x).stamps = s.stamps := rfl
@[simp] theorem State.setGroup_copies (s : State) (g : GroupNum) (x : Group) : (s.setGroup g x).copies = s.copies := rfl
@[simp] theorem State.setGroup_parked (s : State) (g : GroupNum) (x : Group) : (s.setGroup g x).parked = s.parked := rfl
@[simp] theorem State.setGroup_misses (s : State) (g : GroupNum) (x : Group) : (s.setGroup g x).misses = s.misses := rfl
@[simp] theorem State.setGroup_records (s : State) (g : GroupNum) (x : Group) : (s.setGroup g x).records = s.records := rfl
@[simp] theorem State.setGroup_waits (s : State) (g : GroupNum) (x : Group) : (s.setGroup g x).waits = s.waits := rfl
@[simp] theorem State.setGroup_reserved (s : State) (g : GroupNum) (x : Group) : (s.setGroup g x).reserved = s.reserved := rfl
@[simp] theorem State.setGroup_heldMoving (s : State) (g : GroupNum) (x : Group) : (s.setGroup g x).heldMoving = s.heldMoving := rfl
@[simp] theorem State.setGroup_stations (s : State) (g : GroupNum) (x : Group) : (s.setGroup g x).stations = s.stations := rfl
@[simp] theorem State.setGroup_live (s : State) (g : GroupNum) (x : Group) : (s.setGroup g x).live = s.live := rfl
@[simp] theorem State.setGroup_reqSeq (s : State) (g : GroupNum) (x : Group) : (s.setGroup g x).reqSeq = s.reqSeq := rfl
@[simp] theorem State.setGroup_requests (s : State) (g : GroupNum) (x : Group) : (s.setGroup g x).requests = s.requests := rfl
@[simp] theorem State.setGroup_applied (s : State) (g : GroupNum) (x : Group) : (s.setGroup g x).applied = s.applied := rfl
@[simp] theorem State.setGroup_heldPackets (s : State) (g : GroupNum) (x : Group) : (s.setGroup g x).heldPackets = s.heldPackets := rfl
@[simp] theorem State.setGroup_heldLines (s : State) (g : GroupNum) (x : Group) : (s.setGroup g x).heldLines = s.heldLines := rfl
@[simp] theorem State.setGroup_slots (s : State) (g : GroupNum) (x : Group) : (s.setGroup g x).slots = s.slots := rfl
@[simp] theorem State.setGroup_appraisers (s : State) (g : GroupNum) (x : Group) : (s.setGroup g x).appraisers = s.appraisers := rfl
@[simp] theorem State.setGroup_keepers (s : State) (g : GroupNum) (x : Group) : (s.setGroup g x).keepers = s.keepers := rfl
@[simp] theorem State.setGroup_lease (s : State) (g : GroupNum) (x : Group) : (s.setGroup g x).lease = s.lease := rfl
@[simp] theorem State.setGroup_journal (s : State) (g : GroupNum) (x : Group) : (s.setGroup g x).journal = s.journal := rfl
@[simp] theorem State.setGroup_deviceFailed (s : State) (g : GroupNum) (x : Group) : (s.setGroup g x).deviceFailed = s.deviceFailed := rfl
@[simp] theorem State.setGroup_second (s : State) (g : GroupNum) (x : Group) : (s.setGroup g x).second = s.second := rfl
@[simp] theorem State.setGroup_linkChanges (s : State) (g : GroupNum) (x : Group) : (s.setGroup g x).linkChanges = s.linkChanges := rfl
@[simp] theorem State.setGroup_stationed (s : State) (g : GroupNum) (x : Group) : (s.setGroup g x).stationed = s.stationed := rfl
@[simp] theorem State.setGroup_leaseLost (s : State) (g : GroupNum) (x : Group) : (s.setGroup g x).leaseLost = s.leaseLost := rfl
@[simp] theorem State.setGroup_behind (s : State) (g : GroupNum) (x : Group) : (s.setGroup g x).behind = s.behind := rfl
@[simp] theorem State.setGroup_failedLookups (s : State) (g : GroupNum) (x : Group) : (s.setGroup g x).failedLookups = s.failedLookups := rfl
@[simp] theorem State.setGroup_kept (s : State) (g : GroupNum) (x : Group) : (s.setGroup g x).kept = s.kept := rfl
@[simp] theorem State.setGroup_sampled (s : State) (g : GroupNum) (x : Group) : (s.setGroup g x).sampled = s.sampled := rfl

/-! ### due -/

@[simp] theorem State.due_schedule (s : State) (l : List Act) : (s.due l).schedule = s.schedule := rfl
@[simp] theorem State.due_focus (s : State) (l : List Act) : (s.due l).focus = s.focus := rfl
@[simp] theorem State.due_arg (s : State) (l : List Act) : (s.due l).arg = s.arg := rfl
@[simp] theorem State.due_now (s : State) (l : List Act) : (s.due l).now = s.now := rfl
@[simp] theorem State.due_free (s : State) (l : List Act) : (s.due l).free = s.free := rfl
@[simp] theorem State.due_out (s : State) (l : List Act) : (s.due l).out = s.out := rfl
@[simp] theorem State.due_cores (s : State) (l : List Act) : (s.due l).cores = s.cores := rfl
@[simp] theorem State.due_mem (s : State) (l : List Act) : (s.due l).mem = s.mem := rfl
@[simp] theorem State.due_tags (s : State) (l : List Act) : (s.due l).tags = s.tags := rfl
@[simp] theorem State.due_groups (s : State) (l : List Act) : (s.due l).groups = s.groups := rfl
@[simp] theorem State.due_parts (s : State) (l : List Act) : (s.due l).parts = s.parts := rfl
@[simp] theorem State.due_devq (s : State) (l : List Act) : (s.due l).devq = s.devq := rfl
@[simp] theorem State.due_devId (s : State) (l : List Act) : (s.due l).devId = s.devId := rfl
@[simp] theorem State.due_time (s : State) (l : List Act) : (s.due l).time = s.time := rfl
@[simp] theorem State.due_rate (s : State) (l : List Act) : (s.due l).rate = s.rate := rfl
@[simp] theorem State.due_holdover (s : State) (l : List Act) : (s.due l).holdover = s.holdover := rfl
@[simp] theorem State.due_locked (s : State) (l : List Act) : (s.due l).locked = s.locked := rfl
@[simp] theorem State.due_stepped (s : State) (l : List Act) : (s.due l).stepped = s.stepped := rfl
@[simp] theorem State.due_ptpcfg (s : State) (l : List Act) : (s.due l).ptpcfg = s.ptpcfg := rfl
@[simp] theorem State.due_toffset (s : State) (l : List Act) : (s.due l).toffset = s.toffset := rfl
@[simp] theorem State.due_sensors (s : State) (l : List Act) : (s.due l).sensors = s.sensors := rfl
@[simp] theorem State.due_steps (s : State) (l : List Act) : (s.due l).steps = s.steps := rfl
@[simp] theorem State.due_raised (s : State) (l : List Act) : (s.due l).raised = s.raised := rfl
@[simp] theorem State.due_clocks (s : State) (l : List Act) : (s.due l).clocks = s.clocks := rfl
@[simp] theorem State.due_fenceClock (s : State) (l : List Act) : (s.due l).fenceClock = s.fenceClock := rfl
@[simp] theorem State.due_stamps (s : State) (l : List Act) : (s.due l).stamps = s.stamps := rfl
@[simp] theorem State.due_copies (s : State) (l : List Act) : (s.due l).copies = s.copies := rfl
@[simp] theorem State.due_parked (s : State) (l : List Act) : (s.due l).parked = s.parked := rfl
@[simp] theorem State.due_misses (s : State) (l : List Act) : (s.due l).misses = s.misses := rfl
@[simp] theorem State.due_records (s : State) (l : List Act) : (s.due l).records = s.records := rfl
@[simp] theorem State.due_waits (s : State) (l : List Act) : (s.due l).waits = s.waits := rfl
@[simp] theorem State.due_reserved (s : State) (l : List Act) : (s.due l).reserved = s.reserved := rfl
@[simp] theorem State.due_heldMoving (s : State) (l : List Act) : (s.due l).heldMoving = s.heldMoving := rfl
@[simp] theorem State.due_stations (s : State) (l : List Act) : (s.due l).stations = s.stations := rfl
@[simp] theorem State.due_live (s : State) (l : List Act) : (s.due l).live = s.live := rfl
@[simp] theorem State.due_reqSeq (s : State) (l : List Act) : (s.due l).reqSeq = s.reqSeq := rfl
@[simp] theorem State.due_requests (s : State) (l : List Act) : (s.due l).requests = s.requests := rfl
@[simp] theorem State.due_applied (s : State) (l : List Act) : (s.due l).applied = s.applied := rfl
@[simp] theorem State.due_heldPackets (s : State) (l : List Act) : (s.due l).heldPackets = s.heldPackets := rfl
@[simp] theorem State.due_heldLines (s : State) (l : List Act) : (s.due l).heldLines = s.heldLines := rfl
@[simp] theorem State.due_slots (s : State) (l : List Act) : (s.due l).slots = s.slots := rfl
@[simp] theorem State.due_appraisers (s : State) (l : List Act) : (s.due l).appraisers = s.appraisers := rfl
@[simp] theorem State.due_keepers (s : State) (l : List Act) : (s.due l).keepers = s.keepers := rfl
@[simp] theorem State.due_lease (s : State) (l : List Act) : (s.due l).lease = s.lease := rfl
@[simp] theorem State.due_journal (s : State) (l : List Act) : (s.due l).journal = s.journal := rfl
@[simp] theorem State.due_deviceFailed (s : State) (l : List Act) : (s.due l).deviceFailed = s.deviceFailed := rfl
@[simp] theorem State.due_second (s : State) (l : List Act) : (s.due l).second = s.second := rfl
@[simp] theorem State.due_linkChanges (s : State) (l : List Act) : (s.due l).linkChanges = s.linkChanges := rfl
@[simp] theorem State.due_stationed (s : State) (l : List Act) : (s.due l).stationed = s.stationed := rfl
@[simp] theorem State.due_leaseLost (s : State) (l : List Act) : (s.due l).leaseLost = s.leaseLost := rfl
@[simp] theorem State.due_behind (s : State) (l : List Act) : (s.due l).behind = s.behind := rfl
@[simp] theorem State.due_failedLookups (s : State) (l : List Act) : (s.due l).failedLookups = s.failedLookups := rfl
@[simp] theorem State.due_kept (s : State) (l : List Act) : (s.due l).kept = s.kept := rfl
@[simp] theorem State.due_sampled (s : State) (l : List Act) : (s.due l).sampled = s.sampled := rfl

/-! ### event -/

@[simp] theorem State.event_schedule (s : State) (i : Instr) : (s.event i).schedule = s.schedule := rfl
@[simp] theorem State.event_focus (s : State) (i : Instr) : (s.event i).focus = s.focus := rfl
@[simp] theorem State.event_arg (s : State) (i : Instr) : (s.event i).arg = s.arg := rfl
@[simp] theorem State.event_now (s : State) (i : Instr) : (s.event i).now = s.now := rfl
@[simp] theorem State.event_free (s : State) (i : Instr) : (s.event i).free = s.free := rfl
@[simp] theorem State.event_out (s : State) (i : Instr) : (s.event i).out = s.out := rfl
@[simp] theorem State.event_cores (s : State) (i : Instr) : (s.event i).cores = s.cores := rfl
@[simp] theorem State.event_mem (s : State) (i : Instr) : (s.event i).mem = s.mem := rfl
@[simp] theorem State.event_tags (s : State) (i : Instr) : (s.event i).tags = s.tags := rfl
@[simp] theorem State.event_groups (s : State) (i : Instr) : (s.event i).groups = s.groups := rfl
@[simp] theorem State.event_parts (s : State) (i : Instr) : (s.event i).parts = s.parts := rfl
@[simp] theorem State.event_devq (s : State) (i : Instr) : (s.event i).devq = s.devq := rfl
@[simp] theorem State.event_devId (s : State) (i : Instr) : (s.event i).devId = s.devId := rfl
@[simp] theorem State.event_time (s : State) (i : Instr) : (s.event i).time = s.time := rfl
@[simp] theorem State.event_rate (s : State) (i : Instr) : (s.event i).rate = s.rate := rfl
@[simp] theorem State.event_holdover (s : State) (i : Instr) : (s.event i).holdover = s.holdover := rfl
@[simp] theorem State.event_locked (s : State) (i : Instr) : (s.event i).locked = s.locked := rfl
@[simp] theorem State.event_stepped (s : State) (i : Instr) : (s.event i).stepped = s.stepped := rfl
@[simp] theorem State.event_ptpcfg (s : State) (i : Instr) : (s.event i).ptpcfg = s.ptpcfg := rfl
@[simp] theorem State.event_toffset (s : State) (i : Instr) : (s.event i).toffset = s.toffset := rfl
@[simp] theorem State.event_sensors (s : State) (i : Instr) : (s.event i).sensors = s.sensors := rfl
@[simp] theorem State.event_steps (s : State) (i : Instr) : (s.event i).steps = s.steps := rfl
@[simp] theorem State.event_raised (s : State) (i : Instr) : (s.event i).raised = s.raised := rfl
@[simp] theorem State.event_clocks (s : State) (i : Instr) : (s.event i).clocks = s.clocks := rfl
@[simp] theorem State.event_fenceClock (s : State) (i : Instr) : (s.event i).fenceClock = s.fenceClock := rfl
@[simp] theorem State.event_stamps (s : State) (i : Instr) : (s.event i).stamps = s.stamps := rfl
@[simp] theorem State.event_copies (s : State) (i : Instr) : (s.event i).copies = s.copies := rfl
@[simp] theorem State.event_parked (s : State) (i : Instr) : (s.event i).parked = s.parked := rfl
@[simp] theorem State.event_misses (s : State) (i : Instr) : (s.event i).misses = s.misses := rfl
@[simp] theorem State.event_records (s : State) (i : Instr) : (s.event i).records = s.records := rfl
@[simp] theorem State.event_waits (s : State) (i : Instr) : (s.event i).waits = s.waits := rfl
@[simp] theorem State.event_reserved (s : State) (i : Instr) : (s.event i).reserved = s.reserved := rfl
@[simp] theorem State.event_heldMoving (s : State) (i : Instr) : (s.event i).heldMoving = s.heldMoving := rfl
@[simp] theorem State.event_stations (s : State) (i : Instr) : (s.event i).stations = s.stations := rfl
@[simp] theorem State.event_live (s : State) (i : Instr) : (s.event i).live = s.live := rfl
@[simp] theorem State.event_reqSeq (s : State) (i : Instr) : (s.event i).reqSeq = s.reqSeq := rfl
@[simp] theorem State.event_requests (s : State) (i : Instr) : (s.event i).requests = s.requests := rfl
@[simp] theorem State.event_applied (s : State) (i : Instr) : (s.event i).applied = s.applied := rfl
@[simp] theorem State.event_heldPackets (s : State) (i : Instr) : (s.event i).heldPackets = s.heldPackets := rfl
@[simp] theorem State.event_heldLines (s : State) (i : Instr) : (s.event i).heldLines = s.heldLines := rfl
@[simp] theorem State.event_slots (s : State) (i : Instr) : (s.event i).slots = s.slots := rfl
@[simp] theorem State.event_appraisers (s : State) (i : Instr) : (s.event i).appraisers = s.appraisers := rfl
@[simp] theorem State.event_keepers (s : State) (i : Instr) : (s.event i).keepers = s.keepers := rfl
@[simp] theorem State.event_lease (s : State) (i : Instr) : (s.event i).lease = s.lease := rfl
@[simp] theorem State.event_journal (s : State) (i : Instr) : (s.event i).journal = s.journal := rfl
@[simp] theorem State.event_deviceFailed (s : State) (i : Instr) : (s.event i).deviceFailed = s.deviceFailed := rfl
@[simp] theorem State.event_second (s : State) (i : Instr) : (s.event i).second = s.second := rfl
@[simp] theorem State.event_linkChanges (s : State) (i : Instr) : (s.event i).linkChanges = s.linkChanges := rfl
@[simp] theorem State.event_stationed (s : State) (i : Instr) : (s.event i).stationed = s.stationed := rfl
@[simp] theorem State.event_leaseLost (s : State) (i : Instr) : (s.event i).leaseLost = s.leaseLost := rfl
@[simp] theorem State.event_behind (s : State) (i : Instr) : (s.event i).behind = s.behind := rfl
@[simp] theorem State.event_failedLookups (s : State) (i : Instr) : (s.event i).failedLookups = s.failedLookups := rfl
@[simp] theorem State.event_kept (s : State) (i : Instr) : (s.event i).kept = s.kept := rfl
@[simp] theorem State.event_sampled (s : State) (i : Instr) : (s.event i).sampled = s.sampled := rfl

/-! ### eventWith -/

@[simp] theorem State.eventWith_schedule (s : State) (i : Instr) (a : Arg) : (s.eventWith i a).schedule = s.schedule := rfl
@[simp] theorem State.eventWith_focus (s : State) (i : Instr) (a : Arg) : (s.eventWith i a).focus = s.focus := rfl
@[simp] theorem State.eventWith_arg (s : State) (i : Instr) (a : Arg) : (s.eventWith i a).arg = s.arg := rfl
@[simp] theorem State.eventWith_now (s : State) (i : Instr) (a : Arg) : (s.eventWith i a).now = s.now := rfl
@[simp] theorem State.eventWith_free (s : State) (i : Instr) (a : Arg) : (s.eventWith i a).free = s.free := rfl
@[simp] theorem State.eventWith_out (s : State) (i : Instr) (a : Arg) : (s.eventWith i a).out = s.out := rfl
@[simp] theorem State.eventWith_cores (s : State) (i : Instr) (a : Arg) : (s.eventWith i a).cores = s.cores := rfl
@[simp] theorem State.eventWith_mem (s : State) (i : Instr) (a : Arg) : (s.eventWith i a).mem = s.mem := rfl
@[simp] theorem State.eventWith_tags (s : State) (i : Instr) (a : Arg) : (s.eventWith i a).tags = s.tags := rfl
@[simp] theorem State.eventWith_groups (s : State) (i : Instr) (a : Arg) : (s.eventWith i a).groups = s.groups := rfl
@[simp] theorem State.eventWith_parts (s : State) (i : Instr) (a : Arg) : (s.eventWith i a).parts = s.parts := rfl
@[simp] theorem State.eventWith_devq (s : State) (i : Instr) (a : Arg) : (s.eventWith i a).devq = s.devq := rfl
@[simp] theorem State.eventWith_devId (s : State) (i : Instr) (a : Arg) : (s.eventWith i a).devId = s.devId := rfl
@[simp] theorem State.eventWith_time (s : State) (i : Instr) (a : Arg) : (s.eventWith i a).time = s.time := rfl
@[simp] theorem State.eventWith_rate (s : State) (i : Instr) (a : Arg) : (s.eventWith i a).rate = s.rate := rfl
@[simp] theorem State.eventWith_holdover (s : State) (i : Instr) (a : Arg) : (s.eventWith i a).holdover = s.holdover := rfl
@[simp] theorem State.eventWith_locked (s : State) (i : Instr) (a : Arg) : (s.eventWith i a).locked = s.locked := rfl
@[simp] theorem State.eventWith_stepped (s : State) (i : Instr) (a : Arg) : (s.eventWith i a).stepped = s.stepped := rfl
@[simp] theorem State.eventWith_ptpcfg (s : State) (i : Instr) (a : Arg) : (s.eventWith i a).ptpcfg = s.ptpcfg := rfl
@[simp] theorem State.eventWith_toffset (s : State) (i : Instr) (a : Arg) : (s.eventWith i a).toffset = s.toffset := rfl
@[simp] theorem State.eventWith_sensors (s : State) (i : Instr) (a : Arg) : (s.eventWith i a).sensors = s.sensors := rfl
@[simp] theorem State.eventWith_steps (s : State) (i : Instr) (a : Arg) : (s.eventWith i a).steps = s.steps := rfl
@[simp] theorem State.eventWith_raised (s : State) (i : Instr) (a : Arg) : (s.eventWith i a).raised = s.raised := rfl
@[simp] theorem State.eventWith_clocks (s : State) (i : Instr) (a : Arg) : (s.eventWith i a).clocks = s.clocks := rfl
@[simp] theorem State.eventWith_fenceClock (s : State) (i : Instr) (a : Arg) : (s.eventWith i a).fenceClock = s.fenceClock := rfl
@[simp] theorem State.eventWith_stamps (s : State) (i : Instr) (a : Arg) : (s.eventWith i a).stamps = s.stamps := rfl
@[simp] theorem State.eventWith_copies (s : State) (i : Instr) (a : Arg) : (s.eventWith i a).copies = s.copies := rfl
@[simp] theorem State.eventWith_parked (s : State) (i : Instr) (a : Arg) : (s.eventWith i a).parked = s.parked := rfl
@[simp] theorem State.eventWith_misses (s : State) (i : Instr) (a : Arg) : (s.eventWith i a).misses = s.misses := rfl
@[simp] theorem State.eventWith_records (s : State) (i : Instr) (a : Arg) : (s.eventWith i a).records = s.records := rfl
@[simp] theorem State.eventWith_waits (s : State) (i : Instr) (a : Arg) : (s.eventWith i a).waits = s.waits := rfl
@[simp] theorem State.eventWith_reserved (s : State) (i : Instr) (a : Arg) : (s.eventWith i a).reserved = s.reserved := rfl
@[simp] theorem State.eventWith_heldMoving (s : State) (i : Instr) (a : Arg) : (s.eventWith i a).heldMoving = s.heldMoving := rfl
@[simp] theorem State.eventWith_stations (s : State) (i : Instr) (a : Arg) : (s.eventWith i a).stations = s.stations := rfl
@[simp] theorem State.eventWith_live (s : State) (i : Instr) (a : Arg) : (s.eventWith i a).live = s.live := rfl
@[simp] theorem State.eventWith_reqSeq (s : State) (i : Instr) (a : Arg) : (s.eventWith i a).reqSeq = s.reqSeq := rfl
@[simp] theorem State.eventWith_requests (s : State) (i : Instr) (a : Arg) : (s.eventWith i a).requests = s.requests := rfl
@[simp] theorem State.eventWith_applied (s : State) (i : Instr) (a : Arg) : (s.eventWith i a).applied = s.applied := rfl
@[simp] theorem State.eventWith_heldPackets (s : State) (i : Instr) (a : Arg) : (s.eventWith i a).heldPackets = s.heldPackets := rfl
@[simp] theorem State.eventWith_heldLines (s : State) (i : Instr) (a : Arg) : (s.eventWith i a).heldLines = s.heldLines := rfl
@[simp] theorem State.eventWith_slots (s : State) (i : Instr) (a : Arg) : (s.eventWith i a).slots = s.slots := rfl
@[simp] theorem State.eventWith_appraisers (s : State) (i : Instr) (a : Arg) : (s.eventWith i a).appraisers = s.appraisers := rfl
@[simp] theorem State.eventWith_keepers (s : State) (i : Instr) (a : Arg) : (s.eventWith i a).keepers = s.keepers := rfl
@[simp] theorem State.eventWith_lease (s : State) (i : Instr) (a : Arg) : (s.eventWith i a).lease = s.lease := rfl
@[simp] theorem State.eventWith_journal (s : State) (i : Instr) (a : Arg) : (s.eventWith i a).journal = s.journal := rfl
@[simp] theorem State.eventWith_deviceFailed (s : State) (i : Instr) (a : Arg) : (s.eventWith i a).deviceFailed = s.deviceFailed := rfl
@[simp] theorem State.eventWith_second (s : State) (i : Instr) (a : Arg) : (s.eventWith i a).second = s.second := rfl
@[simp] theorem State.eventWith_linkChanges (s : State) (i : Instr) (a : Arg) : (s.eventWith i a).linkChanges = s.linkChanges := rfl
@[simp] theorem State.eventWith_stationed (s : State) (i : Instr) (a : Arg) : (s.eventWith i a).stationed = s.stationed := rfl
@[simp] theorem State.eventWith_leaseLost (s : State) (i : Instr) (a : Arg) : (s.eventWith i a).leaseLost = s.leaseLost := rfl
@[simp] theorem State.eventWith_behind (s : State) (i : Instr) (a : Arg) : (s.eventWith i a).behind = s.behind := rfl
@[simp] theorem State.eventWith_failedLookups (s : State) (i : Instr) (a : Arg) : (s.eventWith i a).failedLookups = s.failedLookups := rfl
@[simp] theorem State.eventWith_kept (s : State) (i : Instr) (a : Arg) : (s.eventWith i a).kept = s.kept := rfl
@[simp] theorem State.eventWith_sampled (s : State) (i : Instr) (a : Arg) : (s.eventWith i a).sampled = s.sampled := rfl

/-! ### retire -/

@[simp] theorem State.retire_agenda (s : State) (i : Issue) (f : Context → Context) : (s.retire i f).agenda = s.agenda := rfl
@[simp] theorem State.retire_schedule (s : State) (i : Issue) (f : Context → Context) : (s.retire i f).schedule = s.schedule := rfl
@[simp] theorem State.retire_focus (s : State) (i : Issue) (f : Context → Context) : (s.retire i f).focus = s.focus := rfl
@[simp] theorem State.retire_arg (s : State) (i : Issue) (f : Context → Context) : (s.retire i f).arg = s.arg := rfl
@[simp] theorem State.retire_now (s : State) (i : Issue) (f : Context → Context) : (s.retire i f).now = s.now := rfl
@[simp] theorem State.retire_free (s : State) (i : Issue) (f : Context → Context) : (s.retire i f).free = s.free := rfl
@[simp] theorem State.retire_out (s : State) (i : Issue) (f : Context → Context) : (s.retire i f).out = s.out := rfl
@[simp] theorem State.retire_mem (s : State) (i : Issue) (f : Context → Context) : (s.retire i f).mem = s.mem := rfl
@[simp] theorem State.retire_tags (s : State) (i : Issue) (f : Context → Context) : (s.retire i f).tags = s.tags := rfl
@[simp] theorem State.retire_groups (s : State) (i : Issue) (f : Context → Context) : (s.retire i f).groups = s.groups := rfl
@[simp] theorem State.retire_parts (s : State) (i : Issue) (f : Context → Context) : (s.retire i f).parts = s.parts := rfl
@[simp] theorem State.retire_devq (s : State) (i : Issue) (f : Context → Context) : (s.retire i f).devq = s.devq := rfl
@[simp] theorem State.retire_devId (s : State) (i : Issue) (f : Context → Context) : (s.retire i f).devId = s.devId := rfl
@[simp] theorem State.retire_time (s : State) (i : Issue) (f : Context → Context) : (s.retire i f).time = s.time := rfl
@[simp] theorem State.retire_rate (s : State) (i : Issue) (f : Context → Context) : (s.retire i f).rate = s.rate := rfl
@[simp] theorem State.retire_holdover (s : State) (i : Issue) (f : Context → Context) : (s.retire i f).holdover = s.holdover := rfl
@[simp] theorem State.retire_locked (s : State) (i : Issue) (f : Context → Context) : (s.retire i f).locked = s.locked := rfl
@[simp] theorem State.retire_stepped (s : State) (i : Issue) (f : Context → Context) : (s.retire i f).stepped = s.stepped := rfl
@[simp] theorem State.retire_ptpcfg (s : State) (i : Issue) (f : Context → Context) : (s.retire i f).ptpcfg = s.ptpcfg := rfl
@[simp] theorem State.retire_toffset (s : State) (i : Issue) (f : Context → Context) : (s.retire i f).toffset = s.toffset := rfl
@[simp] theorem State.retire_sensors (s : State) (i : Issue) (f : Context → Context) : (s.retire i f).sensors = s.sensors := rfl
@[simp] theorem State.retire_steps (s : State) (i : Issue) (f : Context → Context) : (s.retire i f).steps = s.steps := rfl
@[simp] theorem State.retire_raised (s : State) (i : Issue) (f : Context → Context) : (s.retire i f).raised = s.raised := rfl
@[simp] theorem State.retire_clocks (s : State) (i : Issue) (f : Context → Context) : (s.retire i f).clocks = s.clocks := rfl
@[simp] theorem State.retire_fenceClock (s : State) (i : Issue) (f : Context → Context) : (s.retire i f).fenceClock = s.fenceClock := rfl
@[simp] theorem State.retire_stamps (s : State) (i : Issue) (f : Context → Context) : (s.retire i f).stamps = s.stamps := rfl
@[simp] theorem State.retire_copies (s : State) (i : Issue) (f : Context → Context) : (s.retire i f).copies = s.copies := rfl
@[simp] theorem State.retire_parked (s : State) (i : Issue) (f : Context → Context) : (s.retire i f).parked = s.parked := rfl
@[simp] theorem State.retire_misses (s : State) (i : Issue) (f : Context → Context) : (s.retire i f).misses = s.misses := rfl
@[simp] theorem State.retire_records (s : State) (i : Issue) (f : Context → Context) : (s.retire i f).records = s.records := rfl
@[simp] theorem State.retire_waits (s : State) (i : Issue) (f : Context → Context) : (s.retire i f).waits = s.waits := rfl
@[simp] theorem State.retire_reserved (s : State) (i : Issue) (f : Context → Context) : (s.retire i f).reserved = s.reserved := rfl
@[simp] theorem State.retire_heldMoving (s : State) (i : Issue) (f : Context → Context) : (s.retire i f).heldMoving = s.heldMoving := rfl
@[simp] theorem State.retire_stations (s : State) (i : Issue) (f : Context → Context) : (s.retire i f).stations = s.stations := rfl
@[simp] theorem State.retire_live (s : State) (i : Issue) (f : Context → Context) : (s.retire i f).live = s.live := rfl
@[simp] theorem State.retire_reqSeq (s : State) (i : Issue) (f : Context → Context) : (s.retire i f).reqSeq = s.reqSeq := rfl
@[simp] theorem State.retire_requests (s : State) (i : Issue) (f : Context → Context) : (s.retire i f).requests = s.requests := rfl
@[simp] theorem State.retire_applied (s : State) (i : Issue) (f : Context → Context) : (s.retire i f).applied = s.applied := rfl
@[simp] theorem State.retire_heldPackets (s : State) (i : Issue) (f : Context → Context) : (s.retire i f).heldPackets = s.heldPackets := rfl
@[simp] theorem State.retire_heldLines (s : State) (i : Issue) (f : Context → Context) : (s.retire i f).heldLines = s.heldLines := rfl
@[simp] theorem State.retire_slots (s : State) (i : Issue) (f : Context → Context) : (s.retire i f).slots = s.slots := rfl
@[simp] theorem State.retire_appraisers (s : State) (i : Issue) (f : Context → Context) : (s.retire i f).appraisers = s.appraisers := rfl
@[simp] theorem State.retire_keepers (s : State) (i : Issue) (f : Context → Context) : (s.retire i f).keepers = s.keepers := rfl
@[simp] theorem State.retire_lease (s : State) (i : Issue) (f : Context → Context) : (s.retire i f).lease = s.lease := rfl
@[simp] theorem State.retire_journal (s : State) (i : Issue) (f : Context → Context) : (s.retire i f).journal = s.journal := rfl
@[simp] theorem State.retire_deviceFailed (s : State) (i : Issue) (f : Context → Context) : (s.retire i f).deviceFailed = s.deviceFailed := rfl
@[simp] theorem State.retire_second (s : State) (i : Issue) (f : Context → Context) : (s.retire i f).second = s.second := rfl
@[simp] theorem State.retire_linkChanges (s : State) (i : Issue) (f : Context → Context) : (s.retire i f).linkChanges = s.linkChanges := rfl
@[simp] theorem State.retire_stationed (s : State) (i : Issue) (f : Context → Context) : (s.retire i f).stationed = s.stationed := rfl
@[simp] theorem State.retire_leaseLost (s : State) (i : Issue) (f : Context → Context) : (s.retire i f).leaseLost = s.leaseLost := rfl
@[simp] theorem State.retire_behind (s : State) (i : Issue) (f : Context → Context) : (s.retire i f).behind = s.behind := rfl
@[simp] theorem State.retire_failedLookups (s : State) (i : Issue) (f : Context → Context) : (s.retire i f).failedLookups = s.failedLookups := rfl
@[simp] theorem State.retire_kept (s : State) (i : Issue) (f : Context → Context) : (s.retire i f).kept = s.kept := rfl
@[simp] theorem State.retire_sampled (s : State) (i : Issue) (f : Context → Context) : (s.retire i f).sampled = s.sampled := rfl

/-! ### advanceClock -/

@[simp] theorem State.advanceClock_agenda (s : State) (d : DieNum) : (s.advanceClock d).agenda = s.agenda := rfl
@[simp] theorem State.advanceClock_schedule (s : State) (d : DieNum) : (s.advanceClock d).schedule = s.schedule := rfl
@[simp] theorem State.advanceClock_focus (s : State) (d : DieNum) : (s.advanceClock d).focus = s.focus := rfl
@[simp] theorem State.advanceClock_arg (s : State) (d : DieNum) : (s.advanceClock d).arg = s.arg := rfl
@[simp] theorem State.advanceClock_now (s : State) (d : DieNum) : (s.advanceClock d).now = s.now := rfl
@[simp] theorem State.advanceClock_free (s : State) (d : DieNum) : (s.advanceClock d).free = s.free := rfl
@[simp] theorem State.advanceClock_out (s : State) (d : DieNum) : (s.advanceClock d).out = s.out := rfl
@[simp] theorem State.advanceClock_cores (s : State) (d : DieNum) : (s.advanceClock d).cores = s.cores := rfl
@[simp] theorem State.advanceClock_mem (s : State) (d : DieNum) : (s.advanceClock d).mem = s.mem := rfl
@[simp] theorem State.advanceClock_tags (s : State) (d : DieNum) : (s.advanceClock d).tags = s.tags := rfl
@[simp] theorem State.advanceClock_groups (s : State) (d : DieNum) : (s.advanceClock d).groups = s.groups := rfl
@[simp] theorem State.advanceClock_parts (s : State) (d : DieNum) : (s.advanceClock d).parts = s.parts := rfl
@[simp] theorem State.advanceClock_devq (s : State) (d : DieNum) : (s.advanceClock d).devq = s.devq := rfl
@[simp] theorem State.advanceClock_devId (s : State) (d : DieNum) : (s.advanceClock d).devId = s.devId := rfl
@[simp] theorem State.advanceClock_time (s : State) (d : DieNum) : (s.advanceClock d).time = s.time := rfl
@[simp] theorem State.advanceClock_rate (s : State) (d : DieNum) : (s.advanceClock d).rate = s.rate := rfl
@[simp] theorem State.advanceClock_holdover (s : State) (d : DieNum) : (s.advanceClock d).holdover = s.holdover := rfl
@[simp] theorem State.advanceClock_locked (s : State) (d : DieNum) : (s.advanceClock d).locked = s.locked := rfl
@[simp] theorem State.advanceClock_stepped (s : State) (d : DieNum) : (s.advanceClock d).stepped = s.stepped := rfl
@[simp] theorem State.advanceClock_ptpcfg (s : State) (d : DieNum) : (s.advanceClock d).ptpcfg = s.ptpcfg := rfl
@[simp] theorem State.advanceClock_toffset (s : State) (d : DieNum) : (s.advanceClock d).toffset = s.toffset := rfl
@[simp] theorem State.advanceClock_sensors (s : State) (d : DieNum) : (s.advanceClock d).sensors = s.sensors := rfl
@[simp] theorem State.advanceClock_steps (s : State) (d : DieNum) : (s.advanceClock d).steps = s.steps := rfl
@[simp] theorem State.advanceClock_raised (s : State) (d : DieNum) : (s.advanceClock d).raised = s.raised := rfl
@[simp] theorem State.advanceClock_fenceClock (s : State) (d : DieNum) : (s.advanceClock d).fenceClock = s.fenceClock := rfl
@[simp] theorem State.advanceClock_stamps (s : State) (d : DieNum) : (s.advanceClock d).stamps = s.stamps := rfl
@[simp] theorem State.advanceClock_copies (s : State) (d : DieNum) : (s.advanceClock d).copies = s.copies := rfl
@[simp] theorem State.advanceClock_parked (s : State) (d : DieNum) : (s.advanceClock d).parked = s.parked := rfl
@[simp] theorem State.advanceClock_misses (s : State) (d : DieNum) : (s.advanceClock d).misses = s.misses := rfl
@[simp] theorem State.advanceClock_records (s : State) (d : DieNum) : (s.advanceClock d).records = s.records := rfl
@[simp] theorem State.advanceClock_waits (s : State) (d : DieNum) : (s.advanceClock d).waits = s.waits := rfl
@[simp] theorem State.advanceClock_reserved (s : State) (d : DieNum) : (s.advanceClock d).reserved = s.reserved := rfl
@[simp] theorem State.advanceClock_heldMoving (s : State) (d : DieNum) : (s.advanceClock d).heldMoving = s.heldMoving := rfl
@[simp] theorem State.advanceClock_stations (s : State) (d : DieNum) : (s.advanceClock d).stations = s.stations := rfl
@[simp] theorem State.advanceClock_live (s : State) (d : DieNum) : (s.advanceClock d).live = s.live := rfl
@[simp] theorem State.advanceClock_reqSeq (s : State) (d : DieNum) : (s.advanceClock d).reqSeq = s.reqSeq := rfl
@[simp] theorem State.advanceClock_requests (s : State) (d : DieNum) : (s.advanceClock d).requests = s.requests := rfl
@[simp] theorem State.advanceClock_applied (s : State) (d : DieNum) : (s.advanceClock d).applied = s.applied := rfl
@[simp] theorem State.advanceClock_heldPackets (s : State) (d : DieNum) : (s.advanceClock d).heldPackets = s.heldPackets := rfl
@[simp] theorem State.advanceClock_heldLines (s : State) (d : DieNum) : (s.advanceClock d).heldLines = s.heldLines := rfl
@[simp] theorem State.advanceClock_slots (s : State) (d : DieNum) : (s.advanceClock d).slots = s.slots := rfl
@[simp] theorem State.advanceClock_appraisers (s : State) (d : DieNum) : (s.advanceClock d).appraisers = s.appraisers := rfl
@[simp] theorem State.advanceClock_keepers (s : State) (d : DieNum) : (s.advanceClock d).keepers = s.keepers := rfl
@[simp] theorem State.advanceClock_lease (s : State) (d : DieNum) : (s.advanceClock d).lease = s.lease := rfl
@[simp] theorem State.advanceClock_journal (s : State) (d : DieNum) : (s.advanceClock d).journal = s.journal := rfl
@[simp] theorem State.advanceClock_deviceFailed (s : State) (d : DieNum) : (s.advanceClock d).deviceFailed = s.deviceFailed := rfl
@[simp] theorem State.advanceClock_second (s : State) (d : DieNum) : (s.advanceClock d).second = s.second := rfl
@[simp] theorem State.advanceClock_linkChanges (s : State) (d : DieNum) : (s.advanceClock d).linkChanges = s.linkChanges := rfl
@[simp] theorem State.advanceClock_stationed (s : State) (d : DieNum) : (s.advanceClock d).stationed = s.stationed := rfl
@[simp] theorem State.advanceClock_leaseLost (s : State) (d : DieNum) : (s.advanceClock d).leaseLost = s.leaseLost := rfl
@[simp] theorem State.advanceClock_behind (s : State) (d : DieNum) : (s.advanceClock d).behind = s.behind := rfl
@[simp] theorem State.advanceClock_failedLookups (s : State) (d : DieNum) : (s.advanceClock d).failedLookups = s.failedLookups := rfl
@[simp] theorem State.advanceClock_kept (s : State) (d : DieNum) : (s.advanceClock d).kept = s.kept := rfl
@[simp] theorem State.advanceClock_sampled (s : State) (d : DieNum) : (s.advanceClock d).sampled = s.sampled := rfl

/-! ### mergeClock -/

@[simp] theorem State.mergeClock_agenda (s : State) (d : DieNum) (k : Clock) : (s.mergeClock d k).agenda = s.agenda := rfl
@[simp] theorem State.mergeClock_schedule (s : State) (d : DieNum) (k : Clock) : (s.mergeClock d k).schedule = s.schedule := rfl
@[simp] theorem State.mergeClock_focus (s : State) (d : DieNum) (k : Clock) : (s.mergeClock d k).focus = s.focus := rfl
@[simp] theorem State.mergeClock_arg (s : State) (d : DieNum) (k : Clock) : (s.mergeClock d k).arg = s.arg := rfl
@[simp] theorem State.mergeClock_now (s : State) (d : DieNum) (k : Clock) : (s.mergeClock d k).now = s.now := rfl
@[simp] theorem State.mergeClock_free (s : State) (d : DieNum) (k : Clock) : (s.mergeClock d k).free = s.free := rfl
@[simp] theorem State.mergeClock_out (s : State) (d : DieNum) (k : Clock) : (s.mergeClock d k).out = s.out := rfl
@[simp] theorem State.mergeClock_cores (s : State) (d : DieNum) (k : Clock) : (s.mergeClock d k).cores = s.cores := rfl
@[simp] theorem State.mergeClock_mem (s : State) (d : DieNum) (k : Clock) : (s.mergeClock d k).mem = s.mem := rfl
@[simp] theorem State.mergeClock_tags (s : State) (d : DieNum) (k : Clock) : (s.mergeClock d k).tags = s.tags := rfl
@[simp] theorem State.mergeClock_groups (s : State) (d : DieNum) (k : Clock) : (s.mergeClock d k).groups = s.groups := rfl
@[simp] theorem State.mergeClock_parts (s : State) (d : DieNum) (k : Clock) : (s.mergeClock d k).parts = s.parts := rfl
@[simp] theorem State.mergeClock_devq (s : State) (d : DieNum) (k : Clock) : (s.mergeClock d k).devq = s.devq := rfl
@[simp] theorem State.mergeClock_devId (s : State) (d : DieNum) (k : Clock) : (s.mergeClock d k).devId = s.devId := rfl
@[simp] theorem State.mergeClock_time (s : State) (d : DieNum) (k : Clock) : (s.mergeClock d k).time = s.time := rfl
@[simp] theorem State.mergeClock_rate (s : State) (d : DieNum) (k : Clock) : (s.mergeClock d k).rate = s.rate := rfl
@[simp] theorem State.mergeClock_holdover (s : State) (d : DieNum) (k : Clock) : (s.mergeClock d k).holdover = s.holdover := rfl
@[simp] theorem State.mergeClock_locked (s : State) (d : DieNum) (k : Clock) : (s.mergeClock d k).locked = s.locked := rfl
@[simp] theorem State.mergeClock_stepped (s : State) (d : DieNum) (k : Clock) : (s.mergeClock d k).stepped = s.stepped := rfl
@[simp] theorem State.mergeClock_ptpcfg (s : State) (d : DieNum) (k : Clock) : (s.mergeClock d k).ptpcfg = s.ptpcfg := rfl
@[simp] theorem State.mergeClock_toffset (s : State) (d : DieNum) (k : Clock) : (s.mergeClock d k).toffset = s.toffset := rfl
@[simp] theorem State.mergeClock_sensors (s : State) (d : DieNum) (k : Clock) : (s.mergeClock d k).sensors = s.sensors := rfl
@[simp] theorem State.mergeClock_steps (s : State) (d : DieNum) (k : Clock) : (s.mergeClock d k).steps = s.steps := rfl
@[simp] theorem State.mergeClock_raised (s : State) (d : DieNum) (k : Clock) : (s.mergeClock d k).raised = s.raised := rfl
@[simp] theorem State.mergeClock_fenceClock (s : State) (d : DieNum) (k : Clock) : (s.mergeClock d k).fenceClock = s.fenceClock := rfl
@[simp] theorem State.mergeClock_stamps (s : State) (d : DieNum) (k : Clock) : (s.mergeClock d k).stamps = s.stamps := rfl
@[simp] theorem State.mergeClock_copies (s : State) (d : DieNum) (k : Clock) : (s.mergeClock d k).copies = s.copies := rfl
@[simp] theorem State.mergeClock_parked (s : State) (d : DieNum) (k : Clock) : (s.mergeClock d k).parked = s.parked := rfl
@[simp] theorem State.mergeClock_misses (s : State) (d : DieNum) (k : Clock) : (s.mergeClock d k).misses = s.misses := rfl
@[simp] theorem State.mergeClock_records (s : State) (d : DieNum) (k : Clock) : (s.mergeClock d k).records = s.records := rfl
@[simp] theorem State.mergeClock_waits (s : State) (d : DieNum) (k : Clock) : (s.mergeClock d k).waits = s.waits := rfl
@[simp] theorem State.mergeClock_reserved (s : State) (d : DieNum) (k : Clock) : (s.mergeClock d k).reserved = s.reserved := rfl
@[simp] theorem State.mergeClock_heldMoving (s : State) (d : DieNum) (k : Clock) : (s.mergeClock d k).heldMoving = s.heldMoving := rfl
@[simp] theorem State.mergeClock_stations (s : State) (d : DieNum) (k : Clock) : (s.mergeClock d k).stations = s.stations := rfl
@[simp] theorem State.mergeClock_live (s : State) (d : DieNum) (k : Clock) : (s.mergeClock d k).live = s.live := rfl
@[simp] theorem State.mergeClock_reqSeq (s : State) (d : DieNum) (k : Clock) : (s.mergeClock d k).reqSeq = s.reqSeq := rfl
@[simp] theorem State.mergeClock_requests (s : State) (d : DieNum) (k : Clock) : (s.mergeClock d k).requests = s.requests := rfl
@[simp] theorem State.mergeClock_applied (s : State) (d : DieNum) (k : Clock) : (s.mergeClock d k).applied = s.applied := rfl
@[simp] theorem State.mergeClock_heldPackets (s : State) (d : DieNum) (k : Clock) : (s.mergeClock d k).heldPackets = s.heldPackets := rfl
@[simp] theorem State.mergeClock_heldLines (s : State) (d : DieNum) (k : Clock) : (s.mergeClock d k).heldLines = s.heldLines := rfl
@[simp] theorem State.mergeClock_slots (s : State) (d : DieNum) (k : Clock) : (s.mergeClock d k).slots = s.slots := rfl
@[simp] theorem State.mergeClock_appraisers (s : State) (d : DieNum) (k : Clock) : (s.mergeClock d k).appraisers = s.appraisers := rfl
@[simp] theorem State.mergeClock_keepers (s : State) (d : DieNum) (k : Clock) : (s.mergeClock d k).keepers = s.keepers := rfl
@[simp] theorem State.mergeClock_lease (s : State) (d : DieNum) (k : Clock) : (s.mergeClock d k).lease = s.lease := rfl
@[simp] theorem State.mergeClock_journal (s : State) (d : DieNum) (k : Clock) : (s.mergeClock d k).journal = s.journal := rfl
@[simp] theorem State.mergeClock_deviceFailed (s : State) (d : DieNum) (k : Clock) : (s.mergeClock d k).deviceFailed = s.deviceFailed := rfl
@[simp] theorem State.mergeClock_second (s : State) (d : DieNum) (k : Clock) : (s.mergeClock d k).second = s.second := rfl
@[simp] theorem State.mergeClock_linkChanges (s : State) (d : DieNum) (k : Clock) : (s.mergeClock d k).linkChanges = s.linkChanges := rfl
@[simp] theorem State.mergeClock_stationed (s : State) (d : DieNum) (k : Clock) : (s.mergeClock d k).stationed = s.stationed := rfl
@[simp] theorem State.mergeClock_leaseLost (s : State) (d : DieNum) (k : Clock) : (s.mergeClock d k).leaseLost = s.leaseLost := rfl
@[simp] theorem State.mergeClock_behind (s : State) (d : DieNum) (k : Clock) : (s.mergeClock d k).behind = s.behind := rfl
@[simp] theorem State.mergeClock_failedLookups (s : State) (d : DieNum) (k : Clock) : (s.mergeClock d k).failedLookups = s.failedLookups := rfl
@[simp] theorem State.mergeClock_kept (s : State) (d : DieNum) (k : Clock) : (s.mergeClock d k).kept = s.kept := rfl
@[simp] theorem State.mergeClock_sampled (s : State) (d : DieNum) (k : Clock) : (s.mergeClock d k).sampled = s.sampled := rfl

/-! ### stampAs -/

@[simp] theorem State.stampAs_agenda (s : State) (m : Mark) (lo len : Nat) (loc : Bool) : (s.stampAs m lo len loc).agenda = s.agenda := rfl
@[simp] theorem State.stampAs_schedule (s : State) (m : Mark) (lo len : Nat) (loc : Bool) : (s.stampAs m lo len loc).schedule = s.schedule := rfl
@[simp] theorem State.stampAs_focus (s : State) (m : Mark) (lo len : Nat) (loc : Bool) : (s.stampAs m lo len loc).focus = s.focus := rfl
@[simp] theorem State.stampAs_arg (s : State) (m : Mark) (lo len : Nat) (loc : Bool) : (s.stampAs m lo len loc).arg = s.arg := rfl
@[simp] theorem State.stampAs_now (s : State) (m : Mark) (lo len : Nat) (loc : Bool) : (s.stampAs m lo len loc).now = s.now := rfl
@[simp] theorem State.stampAs_free (s : State) (m : Mark) (lo len : Nat) (loc : Bool) : (s.stampAs m lo len loc).free = s.free := rfl
@[simp] theorem State.stampAs_out (s : State) (m : Mark) (lo len : Nat) (loc : Bool) : (s.stampAs m lo len loc).out = s.out := rfl
@[simp] theorem State.stampAs_cores (s : State) (m : Mark) (lo len : Nat) (loc : Bool) : (s.stampAs m lo len loc).cores = s.cores := rfl
@[simp] theorem State.stampAs_mem (s : State) (m : Mark) (lo len : Nat) (loc : Bool) : (s.stampAs m lo len loc).mem = s.mem := rfl
@[simp] theorem State.stampAs_tags (s : State) (m : Mark) (lo len : Nat) (loc : Bool) : (s.stampAs m lo len loc).tags = s.tags := rfl
@[simp] theorem State.stampAs_groups (s : State) (m : Mark) (lo len : Nat) (loc : Bool) : (s.stampAs m lo len loc).groups = s.groups := rfl
@[simp] theorem State.stampAs_parts (s : State) (m : Mark) (lo len : Nat) (loc : Bool) : (s.stampAs m lo len loc).parts = s.parts := rfl
@[simp] theorem State.stampAs_devq (s : State) (m : Mark) (lo len : Nat) (loc : Bool) : (s.stampAs m lo len loc).devq = s.devq := rfl
@[simp] theorem State.stampAs_devId (s : State) (m : Mark) (lo len : Nat) (loc : Bool) : (s.stampAs m lo len loc).devId = s.devId := rfl
@[simp] theorem State.stampAs_time (s : State) (m : Mark) (lo len : Nat) (loc : Bool) : (s.stampAs m lo len loc).time = s.time := rfl
@[simp] theorem State.stampAs_rate (s : State) (m : Mark) (lo len : Nat) (loc : Bool) : (s.stampAs m lo len loc).rate = s.rate := rfl
@[simp] theorem State.stampAs_holdover (s : State) (m : Mark) (lo len : Nat) (loc : Bool) : (s.stampAs m lo len loc).holdover = s.holdover := rfl
@[simp] theorem State.stampAs_locked (s : State) (m : Mark) (lo len : Nat) (loc : Bool) : (s.stampAs m lo len loc).locked = s.locked := rfl
@[simp] theorem State.stampAs_stepped (s : State) (m : Mark) (lo len : Nat) (loc : Bool) : (s.stampAs m lo len loc).stepped = s.stepped := rfl
@[simp] theorem State.stampAs_ptpcfg (s : State) (m : Mark) (lo len : Nat) (loc : Bool) : (s.stampAs m lo len loc).ptpcfg = s.ptpcfg := rfl
@[simp] theorem State.stampAs_toffset (s : State) (m : Mark) (lo len : Nat) (loc : Bool) : (s.stampAs m lo len loc).toffset = s.toffset := rfl
@[simp] theorem State.stampAs_sensors (s : State) (m : Mark) (lo len : Nat) (loc : Bool) : (s.stampAs m lo len loc).sensors = s.sensors := rfl
@[simp] theorem State.stampAs_steps (s : State) (m : Mark) (lo len : Nat) (loc : Bool) : (s.stampAs m lo len loc).steps = s.steps := rfl
@[simp] theorem State.stampAs_raised (s : State) (m : Mark) (lo len : Nat) (loc : Bool) : (s.stampAs m lo len loc).raised = s.raised := rfl
@[simp] theorem State.stampAs_clocks (s : State) (m : Mark) (lo len : Nat) (loc : Bool) : (s.stampAs m lo len loc).clocks = s.clocks := rfl
@[simp] theorem State.stampAs_fenceClock (s : State) (m : Mark) (lo len : Nat) (loc : Bool) : (s.stampAs m lo len loc).fenceClock = s.fenceClock := rfl
@[simp] theorem State.stampAs_copies (s : State) (m : Mark) (lo len : Nat) (loc : Bool) : (s.stampAs m lo len loc).copies = s.copies := rfl
@[simp] theorem State.stampAs_parked (s : State) (m : Mark) (lo len : Nat) (loc : Bool) : (s.stampAs m lo len loc).parked = s.parked := rfl
@[simp] theorem State.stampAs_misses (s : State) (m : Mark) (lo len : Nat) (loc : Bool) : (s.stampAs m lo len loc).misses = s.misses := rfl
@[simp] theorem State.stampAs_records (s : State) (m : Mark) (lo len : Nat) (loc : Bool) : (s.stampAs m lo len loc).records = s.records := rfl
@[simp] theorem State.stampAs_waits (s : State) (m : Mark) (lo len : Nat) (loc : Bool) : (s.stampAs m lo len loc).waits = s.waits := rfl
@[simp] theorem State.stampAs_reserved (s : State) (m : Mark) (lo len : Nat) (loc : Bool) : (s.stampAs m lo len loc).reserved = s.reserved := rfl
@[simp] theorem State.stampAs_heldMoving (s : State) (m : Mark) (lo len : Nat) (loc : Bool) : (s.stampAs m lo len loc).heldMoving = s.heldMoving := rfl
@[simp] theorem State.stampAs_stations (s : State) (m : Mark) (lo len : Nat) (loc : Bool) : (s.stampAs m lo len loc).stations = s.stations := rfl
@[simp] theorem State.stampAs_live (s : State) (m : Mark) (lo len : Nat) (loc : Bool) : (s.stampAs m lo len loc).live = s.live := rfl
@[simp] theorem State.stampAs_reqSeq (s : State) (m : Mark) (lo len : Nat) (loc : Bool) : (s.stampAs m lo len loc).reqSeq = s.reqSeq := rfl
@[simp] theorem State.stampAs_requests (s : State) (m : Mark) (lo len : Nat) (loc : Bool) : (s.stampAs m lo len loc).requests = s.requests := rfl
@[simp] theorem State.stampAs_applied (s : State) (m : Mark) (lo len : Nat) (loc : Bool) : (s.stampAs m lo len loc).applied = s.applied := rfl
@[simp] theorem State.stampAs_heldPackets (s : State) (m : Mark) (lo len : Nat) (loc : Bool) : (s.stampAs m lo len loc).heldPackets = s.heldPackets := rfl
@[simp] theorem State.stampAs_heldLines (s : State) (m : Mark) (lo len : Nat) (loc : Bool) : (s.stampAs m lo len loc).heldLines = s.heldLines := rfl
@[simp] theorem State.stampAs_slots (s : State) (m : Mark) (lo len : Nat) (loc : Bool) : (s.stampAs m lo len loc).slots = s.slots := rfl
@[simp] theorem State.stampAs_appraisers (s : State) (m : Mark) (lo len : Nat) (loc : Bool) : (s.stampAs m lo len loc).appraisers = s.appraisers := rfl
@[simp] theorem State.stampAs_keepers (s : State) (m : Mark) (lo len : Nat) (loc : Bool) : (s.stampAs m lo len loc).keepers = s.keepers := rfl
@[simp] theorem State.stampAs_lease (s : State) (m : Mark) (lo len : Nat) (loc : Bool) : (s.stampAs m lo len loc).lease = s.lease := rfl
@[simp] theorem State.stampAs_journal (s : State) (m : Mark) (lo len : Nat) (loc : Bool) : (s.stampAs m lo len loc).journal = s.journal := rfl
@[simp] theorem State.stampAs_deviceFailed (s : State) (m : Mark) (lo len : Nat) (loc : Bool) : (s.stampAs m lo len loc).deviceFailed = s.deviceFailed := rfl
@[simp] theorem State.stampAs_second (s : State) (m : Mark) (lo len : Nat) (loc : Bool) : (s.stampAs m lo len loc).second = s.second := rfl
@[simp] theorem State.stampAs_linkChanges (s : State) (m : Mark) (lo len : Nat) (loc : Bool) : (s.stampAs m lo len loc).linkChanges = s.linkChanges := rfl
@[simp] theorem State.stampAs_stationed (s : State) (m : Mark) (lo len : Nat) (loc : Bool) : (s.stampAs m lo len loc).stationed = s.stationed := rfl
@[simp] theorem State.stampAs_leaseLost (s : State) (m : Mark) (lo len : Nat) (loc : Bool) : (s.stampAs m lo len loc).leaseLost = s.leaseLost := rfl
@[simp] theorem State.stampAs_behind (s : State) (m : Mark) (lo len : Nat) (loc : Bool) : (s.stampAs m lo len loc).behind = s.behind := rfl
@[simp] theorem State.stampAs_failedLookups (s : State) (m : Mark) (lo len : Nat) (loc : Bool) : (s.stampAs m lo len loc).failedLookups = s.failedLookups := rfl
@[simp] theorem State.stampAs_kept (s : State) (m : Mark) (lo len : Nat) (loc : Bool) : (s.stampAs m lo len loc).kept = s.kept := rfl
@[simp] theorem State.stampAs_sampled (s : State) (m : Mark) (lo len : Nat) (loc : Bool) : (s.stampAs m lo len loc).sampled = s.sampled := rfl

/-! ### poison -/

@[simp] theorem State.poison_agenda (s : State) (line : Nat) : (s.poison line).agenda = s.agenda := rfl
@[simp] theorem State.poison_schedule (s : State) (line : Nat) : (s.poison line).schedule = s.schedule := rfl
@[simp] theorem State.poison_focus (s : State) (line : Nat) : (s.poison line).focus = s.focus := rfl
@[simp] theorem State.poison_arg (s : State) (line : Nat) : (s.poison line).arg = s.arg := rfl
@[simp] theorem State.poison_now (s : State) (line : Nat) : (s.poison line).now = s.now := rfl
@[simp] theorem State.poison_free (s : State) (line : Nat) : (s.poison line).free = s.free := rfl
@[simp] theorem State.poison_out (s : State) (line : Nat) : (s.poison line).out = s.out := rfl
@[simp] theorem State.poison_cores (s : State) (line : Nat) : (s.poison line).cores = s.cores := rfl
@[simp] theorem State.poison_mem (s : State) (line : Nat) : (s.poison line).mem = s.mem := rfl
@[simp] theorem State.poison_groups (s : State) (line : Nat) : (s.poison line).groups = s.groups := rfl
@[simp] theorem State.poison_parts (s : State) (line : Nat) : (s.poison line).parts = s.parts := rfl
@[simp] theorem State.poison_devq (s : State) (line : Nat) : (s.poison line).devq = s.devq := rfl
@[simp] theorem State.poison_devId (s : State) (line : Nat) : (s.poison line).devId = s.devId := rfl
@[simp] theorem State.poison_time (s : State) (line : Nat) : (s.poison line).time = s.time := rfl
@[simp] theorem State.poison_rate (s : State) (line : Nat) : (s.poison line).rate = s.rate := rfl
@[simp] theorem State.poison_holdover (s : State) (line : Nat) : (s.poison line).holdover = s.holdover := rfl
@[simp] theorem State.poison_locked (s : State) (line : Nat) : (s.poison line).locked = s.locked := rfl
@[simp] theorem State.poison_stepped (s : State) (line : Nat) : (s.poison line).stepped = s.stepped := rfl
@[simp] theorem State.poison_ptpcfg (s : State) (line : Nat) : (s.poison line).ptpcfg = s.ptpcfg := rfl
@[simp] theorem State.poison_toffset (s : State) (line : Nat) : (s.poison line).toffset = s.toffset := rfl
@[simp] theorem State.poison_sensors (s : State) (line : Nat) : (s.poison line).sensors = s.sensors := rfl
@[simp] theorem State.poison_steps (s : State) (line : Nat) : (s.poison line).steps = s.steps := rfl
@[simp] theorem State.poison_raised (s : State) (line : Nat) : (s.poison line).raised = s.raised := rfl
@[simp] theorem State.poison_clocks (s : State) (line : Nat) : (s.poison line).clocks = s.clocks := rfl
@[simp] theorem State.poison_fenceClock (s : State) (line : Nat) : (s.poison line).fenceClock = s.fenceClock := rfl
@[simp] theorem State.poison_stamps (s : State) (line : Nat) : (s.poison line).stamps = s.stamps := rfl
@[simp] theorem State.poison_copies (s : State) (line : Nat) : (s.poison line).copies = s.copies := rfl
@[simp] theorem State.poison_parked (s : State) (line : Nat) : (s.poison line).parked = s.parked := rfl
@[simp] theorem State.poison_misses (s : State) (line : Nat) : (s.poison line).misses = s.misses := rfl
@[simp] theorem State.poison_records (s : State) (line : Nat) : (s.poison line).records = s.records := rfl
@[simp] theorem State.poison_waits (s : State) (line : Nat) : (s.poison line).waits = s.waits := rfl
@[simp] theorem State.poison_reserved (s : State) (line : Nat) : (s.poison line).reserved = s.reserved := rfl
@[simp] theorem State.poison_heldMoving (s : State) (line : Nat) : (s.poison line).heldMoving = s.heldMoving := rfl
@[simp] theorem State.poison_stations (s : State) (line : Nat) : (s.poison line).stations = s.stations := rfl
@[simp] theorem State.poison_live (s : State) (line : Nat) : (s.poison line).live = s.live := rfl
@[simp] theorem State.poison_reqSeq (s : State) (line : Nat) : (s.poison line).reqSeq = s.reqSeq := rfl
@[simp] theorem State.poison_requests (s : State) (line : Nat) : (s.poison line).requests = s.requests := rfl
@[simp] theorem State.poison_applied (s : State) (line : Nat) : (s.poison line).applied = s.applied := rfl
@[simp] theorem State.poison_heldPackets (s : State) (line : Nat) : (s.poison line).heldPackets = s.heldPackets := rfl
@[simp] theorem State.poison_heldLines (s : State) (line : Nat) : (s.poison line).heldLines = s.heldLines := rfl
@[simp] theorem State.poison_slots (s : State) (line : Nat) : (s.poison line).slots = s.slots := rfl
@[simp] theorem State.poison_appraisers (s : State) (line : Nat) : (s.poison line).appraisers = s.appraisers := rfl
@[simp] theorem State.poison_keepers (s : State) (line : Nat) : (s.poison line).keepers = s.keepers := rfl
@[simp] theorem State.poison_lease (s : State) (line : Nat) : (s.poison line).lease = s.lease := rfl
@[simp] theorem State.poison_journal (s : State) (line : Nat) : (s.poison line).journal = s.journal := rfl
@[simp] theorem State.poison_deviceFailed (s : State) (line : Nat) : (s.poison line).deviceFailed = s.deviceFailed := rfl
@[simp] theorem State.poison_second (s : State) (line : Nat) : (s.poison line).second = s.second := rfl
@[simp] theorem State.poison_linkChanges (s : State) (line : Nat) : (s.poison line).linkChanges = s.linkChanges := rfl
@[simp] theorem State.poison_stationed (s : State) (line : Nat) : (s.poison line).stationed = s.stationed := rfl
@[simp] theorem State.poison_leaseLost (s : State) (line : Nat) : (s.poison line).leaseLost = s.leaseLost := rfl
@[simp] theorem State.poison_behind (s : State) (line : Nat) : (s.poison line).behind = s.behind := rfl
@[simp] theorem State.poison_failedLookups (s : State) (line : Nat) : (s.poison line).failedLookups = s.failedLookups := rfl
@[simp] theorem State.poison_kept (s : State) (line : Nat) : (s.poison line).kept = s.kept := rfl
@[simp] theorem State.poison_sampled (s : State) (line : Nat) : (s.poison line).sampled = s.sampled := rfl

/-! ### hold -/

@[simp] theorem State.hold_agenda (s : State) (k : Nat) (who : Requester) : (s.hold k who).agenda = s.agenda := rfl
@[simp] theorem State.hold_schedule (s : State) (k : Nat) (who : Requester) : (s.hold k who).schedule = s.schedule := rfl
@[simp] theorem State.hold_focus (s : State) (k : Nat) (who : Requester) : (s.hold k who).focus = s.focus := rfl
@[simp] theorem State.hold_arg (s : State) (k : Nat) (who : Requester) : (s.hold k who).arg = s.arg := rfl
@[simp] theorem State.hold_now (s : State) (k : Nat) (who : Requester) : (s.hold k who).now = s.now := rfl
@[simp] theorem State.hold_free (s : State) (k : Nat) (who : Requester) : (s.hold k who).free = s.free := rfl
@[simp] theorem State.hold_out (s : State) (k : Nat) (who : Requester) : (s.hold k who).out = s.out := rfl
@[simp] theorem State.hold_cores (s : State) (k : Nat) (who : Requester) : (s.hold k who).cores = s.cores := rfl
@[simp] theorem State.hold_mem (s : State) (k : Nat) (who : Requester) : (s.hold k who).mem = s.mem := rfl
@[simp] theorem State.hold_tags (s : State) (k : Nat) (who : Requester) : (s.hold k who).tags = s.tags := rfl
@[simp] theorem State.hold_groups (s : State) (k : Nat) (who : Requester) : (s.hold k who).groups = s.groups := rfl
@[simp] theorem State.hold_parts (s : State) (k : Nat) (who : Requester) : (s.hold k who).parts = s.parts := rfl
@[simp] theorem State.hold_devq (s : State) (k : Nat) (who : Requester) : (s.hold k who).devq = s.devq := rfl
@[simp] theorem State.hold_devId (s : State) (k : Nat) (who : Requester) : (s.hold k who).devId = s.devId := rfl
@[simp] theorem State.hold_time (s : State) (k : Nat) (who : Requester) : (s.hold k who).time = s.time := rfl
@[simp] theorem State.hold_rate (s : State) (k : Nat) (who : Requester) : (s.hold k who).rate = s.rate := rfl
@[simp] theorem State.hold_holdover (s : State) (k : Nat) (who : Requester) : (s.hold k who).holdover = s.holdover := rfl
@[simp] theorem State.hold_locked (s : State) (k : Nat) (who : Requester) : (s.hold k who).locked = s.locked := rfl
@[simp] theorem State.hold_stepped (s : State) (k : Nat) (who : Requester) : (s.hold k who).stepped = s.stepped := rfl
@[simp] theorem State.hold_ptpcfg (s : State) (k : Nat) (who : Requester) : (s.hold k who).ptpcfg = s.ptpcfg := rfl
@[simp] theorem State.hold_toffset (s : State) (k : Nat) (who : Requester) : (s.hold k who).toffset = s.toffset := rfl
@[simp] theorem State.hold_sensors (s : State) (k : Nat) (who : Requester) : (s.hold k who).sensors = s.sensors := rfl
@[simp] theorem State.hold_steps (s : State) (k : Nat) (who : Requester) : (s.hold k who).steps = s.steps := rfl
@[simp] theorem State.hold_raised (s : State) (k : Nat) (who : Requester) : (s.hold k who).raised = s.raised := rfl
@[simp] theorem State.hold_clocks (s : State) (k : Nat) (who : Requester) : (s.hold k who).clocks = s.clocks := rfl
@[simp] theorem State.hold_fenceClock (s : State) (k : Nat) (who : Requester) : (s.hold k who).fenceClock = s.fenceClock := rfl
@[simp] theorem State.hold_stamps (s : State) (k : Nat) (who : Requester) : (s.hold k who).stamps = s.stamps := rfl
@[simp] theorem State.hold_copies (s : State) (k : Nat) (who : Requester) : (s.hold k who).copies = s.copies := rfl
@[simp] theorem State.hold_parked (s : State) (k : Nat) (who : Requester) : (s.hold k who).parked = s.parked := rfl
@[simp] theorem State.hold_misses (s : State) (k : Nat) (who : Requester) : (s.hold k who).misses = s.misses := rfl
@[simp] theorem State.hold_records (s : State) (k : Nat) (who : Requester) : (s.hold k who).records = s.records := rfl
@[simp] theorem State.hold_waits (s : State) (k : Nat) (who : Requester) : (s.hold k who).waits = s.waits := rfl
@[simp] theorem State.hold_reserved (s : State) (k : Nat) (who : Requester) : (s.hold k who).reserved = s.reserved := rfl
@[simp] theorem State.hold_stations (s : State) (k : Nat) (who : Requester) : (s.hold k who).stations = s.stations := rfl
@[simp] theorem State.hold_live (s : State) (k : Nat) (who : Requester) : (s.hold k who).live = s.live := rfl
@[simp] theorem State.hold_reqSeq (s : State) (k : Nat) (who : Requester) : (s.hold k who).reqSeq = s.reqSeq := rfl
@[simp] theorem State.hold_requests (s : State) (k : Nat) (who : Requester) : (s.hold k who).requests = s.requests := rfl
@[simp] theorem State.hold_applied (s : State) (k : Nat) (who : Requester) : (s.hold k who).applied = s.applied := rfl
@[simp] theorem State.hold_heldPackets (s : State) (k : Nat) (who : Requester) : (s.hold k who).heldPackets = s.heldPackets := rfl
@[simp] theorem State.hold_heldLines (s : State) (k : Nat) (who : Requester) : (s.hold k who).heldLines = s.heldLines := rfl
@[simp] theorem State.hold_slots (s : State) (k : Nat) (who : Requester) : (s.hold k who).slots = s.slots := rfl
@[simp] theorem State.hold_appraisers (s : State) (k : Nat) (who : Requester) : (s.hold k who).appraisers = s.appraisers := rfl
@[simp] theorem State.hold_keepers (s : State) (k : Nat) (who : Requester) : (s.hold k who).keepers = s.keepers := rfl
@[simp] theorem State.hold_lease (s : State) (k : Nat) (who : Requester) : (s.hold k who).lease = s.lease := rfl
@[simp] theorem State.hold_journal (s : State) (k : Nat) (who : Requester) : (s.hold k who).journal = s.journal := rfl
@[simp] theorem State.hold_deviceFailed (s : State) (k : Nat) (who : Requester) : (s.hold k who).deviceFailed = s.deviceFailed := rfl
@[simp] theorem State.hold_second (s : State) (k : Nat) (who : Requester) : (s.hold k who).second = s.second := rfl
@[simp] theorem State.hold_linkChanges (s : State) (k : Nat) (who : Requester) : (s.hold k who).linkChanges = s.linkChanges := rfl
@[simp] theorem State.hold_stationed (s : State) (k : Nat) (who : Requester) : (s.hold k who).stationed = s.stationed := rfl
@[simp] theorem State.hold_leaseLost (s : State) (k : Nat) (who : Requester) : (s.hold k who).leaseLost = s.leaseLost := rfl
@[simp] theorem State.hold_behind (s : State) (k : Nat) (who : Requester) : (s.hold k who).behind = s.behind := rfl
@[simp] theorem State.hold_failedLookups (s : State) (k : Nat) (who : Requester) : (s.hold k who).failedLookups = s.failedLookups := rfl
@[simp] theorem State.hold_kept (s : State) (k : Nat) (who : Requester) : (s.hold k who).kept = s.kept := rfl
@[simp] theorem State.hold_sampled (s : State) (k : Nat) (who : Requester) : (s.hold k who).sampled = s.sampled := rfl

/-! ### draw -/

@[simp] theorem State.draw_agenda (s : State) : s.draw.1.agenda = s.agenda := rfl
@[simp] theorem State.draw_schedule (s : State) : s.draw.1.schedule = s.schedule := rfl
@[simp] theorem State.draw_focus (s : State) : s.draw.1.focus = s.focus := rfl
@[simp] theorem State.draw_arg (s : State) : s.draw.1.arg = s.arg := rfl
@[simp] theorem State.draw_now (s : State) : s.draw.1.now = s.now := rfl
@[simp] theorem State.draw_out (s : State) : s.draw.1.out = s.out := rfl
@[simp] theorem State.draw_cores (s : State) : s.draw.1.cores = s.cores := rfl
@[simp] theorem State.draw_mem (s : State) : s.draw.1.mem = s.mem := rfl
@[simp] theorem State.draw_tags (s : State) : s.draw.1.tags = s.tags := rfl
@[simp] theorem State.draw_groups (s : State) : s.draw.1.groups = s.groups := rfl
@[simp] theorem State.draw_parts (s : State) : s.draw.1.parts = s.parts := rfl
@[simp] theorem State.draw_devq (s : State) : s.draw.1.devq = s.devq := rfl
@[simp] theorem State.draw_devId (s : State) : s.draw.1.devId = s.devId := rfl
@[simp] theorem State.draw_time (s : State) : s.draw.1.time = s.time := rfl
@[simp] theorem State.draw_rate (s : State) : s.draw.1.rate = s.rate := rfl
@[simp] theorem State.draw_holdover (s : State) : s.draw.1.holdover = s.holdover := rfl
@[simp] theorem State.draw_locked (s : State) : s.draw.1.locked = s.locked := rfl
@[simp] theorem State.draw_stepped (s : State) : s.draw.1.stepped = s.stepped := rfl
@[simp] theorem State.draw_ptpcfg (s : State) : s.draw.1.ptpcfg = s.ptpcfg := rfl
@[simp] theorem State.draw_toffset (s : State) : s.draw.1.toffset = s.toffset := rfl
@[simp] theorem State.draw_sensors (s : State) : s.draw.1.sensors = s.sensors := rfl
@[simp] theorem State.draw_steps (s : State) : s.draw.1.steps = s.steps := rfl
@[simp] theorem State.draw_raised (s : State) : s.draw.1.raised = s.raised := rfl
@[simp] theorem State.draw_clocks (s : State) : s.draw.1.clocks = s.clocks := rfl
@[simp] theorem State.draw_fenceClock (s : State) : s.draw.1.fenceClock = s.fenceClock := rfl
@[simp] theorem State.draw_stamps (s : State) : s.draw.1.stamps = s.stamps := rfl
@[simp] theorem State.draw_copies (s : State) : s.draw.1.copies = s.copies := rfl
@[simp] theorem State.draw_parked (s : State) : s.draw.1.parked = s.parked := rfl
@[simp] theorem State.draw_misses (s : State) : s.draw.1.misses = s.misses := rfl
@[simp] theorem State.draw_records (s : State) : s.draw.1.records = s.records := rfl
@[simp] theorem State.draw_waits (s : State) : s.draw.1.waits = s.waits := rfl
@[simp] theorem State.draw_reserved (s : State) : s.draw.1.reserved = s.reserved := rfl
@[simp] theorem State.draw_heldMoving (s : State) : s.draw.1.heldMoving = s.heldMoving := rfl
@[simp] theorem State.draw_stations (s : State) : s.draw.1.stations = s.stations := rfl
@[simp] theorem State.draw_live (s : State) : s.draw.1.live = s.live := rfl
@[simp] theorem State.draw_reqSeq (s : State) : s.draw.1.reqSeq = s.reqSeq := rfl
@[simp] theorem State.draw_requests (s : State) : s.draw.1.requests = s.requests := rfl
@[simp] theorem State.draw_applied (s : State) : s.draw.1.applied = s.applied := rfl
@[simp] theorem State.draw_heldPackets (s : State) : s.draw.1.heldPackets = s.heldPackets := rfl
@[simp] theorem State.draw_heldLines (s : State) : s.draw.1.heldLines = s.heldLines := rfl
@[simp] theorem State.draw_slots (s : State) : s.draw.1.slots = s.slots := rfl
@[simp] theorem State.draw_appraisers (s : State) : s.draw.1.appraisers = s.appraisers := rfl
@[simp] theorem State.draw_keepers (s : State) : s.draw.1.keepers = s.keepers := rfl
@[simp] theorem State.draw_lease (s : State) : s.draw.1.lease = s.lease := rfl
@[simp] theorem State.draw_journal (s : State) : s.draw.1.journal = s.journal := rfl
@[simp] theorem State.draw_deviceFailed (s : State) : s.draw.1.deviceFailed = s.deviceFailed := rfl
@[simp] theorem State.draw_second (s : State) : s.draw.1.second = s.second := rfl
@[simp] theorem State.draw_linkChanges (s : State) : s.draw.1.linkChanges = s.linkChanges := rfl
@[simp] theorem State.draw_stationed (s : State) : s.draw.1.stationed = s.stationed := rfl
@[simp] theorem State.draw_leaseLost (s : State) : s.draw.1.leaseLost = s.leaseLost := rfl
@[simp] theorem State.draw_behind (s : State) : s.draw.1.behind = s.behind := rfl
@[simp] theorem State.draw_failedLookups (s : State) : s.draw.1.failedLookups = s.failedLookups := rfl
@[simp] theorem State.draw_kept (s : State) : s.draw.1.kept = s.kept := rfl
@[simp] theorem State.draw_sampled (s : State) : s.draw.1.sampled = s.sampled := rfl

/-! ### Vectors -/

@[simp] theorem vget_vset_same {α : Type} {n : Nat} (v : Vector α n) (i : Fin n) (a : α) : vget (vset v i a) i = a := by
  simp [vget, vset]

theorem vget_vset_other {α : Type} {n : Nat} (v : Vector α n) (i j : Fin n) (a : α) (h : i ≠ j) :
    vget (vset v i a) j = vget v j := by
  have : i.val ≠ j.val := fun e => h (Fin.ext e)
  simp [vget, vset, this]

theorem vget_vset {α : Type} {n : Nat} (v : Vector α n) (i j : Fin n) (a : α) :
    vget (vset v i a) j = if i = j then a else vget v j := by
  split
  · rename_i h
    rw [h, vget_vset_same]
  · rename_i h
    exact vget_vset_other v i j a h

/-! ### Cores, contexts, entries, queues -/

@[simp] theorem State.core_setCore_same (s : State) (c : CoreId) (k : Core) : (s.setCore c k).core c = k :=
  vget_vset_same _ _ _

theorem State.core_setCore_other (s : State) (c d : CoreId) (k : Core) (h : c ≠ d) : (s.setCore c k).core d = s.core d :=
  vget_vset_other _ _ _ _ h

@[simp] theorem State.core_setPart (s : State) (p : PartNum) (x : Partition) (c : CoreId) :
    (s.setPart p x).core c = s.core c := rfl

@[simp] theorem State.core_due (s : State) (l : List Act) (c : CoreId) : (s.due l).core c = s.core c := rfl

@[simp] theorem State.core_event (s : State) (i : Instr) (c : CoreId) : (s.event i).core c = s.core c := rfl

@[simp] theorem State.core_eventWith (s : State) (i : Instr) (a : Arg) (c : CoreId) :
    (s.eventWith i a).core c = s.core c := rfl

@[simp] theorem State.part_setPart_same (s : State) (p : PartNum) (x : Partition) : (s.setPart p x).part p = x :=
  vget_vset_same _ _ _

theorem State.part_setPart_other (s : State) (p q : PartNum) (x : Partition) (h : p ≠ q) :
    (s.setPart p x).part q = s.part q := vget_vset_other _ _ _ _ h

@[simp] theorem State.part_setCore (s : State) (c : CoreId) (k : Core) (p : PartNum) :
    (s.setCore c k).part p = s.part p := rfl

@[simp] theorem State.part_setCtx (s : State) (u : CtxRef) (x : Context) (p : PartNum) :
    (s.setCtx u x).part p = s.part p := rfl

@[simp] theorem State.group_setGroup_same (s : State) (g : GroupNum) (x : Group) : (s.setGroup g x).group g = x :=
  vget_vset_same _ _ _

@[simp] theorem State.group_setCore (s : State) (c : CoreId) (k : Core) (g : GroupNum) :
    (s.setCore c k).group g = s.group g := rfl

@[simp] theorem State.ctx_setCtx_same (s : State) (u : CtxRef) (x : Context) : (s.setCtx u x).ctx u = x := by
  simp [State.ctx, State.setCtx]

theorem State.ctx_setCtx_other (s : State) (u w : CtxRef) (x : Context) (h : u ≠ w) : (s.setCtx u x).ctx w = s.ctx w := by
  obtain ⟨c, i⟩ := u
  obtain ⟨d, j⟩ := w
  by_cases hc : c = d
  · subst hc
    have hij : i ≠ j := fun e => h (by rw [e])
    simp [State.ctx, State.setCtx, vget_vset_other _ _ _ _ hij]
  · simp [State.ctx, State.setCtx, State.core_setCore_other _ _ _ _ hc]

/-- Setting a context leaves the rest of its core. -/
theorem State.core_setCtx_same (s : State) (u : CtxRef) (x : Context) :
    (s.setCtx u x).core u.core = { s.core u.core with ctxs := vset (s.core u.core).ctxs u.ctx x } := by
  simp [State.setCtx]

theorem State.core_setCtx_other (s : State) (u : CtxRef) (x : Context) (c : CoreId) (h : u.core ≠ c) :
    (s.setCtx u x).core c = s.core c := State.core_setCore_other _ _ _ _ h

@[simp] theorem State.setCtx_me (s : State) (u : CtxRef) (x : Context) : (s.setCtx u x).me = s.me := by
  unfold State.me
  by_cases h : u.core = s.focus
  · simp only [setCtx_focus]
    rw [← h, State.core_setCtx_same]
  · simp only [setCtx_focus]
    rw [State.core_setCtx_other _ _ _ _ h]

@[simp] theorem State.entry_setCtx (s : State) (u : CtxRef) (x : Context) (c : CoreId) (h : Handle) :
    (s.setCtx u x).entry c h = s.entry c h := by
  unfold State.entry
  by_cases hc : u.core = c
  · subst hc
    rw [State.core_setCtx_same]
  · rw [State.core_setCtx_other _ _ _ _ hc]

@[simp] theorem State.queue_setCtx (s : State) (u : CtxRef) (x : Context) (c : CoreId) (q : QNum) :
    (s.setCtx u x).queue c q = s.queue c q := by
  unfold State.queue
  by_cases hc : u.core = c
  · subst hc
    rw [State.core_setCtx_same]
  · rw [State.core_setCtx_other _ _ _ _ hc]

@[simp] theorem State.counter_setCtx (s : State) (u : CtxRef) (x : Context) (c : CoreId) (n : CtrNum) :
    (s.setCtx u x).counter c n = s.counter c n := by
  unfold State.counter
  by_cases hc : u.core = c
  · subst hc
    rw [State.core_setCtx_same]
  · rw [State.core_setCtx_other _ _ _ _ hc]

@[simp] theorem State.entry_setEntry_same (s : State) (c : CoreId) (h : Handle) (e : Entry) :
    (s.setEntry c h e).entry c h = e := by
  simp [State.entry, State.setEntry]

@[simp] theorem State.queue_setQueue_same (s : State) (c : CoreId) (q : QNum) (x : Queue) :
    (s.setQueue c q x).queue c q = x := by
  simp [State.queue, State.setQueue]

@[simp] theorem State.ctx_setEntry (s : State) (u : CtxRef) (c : CoreId) (h : Handle) (e : Entry) :
    (s.setEntry c h e).ctx u = s.ctx u := by
  unfold State.ctx State.setEntry
  by_cases hc : c = u.core
  · subst hc
    rw [State.core_setCore_same]
  · rw [State.core_setCore_other _ _ _ _ hc]

@[simp] theorem State.ctx_setQueue (s : State) (u : CtxRef) (c : CoreId) (q : QNum) (x : Queue) :
    (s.setQueue c q x).ctx u = s.ctx u := by
  unfold State.ctx State.setQueue
  by_cases hc : c = u.core
  · subst hc
    rw [State.core_setCore_same]
  · rw [State.core_setCore_other _ _ _ _ hc]

/-! ### The acting context -/

/-- An instruction that goes on changes its own context and nothing else. -/
theorem State.retire_ctx (s : State) (i : Issue) (f : Context → Context) :
    (s.retire i f).ctx s.me = { f (s.ctx s.me) with pc := i.next } := State.ctx_setCtx_same _ _ _

theorem State.retire_other (s : State) (i : Issue) (f : Context → Context) (u : CtxRef) (h : u ≠ s.me) :
    (s.retire i f).ctx u = s.ctx u := State.ctx_setCtx_other _ _ _ _ (Ne.symm h)

@[simp] theorem State.retire_me (s : State) (i : Issue) (f : Context → Context) : (s.retire i f).me = s.me :=
  State.setCtx_me _ _ _

/-! ### leave -/

@[simp] theorem State.leave_cores (s : State) (f : Requester → Bool) : (s.leave f).cores = s.cores := rfl
@[simp] theorem State.leave_agenda (s : State) (f : Requester → Bool) : (s.leave f).agenda = s.agenda := rfl
@[simp] theorem State.leave_schedule (s : State) (f : Requester → Bool) : (s.leave f).schedule = s.schedule := rfl
@[simp] theorem State.leave_focus (s : State) (f : Requester → Bool) : (s.leave f).focus = s.focus := rfl
@[simp] theorem State.leave_arg (s : State) (f : Requester → Bool) : (s.leave f).arg = s.arg := rfl
@[simp] theorem State.leave_now (s : State) (f : Requester → Bool) : (s.leave f).now = s.now := rfl
@[simp] theorem State.leave_free (s : State) (f : Requester → Bool) : (s.leave f).free = s.free := rfl
@[simp] theorem State.leave_out (s : State) (f : Requester → Bool) : (s.leave f).out = s.out := rfl
@[simp] theorem State.leave_mem (s : State) (f : Requester → Bool) : (s.leave f).mem = s.mem := rfl
@[simp] theorem State.leave_tags (s : State) (f : Requester → Bool) : (s.leave f).tags = s.tags := rfl
@[simp] theorem State.leave_groups (s : State) (f : Requester → Bool) : (s.leave f).groups = s.groups := rfl
@[simp] theorem State.leave_parts (s : State) (f : Requester → Bool) : (s.leave f).parts = s.parts := rfl
@[simp] theorem State.leave_devq (s : State) (f : Requester → Bool) : (s.leave f).devq = s.devq := rfl
@[simp] theorem State.leave_devId (s : State) (f : Requester → Bool) : (s.leave f).devId = s.devId := rfl
@[simp] theorem State.leave_time (s : State) (f : Requester → Bool) : (s.leave f).time = s.time := rfl
@[simp] theorem State.leave_rate (s : State) (f : Requester → Bool) : (s.leave f).rate = s.rate := rfl
@[simp] theorem State.leave_holdover (s : State) (f : Requester → Bool) : (s.leave f).holdover = s.holdover := rfl
@[simp] theorem State.leave_locked (s : State) (f : Requester → Bool) : (s.leave f).locked = s.locked := rfl
@[simp] theorem State.leave_stepped (s : State) (f : Requester → Bool) : (s.leave f).stepped = s.stepped := rfl
@[simp] theorem State.leave_ptpcfg (s : State) (f : Requester → Bool) : (s.leave f).ptpcfg = s.ptpcfg := rfl
@[simp] theorem State.leave_toffset (s : State) (f : Requester → Bool) : (s.leave f).toffset = s.toffset := rfl
@[simp] theorem State.leave_sensors (s : State) (f : Requester → Bool) : (s.leave f).sensors = s.sensors := rfl
@[simp] theorem State.leave_steps (s : State) (f : Requester → Bool) : (s.leave f).steps = s.steps := rfl
@[simp] theorem State.leave_raised (s : State) (f : Requester → Bool) : (s.leave f).raised = s.raised := rfl
@[simp] theorem State.leave_clocks (s : State) (f : Requester → Bool) : (s.leave f).clocks = s.clocks := rfl
@[simp] theorem State.leave_fenceClock (s : State) (f : Requester → Bool) : (s.leave f).fenceClock = s.fenceClock := rfl
@[simp] theorem State.leave_stamps (s : State) (f : Requester → Bool) : (s.leave f).stamps = s.stamps := rfl
@[simp] theorem State.leave_copies (s : State) (f : Requester → Bool) : (s.leave f).copies = s.copies := rfl
@[simp] theorem State.leave_misses (s : State) (f : Requester → Bool) : (s.leave f).misses = s.misses := rfl
@[simp] theorem State.leave_records (s : State) (f : Requester → Bool) : (s.leave f).records = s.records := rfl
@[simp] theorem State.leave_waits (s : State) (f : Requester → Bool) : (s.leave f).waits = s.waits := rfl
@[simp] theorem State.leave_reserved (s : State) (f : Requester → Bool) : (s.leave f).reserved = s.reserved := rfl
@[simp] theorem State.leave_stations (s : State) (f : Requester → Bool) : (s.leave f).stations = s.stations := rfl
@[simp] theorem State.leave_live (s : State) (f : Requester → Bool) : (s.leave f).live = s.live := rfl
@[simp] theorem State.leave_reqSeq (s : State) (f : Requester → Bool) : (s.leave f).reqSeq = s.reqSeq := rfl
@[simp] theorem State.leave_requests (s : State) (f : Requester → Bool) : (s.leave f).requests = s.requests := rfl
@[simp] theorem State.leave_applied (s : State) (f : Requester → Bool) : (s.leave f).applied = s.applied := rfl
@[simp] theorem State.leave_heldPackets (s : State) (f : Requester → Bool) : (s.leave f).heldPackets = s.heldPackets := rfl
@[simp] theorem State.leave_heldLines (s : State) (f : Requester → Bool) : (s.leave f).heldLines = s.heldLines := rfl
@[simp] theorem State.leave_slots (s : State) (f : Requester → Bool) : (s.leave f).slots = s.slots := rfl
@[simp] theorem State.leave_appraisers (s : State) (f : Requester → Bool) : (s.leave f).appraisers = s.appraisers := rfl
@[simp] theorem State.leave_keepers (s : State) (f : Requester → Bool) : (s.leave f).keepers = s.keepers := rfl
@[simp] theorem State.leave_lease (s : State) (f : Requester → Bool) : (s.leave f).lease = s.lease := rfl
@[simp] theorem State.leave_journal (s : State) (f : Requester → Bool) : (s.leave f).journal = s.journal := rfl
@[simp] theorem State.leave_deviceFailed (s : State) (f : Requester → Bool) : (s.leave f).deviceFailed = s.deviceFailed := rfl
@[simp] theorem State.leave_second (s : State) (f : Requester → Bool) : (s.leave f).second = s.second := rfl
@[simp] theorem State.leave_linkChanges (s : State) (f : Requester → Bool) : (s.leave f).linkChanges = s.linkChanges := rfl
@[simp] theorem State.leave_stationed (s : State) (f : Requester → Bool) : (s.leave f).stationed = s.stationed := rfl
@[simp] theorem State.leave_leaseLost (s : State) (f : Requester → Bool) : (s.leave f).leaseLost = s.leaseLost := rfl
@[simp] theorem State.leave_kept (s : State) (f : Requester → Bool) : (s.leave f).kept = s.kept := rfl
@[simp] theorem State.leave_sampled (s : State) (f : Requester → Bool) : (s.leave f).sampled = s.sampled := rfl
@[simp] theorem State.unpark_mem (s : State) (w : Requester) : (s.unpark w).mem = s.mem := rfl
@[simp] theorem State.unpark_tags (s : State) (w : Requester) : (s.unpark w).tags = s.tags := rfl

/-! ### Registers -/

/-- X0 reads 0 whatever is written (R16). -/
@[simp] theorem Context.getX_zero (x : Context) : x.getX 0 = 0 := rfl

theorem Context.setX_zero (x : Context) (v : Word) : x.setX 0 v = x := rfl

theorem Context.getX_setX_same (x : Context) (r : XReg) (v : Word) (h : r ≠ 0) : (x.setX r v).getX r = v := by
  simp [Context.getX, Context.setX, h]

theorem Context.getX_setX_other (x : Context) (r q : XReg) (v : Word) (h : r ≠ q) : (x.setX r v).getX q = x.getX q := by
  by_cases hr : r = 0
  · subst hr
    rfl
  · simp [Context.getX, Context.setX, hr, vget_vset_other _ _ _ _ h]

/-- A write of an X register leaves every other part of the context. -/
theorem Context.setX_eq (x : Context) (r : XReg) (v : Word) : ∃ y, x.setX r v = { x with x := y } := by
  unfold Context.setX
  split
  · exact ⟨x.x, rfl⟩
  · exact ⟨_, rfl⟩

/-! ### Traps -/

/-- A context that takes a trap stays in its state. -/
@[simp] theorem Context.trapped_state (x : Context) (cause : BitVec 8) (eval epc : Word) :
    (x.trapped cause eval epc).state = x.state := by
  unfold Context.trapped
  dsimp only
  split <;> rfl

/-- The acting context takes a trap to a handler: its registers are those of R384, and nothing else changes. -/
theorem State.takeTrap_handled (s : State) (u : CtxRef) (cause : BitVec 8) (eval epc : Word)
    (hv : (s.ctx u).tvec ≠ 0) (hr : (s.ctx u).state = .running) :
    s.takeTrap u cause eval epc = s.setCtx u ((s.ctx u).trapped cause eval epc) := by
  have h : s.enterTrap u cause eval epc = s.setCtx u ((s.ctx u).trapped cause eval epc) := by
    unfold State.enterTrap
    simp only
    rw [if_neg hv, if_pos hr]
  unfold State.takeTrap
  simp only [h]
  rw [if_pos]
  simpa using hr

/-! ### Instructions that name only X registers -/

theorem State.plain_goes (s : State) (i : Issue) (regs : List XReg) (f : Context → Context)
    (h : (s.ctx s.me).load = none) : s.plain i regs f = .next (s.retire i f) := by
  simp [State.plain, Context.stalls, h]

theorem Context.stalls_none (x : Context) (regs : List XReg) (l : Bool) (h : x.load = none) : x.stalls regs l = false := by
  simp [Context.stalls, h]

end Sys2Proof.Machine
end

