-- ==== Sys2Proof/Laws/Canonical.lean ====
section
/-! SUPPORT. The named memory operations keep the canonical form of the byte memory and of the line tags. -/

namespace Sys2Proof.Machine

/-- A property that each element of a fold keeps, the fold keeps. -/
theorem foldl_keeps {α β : Type} (P : β → Prop) (f : β → α → β) (hf : ∀ b a, P b → P (f b a)) (l : List α) (b : β)
    (h : P b) : P (l.foldl f b) := by
  induction l generalizing b with
  | nil => exact h
  | cons a l ih => exact ih _ (hf b a h)

/-- A state whose memories are those of a canonical state is canonical. -/
theorem State.Canonical.same {s t : State} (h : s.Canonical) (hm : t.mem = s.mem) (ht : t.tags = s.tags) : t.Canonical := by
  unfold State.Canonical
  rw [hm, ht]
  exact h

theorem State.Canonical.poison {s : State} (h : s.Canonical) (line : Nat) : (s.poison line).Canonical :=
  ⟨h.1, Tags.set_wf _ _ _ h.2⟩

@[simp] theorem State.raiseSource_mem (s : State) (p : PartNum) (n : Nat) : (s.raiseSource p n).mem = s.mem := by
  unfold State.raiseSource
  dsimp only
  split <;> rfl

@[simp] theorem State.raiseSource_tags (s : State) (p : PartNum) (n : Nat) : (s.raiseSource p n).tags = s.tags := by
  unfold State.raiseSource
  dsimp only
  split <;> rfl

@[simp] theorem State.countCheck_mem (s : State) (d : DieNum) (p : PartNum) : (s.countCheck d p).mem = s.mem := by
  unfold State.countCheck
  dsimp only
  split
  · rw [State.raiseSource_mem]
    rfl
  · rfl

@[simp] theorem State.countCheck_tags (s : State) (d : DieNum) (p : PartNum) : (s.countCheck d p).tags = s.tags := by
  unfold State.countCheck
  dsimp only
  split
  · rw [State.raiseSource_tags]
    rfl
  · rfl

@[simp] theorem State.countFailure_mem (s : State) (line : Nat) : (s.countFailure line).mem = s.mem := by
  unfold State.countFailure
  split
  · rfl
  · exact State.countCheck_mem _ _ _

@[simp] theorem State.countFailure_tags (s : State) (line : Nat) : (s.countFailure line).tags = s.tags := by
  unfold State.countFailure
  split
  · rfl
  · exact State.countCheck_tags _ _ _

theorem State.Canonical.countFailure {s : State} (h : s.Canonical) (line : Nat) : (s.countFailure line).Canonical :=
  h.same (by simp) (by simp)

/-- Verification leaves the data as they are. -/
@[simp] theorem State.verify_mem (s : State) (line : Nat) : (s.verify line).1.mem = s.mem := by
  unfold State.verify
  dsimp only
  split
  · rfl
  · rw [State.poison_mem]
    split
    · rfl
    · exact State.countFailure_mem s line

theorem State.Canonical.verify {s : State} (h : s.Canonical) (line : Nat) : (s.verify line).1.Canonical := by
  unfold State.verify
  dsimp only
  split
  · exact h
  · apply State.Canonical.poison
    split
    · exact h
    · exact h.countFailure line

@[simp] theorem State.readsByte_mem (s : State) (d : DieNum) (k : Nat) : (s.readsByte d k).mem = s.mem := by
  unfold State.readsByte
  repeat' split
  all_goals rfl

@[simp] theorem State.readsByte_tags (s : State) (d : DieNum) (k : Nat) : (s.readsByte d k).tags = s.tags := by
  unfold State.readsByte
  repeat' split
  all_goals rfl

@[simp] theorem State.readsFrom_mem (s : State) (d : DieNum) (k n : Nat) : (s.readsFrom d k n).mem = s.mem := by
  unfold State.readsFrom
  exact foldl_keeps (fun t : State => t.mem = s.mem) _ (fun t a h => by rw [State.readsByte_mem]; exact h) _ s rfl

@[simp] theorem State.readsFrom_tags (s : State) (d : DieNum) (k n : Nat) : (s.readsFrom d k n).tags = s.tags := by
  unfold State.readsFrom
  exact foldl_keeps (fun t : State => t.tags = s.tags) _ (fun t a h => by rw [State.readsByte_tags]; exact h) _ s rfl

@[simp] theorem State.testWaits_mem (s : State) (k n : Nat) : (s.testWaits k n).mem = s.mem := by
  unfold State.testWaits
  exact foldl_keeps (fun t : State => t.mem = s.mem) _ (fun t a h => by rw [State.readsFrom_mem]; exact h) _ _ rfl

@[simp] theorem State.testWaits_tags (s : State) (k n : Nat) : (s.testWaits k n).tags = s.tags := by
  unfold State.testWaits
  exact foldl_keeps (fun t : State => t.tags = s.tags) _ (fun t a h => by rw [State.readsFrom_tags]; exact h) _ _ rfl

theorem State.Canonical.testWaits {s : State} (h : s.Canonical) (k n : Nat) : (s.testWaits k n).Canonical :=
  h.same (by simp) (by simp)

/-- What bytes merged into a line write (R120). -/
@[simp] theorem State.mergeKey_mem (s : State) (k : Nat) (d : List Byte) (ref : Bool) :
    (s.mergeKey k d ref).mem = s.mem.write k d := by
  unfold State.mergeKey
  dsimp only
  split <;> rfl

theorem State.Canonical.mergeKey {s : State} (h : s.Canonical) (k : Nat) (d : List Byte) (ref : Bool) :
    (s.mergeKey k d ref).Canonical := by
  unfold State.mergeKey
  dsimp only
  split
  · exact ⟨Memory.write_wf _ _ _ h.1, h.2⟩
  · exact ⟨Memory.write_wf _ _ _ h.1, Tags.set_wf _ _ _ h.2⟩

/-- What a store within one line writes (R120). -/
theorem State.storeKey_mem (s : State) (k : Nat) (d : List Byte) (ref : Bool) :
    (s.storeKey k d ref).mem = s.mem.write k d := by
  simp [State.storeKey]

theorem State.Canonical.storeKey {s : State} (h : s.Canonical) (k : Nat) (d : List Byte) (ref : Bool) :
    (s.storeKey k d ref).Canonical := (h.mergeKey k d ref).testWaits _ _

theorem State.Canonical.setLine {s : State} (h : s.Canonical) (k : Nat) (d : List Byte) (t : Word) :
    (s.setLine k d t).Canonical :=
  ⟨Memory.write_wf _ _ _ h.1, Tags.set_wf _ _ _ h.2⟩

/-- What a whole line written leaves (R120). -/
theorem State.storeLine_mem (s : State) (k : Nat) (d : List Byte) (t : Word) :
    (s.storeLine k d t).mem = s.mem.write k d := by
  simp [State.storeLine, State.setLine]

theorem State.Canonical.storeLine {s : State} (h : s.Canonical) (k : Nat) (d : List Byte) (t : Word) :
    (s.storeLine k d t).Canonical := (h.setLine k d t).testWaits _ _

theorem State.Canonical.setCore {s : State} (h : s.Canonical) (c : CoreId) (k : Core) : (s.setCore c k).Canonical := h

theorem State.Canonical.setCtx {s : State} (h : s.Canonical) (u : CtxRef) (x : Context) : (s.setCtx u x).Canonical := h

theorem State.Canonical.retire {s : State} (h : s.Canonical) (i : Issue) (f : Context → Context) :
    (s.retire i f).Canonical := h

theorem State.Canonical.advanceClock {s : State} (h : s.Canonical) (d : DieNum) : (s.advanceClock d).Canonical := h

theorem State.Canonical.stampAs {s : State} (h : s.Canonical) (m : Mark) (lo n : Nat) (loc : Bool) :
    (s.stampAs m lo n loc).Canonical := h

theorem State.Canonical.performedAs {s : State} (h : s.Canonical) (m : Mark) (k n : Nat) :
    (s.performedAs m k n).Canonical := (h.stampAs m k n false).testWaits k n

theorem State.Canonical.performed {s : State} (h : s.Canonical) (d : DieNum) (k n : Nat) : (s.performed d k n).Canonical :=
  h.performedAs _ _ _

theorem State.Canonical.plainKey {s : State} (h : s.Canonical) (k : Nat) (d : List Byte) : (s.plainKey k d).Canonical := by
  unfold State.plainKey
  dsimp only
  split
  · exact h.mergeKey _ _ _
  · exact ⟨(h.mergeKey k d false).1, Tags.set_wf _ _ _ (h.mergeKey k d false).2⟩

/-- A write made at one location keeps the canonical form. -/
theorem State.Canonical.put {s : State} (h : s.Canonical) (p : Put) (k : Nat) (d : List Byte) : (s.put p k d).Canonical := by
  cases p with
  | merge ref => exact h.mergeKey _ _ _
  | plain => exact h.plainKey _ _
  | line t => exact h.setLine _ _ _
  | reloc t => exact h.setLine _ _ _

/-- A store by an agent keeps the canonical form. -/
theorem State.Canonical.storeBy {s : State} (h : s.Canonical) (d : DieNum) (k : Nat) (l : List Byte) (ref : Bool) :
    (s.storeBy d k l ref).Canonical := ((h.advanceClock d).mergeKey k l ref).performed _ _ _

/-- A line written by an agent keeps the canonical form. -/
theorem State.Canonical.lineBy {s : State} (h : s.Canonical) (d : DieNum) (k : Nat) (l : List Byte) (t : Word) :
    (s.lineBy d k l t).Canonical := ((h.advanceClock d).setLine k l t).performed _ _ _

/-- A write of the bytes that the order admits keeps the canonical form. -/
theorem State.Canonical.putWhere {s : State} (h : s.Canonical) (m : Mark) (k : Nat) (d : List Byte) (p : Put)
    (later : Nat → Bool) : (s.putWhere m k d p later).Canonical := by
  unfold State.putWhere
  dsimp only
  split
  · exact (h.put _ _ _).performedAs _ _ _
  · apply State.Canonical.testWaits
    apply foldl_keeps (fun t : State => t.Canonical)
    · intro t i ht
      exact (ht.put _ _ _).stampAs _ _ _ _
    · exact h

/-- A propagated write at one copy keeps the canonical form. -/
theorem State.Canonical.propagateAt {s : State} (h : s.Canonical) (m : Mark) (k : Nat) (d : List Byte) (p : Put) :
    (s.propagateAt m k d p).Canonical := h.putWhere _ _ _ _ _

/-- A write at the copies of a location keeps the canonical form. -/
theorem State.Canonical.writeAs {s : State} (h : s.Canonical) (m : Mark) (keys : List Nat) (d : List Byte) (p : Put) :
    (s.writeAs m keys d p).Canonical := by
  unfold State.writeAs
  split
  · exact h.putWhere _ _ _ _ _
  · exact foldl_keeps (fun t : State => t.Canonical) _ (fun t k ht => ht.propagateAt _ _ _ _) _ _ h

theorem State.Canonical.writeAt {s : State} (h : s.Canonical) (die : DieNum) (keys : List Nat) (d : List Byte) (p : Put) :
    (s.writeAt die keys d p).Canonical := (h.advanceClock die).writeAs _ _ _ _

/-- A write put at the copies at hand keeps the canonical form: the parts that stay parked write nothing. -/
theorem State.Canonical.spread {s : State} (h : s.Canonical) (ag : Agent) (m : Mark) (ks : List Nat) (left : List DieNum)
    (va : Word) (d : List Byte) (p : Put) : (s.spread ag m ks left va d p).Canonical := by
  unfold State.spread
  split
  · exact h.writeAs _ _ _ _
  · exact foldl_keeps (fun t : State => t.Canonical) _ (fun t k ht => ht.propagateAt _ _ _ _) ks s h

theorem State.Canonical.verifyAll {s : State} (h : s.Canonical) (keys : List Nat) : (s.verifyAll keys).1.Canonical := by
  unfold State.verifyAll
  exact foldl_keeps (fun a : State × Bool => a.1.Canonical) _ (fun b k hb => by
    dsimp only
    split
    · exact hb
    · exact hb.verify _) keys (s, true) h

/-- A store at the copies of a location keeps the canonical form. -/
theorem State.Canonical.storeAt {s : State} (h : s.Canonical) (ag : Agent) (keys : List Nat) (d : List Byte) (ref : Bool) :
    (s.storeAt ag keys d ref).1.Canonical := by
  unfold State.storeAt
  split
  · exact h
  · dsimp only
    split
    · exact (h.verifyAll keys).writeAt _ _ _ _
    · exact h.verifyAll keys

/-- An STLOC keeps the canonical form. -/
theorem State.Canonical.storeOwn {s : State} (h : s.Canonical) (m : Mark) (who : Requester) (k : Nat) (d : List Byte) :
    (s.storeOwn m who k d).1.Canonical := by
  unfold State.storeOwn
  split
  · exact h
  · dsimp only
    split
    · exact (((h.verifyAll [k]).mergeKey k d false).stampAs _ _ _ _).testWaits _ _
    · exact h.verifyAll [k]

/-- A located write keeps the canonical form. -/
theorem State.Canonical.storeSpread {s : State} (h : s.Canonical) (ag : Agent) (m : Option Mark) (va : Word)
    (a : List Nat × List DieNum) (d : List Byte) (ref : Bool) : (s.storeSpread ag m va a d ref).1.Canonical := by
  unfold State.storeSpread
  split
  · exact h
  · dsimp only
    split
    · exact h.verifyAll a.1
    · apply State.Canonical.spread
      split
      · exact h.verifyAll a.1
      · exact (h.verifyAll a.1).advanceClock _

/-- Verified bytes leave the data as they are. -/
@[simp] theorem State.readKey_mem (s : State) (k n : Nat) : (s.readKey k n).1.mem = s.mem := by
  unfold State.readKey
  split
  · rfl
  · dsimp only
    split <;> exact State.verify_mem s _

theorem State.Canonical.readKey {s : State} (h : s.Canonical) (k n : Nat) : (s.readKey k n).1.Canonical := by
  unfold State.readKey
  split
  · exact h
  · dsimp only
    split <;> exact h.verify _

theorem State.Canonical.readLineKey {s : State} (h : s.Canonical) (k : Nat) : (s.readLineKey k).1.Canonical := by
  unfold State.readLineKey
  split
  · exact h
  · dsimp only
    split <;> exact h.verify _

end Sys2Proof.Machine
end

