-- ==== Sys2Proof/Laws/Encode.lean ====
section
/-! SUPPORT. The forms of docent words as sums of fields (Table 3.1), and what the decoder reads from such a sum. -/

namespace Sys2Proof

theorem bits_eq (w lo len : Nat) : bits w lo len = w / 2 ^ lo % 2 ^ len := by
  simp [bits, Nat.shiftRight_eq_div_pow]

theorem shl_or {a b k : Nat} (h : b < 2 ^ k) : a <<< k ||| b = a * 2 ^ k + b := by
  rw [← Nat.shiftLeft_add_eq_or_of_lt h, Nat.shiftLeft_eq]

/-- Form A as a sum of its fields. -/
theorem formA_nat (major d a b fn : Nat) (hd : d < 32) (ha : a < 32) (hb : b < 32) (hf : fn < 2048) :
    formA major d a b fn = major * 67108864 + d * 2097152 + a * 65536 + b * 2048 + fn := by
  have e1 : b <<< 11 ||| fn = b * 2048 + fn := shl_or (k := 11) (by simpa using hf)
  have e2 : a <<< 16 ||| (b * 2048 + fn) = a * 65536 + (b * 2048 + fn) := shl_or (k := 16) (by norm_num; omega)
  have e3 : d <<< 21 ||| (a * 65536 + (b * 2048 + fn)) = d * 2097152 + (a * 65536 + (b * 2048 + fn)) :=
    shl_or (k := 21) (by norm_num; omega)
  have e4 : major <<< 26 ||| (d * 2097152 + (a * 65536 + (b * 2048 + fn)))
      = major * 67108864 + (d * 2097152 + (a * 65536 + (b * 2048 + fn))) := shl_or (k := 26) (by norm_num; omega)
  unfold formA
  rw [Nat.or_assoc, Nat.or_assoc, Nat.or_assoc, e1, e2, e3, e4]
  omega

/-- Forms I and S as a sum of their fields. -/
theorem formI_nat (major r q imm : Nat) (hr : r < 32) (hq : q < 32) (hi : imm < 65536) :
    formI major r q imm = major * 67108864 + r * 2097152 + q * 65536 + imm := by
  have e1 : q <<< 16 ||| imm = q * 65536 + imm := shl_or (k := 16) (by simpa using hi)
  have e2 : r <<< 21 ||| (q * 65536 + imm) = r * 2097152 + (q * 65536 + imm) := shl_or (k := 21) (by norm_num; omega)
  have e3 : major <<< 26 ||| (r * 2097152 + (q * 65536 + imm)) = major * 67108864 + (r * 2097152 + (q * 65536 + imm)) :=
    shl_or (k := 26) (by norm_num; omega)
  unfold formI
  rw [Nat.or_assoc, Nat.or_assoc, e1, e2, e3]
  omega

/-- A field of a word that holds a register number. -/
theorem xAt_of (w lo : Nat) (r : XReg) (h : w / 2 ^ lo % 32 = r.val) : xAt w lo = r := by
  apply Fin.ext
  simp [xAt, Fin.ofNat, Nat.shiftRight_eq_div_pow, h]

theorem hAt_of (w lo : Nat) (r : HReg) (h : w / 2 ^ lo % 16 = r.val) : hAt w lo = r := by
  apply Fin.ext
  simp [hAt, Fin.ofNat, Nat.shiftRight_eq_div_pow, h]

/-- A bit vector read from the low bits of a number. -/
theorem ofNat_of {n : Nat} (w : Nat) (v : BitVec n) (h : w % 2 ^ n = v.toNat) : BitVec.ofNat n w = v := by
  apply BitVec.eq_of_toNat_eq
  simpa using h

/-- The decoder of a word given as a number. -/
theorem decodeDocent_ofNat (w : Nat) (h : w < 2 ^ 32) : (BitVec.ofNat 32 w).toNat = w := by
  simpa using h

end Sys2Proof
end

