-- ==== Sys2Proof/Laws/Frames.lean ====
section
/-! SUPPORT. What the shared operations that store nothing leave: every byte of memory, and line tags in canonical form.
One lemma per operation, named after it. -/

namespace Sys2Proof.Machine

/-- Between two states no byte of memory has changed, and the line tags are still in canonical form: what an operation
that stores nothing does, though it may poison a line that fails verification (R37). -/
def State.Keeps (s t : State) : Prop := t.mem = s.mem ∧ (s.tags.wf → t.tags.wf)

theorem State.Keeps.refl (s : State) : s.Keeps s := ⟨rfl, id⟩

theorem State.Keeps.trans {a b c : State} (h : a.Keeps b) (k : b.Keeps c) : a.Keeps c :=
  ⟨k.1.trans h.1, fun w => k.2 (h.2 w)⟩

/-- States with the same memories. -/
theorem State.Keeps.same {s t : State} (hm : t.mem = s.mem) (ht : t.tags = s.tags) : s.Keeps t :=
  ⟨hm, fun w => ht ▸ w⟩

/-- What follows an operation that stores nothing and leaves the memories as they are. -/
theorem State.Keeps.also {s t u : State} (h : s.Keeps t) (hm : u.mem = t.mem) (ht : u.tags = t.tags) : s.Keeps u :=
  h.trans (.same hm ht)

theorem State.Keeps.canonical {s t : State} (h : s.Keeps t) (c : s.Canonical) : t.Canonical :=
  ⟨h.1 ▸ c.1, h.2 c.2⟩

/-- A byte reads as before. -/
theorem State.Keeps.byte {s t : State} (h : s.Keeps t) (a : Nat) : Memory.byte t.mem a = Memory.byte s.mem a := by
  rw [h.1]

theorem State.Keeps.foldl {α : Type} (f : State → α → State) (hf : ∀ (s : State) (a : α), s.Keeps (f s a)) (l : List α) (s : State) :
    s.Keeps (l.foldl f s) := by
  induction l generalizing s with
  | nil => exact .refl s
  | cons a l ih => exact (hf s a).trans (ih _)

theorem State.Keeps.ite {α : Type} {s : State} {t u : State × α} {p : Prop} [Decidable p] (h : s.Keeps t.1)
    (k : s.Keeps u.1) : s.Keeps (if p then t else u).1 := by
  split
  · exact h
  · exact k

/-! ### The agenda, free values, clocks -/

theorem State.once_keeps (s : State) (a : Act) : s.Keeps (s.once a) := by
  unfold State.once
  split
  · exact .refl s
  · exact .same rfl rfl

theorem State.drawBytes_keeps (s : State) (n : Nat) : s.Keeps (s.drawBytes n).1 := by
  induction n with
  | zero => exact .refl s
  | succ n ih => exact ih.also rfl rfl

theorem State.poke_keeps (s : State) (c : CoreId) : s.Keeps (s.poke c) := by
  unfold State.poke
  dsimp only
  have step : ∀ (t : State) (k : Kind), t.Keeps
      (if ((s.core c).entries.toList.any fun e => (e.state == .pending || e.state == .ready) && e.kind == kindCode k) = true
        then t.once (.event (.taskRelease c k) .none) else t) := by
    intro t k
    split
    · exact t.once_keeps _
    · exact .refl t
  exact (((((step s .join).trans (step _ .docent)).trans (step _ .vector)).trans (step _ .matrix)).trans
    (step _ .transpose)).trans (step _ .copy)

theorem State.readsFrom_keeps (s : State) (d : DieNum) (lo n : Nat) : s.Keeps (s.readsFrom d lo n) :=
  .same (s.readsFrom_mem d lo n) (s.readsFrom_tags d lo n)

theorem State.raiseSource_keeps (s : State) (p : PartNum) (n : Nat) : s.Keeps (s.raiseSource p n) :=
  .same (s.raiseSource_mem p n) (s.raiseSource_tags p n)

theorem State.countFailure_keeps (s : State) (line : Nat) : s.Keeps (s.countFailure line) :=
  .same (s.countFailure_mem line) (s.countFailure_tags line)

/-! ### Lines -/

theorem State.poison_keeps (s : State) (line : Nat) : s.Keeps (s.poison line) := ⟨rfl, fun w => Tags.set_wf _ _ _ w⟩

theorem State.verify_keeps (s : State) (line : Nat) : s.Keeps (s.verify line).1 := by
  unfold State.verify
  dsimp only
  split
  · exact .refl s
  · refine State.Keeps.trans ?_ (State.poison_keeps _ line)
    split
    · exact .refl s
    · exact s.countFailure_keeps line

theorem State.readKey_keeps (s : State) (k n : Nat) : s.Keeps (s.readKey k n).1 := by
  unfold State.readKey
  dsimp only
  split
  · exact .refl s
  · split <;> exact s.verify_keeps _

theorem State.readLineKey_keeps (s : State) (k : Nat) : s.Keeps (s.readLineKey k).1 := by
  unfold State.readLineKey
  dsimp only
  split
  · exact .refl s
  · split <;> exact s.verify_keeps _

/-! ### Translation -/

theorem State.copied_keeps (s : State) (p : PartNum) (key : Nat) (v : Word) : s.Keeps (s.copied p key v).1 := by
  unfold State.copied
  split
  · exact .refl s
  · exact .same rfl rfl

theorem State.remember_keeps (s : State) (p : PartNum) (key : Nat) (v : Word) : s.Keeps (s.remember p key v) := by
  unfold State.remember
  split
  · exact .refl s
  · exact .same rfl rfl

theorem State.walkFrom_keeps (s : State) (ag : Agent) (write : Bool) (die : DieNum) (off : Nat)
    (l : List (Nat × Nat × Nat × Nat)) (table : Nat) : s.Keeps (s.walkFrom ag write die off l table).1 := by
  induction l generalizing s table with
  | nil => exact .refl s
  | cons a rest ih =>
    obtain ⟨lvl, shift, width, align⟩ := a
    have v := s.verify_keeps (devKey die (table + 8 * bits off shift width) / 64)
    have c (k : Nat) (w : Word) := v.trans (State.copied_keeps _ ag.part k w)
    have r (k : Nat) (w x : Word) := (c k w).trans (State.remember_keeps _ ag.part k x)
    have i (k : Nat) (w : Word) (a : Nat) := (c k w).trans (ih _ a)
    have j (k : Nat) (w : Word) (a : Nat) (x : Word) := (i k w a).trans (State.remember_keeps _ ag.part k x)
    unfold State.walkFrom
    dsimp only
    refine .ite v (.ite (c _ _) (.ite (c _ _) (.ite (.ite (c _ _) (.ite (r _ _ _) (r _ _ _))) (.ite (c _ _) ?_))))
    split
    · exact i _ _ _
    · exact j _ _ _ _

theorem State.walk_keeps (s : State) (ag : Agent) (write : Bool) (die : DieNum) (off : Nat) :
    s.Keeps (s.walk ag write die off).1 := by
  unfold State.walk
  dsimp only
  split
  · exact .refl s
  · split
    · exact .refl s
    · exact s.walkFrom_keeps _ _ _ _ _ _

theorem State.record_keeps (s : State) (ag : Agent) (kind : Nat) (write : Bool) (lvl : Nat) (va : Word) (die : DieNum)
    (slice : Nat) : s.Keeps (s.record ag kind write lvl va die slice) := .same rfl rfl

theorem State.parkMiss_keeps (s : State) (ag : Agent) (write : Bool) (lvl : Nat) (va : Word) (die : DieNum) (off : Nat) :
    s.Keeps (s.parkMiss ag write lvl va die off) := by
  unfold State.parkMiss
  dsimp only
  split <;> exact .same rfl rfl

theorem State.locateOn_keeps (s : State) (ag : Agent) (write : Bool) (va : Word) (die : DieNum) (off : Nat) (r : Bool) :
    s.Keeps (s.locateOn ag write va die off r).1 := by
  unfold State.locateOn
  dsimp only
  have w := s.walk_keeps ag (write && !ag.who.ofHost) die off
  split
  · exact .same rfl rfl
  · split
    · split
      · exact w.trans (State.record_keeps _ _ _ _ _ _ _ _)
      · split
        · exact w.also rfl rfl
        · exact w
    · exact w.trans (State.parkMiss_keeps _ _ _ _ _ _ _)
    · exact w.trans (State.record_keeps _ _ _ _ _ _ _ _)
    · exact w.trans (State.record_keeps _ _ _ _ _ _ _ _)
    · exact w.trans (State.record_keeps _ _ _ _ _ _ _ _)

theorem State.locateHost_keeps (s : State) (a : Nat) : s.Keeps (s.locateHost a).1 := .same rfl rfl

theorem State.readCopy_keeps (s : State) (ag : Agent) (die : DieNum) (off k : Nat) (repl : Bool) :
    s.Keeps (s.readCopy ag die off k repl).1 := by
  unfold State.readCopy
  split
  · exact .same rfl rfl
  · exact .refl s

theorem State.locateRead_keeps (s : State) (ag : Agent) (va : Word) : s.Keeps (s.locateRead ag va).1 := by
  unfold State.locateRead
  dsimp only
  split
  · exact .refl s
  · exact .refl s
  · exact .refl s
  · exact s.locateHost_keeps _
  · split <;> exact .refl s
  · have w (o : Nat) (d : DieNum) := s.locateOn_keeps ag false va d o false
    split
    · split
      · have k (o : Nat) (d : DieNum) := (w o d).trans (State.locateOn_keeps _ ag false va ag.die o true)
        split
        · exact (k _ _).trans (State.readCopy_keeps _ _ _ _ _ _)
        · exact k _ _
        · exact k _ _
        · exact k _ _
      · exact (w _ _).trans (State.readCopy_keeps _ _ _ _ _ _)
    · exact w _ _
    · exact w _ _
    · exact w _ _

theorem State.walkCopies_keeps (s : State) (ag : Agent) (va : Word) (off : Nat) (l : List DieNum) :
    s.Keeps (s.walkCopies ag va off l).1 := by
  induction l generalizing s with
  | nil => exact .refl s
  | cons d r ih => exact (s.locateOn_keeps ag true va d off true).trans (ih _)

theorem State.copiesOn_keeps (s : State) (ag : Agent) (va : Word) (off : Nat) (l : List DieNum) :
    s.Keeps (s.copiesOn ag va off l).1 := by
  have w := s.walkCopies_keeps ag va off l
  unfold State.copiesOn
  dsimp only
  split
  · exact w.also rfl rfl
  · exact w.also rfl rfl
  · exact w

theorem State.locateWrite_keeps (s : State) (ag : Agent) (va : Word) (sp : Spread) :
    s.Keeps (s.locateWrite ag va sp).1 := by
  unfold State.locateWrite
  dsimp only
  have w (a : DieNum) (o : Nat) := s.locateOn_keeps ag true va a o false
  repeat' split
  all_goals first
    | exact .refl s
    | exact s.locateHost_keeps _
    | exact w _ _
    | exact (w _ _).trans (State.copiesOn_keeps _ _ _ _ _)

theorem State.locateAll_keeps (s : State) (ag : Agent) (va : Word) : s.Keeps (s.locateAll ag va).1 := by
  unfold State.locateAll
  dsimp only
  have w (a : DieNum) (o : Nat) := s.locateOn_keeps ag true va a o false
  have c (a : DieNum) (o : Nat) (l : List DieNum) := (w a o).trans (State.walkCopies_keeps _ ag va o l)
  split
  · split
    · split
      · exact w _ _
      · split
        · exact (c _ _ _).also rfl rfl
        · exact (c _ _ _).also rfl rfl
        · exact c _ _ _
    · exact w _ _
    · exact w _ _
    · exact w _ _
  · exact s.locateWrite_keeps _ _ _

theorem State.readVa_keeps (s : State) (ag : Agent) (va : Word) (n : Nat) : s.Keeps (s.readVa ag va n).1 := by
  unfold State.readVa
  dsimp only
  have l := s.locateRead_keeps ag va
  split
  · split
    · exact .refl s
    · exact ((State.Keeps.same rfl rfl : s.Keeps s.answerThere.1).trans (State.drawBytes_keeps _ _)).also rfl rfl
  · split
    · exact (l.trans (State.readKey_keeps _ _ _)).trans (State.readsFrom_keeps _ _ _ _)
    · exact l
    · exact l
    · exact l

/-! ### Writes -/

/-- Bytes apart from a range. -/
def Apart (a k n : Nat) : Prop := a < k ∨ k + n ≤ a

theorem Memory.byte_write_apart (m : Memory) (k : Nat) (d : List Byte) (a : Nat) (h : Apart a k d.length) :
    Memory.byte (m.write k d) a = Memory.byte m a := by
  rw [Memory.byte_write, if_neg]
  unfold Apart at h
  omega

/-- A merging write at one location changes no byte apart from its range, whichever of its bytes the order admits. -/
theorem State.putWhere_byte (s : State) (m : Mark) (k : Nat) (d : List Byte) (ref : Bool) (later : Nat → Bool) (a : Nat)
    (h : Apart a k d.length) : Memory.byte (s.putWhere m k d (.merge ref) later).mem a = Memory.byte s.mem a := by
  unfold State.putWhere
  dsimp only
  split
  · simp only [State.performedAs, State.testWaits_mem, State.stampAs_mem, State.put, State.mergeKey_mem]
    exact Memory.byte_write_apart _ _ _ _ h
  · rw [State.testWaits_mem]
    have key : ∀ (l : List Nat) (t : State), (∀ i ∈ l, i < d.length) → Memory.byte t.mem a = Memory.byte s.mem a →
        Memory.byte (l.foldl (fun s i => (s.put (.merge false) (k + i) ((d.drop i).take 1)).stampAs m (k + i) 1 false)
          t).mem a = Memory.byte s.mem a := by
      intro l
      induction l with
      | nil => exact fun t _ ht => ht
      | cons i l ih =>
        intro t hl ht
        refine ih _ (fun j hj => hl j (List.mem_cons_of_mem _ hj)) ?_
        have hi := hl i (List.mem_cons_self ..)
        simp only [State.stampAs_mem, State.put, State.mergeKey_mem]
        rw [Memory.byte_write_apart, ht]
        unfold Apart at h ⊢
        simp only [List.length_take, List.length_drop]
        omega
    exact key _ s (fun i hi => by simpa using List.mem_range.1 (List.mem_filter.1 hi).1) rfl

theorem State.propagateAt_byte (s : State) (m : Mark) (k : Nat) (d : List Byte) (ref : Bool) (a : Nat)
    (h : Apart a k d.length) : Memory.byte (s.propagateAt m k d (.merge ref)).mem a = Memory.byte s.mem a :=
  s.putWhere_byte _ _ _ _ _ _ h

/-- Merging writes at several copies. -/
theorem State.propagate_byte (s : State) (m : Mark) (ks : List Nat) (d : List Byte) (ref : Bool) (a : Nat)
    (h : ∀ k ∈ ks, Apart a k d.length) :
    Memory.byte (ks.foldl (fun s k => s.propagateAt m k d (.merge ref)) s).mem a = Memory.byte s.mem a := by
  induction ks generalizing s with
  | nil => rfl
  | cons k ks ih =>
    rw [List.foldl_cons, ih _ fun j hj => h j (List.mem_cons_of_mem _ hj),
      State.propagateAt_byte _ _ _ _ _ _ (h k (List.mem_cons_self ..))]

theorem State.writeAs_byte (s : State) (m : Mark) (ks : List Nat) (d : List Byte) (ref : Bool) (a : Nat)
    (h : ∀ k ∈ ks, Apart a k d.length) : Memory.byte (s.writeAs m ks d (.merge ref)).mem a = Memory.byte s.mem a := by
  unfold State.writeAs
  split
  · exact s.putWhere_byte _ _ _ _ _ _ (h _ (List.mem_cons_self ..))
  · exact s.propagate_byte _ _ _ _ _ h

theorem State.spread_byte (s : State) (ag : Agent) (m : Mark) (ks : List Nat) (left : List DieNum) (va : Word)
    (d : List Byte) (ref : Bool) (a : Nat) (h : ∀ k ∈ ks, Apart a k d.length) :
    Memory.byte (s.spread ag m ks left va d (.merge ref)).mem a = Memory.byte s.mem a := by
  unfold State.spread
  split
  · exact s.writeAs_byte _ _ _ _ _ h
  · exact s.propagate_byte _ _ _ _ _ h

@[simp] theorem State.verifyAll_mem (s : State) (ks : List Nat) : (s.verifyAll ks).1.mem = s.mem := by
  unfold State.verifyAll
  exact foldl_keeps (fun a : State × Bool => a.1.mem = s.mem) _ (fun b k hb => by
    dsimp only
    split
    · exact hb
    · rw [State.verify_mem]; exact hb) ks (s, true) rfl

/-- A located write changes no byte apart from the copies at hand (R120, R330, R378). -/
theorem State.storeSpread_byte (s : State) (ag : Agent) (m : Option Mark) (va : Word) (p : List Nat × List DieNum)
    (d : List Byte) (ref : Bool) (a : Nat) (h : ∀ k ∈ p.1, Apart a k d.length) :
    Memory.byte (s.storeSpread ag m va p d ref).1.mem a = Memory.byte s.mem a := by
  unfold State.storeSpread
  split
  · rfl
  · dsimp only
    split
    · simp only [State.unpark_mem, State.verifyAll_mem]
    · rw [State.spread_byte _ _ _ _ _ _ _ _ _ h]
      split <;> simp

/-! ### Contexts, traps, counters -/

theorem State.select_keeps (s : State) (c : CoreId) : s.Keeps (s.select c) := by
  unfold State.select
  dsimp only
  split
  · exact .refl s
  · exact .same rfl rfl

theorem State.dispatch_keeps (s : State) (c : CoreId) : s.Keeps (s.dispatch c) := by
  unfold State.dispatch
  split
  · exact .refl s
  · exact s.select_keeps c

theorem State.ready_keeps (s : State) (u : CtxRef) : s.Keeps (s.ready u) :=
  (State.Keeps.same rfl rfl : s.Keeps (s.setCtx u _)).trans (State.dispatch_keeps _ _)

theorem State.parkCtx_keeps (s : State) (u : CtxRef) (p : Park) : s.Keeps (s.parkCtx u p) :=
  (State.Keeps.same rfl rfl : s.Keeps (s.setCtx u _)).trans (State.dispatch_keeps _ _)

theorem State.docentComplete_keeps (s : State) (u : CtxRef) (h : Handle) (gen : BitVec 16) :
    s.Keeps (s.docentComplete u h gen) := by
  unfold State.docentComplete
  dsimp only
  split
  · exact s.once_keeps _
  · exact .refl s

theorem State.dropLoad_keeps (s : State) (u : CtxRef) : s.Keeps (s.dropLoad u) := by
  unfold State.dropLoad
  dsimp only
  repeat' split
  all_goals exact .same rfl rfl

theorem State.owedAtomic_keeps (s : State) (u : CtxRef) : s.Keeps (s.owedAtomic u) := by
  unfold State.owedAtomic
  dsimp only
  split
  · exact .refl s
  · split
    · exact .refl s
    · exact .refl s
    · exact .refl s
    · split
      · split <;> exact .same rfl rfl
      · refine State.Keeps.trans ?_ (State.once_keeps _ _)
        exact .same rfl rfl

theorem State.leaveTask_keeps (s : State) (u : CtxRef) (k : Causes) : s.Keeps (s.leaveTask u k) := by
  unfold State.leaveTask
  dsimp only
  refine State.Keeps.trans ?_ (State.poke_keeps _ _)
  refine State.Keeps.trans ?_ (State.docentComplete_keeps _ _ _ _)
  have h := (s.owedAtomic_keeps u).trans (State.dropLoad_keeps (s.owedAtomic u) u)
  generalize (s.owedAtomic u).dropLoad u = t at h ⊢
  exact h.also rfl rfl

theorem State.endTask_keeps (s : State) (u : CtxRef) (k : Causes) : s.Keeps (s.endTask u k) :=
  (s.leaveTask_keeps u k).trans (State.dispatch_keeps _ _)

theorem State.enterTrap_keeps (s : State) (u : CtxRef) (cause : BitVec 8) (eval epc : Word) :
    s.Keeps (s.enterTrap u cause eval epc) := by
  unfold State.enterTrap
  dsimp only
  split
  · exact (State.Keeps.same rfl rfl : s.Keeps (s.setCtx u _)).trans (State.leaveTask_keeps _ _ _)
  · split
    · exact .same rfl rfl
    · split
      · exact .same rfl rfl
      · exact .same rfl rfl

theorem State.takeTrap_keeps (s : State) (u : CtxRef) (cause : BitVec 8) (eval epc : Word) :
    s.Keeps (s.takeTrap u cause eval epc) := by
  unfold State.takeTrap
  dsimp only
  split
  · exact s.enterTrap_keeps u cause eval epc
  · exact (s.enterTrap_keeps u cause eval epc).trans (State.dispatch_keeps _ _)

theorem State.trap_keeps (s : State) (i : Issue) (cause : BitVec 8) (eval : Word) : s.Keeps (s.trap i cause eval) :=
  s.takeTrap_keeps _ _ _ _

theorem State.trapFree_keeps (s : State) (i : Issue) (cause : BitVec 8) : s.Keeps (s.trapFree i cause) :=
  (State.Keeps.same rfl rfl : s.Keeps s.draw.1).trans (State.trap_keeps _ _ _ _)

theorem State.passCounter_keeps (s : State) (c : CoreId) (n : CtrNum) (p : Bool) : s.Keeps (s.passCounter c n p) := by
  refine State.Keeps.foldl _ (fun s k => ?_) _ _
  dsimp only
  split
  · exact .same rfl rfl
  · exact .refl s

theorem State.wakeCounter_keeps (s : State) (c : CoreId) (n : CtrNum) (p : Bool) : s.Keeps (s.wakeCounter c n p) :=
  (s.passCounter_keeps c n p).trans (State.dispatch_keeps _ _)

theorem State.latch_keeps (s : State) (c : CoreId) (n : CtrNum) (p : Bool) : s.Keeps (s.latch c n p) := by
  unfold State.latch
  dsimp only
  exact State.Keeps.foldl (fun s h => s.setEntry c h { s.entry c h with ctrLatched := true }) (fun _ _ => .same rfl rfl) _ _

theorem State.setCounter_keeps (s : State) (c : CoreId) (n : CtrNum) (k : Counter) : s.Keeps (s.setCounter c n k) := by
  unfold State.setCounter
  dsimp only
  split
  · refine State.Keeps.trans ?_ (State.poke_keeps _ _)
    refine State.Keeps.trans ?_ (State.latch_keeps _ _ _ _)
    exact (State.Keeps.same rfl rfl : s.Keeps (s.setCore c _)).trans (State.wakeCounter_keeps _ _ _ _)
  · exact .same rfl rfl

theorem State.arrival_keeps (s : State) (c : CoreId) (n : CtrNum) (v : Int) (err aband : Bool) :
    s.Keeps (s.arrival c n v err aband) := s.setCounter_keeps _ _ _

theorem State.request_keeps (s : State) (dev : DevNum) (p : Plane) (w : Waiter) (f : BitVec 32 → Out) :
    s.Keeps (s.request dev p w f) := .same rfl rfl

/-- An instruction that names only X registers. -/
theorem State.plain_next (s t : State) (i : Issue) (regs : List XReg) (f : Context → Context)
    (h : s.plain i regs f = .next t) : t = s ∨ t = s.retire i f := by
  unfold State.plain at h
  split at h
  · exact .inl (by injection h with h; exact h.symm)
  · exact .inr (by injection h with h; exact h.symm)

end Sys2Proof.Machine
end

