-- ==== Sys2Proof/Laws/PerInstr.lean ====
section
/-! SUPPORT. Families of statements about every instruction as syntax, one lemma per constructor of `Instr`. -/

namespace Sys2Proof.Laws.OneForm

/-- The encodings that an instruction has: a docent word, a kernel word, an engine record or a command packet. -/
def forms (i : Instr) : List Bool :=
  [(encodeDocent i).isSome, (encodeKernel i).isSome, (encodeRecord i).isSome, (commandCode i).isSome]

/-- An instruction has at most one of the four encodings. -/
def Statement (i : Instr) : Prop := ((forms i).filter id).length ≤ 1

theorem add : ∀ d a b, Statement (.add d a b) := fun _ _ _ => Nat.le_of_ble_eq_true rfl
theorem sub : ∀ d a b, Statement (.sub d a b) := fun _ _ _ => Nat.le_of_ble_eq_true rfl
theorem mul : ∀ d a b, Statement (.mul d a b) := fun _ _ _ => Nat.le_of_ble_eq_true rfl
theorem mulh : ∀ d a b, Statement (.mulh d a b) := fun _ _ _ => Nat.le_of_ble_eq_true rfl
theorem mulhn : ∀ d a b, Statement (.mulhn d a b) := fun _ _ _ => Nat.le_of_ble_eq_true rfl
theorem div : ∀ d a b, Statement (.div d a b) := fun _ _ _ => Nat.le_of_ble_eq_true rfl
theorem divn : ∀ d a b, Statement (.divn d a b) := fun _ _ _ => Nat.le_of_ble_eq_true rfl
theorem rem : ∀ d a b, Statement (.rem d a b) := fun _ _ _ => Nat.le_of_ble_eq_true rfl
theorem remn : ∀ d a b, Statement (.remn d a b) := fun _ _ _ => Nat.le_of_ble_eq_true rfl
theorem and : ∀ d a b, Statement (.and d a b) := fun _ _ _ => Nat.le_of_ble_eq_true rfl
theorem or : ∀ d a b, Statement (.or d a b) := fun _ _ _ => Nat.le_of_ble_eq_true rfl
theorem xor : ∀ d a b, Statement (.xor d a b) := fun _ _ _ => Nat.le_of_ble_eq_true rfl
theorem andn : ∀ d a b, Statement (.andn d a b) := fun _ _ _ => Nat.le_of_ble_eq_true rfl
theorem shl : ∀ d a b, Statement (.shl d a b) := fun _ _ _ => Nat.le_of_ble_eq_true rfl
theorem shr : ∀ d a b, Statement (.shr d a b) := fun _ _ _ => Nat.le_of_ble_eq_true rfl
theorem sra : ∀ d a b, Statement (.sra d a b) := fun _ _ _ => Nat.le_of_ble_eq_true rfl
theorem rotl : ∀ d a b, Statement (.rotl d a b) := fun _ _ _ => Nat.le_of_ble_eq_true rfl
theorem min : ∀ d a b, Statement (.min d a b) := fun _ _ _ => Nat.le_of_ble_eq_true rfl
theorem max : ∀ d a b, Statement (.max d a b) := fun _ _ _ => Nat.le_of_ble_eq_true rfl
theorem minn : ∀ d a b, Statement (.minn d a b) := fun _ _ _ => Nat.le_of_ble_eq_true rfl
theorem maxn : ∀ d a b, Statement (.maxn d a b) := fun _ _ _ => Nat.le_of_ble_eq_true rfl
theorem slt : ∀ d a b, Statement (.slt d a b) := fun _ _ _ => Nat.le_of_ble_eq_true rfl
theorem sltn : ∀ d a b, Statement (.sltn d a b) := fun _ _ _ => Nat.le_of_ble_eq_true rfl
theorem seq : ∀ d a b, Statement (.seq d a b) := fun _ _ _ => Nat.le_of_ble_eq_true rfl
theorem clz : ∀ d a, Statement (.clz d a) := fun _ _ => Nat.le_of_ble_eq_true rfl
theorem ctz : ∀ d a, Statement (.ctz d a) := fun _ _ => Nat.le_of_ble_eq_true rfl
theorem popc : ∀ d a, Statement (.popc d a) := fun _ _ => Nat.le_of_ble_eq_true rfl
theorem sel : ∀ d c a b, Statement (.sel d c a b) := fun _ _ _ _ => Nat.le_of_ble_eq_true rfl
theorem addi : ∀ d a imm, Statement (.addi d a imm) := fun _ _ _ => Nat.le_of_ble_eq_true rfl
theorem andi : ∀ d a imm, Statement (.andi d a imm) := fun _ _ _ => Nat.le_of_ble_eq_true rfl
theorem ori : ∀ d a imm, Statement (.ori d a imm) := fun _ _ _ => Nat.le_of_ble_eq_true rfl
theorem xori : ∀ d a imm, Statement (.xori d a imm) := fun _ _ _ => Nat.le_of_ble_eq_true rfl
theorem shli : ∀ d a sh, Statement (.shli d a sh) := fun _ _ _ => Nat.le_of_ble_eq_true rfl
theorem shri : ∀ d a sh, Statement (.shri d a sh) := fun _ _ _ => Nat.le_of_ble_eq_true rfl
theorem srai : ∀ d a sh, Statement (.srai d a sh) := fun _ _ _ => Nat.le_of_ble_eq_true rfl
theorem slti : ∀ d a imm, Statement (.slti d a imm) := fun _ _ _ => Nat.le_of_ble_eq_true rfl
theorem lil : ∀ d imm, Statement (.lil d imm) := fun _ _ => Nat.le_of_ble_eq_true rfl
theorem lih : ∀ d imm, Statement (.lih d imm) := fun _ _ => Nat.le_of_ble_eq_true rfl
theorem exts : ∀ d a pos w, Statement (.exts d a pos w) := fun _ _ _ _ => Nat.le_of_ble_eq_true rfl
theorem extz : ∀ d a pos w, Statement (.extz d a pos w) := fun _ _ _ _ => Nat.le_of_ble_eq_true rfl
theorem insf : ∀ d a pos w, Statement (.insf d a pos w) := fun _ _ _ _ => Nat.le_of_ble_eq_true rfl
theorem b : ∀ off, Statement (.b off) := fun _ => Nat.le_of_ble_eq_true rfl
theorem bl : ∀ off, Statement (.bl off) := fun _ => Nat.le_of_ble_eq_true rfl
theorem beq : ∀ a b off, Statement (.beq a b off) := fun _ _ _ => Nat.le_of_ble_eq_true rfl
theorem bne : ∀ a b off, Statement (.bne a b off) := fun _ _ _ => Nat.le_of_ble_eq_true rfl
theorem blt : ∀ a b off, Statement (.blt a b off) := fun _ _ _ => Nat.le_of_ble_eq_true rfl
theorem bge : ∀ a b off, Statement (.bge a b off) := fun _ _ _ => Nat.le_of_ble_eq_true rfl
theorem bltn : ∀ a b off, Statement (.bltn a b off) := fun _ _ _ => Nat.le_of_ble_eq_true rfl
theorem bgen : ∀ a b off, Statement (.bgen a b off) := fun _ _ _ => Nat.le_of_ble_eq_true rfl
theorem bz : ∀ a off, Statement (.bz a off) := fun _ _ => Nat.le_of_ble_eq_true rfl
theorem bnz : ∀ a off, Statement (.bnz a off) := fun _ _ => Nat.le_of_ble_eq_true rfl
theorem br : ∀ a, Statement (.br a) := fun _ => Nat.le_of_ble_eq_true rfl
theorem blr : ∀ a, Statement (.blr a) := fun _ => Nat.le_of_ble_eq_true rfl
theorem ldB : ∀ d a imm, Statement (.ldB d a imm) := fun _ _ _ => Nat.le_of_ble_eq_true rfl
theorem ldBn : ∀ d a imm, Statement (.ldBn d a imm) := fun _ _ _ => Nat.le_of_ble_eq_true rfl
theorem ldH : ∀ d a imm, Statement (.ldH d a imm) := fun _ _ _ => Nat.le_of_ble_eq_true rfl
theorem ldHn : ∀ d a imm, Statement (.ldHn d a imm) := fun _ _ _ => Nat.le_of_ble_eq_true rfl
theorem ldW : ∀ d a imm, Statement (.ldW d a imm) := fun _ _ _ => Nat.le_of_ble_eq_true rfl
theorem ldWn : ∀ d a imm, Statement (.ldWn d a imm) := fun _ _ _ => Nat.le_of_ble_eq_true rfl
theorem ldD : ∀ d a imm, Statement (.ldD d a imm) := fun _ _ _ => Nat.le_of_ble_eq_true rfl
theorem stB : ∀ a b imm, Statement (.stB a b imm) := fun _ _ _ => Nat.le_of_ble_eq_true rfl
theorem stH : ∀ a b imm, Statement (.stH a b imm) := fun _ _ _ => Nat.le_of_ble_eq_true rfl
theorem stW : ∀ a b imm, Statement (.stW a b imm) := fun _ _ _ => Nat.le_of_ble_eq_true rfl
theorem stD : ∀ a b imm, Statement (.stD a b imm) := fun _ _ _ => Nat.le_of_ble_eq_true rfl
theorem stloc : ∀ a b imm, Statement (.stloc a b imm) := fun _ _ _ => Nat.le_of_ble_eq_true rfl
theorem ldx : ∀ d a b z nat sc, Statement (.ldx d a b z nat sc) := fun _ _ _ _ _ _ => Nat.le_of_ble_eq_true rfl
theorem stx : ∀ d a b z sc, Statement (.stx d a b z sc) := fun _ _ _ _ _ => Nat.le_of_ble_eq_true rfl
theorem ldt : ∀ d a b z nat, Statement (.ldt d a b z nat) := fun _ _ _ _ _ => Nat.le_of_ble_eq_true rfl
theorem stt : ∀ d a b z, Statement (.stt d a b z) := fun _ _ _ _ => Nat.le_of_ble_eq_true rfl
theorem amo : ∀ d a b op z sc, Statement (.amo d a b op z sc) := fun _ _ _ _ _ _ => Nat.le_of_ble_eq_true rfl
theorem amoi : ∀ a b op z sc, Statement (.amoi a b op z sc) := fun _ _ _ _ _ => Nat.le_of_ble_eq_true rfl
theorem cas : ∀ d a b z sc, Statement (.cas d a b z sc) := fun _ _ _ _ _ => Nat.le_of_ble_eq_true rfl
theorem famo : ∀ d a b op rm z sc reord, Statement (.famo d a b op rm z sc reord) := fun _ _ _ _ _ _ _ _ => Nat.le_of_ble_eq_true rfl
theorem nop : Statement .nop := Nat.le_of_ble_eq_true rfl
theorem fence : ∀ sc, Statement (.fence sc) := fun _ => Nat.le_of_ble_eq_true rfl
theorem tfence : ∀ sc, Statement (.tfence sc) := fun _ => Nat.le_of_ble_eq_true rfl
theorem waita : ∀ d a b c, Statement (.waita d a b c) := fun _ _ _ _ => Nat.le_of_ble_eq_true rfl
theorem notify : ∀ a b, Statement (.notify a b) := fun _ _ => Nat.le_of_ble_eq_true rfl
theorem trap : Statement .trap := Nat.le_of_ble_eq_true rfl
theorem eret : Statement .eret := Nat.le_of_ble_eq_true rfl
theorem brk : Statement .brk := Nat.le_of_ble_eq_true rfl
theorem yield : Statement .yield := Nat.le_of_ble_eq_true rfl
theorem done : Statement .done := Nat.le_of_ble_eq_true rfl
theorem time : ∀ d, Statement (.time d) := fun _ => Nat.le_of_ble_eq_true rfl
theorem tcoord : ∀ d, Statement (.tcoord d) := fun _ => Nat.le_of_ble_eq_true rfl
theorem sysr : ∀ d r, Statement (.sysr d r) := fun _ _ => Nat.le_of_ble_eq_true rfl
theorem sysw : ∀ d r, Statement (.sysw d r) := fun _ _ => Nat.le_of_ble_eq_true rfl
theorem tset : ∀ w a, Statement (.tset w a) := fun _ _ => Nat.le_of_ble_eq_true rfl
theorem treg : ∀ n a b, Statement (.treg n a b) := fun _ _ _ => Nat.le_of_ble_eq_true rfl
theorem tclr : Statement .tclr := Nat.le_of_ble_eq_true rfl
theorem post : ∀ d, Statement (.post d) := fun _ => Nat.le_of_ble_eq_true rfl
theorem trypost : ∀ d, Statement (.trypost d) := fun _ => Nat.le_of_ble_eq_true rfl
theorem postl : ∀ d a b, Statement (.postl d a b) := fun _ _ _ => Nat.le_of_ble_eq_true rfl
theorem postr : ∀ d a b, Statement (.postr d a b) := fun _ _ _ => Nat.le_of_ble_eq_true rfl
theorem join : ∀ mask, Statement (.join mask) := fun _ => Nat.le_of_ble_eq_true rfl
theorem gnew : ∀ d, Statement (.gnew d) := fun _ => Nat.le_of_ble_eq_true rfl
theorem gok : ∀ a, Statement (.gok a) := fun _ => Nat.le_of_ble_eq_true rfl
theorem gno : ∀ a, Statement (.gno a) := fun _ => Nat.le_of_ble_eq_true rfl
theorem setb : ∀ n a, Statement (.setb n a) := fun _ _ => Nat.le_of_ble_eq_true rfl
theorem getb : ∀ d n, Statement (.getb d n) := fun _ _ => Nat.le_of_ble_eq_true rfl
theorem tseti : ∀ w imm, Statement (.tseti w imm) := fun _ _ => Nat.le_of_ble_eq_true rfl
theorem armc : ∀ n a, Statement (.armc n a) := fun _ _ => Nat.le_of_ble_eq_true rfl
theorem armcInit : ∀ n a, Statement (.armcInit n a) := fun _ _ => Nat.le_of_ble_eq_true rfl
theorem arrc : ∀ n a, Statement (.arrc n a) := fun _ _ => Nat.le_of_ble_eq_true rfl
theorem waitc : ∀ n p, Statement (.waitc n p) := fun _ _ => Nat.le_of_ble_eq_true rfl
theorem readc : ∀ d n, Statement (.readc d n) := fun _ _ => Nat.le_of_ble_eq_true rfl
theorem gbar : ∀ g, Statement (.gbar g) := fun _ => Nat.le_of_ble_eq_true rfl
theorem grank : ∀ d g, Statement (.grank d g) := fun _ _ => Nat.le_of_ble_eq_true rfl
theorem gsize : ∀ d g, Statement (.gsize d g) := fun _ _ => Nat.le_of_ble_eq_true rfl
theorem prio : ∀ c, Statement (.prio c) := fun _ => Nat.le_of_ble_eq_true rfl
theorem cash : ∀ d a b, Statement (.cash d a b) := fun _ _ _ => Nat.le_of_ble_eq_true rfl
theorem refeq : ∀ d a b, Statement (.refeq d a b) := fun _ _ _ => Nat.le_of_ble_eq_true rfl
theorem mkref : ∀ d a, Statement (.mkref d a) := fun _ _ => Nat.le_of_ble_eq_true rfl
theorem pin : ∀ d a, Statement (.pin d a) := fun _ _ => Nat.le_of_ble_eq_true rfl
theorem unpin : ∀ a, Statement (.unpin a) := fun _ => Nat.le_of_ble_eq_true rfl
theorem ldref : ∀ d a imm, Statement (.ldref d a imm) := fun _ _ _ => Nat.le_of_ble_eq_true rfl
theorem stref : ∀ a b imm, Statement (.stref a b imm) := fun _ _ _ => Nat.le_of_ble_eq_true rfl
theorem ldh : ∀ d a imm, Statement (.ldh d a imm) := fun _ _ _ => Nat.le_of_ble_eq_true rfl
theorem sth : ∀ a b imm, Statement (.sth a b imm) := fun _ _ _ => Nat.le_of_ble_eq_true rfl
theorem qopen : ∀ n a, Statement (.qopen n a) := fun _ _ => Nat.le_of_ble_eq_true rfl
theorem qclose : ∀ n, Statement (.qclose n) := fun _ => Nat.le_of_ble_eq_true rfl
theorem qstat : ∀ d n, Statement (.qstat d n) := fun _ _ => Nat.le_of_ble_eq_true rfl
theorem imx : ∀ payload, Statement (.imx payload) := fun _ => Nat.le_of_ble_eq_true rfl
theorem loadReply : ∀ u seq v, Statement (.loadReply u seq v) := fun _ _ _ => Nat.le_of_ble_eq_true rfl
theorem storePerformed : ∀ u, Statement (.storePerformed u) := fun _ => Nat.le_of_ble_eq_true rfl
theorem delayedFault : ∀ u h gen cause va, Statement (.delayedFault u h gen cause va) := fun _ _ _ _ _ => Nat.le_of_ble_eq_true rfl
theorem waitaReply : ∀ u seq evicted, Statement (.waitaReply u seq evicted) := fun _ _ _ => Nat.le_of_ble_eq_true rfl
theorem turnExpiry : ∀ core, Statement (.turnExpiry core) := fun _ => Nat.le_of_ble_eq_true rfl
theorem parkedPostResume : ∀ core, Statement (.parkedPostResume core) := fun _ => Nat.le_of_ble_eq_true rfl
theorem heldPacketAccept : ∀ k, Statement (.heldPacketAccept k) := fun _ => Nat.le_of_ble_eq_true rfl
theorem postrReply : ∀ u seq reply, Statement (.postrReply u seq reply) := fun _ _ _ => Nat.le_of_ble_eq_true rfl
theorem qcloseCompletion : ∀ u q, Statement (.qcloseCompletion u q) := fun _ _ => Nat.le_of_ble_eq_true rfl
theorem vadd : ∀ f, Statement (.vadd f) := fun _ => Nat.le_of_ble_eq_true rfl
theorem vsub : ∀ f, Statement (.vsub f) := fun _ => Nat.le_of_ble_eq_true rfl
theorem vmul : ∀ f, Statement (.vmul f) := fun _ => Nat.le_of_ble_eq_true rfl
theorem vfma : ∀ f, Statement (.vfma f) := fun _ => Nat.le_of_ble_eq_true rfl
theorem vfms : ∀ f, Statement (.vfms f) := fun _ => Nat.le_of_ble_eq_true rfl
theorem vfnma : ∀ f, Statement (.vfnma f) := fun _ => Nat.le_of_ble_eq_true rfl
theorem vfnms : ∀ f, Statement (.vfnms f) := fun _ => Nat.le_of_ble_eq_true rfl
theorem vdiv : ∀ f, Statement (.vdiv f) := fun _ => Nat.le_of_ble_eq_true rfl
theorem vsqrt : ∀ f, Statement (.vsqrt f) := fun _ => Nat.le_of_ble_eq_true rfl
theorem vrcp : ∀ f, Statement (.vrcp f) := fun _ => Nat.le_of_ble_eq_true rfl
theorem vrsq : ∀ f, Statement (.vrsq f) := fun _ => Nat.le_of_ble_eq_true rfl
theorem vmin : ∀ f, Statement (.vmin f) := fun _ => Nat.le_of_ble_eq_true rfl
theorem vmax : ∀ f, Statement (.vmax f) := fun _ => Nat.le_of_ble_eq_true rfl
theorem vminm : ∀ f, Statement (.vminm f) := fun _ => Nat.le_of_ble_eq_true rfl
theorem vmaxm : ∀ f, Statement (.vmaxm f) := fun _ => Nat.le_of_ble_eq_true rfl
theorem vabs : ∀ f, Statement (.vabs f) := fun _ => Nat.le_of_ble_eq_true rfl
theorem vneg : ∀ f, Statement (.vneg f) := fun _ => Nat.le_of_ble_eq_true rfl
theorem vcps : ∀ f, Statement (.vcps f) := fun _ => Nat.le_of_ble_eq_true rfl
theorem vscl : ∀ f, Statement (.vscl f) := fun _ => Nat.le_of_ble_eq_true rfl
theorem vrnd : ∀ f, Statement (.vrnd f) := fun _ => Nat.le_of_ble_eq_true rfl
theorem vcls : ∀ f, Statement (.vcls f) := fun _ => Nat.le_of_ble_eq_true rfl
theorem vcmp : ∀ f, Statement (.vcmp f) := fun _ => Nat.le_of_ble_eq_true rfl
theorem vexp : ∀ f, Statement (.vexp f) := fun _ => Nat.le_of_ble_eq_true rfl
theorem vexp2 : ∀ f, Statement (.vexp2 f) := fun _ => Nat.le_of_ble_eq_true rfl
theorem vlog : ∀ f, Statement (.vlog f) := fun _ => Nat.le_of_ble_eq_true rfl
theorem vlog2 : ∀ f, Statement (.vlog2 f) := fun _ => Nat.le_of_ble_eq_true rfl
theorem vsin : ∀ f, Statement (.vsin f) := fun _ => Nat.le_of_ble_eq_true rfl
theorem vcos : ∀ f, Statement (.vcos f) := fun _ => Nat.le_of_ble_eq_true rfl
theorem vtanh : ∀ f, Statement (.vtanh f) := fun _ => Nat.le_of_ble_eq_true rfl
theorem vsigm : ∀ f, Statement (.vsigm f) := fun _ => Nat.le_of_ble_eq_true rfl
theorem verf : ∀ f, Statement (.verf f) := fun _ => Nat.le_of_ble_eq_true rfl
theorem viadd : ∀ f, Statement (.viadd f) := fun _ => Nat.le_of_ble_eq_true rfl
theorem visub : ∀ f, Statement (.visub f) := fun _ => Nat.le_of_ble_eq_true rfl
theorem vimul : ∀ f, Statement (.vimul f) := fun _ => Nat.le_of_ble_eq_true rfl
theorem vimulh : ∀ f, Statement (.vimulh f) := fun _ => Nat.le_of_ble_eq_true rfl
theorem vimad : ∀ f, Statement (.vimad f) := fun _ => Nat.le_of_ble_eq_true rfl
theorem vimin : ∀ f, Statement (.vimin f) := fun _ => Nat.le_of_ble_eq_true rfl
theorem vimax : ∀ f, Statement (.vimax f) := fun _ => Nat.le_of_ble_eq_true rfl
theorem viabs : ∀ f, Statement (.viabs f) := fun _ => Nat.le_of_ble_eq_true rfl
theorem vshl : ∀ f, Statement (.vshl f) := fun _ => Nat.le_of_ble_eq_true rfl
theorem vshr : ∀ f, Statement (.vshr f) := fun _ => Nat.le_of_ble_eq_true rfl
theorem vsra : ∀ f, Statement (.vsra f) := fun _ => Nat.le_of_ble_eq_true rfl
theorem vand : ∀ f, Statement (.vand f) := fun _ => Nat.le_of_ble_eq_true rfl
theorem vor : ∀ f, Statement (.vor f) := fun _ => Nat.le_of_ble_eq_true rfl
theorem vxor : ∀ f, Statement (.vxor f) := fun _ => Nat.le_of_ble_eq_true rfl
theorem vnot : ∀ f, Statement (.vnot f) := fun _ => Nat.le_of_ble_eq_true rfl
theorem vmov : ∀ f, Statement (.vmov f) := fun _ => Nat.le_of_ble_eq_true rfl
theorem vbcast : ∀ f, Statement (.vbcast f) := fun _ => Nat.le_of_ble_eq_true rfl
theorem vld : ∀ f, Statement (.vld f) := fun _ => Nat.le_of_ble_eq_true rfl
theorem vst : ∀ f, Statement (.vst f) := fun _ => Nat.le_of_ble_eq_true rfl
theorem vldl : ∀ f, Statement (.vldl f) := fun _ => Nat.le_of_ble_eq_true rfl
theorem vstl : ∀ f, Statement (.vstl f) := fun _ => Nat.le_of_ble_eq_true rfl
theorem vgath : ∀ f, Statement (.vgath f) := fun _ => Nat.le_of_ble_eq_true rfl
theorem vscat : ∀ f, Statement (.vscat f) := fun _ => Nat.le_of_ble_eq_true rfl
theorem vtrn : ∀ f, Statement (.vtrn f) := fun _ => Nat.le_of_ble_eq_true rfl
theorem vredr : ∀ f, Statement (.vredr f) := fun _ => Nat.le_of_ble_eq_true rfl
theorem vredc : ∀ f, Statement (.vredc f) := fun _ => Nat.le_of_ble_eq_true rfl
theorem vscan : ∀ f, Statement (.vscan f) := fun _ => Nat.le_of_ble_eq_true rfl
theorem vcvt : ∀ f, Statement (.vcvt f) := fun _ => Nat.le_of_ble_eq_true rfl
theorem vpack : ∀ f, Statement (.vpack f) := fun _ => Nat.le_of_ble_eq_true rfl
theorem vunpk : ∀ f, Statement (.vunpk f) := fun _ => Nat.le_of_ble_eq_true rfl
theorem vqnt : ∀ f, Statement (.vqnt f) := fun _ => Nat.le_of_ble_eq_true rfl
theorem vsel : ∀ f, Statement (.vsel f) := fun _ => Nat.le_of_ble_eq_true rfl
theorem pand : ∀ f, Statement (.pand f) := fun _ => Nat.le_of_ble_eq_true rfl
theorem por : ∀ f, Statement (.por f) := fun _ => Nat.le_of_ble_eq_true rfl
theorem pxor : ∀ f, Statement (.pxor f) := fun _ => Nat.le_of_ble_eq_true rfl
theorem pnot : ∀ f, Statement (.pnot f) := fun _ => Nat.le_of_ble_eq_true rfl
theorem pset : ∀ f, Statement (.pset f) := fun _ => Nat.le_of_ble_eq_true rfl
theorem vshape : ∀ f, Statement (.vshape f) := fun _ => Nat.le_of_ble_eq_true rfl
theorem loop : ∀ f, Statement (.loop f) := fun _ => Nat.le_of_ble_eq_true rfl
theorem loopIterationEnd : ∀ core, Statement (.loopIterationEnd core) := fun _ => Nat.le_of_ble_eq_true rfl
theorem rot : ∀ f, Statement (.rot f) := fun _ => Nat.le_of_ble_eq_true rfl
theorem vsets : ∀ f, Statement (.vsets f) := fun _ => Nat.le_of_ble_eq_true rfl
theorem vdone : ∀ f, Statement (.vdone f) := fun _ => Nat.le_of_ble_eq_true rfl
theorem mma : ∀ r, Statement (.mma r) := fun _ => Nat.le_of_ble_eq_true rfl
theorem dmma : ∀ r, Statement (.dmma r) := fun _ => Nat.le_of_ble_eq_true rfl
theorem mzero : ∀ r, Statement (.mzero r) := fun _ => Nat.le_of_ble_eq_true rfl
theorem mldc : ∀ r, Statement (.mldc r) := fun _ => Nat.le_of_ble_eq_true rfl
theorem mdrain : ∀ r, Statement (.mdrain r) := fun _ => Nat.le_of_ble_eq_true rfl
theorem trn : ∀ r, Statement (.trn r) := fun _ => Nat.le_of_ble_eq_true rfl
theorem cpy : ∀ r, Statement (.cpy r) := fun _ => Nat.le_of_ble_eq_true rfl
theorem cpyx : ∀ r, Statement (.cpyx r) := fun _ => Nat.le_of_ble_eq_true rfl
theorem ring : ∀ r, Statement (.ring r) := fun _ => Nat.le_of_ble_eq_true rfl
theorem mcast : ∀ r, Statement (.mcast r) := fun _ => Nat.le_of_ble_eq_true rfl
theorem fill : ∀ r, Statement (.fill r) := fun _ => Nat.le_of_ble_eq_true rfl
theorem cpya : ∀ r, Statement (.cpya r) := fun _ => Nat.le_of_ble_eq_true rfl
theorem cpyq : ∀ r, Statement (.cpyq r) := fun _ => Nat.le_of_ble_eq_true rfl
theorem ldbnd : ∀ r, Statement (.ldbnd r) := fun _ => Nat.le_of_ble_eq_true rfl
theorem scanref : ∀ r, Statement (.scanref r) := fun _ => Nat.le_of_ble_eq_true rfl
theorem reloc : ∀ r, Statement (.reloc r) := fun _ => Nat.le_of_ble_eq_true rfl
theorem relocSettle : ∀ core, Statement (.relocSettle core) := fun _ => Nat.le_of_ble_eq_true rfl
theorem gangStart : ∀ core, Statement (.gangStart core) := fun _ => Nat.le_of_ble_eq_true rfl
theorem ringStart : ∀ core, Statement (.ringStart core) := fun _ => Nat.le_of_ble_eq_true rfl
theorem taskRelease : ∀ core k, Statement (.taskRelease core k) := fun _ _ => Nat.le_of_ble_eq_true rfl
theorem taskCompletion : ∀ core h, Statement (.taskCompletion core h) := fun _ _ => Nat.le_of_ble_eq_true rfl
theorem homingCopy : ∀ core e, Statement (.homingCopy core e) := fun _ _ => Nat.le_of_ble_eq_true rfl
theorem renameRetire : ∀ core e, Statement (.renameRetire core e) := fun _ _ => Nat.le_of_ble_eq_true rfl
theorem primingCopy : ∀ core e, Statement (.primingCopy core e) := fun _ _ => Nat.le_of_ble_eq_true rfl
theorem taskAging : ∀ core h, Statement (.taskAging core h) := fun _ _ => Nat.le_of_ble_eq_true rfl
theorem taskStarvation : ∀ core h, Statement (.taskStarvation core h) := fun _ _ => Nat.le_of_ble_eq_true rfl
theorem timerWheelTick : Statement .timerWheelTick := Nat.le_of_ble_eq_true rfl
theorem homeAccess : ∀ r, Statement (.homeAccess r) := fun _ => Nat.le_of_ble_eq_true rfl
theorem reductionDeadline : ∀ sc, Statement (.reductionDeadline sc) := fun _ => Nat.le_of_ble_eq_true rfl
theorem illegalInstruction : ∀ w reserved, Statement (.illegalInstruction w reserved) := fun _ _ => Nat.le_of_ble_eq_true rfl
theorem faultRecordWrite : Statement .faultRecordWrite := Nat.le_of_ble_eq_true rfl
theorem signalPacket : Statement .signalPacket := Nat.le_of_ble_eq_true rfl
theorem postPacket : Statement .postPacket := Nat.le_of_ble_eq_true rfl
theorem fabricRead : Statement .fabricRead := Nat.le_of_ble_eq_true rfl
theorem fabricWrite : Statement .fabricWrite := Nat.le_of_ble_eq_true rfl
theorem fabricAtomic : Statement .fabricAtomic := Nat.le_of_ble_eq_true rfl
theorem errorCompletion : Statement .errorCompletion := Nat.le_of_ble_eq_true rfl
theorem planeDown : Statement .planeDown := Nat.le_of_ble_eq_true rfl
theorem planeUp : Statement .planeUp := Nat.le_of_ble_eq_true rfl
theorem fenceMarker : Statement .fenceMarker := Nat.le_of_ble_eq_true rfl
theorem fenceMarkerAnswer : Statement .fenceMarkerAnswer := Nat.le_of_ble_eq_true rfl
theorem queuePermit : Statement .queuePermit := Nat.le_of_ble_eq_true rfl
theorem queueFill : Statement .queueFill := Nat.le_of_ble_eq_true rfl
theorem queueFillLine : Statement .queueFillLine := Nat.le_of_ble_eq_true rfl
theorem queueClose : Statement .queueClose := Nat.le_of_ble_eq_true rfl
theorem queueBreak : Statement .queueBreak := Nat.le_of_ble_eq_true rfl
theorem queueSuspend : Statement .queueSuspend := Nat.le_of_ble_eq_true rfl
theorem queueResume : Statement .queueResume := Nat.le_of_ble_eq_true rfl
theorem tileWalkSend : Statement .tileWalkSend := Nat.le_of_ble_eq_true rfl
theorem tileWalkSlotAnswered : Statement .tileWalkSlotAnswered := Nat.le_of_ble_eq_true rfl
theorem reductionAllocate : Statement .reductionAllocate := Nat.le_of_ble_eq_true rfl
theorem reductionContribute : Statement .reductionContribute := Nat.le_of_ble_eq_true rfl
theorem appraiserConfiguration : Statement .appraiserConfiguration := Nat.le_of_ble_eq_true rfl
theorem appraiserWeightWrite : Statement .appraiserWeightWrite := Nat.le_of_ble_eq_true rfl
theorem routeLineWrite : Statement .routeLineWrite := Nat.le_of_ble_eq_true rfl
theorem coreFailure : Statement .coreFailure := Nat.le_of_ble_eq_true rfl
theorem linePoison : Statement .linePoison := Nat.le_of_ble_eq_true rfl
theorem hostWrite : Statement .hostWrite := Nat.le_of_ble_eq_true rfl
theorem hostRead : Statement .hostRead := Nat.le_of_ble_eq_true rfl
theorem restore : Statement .restore := Nat.le_of_ble_eq_true rfl
theorem save : Statement .save := Nat.le_of_ble_eq_true rfl
theorem quiesce : Statement .quiesce := Nat.le_of_ble_eq_true rfl
theorem resetPart : Statement .resetPart := Nat.le_of_ble_eq_true rfl
theorem signal : Statement .signal := Nat.le_of_ble_eq_true rfl
theorem write : Statement .write := Nat.le_of_ble_eq_true rfl
theorem fenceCommand : Statement .fenceCommand := Nat.le_of_ble_eq_true rfl
theorem link : Statement .link := Nat.le_of_ble_eq_true rfl
theorem replay : Statement .replay := Nat.le_of_ble_eq_true rfl
theorem timebase : Statement .timebase := Nat.le_of_ble_eq_true rfl
theorem tagload : Statement .tagload := Nat.le_of_ble_eq_true rfl
theorem partcfg : Statement .partcfg := Nat.le_of_ble_eq_true rfl
theorem cqtailDoorbell : Statement .cqtailDoorbell := Nat.le_of_ble_eq_true rfl
theorem cqheadWrite : Statement .cqheadWrite := Nat.le_of_ble_eq_true rfl
theorem commandQueueRun : Statement .commandQueueRun := Nat.le_of_ble_eq_true rfl
theorem commandQueueStop : Statement .commandQueueStop := Nat.le_of_ble_eq_true rfl
theorem lselWrite : Statement .lselWrite := Nat.le_of_ble_eq_true rfl
theorem flconsWrite : Statement .flconsWrite := Nat.le_of_ble_eq_true rfl
theorem ovfClear : Statement .ovfClear := Nat.le_of_ble_eq_true rfl
theorem istatClear : Statement .istatClear := Nat.le_of_ble_eq_true rfl
theorem lostarrClear : Statement .lostarrClear := Nat.le_of_ble_eq_true rfl
theorem steppedClear : Statement .steppedClear := Nat.le_of_ble_eq_true rfl
theorem ptpcfgWrite : Statement .ptpcfgWrite := Nat.le_of_ble_eq_true rfl
theorem registerWrite : Statement .registerWrite := Nat.le_of_ble_eq_true rfl
theorem leaseRenewal : Statement .leaseRenewal := Nat.le_of_ble_eq_true rfl
theorem leaderStop : Statement .leaderStop := Nat.le_of_ble_eq_true rfl
theorem leaseTakeover : Statement .leaseTakeover := Nat.le_of_ble_eq_true rfl
theorem powerUp : Statement .powerUp := Nat.le_of_ble_eq_true rfl
theorem clockStepChange : Statement .clockStepChange := Nat.le_of_ble_eq_true rfl
theorem sensorUpdate : Statement .sensorUpdate := Nat.le_of_ble_eq_true rfl
theorem ptpSync : Statement .ptpSync := Nat.le_of_ble_eq_true rfl
theorem ptpMasterLoss : Statement .ptpMasterLoss := Nat.le_of_ble_eq_true rfl
theorem getMeasurements : Statement .getMeasurements := Nat.le_of_ble_eq_true rfl
theorem getCertificate : Statement .getCertificate := Nat.le_of_ble_eq_true rfl
theorem challenge : Statement .challenge := Nat.le_of_ble_eq_true rfl
theorem keeperFailure : Statement .keeperFailure := Nat.le_of_ble_eq_true rfl
theorem correctedSoftError : Statement .correctedSoftError := Nat.le_of_ble_eq_true rfl

end Sys2Proof.Laws.OneForm
end

