-- ==== Sys2Proof/Tests/Slice0.lean ====
section
/-! SUPPORT. Tests: words written out from the spec's encodings, ill-formed terms that the checks refuse, single steps on
small states, and, for each statement with hypotheses, states and operands that meet them. -/

open Sys2Proof Sys2Proof.Machine

namespace Sys2Proof.Tests

set_option maxRecDepth 1000000
set_option exponentiation.threshold 4096
set_option Elab.async false

/-! ### Small states -/

/-- Context K0 of core 0 runs at a docent word. -/
def placed (w : Nat) : State := State.reset.withFetchWord 32 w

/-- The same at a NOP. -/
def idle : State := placed 0xC0000000

/-- An address of the commons of die 0, in the partition's own bank. -/
def home (o : Nat) : Word := idle.fetchPlace + BitVec.ofNat 64 o

/-- A general register of the acting context set. -/
def reg (s : State) (r : XReg) (v : Word) : State := s.becomes (s.acting.setX r v)

/-- The acting context at level S. -/
def sup (s : State) : State := s.becomes { s.acting with level := .s }

/-- An outstanding load of X5 from `home 64`. -/
def pending (op : LoadOp) : PendingLoad := ⟨5, home 64, .d, true, op, 7, .u, .core, 0, false⟩

/-- A context that waits for it. -/
def loading (op : LoadOp) : State := idle.becomes { idle.acting with load := some (pending op), seq := 8 }

/-- A queued store of 8 bytes to `home 64`. -/
def queued : StoreReq := ⟨home 64, .d, 0x1122334455667788, none, false, .core, .u, 0, 0, none, false, none⟩

/-- A context with it. -/
def storing : State := idle.becomes { idle.acting with stores := [queued] }

/-- A step's operands. -/
def given (s : State) (a : Arg) : State := { s with arg := a }

theorem awaits_not {x : Context} {r : List XReg} (h : x.load = none) : ¬ x.Awaits r := by
  rintro ⟨l, h', -⟩; simp [h] at h'

theorem awaits_of {x : Context} {r : List XReg} {l : PendingLoad} (h : x.load = some l) (m : l.dest ∈ r) : x.Awaits r :=
  ⟨l, h, m⟩

theorem idle_ready {r : List XReg} : ¬ idle.acting.Awaits r := awaits_not (by decide)

theorem loading_waits : (loading .load).acting.Awaits [3, 5] := awaits_of (l := pending .load) (by decide) (by decide)

/-! ### Witnesses: hypotheses of the statements -/

/-- StepRunsDecoded. -/
theorem witness_StepRunsDecoded_docent : idle.deviceFailed = false ∧ idle.pick.2 = .unit (.docent 0) ∧
    (idle.pick.1.instrOf idle.pick.2).2 = some .nop ∧ idle.halted (.unit (.docent 0)) = false ∧
    (idle.ctx idle.me).state = .running ∧
    (match ((idle.setCtx idle.me { idle.ctx idle.me with ranAt := idle.now }).fetch idle.me (idle.ctx idle.me).pc).2 with
      | .ok (w, _) => w == 0xC0000000#32
      | _ => false) = true := by decide +kernel

theorem witness_StepRunsDecoded_vector :
    let s := State.reset.withFetchWord 64 0x7400000000000000
    s.halted (.unit (.vector 0)) = false ∧ (s.core 0).vec.task ≠ none ∧ s.waiting (.unit (.vector 0)) = false ∧
    (s.vectorEntry 0).causes.stops = false ∧ ((s.core 0).vec.loops.toList.any fun l => l.active && l.last + 1 == (s.core 0).vec.next) = false ∧
    (s.core 0).vec.kernel[(s.core 0).vec.next]? = some 0x7400000000000000 := by decide +kernel

theorem witness_StepRunsDecoded_record :
    let s := State.reset.withFetchWord 512 (0x34 * 2 ^ 56)
    s.halted (.unit (unitOf 0 .copy)) = false ∧ s.waiting (.unit (unitOf 0 .copy)) = false ∧
    (s.engine 0 .copy).handle = some 0 ∧ ((s.entry 0 0).record .copy).isSome = true := by decide +kernel

theorem witness_StepRunsDecoded_event : idle.halted (.event .timerWheelTick .none) = false ∧
    idle.keepsFault (.event .timerWheelTick .none) = false ∧ idle.holdsLine (.event .timerWheelTick .none) = false := by decide +kernel

/-- StepKeepsCanonical. -/
theorem witness_StepKeepsCanonical : idle.mem.wf ∧ idle.tags.wf ∧ (match step idle with
    | .next t => t.acting.pc == idle.acting.pc + 4
    | _ => false) = true := by decide +kernel

/-- AluInstructions, SelInstruction, FieldInstructions, ImmediateInstructions: ready, and stalled on a load of X5. -/
theorem witness_registers : ¬ idle.acting.Awaits [1, 2, 3] ∧ (loading .load).acting.Awaits [3, 5] ∧
    fieldFits 63 0 = true ∧ fieldFits 63 1 = false := ⟨idle_ready, loading_waits, by decide, by decide⟩

/-- BranchInstructions: taken and not taken, and targets aligned and not. -/
theorem witness_BranchInstructions : ¬ idle.acting.Awaits [1, 2] ∧ idle.acting.pc.toNat % 4 = 0 ∧
    idle.acting.getX 1 = idle.acting.getX 2 ∧ (reg idle 1 3).acting.getX 1 ≠ (reg idle 1 3).acting.getX 2 ∧
    ((reg idle 1 3).acting.getX 1).toNat % 4 ≠ 0 ∧
    (idle.becomes { idle.acting with pc := 2 }).acting.pc.toNat % 4 ≠ 0 := ⟨idle_ready, by decide⟩

/-- RegisterFrame, IssueLeavesMemory. -/
theorem witness_RegisterFrame : (Instr.add 1 2 3).registerOnly = true ∧ (Instr.add 1 2 3).destination = some 1 ∧
    (Instr.stD 1 2 8).storesNothing = true ∧ (match exec (.add 1 2 3) idle with
      | .next _ => true
      | _ => false) = true := by decide +kernel


/-- LoadsIssue: a legal and a misaligned access; an indexed one. -/
theorem witness_LoadsIssue : let s := reg idle 1 (home 64)
    s.acting.load = none ∧ s.acting.fenced = false ∧ (loading .load).acting.load ≠ none ∧
    s.accessFault s.me .any (BitVec.ofInt 64 ((s.acting.getX 1).toInt + (8#16).toInt)) 8 false = none ∧
    s.accessFault s.me .any (BitVec.ofInt 64 ((s.acting.getX 1).toInt + (3#16).toInt)) 8 false = some 0x04 ∧
    s.accessFault s.me .any
      (BitVec.ofNat 64 ((s.acting.getX 1).toNat + (s.acting.getX 2).toNat * 2 ^ (3#2).toNat)) 8 false = none := by decide +kernel

/-- What a read answers. -/
def reads (r : State × Got (List Byte)) (n : Nat) : Bool :=
  match r.2 with
  | .ok l => l.length == n
  | _ => false

/-- What a place answers. -/
def finds (r : State × Got (List Nat)) : Bool :=
  match r.2 with
  | .ok [_] => true
  | _ => false

/-- Answers with no value. -/
def goes (r : State × Got Unit) : Bool :=
  match r.2 with
  | .ok _ => true
  | _ => false

/-- Answers whether a part of the write waits. -/
def writes (r : State × Got Bool) (parts : Bool) : Bool :=
  match r.2 with
  | .ok p => p == parts
  | _ => false

/-- LoadsReturn: a load that is to be made, and one whose reply comes. -/
theorem witness_LoadsReturn : let s := loading .load
    let h := idle.becomes { idle.acting with load := some { pending .load with homed := true }, seq := 8 }
    (s.ctx s.me).load = some (pending .load) ∧ s.target (home 64) = idle.target (home 64) ∧
    (match s.target (home 64) with
      | .remote _ => false
      | _ => true) = true ∧
    ((s.overlaps s.me (home 64) 8 ((s.ctx s.me).stores.take (pending .load).before)).all fun w => w.1.amo.isNone) = true ∧
    (pending .load).homed = false ∧ ((h.ctx h.me).load.map fun l => l.homed) = some true ∧
    (∀ l, (h.ctx h.me).load = some l → l.scope = .core) ∧
    reads (s.readVa { s.docentAgent s.me (.load s.me 7) with sup := false } (home 64) 8) 8 = true ∧
    (idle.ctx idle.me).load = none := by decide +kernel

/-- StoresIssue: a queue with room and a full one. -/
theorem witness_StoresIssue : let s := reg idle 1 (home 64)
    let full := idle.becomes { idle.acting with stores := List.replicate 16 queued }
    s.acting.load = none ∧ s.acting.fenced = false ∧ s.acting.stores.length < 16 ∧ 16 ≤ full.acting.stores.length ∧
    s.accessFault s.me .any (home 64) 8 false = none ∧ s.accessFault s.me .stloc (home 64) 8 false = none ∧
    (s.accessFault s.me .any (home 63) 8 false).isSome = true ∧
    (match s.target (home 64) with
      | .remote _ => false
      | _ => true) = true := by decide +kernel

/-- StoresPerform. -/
theorem witness_StoresPerform : let s := storing
    let ag : Agent := { s.docentAgent s.me (.store s.me) with sup := false }
    (s.ctx s.me).stores = [queued] ∧ s.waiting (.store s.me) = false ∧ queued.amo = none ∧ queued.ret = none ∧ queued.parted = false ∧
    s.heldByLoad s.me (s.side queued.addr) 0 = false ∧
    (let h := storing.becomes { storing.acting with load := some (pending .load) }
     h.heldByLoad h.me (h.side queued.addr) 0 = true) ∧
    (let l := s.leaves s.me queued
     match l.1.locateAll ag queued.addr with
      | (t, .ok ([k], [])) => !t.moving k && !isHostKey k && (t.verify (k / 64)).2 &&
          (List.range 8).all fun i => t.followsAt l.2 (k + i)
      | _ => false) = true ∧ (idle.ctx idle.me).stores = [] := by decide +kernel

/-- The running task owns rows 8 to 15 of 64 bytes. -/
def owning : State := idle.setEntry 0 0 { idle.entry 0 0 with
  state := .running
  image := vset (idle.entry 0 0).image 3 (BitVec.ofNat 64 (24 + 8 * 2 ^ 5 + 8 * 2 ^ 17 + 64 * 2 ^ 40)) }

/-- TileAccess: inside and outside the task's regions, and a row past the tile store. -/
theorem witness_TileAccess : let s := reg owning 1 8
    s.acting.load = none ∧ s.acting.fenced = false ∧ (∀ w ∈ s.acting.stores, s.side w.addr ≠ 0) ∧
    s.heldByLoad s.me 0 s.acting.stores.length = false ∧ s.tileFault 8 0 .d = none ∧ s.tileFault 0 0 .d = none ∧ s.tileFault 4000 0 .d ≠ none ∧
    (s.entry s.focus s.acting.task).tileRow false 4 0 8 = none ∧
    (s.entry s.focus s.acting.task).tileRow true 8 0 8 = some 8 ∧ reads (s.readKey (tileKey s.focus 8 0) 8) 8 = true ∧
    (s.verify (tileKey s.focus 8 0 / 64)).2 = true := by decide +kernel

/-- Atomics. -/
theorem witness_Atomics : let s := reg idle 1 (home 64)
    let t := loading (.amo .add 5)
    s.acting.load = none ∧ s.acting.fenced = false ∧ s.accessFault s.me .atomic (home 64) 8 true = none ∧
    s.accessFault s.me .own (home 64) 8 true = none ∧ (t.ctx t.me).load = some (pending (.amo .add 5)) ∧
    (pending (.amo .add 5)).open_ = true ∧
    (∀ w ∈ (t.ctx t.me).stores.take (pending (.amo .add 5)).before, t.side w.addr ≠ t.side (home 64)) ∧
    (match (t.rmw { t.docentAgent t.me (.load t.me 7) with sup := false } (home 64) 8
        (fun s old => s.atomicValue t.me (.amo .add 5) 8 old)).2 with
      | .ok old => old == 0
      | _ => false) = true := by decide +kernel

/-- Fences: nothing to wait for, a store to wait for, and both levels. -/
theorem witness_Fences : idle.acting.load = none ∧ idle.acting.stores = [] ∧ storing.acting.stores ≠ [] ∧
    idle.acting.trailing = false ∧ idle.faultDue idle.me = false ∧ idle.acting.fencing = false ∧ idle.acting.written = [] ∧ idle.acting.level = .u ∧ (sup idle).acting.level = .s ∧
    idle.accessFault idle.me .own (home 64) 8 false = none := by decide +kernel

/-- A context parked at a WAITA of X5. -/
def waiting : State := idle.becomes { idle.acting with
  state := .parked, park := .waita 5 (home 64) (BitVec.allOnes 64) 1 .eq, seq := 8 }

/-- WaitInstruction. -/
theorem witness_WaitInstruction : let s := reg idle 1 (home 64)
    s.acting.load = none ∧ s.acting.fenced = false ∧ s.accessFault s.me .own (home 64) 8 false = none ∧
    s.overlaps s.me (home 64) 8 s.acting.stores = [] ∧ goes (s.waitTest s.me (home 64) 0 0 .eq (.retry s.me)) = true ∧
    (waiting.ctx waiting.me).state = .parked ∧ (waiting.ctx waiting.me).seq = 7 + 1 ∧
    goes (waiting.waitTest waiting.me (home 64) (BitVec.allOnes 64) 1 .eq (.waita waiting.me 8)) = true := by decide +kernel

/-- NopTrapBrk, TrapEntry, EretInstruction: with a vector and without, at both levels, EPC aligned and not. -/
theorem witness_TrapEntry : let s := idle.becomes { idle.acting with tvec := 0x1000, level := .s, epc := 0x2000 }
    let t := idle.becomes { idle.acting with tvec := 0 }
    s.acting.tvec ≠ 0 ∧ s.acting.state = .running ∧ t.acting.tvec = 0 ∧ s.acting.load = none ∧
    s.acting.pc.toNat % 4 = 0 ∧ (loading .load).acting.load ≠ none ∧ idle.acting.level = .u ∧ s.acting.level = .s ∧
    s.acting.epc.toNat % 4 = 0 ∧ (s.becomes { s.acting with epc := 0x2002 }).acting.epc.toNat % 4 ≠ 0 := by decide +kernel

/-- TurnsAndTime. -/
theorem witness_TurnsAndTime : let s := (idle.setCore 0 { idle.core 0 with turn := 256 }).setCtx ⟨0, 1⟩ { idle.acting with state := .ready };
    (s.ctx ⟨0, (s.core 0).cur⟩).state = .running ∧ 256 ≤ (s.core 0).turn ∧ (s.ctx ⟨0, 1⟩).state = .ready ∧
    (∀ j, j ≠ idle.me.ctx → (idle.ctx ⟨idle.focus, j⟩).state ≠ .ready) ∧
    ¬ idle.acting.Awaits [3] := ⟨by decide, by decide, by decide, by decide +kernel, idle_ready⟩

/-- DoneEndsTask: a suppressed access, and none. -/
theorem witness_DoneEndsTask : idle.acting.suppressed = false ∧
    (idle.becomes { idle.acting with suppressed := true }).acting.suppressed = true := by decide +kernel

/-- SystemRegisters: both levels, reserved bits set and clear. -/
theorem witness_SystemRegisters : idle.acting.load = none ∧ idle.acting.level = .u ∧ (sup idle).acting.level = .s ∧
    ((reg idle 1 3).acting.getX 1).toNat < 4 ∧ 32 ≤ ((reg idle 1 64).acting.getX 1).toNat ∧
    ((reg idle 1 64).acting.getX 1).toNat % 64 = 0 ∧ ((reg idle 1 3).acting.getX 1).toNat % 64 ≠ 0 := by decide +kernel

/-- StagingAndBounds. -/
theorem witness_StagingAndBounds : ¬ idle.acting.Awaits [1, 2] := idle_ready

/-- What a posting answers. -/
def enters (r : State × Posting) : Bool :=
  match r.2 with
  | .entered _ => true
  | _ => false

/-- The acting context has staged the header `w`. -/
def staging (s : State) (w : Word) : State :=
  s.becomes { s.acting with staging := vset s.acting.staging 0 w }

/-- The acting context has staged a JOIN of kind 0. -/
def joining : State := idle.becomes { idle.acting with staging := joinImage 1 }

/-- A core whose catalogue is closed. -/
def closed : State := idle.setCore 0 { idle.core 0 with closed := true }

/-- A core whose catalogue is full. -/
def filled : State := idle.setCore 0 { idle.core 0 with
  entries := Vector.replicate 256 { Entry.free with state := .held } }

/-- Posting: room, a closed and a full catalogue, a reserved kind, and a JOIN. -/
theorem witness_Posting : let s := joining
    ¬ s.acting.Awaits [5] ∧ enters (s.enterTask s.focus s.acting.staging [] false (.retry s.me)) = true ∧
    enters (idle.enterTask idle.focus (joinImage 1) [] false (.retry idle.me)) = true ∧
    (closed.core closed.focus).closed = true ∧ (idle.core idle.focus).closed = false ∧
    6 ≤ (vget (staging idle 6).acting.staging 0).toNat % 8 ∧
    (vget (filled.acting.staging) 0).toNat % 8 < 6 :=
  ⟨awaits_not (by decide), by decide +kernel⟩

theorem witness_Posting_full : ∀ h, (filled.entry filled.focus h).state ≠ .free := by
  intro h
  have f : filled.focus = 0 := by decide +kernel
  rw [f, State.entry, filled, State.core_setCore_same]
  simp [vget]

/-- A poster waits at the head of the catalogue's queue. -/
def posting : State := let s := joining.becomes { joining.acting with state := .parked, park := .post (.post 3) }
  s.setCore 0 { s.core 0 with posters := [0] }

theorem witness_Posting_parked : let q := posting.setCore 0 { posting.core 0 with posters := [] }
    (posting.core 0).posters = [0] ∧ (posting.ctx ⟨0, 0⟩).park = .post (.post 3) ∧
    enters (q.enterTask 0 (posting.ctx ⟨0, 0⟩).staging [] true (.retry ⟨0, 0⟩)) = true := by decide +kernel


/-- PostRemote: a load of `postr` outstanding, and none. -/
theorem witness_PostRemote_reply : ((loading .postr).ctx idle.me).load = some (pending .postr) ∧
    (idle.ctx idle.me).load = none := by decide +kernel

/-- A packet of two words at `home 64`, for this device. -/
def packed : State := idle.storeKey (match idle.locateWrite idle.refAgent (home 64) .own with
  | (_, .ok [k]) => k
  | _ => 0) (bytesOf 8 0x101 ++ bytesOf 8 0) false

theorem witness_PostRemote : let s := reg (reg packed 1 (home 64)) 2 (BitVec.ofNat 64 packed.devId.toNat)
    s.acting.load = none ∧ s.acting.fenced = false ∧ postrBad (s.acting.getX 2).toNat = false ∧
    s.accessFault s.me .any (s.acting.getX 1) 16 false = none ∧ BitVec.ofNat 10 ((s.acting.getX 2).toNat % 1024) = s.devId ∧
    (match s.syncRead s.me (home 64) 8 with
      | (t, .ok l) => match t.syncWords t.me (home 64 + 8) (2 * bits (wordOf l).toNat 8 5 - 1) with
        | (_, .ok ws) => ws.length == 1
        | _ => false
      | _ => false) = true := by decide +kernel

/-- Guards: FREE, OPEN, and none FREE. -/
theorem witness_Guards : let s := idle.setCore 0 { idle.core 0 with guards := Vector.replicate 32 .opened }
    ¬ idle.acting.Awaits [5] ∧ vget (idle.core idle.focus).guards 0 = .free ∧
    (∀ g, vget (s.core s.focus).guards g ≠ .free) ∧ vget (s.core s.focus).guards 31 = .opened :=
  ⟨idle_ready, by decide⟩

/-- Counters: legal and illegal thresholds and arrivals, a phase that is and one that is not. -/
theorem witness_Counters : ¬ idle.acting.Awaits [1] ∧ ((reg idle 1 0xFFFFFFFF).acting.getX 1).toNat < 2 ^ 32 ∧
    2 ^ 32 ≤ ((reg idle 1 0x100000000).acting.getX 1).toNat ∧ (idle.counter idle.focus 255).expect = 0 ∧
    -(2 ^ 31 : Int) ≤ ((reg idle 1 0xFFFFFFFF80000000).acting.getX 1).toInt ∧
    (2 ^ 31 : Int) ≤ ((reg idle 1 0x80000000).acting.getX 1).toInt ∧ (idle.counter idle.focus 0).phase = false :=
  ⟨idle_ready, by decide⟩

/-- Cores 0 and 1 are group 3 of partition 0. -/
def grouped (n : BitVec 8) (g : GState) : State := idle.setGroup 3
  { idle.group 3 with members := 3, part := 0, arrived := n, state := g }

/-- Groups: no member, a BROKEN group, the last member and an earlier one. -/
theorem witness_Groups : idle.rankOf 0 3 = none ∧ (grouped 0 .broken).rankOf 0 3 = some 0 ∧
    ((grouped 0 .broken).group 3).state = .broken ∧ ((grouped 1 .opened).group 3).state ≠ .broken ∧
    ((grouped 1 .opened).core 0).arrived.contains 3 = false ∧
    ((grouped 1 .opened).group 3).arrived.toNat + 1 = ((grouped 1 .opened).group 3).size ∧
    ((grouped 0 .idle).group 3).arrived.toNat + 1 ≠ ((grouped 0 .idle).group 3).size := by decide +kernel


/-! ### References -/

/-- Commons line of `home o`. -/
def spot (s : State) (o : Nat) : Nat :=
  match s.locateWrite s.refAgent (home o) .own with
  | (_, .ok [k]) => k
  | _ => 0

/-- A reference of null in the line at `home 64`. -/
def nulled : State := match idle.writeRef (home 64) 0 true with
  | (t, _) => t

/-- References: an unsettled context; LDREF of a null reference and of a word that is none; REFEQ, MKREF of null. -/
theorem witness_References : (loading .load).settled idle.me = false ∧ idle.settled idle.me = true ∧
    idle.accessFault idle.me .any (home 64) 8 false = none ∧
    (match nulled.readRef (home 64) with
      | (s, .ok (w, true)) => (match s.resumed.refPresent w with
        | (_, .ok (v, none)) => v == w
        | _ => false)
      | _ => false) = true ∧
    (match (idle.readRef (home 64)).2 with
      | .ok (w, false) => w == 0
      | _ => false) = true ∧
    (match (idle.refPresent 0).2 with
      | .ok (w, none) => w == 0
      | _ => false) = true ∧
    writes (idle.writeRef (home 64) 0 true) false = true ∧ idle.acting.getH 3 = 0 := by decide +kernel

/-- The tables of a heap in a state: die 0 is mapped by a leaf of 1 GiB, the gallery table is in the commons, gallery 0 stands
at 2^26, and its object at granule 4 has 16 bytes. -/
def heaped (s : State) : State :=
  let s := s.setPart 0 { s.part 0 with
    mwin := vset (s.part 0).mwin 0 0x100
    roots := vset (s.part 0).roots 0 0x1000
    heap := home 128 }
  let s := s.storeKey 0x1000 (bytesOf 8 7) false
  let s := s.storeKey (commonsKey 0 128) (bytesOf 8 0x4000001 ++ bytesOf 8 0x3000 ++ bytesOf 8 0x3800) false
  s.storeKey 0x4000040 (bytesOf 8 16) false

/-- The same in the idle state. -/
def showing : State := heaped idle

/-- The object's reference. -/
def statue : Word := 0x1000000

/-- H3 holds it. -/
def holding : State := showing.becomes (showing.acting.setH 3 statue)

/-- References: MKREF of an object. -/
theorem witness_References_object : holding.settled holding.me = true ∧ holding.acting.getH 3 ≠ 0 ∧
    (match (holding.refPresent statue).2 with
      | .ok (w, some g) => w == statue && g.base == 0x4000000
      | _ => false) = true := by decide +kernel

/-- What looking its object up leaves: the walker's copies. -/
def seen : State := { holding with copies := [⟨0, 1099511627904, 0x4000001⟩, ⟨0, 1099511627912, 0x3000⟩,
  ⟨0, 1099511627920, 0x3800⟩, ⟨0, 1099511627928, 0⟩, ⟨0, 4096, 7⟩, ⟨0, 14336, 0⟩] }

theorem seen_copies : (holding.refPresent statue).1.copies = seen.copies ∧
    (holding.refPresent statue).1.free = seen.free := by decide +kernel

/-- References: PIN and UNPIN. -/
theorem witness_References_pin :
    goes (seen.pinWord seen.refAgent ⟨0x4000000, 2 ^ 26, 0, 0x3000, 0x3800⟩ statue.toNat true) = true ∧
    goes (seen.pinWord seen.refAgent ⟨0x4000000, 2 ^ 26, 0, 0x3000, 0x3800⟩ statue.toNat false) = true := by
  decide +kernel

/-- References: LDH and STH. -/
theorem witness_References_fields : (match (holding.fieldOf 3 (signedImm 8#16)).2 with
      | .ok (w, va) => w == statue && va == 0x4000058
      | _ => false) = true ∧
    reads (seen.readVa seen.refAgent 0x4000058 8) 8 = true ∧ writes (seen.writeRef 0x4000058 5 false) false = true := by
  decide +kernel

/-- The object has moved to granule 8; the word at `home 64` still names granule 4. -/
def evacuated : State :=
  let s := showing.storeKey 0x3000 (bytesOf 8 0x1000001 ++ bytesOf 8 0x2000000) false
  let s := s.storeKey 0x3800 [1] false
  match s.writeRef (home 64) statue true with
  | (t, _) => t

/-- References: LDREF of a word that it heals. -/
theorem witness_References_heal : (match evacuated.readRef (home 64) with
    | (s, .ok (w, true)) => (match s.resumed.refPresent w with
      | (t, .ok (v, some _)) => w == statue && v == 0x2000000 && writes (t.resumed.heal (home 64) w v) false
      | _ => false)
    | _ => false) = true := by decide +kernel

/-- References: CASH at `home 64`, which holds null. -/
theorem witness_References_cash : idle.accessFault idle.me .any (home 64) 8 true = none ∧
    (match idle.target (home 64) with
      | .remote _ => false
      | _ => true) = true ∧
    (match nulled.locateWrite nulled.refAgent (home 64) .never with
      | (s1, .ok keys) => !s1.resumed.moving (keys.headD 0) && (match s1.resumed.readRef (home 64) with
        | (s2, .ok (w, true)) => (match s2.resumed.refPresent w with
          | (s3, .ok (old, none)) => (match s3.resumed.refPresent 0 with
            | (t, .ok (p, none)) => old == 0 && p == 0 && writes (t.resumed.writeRef (home 64) 0 true) false
            | _ => false)
          | _ => false)
        | _ => false)
      | _ => false) = true := by decide +kernel


/-! ### Queues, prefixes -/

/-- A descriptor of two slots of one line, at rows 100 and 101, to core 1 of this device (Table 5.7). -/
def binding : Word × Word := (BitVec.ofNat 64 (2 ^ 28), BitVec.ofNat 64 (100 * 2 ^ 5 + 2 * 2 ^ 17 + 64 * 2 ^ 40 + 2 ^ 52))

/-- It stands at `home 64`. -/
def bound : State := idle.storeKey (spot idle 64) (bytesOf 8 binding.1.toNat ++ bytesOf 8 binding.2.toNat) false

/-- Queue 2 of core 0 is in a state. -/
def queueing (q : QState) : State := bound.setQueue 0 2 { Queue.reset with
  state := q, word0 := binding.1, word1 := binding.2 }

/-- QueueInstructions: CLOSED with a legal descriptor, OPEN, BROKEN, quiet and named by a task. -/
theorem witness_QueueInstructions : ¬ bound.acting.Awaits [1] ∧ (home 64).toNat % 16 = 0 ∧ (home 68).toNat % 16 ≠ 0 ∧
    (match (bound.syncWords bound.me (home 64) 2).2 with
      | .ok l => l == [binding.1, binding.2]
      | _ => false) = true ∧
    (bound.queue 0 2).state = .closed ∧
    descriptorBad (bound.annexRow (bound.partOf 0)) binding.1 binding.2 = false ∧
    (∀ m, m ≠ 2 → (bound.queue 0 m).state = .closed) ∧
    bound.target (home 68) ≠ .bad ∧ bound.accessFault bound.me .any (home 64) 16 false = none ∧ ((queueing .opened).queue 0 2).state = .opened ∧
    ((queueing .broken).queue 0 2).state = .broken ∧ (queueing .opened).queueQuiet 0 2 0 = true :=
  ⟨awaits_not (by decide), by decide⟩

/-- A task on another handle names queue 2, in slot 2. -/
def named : State := (queueing .opened).setEntry 0 7 { Entry.free with
  state := .running, image := vset Entry.free.image 7 (BitVec.ofNat 64 (5 + 8 + 2 * 32)) }

/-- QueueInstructions: a QCLOSE at the program counter, which waits. -/
theorem witness_QueueInstructions_close : let s := placed (formA 0x3B 0 0 0 (64 + 2))
    (match (s.fetch s.me (s.ctx s.me).pc).2 with
      | .ok (w, _) => match decodeDocent w with
        | .ok i => i == .qclose 2
        | _ => false
      | _ => false) = true ∧ (s.ctx s.me).state = .running ∧
    ((queueing .opened).ctx (queueing .opened).me).state = .running ∧ named.queueQuiet 0 2 0 = false := by decide +kernel

/-- ImxPairs: a prefix and ADDI X1, X2, 5; a word that takes none; the last word of a line. -/
theorem witness_ImxPairs : let s := (placed 0xFC000000).storeKey (commonsKey 0 4) (bytesOf 4 (formI 0x02 1 2 5)) false
    s.acting.pc.toNat % 64 ≠ 60 ∧ s.acting.load = none ∧
    (match (s.fetch s.me s.acting.pc).2 with
      | .ok (_, w) => w == BitVec.ofNat 32 (formI 0x02 1 2 5)
      | _ => false) = true ∧
    decodeDocent (BitVec.ofNat 32 (formI 0x02 1 2 5)) = .ok (.addi 1 2 5) ∧
    decodeDocent (BitVec.ofNat 32 (formA 0x00 1 2 3 1)) = .ok (.add 1 2 3) ∧ (Instr.add 1 2 3).takesPrefix = false ∧
    (s.becomes { s.acting with pc := s.acting.pc + 60 }).acting.pc.toNat % 64 = 60 := by decide +kernel


/-! ### Engines -/

/-- The vector engine of core 0 at the first of two words, with the shape 2 × 2. -/
def shaped : State := let s := State.reset.withFetchWord 64 0
  s.setVec 0 { s.vec with shape := 0x20002, kernel := [0, 0], s := vset s.vec.s 0 (BitVec.ofNat 64 (8 + 2 ^ 23)) }

/-- A word of two sources V1 and V2, of s32 elements, under P0. -/
def word32 : VWord := ⟨0, 0, 0x0B, 0, 1, 2, 0, 0⟩

/-- VectorRegisters: 40 bytes to V3 of at most 64. -/
theorem witness_VectorRegisters : shaped.vec.v.wf ∧ shaped.vec.z.wf ∧ (List.replicate 40 (7 : Byte)).length ≤ 64 ∧
    (2#8 : BitVec 8) ≠ 0xC0#8 ∧ shaped.vec.reg 2 ≠ shaped.vec.reg 3 ∧ (3#3 : BitVec 3) ≠ 0 := by decide +kernel

/-- VectorArithmetic, PredicateResults, VectorMoves, Reductions, VectorFrame: operands that pass, and a shape that fails. -/
theorem witness_VectorArithmetic : (elOf 0x0B#5).bytes = 4 ∧ shaped.vec.operandsOk 4 [(1, 4), (2, 4)] = true ∧
    (State.reset.withFetchWord 64 0).vec.operandsOk 8 [(1, 8), (2, 8)] = false ∧ shaped.vec.predOk = true ∧
    (shaped.setVec 0 { shaped.vec with shape := 0 }).vec.predOk = false ∧ shaped.Follows ∧
    shaped.vec.shapeOk 4 = true ∧ specTile word32.a = true ∧ (shaped.vec.scalar 0xD1).toNat < shaped.vec.size ∧
    shaped.vec.rows * 4 ≤ 2048 ∧ shaped.vec.cols * 4 ≤ 2048 ∧ word32.auxBit 6 = false := by
  unfold State.Follows
  decide +kernel

/-- VectorControl: an active loop that ends here, and goes round or not. -/
theorem witness_VectorControl : let v := { shaped.vec with
      next := 1, loops := vset shaped.vec.loops 0 ⟨0, 0, 1, true, 2⟩ }
    (vget v.loops 0).active = true ∧ (vget v.loops 0).last + 1 = v.next ∧
    (∀ e, 0 < e → ((vget v.loops e).active && (vget v.loops e).last + 1 == v.next) = false) ∧
    (vget v.lc 0 + 1).toNat < (vget v.loops 0).count ∧
    (vget (vset v.lc 0 (1#32)) 0 + 1).toNat ≥ (vget v.loops 0).count := by decide +kernel

/-- Its task has the rows 8 to 15, of 64 bytes, for reading and writing. -/
def stored : State := shaped.setEntry 0 0 { shaped.entry 0 0 with
  image := vset (shaped.entry 0 0).image 3 (BitVec.ofNat 64 (24 + 8 * 2 ^ 5 + 8 * 2 ^ 17 + 64 * 2 ^ 40)) }

/-- VLD and VST of s32 by the place in S0. -/
def load32 : VWord := ⟨0, 0, 0x0B, 0, 0xD0, 0, 0, 0⟩

/-- VectorStorage: a load and a store that pass their checks and reach their places; a shape that fails. -/
theorem witness_VectorStorage : let v := stored.vec
    let p := v.place load32 true
    ((Causes.when (!v.shapeOk 4) causeFormat).or (stored.placeCauses 0 p 4 false)).stops = false ∧
    ((Causes.when (!v.shapeOk 40000) causeFormat).or (stored.placeCauses 0 p 4 false)).stops = true ∧
    (match (stored.readAll (stored.taskAgent 0 (.vector 0))
        (v.positions.map fun q => some (stored.placeAt 0 p false q.1 (q.2 * 4) 4)) ⟨none, Causes.none, []⟩).2 with
      | some a => !a.causes.stops && a.found.length == 4 && a.found.all fun x => match x with
        | some (some _) => true
        | _ => false
      | none => false) = true ∧
    (match (stored.aimAll (stored.taskAgent 0 (.vector 0))
        (v.positions.map fun q => (stored.placeAt 0 p true q.1 (q.2 * 4) 4, bytesOf 4 7)) Causes.none []).2 with
      | some (k, l) => !k.stops && l.length == 4
      | none => false) = true := by decide +kernel

/-- A record with no operands, and an MZERO of one column of the accumulator. -/
def blank : Rec := ⟨0, 0, 0, 0, false, false, false, false, false, false, 0, 0x0001000100010001, 0, 0, 0, 0⟩
def zeroing : Rec := { blank with c := BitVec.ofNat 112 (5 * 2 ^ 109) }

/-- A task of kind 2 or 4 that its engine has taken. -/
def engaged (i : Instr) : State := State.reset.withFetchWord 512 ((encodeRecord i).getD 0)

/-- EngineRecords: a record that passes its checks, one that fails them, and one under way. -/
theorem witness_EngineRecords : let s := engaged (.mzero zeroing)
    let q := engaged (.cpy blank)
    (s.engine s.focus .matrix).handle = some 0 ∧ (s.engine s.focus .matrix).started = false ∧
    ((s.entry s.focus 0).record .matrix == some (.mzero zeroing)) = true ∧
    (s.mzeroPlan (s.entry 0 0) zeroing).bad.stops = false ∧ (s.entry 0 0).chain.illegal = false ∧
    ((s.mzeroPlan (s.entry 0 0) zeroing).hull.or (s.queueGate 0 (s.entry 0 0))).status = 0 ∧
    (s.core 0).chains.failed = [] ∧
    (q.engine q.focus .copy).handle = some 0 ∧ (q.cpyPlan (q.entry 0 0) blank).bad.stops = true ∧
    ((q.setEngine 0 .copy { q.engine 0 .copy with started := true }).engine 0 .copy).started = true := by decide +kernel

/-- A task of kind `k`, PENDING with nothing to wait for. -/
def released (k : Nat) : State := idle.setEntry 0 9 { Entry.free with
  state := .pending, ctrLatched := true, timeLatched := true
  image := vset Entry.free.image 0 (BitVec.ofNat 64 k) }

/-- Registrar: a release, and completions of both kinds. -/
theorem witness_Registrar : let q := (released 4).makeReady 0 (kindCode .copy)
    (q.core 0).unitFree .copy = true ∧ q.releaseWaits 0 .copy = false ∧
    ((best (q.candidates 0 (kindCode .copy))).map fun a => a.job) = some (.task 9) ∧
    goes (q.pinSlots 0 9 (q.registrarAgent 0 (.release 0 .copy 9)) ((q.entry 0 9).objects.drop 0)) = true ∧ ((engaged (.mzero zeroing)).entry 0 0).kind = 2 ∧
    ((engaged (.mzero zeroing)).entry 0 0).state = .running ∧ ((engaged (.cpy blank)).entry 0 0).kind ≠ 2 ∧
    (q.entry 0 9).state = .ready := by decide +kernel

/-- A rename entry that is homing, its hidden copy in the copy engine; and one that is priming. -/
def homed (j : Job) : State := let s := idle.setCore 0 { idle.core 0 with
    renames := vset (idle.core 0).renames 5 { vget (idle.core 0).renames 5 with state := .homing, priming := true } }
  s.setCore 0 { s.core 0 with copy := { (s.core 0).copy with job := j } }

theorem witness_Registrar_renames : (vget ((homed (.homing 5)).core 0).renames 5).state = .homing ∧
    ((homed (.homing 5)).core 0).copy.job = .homing 5 ∧
    (vget ((homed (.priming 5)).core 0).renames 5).priming = true ∧
    ((homed (.priming 5)).core 0).copy.job = .priming 5 := by decide +kernel


/-! ### Several cores, the fabric -/

/-- An MMA of the group form in group 3, whose members are core 0 alone; and a RING of cores 0 and 1. -/
def joined : State := let s := engaged (.mma { blank with spec := 0x10000000, tail := 3 })
  s.setGroup 3 { s.group 3 with members := 1, part := 0 }

theorem witness_JointRecords_gang : let r : Rec := { blank with spec := 0x10000000, tail := 3 }
    joined.taken .matrix 0 = some (0, .mma r) ∧ gangOf (.mma r) = some (r, false) ∧
    joined.gang 0 r = some [(0, 0, r, false)] ∧ joined.gangAgrees [(0, 0, r, false)] = true ∧
    joined.gangAgrees [(0, 0, r, false), (1, 0, { r with fb := 1 }, false)] = false := by decide +kernel

/-- A gang of one member that passes its checks; its loop nest is empty. -/
def gangRec : Rec := { blank with
  fa := 1, fb := 1, fc := 1, spec := 0x10000000, trips := 0x0001000100010000, tail := 3, a := BitVec.ofNat 112 (2 ^ 109)
  b := BitVec.ofNat 112 (2 ^ 110 + 3 * 2 ^ 95), c := BitVec.ofNat 112 (5 * 2 ^ 109) }

def ganged : State := let s := engaged (.mma gangRec)
  s.setGroup 3 { s.group 3 with members := 1, part := 0 }

theorem witness_JointRecords_gang_checks :
    (let s := ganged
     s.taken .matrix 0 = some (0, .mma gangRec) ∧ s.gang 0 gangRec = some [(0, 0, gangRec, false)] ∧
     (s.engine 0 .matrix).started = false ∧ (s.gangCauses (0, 0, gangRec, false)).1.stops = false ∧
     (s.gangCauses (0, 0, gangRec, false)).2.status = 0) ∧
    (joined.engine 0 .matrix).started = false ∧
    (joined.gangCauses (0, 0, { blank with spec := 0x10000000, tail := 3 }, false)).1.stops = true ∧
    ganged.gangCores ganged.focus (gangRec.tailBits 0 8) 4 = some [0] := by decide +kernel

/-- A RELOC under way. -/
def moved : State := let s := engaged (.reloc blank)
  s.setEngine 0 .copy { s.engine 0 .copy with reloc := .moved 0 64 64 [7] 0x4000 0 0 }

theorem witness_JointRecords_reloc : (moved.copying.map fun x => x.1) = some 0 ∧ moved.taken .copy 0 = some (0, .reloc blank) ∧
    (moved.engine moved.focus .copy).reloc = .moved 0 64 64 [7] 0x4000 0 0 ∧ (moved.entry 0 0).causes.data = false ∧
    (moved.entry 0 0).causes.access = false ∧ moved.unanswered (.copy 0) 0 0 = false ∧
    (let t : State := { moved with requests := [⟨1, 3, 0, .unit (.copy 0) 0 0⟩] }
     t.unanswered (.copy 0) 0 0 = true) := by decide +kernel

/-- A RING of cores 0 and 1 of group 3, by one place, of one line of slot 0. -/
def turning : Rec := { blank with
  spec := 1, tail := BitVec.ofNat 48 (3 * 2 ^ 9), a := BitVec.ofNat 112 (2 ^ 109), c := BitVec.ofNat 112 (2 ^ 109) }

def ringing : State := let s := engaged (.ring turning)
  s.setGroup 3 { s.group 3 with members := 3, part := 0 }

theorem witness_JointRecords_ring : (ringing.copying.map fun x => x.1) = some 0 ∧
    ringing.gangCores ringing.focus (turning.tailBits 9 8) 160 = some [0, 1] ∧ 0 < turning.specBits 0 8 ∧
    turning.specBits 0 8 < 2 ∧ ((ringing.entry 0 0).ringCauses turning).stops = false ∧
    ringing.ringOf 0 turning = none := by decide +kernel

/-- Both members' records. -/
def rung : State := (ringing.setEntry 1 0 (ringing.entry 0 0)).setEngine 1 .copy (ringing.engine 0 .copy)

theorem witness_JointRecords_ring_checks : rung.taken .copy 0 = some (0, .ring turning) ∧
    rung.ringOf 0 turning = some [(0, 0, turning), (1, 0, turning)] ∧
    (∀ c ∈ [(0 : CoreId), 1], (rung.ringChecks c (rung.entry c 0) turning).1.stops = false ∧
      (rung.ringChecks c (rung.entry c 0) turning).2.status = 0) := by decide +kernel

/-- DelayedEvents: a context with its task, and a task that is done. -/
theorem witness_DelayedEvents : let x := idle.ctx idle.me
    let d := idle.setEntry 0 x.task { idle.entry 0 x.task with done := true }
    x.state ≠ .empty ∧ (idle.entry 0 x.task).done = false ∧ x.load = none ∧ (d.entry 0 x.task).done = true := by
  decide +kernel

/-- A packet of another device, held for core 0. -/
def letter : Packet := ⟨3, 0, none, false, 0, 0, [0x101, 0], 1, Vector.replicate 4 0, some 0⟩

theorem witness_DelayedEvents_packet : let s : State := { idle with heldPackets := [⟨letter, 0, false⟩] }
    s.heldPackets[0]? = some ⟨letter, 0, false⟩ ∧
    (s.heldPackets.find? fun z => s.wantsEntry 0 z && (s.heldOfPair z.packet).head? == some z) = some ⟨letter, 0, false⟩ ∧
    (∀ c, s.physical letter.part letter.core = some c → (s.core c).waitingPosts = []) ∧
    (match (s.takePacket letter true).2 with
      | .answered _ => true
      | _ => false) = true := by decide +kernel

/-- An allocation of slot 0 by partition 0: a sum of f32, one element, its status at address 0 of this device (Table 12.6). -/
def allotting : State := { idle.setPart 0 { idle.part 0 with rslot := 1 } with
  arg := .slot 0 (.record 0) ([0x0804, 0, 0, idle.devId.toNat * 2 ^ 47, 0, 0, 0, 0].flatMap (bytesOf 8)) (Vector.replicate 4 0) }

theorem witness_ReductionAndAppraisers : let s := allotting
    (s.slot 0).opened = false ∧
    s.allocationBad 0 0 [0x0804, 0, 0, idle.devId.toNat * 2 ^ 47, 0, 0, 0, 0] = false ∧
    ((s.setSlot 0 { s.slot 0 with opened := true }).slot 0).opened = true ∧ s.waiting (.slot 0) = false ∧
    ((s.setSlot 0 { s.slot 0 with opened := true, due := 0 }).slot 0).due ≤ s.time.toNat ∧
    s.time.toNat < ((s.setSlot 0 { s.slot 0 with opened := true, due := 256 }).slot 0).due ∧ (s.slot 0).parked = none ∧
    (let q : State := { s with appraisers := vset s.appraisers 4 { s.appraiser 4 with config := BitVec.ofNat 64 (1 + 2 * 2 ^ 28) } }
     q.scorer 0 2 = some 4 ∧ ((q.setQueue 0 2 { Queue.reset with state := .opened, routes := 1 }).queue 0 2).routes = 1) ∧
    configBad [2 ^ 22 + 2 ^ 44, 0, 0, 0, 0, 0, 0, 0] = false ∧ tagFmt 0 = 0 ∧ tagFmt (makeTag 1 0 0 []) ≠ 0 := by
  decide +kernel

/-- A request of device 3, plane 0. -/
def asker : FabricSrc := ⟨3, 0, 1, 0⟩

/-- FabricRequests: a read, a line read, stores and an atomic at `home 64`; a marker; a plane. -/
theorem witness_FabricRequests : let s := idle
    let ag := s.fabricAgent asker .fabricRead
    s.answered asker.dev asker.seq = none ∧ s.waitsAlready asker = false ∧ s.sourceWaits asker = false ∧
    (s.part 0).state = .running ∧
    s.reachable (home 64) = true ∧ (home 64).toNat % 64 = 0 ∧ reads (s.readVa ag (home 64) 8) 8 = true ∧
    (match (s.replyLines ag (home 64) 1).2 with
      | .ok l => l.length == 1
      | _ => false) = true ∧
    (match s.locateWrite (s.fabricAgent asker .fabricWrite) (home 64) .all with
      | (t, .ok ks) => goes (t.storeAt (s.fabricAgent asker .fabricWrite) ks (bytesOf 8 1) false)
      | _ => false) = true ∧
    (match s.target (home 64) with
      | .aperture _ => false
      | _ => true) = true ∧
    (match (s.aimLines (s.fabricAgent asker .fabricWrite) (home 64) true 1).2 with
      | .ok l => l.length == 1
      | _ => false) = true ∧
    (match (s.rmw (s.fabricAgent asker .fabricAtomic) (home 64) 8 fun q o => (q, some (o + 1))).2 with
      | .ok o => o == 0
      | _ => false) = true := by decide +kernel

/-- A record of a fault waits to be written. -/
def recorded : State := { idle with arg := .part 0 0, records := [⟨0, #v[0, 0, 0, 0]⟩] }

theorem witness_FabricRequests_records :
    ((recorded.records.find? fun r => r.part == 0).map fun r => r.part) = some 0 ∧
    ((recorded.part 0).flprod - (recorded.part 0).flcons).toNat < 2 ^ (recorded.part 0).flsize.toNat := by decide +kernel

/-- FabricRequests: a request unanswered, a context with its markers, and no leader. -/
theorem witness_FabricRequests_answers : let s : State := { idle with requests := [⟨9, 3, 0, .marker idle.me 3 0 1⟩] }
    ((s.requests.find? fun x => x.seq == 9).map fun r => r.dev) = some 3 ∧ s.leads = false ∧
    (idle.ctx idle.me).fseq = 0 ∧
    ((idle.becomes { idle.acting with fseq := 1, markers := [(3, 0)] }).ctx idle.me).fseq = 1 := by decide +kernel

/-- A PERMIT of device 3 for queue 2 of core 0, and a FILL of one line into its slot 1. -/
def lineTo (w : Word) : QLine := ⟨3, 0, 0, 0, 0, 0, 2, w, 1, Vector.replicate 4 0, some 0⟩

/-- QueueLines: lines that land at a CLOSED queue and at an OPEN one of their sender. -/
theorem witness_QueueLines : let l := lineTo (controlWord 2 1 1 0 0)
    let s : State := { idle with arg := .qline l [] 0 }
    let q : Queue := { Queue.reset with state := .opened, word0 := BitVec.ofNat 64 (2 ^ 28 + 3), word1 := binding.2 }
    s.Lands l [] 0 0 (s.mergeClock (dieOf 0) l.clock) ∧
    (s.queue 0 2).state = .closed ∧ (s.queue 0 2).held.length < 8 ∧ q.outbound = false ∧ q.matchesLine l = true ∧
    64 * (l.word.toNat / 2 ^ 7 % 2 ^ 17) ≤ q.slotBytes ∧
    q.slotBytes < 64 * ((lineTo (controlWord 2 1 9 0 0)).word.toNat / 2 ^ 7 % 2 ^ 17) ∧ q.routes = 0 ∧
    (s.setQueue 0 2 { q with routes := 1 }).routing l = some 0 := by
  refine ⟨⟨rfl, ?_, ?_, ?_, ?_, rfl, .inr ⟨?_, ?_, ?_⟩⟩, ?_⟩ <;> decide +kernel

/-- QueueLines: a fill that arrives, a READY slot that leaves, and one whose lines are answered. -/
theorem witness_QueueLines_slots : let q : Queue := { Queue.reset with
      state := .opened, word0 := BitVec.ofNat 64 (2 ^ 28 + 3), word1 := binding.2, fill := some ⟨1, 2, 0, 0⟩ }
    let o : Queue := { Queue.reset with state := .opened, word0 := BitVec.ofNat 64 (2 ^ 26 + 3), order := [3], slots := vset Queue.reset.slots 3 .draining }
    let s := (idle.setQueue 0 2 q).setQueue 0 4 o
    let r : State := { idle with requests := [⟨9, 3, 0, .fillLine 0 4 3⟩] }
    (s.queue 0 2).fill = some ⟨1, 2, 0, 0⟩ ∧ (s.queue 0 2).matchesLine (lineTo 0) = true ∧
    (s.queue 0 4).outbound = true ∧ (s.queue 0 4).order = [3] ∧ (s.queue 0 4).suspended = false ∧
    vget (s.queue 0 4).slots 3 = .draining ∧ s.fillOnWay 0 4 = false ∧
    ((r.requests.find? fun x => x.seq == 9).map fun x => x.who) = some (.fillLine 0 4 3) ∧
    ({ idle with agenda := [.event .queueFillLine (.qline ⟨idle.devId, 0, 0, 4, 0, 1, 2, 0, 0, Vector.replicate 4 0, none⟩ [] 0)] } :
      State).fillOnWay 0 4 = true := by decide +kernel

/-- ErrorsAndHost. -/
theorem witness_ErrorsAndHost : (idle.core 0).failed = false ∧
    (((idle.setCore 0 { idle.core 0 with failed := true }).core 0).failed) = true ∧
    ((linesOf (devKey 0 64) 64).all fun p => !idle.moving p.1) = true := by decide +kernel

/-! ### Commands -/

/-- A packet of the device queue at host address `a`. -/
def order (a : Nat) (b : BitVec 32) (c : Nat) : Cmd := ⟨.device, false, BitVec.ofNat 16 a, b, BitVec.ofNat 64 c⟩

/-- The step's operands are a packet. -/
def ordering (s : State) (c : Cmd) : State := given s (.cmd c)

/-- A host address of a packet. -/
def hosted : Nat := 2 ^ 57 + 4096

/-- QueueCommands: packets that pass, one that fails, and the places they name. -/
theorem witness_QueueCommands : let s := ordering idle (order 0 0 hosted)
    s.packetFault .write (order 0 0 hosted) = none ∧ s.packetFault .write (order 0 0 (hosted + 1)) = some 3 ∧
    s.commandKey none hosted 4 = some (hostKey 4096) ∧ s.commandKey none 64 4 = some 64 ∧
    s.commandHeld (hostKey 4096) 4 = false ∧ s.commandHeld 64 4 = false ∧
    s.packetFault .fenceCommand (order 0 0 0) = none ∧ s.hostHeld = false ∧
    ({ s with heldMoving := [(7, .fabric .hostWrite .none)] } : State).hostHeld = true ∧ s.packetFault .link (order 1 0 hosted) = none ∧
    s.packetFault .timebase (order 0 0 9) = none ∧ s.packetFault .signal (order 0 0 hosted) = none ∧
    (s.part 0).state = .running ∧ s.packetFault .tagload (order 0 0 hosted) = none ∧
    s.packetFault .partcfg (order 0x100 0 hosted) = none ∧ (s.part 1).state = .empty := by decide +kernel

/-- QueueCommands: a block of zeros configures partition 1; a packet of 2 pairs of words; a TAGLOAD of one line. -/
theorem witness_QueueCommands_blocks :
    ((idle.fetchBytes (hostKey 4096) 128).2.map List.length) = some 128 ∧ ((idle.part 1).configured fun _ => 0).isolationOk ∧
    ((idle.part 1).configured fun i => if i = 1 then 0xFF7F else 0).isolationOk = false ∧
    (∀ o, o ≠ (1 : PartNum) → ((idle.part 1).configured fun _ => 0).disjoint (idle.part o) = true) ∧
    (let s := idle.storeKey (hostKey 4096) (bytesOf 8 0x201 ++ bytesOf 8 0) false
     ((s.fetchBytes (hostKey 4096) 8).2.map ofBytes) = some 0x201 ∧ s.commandKey none hosted 32 = some (hostKey 4096)) ∧
    (idle.commandKey (some 0) (2 ^ 57) 64).isSome = true := by decide +kernel

/-- A packet of partition 0's queue 1. -/
def wish (c : Nat) : Cmd := ⟨.part 0 1, false, 0, 0, BitVec.ofNat 64 c⟩

/-- Partition 0 without cores, with a window of 1 GiB on die 0, at a SAVE that has begun. -/
def saving : State := let s := idle.setPart 0 { idle.part 0 with
    clmask := 0, mwin := vset (idle.part 0).mwin 0 0x100, command := some (.part 0 1) }
  ordering (s.setCmdQueue (.part 0 1) { s.cmdQueue (.part 0 1) with progress := 1 }) (wish 0x100000)

theorem saving_claims : saving.Claims .save (wish 0x100000) saving := by
  have h : (saving.part 0).command = some (.part 0 1) := by decide +kernel
  refine ⟨⟨?_, ?_⟩, by simp [State.claim, Cmd.target, wish, h], ?_⟩ <;> decide +kernel

/-- PartitionCommands: a SAVE that has its partition to itself, a quiet partition, and no drain to wait for. -/
theorem witness_PartitionCommands : saving.Claims .save (wish 0x100000) saving ∧
    saving.commandKey (some 0) 0x100000 (imageBytesOf (saving.coresOf 0).length) = some 0x100000 ∧
    (saving.cmdQueue (.part 0 1)).progress ≠ 0 ∧
    (let u := (saving.coresOf 0).foldl State.finishRef (saving.refuseSent 0)
     (∀ d ∈ u.coresOf 0, u.coreSettled d = true) ∧ u.partsLeft 0 = false ∧ (∀ a ∈ u.agenda, u.savesAfter 0 a = false) ∧
     u.waiting (commandWho (wish 0x100000)) = false ∧
     (whileDone (State.healCore (commandWho (wish 0x100000))) (u.coresOf 0) u).2 = true) ∧ saving.quiet 0 = true ∧
    (∀ r ∈ saving.requests, r.who ≠ .drain 0) := by
  refine ⟨saving_claims, ?_⟩
  decide +kernel

/-- The same partition, STOPPED, at a RESTORE from an image of no cores; and at a RESET.PART. -/
def restoring : State := let s := idle.setPart 0 { idle.part 0 with
    clmask := 0, mwin := vset (idle.part 0).mwin 0 0x100, command := some (.part 0 1), state := .stopped }
  let s := s.storeKey 0x100000 (bytesOf 8 (0x43463449 + 2 ^ 32)) false
  ordering (s.storeKey 0x100040 (bytesOf 8 4096) false) (wish 0x100000)

theorem restoring_claims : restoring.Claims .restore (wish 0x100000) restoring := by
  have h : (restoring.part 0).command = some (.part 0 1) := by decide +kernel
  refine ⟨⟨?_, ?_⟩, by simp [State.claim, Cmd.target, wish, h], ?_⟩ <;> decide +kernel

/-- PartitionCommands: a good image. -/
theorem witness_PartitionCommands_restore : let t := restoring
    (t.cmdQueue (.part 0 1)).progress = 0 ∧ t.coreCount 0 = 0 ∧
    t.commandKey (some 0) 0x100000 4096 = some 0x100000 ∧ Memory.word t.mem 0x100000 8 = 4096 ∧
    t.commandKey (some 0) 0x101000 8192 = some 0x101000 ∧ t.linesOk 0x100000 4096 = true ∧
    t.linesOk 0x101000 8192 = true ∧ t.headerBad 0 0x100000 = false ∧ t.groupsBad 0 0x101000 = false ∧
    (let u := (t.setCmdQueue (.part 0 1) { t.cmdQueue (.part 0 1) with progress := 1 }).readImage 0 0x100000 0x101000
     u.waiting (commandWho (wish 0x100000)) = false ∧
     (whileDone (State.healCore (commandWho (wish 0x100000))) (u.coresOf 0) u).2 = true) := by decide +kernel

/-- PartitionCommands: a reset with no pins to wait for. -/
theorem witness_PartitionCommands_reset : let c := order 0 0 0
    let t := ordering restoring c
    let u := (t.beginReset 0).setCmdQueue .device { (t.beginReset 0).cmdQueue .device with progress := 1 }
    t.packetFault .resetPart c = none ∧ c.target = 0 ∧ allowedIn .resetPart (t.part 0).state = true ∧
    u.waiting (commandWho c) = false ∧ (whileDone (State.unpinTasks (commandWho c)) (u.coresOf 0) u).2 = true := by
  decide +kernel

/-- HostRegisters. -/
theorem witness_HostRegisters : (idle.cmdQueue .device).en = false ∧ (idle.cmdQueue .device).state ≠ .running ∧
    ((idle.setCmdQueue .device { idle.cmdQueue .device with en := true, state := .running }).cmdQueue .device).en = true ∧
    (idle.part 0).flprod = 0 ∧ (given idle (.bar 0x10050 8 3)).arg = .bar (0x10000 * ((0 : PartNum).val + 1) + 0x50) 8 3 ∧
    (4 : Word).getLsbD 2 = true ∧ (0x300 : Word).toNat / 256 % 4 = 3 := by decide +kernel

/-- KeepersTimeAttestation. -/
theorem witness_KeepersTimeAttestation : let k : Keeper := { idle.keeper 0 with alive := true, trusted := true, untrusted := true, stopped := false }
    let s : State := { (idle.setKeeper 0 k).setKeeper 1 k with lease := ⟨0, true, 1, 2000000⟩ }
    s.lease.valid = true ∧ s.lease.die = 0 ∧ (s.keeper 0).runs = true ∧ (s.keeper 0).stopped = false ∧ s.leads = true ∧
    (s.keeper 1).runs = true ∧ (s.lease.expiry.toNat + 50000 * 1 ≤ ({ s with time := 9000000 } : State).time.toNat) := by
  decide +kernel

/-- DocentRoundTrip, OtherRoundTrips: an instruction with a word, of each kind. -/
theorem witness_RoundTrips : (Instr.famo 2 6 7 .add .rna .w .package true).wf = true ∧
    (encodeDocent (.famo 2 6 7 .add .rna .w .package true)).isSome = true ∧
    (encodeKernel (.viadd word32)).isSome = true ∧ (encodeRecord (.mzero zeroing)).isSome = true ∧
    commandCode .link = some 0x08 ∧ decodeDocent 0xBC46390E#32 = .ok (.famo 2 6 7 .add .rna .w .package true) := by
  decide +kernel

/-- EveryInstructionGoes: a failed device. -/
theorem witness_EveryInstructionGoes : idle.deviceFailed = false ∧
    (match step { idle with deviceFailed := true } with
      | .fault .deviceFailed => true
      | _ => false) = true := by decide +kernel

/-! ### Witnesses of single clauses -/

/-- The fence after an atomic is not complete. -/
def trailed (s : State) : State := s.becomes { s.acting with trailing := true }

/-- LoadsIssue, StoresIssue, Atomics: an unfinished fence; an indexed access that is misaligned; an atomic at a misaligned
address; one of die scope with a store before it, and with none. -/
theorem witness_LoadsIssue_fence : (trailed idle).fenced idle.me = true ∧
    (let s := reg (reg idle 1 (home 64)) 2 3
     s.accessFault s.me .any (BitVec.ofNat 64 ((s.acting.getX 1).toNat + (s.acting.getX 2).toNat * 2 ^ (0#2).toNat)) 8 false
      = some 0x04) ∧
    (let s := reg idle 1 (home 66)
     s.fenced s.me = false ∧ s.accessFault s.me .atomic (s.acting.getX 1) 8 true = some 0x04 ∧
     s.accessFault s.me .own (s.acting.getX 1) 8 true = some 0x04) ∧
    (let s := reg storing 1 (home 128)
     s.acting.load = none ∧ s.fenced s.me = false ∧ s.acting.stores.length < 16 ∧ (s.fenceStep s.me .die).2 = false ∧
     s.accessFault s.me .atomic (s.acting.getX 1) 8 true = none) ∧
    idle.storesLeft idle.me .fabric = false ∧ idle.faultDue idle.me = false ∧ idle.acting.fencing = false ∧
    idle.acting.written = [] := by decide +kernel

/-- Fences: a store of a replicated page that waits for other dies only (R318). -/
theorem witness_Fences_parted : let s := idle.becomes { idle.acting with stores := [{ queued with parted := true }] }
    (s.ctx s.me).stores = [{ queued with parted := true }] ∧ s.storesLeft s.me .die = false ∧
    s.storesLeft s.me .package = true := by decide +kernel

/-- StoresPerform: the head of the queue parted, and a part left. -/
theorem witness_StoresPerform_parted : let s := idle.becomes { idle.acting with stores := [{ queued with parted := true }] }
    s.heldByLoad s.me (s.side queued.addr) 0 = false ∧ s.waiting (.store s.me) = false := by decide +kernel

/-- Posting: a list of one task of word 0, X2 of 1, at `home 64`; a reserved bit in its head; and X1 misaligned. -/
def listing (head : Nat) : State :=
  let s := idle.storeKey (spot idle 64) (bytesOf 8 head ++ bytesOf 8 5) false
  reg (reg s 1 (home 64)) 2 1

theorem witness_Posting_list : let s := listing 1
    s.acting.load = none ∧ (s.acting.getX 1).toNat % 8 = 0 ∧ s.acting.getX 2 ≠ 0 ∧ s.acting.posting = false ∧
    (match (s.becomes (s.acting.setX 3 0)).syncRead s.me (home 64) 8 with
      | (s1, .ok l) => (wordOf l).toNat == 1 && (match s1.syncWords s.me (home 64 + 8) 1 with
        | (s2, .ok vs) =>
          let x := ((setBits 32 1).zip vs).foldl (fun x p => x.stage (Fin.ofNat 32 p.1) p.2) (s2.ctx s.me)
          enters ((s2.setCtx s.me x).enterTask s.me.core x.staging [] false (.retry s.me))
        | _ => false)
      | _ => false) = true ∧
    (match (listing (2 ^ 32)).syncRead s.me (home 64) 8 with
      | (_, .ok l) => (wordOf l).toNat / 2 ^ 32 == 1
      | _ => false) = true ∧
    ((reg idle 1 (home 68)).acting.getX 1).toNat % 8 ≠ 0 := by decide +kernel

/-- ImxPairs: second words of a branch, a load, a store and the reference forms, and the targets of a branch. -/
theorem witness_ImxPairs_forms : (∀ p ∈ [(0x12, Instr.beq 1 2 0xFFFD), (0x18, .bz 1 0xFFFD), (0x26, .ldD 1 2 0xFFFD),
      (0x2B, .stD 1 2 0xFFFD), (0x2C, .stloc 1 2 0xFFFD), (0x37, .ldref 1 2 0xFFFD), (0x38, .stref 1 2 0xFFFD),
      (0x39, .ldh 1 2 0xFFFD), (0x3A, .sth 1 2 0xFFFD)],
      decodeDocent (BitVec.ofNat 32 (formI p.1 1 (if p.1 = 0x18 then 0 else 2) 0xFFFD)) = .ok p.2) ∧
    (BitVec.ofInt 64 (idle.acting.pc.toInt + 4 + 4 * ((1#26 ++ 0xFFFD#16 : BitVec 42)).toInt)).toNat % 4 = 0 ∧
    (let s := idle.becomes { idle.acting with pc := 2 }
     (BitVec.ofInt 64 (s.acting.pc.toInt + 4 + 4 * ((1#26 ++ 0xFFFD#16 : BitVec 42)).toInt)).toNat % 4 ≠ 0 ∧
     s.acting.pc.toNat % 64 ≠ 60 ∧ ¬ s.acting.Awaits [1, 2]) :=
  ⟨by decide +kernel, by decide +kernel, by decide +kernel, by decide +kernel, awaits_not (by decide +kernel)⟩

/-- References: CASH at a word without its REFB bit. -/
theorem witness_References_cash_refb : (match idle.locateWrite idle.refAgent (home 64) .never with
    | (s1, .ok keys) => !s1.resumed.moving (keys.headD 0) && (match (s1.resumed.readRef (home 64)).2 with
      | .ok (_, b) => !b
      | _ => false)
    | _ => false) = true := by decide +kernel

/-- VectorMoves: an index past the rows, and one past the columns, of a shape of 2 × 2. -/
theorem witness_VectorMoves_index : let v := (shaped.setVec 0 { shaped.vec with s := vset shaped.vec.s 1 2 }).vec
    (v.scalar 0xD1).toNat % 2 ^ 32 < v.size ∧ v.rows ≤ (v.scalar 0xD1).toNat % 2 ^ 32 ∧
    v.cols ≤ (v.scalar 0xD1).toNat % 2 ^ 32 := by decide +kernel

/-- VectorFrame: a word that computes and is followed, and a VST. -/
theorem witness_VectorFrame : (Instr.vmov word32).vectorComputes = true ∧ (Instr.vst load32).vectorStores = true ∧
    (encodeKernel (.vld load32)).isSome = true ∧ (Instr.vld load32).vectorStores = false ∧ stored.vec.after = none ∧
    (stored.entry stored.focus (stored.vec.task.getD 0)).pins = [] ∧
    (match exec (.pset { word32 with a := 0xD0, b := 0, aux := 1, dst := 1 }) shaped with
      | .next t => t.vec.next == shaped.vec.next + 1
      | _ => false) = true := by decide +kernel

/-! ### Replicated pages -/

/-- Die 0 maps its window as a replicated page; the other dies map nothing. -/
def mirrored : State := showing.storeKey 0x1000 (bytesOf 8 0x27) false

/-- A store to it. -/
def mirroring : State :=
  mirrored.becomes { mirrored.acting with stores := [{ queued with addr := 0x100008 }] }

/-- StoresPerform: a store that reaches the copy of die 0 alone. -/
theorem witness_StoresPerform_left : let s := mirroring
    let w := { queued with addr := 0x100008 }
    let l := s.leaves s.me w
    (s.ctx s.me).stores = [w] ∧ s.waiting (.store s.me) = false ∧ s.heldByLoad s.me (s.side w.addr) 0 = false ∧
    (match l.1.locateAll (s.storeAgent s.me w) w.addr with
      | (t, .ok (ks, left)) => ks == [0x100008] && left == [1, 2, 3] && (ks.find? t.moving).isNone && (t.verifyAll ks).2
      | _ => false) = true ∧
    (match exec (.storePerformed s.me) s with
      | .next t => t.acting.stores.map (fun x => x.parted) == [true] && Memory.byte t.mem 0x100008 == 0x88
      | _ => false) = true := by decide +kernel

/-- References: a write of which a part waits. -/
theorem witness_References_parts : writes (mirrored.writeRef 0x100008 0 true) true = true := by decide +kernel

/-- FabricRequests: a write, and a line, of which a part waits. -/
theorem witness_FabricRequests_parts : let ag := mirrored.fabricAgent asker .fabricWrite
    (match mirrored.locateAll ag 0x100008 with
      | (t, .ok p) => !p.2.isEmpty && goes (t.storeSpread ag none 0x100008 p (bytesOf 8 1) false)
      | _ => false) = true ∧
    (match (mirrored.aimLines ag 0x100040 true 1).2 with
      | .ok l => l.any Aim.parted
      | _ => false) = true ∧
    (match (idle.aimLines (idle.fabricAgent asker .fabricWrite) (home 64) true 1).2 with
      | .ok l => !l.any Aim.parted
      | _ => false) = true := by decide +kernel

/-- SystemRegisters: register numbers at the ends of the ranges of Table 1.7. -/
theorem witness_SystemRegisters_numbers : 0x00C < (0x00D#10).toNat ∧ (0x0FF#10).toNat < 0x100 ∧ 0x106 < (0x107#10).toNat ∧
    (0x00C#10).toNat ≤ 0x00C ∧ 0x100 ≤ (0x106#10).toNat ∧ (0x103#10).toNat ∉ [0x008, 0x100, 0x101, 0x102, 0x105, 0x106] ∧
    idle.acting.level = .u ∧ (sup idle).acting.level = .s := by decide +kernel

/-- A RELOC of the object to the second span, whose task may move it; its span is being evacuated. -/
def removal : Rec := { blank with tail := 4, b := BitVec.ofNat 112 (3 * 2 ^ 109) }

def relocating (r : Rec) : State :=
  let s := heaped (engaged (.reloc r))
  let s := s.setEntry 0 0 { s.entry 0 0 with
    image := vset (vset (vset (s.entry 0 0).image 3 (BitVec.ofNat 64 (26 + 0x4200040 * 32))) 5 (BitVec.ofNat 64 30)) 6
      (BitVec.ofNat 64 (4 * 2 ^ 22)) }
  s.storeKey 0x3800 [1] false

/-- JointRecords: a RELOC before its move point: an illegal record, failing checks, and what step 1 finds: an entry, pins,
and a place. -/
theorem witness_JointRecords_reloc_first : let s := relocating removal
    let ag := s.taskAgent s.focus (.copy s.focus)
    let e := s.entry 0 0
    let results (t : State) : Nat := match (t.relocChecks ag removal.object 0x4200040).2 with
      | .ok (.result n) => n
      | .ok (.go (.moved 0x4000040 0x4200040 32 [0x4000040] 0x3000 _ _)) => 3
      | .access => 4
      | _ => 5
    (s.copying.map fun x => x.1) = some 0 ∧ (s.engine s.focus .copy).reloc = .none ∧
    (removal.unusedOk {} && removal.tailBits 10 6 == 0 && removal.tailBits 23 25 == 0 &&
      removal.trips == 0x0001000100010001#64 && removal.a.ok [0] && removal.b.ok [3] && removal.b.unstrided &&
      removal.c.ok [0] && bits (e.region removal.b.slot) 0 3 == 2 && s.slotOk e removal.b) = true ∧
    blank.b.ok [3] = false ∧ (s.slotStart e removal.b.slot).getD 0 + removal.b.offset = 0x4200040 ∧
    e.mayMove removal.object = true ∧ (idle.entry 0 0).mayMove removal.object = false ∧
    (match (s.declared ag (idle.entry 0 0) removal.object).2 with
      | .ok b => !b
      | _ => false) = true ∧ results s = 3 ∧
    results (s.storeKey 0x3000 (bytesOf 8 0x1000001) false) = 2 ∧
    results (s.storeKey 0x4000048 (bytesOf 8 1) false) = 1 ∧
    results (s.storeKey 0x3000 (bytesOf 8 0x2000001 ++ bytesOf 8 0 ++ bytesOf 8 0x3000001 ++ bytesOf 8 0 ++ bytesOf 8 0x4000001 ++
      bytesOf 8 0 ++ bytesOf 8 0x5000001 ++ bytesOf 8 0) false) = 4 := by decide +kernel

/-- JointRecords: the settling of a RELOC while a part of its copy waits. -/
theorem witness_JointRecords_settle : let s : State := { moved with heldMoving := [(64, .unit (.copy 0))] }
    s.waiting (.unit (.copy 0)) = true := by decide +kernel

/-- An MMA, an MDRAIN, a CPY and a FILL of rows 8 and 9 of the tile store. -/
def multiplying : Rec := { blank with
  fa := 2, fb := 2, fc := 1, spec := 1 + 2 ^ 8, a := BitVec.ofNat 112 (2 ^ 109 + 8 * 2 ^ 75)
  b := BitVec.ofNat 112 (2 ^ 109 + 9 * 2 ^ 75), c := BitVec.ofNat 112 (5 * 2 ^ 109) }
def draining : Rec := { blank with
  fa := 1, fc := 1, spec := 1, a := BitVec.ofNat 112 (2 ^ 109 + 8 * 2 ^ 75), c := BitVec.ofNat 112 (5 * 2 ^ 109) }
def copying : Rec := { blank with a := BitVec.ofNat 112 (2 ^ 109 + 8 * 2 ^ 75), c := BitVec.ofNat 112 (2 ^ 109 + 9 * 2 ^ 75) }

/-- EngineRecords: a unit of MMA. -/
theorem witness_EngineRecords_mma : let s := stored
    let e := s.entry 0 0
    let r := multiplying
    let m := e.mma r false
    let ag := s.taskAgent 0 (.matrix 0)
    let j := m.trips.at3 0
    accType r.fc = true ∧ r.a.cls ≠ 4 ∧ r.b.cls ≠ 4 ∧ m.valid j.1 = 1 ∧ min 16 m.trips.t0 = 1 ∧
    accColAt r.c j.1 j.2.1 j.2.2 + 1 ≤ 512 ∧
    (match s.readElems ag (((List.range m.mrows).map fun (row : Nat) =>
        (s.operandRow 0 e r.a false (r.a.shift row j.1 j.2.1 j.2.2)).elems m.wa 0 1).flatten) with
      | (s1, some (ka, ea)) => (match s1.readElems ag (((List.range 1).map fun (row : Nat) =>
          (s.operandRow 0 e r.b false (r.b.shift row j.1 j.2.1 j.2.2)).elems m.wb 0 1).flatten) with
        | (_, some (kb, eb)) => !(ka.or kb).stops && (mmaRows r.fa m.wa r.sa true 0 1 ea).map List.length == some 1 &&
          (mmaRows r.fb m.wb r.sb true 0 1 eb).map List.length == some 1
        | _ => false)
      | _ => false) = true := by decide +kernel

/-- EngineRecords: a unit of MDRAIN, with no parameters and with those of a row. -/
theorem witness_EngineRecords_mdrain : let s := stored
    let e := s.entry 0 0
    let r := draining
    let ag := s.taskAgent 0 (.matrix 0)
    let j := (e.trips r).at3 0
    r.a.cls ≠ 4 ∧ r.specBits 8 2 = 0 ∧
    (match s.readElems ag [] with
      | (_, some (k, _)) => !k.stops
      | _ => false) = true ∧
    (match s.aimAll ag (drainWrites r (s.operandRow 0 e r.a true (r.a.shift 0 j.1 j.2.1 j.2.2)) 32 [0]) Causes.none [] with
      | (_, some (k, l)) => !k.stops && l.length == 1
      | _ => false) = true ∧
    (match s.readElems ag (((List.range 3).map fun (q : Nat) =>
        (s.operandRow 0 e r.a false (64 * q)).elems 32 0 1).flatten) with
      | (_, some (_, es)) => (drainParams r 1 es).map List.length == some 1
      | _ => false) = true := by decide +kernel

/-- EngineRecords: a unit of CPY, its line inside the regions and outside, and the places of a put. -/
theorem witness_EngineRecords_lines : let s := stored
    let e := s.entry 0 0
    let ag := s.taskAgent 0 (.copy 0)
    let line (d : Desc) (w : Bool) := s.lineAtIndex 0 e d w 0 0 0 0
    (match s.readWhole ag (line copying.a false) with
      | (_, some (k, d, _)) => !k.stops && d.length == 64
      | _ => false) = true ∧
    (match s.readWhole ag .bad with
      | (_, some (k, _, _)) => k.stops
      | _ => false) = true ∧
    line (BitVec.ofNat 112 (2 ^ 109)) true = .suppressed ∧ line copying.c true = .found (.tile 0 9 0) ∧
    (match (s.aim ag (.tile 0 9 0) false).2 with
      | .ok m => m == .keys [tileKey 0 9 0] [] 0
      | _ => false) = true ∧
    (let q := s.advanceClock ag.die
     ∀ i < 64, q.followsAt (q.markOf ag.die) (tileKey 0 9 0 + i) = true) ∧ tileKey 0 9 0 % 64 = 0 ∧
    isHostKey (tileKey 0 9 0) = false := by decide +kernel

/-- DoneEndsTask: an outstanding atomic that has still to be performed, one that has been, and a load. -/
theorem witness_DoneEndsTask_atomic : let s := loading (.amo .add 5)
    s.acting.load = some (pending (.amo .add 5)) ∧ (pending (.amo .add 5)).open_ = true ∧
    ((pending (.amo .add 5)).op == .load || (pending (.amo .add 5)).op == .postr) = false ∧
    idle.acting.load = none ∧ (loading .load).acting.load = some (pending .load) := by decide +kernel

/-- A contribution with word 0 `w` to slot 0, a sum of two values, whose result goes to an address of die 0. -/
def contributing (w : Nat) (va : Word) : State :=
  let s := showing.setSlot 0 { allotting.slot 0 with
    opened := true, due := 512, arrivals := [(1, [0x40000000])], alloc := #v[0x20804, 0, 0, va] }
  given s (.slot 0 (.record 0) (bytesOf 8 w ++ bytesOf 4 0x3F800000 ++ List.replicate 52 0) (Vector.replicate 4 0))


/-- ReductionAndAppraisers: contributions that are late by generation and by index, refused by index and by bits, and accepted,
as the last. -/
theorem witness_Reduction_outcomes : let x := ((contributing 0 0).slotTimeout 0).slot 0
    x.opened = true ∧ x.parked = none ∧ x.word0 / 2 ^ 27 % 2 ^ 16 = 0 ∧ x.word0 / 2 ^ 17 % 2 ^ 10 = 1 ∧ x.part = 0 ∧
    ((contributing 0 0).slotTimeout 0).partOf 0 = 0 ∧ (∀ a ∈ x.arrivals, a.1 ≠ 0) ∧ (1, [0x40000000]) ∈ x.arrivals ∧
    x.elems = 1 ∧ elOf x.ty = .fl .f32 ∧ x.op = 0 ∧ (x.arrivals.length = 1) ∧
    (({ x with arrivals := x.arrivals ++ [(0, [0x3F800000])] } : RSlot).results 0).map (·.code) = [0x40400000] ∧
    (({ x with arrivals := [] } : RSlot).results 0).map (·.code) = [0] ∧
    (({ x with arrivals := [(0, [0x7F800001])] } : RSlot).results 0).map (·.code) = [Fl.f32.canon] := by decide +kernel

/-- ReductionAndAppraisers: a result line that is written, one of which a part waits, one that misses, and one refused. -/
theorem witness_Reduction_results : let aims (s : State) (va : Word) : Nat :=
      match (s.aim (s.slotAgent 0) (.va va) false).2 with
      | .ok (.keys _ left _) => left.length
      | .wait => 4
      | .access => 5
      | _ => 6
    let s := contributing 0 0x100040
    aims s 0x100040 = 0 ∧ aims { s with mem := mirrored.mem, tags := mirrored.tags } 0x100040 = 3 ∧ aims allotting 0x100040 = 4 ∧
    aims s (BitVec.ofNat 64 (2 ^ 58)) = 5 ∧
    (let p := s.setSlot 0 { s.slot 0 with parked := some 0, parted := true }
     (p.slot 0).opened = true ∧ (p.slot 0).parked = some 0 ∧ p.waiting (.slot 0) = false) ∧
    (dueTick 1000 0 = 1024 ∧ dueTick 0 300 = 512) := by decide +kernel

/-- QueueLines: a line whose CHECK holds, and one whose does not. -/
theorem witness_QueueLines_tags : let d : List Byte := List.replicate 64 0
    lineOk d (makeTag 0 0 0 d) = true ∧ lineOk d (makeTag 0 0 0 d ^^^ 1) = false := by decide +kernel

/-- ErrorsAndHost: a core of a partition and one of none; a relocation that is not under way; a task without pins. -/
theorem witness_ErrorsAndHost_core : idle.inPart 0 = true ∧ idle.inPart 100 = false ∧ (idle.core 0).failed = false ∧
    (idle.core 100).failed = false ∧ (idle.core 0).copy.reloc = .none ∧ ((released 4).entry 0 9).state ≠ .free ∧
    ((released 4).entry 0 9).pins = [] ∧ ((grouped 0 .idle).groupsOf 0).contains 3 = true ∧
    ((queueing .opened).queue 0 2).state = .opened ∧ (let k : Packet := { letter with words := [0x201, 0, 0, 0] }
     k.bad = false ∧ k.head % 256 = 1 ∧ (vget k.image.1 0).getLsbD 9 = !k.image.2.isEmpty) := by decide +kernel

/-- ErrorsAndHost: a host write of a line, and of a part of one, on a die that has joined; a die that has not. -/
theorem witness_ErrorsAndHost_host : let k := devKey 0 64
    idle.dieJoins 0 = true ∧ (idle.setKeeper 0 { idle.keeper 0 with refused := true }).dieJoins 0 = false ∧
    (idle.copyBehind 0 k 64 (.fabric .hostRead .none) = none) ∧ (∀ p, vget (idle.part p).roots 0 = 0) ∧ (∀ p ∈ linesOf k 64, idle.moving p.1 = false) ∧
    (∀ p ∈ linesOf k 8, p.2.2 < 64 → (idle.verify (p.1 / 64)).2 = true) ∧ (linesOf k 8).length = 1 ∧
    (∀ i < 64, (idle.hostMark 0).1.followsAt (idle.hostMark 0).2 (k + i) = true) := by decide +kernel

/-- KeepersTimeAttestation: a trusted part that is refused leaves its keeper out; PTP with a leader and EN, and without. -/
theorem witness_Keepers_ptp : let s : State := { idle with ptpcfg := 0x400 }
    s.ptpcfg.getLsbD 10 = true ∧ s.leads = false ∧ idle.ptpcfg.getLsbD 10 = false ∧
    (let k : Keeper := { idle.keeper 0 with alive := true, trusted := true, untrusted := true, stopped := false }
     ({ (s.setKeeper 0 k) with lease := ⟨0, true, 1, 2000000⟩ } : State).leads = true) := by decide +kernel

/-- QueueCommands: a SIGNAL that has gone on, whose packet waits, and is at its end; clusters of dies that have joined, and one
of a die that has not. -/
theorem witness_QueueCommands_signal : let s := ordering idle (order 0 0 hosted)
    let p := s.setCmdQueue .device { s.cmdQueue .device with progress := 2 }
    let k : Packet := { letter with seq := 1, host := true }
    p.packetFault .signal (order 0 0 hosted) = none ∧ (p.cmdQueue .device).progress ≠ 0 ∧ p.packetWaits 1 = false ∧
    ({ p with stationed := [k] } : State).packetWaits 1 = true ∧ (s.cmdQueue .device).progress = 0 ∧
    (let x := (idle.part 1).configured fun i => if i = 0 then 1 else 0
     idle.clustersJoin x = true ∧ (idle.setKeeper 0 { idle.keeper 0 with refused := true }).clustersJoin x = false) := by
  decide +kernel

/-- DelayedEvents: the fault of an access that failed, and the load that it ends. -/
theorem witness_DelayedEvents_failed : let s := loading (.failed 0x0B)
    (s.ctx s.me).state ≠ .empty ∧ (s.ctx s.me).load = some (pending (.failed 0x0B)) ∧
    (pending (.failed 0x0B)).addr = home 64 := by decide +kernel

/-! ### Witnesses of the clauses on other devices, traps and parked posts -/

/-- An address of device 3, plane 0 of which is live. -/
def away : Word := BitVec.ofNat 64 (3 * 2 ^ 47 + 64)
def linked (s : State) : State := { s with live := [(3, 1)], stations := vset s.stations 0 true }

/-- A context with one store queued. -/
def sending (w : StoreReq) : State := idle.becomes { idle.acting with stores := [w] }

/-- StoresPerform: a store to another device, that leaves, that no plane takes, and whose request is out. -/
theorem witness_StoresPerform_remote : let w := { queued with addr := away }
    let s := linked (sending w)
    let r : State := { s with requests := [⟨9, 3, 0, .store s.me⟩] }
    (s.ctx s.me).stores = [w] ∧ s.waiting (.store s.me) = false ∧ s.heldByLoad s.me (s.side w.addr) 0 = false ∧
    w.parted = false ∧ s.target w.addr = .remote 3 ∧ (sending w).planeFor 3 (docentStart 3 s.me) = none ∧
    s.planeFor 3 (docentStart 3 s.me) = some 0 ∧ s.requests = [] ∧ (∃ q ∈ r.requests, q.who = .store r.me) ∧
    r.waiting (.store r.me) = false ∧ r.heldByLoad r.me (r.side w.addr) 0 = false ∧ r.target w.addr = .remote 3 := by
  decide +kernel

/-- StoresPerform: what an AMOI, an atomic that is owed, a compare-and-swap that finds another value, and a floating sum leave
at their home. -/
def atHome (w : StoreReq) : Option (Option Nat) :=
  let s := sending w
  let u := s.me
  match s.locateWrite (s.storeAgent u w) w.addr .never with
  | (s1, .ok [k]) => if s1.moving k then none else match s1.readKey k w.size.bytes with
    | (s2, .ok l) =>
      let r := (s2.readsFrom (s.storeAgent u w).die k w.size.bytes).storeValue u w w.size.bytes (ofBytes l)
      let c := (r.1.verifyAll [k]).1.advanceClock (s.storeAgent u w).die
      if !r.1.moving k && (r.1.verify (k / 64)).2 &&
        (List.range w.size.bytes).all fun i => c.followsAt (c.markOf (s.storeAgent u w).die) (k + i)
      then some r.2 else none
    | _ => none
  | _ => none

theorem witness_StoresPerform_atomic :
    (∀ w ∈ [{ queued with amo := some .add }, { queued with ret := some (.amo .add 5) },
      { queued with ret := some (.famo .add .rne 5 false) }], (sending w).waiting (.store (sending w).me) = false ∧
      (sending w).heldByLoad (sending w).me ((sending w).side w.addr) 0 = false ∧ w.parted = false) ∧
    atHome { queued with amo := some .add } = some (some 0x1122334455667788) ∧
    atHome { queued with ret := some (.amo .add 5) } = some (some 5) ∧
    atHome { queued with ret := some (.cas 1 5) } = some none ∧
    atHome { queued with ret := some (.famo .add .rne 0x3FF0000000000000 false) } = some (some 0x3FF0000000000000) := by
  decide +kernel

/-- TileAccess: the causes of a location that fails, and a line that does not verify. -/
theorem witness_TileAccess_traps : let s := reg owning 1 8
    let p := { s with tags := s.tags.set (tileKey s.focus 8 0 / 64) 0x1000000 }
    s.acting.load = none ∧ s.fenced s.me = false ∧ s.amoiQueued s.me 0 = false ∧
    (∀ w ∈ s.acting.stores, s.side w.addr ≠ 0) ∧ s.heldByLoad s.me 0 s.acting.stores.length = false ∧
    s.tileFault 3072 0 .d = some 0x05 ∧ s.tileFault 3071 2041 .d = some 0x05 ∧ s.tileFault 0 4 .d = some 0x04 ∧
    s.tileFault 3071 2040 .d ≠ some 0x04 ∧ p.tileFault 8 0 .d = none ∧
    (p.entry p.focus p.acting.task).tileRow false 8 0 8 = some 8 ∧
    (p.entry p.focus p.acting.task).tileRow true 8 0 8 = some 8 ∧
    reads (p.readKey (tileKey p.focus 8 0) 8) 8 = false ∧ (p.verify (tileKey p.focus 8 0 / 64)).2 = false ∧
    p.acting.load = none ∧ p.fenced p.me = false ∧ p.amoiQueued p.me 0 = false := by decide +kernel

/-- Fences: a context that has written device 3; and one whose markers are out, and are answered. -/
theorem witness_Fences_markers : let x := idle.acting
    let s := linked (idle.becomes { x with written := [3] })
    let f := linked (idle.becomes { x with written := [3], fencing := true, markers := [(3, 0)] })
    let g := linked (idle.becomes { x with written := [3], fencing := true })
    (∀ t ∈ [s, f, g], t.acting.load = none ∧ t.storesLeft t.me .fabric = false ∧ t.acting.trailing = false ∧
      t.faultDue t.me = false) ∧ s.acting.fencing = false ∧ s.acting.written ≠ [] ∧ f.acting.fencing = true ∧
    f.acting.markers ≠ [] ∧ g.acting.fencing = true ∧ g.acting.markers = [] ∧ planeList (s.planes 3) = [0] ∧
    (s.live.find? fun x => x.1 == 3) = some (3, 1) := by decide +kernel

/-- An entry of the wait table of home 1000, of context K1. -/
def waiter (k : Nat) : WaitEntry := ⟨1000, k, home 64, BitVec.allOnes 64, 1, .eq, ⟨0, 1⟩, 7⟩

/-- WaitInstruction: a word that is tested, and holds or not; a home that is full; a write that an entry waits for; and accesses
that trap and wait. -/
theorem witness_WaitInstruction_home : let s := idle
    let k := spot s 64
    (match s.locateRead (s.docentAgent s.me (.retry s.me)) (home 64) with
      | (s1, .ok j) => j == k && (match (s1.readKey j 8).2 with
        | .ok l => wordOf l == 0
        | _ => false)
      | _ => false) = true ∧
    waitHolds .eq (BitVec.allOnes 64) 0 0 = true ∧ waitHolds .eq (BitVec.allOnes 64) 1 0 = false ∧
    (s.waits.filter fun w => w.home == 1000).length < 32 ∧
    (let f : State := { s with waits := List.replicate 32 (waiter k) }
     (f.waits.filter fun w => w.home == 1000) = waiter k :: List.replicate 31 (waiter k) ∧
     32 ≤ (f.waits.filter fun w => w.home == 1000).length) := by decide +kernel

theorem witness_WaitInstruction_hit : let k := spot idle 64
    let s : State := { idle with waits := [waiter k] }
    let m := (s.advanceClock 0).markOf 0
    let t := (s.advanceClock 0).writeAs m [k] (bytesOf 8 1) .plain
    let n := (s.advanceClock 0).writeAs m [k] (bytesOf 8 2) .plain
    (waiter k).key < k + 8 ∧ k < (waiter k).key + 8 ∧
    waitHolds .eq (BitVec.allOnes 64) 1 (wordOf (Memory.read t.mem k 8)) = true ∧ t.waits = [] ∧
    waitHolds .eq (BitVec.allOnes 64) 1 (wordOf (Memory.read n.mem k 8)) = false ∧ n.waits = [waiter k] := by
  decide +kernel

theorem witness_WaitInstruction_stops : let s := reg idle 1 (home 64)
    (loading .load).acting.load ≠ none ∧ s.acting.load = none ∧ s.fenced s.me = false ∧
    s.accessFault s.me .own (home 60) 8 false = some 0x04 ∧ s.accessFault s.me .own (home 64) 8 false = none ∧
    s.overlaps s.me (home 64) 8 s.acting.stores = [] ∧ s.amoiQueued s.me (s.side (home 64)) = false ∧
    s.amoiQueued s.me (s.side 64) = false ∧ s.overlaps s.me 64 8 s.acting.stores = [] ∧
    s.accessFault s.me .own 64 8 false = none ∧
    (match (s.waitTest s.me 64 0 0 .eq (.retry s.me)).2 with
      | .wait => true
      | _ => false) = true ∧
    (let p : State := { s with tags := s.tags.set (spot s 64 / 64) 0x1000000 }
     match (p.waitTest p.me (home 64) 0 0 .eq (.retry p.me)).2 with
      | .data => true
      | _ => false) = true := by decide +kernel

/-- Posting: a JOIN of a closed catalogue and of a full one. -/
theorem witness_Posting_join : (closed.core closed.focus).closed = true ∧ (filled.core filled.focus).closed = false ∧
    (1 : BitVec 5) ≠ 0 := by decide +kernel

/-- What entering the list's first entry answers, with the number of its words. -/
def entryOf (s : State) (grant : Bool) : Option (Nat × State × Machine.Posting) :=
  let u := s.me
  match s.syncRead u (home 64) 8 with
  | (s1, .ok l) => if (wordOf l).toNat / 2 ^ 32 = 0 then
      let ws := setBits 32 (wordOf l).toNat
      match s1.syncWords u (home 64 + 8) ws.length with
      | (t, .ok vs) =>
        let s2 := t.setCtx u ((t.ctx u).stagedWords ws vs)
        some (ws.length, s2.enterTask u.core (s2.ctx u).staging [] grant (.retry u))
      | _ => none
    else none
  | _ => none

/-- An entry of a list that is read is one that `ReadsEntry` names. -/
theorem entryOf_reads {s : State} {grant : Bool} {n : Nat} {r : State × Machine.Posting}
    (h : entryOf s grant = some (n, r)) : ∃ ws s2, s.ReadsEntry s.me (home 64) ws s2 ∧ ws.length = n ∧
      s2.enterTask s.me.core (s2.ctx s.me).staging [] grant (.retry s.me) = r := by
  unfold entryOf at h
  dsimp only at h
  split at h
  · rename_i s1 l h1
    split at h
    · rename_i h0
      split at h
      · rename_i t vs h2
        cases h
        exact ⟨_, _, ⟨s1, t, l, vs, h1, h0, rfl, h2, rfl⟩, rfl, rfl⟩
      · cases h
    · cases h
  · cases h

/-- Posting: an entry of a list that enters, that finds the catalogue closed or full, and whose kind is reserved. -/
theorem witness_Posting_entry : let post (s : State) := (entryOf (s.becomes (s.acting.setX 3 0)) false).map fun r => r.2.2
    (match post (listing 1) with
      | some (.entered _) => true
      | _ => false) = true ∧
    (let s := listing 1
     post (s.setCore 0 { s.core 0 with closed := true }) = some .closed ∧
     post (s.setCore 0 { s.core 0 with entries := (filled.core 0).entries }) = some .full) ∧
    (let s := idle.storeKey (spot idle 64) (bytesOf 8 1 ++ bytesOf 8 6) false
     post (reg (reg s 1 (home 64)) 2 1) = some .badKind) := by decide +kernel

/-- A word of the list that cannot be read. -/
theorem witness_Posting_list_trap : let p := listing 1
    let s : State := { p with tags := p.tags.set (spot idle 64 / 64) 0x1000000 }
    (match (s.becomes (s.acting.setX 3 0)).syncRead s.me (home 64) 8 with
      | (_, .trap c) => c == 0x0B
      | _ => false) = true ∧
    (let q := idle.storeKey (spot idle 120) (bytesOf 8 1) false
     let r : State := { q with tags := q.tags.set (spot idle 128 / 64) 0x1000000 }
     match r.syncRead r.me (home 120) 8 with
      | (r1, .ok l) => (wordOf l).toNat == 1 && (match (r1.syncWords r.me (home 128) 1).2 with
        | .trap c v => c == 0x0B && v == home 128
        | _ => false)
      | _ => false) = true := by decide +kernel

/-- A context that waits, alone, to post. -/
def parkedAt (s : State) (o : PostOp) : State :=
  let t := s.becomes { s.acting with state := .parked, park := .post o }
  t.setCore 0 { t.core 0 with posters := [0] }

/-- Posting: a JOIN, and a POSTL, parked at the head of the catalogue's queue. -/
theorem witness_Posting_parked_others : let s := parkedAt idle (.join 1)
    let l := parkedAt (listing 1) (.list 3 1 2)
    (s.core 0).posters = [0] ∧ (s.ctx ⟨0, 0⟩).park = .post (.join 1) ∧ s.heldPackets = [] ∧
    (let r := s.enterTask 0 (joinImage 1) [] true (.retry ⟨0, 0⟩)
     enters r = true ∧ (r.1.ctx ⟨0, 0⟩).state = .parked) ∧
    (l.core 0).posters = [0] ∧ (l.ctx ⟨0, 0⟩).park = .post (.list 3 1 2) ∧ (l.ctx ⟨0, 0⟩).getX 2 ≠ 0 ∧
    (l.ctx ⟨0, 0⟩).getX 1 = home 64 ∧ l.me = ⟨0, 0⟩ ∧
    (match entryOf l true with
      | some (n, r) => n == 1 && enters r && (r.1.ctx ⟨0, 0⟩).state == .parked
      | none => false) = true := by decide +kernel

/-- PostRemote: reserved bits, a misaligned and a failing packet, and a packet for another device, with a plane and without. -/
theorem witness_PostRemote_away : postrBad (2 ^ 18) = true ∧ postrBad (2 ^ 48) = true ∧ postrBad (2 ^ 48 - 2 ^ 44 + 2 ^ 18 - 1) = false ∧
    (home 72).toNat % 16 ≠ 0 ∧ packed.target (home 72) ≠ .bad ∧
    packed.accessFault packed.me .any (home 72) 16 false = some 0x04 ∧
    (let p := packed
     let s : State := { p with tags := p.tags.set (spot idle 64 / 64) 0x1000000 }
     (match (s.syncRead s.me (home 64) 8).2 with
      | .trap c => c == 0x0B
      | _ => false) = true) ∧
    (let s := reg (reg packed 1 (home 64)) 2 3
     let q (s : State) : State := (match s.syncRead s.me (home 64) 8 with
      | (s1, .ok l) => (s1.syncWords s.me (home 64 + 8) (2 * bits (wordOf l).toNat 8 5 - 1)).1
      | _ => s)
     s.acting.load = none ∧ s.acting.fenced = false ∧ postrBad (s.acting.getX 2).toNat = false ∧
     BitVec.ofNat 10 ((s.acting.getX 2).toNat % 1024) ≠ (q s).devId ∧ (q s).planeFor 3 (docentStart 3 s.me) = none ∧
     (q (linked s)).planeFor 3 (docentStart 3 s.me) = some 0) := by decide +kernel

/-- Groups: a core that has arrived already; and a member parked at each GBAR. -/
theorem witness_Groups_again : let s := (grouped 1 .opened).setCore 0 { idle.core 0 with arrived := [3] }
    let park (b : Bool) : State := (grouped 2 .opened).setCtx ⟨1, 0⟩ { idle.acting with state := .parked, park := .gbar 3 b }
    s.rankOf s.focus 3 ≠ none ∧ (s.group 3).state ≠ .broken ∧ (s.core s.focus).arrived.contains 3 = true ∧
    ∀ b, (park b).memberCores 3 = [0, 1] ∧ ((park b).ctx ⟨1, 0⟩).state = .parked ∧
      ((park b).ctx ⟨1, 0⟩).park = .gbar 3 b := by decide +kernel

/-- QueueInstructions: an illegal descriptor, and a box that meets that of queue 2. -/
theorem witness_QueueInstructions_illegal :
    descriptorBad (bound.annexRow (bound.partOf 0)) (binding.1 + 2 ^ 31) binding.2 = true ∧
    (bound.queue 0 5).state = .closed ∧
    (let s := queueing .opened
     (s.queue 0 5).state = .closed ∧ (2 : QNum) ≠ 5 ∧ (s.queue 0 2).state ≠ .closed ∧
     (s.queue 0 2).box.meets (boxOf binding.2.toNat) = true ∧
     (s.queue 0 2).box.meets (boxOf (binding.2 + BitVec.ofNat 64 (2 ^ 6)).toNat) = false ∧
     (match (s.syncWords s.me (home 64) 2).2 with
      | .ok l => l == [binding.1, binding.2]
      | _ => false) = true) := by decide +kernel

/-- VectorStorage: a load that meets a line without verification, and one that is aimed at no place. -/
theorem witness_VectorStorage_stops : let v := stored.vec
    let p := v.place load32 true
    let s : State := { stored with tags := stored.tags.set (tileKey 0 8 0 / 64) 0x1000000 }
    (match (s.readAll (s.taskAgent 0 (.vector 0)) [some (.found (.tile 0 8 0) : Reach)]
        ⟨none, Causes.none, []⟩).2 with
      | some a => a.causes.stops
      | none => false) = true ∧
    (match (stored.readAll (stored.taskAgent 0 (.vector 0)) [some (.bad : Reach)] ⟨none, Causes.none, []⟩).2 with
      | some a => a.causes.stops
      | none => false) = true ∧ (stored.placeCauses 0 p 4 false).stops = false := by decide +kernel

/-- ReductionAndAppraisers: an allocation that breaks R363, one of another device, a contribution of another device that is
late, refused and accepted, and a line written to its aperture. -/
theorem witness_Reduction_fabric : let w : List Nat := [0x0804, 0, 0, idle.devId.toNat * 2 ^ 47, 0, 0, 0, 0]
    let f (s : State) (n : Nat) : State := { s with
      arg := .slot 0 (.fabric asker) (bytesOf 8 n ++ bytesOf 4 0x3F800000 ++ List.replicate 52 0) (Vector.replicate 4 0) }
    let c := f (contributing 0 0) 0
    let x := (c.slotTimeout 0).slot 0
    allotting.allocationBad 0 0 (w.set 0 (0x0804 + 2 ^ 48)) = true ∧ c.Serves asker ∧
    (f allotting 0).Serves asker ∧ (((f allotting 0).slotTimeout 0).slot 0).opened = false ∧
    x.opened = true ∧ x.parked = none ∧ x.word0 / 2 ^ 27 % 2 ^ 16 = 0 ∧ (∀ a ∈ x.arrivals, a.1 ≠ 0) ∧
    x.word0 / 2 ^ 17 % 2 ^ 10 < 2 := by
  simp only [State.Serves]
  decide +kernel

theorem witness_Reduction_aperture : let va : Word := BitVec.ofNat 64 (idle.devId.toNat * 2 ^ 47 + 0x1FFFFA000040)
    let d : List Byte := List.replicate 64 0
    let s : State := { idle with arg := .store asker va d [] }
    s.target va = .aperture 0x1FFFFA000040 ∧ va.toNat % 64 = 0 ∧ d.length = 64 ∧ s.waitsAlready asker = false ∧
    s.sourceWaits asker = false ∧ apertureStep 0x1FFFFA000040 (.fabric asker) (Vector.replicate 4 0) d 0
      = some (.reductionContribute, .slot 0 (.fabric asker) d (Vector.replicate 4 0)) := by decide +kernel

/-- ReductionAndAppraisers: an appraiser's configuration by another device, and one that R369 refuses for each field. -/
theorem witness_Appraiser_refused : let good := 2 ^ 22 + 2 ^ 44
    (({ idle with arg := .appraiser 4 (.fabric asker) 0 [] 0 } : State).arg = .appraiser 4 (.fabric asker) 0 [] 0) ∧
    configBad [good, 0, 0, 0, 0, 0, 0, 0] = false ∧
    ∀ ws ∈ [[2 ^ 44], [9 * 2 ^ 22 + 2 ^ 44], [good + 3 * 2 ^ 26], [good + 160 * 2 ^ 32], [2 ^ 22], [good + 2 ^ 56],
      [good, 1], [good + 2 * 8191 + 2 ^ 14 * 255], [good + 2 * 8192 - 2]], configBad ws = (ws != [good + 2 * 8192 - 2]) := by
  decide +kernel

/-- FabricRequests: requests served for the first time; one that waits here already and comes on another plane; and one behind
another of its source. -/
theorem witness_FabricRequests_again :
    let a : Arg := .read asker (home 64) 8
    let s : State := { idle with arg := a, behind := [⟨0, 0, 0, .fabric .fabricRead a⟩] }
    let o : FabricSrc := { asker with seq := asker.seq + 1 }
    let t : State := { s with arg := .read o (home 64) 8 }
    ({ idle with arg := a } : State).Serves asker ∧
    s.answered asker.dev asker.seq = none ∧ s.waitsAlready asker = true ∧
    t.answered o.dev o.seq = none ∧ t.waitsAlready o = false ∧ t.sourceWaits o = true := by
  simp only [State.Serves]
  decide +kernel

/-- ErrorsAndHost: a read of a copy of a replicated page of which a part waits, and of one where none does. -/
theorem witness_ErrorsAndHost_copy : let s := mirrored
    let who : Requester := .fabric .hostRead .none
    let x : WritePart := ⟨0, 0, idle.devId, 0, 0, false, 0x100000, [1], .plain, idle.markOf 0⟩
    let p : State := { s with heldMoving := [(0x4000040, .part who x)] }
    s.dieJoins 0 = true ∧ s.copyBehind 0 (devKey 0 0x100000) 64 who = none ∧
    p.copyBehind 0 (devKey 0 0x100000) 64 who = some ⟨0, 0, 16, who⟩ := by decide +kernel

/-- The task of `stored`, with these regions in its slots 1 and 2. -/
def keeping (r1 r2 : Nat) : State :=
  let e := stored.entry 0 0
  stored.setEntry 0 0 { e with image := vset (vset (vset (vset e.image 5 (BitVec.ofNat 64 r1)) 6
    (BitVec.ofNat 64 (r1 / 2 ^ 64))) 7 (BitVec.ofNat 64 r2)) 8 (BitVec.ofNat 64 (r2 / 2 ^ 64)) }

/-- Elements of one row of the tile store that a unit reads. -/
def gets (s : State) (k : Kind) (row w n : Nat) : Option (Causes × List Elem) :=
  (s.readElems (s.taskAgent 0 (unitOf 0 k)) ((s.operandRow 0 (s.entry 0 0) (BitVec.ofNat 112 (2 ^ 109 + row * 2 ^ 75)) false 0).elems
    w 0 n)).2

/-- EngineRecords: units of MLDC and TRN that read an f32 element, and that read outside the task's places. -/
theorem witness_EngineRecords_elements : let s := stored
    (match gets s .matrix 8 32 1 with
      | some (k, es) => !k.stops && (es.mapM fun x => (x.read (.el (elOf 1)) 32 0).map (·.2)) == some [0]
      | none => false) = true ∧ accColAt (BitVec.ofNat 112 (5 * 2 ^ 109)) 0 0 0 + accCols 1 * 1 ≤ 512 ∧
    (match gets s .matrix 4000 32 1 with
      | some (k, _) => k.stops
      | none => false) = true ∧
    (match gets s .transpose 8 32 1 with
      | some (k, l) => !k.stops && (l.mapM (trnElem false true 1)).map List.length == some 1
      | none => false) = true ∧
    (match (s.aimAll (s.taskAgent 0 (.transpose 0)) ((s.operandRow 0 (s.entry 0 0) (BitVec.ofNat 112 (2 ^ 109 + 9 * 2 ^ 75)) true
        0).writes 32 [0]) Causes.none []).2 with
      | some (k, l) => !k.stops && l.length == 1
      | none => false) = true := by decide +kernel

/-- EngineRecords: CPYX by the index that row 8 holds, by −1 with SKIP, by the index kept, and by one outside. -/
theorem witness_EngineRecords_index : let s := stored
    let r : Rec := { copying with b := BitVec.ofNat 112 (2 ^ 109 + 8 * 2 ^ 75), spec := 2 }
    let at_ (s : State) (r : Rec) (fresh : Bool) : Option (Bool × Int) :=
      (s.rowIndex 0 (s.entry 0 0) r fresh 0 0 0).2.map fun x => (x.1.stops, x.2)
    let neg := s.storeKey (tileKey 0 8 0) (bytesOf 4 0xFFFFFFFF) false
    let kept := s.setEngine 0 .copy { s.engine 0 .copy with x := 6 }
    at_ s r true = some (false, 0) ∧ at_ neg r true = some (false, -1) ∧ r.specBits 1 1 = 1 ∧
    (kept.engine 0 .copy).x ≠ 0 ∧ at_ kept r false = some (false, 5) ∧
    at_ s { r with b := BitVec.ofNat 112 (2 ^ 109 + 4000 * 2 ^ 75) } true = some (true, 0) := by decide +kernel

/-- The task of `stored` has a region of row 9 at every member of group 3, which has cores 0 and 1. -/
def multicasting : State := (keeping (25 + 9 * 2 ^ 5 + 2 ^ 17 + 64 * 2 ^ 40 + 255 * 2 ^ 53 + 3 * 2 ^ 61) 0).setGroup 3
  { idle.group 3 with members := 3, part := 0 }

/-- EngineRecords: MCAST to core 1 of group 3, to which the task has a region of row 9. -/
theorem witness_EngineRecords_mcast : let s := multicasting
    (match (s.readWhole (s.taskAgent 0 (.copy 0)) (s.lineAtIndex 0 (s.entry 0 0) copying.a false 0 0 0 0)).2 with
      | some (k, d, _) => !k.stops && d.length == 64
      | none => false) = true ∧
    (((s.gangCores s.focus 3 160).getD []).filter fun m => m != s.focus) = [1] ∧
    s.reachPeer 0 (s.entry 0 0) true true 3 255 1 9 0 64 = .found (.tile 1 9 0) ∧
    (match (s.aim (s.taskAgent 0 (.copy 0)) (.tile 1 9 0) false).2 with
      | .ok m => m == .keys [tileKey 1 9 0] [] 0
      | _ => false) = true := by decide +kernel

/-- EngineRecords: CPYQ into a slot that it holds, and with none to take. -/
theorem witness_EngineRecords_cpyq : let d : Desc := BitVec.ofNat 112 (4 * 2 ^ 109 + 2 * 2 ^ 64)
    let s := stored.setEngine 0 .copy { stored.engine 0 .copy with held := [(2, 1)] }
    d.cls = 4 ∧ d.queue = 2 ∧ (s.takeSlot 0 .copy d true).2 = some (some 1) ∧ (stored.takeSlot 0 .copy d true).2 = none ∧
    (stored.takeSlot 0 .copy copying.a false).2 = some none := by decide +kernel

/-- EngineRecords: CPYA of a line of s32 from row 8 to the commons, as a whole; to the tile store's own address space. -/
theorem witness_EngineRecords_cpya : let s := keeping (26 + (home 64).toNat * 2 ^ 5 + 64 * 2 ^ 63) 0
    let e := s.entry 0 0
    let c : Desc := BitVec.ofNat 112 (3 * 2 ^ 109 + 2 ^ 106)
    (match gets s .copy 8 32 1 with
      | some (k, [y]) => !k.stops && (y.read (.el (elOf 0x0B)) 32 0).map (·.2) == some 0
      | _ => false) = true ∧
    (∀ m < 16, s.operandAt 0 e c true 0 (4 * m) 4 = .found (.va (home 64 + BitVec.ofNat 64 (4 * m)))) ∧
    s.operandAt 0 e c true 64 0 4 = .suppressed ∧ s.operandAt 0 e (BitVec.ofNat 112 (3 * 2 ^ 109 + 2 * 2 ^ 106)) true 0 0 4 = .bad ∧
    s.ownMemory (home 64) = true ∧ s.ownMemory away = false ∧
    (match (s.rmw (s.taskAgent 0 (.copy 0)) (home 64) 4 fun q m => (q, some (m + 1))).2 with
      | .ok o => o == 0
      | _ => false) = true := by decide +kernel

/-- EngineRecords: LDBND to bound registers 3 to 5, which the task may write, and to another. -/
theorem witness_EngineRecords_ldbnd : let s := keeping (28 + 3 * 2 ^ 5 + 5 * 2 ^ 11) 0
    (match gets s .copy 8 32 1 with
      | some (k, l) => !k.stops && ofBytes ((l.map (·.data)).flatten) == 0
      | none => false) = true ∧
    (s.entry 0 0).bindsBound 3 = true ∧ (s.entry 0 0).bindsBound 5 = true ∧ (s.entry 0 0).bindsBound 6 = false := by
  decide +kernel

/-- EngineRecords: SCANREF of a line with two references, listed in row 9; of a line outside; and with its count. -/
theorem witness_EngineRecords_scanref : let s : State := { stored with
      tags := stored.tags.set (tileKey 0 8 0 / 64) (makeTag 0 0 5 (List.replicate 64 0)) }
    let e := s.entry 0 0
    let ag := s.taskAgent 0 (.copy 0)
    (match (s.readWhole ag (s.operandAt 0 e copying.a false 0 0 64)).2 with
      | some (k, d, g) => !k.stops && (scanEntries (2 ^ 63 + 8 * 2048) d g false).length == 2
      | none => false) = true ∧
    (match (s.readWhole ag (s.operandAt 0 e (BitVec.ofNat 112 (2 ^ 109 + 4000 * 2 ^ 75)) false 0 0 64)).2 with
      | some (k, _, _) => k.stops
      | none => false) = true ∧
    (match (s.aimAll ag [(s.reachTile 0 e true 9 0 8, bytesOf 8 1)] Causes.none []).2 with
      | some (k, l) => !k.stops && l.length == 1
      | none => false) = true ∧ (e.trips blank).all = 1 ∧ ({ blank with spec := 64 } : Rec).specBits 6 1 = 1 := by
  decide +kernel

/-! ### Words -/

/-- Docent words written out from Table 3.2 and Table 3.3. -/
theorem test_docent_words_1 : ∀ p ∈ ([
    (0x01579001#32, .add 10 23 18),
    (0x017AB802#32, .sub 11 26 23),
    (0x019DE003#32, .mul 12 29 28),
    (0x01A00804#32, .mulh 13 0 1),
    (0x01C33005#32, .mulhn 14 3 6),
    (0x01E65806#32, .div 15 6 11),
    (0x02098007#32, .divn 16 9 16),
    (0x022CA808#32, .rem 17 12 21),
    (0x024FD009#32, .remn 18 15 26),
    (0x0272F80A#32, .and 19 18 31),
    (0x0295200B#32, .or 20 21 4),
    (0x02B8480C#32, .xor 21 24 9),
    (0x02DB700D#32, .andn 22 27 14),
    (0x02FE980E#32, .shl 23 30 19),
    (0x0301C00F#32, .shr 24 1 24),
    (0x0324E810#32, .sra 25 4 29),
    (0x03471011#32, .rotl 26 7 2),
    (0x036A3812#32, .min 27 10 7),
    (0x038D6013#32, .max 28 13 12),
    (0x03B08814#32, .minn 29 16 17),
    (0x03D3B015#32, .maxn 30 19 22),
    (0x03F6D816#32, .slt 31 22 27),
    (0x00190017#32, .sltn 0 25 0),
    (0x003C2818#32, .seq 1 28 5)] : List (_ × Instr)), decodeDocent p.1 = .ok p.2 :=
  by decide

/-- Docent words written out from Table 3.2 and Table 3.3. -/
theorem test_docent_words_2 : ∀ p ∈ ([
    (0x005F0019#32, .clz 2 31),
    (0x0062001A#32, .ctz 3 2),
    (0x0085001B#32, .popc 4 5),
    (0x04A8CAC0#32, .sel 5 11 8 25),
    (0x08CB0449#32, .addi 6 11 0x0449#16),
    (0x0CEE087A#32, .andi 7 14 0x087A#16),
    (0x11110CAB#32, .ori 8 17 0x0CAB#16),
    (0x153410DC#32, .xori 9 20 0x10DC#16),
    (0x19570025#32, .shli 10 23 37#6),
    (0x1D7A0025#32, .shri 11 26 37#6),
    (0x219D0025#32, .srai 12 29 37#6),
    (0x25A021A0#32, .slti 13 0 0x21A0#16),
    (0x29C025D1#32, .lil 14 0x25D1#16),
    (0x2DE02A02#32, .lih 15 0x2A02#16),
    (0x3209085E#32, .exts 16 9 33#6 30#6),
    (0x362C085E#32, .extz 17 12 33#6 30#6),
    (0x3A4F085E#32, .insf 18 15 33#6 30#6),
    (0x43FFFFFE#32, .b 0x3FFFFFE#26),
    (0x47FFFFFE#32, .bl 0x3FFFFFE#26),
    (0x4B09802C#32, .beq 24 9 0x802C#16),
    (0x4F6E802D#32, .bne 27 14 0x802D#16),
    (0x53D3802E#32, .blt 30 19 0x802E#16),
    (0x5438802F#32, .bge 1 24 0x802F#16),
    (0x589D8030#32, .bltn 4 29 0x8030#16)] : List (_ × Instr)), decodeDocent p.1 = .ok p.2 :=
  by decide

/-- Docent words written out from Table 3.2 and Table 3.3. -/
theorem test_docent_words_3 : ∀ p ∈ ([
    (0x5CE28031#32, .bgen 7 2 0x8031#16),
    (0x61408032#32, .bz 10 0x8032#16),
    (0x65A08033#32, .bnz 13 0x8033#16),
    (0x68100000#32, .br 16),
    (0x68130001#32, .blr 19),
    (0x83F66D12#32, .ldB 31 22 0x6D12#16),
    (0x84197143#32, .ldBn 0 25 0x7143#16),
    (0x883C7574#32, .ldH 1 28 0x7574#16),
    (0x8C5F79A5#32, .ldHn 2 31 0x79A5#16),
    (0x90627DD6#32, .ldW 3 2 0x7DD6#16),
    (0x94858207#32, .ldWn 4 5 0x8207#16),
    (0x98A88638#32, .ldD 5 8 0x8638#16),
    (0xA17E8A69#32, .stB 11 30 0x8A69#16),
    (0xA5C38E9A#32, .stH 14 3 0x8E9A#16),
    (0xAA2892CB#32, .stW 17 8 0x92CB#16),
    (0xAE8D96FC#32, .stD 20 13 0x96FC#16),
    (0xB2F29B2D#32, .stloc 23 18 0x9B2D#16),
    (0xB57AB8AC#32, .ldx 11 26 23 .w true 3#2),
    (0xB59DE148#32, .stx 12 29 28 .h 2#2),
    (0xB5A00A20#32, .ldt 13 0 1 .b true),
    (0xB5C333C0#32, .stt 14 3 6 .d),
    (0xB9E65894#32, .amo 15 6 11 .min .d .die),
    (0xB8098308#32, .amoi 9 16 .swap .w .fabric),
    (0xBA2CAC12#32, .cas 17 12 21 .d .cluster)] : List (_ × Instr)), decodeDocent p.1 = .ok p.2 :=
  by decide

/-- Docent words written out from Table 3.2 and Table 3.3. -/
theorem test_docent_words_4 : ∀ p ∈ ([
    (0xBE4FD10E#32, .famo 18 15 26 .add .rna .w .package true),
    (0xC0000000#32, .nop),
    (0xC0000016#32, .fence .package),
    (0xC0000026#32, .tfence .package),
    (0xC2DB7032#32, .waita 22 27 14 .ne),
    (0xC01E9840#32, .notify 30 19),
    (0xC0000050#32, .trap),
    (0xC0000060#32, .eret),
    (0xC0000070#32, .brk),
    (0xC0000080#32, .yield),
    (0xC0000090#32, .done),
    (0xC3A000A0#32, .time 29),
    (0xC3C000B0#32, .tcoord 30),
    (0xC7E82800#32, .sysr 31 0x105#10),
    (0xC4082801#32, .sysw 0 0x105#10),
    (0xCABC0000#32, .tset 21 28),
    (0xC8DF5040#32, .treg 6 31 10),
    (0xC8000080#32, .tclr),
    (0xC88000C0#32, .post 4),
    (0xC8A00100#32, .trypost 5),
    (0xC8CBF140#32, .postl 6 11 30),
    (0xC8EE1980#32, .postr 7 14 3),
    (0xC80001D5#32, .join 0x15#5),
    (0xC9200200#32, .gnew 9)] : List (_ × Instr)), decodeDocent p.1 = .ok p.2 :=
  by decide

/-- Docent words written out from Table 3.2 and Table 3.3. -/
theorem test_docent_words_5 : ∀ p ∈ ([
    (0xC8170240#32, .gok 23),
    (0xC81A0280#32, .gno 26),
    (0xC81D02E5#32, .setb 37 29),
    (0xC9A0032A#32, .getb 13 42),
    (0xCE603211#32, .tseti 19 0x3211#16),
    (0xD00600C8#32, .armc 200 6),
    (0xD00901C8#32, .armcInit 200 9),
    (0xD00C02C8#32, .arrc 200 12),
    (0xD0200381#32, .waitc 129 true),
    (0xD260044D#32, .readc 19 77),
    (0xD4000096#32, .gbar 150),
    (0xD6A001FF#32, .grank 21 255),
    (0xD6C002FF#32, .gsize 22 255),
    (0xD4400300#32, .prio 2#2),
    (0xD9014000#32, .cash 8 1 8),
    (0xDB246840#32, .refeq 25 4 13),
    (0xD9470080#32, .mkref 10 7),
    (0xDB6A00C0#32, .pin 27 10),
    (0xD80D0100#32, .unpin 13),
    (0xDDB070F0#32, .ldref 13 16 0x70F0#16),
    (0xE2667521#32, .stref 19 6 0x7521#16),
    (0xE7E67952#32, .ldh 31 6 0x7952#16),
    (0xE9207D83#32, .sth 9 0 0x7D83#16),
    (0xEC1C000B#32, .qopen 11 28)] : List (_ × Instr)), decodeDocent p.1 = .ok p.2 :=
  by decide

/-- Docent words written out from Table 3.2 and Table 3.3. -/
theorem test_docent_words_6 : ∀ p ∈ ([
    (0xEC000045#32, .qclose 5),
    (0xEC60008E#32, .qstat 3 14),
    (0xFEABCDEF#32, .imx 0x2ABCDEF#26)] : List (_ × Instr)), decodeDocent p.1 = .ok p.2 :=
  by decide

/-- Kernel words written out from Table 3.4 and Table 3.7. -/
theorem test_kernel_words_1 : ∀ p ∈ ([
    (0x0130E547CB0F5619#64, .vadd ⟨1, 4, 7, 42, 62, 88, 122, 5657⟩),
    (0x025D89EE73FA79FE#64, .vsub ⟨2, 7, 12, 79, 115, 159, 211, 6654⟩),
    (0x036A2E951CC59DE3#64, .vmul ⟨3, 2, 17, 116, 168, 230, 44, 7651⟩),
    (0x0496D33BA5B0A1C8#64, .vfma ⟨4, 5, 22, 153, 221, 45, 133, 456⟩),
    (0x05A377C24E9BC5AD#64, .vfms ⟨5, 0, 27, 190, 18, 116, 222, 1453⟩),
    (0x06CC1C68F766E992#64, .vfnma ⟨6, 3, 0, 227, 71, 187, 55, 2450⟩),
    (0x0718A10F80520D77#64, .vfnms ⟨0, 6, 5, 8, 124, 2, 144, 3447⟩),
    (0x082545B6293D315C#64, .vdiv ⟨1, 1, 10, 45, 177, 73, 233, 4444⟩),
    (0x0951EA5CD2085541#64, .vsqrt ⟨2, 4, 15, 82, 230, 144, 66, 5441⟩),
    (0x0A7E8EE37AF37926#64, .vrcp ⟨3, 7, 20, 119, 27, 215, 155, 6438⟩),
    (0x0B8B338A03DE9D0B#64, .vrsq ⟨4, 2, 25, 156, 80, 30, 244, 7435⟩),
    (0x0CB7D830ACA9A0F0#64, .vmin ⟨5, 5, 30, 193, 133, 101, 77, 240⟩),
    (0x0DC07CD75594C4D5#64, .vmax ⟨6, 0, 3, 230, 186, 172, 166, 1237⟩),
    (0x0E0D017DFE7FE8BA#64, .vminm ⟨0, 3, 8, 11, 239, 243, 255, 2234⟩),
    (0x0F39A604874B0C9F#64, .vmaxm ⟨1, 6, 13, 48, 36, 58, 88, 3231⟩),
    (0x10464AAB30363084#64, .vabs ⟨2, 1, 18, 85, 89, 129, 177, 4228⟩),
    (0x1172EF51D9015469#64, .vneg ⟨3, 4, 23, 122, 142, 200, 10, 5225⟩),
    (0x129F93F861EC784E#64, .vcps ⟨4, 7, 28, 159, 195, 15, 99, 6222⟩),
    (0x13A8389F0AD79C33#64, .vscl ⟨5, 2, 1, 196, 248, 86, 188, 7219⟩),
    (0x14D4DD25B3A2A018#64, .vrnd ⟨6, 5, 6, 233, 45, 157, 21, 24⟩),
    (0x150161CC5C8DC3FD#64, .vcls ⟨0, 0, 11, 14, 98, 228, 110, 1021⟩),
    (0x162E0672E578E7E2#64, .vcmp ⟨1, 3, 16, 51, 151, 43, 199, 2018⟩),
    (0x205AAB198E440BC7#64, .vexp ⟨2, 6, 21, 88, 204, 114, 32, 3015⟩),
    (0x21674FA0372F2FAC#64, .vexp2 ⟨3, 1, 26, 125, 1, 185, 121, 4012⟩),
    (0x2293F446C01A5391#64, .vlog ⟨4, 4, 31, 162, 54, 0, 210, 5009⟩)] : List (_ × Instr)), decodeKernel p.1 = some p.2 :=
  by decide

/-- Kernel words written out from Table 3.4 and Table 3.7. -/
theorem test_kernel_words_2 : ∀ p ∈ ([
    (0x23BC98ED68E57776#64, .vlog2 ⟨5, 7, 4, 199, 107, 71, 43, 6006⟩),
    (0x24C93D9411D09B5B#64, .vsin ⟨6, 2, 9, 236, 160, 142, 132, 7003⟩),
    (0x2515C23ABABBBF40#64, .vcos ⟨0, 5, 14, 17, 213, 213, 221, 8000⟩),
    (0x262266C14386C325#64, .vtanh ⟨1, 0, 19, 54, 10, 28, 54, 805⟩),
    (0x274F0B67EC71E70A#64, .vsigm ⟨2, 3, 24, 91, 63, 99, 143, 1802⟩),
    (0x287BB00E955D0AEF#64, .verf ⟨3, 6, 29, 128, 116, 170, 232, 2799⟩),
    (0x308454B53E282ED4#64, .viadd ⟨4, 1, 2, 165, 169, 241, 65, 3796⟩),
    (0x31B0F95BC71352B9#64, .visub ⟨5, 4, 7, 202, 222, 56, 154, 4793⟩),
    (0x32DD9DE26FFE769E#64, .vimul ⟨6, 7, 12, 239, 19, 127, 243, 5790⟩),
    (0x330A228918C99A83#64, .vimulh ⟨0, 2, 17, 20, 72, 198, 76, 6787⟩),
    (0x3436C72FA1B4BE68#64, .vimad ⟨1, 5, 22, 57, 125, 13, 165, 7784⟩),
    (0x35436BD64A9FC24D#64, .vimin ⟨2, 0, 27, 94, 178, 84, 254, 589⟩),
    (0x366C107CF36AE632#64, .vimax ⟨3, 3, 0, 131, 231, 155, 87, 1586⟩),
    (0x3798B5039C560A17#64, .viabs ⟨4, 6, 5, 168, 28, 226, 176, 2583⟩),
    (0x38A559AA25212DFC#64, .vshl ⟨5, 1, 10, 205, 81, 41, 9, 3580⟩),
    (0x39D1FE50CE0C51E1#64, .vshr ⟨6, 4, 15, 242, 134, 112, 98, 4577⟩),
    (0x3A1E82F776F775C6#64, .vsra ⟨0, 7, 20, 23, 187, 183, 187, 5574⟩),
    (0x3B2B279E1FC299AB#64, .vand ⟨1, 2, 25, 60, 240, 254, 20, 6571⟩),
    (0x3C57CC24A8ADBD90#64, .vor ⟨2, 5, 30, 97, 37, 69, 109, 7568⟩),
    (0x3D6070CB5198C175#64, .vxor ⟨3, 0, 3, 134, 90, 140, 198, 373⟩),
    (0x3E8D1571FA63E55A#64, .vnot ⟨4, 3, 8, 171, 143, 211, 31, 1370⟩),
    (0x40B9BA18834F093F#64, .vmov ⟨5, 6, 13, 208, 196, 26, 120, 2367⟩),
    (0x41C65EBF2C3A2D24#64, .vbcast ⟨6, 1, 18, 245, 249, 97, 209, 3364⟩),
    (0x4212E345D5055109#64, .vld ⟨0, 4, 23, 26, 46, 168, 42, 4361⟩),
    (0x433F87EC7DF074EE#64, .vst ⟨1, 7, 28, 63, 99, 239, 131, 5358⟩)] : List (_ × Instr)), decodeKernel p.1 = some p.2 :=
  by decide

/-- Kernel words written out from Table 3.4 and Table 3.7. -/
theorem test_kernel_words_3 : ∀ p ∈ ([
    (0x44482C9306DB98D3#64, .vldl ⟨2, 2, 1, 100, 152, 54, 220, 6355⟩),
    (0x4574D139AFA6BCB8#64, .vstl ⟨3, 5, 6, 137, 205, 125, 53, 7352⟩),
    (0x468175C05891C09D#64, .vgath ⟨4, 0, 11, 174, 2, 196, 142, 157⟩),
    (0x47AE1A66E17CE482#64, .vscat ⟨5, 3, 16, 211, 55, 11, 231, 1154⟩),
    (0x48DABF0D8A480867#64, .vtrn ⟨6, 6, 21, 248, 108, 82, 64, 2151⟩),
    (0x500743B433332C4C#64, .vredr ⟨0, 1, 26, 29, 161, 153, 153, 3148⟩),
    (0x5133E85ADC1E5031#64, .vredc ⟨1, 4, 31, 66, 214, 224, 242, 4145⟩),
    (0x525C8CE164E97416#64, .vscan ⟨2, 7, 4, 103, 11, 39, 75, 5142⟩),
    (0x586931880DD497FB#64, .vcvt ⟨3, 2, 9, 140, 64, 110, 164, 6139⟩),
    (0x5995D62EB6BFBBE0#64, .vpack ⟨4, 5, 14, 177, 117, 181, 253, 7136⟩),
    (0x5AA27AD55F8ADFC5#64, .vunpk ⟨5, 0, 19, 214, 170, 252, 86, 8133⟩),
    (0x5BCF1F7BE875E3AA#64, .vqnt ⟨6, 3, 24, 251, 223, 67, 175, 938⟩),
    (0x5C1BA4029141078F#64, .vsel ⟨0, 6, 29, 32, 20, 138, 8, 1935⟩),
    (0x602448A93A2C2B74#64, .pand ⟨1, 1, 2, 69, 73, 209, 97, 2932⟩),
    (0x6150ED4FC3174F59#64, .por ⟨2, 4, 7, 106, 126, 24, 186, 3929⟩),
    (0x627D91F66BE2733E#64, .pxor ⟨3, 7, 12, 143, 179, 95, 19, 4926⟩),
    (0x638A369D14CD9723#64, .pnot ⟨4, 2, 17, 180, 232, 166, 108, 5923⟩),
    (0x64B6DB23BDB8BB08#64, .pset ⟨5, 5, 22, 217, 29, 237, 197, 6920⟩),
    (0x70C37FCA4683DEED#64, .vshape ⟨6, 0, 27, 254, 82, 52, 30, 7917⟩),
    (0x710C0470EF6EE2D2#64, .loop ⟨0, 3, 0, 35, 135, 123, 119, 722⟩),
    (0x7238A917985A06B7#64, .rot ⟨1, 6, 5, 72, 188, 194, 208, 1719⟩),
    (0x73454DBE21252A9C#64, .vsets ⟨2, 1, 10, 109, 241, 9, 41, 2716⟩),
    (0x7471F244CA104E81#64, .vdone ⟨3, 4, 15, 146, 38, 80, 130, 3713⟩)] : List (_ × Instr)), decodeKernel p.1 = some p.2 :=
  by decide

/-- Engine records written out from Table 3.8, Table 3.9 and R88. -/
theorem test_record_words_1 : ∀ p ∈ ([
    (0x0000FEDCBA9871000000000000000000ABCDEF010000CC000000000000098765432105A000000000000000012345678900010002000300041021D46001234567, .mma ⟨4, 7, 10, 1, true, false, false, false, false, false, 0x1234567, 0x1000200030004, 0x5A0000000000000000123456789, 0xCC0000000000000987654321, 0x71000000000000000000ABCDEF01, 0xFEDCBA98⟩),
    (0x0001FDB9753071000000000000000001579BDE020000CC000000000000130ECA864205A00000000000000002468ACF120002000400060008113B229202468ACE, .dmma ⟨7, 12, 17, 2, false, true, false, false, true, false, 0x2468ACE, 0x2000400060008, 0x5A00000000000000002468ACF12, 0xCC000000000000130ECA8642, 0x71000000000000000001579BDE02, 0x1FDB97530⟩),
    (0x0002FC962FC8710000000000000000020369CD030000CC0000000000001C962FC96305A0000000000000000369D0369B000300060009000C125470F10369D035, .mzero ⟨10, 17, 24, 3, true, true, false, false, false, true, 0x369D035, 0x300060009000C, 0x5A0000000000000000369D0369B, 0xCC0000000000001C962FC963, 0x710000000000000000020369CD03, 0x2FC962FC8⟩),
    (0x0003FB72EA6071000000000000000002AF37BC040000CC000000000000261D950C8405A000000000000000048D159E2400040008000C0010136DBF0A048D159C, .mldc ⟨13, 22, 31, 4, false, false, true, false, true, false, 0x48D159C, 0x40008000C0010, 0x5A000000000000000048D159E24, 0xCC000000000000261D950C84, 0x71000000000000000002AF37BC04, 0x3FB72EA60⟩),
    (0x0004FA4FA4F8710000000000000000035B05AB050000CC0000000000002FA4FA4FA505A00000000000000005B05B05AD0005000A000F00141486CD6805B05B03, .mdrain ⟨16, 27, 6, 5, true, false, true, false, false, false, 0x5B05B03, 0x5000A000F0014, 0x5A00000000000000005B05B05AD, 0xCC0000000000002FA4FA4FA5, 0x710000000000000000035B05AB05, 0x4FA4FA4F8⟩),
    (0x0005F92C5F907100000000000000000406D39A060000CC000000000000392C5F92C605A00000000000000006D3A06D360006000C0012001820981B9B06D3A06A, .trn ⟨19, 0, 13, 6, false, true, true, false, true, true, 0x6D3A06A, 0x6000C00120018, 0x5A00000000000000006D3A06D36, 0xCC000000000000392C5F92C6, 0x7100000000000000000406D39A06, 0x5F92C5F90⟩),
    (0x0006F8091A2871000000000000000004B2A189070000CC00000000000042B3C4D5E705A00000000000000007F6E5D4BF0007000E0015001C30B1683807F6E5D1, .cpy ⟨22, 5, 20, 0, true, true, true, false, false, false, 0x7F6E5D1, 0x7000E0015001C, 0x5A00000000000000007F6E5D4BF, 0xCC00000000000042B3C4D5E7, 0x71000000000000000004B2A18907, 0x6F8091A28⟩),
    (0x0007F6E5D4C0710000000000000000055E6F78080000CC0000000000004C3B2A190805A000000000000000091A2B3C48000800100018002031CAB646091A2B38, .cpyx ⟨25, 10, 27, 1, false, false, false, true, true, false, 0x91A2B38, 0x8001000180020, 0x5A000000000000000091A2B3C48, 0xCC0000000000004C3B2A1908, 0x710000000000000000055E6F7808, 0x7F6E5D4C0⟩)] : List (_ × Instr)), decodeRecord p.1 = some p.2 :=
  by decide

/-- Engine records written out from Table 3.8, Table 3.9 and R88. -/
theorem test_record_words_2 : ∀ p ∈ ([
    (0x0008F5C28F58710000000000000000060A3D67090000CC00000000000055C28F5C2905A0000000000000000A3D70A3D100090012001B002432E3C4A50A3D709F, .ring ⟨28, 15, 2, 2, true, false, false, true, false, true, 0xA3D709F, 0x90012001B0024, 0x5A0000000000000000A3D70A3D1, 0xCC00000000000055C28F5C29, 0x710000000000000000060A3D6709, 0x8F5C28F58⟩),
    (0x0009F49F49F071000000000000000006B60B560A0000CC0000000000005F49F49F4A05A0000000000000000B60B60B5A000A0014001E002833FD12D60B60B606, .mcast ⟨31, 20, 9, 3, false, true, false, true, true, false, 0xB60B606, 0xA0014001E0028, 0x5A0000000000000000B60B60B5A, 0xCC0000000000005F49F49F4A, 0x71000000000000000006B60B560A, 0x9F49F49F0⟩),
    (0x000AF37C04887100000000000000000761D9450B0000CC00000000000068D159E26B05A0000000000000000C83FB72E3000B00160021002C341661340C83FB6D, .fill ⟨2, 25, 16, 4, true, true, false, true, false, false, 0xC83FB6D, 0xB00160021002C, 0x5A0000000000000000C83FB72E3, 0xCC00000000000068D159E26B, 0x7100000000000000000761D9450B, 0xAF37C0488⟩),
    (0x000BF258BF20710000000000000000080DA7340C0000CC0000000000007258BF258C05A0000000000000000DA740DA6C000C001800240030352FAF4F0DA740D4, .cpya ⟨5, 30, 23, 5, false, false, true, true, true, true, 0xDA740D4, 0xC001800240030, 0x5A0000000000000000DA740DA6C, 0xCC0000000000007258BF258C, 0x710000000000000000080DA7340C, 0xBF258BF20⟩),
    (0x000CF13579B871000000000000000008B975230D0000CC0000000000007BE02468AD05A0000000000000000ECA8641F5000D001A002700343640FDAC0ECA863B, .cpyq ⟨8, 3, 30, 6, true, false, true, true, false, false, 0xECA863B, 0xD001A00270034, 0x5A0000000000000000ECA8641F5, 0xCC0000000000007BE02468AD, 0x71000000000000000008B975230D, 0xCF13579B8⟩),
    (0x000DF0123450710000000000000000096543120E0000CC000000000000856789ABCE05A0000000000000000FEDCBA97E000E001C002A0038375A0A1E0FEDCBA2, .ldbnd ⟨11, 8, 5, 0, false, true, true, true, true, false, 0xFEDCBA2, 0xE001C002A0038, 0x5A0000000000000000FEDCBA97E, 0xCC000000000000856789ABCE, 0x710000000000000000096543120E, 0xDF0123450⟩),
    (0x000EEEEEEEE87100000000000000000A1111010F0000CC0000000000008EEEEEEEEF05A0000000000000001111111107000F001E002D003C3873587D11111109, .scanref ⟨14, 13, 12, 1, true, true, true, true, false, true, 0x11111109, 0xF001E002D003C, 0x5A0000000000000001111111107, 0xCC0000000000008EEEEEEEEF, 0x7100000000000000000A1111010F, 0xEEEEEEEE8⟩),
    (0x000FEDCBA9807100000000000000000ABCDEF0100000CC000000000000987654321005A00000000000000012345678900010002000300040398CA68212345670, .reloc ⟨17, 18, 19, 2, false, false, false, false, true, false, 0x12345670, 0x10002000300040, 0x5A0000000000000001234567890, 0xCC0000000000009876543210, 0x7100000000000000000ABCDEF010, 0xFEDCBA980⟩)] : List (_ × Instr)), decodeRecord p.1 = some p.2 :=
  by decide

/-- Command packets written out from R398 and Table 14.3. -/
theorem test_command_words_1 : ∀ p ∈ ([
    (0x0123456789ABCDEF89ABCDEFA5C30101, .restore),
    (0x0123456789ABCDEF89ABCDEFA5C30102, .save),
    (0x0123456789ABCDEF89ABCDEFA5C30103, .quiesce),
    (0x0123456789ABCDEF89ABCDEFA5C30104, .resetPart),
    (0x0123456789ABCDEF89ABCDEFA5C30105, .signal),
    (0x0123456789ABCDEF89ABCDEFA5C30106, .write),
    (0x0123456789ABCDEF89ABCDEFA5C30107, .fenceCommand),
    (0x0123456789ABCDEF89ABCDEFA5C30108, .link),
    (0x0123456789ABCDEF89ABCDEFA5C30109, .replay),
    (0x0123456789ABCDEF89ABCDEFA5C3010A, .timebase),
    (0x0123456789ABCDEF89ABCDEFA5C3010B, .tagload),
    (0x0123456789ABCDEF89ABCDEFA5C3010C, .partcfg)] : List (_ × Instr)), decodeCommand p.1 = some p.2 ∧
    cmdOf .device p.1 = ⟨.device, true, 0xA5C3, 0x89ABCDEF, 0x0123456789ABCDEF⟩ :=
  by decide

/-! ### Well-formedness -/

/-- A well-formed word of every kernel mnemonic. -/
theorem test_wf_kernel : ∀ i ∈ ([
    .vadd ⟨0, 0, 1, 3, 1, 2, 0, 0⟩, .vsub ⟨0, 0, 1, 3, 1, 2, 0, 0⟩, .vmul ⟨0, 0, 1, 3, 1, 2, 0, 0⟩,
    .vdiv ⟨0, 0, 1, 3, 1, 2, 0, 0⟩, .vscl ⟨0, 0, 1, 3, 1, 2, 0, 0⟩, .vfma ⟨0, 0, 1, 3, 1, 2, 3, 0⟩,
    .vfms ⟨0, 0, 1, 3, 1, 2, 3, 0⟩, .vfnma ⟨0, 0, 1, 3, 1, 2, 3, 0⟩, .vfnms ⟨0, 0, 1, 3, 1, 2, 3, 0⟩,
    .vsqrt ⟨0, 0, 1, 3, 1, 0, 0, 0⟩, .vrsq ⟨0, 0, 1, 3, 1, 0, 0, 0⟩, .vrcp ⟨0, 0, 1, 3, 1, 0, 0, 0⟩,
    .vrnd ⟨0, 0, 1, 3, 1, 0, 0, 0⟩, .vmin ⟨0, 0, 1, 3, 1, 2, 0, 0⟩, .vmax ⟨0, 0, 1, 3, 1, 2, 0, 0⟩,
    .vminm ⟨0, 0, 1, 3, 1, 2, 0, 0⟩, .vmaxm ⟨0, 0, 1, 3, 1, 2, 0, 0⟩, .vabs ⟨0, 0, 1, 3, 1, 0, 0, 0⟩,
    .vneg ⟨0, 0, 1, 3, 1, 0, 0, 0⟩, .vcps ⟨0, 0, 1, 3, 1, 2, 0, 0⟩, .vcls ⟨0, 0, 1, 0, 1, 0, 0, 8⟩,
    .vcmp ⟨0, 0, 0xb, 0, 1, 2, 0, 1⟩, .vexp ⟨0, 0, 1, 3, 1, 0, 0, 0⟩, .vexp2 ⟨0, 0, 1, 3, 1, 0, 0, 0⟩,
    .vlog ⟨0, 0, 1, 3, 1, 0, 0, 0⟩, .vlog2 ⟨0, 0, 1, 3, 1, 0, 0, 0⟩, .vsin ⟨0, 0, 1, 3, 1, 0, 0, 0⟩,
    .vcos ⟨0, 0, 1, 3, 1, 0, 0, 0⟩, .vtanh ⟨0, 0, 1, 3, 1, 0, 0, 0⟩, .vsigm ⟨0, 0, 1, 3, 1, 0, 0, 0⟩,
    .verf ⟨0, 0, 1, 3, 1, 0, 0, 0⟩, .viadd ⟨0, 0, 0xb, 3, 1, 2, 0, 0⟩, .visub ⟨0, 0, 0xb, 3, 1, 2, 0, 0⟩,
    .vimul ⟨0, 0, 0xb, 3, 1, 2, 0, 0⟩, .vshl ⟨0, 0, 0xb, 3, 1, 2, 0, 0⟩, .vimad ⟨0, 0, 0xb, 3, 1, 2, 3, 0⟩,
    .vimulh ⟨0, 0, 0xb, 3, 1, 2, 0, 0⟩, .vimin ⟨0, 0, 0xb, 3, 1, 2, 0, 0⟩, .vimax ⟨0, 0, 0xb, 3, 1, 2, 0, 0⟩,
    .vshr ⟨0, 0, 0xb, 3, 1, 2, 0, 0⟩, .vsra ⟨0, 0, 0xb, 3, 1, 2, 0, 0⟩, .vand ⟨0, 0, 0xb, 3, 1, 2, 0, 0⟩,
    .vor ⟨0, 0, 0xb, 3, 1, 2, 0, 0⟩, .vxor ⟨0, 0, 0xb, 3, 1, 2, 0, 0⟩, .viabs ⟨0, 0, 0xb, 3, 1, 0, 0, 0⟩,
    .vnot ⟨0, 0, 0xb, 3, 1, 0, 0, 0⟩, .vmov ⟨0, 0, 9, 3, 1, 0, 0, 0⟩, .vbcast ⟨0, 0, 9, 3, 1, 0xd1, 0, 0⟩,
    .vtrn ⟨0, 0, 9, 3, 1, 0, 0, 0⟩, .vsel ⟨0, 0, 9, 3, 1, 2, 0, 0⟩, .vld ⟨0, 0, 9, 3, 0xd0, 0, 0, 0⟩,
    .vst ⟨0, 0, 9, 0, 0xd0, 0, 1, 0⟩, .vldl ⟨0, 0, 9, 0x80, 0xd0, 0, 0, 0⟩, .vstl ⟨0, 0, 9, 0, 0xd0, 0, 0xa0, 0⟩,
    .vgath ⟨0, 0, 9, 3, 0xd0, 2, 0, 0⟩, .vscat ⟨0, 0, 9, 0, 0xd0, 2, 3, 0⟩, .vredr ⟨0, 0, 1, 0x80, 1, 0, 0, 0⟩,
    .vredc ⟨0, 0, 1, 0x80, 1, 0, 0, 0⟩, .vscan ⟨0, 0, 1, 3, 1, 0x80, 0, 0x40⟩, .vcvt ⟨0, 0, 1, 3, 1, 0, 0, 0xb⟩,
    .vpack ⟨0, 0, 2, 0, 0xd0, 0, 1, 0⟩, .vunpk ⟨0, 0, 1, 3, 0xd0, 0, 0, 0⟩, .vqnt ⟨0, 0, 9, 3, 1, 2, 3, 0⟩,
    .pand ⟨0, 0, 0, 1, 2, 3, 0, 0⟩, .por ⟨0, 0, 0, 1, 2, 3, 0, 0⟩, .pxor ⟨0, 0, 0, 1, 2, 3, 0, 0⟩,
    .pnot ⟨0, 0, 0, 1, 2, 0, 0, 0⟩, .pset ⟨0, 0, 0, 1, 0xd0, 0, 0, 2⟩, .vshape ⟨0, 0, 0, 0, 0xd0, 0, 0, 0⟩,
    .loop ⟨0, 0, 0, 0, 0xd0, 0, 0, 1⟩, .rot ⟨0, 0, 0, 0, 0, 0, 0, 0x41⟩, .vsets ⟨0, 0, 0, 0xd0, 0, 0, 0, 0xc01⟩,
    .vdone ⟨0, 0, 0, 0, 0, 0, 0, 0⟩] : List Instr), i.wf = true := by decide +kernel

/-- An ill-formed word for each check that R84 makes, part 1. -/
theorem test_wf_kernel_refused_1 : ∀ i ∈ ([
    .vadd ⟨0, 0, 4, 3, 1, 2, 0, 0⟩, .vsub ⟨7, 0, 1, 3, 1, 2, 0, 0⟩, .vmul ⟨0, 0, 1, 0x30, 1, 2, 0, 0⟩,
    .vdiv ⟨0, 0, 1, 3, 0x30, 2, 0, 0⟩, .vscl ⟨0, 0, 1, 3, 1, 0x50, 0, 0⟩, .vadd ⟨0, 0, 1, 3, 1, 2, 1, 0⟩,
    .vsub ⟨0, 0, 1, 3, 1, 2, 0, 2⟩, .vfma ⟨0, 0, 1, 3, 1, 2, 0x30, 0⟩, .vfms ⟨0, 0, 1, 3, 1, 2, 3, 2⟩,
    .vfnma ⟨7, 0, 1, 3, 1, 2, 3, 0⟩, .vfnms ⟨0, 0, 9, 3, 1, 2, 3, 0⟩, .vfma ⟨0, 0, 1, 0x80, 1, 2, 3, 0⟩,
    .vsqrt ⟨0, 0, 1, 3, 1, 1, 0, 0⟩, .vrsq ⟨0, 0, 1, 3, 1, 0, 0, 1⟩, .vsqrt ⟨0, 0, 1, 3, 1, 0, 1, 0⟩,
    .vrsq ⟨7, 0, 1, 3, 1, 0, 0, 0⟩, .vrcp ⟨0, 0, 1, 3, 1, 1, 0, 0⟩, .vrnd ⟨0, 0, 1, 3, 1, 0, 0, 2⟩,
    .vrcp ⟨0, 0, 0xb, 3, 1, 0, 0, 0⟩, .vmin ⟨1, 0, 1, 3, 1, 2, 0, 0⟩, .vmax ⟨0, 0, 1, 3, 1, 2, 0, 1⟩,
    .vminm ⟨0, 0, 1, 3, 1, 2, 1, 0⟩, .vabs ⟨1, 0, 1, 3, 1, 0, 0, 0⟩, .vneg ⟨0, 0, 1, 3, 1, 0, 0, 1⟩,
    .vabs ⟨0, 0, 1, 3, 1, 1, 0, 0⟩, .vcps ⟨1, 0, 1, 3, 1, 2, 0, 0⟩, .vcps ⟨0, 0, 1, 3, 1, 2, 0, 1⟩,
    .vcls ⟨0, 0, 1, 1, 1, 0, 0, 8⟩, .vcls ⟨0, 0, 1, 0, 1, 1, 0, 8⟩, .vcls ⟨0, 0, 1, 0, 1, 0, 1, 8⟩,
    .vcls ⟨1, 0, 1, 0, 1, 0, 0, 8⟩, .vcls ⟨0, 0, 9, 0, 1, 0, 0, 8⟩, .vcls ⟨0, 0, 1, 0, 0x30, 0, 0, 8⟩,
    .vcmp ⟨0, 0, 0xb, 1, 1, 2, 0, 1⟩, .vcmp ⟨0, 0, 4, 0, 1, 2, 0, 1⟩, .vcmp ⟨0, 0, 0xb, 0, 1, 2, 0, 0x40⟩,
    .vcmp ⟨0, 0, 0xb, 0, 1, 2, 1, 1⟩, .vcmp ⟨1, 0, 0xb, 0, 1, 2, 0, 1⟩, .vcmp ⟨0, 0, 0xb, 0, 1, 0x30, 0, 1⟩,
    .vexp ⟨0, 0, 1, 3, 1, 1, 0, 0⟩, .vexp2 ⟨0, 0, 1, 3, 1, 0, 0, 2⟩, .vlog ⟨7, 0, 1, 3, 1, 0, 0, 0⟩,
    .vlog2 ⟨0, 0, 9, 3, 1, 0, 0, 0⟩, .viadd ⟨1, 0, 0xb, 3, 1, 2, 0, 0⟩, .visub ⟨0, 0, 0xb, 3, 1, 2, 0, 2⟩,
    .vimul ⟨0, 0, 1, 3, 1, 2, 0, 0⟩, .vshl ⟨0, 0, 0xb, 3, 1, 2, 1, 0⟩, .vimad ⟨0, 0, 0xb, 3, 1, 2, 0x30, 0⟩,
    .vimad ⟨1, 0, 0xb, 3, 1, 2, 3, 0⟩, .vimad ⟨0, 0, 0x15, 3, 1, 2, 3, 0⟩, .vimulh ⟨0, 0, 0xb, 3, 1, 2, 0, 1⟩,
    .vimin ⟨1, 0, 0xb, 3, 1, 2, 0, 0⟩, .vimax ⟨0, 0, 1, 3, 1, 2, 0, 0⟩, .viabs ⟨0, 0, 0x13, 3, 1, 0, 0, 0⟩,
    .viabs ⟨0, 0, 0xb, 3, 1, 1, 0, 0⟩, .viabs ⟨0, 0, 0xb, 3, 1, 0, 0, 2⟩, .vnot ⟨0, 0, 0xb, 3, 1, 1, 0, 0⟩,
    .vnot ⟨0, 0, 0xb, 3, 1, 0, 0, 1⟩, .vmov ⟨0, 0, 6, 3, 1, 0, 0, 0⟩, .vmov ⟨0, 0, 9, 3, 1, 1, 0, 0⟩,
    .vmov ⟨0, 0, 9, 3, 1, 0, 0, 1⟩, .vmov ⟨1, 0, 9, 3, 1, 0, 0, 0⟩, .vbcast ⟨0, 0, 9, 3, 1, 1, 0, 0⟩,
    .vbcast ⟨0, 0, 9, 3, 0xd0, 0xd1, 0, 0⟩, .vbcast ⟨0, 0, 9, 3, 1, 0xd1, 0, 3⟩, .vbcast ⟨0, 0, 9, 3, 1, 0xd1, 0, 4⟩,
    .vbcast ⟨0, 0, 9, 3, 1, 0xd1, 1, 0⟩, .vbcast ⟨0, 0, 9, 0x80, 1, 0xd1, 0, 0⟩, .vtrn ⟨0, 0, 9, 3, 0xd0, 0, 0, 0⟩,
    .vtrn ⟨0, 0, 9, 3, 1, 1, 0, 0⟩, .vtrn ⟨0, 0, 9, 3, 1, 0, 0, 1⟩, .vsel ⟨0, 0, 9, 3, 1, 2, 0, 1⟩,
    .vsel ⟨1, 0, 9, 3, 1, 2, 0, 0⟩, .vsel ⟨0, 0, 9, 3, 1, 2, 1, 0⟩, .vld ⟨0, 0, 9, 3, 1, 0, 0, 0⟩,
    .vld ⟨0, 0, 9, 3, 0xd0, 1, 0, 0⟩, .vld ⟨0, 0, 9, 3, 0xd0, 0, 0, 0x1800⟩, .vld ⟨0, 0, 9, 3, 0xd0, 0, 0, 2⟩,
    .vld ⟨7, 0, 9, 3, 0xd0, 0, 0, 0⟩, .vld ⟨0, 0, 9, 3, 0xd0, 0, 0, 0x1000⟩, .vst ⟨0, 0, 9, 1, 0xd0, 0, 1, 0⟩,
    .vst ⟨1, 0, 9, 0, 0xd0, 0, 1, 0⟩, .vst ⟨0, 0, 9, 0, 0xd0, 0, 1, 1⟩, .vst ⟨0, 0, 9, 0, 0xd0, 0, 0x80, 0⟩] : List Instr), i.wf = false := by decide +kernel

/-- An ill-formed word for each check that R84 makes, part 2. -/
theorem test_wf_kernel_refused_2 : ∀ i ∈ ([
    .vst ⟨0, 0, 9, 0, 0xd0, 0, 1, 0x1800⟩, .vldl ⟨0, 0, 9, 1, 0xd0, 0, 0, 0⟩, .vldl ⟨0, 0, 9, 0x80, 0xd0, 1, 0, 0⟩,
    .vldl ⟨0, 0, 9, 0x80, 0xd0, 0, 1, 0⟩, .vldl ⟨0, 0, 9, 0x80, 0xd0, 0, 0, 2⟩, .vstl ⟨0, 0, 9, 1, 0xd0, 0, 0xa0, 0⟩,
    .vstl ⟨0, 0, 9, 0, 0xd0, 0, 1, 0⟩, .vstl ⟨1, 0, 9, 0, 0xd0, 0, 0xa0, 0⟩, .vstl ⟨0, 0, 9, 0, 0xd0, 0, 0xa0, 1⟩,
    .vgath ⟨0, 0, 9, 3, 0xd0, 0x80, 0, 0⟩, .vgath ⟨0, 0, 9, 3, 0xd0, 2, 1, 0⟩, .vgath ⟨0, 0, 9, 3, 0xd0, 2, 0, 2⟩,
    .vscat ⟨0, 0, 9, 1, 0xd0, 2, 3, 0⟩, .vscat ⟨0, 0, 9, 0, 0xd0, 0x80, 3, 0⟩, .vscat ⟨0, 0, 9, 0, 0xd0, 2, 0x80, 0⟩,
    .vscat ⟨1, 0, 9, 0, 0xd0, 2, 3, 0⟩, .vredr ⟨0, 0, 1, 1, 1, 0, 0, 0⟩, .vredc ⟨0, 0, 1, 0xa0, 1, 0, 0, 0⟩,
    .vredr ⟨0, 0, 1, 0x80, 1, 1, 0, 0⟩, .vredc ⟨0, 0, 1, 0x80, 1, 0, 0, 0x10⟩, .vredr ⟨0, 0, 1, 0x80, 1, 0, 0, 4⟩,
    .vredc ⟨1, 0, 1, 0x80, 1, 0, 0, 1⟩, .vredr ⟨0, 0, 6, 0x80, 1, 0, 0, 0⟩, .vscan ⟨0, 0, 1, 3, 1, 0x80, 0, 0⟩,
    .vscan ⟨0, 0, 1, 3, 1, 0, 0, 0x40⟩, .vscan ⟨0, 0, 1, 3, 1, 0x80, 0, 0xc0⟩, .vscan ⟨0, 0, 1, 3, 1, 0x80, 1, 0x40⟩,
    .vscan ⟨0, 0, 1, 0x80, 1, 0x80, 0, 0x40⟩, .vcvt ⟨0, 0, 1, 3, 1, 0, 0, 6⟩, .vcvt ⟨0, 0, 1, 3, 1, 0, 0, 0x4b⟩,
    .vcvt ⟨0, 0, 1, 3, 1, 1, 0, 0xb⟩, .vcvt ⟨1, 0, 0xb, 3, 1, 0, 0, 0xb⟩, .vpack ⟨0, 0, 1, 0, 0xd0, 0, 1, 0⟩,
    .vpack ⟨0, 0, 2, 1, 0xd0, 0, 1, 0⟩, .vpack ⟨0, 0, 2, 0, 0xd0, 0, 1, 1⟩, .vpack ⟨0, 0, 2, 0, 0xd0, 0, 1, 0x100⟩,
    .vpack ⟨0, 0, 2, 0, 0xd0, 0, 1, 2⟩, .vpack ⟨0, 0, 2, 0, 0xd0, 0, 1, 0x47e⟩, .vpack ⟨0, 0, 2, 0, 1, 0, 1, 0⟩,
    .vunpk ⟨0, 0, 1, 3, 0xd0, 0, 0, 0x600⟩, .vunpk ⟨0, 0, 1, 3, 0xd0, 0, 0, 2⟩, .vunpk ⟨0, 0, 1, 3, 0xd0, 0, 1, 0⟩,
    .vunpk ⟨0, 0, 9, 3, 0xd0, 0, 0, 0⟩, .vqnt ⟨0, 0, 1, 3, 1, 2, 3, 0⟩, .vqnt ⟨0, 0, 9, 3, 1, 2, 3, 4⟩,
    .vqnt ⟨0, 0, 9, 3, 1, 2, 0x30, 0⟩, .vqnt ⟨7, 0, 9, 3, 1, 2, 3, 0⟩, .pand ⟨0, 0, 0, 8, 2, 3, 0, 0⟩,
    .por ⟨0, 0, 0, 1, 8, 3, 0, 0⟩, .pxor ⟨0, 0, 0, 1, 2, 8, 0, 0⟩, .pand ⟨0, 0, 0, 1, 2, 3, 1, 0⟩,
    .por ⟨0, 0, 0, 1, 2, 3, 0, 1⟩, .pxor ⟨0, 0, 1, 1, 2, 3, 0, 0⟩, .pand ⟨0, 1, 0, 1, 2, 3, 0, 0⟩,
    .por ⟨1, 0, 0, 1, 2, 3, 0, 0⟩, .pnot ⟨0, 0, 0, 1, 2, 1, 0, 0⟩, .pnot ⟨0, 0, 0, 1, 2, 0, 0, 1⟩,
    .pset ⟨0, 0, 0, 1, 0xd0, 0, 0, 6⟩, .pset ⟨0, 0, 0, 1, 1, 0, 0, 2⟩, .pset ⟨0, 0, 0, 1, 0xd0, 0, 0, 0⟩,
    .pset ⟨0, 0, 0, 1, 0xd0, 1, 0, 2⟩, .pset ⟨0, 0, 0, 1, 0xd0, 0, 0, 8⟩, .vshape ⟨0, 0, 0, 0, 1, 0, 0, 0⟩,
    .vshape ⟨0, 0, 0, 1, 0xd0, 0, 0, 0⟩, .vshape ⟨0, 0, 0, 0, 0xd0, 0, 0, 1⟩, .vshape ⟨0, 0, 1, 0, 0xd0, 0, 0, 0⟩,
    .loop ⟨0, 0, 0, 0, 1, 0, 0, 1⟩, .loop ⟨0, 0, 0, 0, 0xd0, 0, 0, 0x101⟩, .loop ⟨0, 0, 0, 0, 0xd0, 1, 0, 1⟩,
    .loop ⟨0, 0, 0, 0, 0xd0, 0, 0, 0x1001⟩, .loop ⟨0, 0, 0, 1, 0xd0, 0, 0, 1⟩, .rot ⟨0, 0, 0, 0, 0, 0, 0, 0x30⟩,
    .rot ⟨0, 0, 0, 0, 0, 0, 0, 0x81⟩, .rot ⟨0, 0, 0, 0, 1, 0, 0, 0x41⟩, .vsets ⟨0, 0, 0, 0xd0, 0, 0, 0, 0xc03⟩,
    .vsets ⟨0, 0, 0, 0xd0, 0, 0, 0, 0x1001⟩, .vsets ⟨0, 0, 0, 0xd0, 0, 0, 0, 0x1800⟩, .vsets ⟨0, 0, 0, 1, 0, 0, 0, 0xc01⟩,
    .vsets ⟨0, 0, 0, 0xd0, 0x10, 0, 0, 0x400⟩, .vdone ⟨0, 0, 0, 1, 0, 0, 0, 0⟩, .vdone ⟨0, 0, 0, 0, 1, 0, 0, 0⟩,
    .vdone ⟨0, 0, 0, 0, 0, 1, 0, 0⟩, .vdone ⟨0, 0, 0, 0, 0, 0, 1, 0⟩, .vdone ⟨0, 0, 0, 0, 0, 0, 0, 1⟩,
    .vdone ⟨0, 1, 0, 0, 0, 0, 0, 0⟩] : List Instr), i.wf = false := by decide +kernel

/-- A field that passes bit 63 (Table 3.2); a minimum with a mode, or with REORD (R134); a refusal of a word that decodes. -/
theorem test_wf_refused : ∀ i ∈ ([.exts 1 2 32 32, .extz 1 2 63 1, .insf 1 2 1 63, .famo 1 2 3 .min .rna .w .core false,
    .famo 1 2 3 .max .rne .d .core true, .illegalInstruction 0x00220018 false,
    .illegalInstruction 0x3C000000 true] : List Instr), i.wf = false := by decide +kernel

/-- The same, well-formed. -/
theorem test_wf : ∀ i ∈ ([.exts 1 2 32 31, .extz 1 2 63 0, .insf 1 2 0 63, .famo 1 2 3 .min .rne .w .core false,
    .famo 1 2 3 .add .rna .d .core true, .illegalInstruction 0x3C000000 false, .add 1 2 3,
    .illegalInstruction 0x0041181A true] : List Instr), i.wf = true := by decide +kernel

/-- Undefined and reserved words: major 0x0F and fn 0x7FF of major 0x00 name no instruction; CTZ with b ≠ 0, SEL with
fn[5:0] ≠ 0, an EXTS whose field passes bit 63 and an H register past 15 are reserved (R78, R79). -/
theorem test_no_instruction : decodeDocent 0x3C000000 = .undefined ∧ decodeDocent 0x0022FFFF = .undefined ∧
    decodeDocent (BitVec.ofNat 32 (formA 0x00 2 1 3 0x01A)) = .reserved ∧
    decodeDocent (BitVec.ofNat 32 (formA 0x01 1 2 3 1)) = .reserved ∧
    decodeDocent (BitVec.ofNat 32 (formI 0x0C 1 2 (64 * 32 + 32))) = .reserved := by decide +kernel

/-! ### Single steps -/

/-- X1 of the acting context after one step. -/
def x1 (s : State) : Word :=
  match step s with
  | .next t => t.acting.getX 1
  | _ => 0xDEAD

/-- X2 and X3 hold two values at a docent word. -/
def operands (w : Nat) (a b : Word) : State := reg (reg (placed w) 2 a) 3 b

/-- MULHN of 2^63 and 6: the upper half of 3 · 2^64 (Table 4.1). -/
theorem test_mulhn : x1 (operands (formA 0x00 1 2 3 0x005) 0x8000000000000000 6) = 3 := by decide +kernel

/-- DIV by zero gives all ones (Table 4.1). -/
theorem test_div_zero : x1 (operands (formA 0x00 1 2 3 0x006) 7 0) = 0xFFFFFFFFFFFFFFFF := by decide +kernel

/-- SRA of the least number by 63 gives all ones (Table 4.1). -/
theorem test_sra : x1 (operands (formA 0x00 1 2 3 0x010) 0x8000000000000000 63) = 0xFFFFFFFFFFFFFFFF := by
  decide +kernel

/-- SLTN compares natural numbers (Table 4.1). -/
theorem test_sltn : x1 (operands (formA 0x00 1 2 3 0x017) 1 0xFFFFFFFFFFFFFFFF) = 1 := by decide +kernel

/-- CLZ of zero is 64 (Table 4.1). -/
theorem test_clz_zero : x1 (operands (formA 0x00 1 2 0 0x019) 0 0) = 64 := by decide +kernel

/-- ADDI of −1 (R116). -/
theorem test_addi : x1 (operands (formI 0x02 1 2 0xFFFF) 0 0) = 0xFFFFFFFFFFFFFFFF := by decide +kernel

/-- BRK with no vector ends the task: its context is EMPTY (R384). -/
theorem test_brk_unhandled : (match exec .brk idle with
    | .next t => (t.ctx idle.me).state == .empty
    | _ => false) = true := by decide +kernel

/-- A trap enters the handler at TVEC, at level S, with EPC at the instruction (R384). -/
theorem test_trap_entry : (match exec .trap (idle.becomes { idle.acting with tvec := 0x1000 }) with
    | .next t => t.acting.pc == 0x1000 && t.acting.epc == idle.acting.pc && t.acting.level == .s && t.acting.ecause == 0x10
    | _ => false) = true := by decide +kernel

/-- A queued store is performed in byte order (R120). -/
theorem test_store : (match exec (.storePerformed storing.me) storing with
    | .next t => reads (t.readVa { t.docentAgent t.me (.load t.me 0) with sup := false } (home 64) 1) 1 &&
        Memory.byte t.mem (spot idle 64) == 0x88 && Memory.byte t.mem (spot idle 64 + 7) == 0x11 && t.acting.stores == []
    | _ => false) = true := by decide +kernel

end Sys2Proof.Tests
end

section
/-! PROOFS. Machine state: turns and time (O28), system registers (O30), signal counters (O35), vector registers (O40). -/

namespace Sys2Proof.Machine

/-! ### Whether an instruction waits for the outstanding load -/

/-- A context that awaits none of an instruction's registers does not stall it (R121). -/
theorem Context.stalls_of_not_awaits {x : Context} {regs : List XReg} (h : ¬ x.Awaits regs) :
    x.stalls regs false = false := by
  cases hl : x.load with
  | none => exact x.stalls_none regs false hl
  | some l =>
    have hd : l.dest ∉ regs := fun m => h ⟨l, hl, m⟩
    simp [Context.stalls, hl, hd]

/-- An instruction that awaits no register goes on. -/
theorem State.plain_of_not_awaits (s : State) (i : Issue) (regs : List XReg) (f : Context → Context)
    (h : ¬ s.acting.Awaits regs) : s.plain i regs f = .next (s.retire i f) := by
  simp [State.plain, Context.stalls_of_not_awaits h]

/-! ### Time (R411, log 5) -/

/-- An observation of time changes the device time and the count of free values only, and never turns time back. -/
theorem State.observeTime_eq (s : State) :
    ∃ v : Word, s.time.toNat ≤ v.toNat ∧ s.observeTime = { s with free := s.free + 1, time := v } := by
  refine ⟨_, ?_, rfl⟩
  have ht : s.time.toNat < 2 ^ 64 := s.time.isLt
  rw [BitVec.toNat_ofNat, Nat.mod_eq_of_lt] <;> omega

/-! ### The docent's choice of context (R14) -/

theorem State.runs_me (s : State) (c : CoreId) (a : CtxId) (h : c = s.focus) : (s.runs c a).me = ⟨c, a⟩ := by
  subst h
  simp [State.runs, State.me]

theorem State.runs_ctx (s : State) (c : CoreId) (a : CtxId) :
    (s.runs c a).ctx ⟨c, a⟩ = { s.ctx ⟨c, a⟩ with state := .running, ranAt := s.now } := by
  simp [State.runs, State.ctx, State.setCtx]

/-- No context is served before itself. -/
theorem State.better_refl (s : State) (c : CoreId) (a : CtxId) : s.better c a a = true := by
  simp [State.better]

theorem filter_finRange_eq (a : CtxId) (p : CtxId → Bool) (h : ∀ k, p k = true ↔ k = a) :
    (List.finRange 8).filter p = [a] := by
  have hp : p = (· == a) := funext fun k => Bool.eq_iff_iff.2 (by simpa using h k)
  subst hp
  revert a
  decide

/-- The docent chooses the only READY context of its core. -/
theorem State.select_sole (s : State) (c : CoreId) (a : CtxId) (h : ∀ k, (s.ctx ⟨c, k⟩).state = .ready ↔ k = a) :
    s.select c = s.runs c a := by
  have hr := filter_finRange_eq a (fun k => (s.ctx ⟨c, k⟩).state == .ready) (by simpa using h)
  simp only [State.select, hr]
  simp [State.better_refl]

/-! ### YIELD and the end of a turn -/

theorem exec_yield (s : State) : exec .yield s = .next ((s.becomes { s.acting with
    pc := s.acting.pc + 4, state := .ready, readyAt := s.now }).select s.focus) := rfl

/-- A context that yields while no other of its core is READY runs on. -/
theorem exec_yield_alone (s : State) (h : ∀ j, j ≠ s.me.ctx → (s.ctx ⟨s.focus, j⟩).state ≠ .ready) :
    ∃ t, exec .yield s = .next t ∧ t.me = s.me ∧ t.acting.state = .running ∧ t.acting.pc = s.acting.pc + 4 := by
  let y := s.becomes { s.acting with pc := s.acting.pc + 4, state := .ready, readyAt := s.now }
  have hy : y.ctx s.me = { s.acting with pc := s.acting.pc + 4, state := .ready, readyAt := s.now } :=
    State.ctx_setCtx_same _ _ _
  have sole : ∀ k, (y.ctx ⟨s.focus, k⟩).state = .ready ↔ k = s.me.ctx := by
    intro k
    by_cases hk : k = s.me.ctx
    · subst hk
      exact iff_of_true (congrArg Context.state hy) rfl
    · have apart : s.me ≠ ⟨s.focus, k⟩ := fun e => hk (congrArg CtxRef.ctx e).symm
      have same : y.ctx ⟨s.focus, k⟩ = s.ctx ⟨s.focus, k⟩ := State.ctx_setCtx_other _ _ _ _ apart
      exact iff_of_false (same ▸ h k hk) hk
  have me : (y.runs s.focus s.me.ctx).me = s.me := y.runs_me s.focus s.me.ctx rfl
  have ctx : (y.runs s.focus s.me.ctx).acting = { y.ctx s.me with state := .running, ranAt := y.now } := by
    rw [State.acting, me]
    exact y.runs_ctx s.focus s.me.ctx
  refine ⟨y.runs s.focus s.me.ctx, ?_, me, ?_, ?_⟩
  · rw [exec_yield, State.select_sole y _ _ sole]
  · rw [ctx]
  · rw [ctx, hy]

/-- A turn of 256 cycles ends while another context is READY (R14). -/
theorem exec_turnExpiry (s : State) (c : CoreId) (hr : (s.ctx ⟨c, (s.core c).cur⟩).state = .running)
    (ht : 256 ≤ (s.core c).turn) (ho : ∃ j, (s.ctx ⟨c, j⟩).state = .ready) :
    exec (.turnExpiry c) s = .next ((s.setCtx ⟨c, (s.core c).cur⟩
      { s.ctx ⟨c, (s.core c).cur⟩ with state := .ready, readyAt := s.now }).select c) := by
  have others : ((List.finRange 8).any fun j => (s.ctx ⟨c, j⟩).state == .ready) = true := by
    simpa using ho
  exact if_pos ⟨hr, ht, others⟩

/-! ### TIME and TCOORD -/

/-- TILEC is word 0 of the task image from bit 16 on (Table 1.7). -/
theorem State.tilec_eq (s : State) (u : CtxRef) :
    s.tilec u = BitVec.ofNat 64 ((vget (s.entry u.core (s.ctx u).task).image 0).toNat / 2 ^ 16) := by
  have hw := (vget (s.entry u.core (s.ctx u).task).image 0).isLt
  rw [State.tilec, Entry.field, Entry.word, bits, Nat.shiftRight_eq_div_pow, Nat.mod_eq_of_lt (by omega)]

theorem exec_time (s : State) (d : XReg) (h : ¬ s.acting.Awaits [d]) :
    ∃ v : Word, s.time.toNat ≤ v.toNat ∧ exec (.time d) s = .next ({ s with free := s.free + 1, time := v }.puts d v) := by
  obtain ⟨v, hv, hs⟩ := s.observeTime_eq
  refine ⟨v, hv, ?_⟩
  change execTime d s = _
  simp only [execTime, Context.stalls_of_not_awaits h, hs]
  rfl

theorem exec_tcoord (s : State) (d : XReg) (h : ¬ s.acting.Awaits [d]) :
    exec (.tcoord d) s = .next (s.puts d (s.tilec s.me)) :=
  s.plain_of_not_awaits _ _ _ h

/-- Settles O28: the docent's choice with one READY context, and the bounds of the time observed. -/
theorem turnsAndTime : Obligations.TurnsAndTime := by
  unfold Obligations.TurnsAndTime
  refine ⟨exec_yield, exec_turnExpiry, exec_yield_alone, fun s d h => ⟨exec_time s d h, ?_⟩⟩
  rw [exec_tcoord s d h, State.tilec_eq]
  rfl

/-! ### SYSR: the checks, and the value read (R29, R30) -/

theorem sysAssigned_eq_false {r : BitVec 10} (h : 0x00C < r.toNat ∧ r.toNat < 0x100 ∨ 0x106 < r.toNat) :
    sysAssigned r = false := by
  simp only [sysAssigned, Bool.or_eq_false_iff, Bool.and_eq_false_iff, decide_eq_false_iff_not]
  omega

theorem sysAssigned_eq_true {r : BitVec 10} (h : r.toNat ≤ 0x00C ∨ 0x100 ≤ r.toNat ∧ r.toNat ≤ 0x106) :
    sysAssigned r = true := by
  simpa [sysAssigned] using h

theorem exec_sysr_unassigned (s : State) (d : XReg) (r : BitVec 10) (hl : s.acting.load = none)
    (ha : sysAssigned r = false) : exec (.sysr d r) s = .next (s.traps 0x01 (wordEval (.sysr d r))) := by
  change execSysr d r s = _
  simp only [execSysr, Context.stalls_none _ _ _ hl, ha]
  rfl

theorem exec_sysr_privileged (s : State) (d : XReg) (r : BitVec 10) (hl : s.acting.load = none)
    (ha : sysAssigned r = true) (hu : s.acting.level = .u) (hr : 0x100 ≤ r.toNat) :
    exec (.sysr d r) s = .next (s.traps 0x09 (wordEval (.sysr d r))) := by
  change execSysr d r s = _
  simp only [execSysr, Context.stalls_none _ _ _ hl, ha]
  rw [if_neg (by decide), if_neg (by decide), if_pos ⟨hr, hu⟩]
  rfl

/-- A permitted read: what the register shows once time or cycles have passed. -/
theorem exec_sysr_reads (s : State) (d : XReg) (r : BitVec 10) (hl : s.acting.load = none)
    (ha : sysAssigned r = true) (hp : r.toNat < 0x100 ∨ s.acting.level = .s) :
    exec (.sysr d r) s = .next ((s.observe r).retire s.acting.issue fun x =>
      x.setX d ((s.observe r).sysValue (s.observe r).me r)) := by
  have hn : ¬ (r.toNat ≥ 0x100 ∧ s.acting.level = .u) := by
    rintro ⟨h1, h2⟩
    rcases hp with hp | hp
    · omega
    · simp [hp] at h2
  change execSysr d r s = _
  simp only [execSysr, Context.stalls_none _ _ _ hl, ha]
  rw [if_neg (by decide), if_neg (by decide), if_neg hn]

/-- A permitted read of a register other than TIME and CYCLES. -/
theorem exec_sysr_puts (s : State) (d : XReg) (r : BitVec 10) (hl : s.acting.load = none)
    (ha : sysAssigned r = true) (hr : r ≠ 0x000 ∧ r ≠ 0x001) (hp : r.toNat < 0x100 ∨ s.acting.level = .s) :
    exec (.sysr d r) s = .next (s.puts d (s.sysValue s.me r)) := by
  have ho : s.observe r = s := by simp only [State.observe, if_neg hr.1, if_neg hr.2]
  rw [exec_sysr_reads s d r hl ha hp, ho]
  rfl

/-- The registers of both levels, TIME and CYCLES apart. -/
theorem exec_sysr_common (s : State) (d : XReg) (r : BitVec 10) (hl : s.acting.load = none)
    (hr : 0x002 ≤ r.toNat ∧ r.toNat ≤ 0x00C) : exec (.sysr d r) s = .next (s.puts d (s.sysValue s.me r)) := by
  refine exec_sysr_puts s d r hl (sysAssigned_eq_true (.inl hr.2)) ⟨?_, ?_⟩ (.inl (by omega)) <;>
  · rintro rfl
    exact absurd hr.1 (by decide)

/-- The registers of level S alone. -/
theorem exec_sysr_supervisor (s : State) (d : XReg) (r : BitVec 10) (hl : s.acting.load = none)
    (hs : s.acting.level = .s) (hr : 0x100 ≤ r.toNat ∧ r.toNat ≤ 0x106) :
    exec (.sysr d r) s = .next (s.puts d (s.sysValue s.me r)) := by
  refine exec_sysr_puts s d r hl (sysAssigned_eq_true (.inr hr)) ⟨?_, ?_⟩ (.inr hs) <;>
  · rintro rfl
    exact absurd hr.1 (by decide)

/-- TIME reads a time not before the last one (log 5). -/
theorem exec_sysr_time (s : State) (d : XReg) (hl : s.acting.load = none) :
    ∃ v : Word, s.time.toNat ≤ v.toNat ∧
      exec (.sysr d 0x000) s = .next ({ s with free := s.free + 1, time := v }.puts d v) := by
  obtain ⟨v, hv, ht⟩ := s.observeTime_eq
  have ho : s.observe 0x000 = { s with free := s.free + 1, time := v } := ht
  refine ⟨v, hv, ?_⟩
  rw [exec_sysr_reads s d _ hl (by decide) (.inl (by decide)), ho]
  rfl

/-- CYCLES reads a free count, which is the core's from then on (log 5). -/
theorem exec_sysr_cycles (s : State) (d : XReg) (hl : s.acting.load = none) :
    ∃ v : Word, exec (.sysr d 0x001) s = .next (({ s with free := s.free + 1 }.setCore s.focus
      { s.core s.focus with cycles := v }).puts d v) := by
  let v : Word := (s.core s.focus).cycles + BitVec.ofNat 64 (Config.elapsedCycles s.free)
  let t : State := { s with free := s.free + 1 }.setCore s.focus { s.core s.focus with cycles := v }
  have ho : s.observe 0x001 = t := rfl
  have core : t.core s.focus = { s.core s.focus with cycles := v } := State.core_setCore_same _ _ _
  have cur : (t.core s.focus).cur = (s.core s.focus).cur := by rw [core]
  have ctxs : (t.core s.focus).ctxs = (s.core s.focus).ctxs := by rw [core]
  have me : t.me = s.me := congrArg (CtxRef.mk s.focus) cur
  have acting : t.acting = s.acting := by
    rw [State.acting, me]
    exact congrArg (fun l => vget l s.me.ctx) ctxs
  have value : t.sysValue t.me 0x001 = v := by
    change (t.core s.focus).cycles = v
    rw [core]
  refine ⟨v, ?_⟩
  rw [exec_sysr_reads s d _ hl (by decide) (.inl (by decide)), ho, value, ← acting]
  rfl

/-- PSTAT: bit 0 is the level, bit 1 the previous one. -/
theorem State.sysValue_pstat (s : State) (u : CtxRef) : s.sysValue u 0x100
    = (if (s.ctx u).level = .s then 1 else 0) + (if (s.ctx u).prev = .s then 2 else 0) := by
  change BitVec.ofNat 64 (levelBit (s.ctx u).level + 2 * levelBit (s.ctx u).prev) = _
  cases (s.ctx u).level <;> cases (s.ctx u).prev <;> rfl

/-! ### GMEMB (Table 1.7) -/

/-- A sum of shifted terms is the number that has them as its digits. -/
theorem foldl_shifted_eq_ofDigits {α : Type} (f : α → Nat) (l : List α) (k a : Nat) :
    (l.zipIdx k).foldl (fun a p => a + f p.1 * 2 ^ (16 * p.2)) a
      = a + 2 ^ (16 * k) * Nat.ofDigits (2 ^ 16) (l.map f) := by
  induction l generalizing k a with
  | nil => simp
  | cons x l ih =>
    rw [List.zipIdx_cons, List.foldl_cons, ih, List.map_cons, Nat.ofDigits_cons]
    ring

/-- Digit `i` of a number given by its digits. -/
theorem ofDigits_digit (b : Nat) (hb : 0 < b) (l : List Nat) (hl : ∀ x ∈ l, x < b) (i : Nat) :
    Nat.ofDigits b l / b ^ i % b = l.getD i 0 := by
  rw [Nat.ofDigits_div_pow_eq_ofDigits_drop i hb l hl, Nat.ofDigits_mod_eq_head!]
  cases h : l.drop i with
  | nil => simp [List.getD, List.drop_eq_nil_iff.1 h]
  | cons x r =>
    have hx : l[i]? = some x := by rw [← List.head?_drop, h]; rfl
    have hm : x < b := hl x (List.mem_of_getElem? hx)
    simp [List.getD, hx, Nat.mod_eq_of_lt hm]

/-- GMEMB holds the core's four lowest groups, 16 bits each: the group's number with bit 8 set, or 0. -/
theorem State.gmemb_digit (s : State) (c : CoreId) (i : Nat) (hi : i < 4) :
    (s.gmemb c).toNat / 2 ^ (16 * i) % 2 ^ 16 = match (s.groupsOf c)[i]? with
      | some g => g.val + 256
      | none => 0 := by
  let l := ((s.groupsOf c).take 4).map fun g => g.val + 256
  have hd : ∀ x ∈ l, x < 2 ^ 16 := by
    intro x hx
    obtain ⟨g, -, rfl⟩ := List.mem_map.1 hx
    omega
  have hlt : Nat.ofDigits (2 ^ 16) l < 2 ^ 64 :=
    calc Nat.ofDigits (2 ^ 16) l < (2 ^ 16) ^ l.length := Nat.ofDigits_lt_base_pow_length (by decide) hd
      _ ≤ (2 ^ 16) ^ 4 := Nat.pow_le_pow_right (by decide) (by simp [l])
      _ = 2 ^ 64 := by decide
  have hv : (s.gmemb c).toNat = Nat.ofDigits (2 ^ 16) l := by
    rw [State.gmemb, BitVec.toNat_ofNat, foldl_shifted_eq_ofDigits (fun g : GroupNum => g.val + 256),
      Nat.zero_add, Nat.mul_zero, Nat.pow_zero, Nat.one_mul, Nat.mod_eq_of_lt hlt]
  rw [hv, Nat.pow_mul, ofDigits_digit _ (by decide) l hd, List.getD, List.getElem?_map, List.getElem?_take_of_lt hi]
  cases (s.groupsOf c)[i]? <;> rfl

/-! ### SYSW: the checks, and the value written (R29, R30, R148) -/

/-- The registers that level S may write (Table 1.7). -/
theorem sysWritable_iff (r : BitVec 10) : sysWritable r = true ↔ r.toNat ∈ [0x008, 0x100, 0x101, 0x102, 0x105, 0x106] :=
  List.contains_iff_mem

theorem sysAssigned_of_sysWritable {r : BitVec 10} (h : sysWritable r = true) : sysAssigned r = true := by
  have hm := (sysWritable_iff r).1 h
  simp only [List.mem_cons, List.not_mem_nil, or_false] at hm
  exact sysAssigned_eq_true (by omega)

theorem exec_sysw_unassigned (s : State) (d : XReg) (r : BitVec 10) (hl : s.acting.load = none)
    (ha : sysAssigned r = false) : exec (.sysw d r) s = .next (s.traps 0x01 (wordEval (.sysw d r))) := by
  change execSysw d r s = _
  simp only [execSysw, Context.stalls_none _ _ _ hl, ha]
  rfl

theorem exec_sysw_privileged (s : State) (d : XReg) (r : BitVec 10) (hl : s.acting.load = none)
    (ha : sysAssigned r = true) (hp : s.acting.level = .u ∨ ¬ sysWritable r = true) :
    exec (.sysw d r) s = .next (s.traps 0x09 (wordEval (.sysw d r))) := by
  have hp' : s.acting.level = .u ∨ (!sysWritable r) = true := by simpa using hp
  change execSysw d r s = _
  simp only [execSysw, Context.stalls_none _ _ _ hl, ha]
  rw [if_neg (by decide), if_neg (by decide), if_pos hp']
  rfl

/-- At level S a write of a writable register is made, unless reserved bits of it are set. -/
theorem exec_sysw_permitted (s : State) (d : XReg) (r : BitVec 10) (hl : s.acting.load = none)
    (hs : s.acting.level = .s) (hw : sysWritable r = true) :
    exec (.sysw d r) s = if sysReserved r (s.acting.getX d) then .next (s.traps 0x02 (wordEval (.sysw d r)))
      else .next ((if r = 0x106 then s.setPart (s.partOf s.focus)
          { s.part (s.partOf s.focus) with vseed := s.acting.getX d } else s).retire s.acting.issue
        fun x => x.sysWrite r (s.acting.getX d)) := by
  have hp : ¬ (s.acting.level = .u ∨ (!sysWritable r) = true) := by simp [hs, hw]
  change execSysw d r s = _
  simp only [execSysw, Context.stalls_none _ _ _ hl, sysAssigned_of_sysWritable hw]
  rw [if_neg (by decide), if_neg (by decide), if_neg hp]
  rfl

theorem exec_sysw_reserved (s : State) (d : XReg) (r : BitVec 10) (hl : s.acting.load = none)
    (hs : s.acting.level = .s) (hw : sysWritable r = true) (hr : sysReserved r (s.acting.getX d) = true) :
    exec (.sysw d r) s = .next (s.traps 0x02 (wordEval (.sysw d r))) := by
  rw [exec_sysw_permitted s d r hl hs hw, if_pos hr]

/-- A permitted write of a register of the context. -/
theorem exec_sysw_becomes (s : State) (d : XReg) (r : BitVec 10) (hl : s.acting.load = none)
    (hs : s.acting.level = .s) (hw : sysWritable r = true) (hr : sysReserved r (s.acting.getX d) = false)
    (hv : r ≠ 0x106) : exec (.sysw d r) s
      = .next (s.becomes { s.acting.sysWrite r (s.acting.getX d) with pc := s.acting.pc + 4 }) := by
  rw [exec_sysw_permitted s d r hl hs hw, hr, if_neg (by decide), if_neg hv]
  rfl

/-- A permitted write of VSEED, which is the partition's. -/
theorem exec_sysw_vseed (s : State) (d : XReg) (hl : s.acting.load = none) (hs : s.acting.level = .s) :
    exec (.sysw d 0x106) s = .next ((s.setPart (s.partOf s.focus)
      { s.part (s.partOf s.focus) with vseed := s.acting.getX d }).onward) := by
  rw [exec_sysw_permitted s d _ hl hs (by decide)]
  rfl

/-! ### Reserved bits (R30) -/

theorem sysReserved_tflags (v : Word) : sysReserved 0x008 v = true ↔ 32 ≤ v.toNat := by
  change (v.toNat >>> 5 != 0) = true ↔ _
  rw [bne_iff_ne, Nat.shiftRight_eq_div_pow]
  omega

theorem sysReserved_pstat (v : Word) : sysReserved 0x100 v = true ↔ 4 ≤ v.toNat := by
  change (v.toNat >>> 2 != 0) = true ↔ _
  rw [bne_iff_ne, Nat.shiftRight_eq_div_pow]
  omega

theorem sysReserved_tvec (v : Word) : sysReserved 0x101 v = true ↔ v.toNat % 64 ≠ 0 := bne_iff_ne

/-- The levels that a written PSTAT holds. -/
theorem Context.sysWrite_pstat (x : Context) (v : Word) (h : v.toNat < 4) : x.sysWrite 0x100 v = { x with
    level := if v.toNat % 2 = 1 then .s else .u
    prev := if v.toNat / 2 = 1 then .s else .u } := by
  have h0 : v.getLsbD 0 = decide (v.toNat % 2 = 1) := Nat.testBit_zero ..
  have h1 : v.getLsbD 1 = decide (v.toNat / 2 = 1) := by
    rw [BitVec.getLsbD, Nat.testBit_eq_decide_div_mod_eq, Nat.mod_eq_of_lt (by omega)]
  change { x with level := levelOf (v.getLsbD 0), prev := levelOf (v.getLsbD 1) } = _
  simp only [h0, h1, levelOf, decide_eq_true_eq]

/-- Settles O30: the checks in their order, then the registers one by one. -/
theorem systemRegisters : Obligations.SystemRegisters := by
  unfold Obligations.SystemRegisters
  constructor
  · intro s d hl
    have common := fun (r : BitVec 10) (hr : 0x002 ≤ r.toNat ∧ r.toNat ≤ 0x00C) => exec_sysr_common s d r hl hr
    refine ⟨fun r hr => exec_sysr_unassigned s d r hl (sysAssigned_eq_false hr),
      fun hu r hr => exec_sysr_privileged s d r hl (sysAssigned_eq_true (.inr hr)) hu hr.1,
      common 0x002 (by decide), common 0x003 (by decide), common 0x004 (by decide), common 0x005 (by decide),
      common 0x006 (by decide), common 0x008 (by decide), common 0x009 (by decide), common 0x00B (by decide),
      common 0x00C (by decide), ?_, ?_, exec_sysr_cycles s d hl, exec_sysr_time s d hl, ?_⟩
    · rw [common 0x007 (by decide), show s.sysValue s.me 0x007 = _ from s.tilec_eq s.me]
      rfl
    · exact ⟨s.gmemb s.focus, common 0x00A (by decide), s.gmemb_digit s.focus⟩
    · intro hs
      have sup := fun (r : BitVec 10) (hr : 0x100 ≤ r.toNat ∧ r.toNat ≤ 0x106) => exec_sysr_supervisor s d r hl hs hr
      refine ⟨?_, sup 0x101 (by decide), sup 0x102 (by decide), sup 0x103 (by decide), sup 0x104 (by decide),
        sup 0x105 (by decide), sup 0x106 (by decide)⟩
      rw [sup 0x100 (by decide), State.sysValue_pstat]
  · intro s d hl v go
    refine ⟨fun r hr => exec_sysw_unassigned s d r hl (sysAssigned_eq_false hr),
      fun r hr hp => exec_sysw_privileged s d r hl (sysAssigned_eq_true hr) (hp.imp_right (mt (sysWritable_iff r).1)), ?_⟩
    intro hs
    have takes := fun (r : BitVec 10) (hw : sysWritable r = true) => exec_sysw_becomes s d r hl hs hw
    have refuses := fun (r : BitVec 10) (hw : sysWritable r = true) => exec_sysw_reserved s d r hl hs hw
    refine ⟨fun hv => takes 0x008 (by decide) ?_ (by decide),
      fun hv => refuses 0x008 (by decide) ((sysReserved_tflags v).2 hv), fun hv => ?_,
      fun hv => refuses 0x100 (by decide) ((sysReserved_pstat v).2 hv),
      fun hv => takes 0x101 (by decide) ?_ (by decide),
      fun hv => refuses 0x101 (by decide) ((sysReserved_tvec v).2 hv), takes 0x102 (by decide) rfl (by decide),
      takes 0x105 (by decide) rfl (by decide), exec_sysw_vseed s d hl hs⟩
    · exact Bool.eq_false_iff.2 (mt (sysReserved_tflags v).1 (Nat.not_le.2 hv))
    · rw [takes 0x100 (by decide) (Bool.eq_false_iff.2 (mt (sysReserved_pstat v).1 (Nat.not_le.2 hv))) (by decide),
        Context.sysWrite_pstat _ _ hv]
    · exact Bool.eq_false_iff.2 (mt (sysReserved_tvec v).1 (not_not.2 hv))

/-! ### Settling a counter (R27) -/

/-- A counter flips when its threshold is set and reached. -/
def Counter.Flips (k : Counter) : Prop := k.expect ≠ 0 ∧ (k.expect.toNat : Int) ≤ k.count.toInt

theorem Counter.settle_of_not_flips {k : Counter} (h : ¬ k.Flips) : k.settle = k := if_neg h

/-- A flip takes the threshold from the count and clears it, and PHASE changes. -/
theorem Counter.settle_of_flips {k : Counter} (h : k.Flips) :
    k.settle = { k with count := k.count - k.expect, expect := 0, phase := !k.phase } := if_pos h

/-- A threshold that is reached is taken from the count without overflow. -/
theorem Counter.toInt_count_sub_expect {k : Counter} (h : k.Flips) :
    (k.count - k.expect).toInt = k.count.toInt - k.expect.toNat := by
  obtain ⟨-, hle⟩ := h
  have hlt : k.count.toInt < 2 ^ 31 := BitVec.toInt_lt
  rw [BitVec.toInt_eq_toNat_cond] at hle hlt ⊢
  rw [BitVec.toInt_eq_toNat_cond, BitVec.toNat_sub]
  split at hle <;> split <;> omega

/-- Settling leaves ERR and ABAND. -/
theorem Counter.settle_marks (k : Counter) : k.settle.err = k.err ∧ k.settle.aband = k.aband := by
  by_cases h : k.Flips
  · rw [Counter.settle_of_flips h]
    exact ⟨rfl, rfl⟩
  · rw [Counter.settle_of_not_flips h]
    exact ⟨rfl, rfl⟩

/-- What a flip leaves in the counter. -/
theorem Counter.settle_flip {k : Counter} (h : k.Flips) : k.settle.count.toInt = k.count.toInt - k.expect.toNat ∧
    k.settle.expect = 0 ∧ k.settle.phase = !k.phase := by
  rw [Counter.settle_of_flips h]
  exact ⟨Counter.toInt_count_sub_expect h, rfl, rfl⟩

/-! ### Arrivals and armings -/

theorem toInt_ofInt_sat32 (v : Int) : (BitVec.ofInt 32 (sat32 v)).toInt = sat32 v := by
  have h : -(2 ^ 31 : Int) ≤ sat32 v ∧ sat32 v < 2 ^ 31 := by
    unfold sat32
    omega
  exact BitVec.toInt_ofInt_eq_self (by decide) h.1 h.2

/-- An arrival saturates the count, marks an overflow, and settles. -/
theorem Counter.arrive_spec (k : Counter) (n : Int) (aband : Bool) :
    let v := k.count.toInt + n
    let c := max (-(2 ^ 31 : Int)) (min (2 ^ 31 - 1) v)
    let r := k.arrive n false aband
    let flip : Prop := k.expect ≠ 0 ∧ (k.expect.toNat : Int) ≤ c
    r.err = (k.err || decide (v > 2 ^ 31 - 1 ∨ v < -(2 ^ 31 : Int))) ∧ r.aband = (k.aband || aband) ∧
    (flip → r.count.toInt = c - k.expect.toNat ∧ r.expect = 0 ∧ r.phase = !k.phase) ∧
    (¬ flip → r.count.toInt = c ∧ r.expect = k.expect ∧ r.phase = k.phase) := by
  intro v c r flip
  let added : Counter := { k with
    count := BitVec.ofInt 32 (sat32 v)
    err := k.err || false || decide (v > 2147483647) || decide (v < -2147483648)
    aband := k.aband || aband }
  have hr : r = added.settle := rfl
  have hc : added.count.toInt = c := toInt_ofInt_sat32 v
  have hf : added.Flips ↔ flip := by
    unfold Counter.Flips
    rw [hc]
  obtain ⟨herr, haband⟩ := added.settle_marks
  refine ⟨?_, hr ▸ haband, fun h => ?_, fun h => ?_⟩
  · rw [hr, herr, Bool.decide_or, ← Bool.or_assoc]
    exact congrArg (· || _) (congrArg (· || _) (Bool.or_false _))
  · rw [hr, ← hc]
    exact Counter.settle_flip (hf.2 h)
  · rw [hr, Counter.settle_of_not_flips (mt hf.1 h)]
    exact ⟨hc, rfl, rfl⟩

/-- An arming sets the threshold and settles. -/
theorem Counter.arming_spec (k : Counter) (e : BitVec 32) :
    let r := k.arm e
    let flip : Prop := e ≠ 0 ∧ (e.toNat : Int) ≤ k.count.toInt
    r.err = k.err ∧ r.aband = k.aband ∧
    (flip → r.count.toInt = k.count.toInt - e.toNat ∧ r.expect = 0 ∧ r.phase = !k.phase) ∧
    (¬ flip → r.count = k.count ∧ r.expect = e ∧ r.phase = k.phase) := by
  intro r flip
  let armed : Counter := { k with expect := e }
  have hr : r = armed.settle := rfl
  obtain ⟨herr, haband⟩ := armed.settle_marks
  refine ⟨herr, haband, fun h => Counter.settle_flip (k := armed) h, fun h => ?_⟩
  rw [hr, Counter.settle_of_not_flips (k := armed) h]
  exact ⟨rfl, rfl, rfl⟩

/-! ### The counter instructions -/

/-- A trap without a value of its own for EVAL takes a free one (log 6). -/
theorem State.trapFree_eq (s : State) (cause : BitVec 8) :
    ∃ e, s.trapFree s.acting.issue cause = { s with free := s.free + 1 }.traps cause e := ⟨_, rfl⟩

section
variable (s : State) (n : CtrNum) (a : XReg) (h : ¬ s.acting.Awaits [a])
include h

theorem exec_armc : exec (.armc n a) s
    = if (s.acting.getX a).toNat / 2 ^ 32 ≠ 0 ∨ (s.acting.getX a).toNat % 2 ^ 32 = 0 ∨ (s.counter s.focus n).expect ≠ 0
      then .next (s.trapFree s.acting.issue 0x0E)
      else .next (s.onward.setCounter s.focus n
        ((s.counter s.focus n).arm (BitVec.ofNat 32 (s.acting.getX a).toNat))) := by
  change execArmc n a s = _
  simp only [execArmc, Context.stalls_of_not_awaits h]
  rfl

theorem exec_armcInit : exec (.armcInit n a) s
    = if (s.acting.getX a).toNat / 2 ^ 32 ≠ 0 then .next (s.trapFree s.acting.issue 0x0E)
      else .next (s.onward.setCounter s.focus n
        ⟨0, BitVec.ofNat 32 (s.acting.getX a).toNat, (s.counter s.focus n).phase, false, false⟩) := by
  change execArmcInit n a s = _
  simp only [execArmcInit, Context.stalls_of_not_awaits h]
  rfl

theorem exec_arrc : exec (.arrc n a) s
    = if ((s.acting.getX a).truncate 32).signExtend 64 ≠ s.acting.getX a then .next (s.trapFree s.acting.issue 0x0E)
      else .next (s.onward.setCounter s.focus n
        ((s.counter s.focus n).arrive ((s.acting.getX a).truncate 32).toInt false false)) := by
  have hk : s.onward.counter s.focus n = s.counter s.focus n := s.counter_setCtx _ _ _ _
  change execArrc n a s = _
  simp only [execArrc, Context.stalls_of_not_awaits h, State.arrival]
  rw [if_neg (by decide), ← hk]
  rfl

end

/-- The integers of 32 bits. -/
theorem toInt_truncate_eq_iff (v : Word) :
    (v.truncate 32).toInt = v.toInt ↔ -(2 ^ 31 : Int) ≤ v.toInt ∧ v.toInt < 2 ^ 31 := by
  constructor
  · intro h
    rw [← h]
    exact ⟨BitVec.le_toInt _, BitVec.toInt_lt⟩
  · rintro ⟨h1, h2⟩
    have hv : v.toNat < 2 ^ 64 := v.isLt
    rw [BitVec.toInt_eq_toNat_cond] at h1 h2 ⊢
    rw [BitVec.toInt_eq_toNat_cond, BitVec.truncate_eq_setWidth, BitVec.toNat_setWidth]
    split at h1 <;> split <;> omega

theorem signExtend_truncate_eq_iff (v : Word) :
    (v.truncate 32).signExtend 64 = v ↔ -(2 ^ 31 : Int) ≤ v.toInt ∧ v.toInt < 2 ^ 31 := by
  rw [← toInt_truncate_eq_iff, ← BitVec.toInt_inj, BitVec.toInt_signExtend_of_le (by decide)]

/-! ### READC (Table 5.4) -/

theorem Counter.readc_toNat (k : Counter) : k.readc.toNat = k.count.toNat + 2 ^ 32 * k.phase.toNat
    + 2 ^ 33 * k.err.toNat + 2 ^ 34 * k.aband.toNat + 2 ^ 35 * (decide (k.expect ≠ 0)).toNat := by
  have hc := k.count.isLt
  have hp := k.phase.toNat_le
  have he := k.err.toNat_le
  have ha := k.aband.toNat_le
  have hx := (decide (k.expect ≠ 0)).toNat_le
  have hs : (if k.expect = 0 then 0 else 1) = (decide (k.expect ≠ 0)).toNat := by
    by_cases h : k.expect = 0
    · rw [if_pos h, h]
      rfl
    · rw [if_neg h, decide_eq_true h]
      rfl
  rw [Counter.readc, hs, BitVec.toNat_ofNat, Nat.mod_eq_of_lt (by omega)]

theorem getLsbD_eq_of_div_mod {v : Word} {i : Nat} {b : Bool} (h : v.toNat / 2 ^ i % 2 = b.toNat) : v.getLsbD i = b := by
  rw [BitVec.getLsbD, Nat.testBit_eq_decide_div_mod_eq, h]
  cases b <;> rfl

/-- The fields of READC's result. -/
theorem Counter.readc_fields (k : Counter) : k.readc.toNat % 2 ^ 32 = k.count.toNat ∧ k.readc.getLsbD 32 = k.phase ∧
    k.readc.getLsbD 33 = k.err ∧ k.readc.getLsbD 34 = k.aband ∧ k.readc.getLsbD 35 = decide (k.expect ≠ 0) ∧
    k.readc.toNat < 2 ^ 36 := by
  have hv := k.readc_toNat
  have hc := k.count.isLt
  have hp := k.phase.toNat_le
  have he := k.err.toNat_le
  have ha := k.aband.toNat_le
  have hx := (decide (k.expect ≠ 0)).toNat_le
  refine ⟨?_, getLsbD_eq_of_div_mod ?_, getLsbD_eq_of_div_mod ?_, getLsbD_eq_of_div_mod ?_, getLsbD_eq_of_div_mod ?_, ?_⟩ <;>
    omega

theorem exec_readc (s : State) (d : XReg) (n : CtrNum) (h : ¬ s.acting.Awaits [d]) :
    exec (.readc d n) s = .next (s.puts d (s.counter s.focus n).readc) :=
  s.plain_of_not_awaits _ _ _ h

theorem exec_waitc (s : State) (n : CtrNum) (p : Bool) : exec (.waitc n p) s
    = if (s.counter s.focus n).phase = p then .next s.onward else .next (s.parkCtx s.me (.waitc n p)) := rfl

/-- Settles O35: settling with and without a flip, then the check of each instruction against its operand. -/
theorem counters : Obligations.Counters := by
  unfold Obligations.Counters
  refine ⟨Counter.arrive_spec, Counter.arming_spec, fun s n a h => ?_, fun s n p => ?_, fun s d n h => ?_⟩
  · obtain ⟨e, he⟩ := s.trapFree_eq 0x0E
    intro v k
    refine ⟨fun h0 h1 h2 => ?_, fun hv => ⟨e, ?_⟩, fun hv => ?_, fun hv => ⟨e, ?_⟩, fun h1 h2 => ?_, fun hv => ⟨e, ?_⟩⟩
    · have ok : ¬ (v / 2 ^ 32 ≠ 0 ∨ v % 2 ^ 32 = 0 ∨ k.expect ≠ 0) := by
        simp only [h2, ne_eq, not_true_eq_false, or_false]
        omega
      rw [exec_armc s n a h, if_neg ok]
    · have bad : v / 2 ^ 32 ≠ 0 ∨ v % 2 ^ 32 = 0 ∨ k.expect ≠ 0 := by
        rcases hv with hv | hv | hv
        · exact .inr (.inl (by omega))
        · exact .inl (by omega)
        · exact .inr (.inr hv)
      rw [exec_armc s n a h, if_pos bad, he]
    · rw [exec_armcInit s n a h, if_neg (by omega)]
    · rw [exec_armcInit s n a h, if_pos (by omega), he]
    · rw [exec_arrc s n a h, if_neg (not_not.2 ((signExtend_truncate_eq_iff _).2 ⟨h1, h2⟩)),
        (toInt_truncate_eq_iff _).2 ⟨h1, h2⟩]
    · rw [exec_arrc s n a h, if_pos (mt (signExtend_truncate_eq_iff _).1 (by omega)), he]
  · rw [exec_waitc]
    exact ⟨fun h => if_pos h, fun h => if_neg h⟩
  · exact ⟨_, exec_readc s d n h, Counter.readc_fields _⟩

/-! ### Reads of a written memory -/

/-- A read from a written place on: what was written, then what stood behind it. -/
theorem Memory.read_write_within (m : Memory) (k n : Nat) (d : List Byte) (h : m.wf) (hn : d.length ≤ n) :
    (m.write k d).read k n = d ++ (m.read k n).drop d.length := by
  rw [Memory.read_eq _ _ _ (Memory.write_wf m k d h), Memory.read_eq _ _ _ h]
  apply List.ext_getElem
  · simp only [List.length_map, List.length_range, List.length_append, List.length_drop]
    omega
  · intro i h1 h2
    rw [List.getElem_map, List.getElem_range, Memory.byte_write]
    by_cases hi : i < d.length
    · rw [if_pos (by omega), List.getElem_append_left hi, Nat.add_sub_cancel_left, List.getD_eq_getElem _ _ hi]
    · rw [if_neg (by omega), List.getElem_append_right (by omega), List.getElem_drop, List.getElem_map,
        List.getElem_range]
      congr 2
      omega

/-- A slice of a memory keeps the canonical form. -/
theorem Memory.slice_wf (m : Memory) (k n : Nat) (h : m.wf) : (m.slice k n).wf := by
  refine ⟨List.pairwise_map.2 ?_, fun c hc => ?_⟩
  · refine List.Pairwise.imp_of_mem ?_ (h.1.filter _)
    intro a b ha hb hab
    simp only [List.mem_filter, Bool.and_eq_true, decide_eq_true_eq] at ha hb
    simp only
    omega
  · obtain ⟨a, ha, rfl⟩ := List.mem_map.1 hc
    exact h.2 a (List.mem_filter.1 ha).1

/-- A byte of a slice is the byte it was taken from. -/
theorem Memory.byte_slice (m : Memory) (k n a : Nat) (ha : a < n) : (m.slice k n).byte a = m.byte (k + a) := by
  induction m with
  | nil => rfl
  | cons c m ih =>
    obtain ⟨x, b⟩ := c
    unfold Memory.slice at ih ⊢
    by_cases hx : k ≤ x ∧ x < k + n
    · rw [List.filter_cons_of_pos (by simpa using hx), List.map_cons, Memory.byte, Memory.byte, ih]
      by_cases he : x = k + a
      · rw [if_pos he, if_pos (by simp only; omega)]
      · rw [if_neg he, if_neg (by simp only; omega)]
    · rw [List.filter_cons_of_neg (by simpa using hx), ih, Memory.byte, if_neg (by omega)]

/-- A read within a slice. -/
theorem Memory.read_slice (m : Memory) (k w n : Nat) (h : m.wf) (hn : n ≤ w) : (m.slice k w).read 0 n = m.read k n := by
  rw [Memory.read_eq _ _ _ (Memory.slice_wf m k w h), Memory.read_eq _ _ _ h]
  refine List.map_congr_left fun i hi => ?_
  rw [List.mem_range] at hi
  rw [Memory.byte_slice _ _ _ _ (by omega), Nat.zero_add]

/-! ### Tile registers (R18, R185) -/

theorem VectorUnit.tileBytes_z (v : VectorUnit) (n : Nat) : v.tileBytes 0xC0#8 n = v.z.read 0 n := if_pos rfl

theorem VectorUnit.tileBytes_reg (v : VectorUnit) {sp : BitVec 8} (n : Nat) (h : sp ≠ 0xC0#8) :
    v.tileBytes sp n = v.v.read (32768 * v.reg sp) n := if_neg h

theorem VectorUnit.setTile_z (v : VectorUnit) (d : List Byte) : v.setTile 0xC0#8 d = { v with z := v.z.write 0 d } :=
  if_pos rfl

theorem VectorUnit.setTile_reg (v : VectorUnit) {dst : BitVec 8} (d : List Byte) (h : dst ≠ 0xC0#8) :
    v.setTile dst d = { v with
      v := v.v.write (32768 * v.reg dst) d
      z := Memory.slice (v.v.write (32768 * v.reg dst) d) (32768 * v.reg dst) 32768 } := if_neg h

/-- A write of Z alone. -/
theorem VectorUnit.setTile_z_spec (v : VectorUnit) (d : List Byte) (n : Nat) (hv : v.v.wf) (hz : v.z.wf)
    (hd : d.length ≤ n) :
    let w := v.setTile 0xC0#8 d
    w.tileBytes 0xC0#8 n = d ++ (v.tileBytes 0xC0#8 n).drop d.length ∧ w.v.wf ∧ w.z.wf ∧
    (∀ sp : BitVec 8, sp ≠ 0xC0#8 → w.tileBytes sp n = v.tileBytes sp n) ∧ w = { v with v := w.v, z := w.z } := by
  simp only [VectorUnit.setTile_z]
  refine ⟨?_, hv, Memory.write_wf _ _ _ hz, fun sp hsp => ?_, trivial⟩
  · rw [VectorUnit.tileBytes_z, VectorUnit.tileBytes_z]
    exact Memory.read_write_within _ _ _ _ hz hd
  · rw [VectorUnit.tileBytes_reg _ _ hsp, VectorUnit.tileBytes_reg _ _ hsp]
    rfl

/-- A write of a V register, which Z mirrors. -/
theorem VectorUnit.setTile_reg_spec (v : VectorUnit) (dst : BitVec 8) (d : List Byte) (n : Nat) (hv : v.v.wf)
    (hd : d.length ≤ n) (hn : n ≤ 32768) (hdst : dst ≠ 0xC0#8) :
    let w := v.setTile dst d
    w.tileBytes dst n = d ++ (v.tileBytes dst n).drop d.length ∧ w.v.wf ∧ w.z.wf ∧
    w.tileBytes 0xC0#8 n = w.tileBytes dst n ∧
    (∀ sp : BitVec 8, sp ≠ 0xC0#8 → v.reg sp ≠ v.reg dst → w.tileBytes sp n = v.tileBytes sp n) ∧
    w = { v with v := w.v, z := w.z } := by
  have hw : Memory.wf (v.v.write (32768 * v.reg dst) d) := Memory.write_wf _ _ _ hv
  simp only [VectorUnit.setTile_reg v d hdst]
  refine ⟨?_, hw, Memory.slice_wf _ _ _ hw, ?_, fun sp hsp apart => ?_, trivial⟩
  · rw [VectorUnit.tileBytes_reg _ _ hdst, VectorUnit.tileBytes_reg _ _ hdst]
    exact Memory.read_write_within _ _ _ _ hv hd
  · rw [VectorUnit.tileBytes_z, VectorUnit.tileBytes_reg _ _ hdst]
    exact Memory.read_slice _ _ _ _ hw hn
  · rw [VectorUnit.tileBytes_reg _ _ hsp, VectorUnit.tileBytes_reg _ _ hsp]
    exact Memory.read_write_apart v.v _ d (32768 * v.reg sp) n hv (by omega)

/-! ### Predicate registers (R21) -/

/-- Bits below `n` of one number and bits from `n` on of another. -/
theorem testBit_low_replaced (old low n k : Nat) :
    (old - old % 2 ^ n + low % 2 ^ n).testBit k = if k < n then low.testBit k else old.testBit k := by
  have hlow : low % 2 ^ n < 2 ^ n := Nat.mod_lt _ (Nat.two_pow_pos n)
  have hhigh : old - old % 2 ^ n = 2 ^ n * (old / 2 ^ n) := by
    have := Nat.div_add_mod old (2 ^ n)
    omega
  rw [hhigh, Nat.testBit_two_pow_mul_add _ hlow]
  split
  · rename_i hk
    rw [Nat.testBit_mod_two_pow, decide_eq_true hk, Bool.true_and]
  · rename_i hk
    rw [Nat.testBit_div_two_pow, Nat.sub_add_cancel (by omega)]

theorem VectorUnit.setPred_zero (v : VectorUnit) (p n low : Nat) (h : p % 8 = 0) : v.setPred p n low = v := if_pos h

/-- A bit of the predicate register written. -/
theorem VectorUnit.setPred_same (v : VectorUnit) (p n low k : Nat) (h : p % 8 ≠ 0) (hk : k < 32768) :
    (vget (v.setPred p n low).p (Fin.ofNat 8 p)).getLsbD k
      = if k < n then low.testBit k else (vget v.p (Fin.ofNat 8 p)).getLsbD k := by
  simp only [VectorUnit.setPred, VectorUnit.pred, if_neg h, vget_vset_same]
  rw [BitVec.getLsbD_ofNat, decide_eq_true hk, Bool.true_and, testBit_low_replaced]
  rfl

/-- The other predicate registers stay. -/
theorem VectorUnit.setPred_other (v : VectorUnit) (p n low : Nat) (q : Fin 8) (h : q.val ≠ p % 8) :
    vget (v.setPred p n low).p q = vget v.p q := by
  have hq : Fin.ofNat 8 p ≠ q := fun e => h (congrArg Fin.val e).symm
  unfold VectorUnit.setPred
  split
  · rfl
  · exact vget_vset_other _ _ _ _ hq

/-- Which bits a write of a predicate register takes. -/
theorem VectorUnit.getLsbD_setPred (v : VectorUnit) (p n low k : Nat) (q : Fin 8) (hk : k < 32768) :
    (vget (v.setPred p n low).p q).getLsbD k
      = if q.val = p % 8 ∧ q.val ≠ 0 ∧ k < n then low.testBit k else (vget v.p q).getLsbD k := by
  by_cases hq : q.val = p % 8
  · by_cases h0 : p % 8 = 0
    · rw [VectorUnit.setPred_zero v p n low h0, if_neg (by omega)]
    · have he : q = Fin.ofNat 8 p := Fin.ext hq
      subst he
      rw [VectorUnit.setPred_same v p n low k h0 hk]
      simp only [hq, h0, ne_eq, not_false_eq_true, true_and]
  · rw [VectorUnit.setPred_other v p n low q hq, if_neg fun h => hq h.1]

/-- P0 governs every position (R21). -/
theorem VectorUnit.governs_zero (v : VectorUnit) (k : Nat) : v.governs 0#3 k = true := rfl

theorem VectorUnit.governs_of_ne_zero (v : VectorUnit) (p : BitVec 3) (k : Nat) (h : p ≠ 0#3) :
    v.governs p k = (vget v.p (Fin.ofNat 8 p.toNat)).getLsbD k := by
  rw [VectorUnit.governs, beq_false_of_ne h, Bool.false_or]

/-- Settles O40: a write of Z alone, a write of a V register, and the bits of a predicate register. -/
theorem vectorRegisters : Obligations.VectorRegisters := by
  unfold Obligations.VectorRegisters
  refine ⟨fun v dst d n hv hz hd hn => ?_, VectorUnit.getLsbD_setPred, VectorUnit.governs_zero,
    VectorUnit.governs_of_ne_zero⟩
  by_cases hdst : dst = 0xC0#8
  · subst hdst
    obtain ⟨written, hwv, hwz, others, frame⟩ := v.setTile_z_spec d n hv hz hd
    exact ⟨written, hwv, hwz, fun h => absurd rfl h, fun sp hsp _ => others sp hsp, frame⟩
  · obtain ⟨written, hwv, hwz, mirrored, others, frame⟩ := v.setTile_reg_spec dst d n hv hd hn hdst
    exact ⟨written, hwv, hwz, fun _ => mirrored, fun sp hsp h => others sp hsp (h.resolve_left hdst), frame⟩

end Sys2Proof.Machine
end

section
/-! PROOFS. Docent words: an instruction is read back from its word (O6), and a word that decodes is the word of its
instruction (O7). -/

namespace Sys2Proof

/-! ### Fields of a number -/

theorem bits_lt (w lo len : Nat) : bits w lo len < 2 ^ len := Nat.mod_lt _ (Nat.two_pow_pos len)

theorem bits_of_lt {x len : Nat} (h : x < 2 ^ len) : bits x 0 len = x := Nat.mod_eq_of_lt h

/-- A field of the low bits of a number is that field of the number. -/
theorem bits_bits (w : Nat) {n lo len : Nat} (h : lo + len ≤ n) : bits (bits w 0 n) lo len = bits w lo len := by
  obtain ⟨k, rfl⟩ := Nat.exists_eq_add_of_le h
  simp only [bits_eq, Nat.pow_zero, Nat.div_one]
  rw [Nat.add_assoc, Nat.pow_add, Nat.mod_mul_right_div_self, Nat.pow_add, Nat.mod_mul_right_mod]

/-- A field is its upper part over its lower part. -/
theorem bits_add (w lo n len : Nat) : bits w lo (n + len) = bits w (lo + n) len <<< n ||| bits w lo n := by
  rw [shl_or (bits_lt _ _ _)]
  simp only [bits, Nat.shiftRight_add, Nat.shiftRight_eq_div_pow _ n, Nat.pow_add]
  rw [Nat.mod_mul, Nat.add_comm, Nat.mul_comm]

/-- A one-bit field as a truth value and back. -/
theorem toNat_bit (w lo : Nat) : (bits w lo 1 == 1).toNat = bits w lo 1 := by
  have h := bits_lt w lo 1
  generalize bits w lo 1 = b at h ⊢
  interval_cases b <;> rfl

@[simp] theorem xAt_val (w lo : Nat) : (xAt w lo).val = bits w lo 5 := rfl

theorem hAt_val {w lo : Nat} (h : hBad w lo = false) : (hAt w lo).val = bits w lo 5 := by
  have h' : bits w (lo + 4) 1 = 0 := by simpa [hBad] using h
  rw [bits_add w lo 4 1, h']
  simp [hAt, bits, Fin.ofNat]

/-! ### Codes -/

theorem sizeCode_sizeOf {n : Nat} (h : n < 4) : sizeCode (sizeOf n) = n := by interval_cases n <;> rfl
theorem sizeOf_sizeCode (z : Size) : sizeOf (sizeCode z) = z := by cases z <;> rfl
theorem sizeCode_lt (z : Size) : sizeCode z < 4 := by cases z <;> decide

theorem asizeCode_asizeOf {n : Nat} (h : n < 2) : asizeCode (asizeOf n) = n := by interval_cases n <;> rfl
theorem asizeOf_asizeCode (z : ASize) : asizeOf (asizeCode z) = z := by cases z <;> rfl
theorem asizeCode_lt (z : ASize) : asizeCode z < 2 := by cases z <;> decide

theorem scopeOf_eq_some {n : Nat} {s : Scope} : scopeOf n = some s ↔ n = scopeCode s := by
  constructor
  · unfold scopeOf
    split <;> rintro ⟨⟩ <;> rfl
  · rintro rfl
    cases s <;> rfl

theorem cmpOf_eq_some {n : Nat} {c : Cmp} : cmpOf n = some c ↔ n = cmpCode c := by
  constructor
  · unfold cmpOf
    split <;> rintro ⟨⟩ <;> rfl
  · rintro rfl
    cases c <;> rfl

theorem amoOf_eq_some {n : Nat} {o : AmoOp} : amoOf n = some o ↔ n = amoCode o := by
  constructor
  · unfold amoOf
    split <;> rintro ⟨⟩ <;> rfl
  · rintro rfl
    cases o <;> rfl

theorem famoOf_eq_some {n : Nat} {o : FamoOp} : famoOf n = some o ↔ n = famoCode o := by
  constructor
  · unfold famoOf
    split <;> rintro ⟨⟩ <;> rfl
  · rintro rfl
    cases o <;> rfl

theorem rmOf_eq_some {n : Nat} {m : Rm} : rmOf n = some m ↔ n = rmCode m := by
  constructor
  · unfold rmOf
    split <;> rintro ⟨⟩ <;> rfl
  · rintro rfl
    cases m <;> rfl

theorem okIf_eq_ok {c : Bool} {j i : Instr} : okIf c j = .ok i ↔ c = true ∧ j = i := by
  cases c <;> simp [okIf]

theorem scopeCode_lt (s : Scope) : scopeCode s < 8 := by cases s <;> decide
theorem cmpCode_lt (c : Cmp) : cmpCode c < 8 := by cases c <;> decide
theorem amoCode_lt (o : AmoOp) : amoCode o < 16 := by cases o <;> decide
theorem famoCode_lt (o : FamoOp) : famoCode o < 4 := by cases o <;> decide
theorem rmCode_lt (m : Rm) : rmCode m < 8 := by cases m <;> decide

/-! ### Layouts of `fn` (Table 3.2, Table 3.3) -/

theorem layout_task (w : Nat) : bits w 0 11 = bits w 6 5 <<< 6 ||| bits w 0 6 := bits_add w 0 6 5

theorem layout_counter (w : Nat) : bits w 0 11 = bits w 8 3 <<< 8 ||| bits w 0 8 := bits_add w 0 8 3

theorem layout_system (w : Nat) : bits w 0 11 = bits w 4 7 <<< 4 ||| bits w 1 3 <<< 1 ||| bits w 0 1 := by
  rw [bits_add w 0 4 7, bits_add w 0 1 3, ← Nat.or_assoc]

theorem layout_indexed (w : Nat) : bits w 0 11
    = bits w 8 3 <<< 8 ||| bits w 6 2 <<< 6 ||| bits w 5 1 <<< 5 ||| bits w 2 3 <<< 2 ||| bits w 0 2 := by
  rw [bits_add w 0 8 3, bits_add w 0 6 2, bits_add w 0 5 1, bits_add w 0 2 3]
  simp only [Nat.or_assoc]

theorem layout_amo (w : Nat) : bits w 0 11
    = bits w 9 2 <<< 9 ||| bits w 5 4 <<< 5 ||| bits w 4 1 <<< 4 ||| bits w 1 3 <<< 1 ||| bits w 0 1 := by
  rw [bits_add w 0 9 2, bits_add w 0 5 4, bits_add w 0 4 1, bits_add w 0 1 3]
  simp only [Nat.or_assoc]

theorem layout_famo (w : Nat) : bits w 0 11 = bits w 9 2 <<< 9 ||| bits w 6 3 <<< 6 ||| bits w 5 1 <<< 5
    ||| bits w 2 3 <<< 2 ||| bits w 1 1 <<< 1 ||| bits w 0 1 := by
  rw [bits_add w 0 9 2, bits_add w 0 6 3, bits_add w 0 5 1, bits_add w 0 2 3, bits_add w 0 1 1]
  simp only [Nat.or_assoc]

/-! ### Words by their fields (Table 3.1) -/

/-- `w` is the word of form A with these fields. -/
structure FormA (w major d a b fn : Nat) : Prop where
  lt : w < 2 ^ 32
  major : bits w 26 6 = major
  d : bits w 21 5 = d
  a : bits w 16 5 = a
  b : bits w 11 5 = b
  fn : bits w 0 11 = fn

/-- `w` is the word of form I or S with these fields. -/
structure FormI (w major r q imm : Nat) : Prop where
  lt : w < 2 ^ 32
  major : bits w 26 6 = major
  r : bits w 21 5 = r
  q : bits w 16 5 = q
  imm : bits w 0 16 = imm

theorem bits_narrow {w lo len k : Nat} (h : bits w lo len < 2 ^ k) (hk : k ≤ len) :
    bits w lo len = (w >>> lo) % 2 ^ k := by
  rw [← Nat.mod_eq_of_lt h, bits, Nat.mod_mod_of_dvd _ (Nat.pow_dvd_pow 2 hk)]

theorem bit_eq_false_iff (w lo : Nat) : (bits w lo 1 == 1) = false ↔ bits w lo 1 = 0 := by
  have h := bits_lt w lo 1
  rw [beq_eq_false_iff_ne]
  omega

theorem mod_16 (w : Nat) : w % 16 = bits w 0 4 := rfl
theorem mod_64 (w : Nat) : w % 64 = bits w 0 6 := rfl
theorem mod_256 (w : Nat) : w % 256 = bits w 0 8 := rfl

theorem bits_word {w : Nat} (h : w < 2 ^ 32) : bits w 26 6 <<< 26 ||| bits w 0 26 = w := by
  rw [← bits_add w 0 26 6, bits_of_lt h]

theorem FormI.eq {w m r q i : Nat} (h : FormI w m r q i) : formI m r q i = w := by
  obtain ⟨hw, rfl, rfl, rfl, rfl⟩ := h
  rw [formI, Nat.or_assoc, Nat.or_assoc, ← bits_add w 0 16 5, ← bits_add w 0 21 5, bits_word hw]

theorem FormA.eq {w m d a b f : Nat} (h : FormA w m d a b f) : formA m d a b f = w := by
  obtain ⟨hw, rfl, rfl, rfl, rfl, rfl⟩ := h
  rw [formA, Nat.or_assoc, Nat.or_assoc, Nat.or_assoc, ← bits_add w 0 11 5, ← bits_add w 0 16 5, ← bits_add w 0 21 5,
    bits_word hw]

/-- Form Y (Table 3.1). -/
theorem FormA.eqY {w m d a b f : Nat} (h : FormA w m d a b f) :
    m <<< 26 ||| d <<< 21 ||| bits w 11 10 <<< 11 ||| f = w := by
  obtain ⟨hw, rfl, rfl, -, -, rfl⟩ := h
  rw [Nat.or_assoc, Nat.or_assoc, ← bits_add w 0 11 10, ← bits_add w 0 21 5, bits_word hw]

/-! ### A word that decodes is the word of its instruction (R78) -/

/-- `i` is well-formed, and `w` is its word. -/
def Instr.IsWord (i : Instr) (w : Nat) : Prop := i.wf = true ∧ encodeDocent i = some w

section
variable {w : Nat} {i : Instr} (hw : w < 2 ^ 32)
include hw

theorem decodeAlu_exact (hm : bits w 26 6 = 0x00) (h : decodeAlu w = .ok i) : i.IsWord w := by
  unfold decodeAlu at h
  dsimp only at h
  split at h
  case h_28 => cases h
  case h_25 hf | h_26 hf | h_27 hf =>
    obtain ⟨hb, rfl⟩ := okIf_eq_ok.1 h
    exact ⟨rfl, congrArg some (FormA.eq ⟨hw, hm, rfl, rfl, beq_iff_eq.1 hb, hf⟩)⟩
  all_goals
    rename_i hf
    cases h
    exact ⟨rfl, congrArg some (FormA.eq ⟨hw, hm, rfl, rfl, rfl, hf⟩)⟩

theorem decodeBr_exact (hm : bits w 26 6 = 0x1A) (h : decodeBr w = .ok i) : i.IsWord w := by
  unfold decodeBr at h
  dsimp only at h
  split at h
  case h_3 => cases h
  all_goals
    rename_i hf
    obtain ⟨hz, rfl⟩ := okIf_eq_ok.1 h
    obtain ⟨hd, hb⟩ := (Bool.and_eq_true _ _).mp hz
    exact ⟨rfl, congrArg some (FormA.eq ⟨hw, hm, beq_iff_eq.1 hd, rfl, beq_iff_eq.1 hb, hf⟩)⟩

theorem decodeTask_exact (hm : bits w 26 6 = 0x32) (h : decodeTask w = .ok i) : i.IsWord w := by
  unfold decodeTask at h
  dsimp only at h
  split at h
  case h_14 => cases h
  case h_2 hk =>
    obtain ⟨hz, rfl⟩ := okIf_eq_ok.1 h
    simp only [Bool.and_eq_true, beq_iff_eq, decide_eq_true_eq] at hz
    refine ⟨rfl, congrArg some (FormA.eq ⟨hw, hm, bits_narrow (k := 3) hz.2 (by decide), rfl, rfl, ?_⟩)⟩
    rw [layout_task, hk, hz.1]
    rfl
  case h_8 hk =>
    obtain ⟨hz, rfl⟩ := okIf_eq_ok.1 h
    simp only [Bool.and_eq_true, beq_iff_eq] at hz
    obtain ⟨⟨⟨hd, ha⟩, hb⟩, h5⟩ := hz
    refine ⟨rfl, congrArg some (FormA.eq ⟨hw, hm, hd, ha, hb, ?_⟩)⟩
    rw [layout_task, hk, bits_add w 0 5 1, h5, Nat.zero_shiftLeft, Nat.zero_or]
    rfl
  all_goals
    rename_i hk
    obtain ⟨hz, rfl⟩ := okIf_eq_ok.1 h
    simp only [Bool.and_eq_true, beq_iff_eq] at hz
    refine ⟨rfl, congrArg some (FormA.eq ⟨hw, hm, ?_, ?_, ?_, ?_⟩)⟩ <;> simp [hz, layout_task, hk, mod_64]

theorem decodeSystem_exact (hm : bits w 26 6 = 0x30) (h : decodeSystem w = .ok i) : i.IsWord w := by
  unfold decodeSystem at h
  dsimp only at h
  split at h
  case h_13 => cases h
  case h_2 hk | h_3 hk | h_4 hk =>
    split at h
    · next hs =>
      obtain ⟨hz, rfl⟩ := okIf_eq_ok.1 h
      simp only [scopeOf_eq_some, cmpOf_eq_some] at hs
      simp only [Bool.and_eq_true, beq_iff_eq] at hz
      refine ⟨rfl, congrArg some (FormA.eq ⟨hw, hm, ?_, ?_, ?_, ?_⟩)⟩ <;>
        simp [hz, layout_system, hk, hs]
    · cases h
  all_goals
    rename_i hk
    obtain ⟨hz, rfl⟩ := okIf_eq_ok.1 h
    simp only [Bool.and_eq_true, beq_iff_eq] at hz
    refine ⟨rfl, congrArg some (FormA.eq ⟨hw, hm, ?_, ?_, ?_, ?_⟩)⟩ <;> simp [hz, layout_system, hk]

theorem decodeCounter_exact (hm : bits w 26 6 = 0x34) (h : decodeCounter w = .ok i) : i.IsWord w := by
  unfold decodeCounter at h
  dsimp only at h
  split at h
  case h_6 => cases h
  case h_4 hk =>
    obtain ⟨hz, rfl⟩ := okIf_eq_ok.1 h
    simp only [Bool.and_eq_true, beq_iff_eq, decide_eq_true_eq] at hz
    obtain ⟨⟨ha, hb⟩, hd⟩ := hz
    have hd' : bits w 21 5 = bits w 21 1 := bits_narrow (k := 1) hd (by decide)
    refine ⟨rfl, congrArg some (FormA.eq ⟨hw, hm, ?_, ha, hb, ?_⟩)⟩
    · rw [hd', toNat_bit]
    · rw [layout_counter, hk]
      rfl
  all_goals
    rename_i hk
    obtain ⟨hz, rfl⟩ := okIf_eq_ok.1 h
    simp only [Bool.and_eq_true, beq_iff_eq] at hz
    refine ⟨rfl, congrArg some (FormA.eq ⟨hw, hm, ?_, ?_, ?_, ?_⟩)⟩ <;> simp [hz, layout_counter, hk, mod_256]

theorem decodeGroup_exact (hm : bits w 26 6 = 0x35) (h : decodeGroup w = .ok i) : i.IsWord w := by
  unfold decodeGroup at h
  dsimp only at h
  split at h
  case h_5 => cases h
  case h_4 hk =>
    obtain ⟨hz, rfl⟩ := okIf_eq_ok.1 h
    simp only [Bool.and_eq_true, beq_iff_eq, decide_eq_true_eq] at hz
    obtain ⟨⟨⟨ha, hb⟩, hg⟩, hd⟩ := hz
    refine ⟨rfl, congrArg some (FormA.eq ⟨hw, hm, bits_narrow (k := 2) hd (by decide), ha, hb, ?_⟩)⟩
    rw [layout_counter, hk, hg]
    rfl
  all_goals
    rename_i hk
    obtain ⟨hz, rfl⟩ := okIf_eq_ok.1 h
    simp only [Bool.and_eq_true, beq_iff_eq] at hz
    refine ⟨rfl, congrArg some (FormA.eq ⟨hw, hm, ?_, ?_, ?_, ?_⟩)⟩ <;> simp [hz, layout_counter, hk, mod_256]

theorem decodeRef_exact (hm : bits w 26 6 = 0x36) (h : decodeRef w = .ok i) : i.IsWord w := by
  unfold decodeRef at h
  dsimp only at h
  split at h
  case h_6 => cases h
  all_goals
    rename_i hk
    obtain ⟨hz, rfl⟩ := okIf_eq_ok.1 h
    simp only [Bool.and_eq_true, beq_iff_eq, Bool.not_eq_true'] at hz
    refine ⟨rfl, congrArg some (FormA.eq ⟨hw, hm, ?_, ?_, ?_, ?_⟩)⟩ <;> simp [hz, layout_task, hk, hAt_val]

theorem decodeQueue_exact (hm : bits w 26 6 = 0x3B) (h : decodeQueue w = .ok i) : i.IsWord w := by
  unfold decodeQueue at h
  dsimp only at h
  split at h
  case h_4 => cases h
  all_goals
    rename_i hk
    obtain ⟨hz, rfl⟩ := okIf_eq_ok.1 h
    simp only [Bool.and_eq_true, beq_iff_eq] at hz
    refine ⟨rfl, congrArg some (FormA.eq ⟨hw, hm, ?_, ?_, ?_, ?_⟩)⟩ <;>
      simp [hz, layout_task, hk, bits_add w 0 4 2, mod_16]

theorem decodeIndexed_exact (hm : bits w 26 6 = 0x2D) (h : decodeIndexed w = .ok i) : i.IsWord w := by
  have hz : sizeCode (sizeOf (bits w 6 2)) = bits w 6 2 := sizeCode_sizeOf (bits_lt _ _ _)
  unfold decodeIndexed at h
  dsimp only at h
  split at h
  case h_5 => cases h
  all_goals
    rename_i hk
    obtain ⟨hc, rfl⟩ := okIf_eq_ok.1 h
    simp only [Bool.and_eq_true, beq_iff_eq, Bool.not_eq_true', decide_eq_true_eq, bit_eq_false_iff] at hc
    refine ⟨rfl, congrArg some (FormA.eq ⟨hw, hm, rfl, rfl, rfl, ?_⟩)⟩
    simp [hc, layout_indexed, hk, hz, toNat_bit, Nat.mod_eq_of_lt]

theorem decodeAmo_exact (hm : bits w 26 6 = 0x2E) (h : decodeAmo w = .ok i) : i.IsWord w := by
  have hz : asizeCode (asizeOf (bits w 4 1)) = bits w 4 1 := asizeCode_asizeOf (bits_lt _ _ _)
  unfold decodeAmo at h
  dsimp only at h
  split at h
  case h_4 => cases h
  case h_3 s hk hs =>
    obtain ⟨hc, rfl⟩ := okIf_eq_ok.1 h
    simp only [Bool.and_eq_true, beq_iff_eq] at hc
    refine ⟨rfl, congrArg some (FormA.eq ⟨hw, hm, rfl, rfl, rfl, ?_⟩)⟩
    simp [hc, layout_amo, hk, hz, scopeOf_eq_some.1 hs]
  case h_1 hk hs ho | h_2 hk hs ho =>
    obtain ⟨hc, rfl⟩ := okIf_eq_ok.1 h
    simp only [Bool.and_eq_true, beq_iff_eq] at hc
    refine ⟨rfl, congrArg some (FormA.eq ⟨hw, hm, ?_, rfl, rfl, ?_⟩)⟩ <;>
      simp [hc, layout_amo, hk, hz, scopeOf_eq_some.1 hs, amoOf_eq_some.1 ho]

theorem decodeFamo_exact (hm : bits w 26 6 = 0x2F) (h : decodeFamo w = .ok i) : i.IsWord w := by
  have hz : asizeCode (asizeOf (bits w 5 1)) = bits w 5 1 := asizeCode_asizeOf (bits_lt _ _ _)
  unfold decodeFamo at h
  dsimp only at h
  split at h
  case h_2 => cases h
  case h_1 op rm s ho hr hs =>
    split at h
    case isFalse => cases h
    case isTrue hor =>
      obtain ⟨hc, rfl⟩ := okIf_eq_ok.1 h
      obtain ⟨h0, hreord⟩ := (Bool.and_eq_true _ _).mp hc
      refine ⟨?_, congrArg some (FormA.eq ⟨hw, hm, rfl, rfl, rfl, ?_⟩)⟩
      · change famoOk op rm _ = true
        rcases hor with rfl | rfl
        · rfl
        · simpa [famoOk] using hreord
      · simp [layout_famo, famoOf_eq_some.1 ho, rmOf_eq_some.1 hr, scopeOf_eq_some.1 hs, hz, toNat_bit,
        beq_iff_eq.1 h0]

theorem decodeSys_exact (hm : bits w 26 6 = 0x31) (h : decodeSys w = .ok i) : i.IsWord w := by
  unfold decodeSys at h
  split at h
  case h_3 => cases h
  all_goals
    rename_i hk
    cases h
    exact ⟨rfl, congrArg some (FormA.eqY ⟨hw, hm, rfl, rfl, rfl, hk⟩)⟩

theorem decodeShift_exact {m : Nat} {f : XReg → XReg → BitVec 6 → Instr} (hm : bits w 26 6 = m)
    (hf : ∀ d a s, (f d a s).wf = true ∧ encodeDocent (f d a s) = some (formI m d a s.toNat))
    (h : decodeShift w f = .ok i) : i.IsWord w := by
  obtain ⟨hz, rfl⟩ := okIf_eq_ok.1 h
  obtain ⟨hwf, he⟩ := hf (xAt w 21) (xAt w 16) (BitVec.ofNat 6 w)
  refine ⟨hwf, he.trans (congrArg some (FormI.eq ⟨hw, hm, rfl, rfl, ?_⟩))⟩
  rw [bits_add w 0 6 10, beq_iff_eq.1 hz, Nat.zero_shiftLeft, Nat.zero_or]
  rfl

theorem decodeField_exact {m : Nat} {f : XReg → XReg → BitVec 6 → BitVec 6 → Instr} (hm : bits w 26 6 = m)
    (hf : ∀ d a p n, (f d a p n).wf = fieldFits p n ∧
      encodeDocent (f d a p n) = some (formI m d a (p.toNat <<< 6 ||| n.toNat)))
    (h : decodeField w f = .ok i) : i.IsWord w := by
  obtain ⟨hz, rfl⟩ := okIf_eq_ok.1 h
  obtain ⟨hwf, he⟩ := hf (xAt w 21) (xAt w 16) (BitVec.ofNat 6 (bits w 6 6)) (BitVec.ofNat 6 w)
  obtain ⟨h0, hfit⟩ := (Bool.and_eq_true _ _).mp hz
  have hp : (BitVec.ofNat 6 (bits w 6 6)).toNat = bits w 6 6 := Nat.mod_eq_of_lt (bits_lt _ _ _)
  refine ⟨?_, he.trans (congrArg some (FormI.eq ⟨hw, hm, rfl, rfl, ?_⟩))⟩
  · rw [hwf, fieldFits, hp]
    exact hfit
  · rw [bits_add w 0 12 4, beq_iff_eq.1 h0, Nat.zero_shiftLeft, Nat.zero_or, bits_add w 0 6 6, hp]
    rfl

end

/-- Settles O7: major by major; the fields read make up the word again. -/
theorem docentDecodeExact : Obligations.DocentDecodeExact := by
  unfold Obligations.DocentDecodeExact
  intro word i h
  have hw : word.toNat < 2 ^ 32 := word.isLt
  unfold decodeDocent at h
  dsimp only at h
  split at h
  case h_55 => cases h
  case h_1 hm => exact decodeAlu_exact hw hm h
  case h_26 hm => exact decodeBr_exact hw hm h
  case h_39 hm => exact decodeIndexed_exact hw hm h
  case h_40 hm => exact decodeAmo_exact hw hm h
  case h_41 hm => exact decodeFamo_exact hw hm h
  case h_42 hm => exact decodeSystem_exact hw hm h
  case h_43 hm => exact decodeSys_exact hw hm h
  case h_44 hm => exact decodeTask_exact hw hm h
  case h_46 hm => exact decodeCounter_exact hw hm h
  case h_47 hm => exact decodeGroup_exact hw hm h
  case h_48 hm => exact decodeRef_exact hw hm h
  case h_53 hm => exact decodeQueue_exact hw hm h
  case h_7 hm | h_8 hm | h_9 hm => exact decodeShift_exact hw hm (fun _ _ _ => ⟨rfl, rfl⟩) h
  case h_13 hm | h_14 hm | h_15 hm => exact decodeField_exact hw hm (fun _ _ _ _ => ⟨rfl, rfl⟩) h
  case h_16 hm | h_17 hm | h_54 hm =>
    cases h
    exact ⟨rfl, congrArg some (hm ▸ bits_word hw)⟩
  case h_2 hm =>
    obtain ⟨hz, rfl⟩ := okIf_eq_ok.1 h
    refine ⟨rfl, congrArg some (FormA.eq ⟨hw, hm, rfl, rfl, rfl, ?_⟩)⟩
    rw [layout_task, beq_iff_eq.1 hz, Nat.or_zero]
    rfl
  case h_11 hm | h_12 hm | h_24 hm | h_25 hm | h_45 hm =>
    obtain ⟨hz, rfl⟩ := okIf_eq_ok.1 h
    exact ⟨rfl, congrArg some (FormI.eq ⟨hw, hm, rfl, beq_iff_eq.1 hz, rfl⟩)⟩
  case h_49 hm | h_52 hm =>
    obtain ⟨hz, rfl⟩ := okIf_eq_ok.1 h
    exact ⟨rfl, congrArg some (FormI.eq ⟨hw, hm, (hAt_val (Bool.not_eq_true' _ ▸ hz)).symm, rfl, rfl⟩)⟩
  case h_50 hm | h_51 hm =>
    obtain ⟨hz, rfl⟩ := okIf_eq_ok.1 h
    exact ⟨rfl, congrArg some (FormI.eq ⟨hw, hm, rfl, (hAt_val (Bool.not_eq_true' _ ▸ hz)).symm, rfl⟩)⟩
  all_goals
    rename_i hm
    cases h
    exact ⟨rfl, congrArg some (FormI.eq ⟨hw, hm, rfl, rfl, rfl⟩)⟩

/-! ### The fields of a word that is encoded -/

section
variable {w m d a b f : Nat}

/-- The fields of a word of form A. -/
theorem formA_fields (h : some (formA m d a b f) = some w) (hm : m < 64) (hd : d < 32) (ha : a < 32) (hb : b < 32)
    (hf : f < 2048) : FormA w m d a b f := by
  obtain rfl := Option.some.inj h
  rw [formA_nat m d a b f hd ha hb hf]
  refine ⟨by omega, ?_, ?_, ?_, ?_, ?_⟩ <;> rw [bits_eq] <;> omega

/-- The fields of a word of form I or S. -/
theorem formI_fields (h : some (formI m d a f) = some w) (hm : m < 64) (hd : d < 32) (ha : a < 32) (hf : f < 65536) :
    FormI w m d a f := by
  obtain rfl := Option.some.inj h
  rw [formI_nat m d a f hd ha hf]
  refine ⟨by omega, ?_, ?_, ?_, ?_⟩ <;> rw [bits_eq] <;> omega

/-- A part of `fn`, read from the word. -/
theorem FormA.low (h : FormA w m d a b f) (lo len : Nat) (hl : lo + len ≤ 11) :
    bits w lo len = (f >>> lo) % 2 ^ len := by
  rw [← bits_bits w hl, h.fn, bits]

/-- A field of two parts has those parts. -/
theorem bits_join {k v n lo len : Nat} (h : bits w lo (n + len) = k <<< n ||| v) (hv : v < 2 ^ n) :
    bits w (lo + n) len = k ∧ bits w lo n = v := by
  rw [bits_add, shl_or (bits_lt _ _ _), shl_or hv, Nat.add_comm, Nat.add_comm (k * _)] at h
  have hn := Nat.two_pow_pos n
  constructor
  · have := congrArg (· / 2 ^ n) h
    simpa [Nat.add_mul_div_right, hn, Nat.div_eq_of_lt, hv, bits_lt] using this
  · have := congrArg (· % 2 ^ n) h
    simpa [Nat.mod_eq_of_lt, hv, bits_lt] using this

variable (hd : d < 32) (ha : a < 32) (hb : b < 32)
include hd ha hb

theorem indexed_fields {k z n s : Nat} (he : some (formA 0x2D d a b f) = some w)
    (hf : f = k <<< 8 ||| z <<< 6 ||| n <<< 5 ||| s <<< 2) (hk : k < 8) (hz : z < 4) (hn : n < 2) (hs : s < 8) :
    FormA w 0x2D d a b f ∧
    bits w 8 3 = k ∧ bits w 6 2 = z ∧ bits w 5 1 = n ∧ bits w 2 3 = s ∧ bits w 0 2 = 0 := by
  simp only [Nat.or_assoc] at hf
  simp (disch := omega) only [shl_or] at hf
  have h := formA_fields he (by decide) hd ha hb (by omega)
  refine ⟨h, ?_, ?_, ?_, ?_, ?_⟩ <;> rw [h.low _ _ (by decide)] <;> omega

theorem atomic_fields {k o z s : Nat} (he : some (formA 0x2E d a b f) = some w)
    (hf : f = k <<< 9 ||| o <<< 5 ||| z <<< 4 ||| s <<< 1) (hk : k < 4) (ho : o < 16) (hz : z < 2) (hs : s < 8) :
    FormA w 0x2E d a b f ∧
    bits w 9 2 = k ∧ bits w 5 4 = o ∧ bits w 4 1 = z ∧ bits w 1 3 = s ∧ bits w 0 1 = 0 := by
  simp only [Nat.or_assoc] at hf
  simp (disch := omega) only [shl_or] at hf
  have h := formA_fields he (by decide) hd ha hb (by omega)
  refine ⟨h, ?_, ?_, ?_, ?_, ?_⟩ <;> rw [h.low _ _ (by decide)] <;> omega

theorem floating_fields {o r z s q : Nat} (he : some (formA 0x2F d a b f) = some w)
    (hf : f = o <<< 9 ||| r <<< 6 ||| z <<< 5 ||| s <<< 2 ||| q <<< 1) (ho : o < 4) (hr : r < 8) (hz : z < 2)
    (hs : s < 8) (hq : q < 2) : FormA w 0x2F d a b f ∧ bits w 9 2 = o ∧ bits w 6 3 = r ∧ bits w 5 1 = z ∧
    bits w 2 3 = s ∧ bits w 1 1 = q ∧ bits w 0 1 = 0 := by
  simp only [Nat.or_assoc] at hf
  simp (disch := omega) only [shl_or] at hf
  have h := formA_fields he (by decide) hd ha hb (by omega)
  refine ⟨h, ?_, ?_, ?_, ?_, ?_, ?_⟩ <;> rw [h.low _ _ (by decide)] <;> omega

theorem system_fields {k s : Nat} (he : some (formA 0x30 d a b (k <<< 4 ||| s <<< 1)) = some w) (hk : k < 128)
    (hs : s < 8) : FormA w 0x30 d a b (k <<< 4 ||| s <<< 1) ∧ bits w 4 7 = k ∧ bits w 1 3 = s ∧ bits w 0 1 = 0 := by
  have hf : k <<< 4 ||| s <<< 1 = k * 2 ^ 4 + s <<< 1 := shl_or (by omega)
  have h := formA_fields he (by decide) hd ha hb (by omega)
  refine ⟨h, ?_, ?_, ?_⟩ <;> rw [h.low _ _ (by decide)] <;> omega

end

/-- `fn` of two parts, in the task, counter, group and queue groups. -/
theorem parts_fields (n len : Nat) {w m d a b k v : Nat} (he : some (formA m d a b (k <<< n ||| v)) = some w)
    (hm : m < 64) (hd : d < 32) (ha : a < 32) (hb : b < 32) (hk : k < 2 ^ len) (hv : v < 2 ^ n) (hn : n + len = 11) :
    FormA w m d a b (k <<< n ||| v) ∧ bits w n len = k ∧ bits w 0 n = v := by
  have hf : k <<< n ||| v < 2 ^ 11 := by
    rw [shl_or hv, ← hn, Nat.pow_add]
    nlinarith
  have h := formA_fields he hm hd ha hb hf
  obtain ⟨hhi, hlo⟩ := bits_join (lo := 0) (hn ▸ h.fn) hv
  exact ⟨h, by rwa [Nat.zero_add] at hhi, hlo⟩

/-- A field whose value fits its low part. -/
theorem bits_fits {w n lo len v : Nat} (h : bits w lo (n + len) = v) (hv : v < 2 ^ n) :
    bits w (lo + n) len = 0 ∧ bits w lo n = v :=
  bits_join (by simpa using h) hv

/-- Form B. -/
theorem formB_fields {w m o : Nat} (he : some (m <<< 26 ||| o) = some w) (hm : m < 64) (ho : o < 2 ^ 26) :
    w < 2 ^ 32 ∧ bits w 26 6 = m ∧ bits w 0 26 = o := by
  obtain rfl := Option.some.inj he
  rw [shl_or ho]
  refine ⟨by omega, ?_, ?_⟩ <;> rw [bits_eq] <;> omega

/-- Form Y. -/
theorem formY_fields {w m d r f : Nat} (he : some (m <<< 26 ||| d <<< 21 ||| r <<< 11 ||| f) = some w) (hm : m < 64)
    (hd : d < 32) (hr : r < 2 ^ 10) (hf : f < 2 ^ 11) :
    w < 2 ^ 32 ∧ bits w 26 6 = m ∧ bits w 21 5 = d ∧ bits w 11 10 = r ∧ bits w 0 11 = f := by
  obtain rfl := Option.some.inj he
  simp only [Nat.or_assoc]
  simp (disch := omega) only [shl_or]
  refine ⟨by omega, ?_, ?_, ?_, ?_⟩ <;> rw [bits_eq] <;> omega

/-! ### An instruction is read back from its word (Table 3.1, Table 3.2) -/

section
variable {w : Nat} (hw : w < 2 ^ 32)
include hw

theorem decodeDocent_alu (hm : bits w 26 6 = 0x00) : decodeDocent (BitVec.ofNat 32 w) = decodeAlu w := by
  rw [decodeDocent, decodeDocent_ofNat w hw, hm]
  rfl

theorem decodeDocent_br (hm : bits w 26 6 = 0x1A) : decodeDocent (BitVec.ofNat 32 w) = decodeBr w := by
  rw [decodeDocent, decodeDocent_ofNat w hw, hm]
  rfl

theorem decodeDocent_indexed (hm : bits w 26 6 = 0x2D) : decodeDocent (BitVec.ofNat 32 w) = decodeIndexed w := by
  rw [decodeDocent, decodeDocent_ofNat w hw, hm]
  rfl

theorem decodeDocent_amo (hm : bits w 26 6 = 0x2E) : decodeDocent (BitVec.ofNat 32 w) = decodeAmo w := by
  rw [decodeDocent, decodeDocent_ofNat w hw, hm]
  rfl

theorem decodeDocent_famo (hm : bits w 26 6 = 0x2F) : decodeDocent (BitVec.ofNat 32 w) = decodeFamo w := by
  rw [decodeDocent, decodeDocent_ofNat w hw, hm]
  rfl

theorem decodeDocent_system (hm : bits w 26 6 = 0x30) : decodeDocent (BitVec.ofNat 32 w) = decodeSystem w := by
  rw [decodeDocent, decodeDocent_ofNat w hw, hm]
  rfl

theorem decodeDocent_sys (hm : bits w 26 6 = 0x31) : decodeDocent (BitVec.ofNat 32 w) = decodeSys w := by
  rw [decodeDocent, decodeDocent_ofNat w hw, hm]
  rfl

theorem decodeDocent_task (hm : bits w 26 6 = 0x32) : decodeDocent (BitVec.ofNat 32 w) = decodeTask w := by
  rw [decodeDocent, decodeDocent_ofNat w hw, hm]
  rfl

theorem decodeDocent_counter (hm : bits w 26 6 = 0x34) : decodeDocent (BitVec.ofNat 32 w) = decodeCounter w := by
  rw [decodeDocent, decodeDocent_ofNat w hw, hm]
  rfl

theorem decodeDocent_group (hm : bits w 26 6 = 0x35) : decodeDocent (BitVec.ofNat 32 w) = decodeGroup w := by
  rw [decodeDocent, decodeDocent_ofNat w hw, hm]
  rfl

theorem decodeDocent_ref (hm : bits w 26 6 = 0x36) : decodeDocent (BitVec.ofNat 32 w) = decodeRef w := by
  rw [decodeDocent, decodeDocent_ofNat w hw, hm]
  rfl

theorem decodeDocent_queue (hm : bits w 26 6 = 0x3B) : decodeDocent (BitVec.ofNat 32 w) = decodeQueue w := by
  rw [decodeDocent, decodeDocent_ofNat w hw, hm]
  rfl

end

theorem xAt_eq {w lo : Nat} {r : XReg} (h : bits w lo 5 = r) : xAt w lo = r := Fin.ext h

section
variable {w m f d a b : Nat} {r : XReg}

theorem FormA.xd (h : FormA w m r a b f) : xAt w 21 = r := xAt_eq h.d

theorem FormA.xa (h : FormA w m d r b f) : xAt w 16 = r := xAt_eq h.a

theorem FormA.xb (h : FormA w m d a r f) : xAt w 11 = r := xAt_eq h.b

end

theorem hAt_eq {w lo : Nat} {r : HReg} (h : bits w lo 5 = r) : hAt w lo = r ∧ hBad w lo = false := by
  obtain ⟨h4, h0⟩ := bits_fits (n := 4) (len := 1) h r.isLt
  exact ⟨Fin.ext h0, by simp [hBad, h4]⟩

theorem decodeShift_fields {w m : Nat} {d a : XReg} {s : BitVec 6} (h : FormI w m d a s.toNat)
    (f : XReg → XReg → BitVec 6 → Instr) : decodeShift w f = .ok (f d a s) := by
  obtain ⟨h6, hs⟩ := bits_fits (n := 6) (len := 10) h.imm s.isLt
  rw [decodeShift, h6, xAt_eq h.r, xAt_eq h.q, ofNat_of w s hs]
  rfl

theorem decodeField_fields {w m : Nat} {d a : XReg} {p n : BitVec 6} (h : FormI w m d a (p.toNat <<< 6 ||| n.toNat))
    (hfit : fieldFits p n = true) (f : XReg → XReg → BitVec 6 → BitVec 6 → Instr) :
    decodeField w f = .ok (f d a p n) := by
  obtain ⟨h12, hlow⟩ := bits_fits (n := 12) (len := 4) h.imm (Nat.or_lt_two_pow (by omega) (by omega))
  obtain ⟨hp, hn⟩ := bits_join (n := 6) (len := 6) hlow n.isLt
  rw [decodeField, h12, hp, hn, xAt_eq h.r, xAt_eq h.q, ofNat_of w n hn, BitVec.ofNat_toNat, BitVec.setWidth_eq]
  exact okIf_eq_ok.2 ⟨hfit, rfl⟩

/-- `i` is read back from its word. -/
def Instr.ReadsBack (i : Instr) : Prop :=
  ∀ w, encodeDocent i = some w → w < 2 ^ 32 ∧ decodeDocent (BitVec.ofNat 32 w) = .ok i

theorem scopeOf_scopeCode (s : Scope) : scopeOf (scopeCode s) = some s := scopeOf_eq_some.2 rfl
theorem cmpOf_cmpCode (c : Cmp) : cmpOf (cmpCode c) = some c := cmpOf_eq_some.2 rfl
theorem amoOf_amoCode (o : AmoOp) : amoOf (amoCode o) = some o := amoOf_eq_some.2 rfl
theorem famoOf_famoCode (o : FamoOp) : famoOf (famoCode o) = some o := famoOf_eq_some.2 rfl
theorem rmOf_rmCode (m : Rm) : rmOf (rmCode m) = some m := rmOf_eq_some.2 rfl

section
variable (d a b : XReg) (z : Size) (n : Bool) (s : BitVec 2)

theorem ldx_readsBack : (Instr.ldx d a b z n s).ReadsBack := by
  intro w he
  obtain ⟨h, hk, hz, hn, hs, h0⟩ := indexed_fields d.isLt a.isLt b.isLt he rfl (by decide) (sizeCode_lt z) n.toNat_lt
    (s.isLt.trans (by decide))
  exact ⟨h.lt, by simp [decodeDocent_indexed h.lt h.major, decodeIndexed, hk, hz, hn, hs, h0, sizeOf_sizeCode,
    h.xd, h.xa, h.xb, okIf, s.isLt]⟩

theorem stx_readsBack : (Instr.stx d a b z s).ReadsBack := by
  intro w he
  obtain ⟨h, hk, hz, hn, hs, h0⟩ := indexed_fields (k := 1) (n := 0) d.isLt a.isLt b.isLt he (by simp) (by decide)
    (sizeCode_lt z) (by decide) (s.isLt.trans (by decide))
  exact ⟨h.lt, by simp [decodeDocent_indexed h.lt h.major, decodeIndexed, hk, hz, hn, hs, h0, sizeOf_sizeCode,
    h.xd, h.xa, h.xb, okIf, s.isLt]⟩

theorem ldt_readsBack : (Instr.ldt d a b z n).ReadsBack := by
  intro w he
  obtain ⟨h, hk, hz, hn, hs, h0⟩ := indexed_fields (k := 2) (s := 0) d.isLt a.isLt b.isLt he (by simp) (by decide)
    (sizeCode_lt z) n.toNat_lt (by decide)
  exact ⟨h.lt, by simp [decodeDocent_indexed h.lt h.major, decodeIndexed, hk, hz, hn, hs, h0, sizeOf_sizeCode,
    h.xd, h.xa, h.xb, okIf]⟩

theorem stt_readsBack : (Instr.stt d a b z).ReadsBack := by
  intro w he
  obtain ⟨h, hk, hz, hn, hs, h0⟩ := indexed_fields (k := 3) (n := 0) (s := 0) d.isLt a.isLt b.isLt he (by simp)
    (by decide) (sizeCode_lt z) (by decide) (by decide)
  exact ⟨h.lt, by simp [decodeDocent_indexed h.lt h.major, decodeIndexed, hk, hz, hn, hs, h0, sizeOf_sizeCode,
    h.xd, h.xa, h.xb, okIf]⟩
end

section
variable (d a b : XReg) (z : ASize) (s : Scope)

theorem amo_readsBack (op : AmoOp) : (Instr.amo d a b op z s).ReadsBack := by
  intro w he
  obtain ⟨h, hk, ho, hz, hs, h0⟩ := atomic_fields (k := 0) d.isLt a.isLt b.isLt he (by simp) (by decide)
    (amoCode_lt op) (asizeCode_lt z) (scopeCode_lt s)
  exact ⟨h.lt, by simp [decodeDocent_amo h.lt h.major, decodeAmo, hk, ho, hz, hs, h0, scopeOf_scopeCode,
    amoOf_amoCode, asizeOf_asizeCode, h.xd, h.xa, h.xb, okIf]⟩

theorem amoi_readsBack (op : AmoOp) : (Instr.amoi a b op z s).ReadsBack := by
  intro w he
  obtain ⟨h, hk, ho, hz, hs, h0⟩ := atomic_fields (by decide) a.isLt b.isLt he rfl (by decide) (amoCode_lt op)
    (asizeCode_lt z) (scopeCode_lt s)
  exact ⟨h.lt, by simp [decodeDocent_amo h.lt h.major, decodeAmo, hk, ho, hz, hs, h0, scopeOf_scopeCode,
    amoOf_amoCode, asizeOf_asizeCode, h.d, h.xa, h.xb, okIf]⟩

theorem cas_readsBack : (Instr.cas d a b z s).ReadsBack := by
  intro w he
  obtain ⟨h, hk, ho, hz, hs, h0⟩ := atomic_fields (k := 2) (o := 0) d.isLt a.isLt b.isLt he (by simp) (by decide)
    (by decide) (asizeCode_lt z) (scopeCode_lt s)
  exact ⟨h.lt, by simp [decodeDocent_amo h.lt h.major, decodeAmo, hk, ho, hz, hs, h0, scopeOf_scopeCode,
    asizeOf_asizeCode, h.xd, h.xa, h.xb, okIf]⟩

theorem famo_readsBack (op : FamoOp) (rm : Rm) (reord : Bool) (hok : famoOk op rm reord = true) :
    (Instr.famo d a b op rm z s reord).ReadsBack := by
  intro w he
  obtain ⟨h, ho, hr, hz, hs, hq, h0⟩ := floating_fields d.isLt a.isLt b.isLt he rfl (famoCode_lt op) (rmCode_lt rm)
    (asizeCode_lt z) (scopeCode_lt s) reord.toNat_lt
  have hor : op = .add ∨ rm = .rne ∧ reord = false := by simpa [famoOk] using hok
  refine ⟨h.lt, ?_⟩
  rcases hor with rfl | ⟨rfl, rfl⟩ <;>
    simp [decodeDocent_famo h.lt h.major, decodeFamo, ho, hr, hz, hs, hq, h0, famoOf_famoCode, rmOf_rmCode,
      scopeOf_scopeCode, asizeOf_asizeCode, h.xd, h.xa, h.xb, okIf]

end

/-- Settles O6: by the constructors, each with the fields of its form. -/
theorem docentRoundTrip : Obligations.DocentRoundTrip := by
  unfold Obligations.DocentRoundTrip
  intro i w hwf he
  cases i with
  | ldx d a b z n s => exact ldx_readsBack d a b z n s w he
  | stx d a b z s => exact stx_readsBack d a b z s w he
  | ldt d a b z n => exact ldt_readsBack d a b z n w he
  | stt d a b z => exact stt_readsBack d a b z w he
  | amo d a b op z s => exact amo_readsBack d a b z s op w he
  | amoi a b op z s => exact amoi_readsBack a b z s op w he
  | cas d a b z s => exact cas_readsBack d a b z s w he
  | famo d a b op rm z s r => exact famo_readsBack d a b z s op rm r hwf w he
  | add d a b | sub d a b | mul d a b | mulh d a b | mulhn d a b | div d a b | divn d a b | rem d a b | remn d a b
  | and d a b | or d a b | xor d a b | andn d a b | shl d a b | shr d a b | sra d a b | rotl d a b | min d a b
  | max d a b | minn d a b | maxn d a b | slt d a b | sltn d a b | seq d a b =>
    have h := formA_fields he (by decide) d.isLt a.isLt b.isLt (by decide)
    exact ⟨h.lt, by simp [decodeDocent_alu h.lt h.major, decodeAlu, h.fn, h.xd, h.xa, h.xb]⟩
  | clz d a | ctz d a | popc d a =>
    have h := formA_fields he (by decide) d.isLt a.isLt (by decide) (by decide)
    exact ⟨h.lt, by simp [decodeDocent_alu h.lt h.major, decodeAlu, h.fn, h.xd, h.xa, h.b, okIf]⟩
  | sel d c a b =>
    have h := formA_fields he (by decide) d.isLt a.isLt b.isLt (by omega)
    have hc : bits w 6 5 = c := by rw [h.low 6 5 (by decide)]; omega
    have h0 : bits w 0 6 = 0 := by rw [h.low 0 6 (by decide)]; omega
    refine ⟨h.lt, ?_⟩
    rw [decodeDocent, decodeDocent_ofNat w h.lt, h.major, xAt_eq h.d, xAt_eq h.a, xAt_eq h.b, xAt_eq hc, h0]
    rfl
  | addi r q imm | andi r q imm | ori r q imm | xori r q imm | slti r q imm
  | beq r q imm | bne r q imm | blt r q imm | bge r q imm | bltn r q imm | bgen r q imm
  | ldB r q imm | ldBn r q imm | ldH r q imm | ldHn r q imm | ldW r q imm | ldWn r q imm | ldD r q imm
  | stB r q imm | stH r q imm | stW r q imm | stD r q imm | stloc r q imm =>
    have h := formI_fields he (by decide) r.isLt q.isLt imm.isLt
    refine ⟨h.lt, ?_⟩
    rw [decodeDocent, decodeDocent_ofNat w h.lt, h.major, xAt_eq h.r, xAt_eq h.q, ofNat_of w imm h.imm]
    rfl
  | lil r imm | lih r imm | bz r imm | bnz r imm | tseti r imm =>
    have h := formI_fields he (by decide) r.isLt (by decide) imm.isLt
    refine ⟨h.lt, ?_⟩
    rw [decodeDocent, decodeDocent_ofNat w h.lt, h.major, xAt_eq h.r, h.q, ofNat_of w imm h.imm]
    rfl
  | ldref r q imm | sth r q imm =>
    have h := formI_fields he (by decide) (r.isLt.trans (by decide)) q.isLt imm.isLt
    obtain ⟨hr, hz⟩ := hAt_eq h.r
    refine ⟨h.lt, ?_⟩
    rw [decodeDocent, decodeDocent_ofNat w h.lt, h.major, hr, hz, xAt_eq h.q, ofNat_of w imm h.imm]
    rfl
  | stref r q imm | ldh r q imm =>
    have h := formI_fields he (by decide) r.isLt (q.isLt.trans (by decide)) imm.isLt
    obtain ⟨hq, hz⟩ := hAt_eq h.q
    refine ⟨h.lt, ?_⟩
    rw [decodeDocent, decodeDocent_ofNat w h.lt, h.major, hq, hz, xAt_eq h.r, ofNat_of w imm h.imm]
    rfl
  | shli d a s | shri d a s | srai d a s =>
    have h := formI_fields he (by decide) d.isLt a.isLt (s.isLt.trans (by decide))
    refine ⟨h.lt, ?_⟩
    rw [decodeDocent, decodeDocent_ofNat w h.lt, h.major]
    exact decodeShift_fields h _
  | exts d a p n | extz d a p n | insf d a p n =>
    have h := formI_fields he (by decide) d.isLt a.isLt (Nat.or_lt_two_pow (n := 16) (by omega) (by omega))
    refine ⟨h.lt, ?_⟩
    rw [decodeDocent, decodeDocent_ofNat w h.lt, h.major]
    exact decodeField_fields h hwf _
  | b o | bl o | imx o =>
    obtain ⟨hw, hm, ho⟩ := formB_fields he (by decide) o.isLt
    refine ⟨hw, ?_⟩
    rw [decodeDocent, decodeDocent_ofNat w hw, hm, ofNat_of w o ho]
    rfl
  | br a | blr a =>
    have h := formA_fields he (by decide) (by decide) a.isLt (by decide) (by decide)
    exact ⟨h.lt, by simp [decodeDocent_br h.lt h.major, decodeBr, h.fn, h.d, h.xa, h.b, okIf]⟩
  | nop | trap | eret | brk | yield | done =>
    have h := formA_fields he (by decide) (by decide) (by decide) (by decide) (by decide)
    exact ⟨h.lt, by simp [decodeDocent_system h.lt h.major, decodeSystem, h.low, h.d, h.a, h.b, okIf]⟩
  | time d | tcoord d =>
    have h := formA_fields he (by decide) d.isLt (by decide) (by decide) (by decide)
    exact ⟨h.lt, by simp [decodeDocent_system h.lt h.major, decodeSystem, h.low, h.xd, h.a, h.b, okIf]⟩
  | notify a b =>
    have h := formA_fields he (by decide) (by decide) a.isLt b.isLt (by decide)
    exact ⟨h.lt, by simp [decodeDocent_system h.lt h.major, decodeSystem, h.low, h.d, h.xa, h.xb, okIf]⟩
  | fence s | tfence s =>
    obtain ⟨h, hk, hs, h0⟩ := system_fields (by decide) (by decide) (by decide) he (by decide) (scopeCode_lt s)
    exact ⟨h.lt, by simp [decodeDocent_system h.lt h.major, decodeSystem, hk, hs, h0, scopeOf_scopeCode, h.d, h.a,
      h.b, okIf]⟩
  | waita d a b c =>
    obtain ⟨h, hk, hs, h0⟩ := system_fields d.isLt a.isLt b.isLt he (by decide) (cmpCode_lt c)
    exact ⟨h.lt, by simp [decodeDocent_system h.lt h.major, decodeSystem, hk, hs, h0, cmpOf_cmpCode, h.xd, h.xa,
      h.xb, okIf]⟩
  | sysr d r | sysw d r =>
    obtain ⟨hw, hm, hd, hr, hf⟩ := formY_fields he (by decide) d.isLt r.isLt (by decide)
    exact ⟨hw, by simp [decodeDocent_sys hw hm, decodeSys, hf, xAt_eq hd,
      BitVec.eq_of_toNat_eq (x := BitVec.ofNat 10 (w >>> 11)) hr]⟩
  | tset d a =>
    have h := formA_fields he (by decide) d.isLt a.isLt (by decide) (by decide)
    exact ⟨h.lt, by simp [decodeDocent_task h.lt h.major, decodeTask, h.low, h.xd, h.xa, h.b, okIf]⟩
  | treg n a b =>
    have h := formA_fields he (by decide) (n.isLt.trans (by decide)) a.isLt b.isLt (by decide)
    have hn : Fin.ofNat 8 (w >>> 21) = n := Fin.ext (bits_fits (n := 3) (len := 2) h.d n.isLt).2
    exact ⟨h.lt, by simp [-Fin.ofNat_eq_cast, decodeDocent_task h.lt h.major, decodeTask, hn, h.low, h.d, h.xa,
      h.xb, okIf]⟩
  | tclr =>
    have h := formA_fields he (by decide) (by decide) (by decide) (by decide) (by decide)
    exact ⟨h.lt, by simp [decodeDocent_task h.lt h.major, decodeTask, h.low, h.d, h.a, h.b, okIf]⟩
  | post d | trypost d | gnew d =>
    have h := formA_fields he (by decide) d.isLt (by decide) (by decide) (by decide)
    exact ⟨h.lt, by simp [decodeDocent_task h.lt h.major, decodeTask, h.low, h.xd, h.a, h.b, okIf]⟩
  | postl d a b | postr d a b =>
    have h := formA_fields he (by decide) d.isLt a.isLt b.isLt (by decide)
    exact ⟨h.lt, by simp [decodeDocent_task h.lt h.major, decodeTask, h.low, h.xd, h.xa, h.xb, okIf]⟩
  | join m =>
    obtain ⟨h, hk, hv⟩ := parts_fields 6 5 he (by decide) (by decide) (by decide) (by decide) (by decide)
      (m.isLt.trans (by decide)) rfl
    obtain ⟨h5, hm⟩ := bits_fits (n := 5) (len := 1) hv m.isLt
    exact ⟨h.lt, by simp [decodeDocent_task h.lt h.major, decodeTask, hk, h5, ofNat_of w m hm, h.d, h.a, h.b, okIf]⟩
  | gok a | gno a =>
    have h := formA_fields he (by decide) (by decide) a.isLt (by decide) (by decide)
    exact ⟨h.lt, by simp [decodeDocent_task h.lt h.major, decodeTask, h.low, h.d, h.xa, h.b, okIf]⟩
  | setb n a =>
    obtain ⟨h, hk, hv⟩ := parts_fields 6 5 he (by decide) (by decide) a.isLt (by decide) (by decide) n.isLt rfl
    have hn : Fin.ofNat 64 w = n := Fin.ext hv
    exact ⟨h.lt, by simp only [decodeDocent_task h.lt h.major, decodeTask, hk, hn, h.d, h.xa, h.b]; rfl⟩
  | getb d n =>
    obtain ⟨h, hk, hv⟩ := parts_fields 6 5 he (by decide) d.isLt (by decide) (by decide) (by decide) n.isLt rfl
    have hn : Fin.ofNat 64 w = n := Fin.ext hv
    exact ⟨h.lt, by simp only [decodeDocent_task h.lt h.major, decodeTask, hk, hn, h.xd, h.a, h.b]; rfl⟩
  | armc n a | armcInit n a | arrc n a =>
    obtain ⟨h, hk, hv⟩ := parts_fields 8 3 he (by decide) (by decide) a.isLt (by decide) (by decide) n.isLt rfl
    have hn : Fin.ofNat 256 w = n := Fin.ext hv
    exact ⟨h.lt, by simp only [decodeDocent_counter h.lt h.major, decodeCounter, hk, hn, h.d, h.xa, h.b]; rfl⟩
  | waitc n p =>
    obtain ⟨h, hk, hv⟩ := parts_fields 8 3 he (by decide) (p.toNat_lt.trans (by decide)) (by decide) (by decide)
      (by decide) n.isLt rfl
    have hn : Fin.ofNat 256 w = n := Fin.ext hv
    refine ⟨h.lt, ?_⟩
    simp only [decodeDocent_counter h.lt h.major, decodeCounter, hk, hn, h.d, h.a, h.b]
    cases p <;> rfl
  | readc d n =>
    obtain ⟨h, hk, hv⟩ := parts_fields 8 3 he (by decide) d.isLt (by decide) (by decide) (by decide) n.isLt rfl
    have hn : Fin.ofNat 256 w = n := Fin.ext hv
    exact ⟨h.lt, by simp only [decodeDocent_counter h.lt h.major, decodeCounter, hk, hn, h.xd, h.a, h.b]; rfl⟩
  | gbar g =>
    obtain ⟨h, hk, hv⟩ := parts_fields 8 3 he (by decide) (by decide) (by decide) (by decide) (by decide) g.isLt rfl
    have hg : Fin.ofNat 256 w = g := Fin.ext hv
    exact ⟨h.lt, by simp only [decodeDocent_group h.lt h.major, decodeGroup, hk, hg, h.d, h.a, h.b]; rfl⟩
  | grank d g | gsize d g =>
    obtain ⟨h, hk, hv⟩ := parts_fields 8 3 he (by decide) d.isLt (by decide) (by decide) (by decide) g.isLt rfl
    have hg : Fin.ofNat 256 w = g := Fin.ext hv
    exact ⟨h.lt, by simp only [decodeDocent_group h.lt h.major, decodeGroup, hk, hg, h.xd, h.a, h.b]; rfl⟩
  | prio c =>
    have h := formA_fields he (by decide) (c.isLt.trans (by decide)) (by decide) (by decide) (by decide)
    have hc : BitVec.ofNat 2 (w >>> 21) = c := BitVec.eq_of_toNat_eq (bits_fits (n := 2) (len := 3) h.d c.isLt).2
    exact ⟨h.lt, by simp [decodeDocent_group h.lt h.major, decodeGroup, hc, h.low, h.d, h.a, h.b, okIf, c.isLt]⟩
  | cash d a b =>
    have h := formA_fields he (by decide) (d.isLt.trans (by decide)) a.isLt (b.isLt.trans (by decide)) (by decide)
    exact ⟨h.lt, by simp [decodeDocent_ref h.lt h.major, decodeRef, h.low, hAt_eq h.d, hAt_eq h.b, h.xa, okIf]⟩
  | refeq d a b =>
    have h := formA_fields he (by decide) d.isLt (a.isLt.trans (by decide)) (b.isLt.trans (by decide)) (by decide)
    exact ⟨h.lt, by simp [decodeDocent_ref h.lt h.major, decodeRef, h.low, hAt_eq h.a, hAt_eq h.b, h.xd, okIf]⟩
  | mkref d a =>
    have h := formA_fields he (by decide) (d.isLt.trans (by decide)) a.isLt (by decide) (by decide)
    exact ⟨h.lt, by simp [decodeDocent_ref h.lt h.major, decodeRef, h.low, hAt_eq h.d, h.xa, h.b, okIf]⟩
  | pin d a =>
    have h := formA_fields he (by decide) d.isLt (a.isLt.trans (by decide)) (by decide) (by decide)
    exact ⟨h.lt, by simp [decodeDocent_ref h.lt h.major, decodeRef, h.low, hAt_eq h.a, h.xd, h.b, okIf]⟩
  | unpin a =>
    have h := formA_fields he (by decide) (by decide) (a.isLt.trans (by decide)) (by decide) (by decide)
    exact ⟨h.lt, by simp [decodeDocent_ref h.lt h.major, decodeRef, h.low, hAt_eq h.a, h.d, h.b, okIf]⟩
  | qopen n a =>
    obtain ⟨h, hk, hv⟩ := parts_fields 6 5 he (by decide) (by decide) a.isLt (by decide) (by decide)
      (n.isLt.trans (by decide)) rfl
    obtain ⟨h4, hn⟩ := bits_fits (n := 4) (len := 2) hv n.isLt
    have hn : Fin.ofNat 16 w = n := Fin.ext hn
    exact ⟨h.lt, by simp only [decodeDocent_queue h.lt h.major, decodeQueue, hk, hn, h4, h.d, h.xa, h.b]; rfl⟩
  | qclose n =>
    obtain ⟨h, hk, hv⟩ := parts_fields 6 5 he (by decide) (by decide) (by decide) (by decide) (by decide)
      (n.isLt.trans (by decide)) rfl
    obtain ⟨h4, hn⟩ := bits_fits (n := 4) (len := 2) hv n.isLt
    have hn : Fin.ofNat 16 w = n := Fin.ext hn
    exact ⟨h.lt, by simp only [decodeDocent_queue h.lt h.major, decodeQueue, hk, hn, h4, h.d, h.a, h.b]; rfl⟩
  | qstat d n =>
    obtain ⟨h, hk, hv⟩ := parts_fields 6 5 he (by decide) d.isLt (by decide) (by decide) (by decide)
      (n.isLt.trans (by decide)) rfl
    obtain ⟨h4, hn⟩ := bits_fits (n := 4) (len := 2) hv n.isLt
    have hn : Fin.ofNat 16 w = n := Fin.ext hn
    exact ⟨h.lt, by simp only [decodeDocent_queue h.lt h.major, decodeQueue, hk, hn, h4, h.xd, h.a, h.b]; rfl⟩
  | _ => cases he

end Sys2Proof
end

section
/-! PROOFS. What a step executes: words that are no instruction (O27), what the picked act gives (O4), and the pair of
an IMX and its word (O39). -/

namespace Sys2Proof.Machine

/-! ### Words that are no instruction (R78) -/

theorem exec_illegalInstruction (s : State) (w : Word32) (reserved : Bool) : exec (.illegalInstruction w reserved) s
    = .next (s.traps (if reserved then 0x02 else 0x01) (BitVec.ofNat 64 w.toNat)) := by
  rw [BitVec.ofNat_toNat]
  rfl

/-- Settles O27: the cause by the kind of refusal. -/
theorem illegalInstruction : Obligations.IllegalInstruction := by
  unfold Obligations.IllegalInstruction
  exact fun s w => ⟨exec_illegalInstruction s w false, exec_illegalInstruction s w true⟩

/-! ### A step (log 1) -/

theorem step_of_instrOf {s f : State} {i : Instr} (hd : s.deviceFailed = false)
    (h : s.pick.1.instrOf s.pick.2 = (f, some i)) :
    step s = match exec i f with
      | .next t => .next (t.afterStep s.pick.2)
      | .fault e => .fault e
      | .refused r => .refused r := by
  simp only [step, hd, h]
  rfl

/-! What each act issues. Only an event can be a fault report or a line of a queue, so the units' acts meet neither of
those tests. -/

section
variable {s : State} {c : CoreId}

theorem State.instrOf_docent (h : s.halted (.unit (.docent c)) = false) :
    s.instrOf (.unit (.docent c)) = s.nextDocent c := by
  simp only [State.instrOf, h]
  rfl

theorem State.instrOf_vector (h : s.halted (.unit (.vector c)) = false) :
    s.instrOf (.unit (.vector c)) = s.nextVector c := by
  simp only [State.instrOf, h]
  rfl

theorem State.instrOf_record {k : Kind} (hk : k = .matrix ∨ k = .transpose ∨ k = .copy)
    (h : s.halted (.unit (unitOf c k)) = false) : s.instrOf (.unit (unitOf c k)) = s.nextRecord c k := by
  rcases hk with rfl | rfl | rfl <;>
  · simp only [State.instrOf, h]
    rfl

theorem State.instrOf_event {i : Instr} {a : Arg} (hh : s.halted (.event i a) = false)
    (hk : s.keepsFault (.event i a) = false) (hl : s.holdsLine (.event i a) = false) :
    s.instrOf (.event i a) = ({ s with arg := a }, some i) := by
  simp only [State.instrOf, hh, hk, hl]
  rfl

/-- Beginning to run is no access: the fence after an atomic stands as it did. -/
theorem State.fenced_ranAt (s : State) (u : CtxRef) (n : Nat) :
    (s.setCtx u { s.ctx u with ranAt := n }).fenced u = s.fenced u := by
  simp only [State.fenced, State.ctx_setCtx_same]
  rfl

end

section
variable {s : State} {c : CoreId}

/-- A docent whose context waits for the fence after an atomic issues nothing (R135; logs 64 and 66). -/
theorem State.nextDocent_fenced (hs : s.focus = c) (hr : (s.ctx s.me).state = .running) (hf : s.fenced s.me = true) :
    s.nextDocent c = (s.setCtx s.me { s.ctx s.me with ranAt := s.now }, none) := by
  subst hs
  change (if (s.ctx s.me).state ≠ .running then _ else _) = _
  rw [if_neg (not_not.2 hr)]
  exact if_pos ((s.fenced_ranAt _ _).trans hf)

/-- The instruction of a docent word, or the refusal of one that is none (R78). -/
def fetched (w : Word32) : Instr :=
  match decodeDocent w with
  | .ok i => i
  | .undefined => .illegalInstruction w false
  | .reserved => .illegalInstruction w true

/-- A docent issues what the word fetched at its program counter decodes to. -/
theorem State.nextDocent_fetched {f : State} {w w' : Word32} (hs : s.focus = c) (hr : (s.ctx s.me).state = .running)
    (hf : s.fenced s.me = false)
    (hw : (s.setCtx s.me { s.ctx s.me with ranAt := s.now }).fetch s.me (s.ctx s.me).pc = (f, .ok (w, w'))) :
    s.nextDocent c = ({ f with second := w' }, some (fetched w)) := by
  subst hs
  change (if (s.ctx s.me).state ≠ .running then _ else _) = _
  rw [if_neg (not_not.2 hr)]
  dsimp only
  rw [if_neg (by rw [s.fenced_ranAt, hf]; decide), State.ctx_setCtx_same, hw]
  dsimp only
  rw [fetched]
  cases decodeDocent w <;> rfl

/-- The vector engine of a loaded kernel issues its next word (R84). -/
theorem State.nextVector_word {w : Word} (hs : s.focus = c) (ht : s.vec.task ≠ none)
    (hw : s.waiting (.unit (.vector c)) = false) (hc : (s.vectorEntry c).causes.stops = false)
    (hl : (s.vec.loops.toList.any fun l => l.active && l.last + 1 == s.vec.next) = false)
    (hk : s.vec.kernel[s.vec.next]? = some w) : s.nextVector c = (s, decodeKernel w) := by
  subst hs
  have loaded : s.vec.kernel.isEmpty = false := by
    cases h : s.vec.kernel with
    | nil => simp [h] at hk
    | cons _ _ => rfl
  have task : (s.vec.task.isNone || s.waiting (.unit (.vector s.focus))) = false := by
    simpa [hw, Option.isSome_iff_ne_none] using ht
  change (if (s.vec.task.isNone || s.waiting (.unit (.vector s.focus))) = true then _ else _) = _
  rw [if_neg (by rw [task]; decide)]
  change (if (s.vectorEntry s.focus).causes.stops = true then _ else _) = _
  simp only [hc, loaded, hl, hk, Bool.false_eq_true, if_false, Bool.not_true]

/-- An engine issues the record of its task. -/
theorem State.nextRecord_some {k : Kind} {h : Handle} {i : Instr} (hs : s.focus = c)
    (hw : s.waiting (.unit (unitOf c k)) = false) (hh : (s.engine c k).handle = some h)
    (hi : (s.entry c h).record k = some i) : s.nextRecord c k = (s, some i) := by
  subst hs
  simp only [State.nextRecord, hw, hh, Bool.false_eq_true, if_false]
  rw [hi]

end

/-- Settles O4: what each act picks, one lemma for each kind of unit. -/
theorem stepRunsDecoded : Obligations.StepRunsDecoded := by
  unfold Obligations.StepRunsDecoded
  refine ⟨fun s f i => step_of_instrOf, ?_, ?_, ?_, ?_, fun s i a => State.instrOf_event⟩
  · intro s f c w w' i hh q hr hf hw g
    have hn : s.instrOf (.unit (.docent c)) = (g, some (fetched w)) :=
      (State.instrOf_docent hh).trans (q.nextDocent_fetched rfl hr hf hw)
    refine ⟨fun hd => ?_, fun hd => ?_, fun hd => ?_⟩ <;> rw [hn, fetched, hd]
  · intro s c hh q hr hf
    exact (State.instrOf_docent hh).trans (q.nextDocent_fenced rfl hr hf)
  · intro s c w hh ht hw hc hl hk
    exact (State.instrOf_vector hh).trans (State.nextVector_word (s := { s with focus := c }) rfl ht hw hc hl hk)
  · intro s c k h i hk hh hw he hi
    exact (State.instrOf_record hk hh).trans (State.nextRecord_some (s := { s with focus := c }) rfl hw he hi)

/-! ### Immediates (R76) -/

theorem naturalImm_eq {w : Nat} (v : BitVec w) : naturalImm v = BitVec.ofNat 64 v.toNat :=
  (BitVec.ofNat_toNat ..).symm

theorem signedImm_eq {w : Nat} (v : BitVec w) : signedImm v = BitVec.ofInt 64 v.toInt := rfl

/-- A sum of words is the sum of their values. -/
theorem add_signedImm {w : Nat} (a : Word) (v : BitVec w) :
    a + signedImm v = BitVec.ofInt 64 (a.toInt + v.toInt) := by
  rw [BitVec.ofInt_add, BitVec.ofInt_toInt, signedImm_eq]

theorem toInt_signedImm {w : Nat} (v : BitVec w) (h : w ≤ 64) : (signedImm v).toInt = v.toInt :=
  BitVec.toInt_signExtend_of_le h

theorem and_naturalImm {w : Nat} (a : Word) (v : BitVec w) :
    a &&& naturalImm v = BitVec.ofNat 64 (a.toNat &&& v.toNat) := by
  rw [naturalImm_eq, BitVec.ofNat_and, BitVec.ofNat_toNat, BitVec.ofNat_toNat, BitVec.setWidth_eq]

theorem or_naturalImm {w : Nat} (a : Word) (v : BitVec w) :
    a ||| naturalImm v = BitVec.ofNat 64 (a.toNat ||| v.toNat) := by
  rw [naturalImm_eq, BitVec.ofNat_or, BitVec.ofNat_toNat, BitVec.ofNat_toNat, BitVec.setWidth_eq]

theorem xor_naturalImm {w : Nat} (a : Word) (v : BitVec w) :
    a ^^^ naturalImm v = BitVec.ofNat 64 (a.toNat ^^^ v.toNat) := by
  rw [naturalImm_eq, BitVec.ofNat_xor, BitVec.ofNat_toNat, BitVec.ofNat_toNat, BitVec.setWidth_eq]

theorem truth_slt_signedImm {w : Nat} (a : Word) (v : BitVec w) (h : w ≤ 64) :
    truth (a.slt (signedImm v)) = if a.toInt < v.toInt then 1 else 0 := by
  rw [truth, BitVec.slt, toInt_signedImm v h]
  simp only [decide_eq_true_eq]

theorem branchTarget_eq {w : Nat} (i : Issue) (v : BitVec w) (pc : Word) (h : i.at_ = pc + 4) :
    branchTarget i (signedImm v) = BitVec.ofInt 64 (pc.toInt + 4 + 4 * v.toInt) := by
  rw [branchTarget, h, signedImm_eq, BitVec.ofInt_add, BitVec.ofInt_add, BitVec.ofInt_toInt, BitVec.ofInt_mul,
    BitVec.mul_comm]
  rfl

/-! ### Stalls (R121) -/

theorem Context.stalls_iff (x : Context) (regs : List XReg) : x.stalls regs false = true ↔ x.Awaits regs := by
  cases h : x.load <;> simp [Context.stalls, Context.Awaits, h]

theorem Context.stalls_listed (x : Context) (regs : List XReg) : x.stalls regs true = true ↔ x.load ≠ none := by
  cases h : x.load <;> simp [Context.stalls, h]

/-! ### Branches (R117) -/

section
variable (s : State) (i : Issue) (regs : List XReg) (taken : Context → Bool) (target : Context → Word)

theorem State.branch_awaits (link : Bool) (h : s.acting.Awaits regs) : s.branch i regs taken target link = .next s :=
  if_pos ((Context.stalls_iff _ _).2 h)

theorem State.branch_goes (h : ¬ s.acting.Awaits regs) : s.branch i regs taken target false
    = if taken s.acting = false then .next (s.retire i id)
      else if (target s.acting).toNat % 4 ≠ 0 then .next (s.trap i 0x04 (target s.acting))
      else .next (s.becomes { s.acting with pc := target s.acting }) := by
  simp only [State.branch, Context.stalls_of_not_awaits h, Bool.not_eq_true']
  rfl

end

/-! ### Loads and stores (R118, R121, R122) -/

theorem State.loadAt_issues (s : State) (i : Issue) (d a : XReg) (imm : Word) (z : Size) (nat : Bool) :
    s.IssuesLoad (s.loadAt i d a imm z nat) i d (s.acting.getX a + imm) z nat := by
  refine ⟨fun h => if_pos (by simpa [Context.stalls_listed] using h), fun hl hf => ?_⟩
  have goes : ¬ (s.acting.stalls [d, a] true || s.fenced s.me) = true := by simp [Context.stalls_none _ _ _ hl, hf]
  refine ⟨fun c hc => ?_, fun hc => ?_⟩
  · refine (if_neg goes).trans ?_
    split
    · next h => cases hc.symm.trans h; rfl
    · next h => cases hc.symm.trans h
  · refine (if_neg goes).trans ?_
    split
    · next h => cases hc.symm.trans h
    · simp only [if_true, Bool.not_true, Bool.false_eq_true, if_false, bne_self_eq_false]
      split <;> rfl

@[simp] theorem State.ctx_once (s : State) (a : Act) (u : CtxRef) : (s.once a).ctx u = s.ctx u := by
  unfold State.once
  split <;> rfl

/-- A device that a context writes is one that it has written; nothing else of the context changes (R139). -/
theorem State.ctx_wrote (s : State) (u : CtxRef) (dev : DevNum) :
    ∃ l, dev ∈ l ∧ (s.wrote u dev).ctx u = { s.ctx u with written := l } := by
  by_cases h : (s.ctx u).written.contains dev = true
  · refine ⟨(s.ctx u).written, List.contains_iff_mem.1 h, ?_⟩
    simp only [State.wrote, h, if_true]
    split <;> rfl
  · refine ⟨(s.ctx u).written ++ [dev], List.mem_append_right _ (List.mem_singleton_self dev), ?_⟩
    simp only [State.wrote, h, Bool.false_eq_true, if_false]
    split <;> exact State.ctx_setCtx_same ..

/-- A store issues at core scope: its address and data do not turn on what the context has written. -/
theorem State.storeIssue_issues (s : State) (i : Issue) (regs : List XReg) (va data : Context → Word) (z : Size)
    (loc : Bool) (hva : ∀ x l, va { x with written := l } = va x)
    (hdata : ∀ x l, data { x with written := l } = data x) :
    s.IssuesStore (s.storeIssue i regs va data z none loc (if loc then .stloc else .any) .core) i regs (va s.acting)
      (data s.acting) z loc := by
  refine ⟨fun h => if_pos ?_, fun ha hf hq => ?_⟩
  · rcases h with h | h | h
    · simp [h]
    · simp [h]
    · simp [(Context.stalls_iff _ _).2 h]
  have goes : ¬ (s.acting.stalls regs false || s.fenced s.me || decide (16 ≤ s.acting.stores.length)) = true := by
    simp [Context.stalls_of_not_awaits ha, hf, hq]
  refine ⟨fun c hc => ?_, fun hc ht => ?_, fun dev hc ht => ?_⟩
  · refine (if_neg goes).trans ?_
    split
    · next h => cases hc.symm.trans h; rfl
    · next h => cases hc.symm.trans h
  · refine (if_neg goes).trans ?_
    split
    · next h => cases hc.symm.trans h
    · simp only [if_true, Bool.not_true, Bool.false_eq_true, if_false]
      rfl
  · obtain ⟨l, hl, hx⟩ := s.ctx_wrote s.me dev
    let q := s.wrote s.me dev
    let y := q.ctx s.me
    let w : StoreReq := ⟨va y, z, data y, none, loc, .core, y.level, y.task, y.gen, none, false, none⟩
    refine ⟨(q.setCtx s.me { y with stores := y.stores ++ [w], pc := i.next }).once
      (.event (.storePerformed s.me) .none), (if_neg goes).trans ?_, ?_, ?_⟩
    · split
      · next h => cases hc.symm.trans h
      · simp only [if_true, Bool.not_true, Bool.false_eq_true, if_false, ht]
        rfl
    · rw [State.ctx_once, State.ctx_setCtx_same]
      exact (congrArg Context.written hx).symm ▸ hl
    · rw [State.ctx_once, State.ctx_setCtx_same]
      have hy : y = { s.acting with written := l } := hx
      simp only [w, hy, hva, hdata]
      rfl

/-! ### Reference instructions (R168, R170-R172) -/

theorem Got.asAccess_ok {α : Type} (va : Word) (a : α) : (Got.ok a).asAccess va = .ok a := rfl

/-- A step that has its value goes on with it. -/
theorem State.refStep_ok {α : Type} (s t : State) (i : Issue) (a : α)
    (f : State → α → Host.Outcome State Fault Refusal) : s.refStep i (t, .ok a) f = f t.resumed a := rfl

theorem State.resumed_me (s : State) : s.resumed.me = s.me := State.setCtx_me ..

/-- The end of a reference instruction whose other copies are still to be written (R378). -/
theorem State.refWritten_parts (s : State) (i : Issue) (h : Option (HReg × Word)) :
    s.resumed.refWritten i true h = s.holdsRef i h := by
  change ((s.resumed.becomes { s.resumed.acting with midRef := true }).parkCtx s.resumed.me
    (.parts i.first i.next h)) = _
  rw [s.resumed_me]
  rfl

section
variable (s : State) (i : Issue)

theorem State.loadRef_loads (d : HReg) (a : XReg) (imm : Word) :
    s.LoadsReference (s.loadRef i d a imm) i d (s.acting.getX a + imm) := by
  refine ⟨fun h => ?_, fun h c hc => ?_, fun h hc => ⟨fun s1 w hr => ⟨s1.resumed.draw.2, ?_⟩, ?_⟩⟩
  · simp only [State.loadRef, h]
    rfl
  · simp only [State.loadRef, h, hc]
    rfl
  · simp only [State.loadRef, h, hc, hr]
    rfl
  · intro s1 t w v g hr hp
    have run : s.loadRef i d a imm = if v = w then .next (t.resumed.retire i fun x => x.setH d v)
        else t.resumed.refStep i ((t.resumed.heal (s.acting.getX a + imm) w v).1,
            (t.resumed.heal (s.acting.getX a + imm) w v).2.asAccess (s.acting.getX a + imm)) fun s parts =>
          .next (s.refWritten i parts (some (d, v))) := by
      simp only [State.loadRef, h, hc, hr, Got.asAccess_ok, State.refStep_ok, hp]
      rfl
    rw [run]
    refine ⟨fun hv => if_pos hv, fun q hv => ⟨fun hh => ?_, fun hh => ?_⟩⟩
    · rw [if_neg hv, hh]
      rfl
    · rw [if_neg hv, hh, Got.asAccess_ok, State.refStep_ok, State.refWritten_parts]

theorem State.storeRef_stores (a : XReg) (b : HReg) (imm : Word) :
    s.StoresReference (s.storeRef i a b imm) i b (s.acting.getX a + imm) := by
  refine ⟨fun h => ?_, fun h c hc => ?_, fun h hc t => ⟨fun hw => ?_, fun hw => ?_⟩⟩
  · simp only [State.storeRef, h]
    rfl
  · simp only [State.storeRef, h, hc]
    rfl
  · simp only [State.storeRef, h, hc, hw]
    rfl
  · simp only [State.storeRef, h, hc, hw, Got.asAccess_ok, State.refStep_ok, State.refWritten_parts]
    rfl

/-- The field of a null reference traps (R172). -/
theorem State.fieldOf_null (a : HReg) (off : Word) (h : s.acting.getH a = 0) :
    s.fieldOf a off = (s, .trap 0x07 none) := if_pos h

theorem State.loadField_loads (d : XReg) (a : HReg) (off : Word) :
    s.LoadsField (s.loadField i d a off) i d a off := by
  refine ⟨fun h => ?_, fun h ha => ⟨s.resumed.draw.2, ?_⟩, fun h t q v va l hf hr => ?_⟩
  · simp only [State.loadField, h]
    rfl
  · simp only [State.loadField, h, s.fieldOf_null a off ha]
    rfl
  · simp only [State.loadField, h, hf, State.refStep_ok, hr]
    rfl

theorem State.storeField_stores (a : HReg) (b : XReg) (off : Word) :
    s.StoresField (s.storeField i a b off) i a b off := by
  refine ⟨fun h => ?_, fun h ha => ⟨s.resumed.draw.2, ?_⟩, fun h t q v va hf => ⟨fun hw => ?_, fun hw => ?_⟩⟩
  · simp only [State.storeField, h]
    rfl
  · simp only [State.storeField, h, s.fieldOf_null a off ha]
    rfl
  · simp only [State.storeField, h, hf, State.refStep_ok, hw]
    rfl
  · simp only [State.storeField, h, hf, State.refStep_ok, hw, Got.asAccess_ok, State.refWritten_parts]
    rfl

end

/-! ### IMX and its word (R74, R76, R77) -/

section
variable {s : State} {p : BitVec 26}

/-- A word marked X executes as one with the IMX before it. -/
theorem exec_imx_pair {j : Instr} {o : Host.Outcome State Fault Refusal} (hpc : s.acting.pc.toNat % 64 ≠ 60)
    (hj : decodeDocent s.second = .ok j)
    (ho : s.prefixed ⟨s.acting.pc, s.acting.pc + 4, s.acting.pc + 8⟩ p j = some o) : exec (.imx p) s = o := by
  change execImx p s = o
  simp only [execImx, if_neg hpc, hj, ho]
  rfl

/-- An IMX in the last word of a line is misused (R77). -/
theorem exec_imx_last (hpc : s.acting.pc.toNat % 64 = 60) :
    exec (.imx p) s = .next (s.traps 0x03 (wordEval (.imx p))) :=
  if_pos hpc

theorem exec_imx_undefined (hpc : s.acting.pc.toNat % 64 ≠ 60) (hj : decodeDocent s.second = .undefined) :
    exec (.imx p) s = .next (s.traps 0x03 (wordEval (.imx p))) := by
  change execImx p s = _
  simp only [execImx, if_neg hpc, hj]
  rfl

/-- The forms that are not marked X stand alone (Table 3.2). -/
theorem State.prefixed_none (s : State) (i : Issue) (p : BitVec 26) (j : Instr) (h : j.takesPrefix = false) :
    s.prefixed i p j = none := by
  unfold State.prefixed
  dsimp only
  split
  case h_32 => rfl
  all_goals cases h

theorem exec_imx_misused {j : Instr} (hpc : s.acting.pc.toNat % 64 ≠ 60) (hj : decodeDocent s.second = .ok j)
    (ht : j.takesPrefix = false) : exec (.imx p) s = .next (s.traps 0x03 (wordEval (.imx p))) := by
  change execImx p s = _
  simp only [execImx, if_neg hpc, hj, State.prefixed_none _ _ _ _ ht]
  rfl

end

/-! ### Forms with an extended immediate, on a context with no load outstanding -/

section
variable {s : State} (i : Issue) (d a : XReg) {w : Nat} (v : BitVec w) (hl : s.acting.load = none)
include hl

theorem State.addImm_goes : s.addImm i d a (signedImm v)
    = .next (s.retire i fun x => x.setX d (BitVec.ofInt 64 ((x.getX a).toInt + v.toInt))) := by
  simp only [State.addImm, State.alu1, State.plain_goes _ _ _ _ hl, add_signedImm]

theorem State.andImm_goes : s.andImm i d a (naturalImm v)
    = .next (s.retire i fun x => x.setX d (BitVec.ofNat 64 ((x.getX a).toNat &&& v.toNat))) := by
  simp only [State.andImm, State.alu1, State.plain_goes _ _ _ _ hl, and_naturalImm]

theorem State.orImm_goes : s.orImm i d a (naturalImm v)
    = .next (s.retire i fun x => x.setX d (BitVec.ofNat 64 ((x.getX a).toNat ||| v.toNat))) := by
  simp only [State.orImm, State.alu1, State.plain_goes _ _ _ _ hl, or_naturalImm]

theorem State.xorImm_goes : s.xorImm i d a (naturalImm v)
    = .next (s.retire i fun x => x.setX d (BitVec.ofNat 64 ((x.getX a).toNat ^^^ v.toNat))) := by
  simp only [State.xorImm, State.alu1, State.plain_goes _ _ _ _ hl, xor_naturalImm]

theorem State.sltImm_goes (hw : w ≤ 64) : s.sltImm i d a (signedImm v)
    = .next (s.retire i fun x => x.setX d (if (x.getX a).toInt < v.toInt then 1 else 0)) := by
  simp only [State.sltImm, State.alu1, State.plain_goes _ _ _ _ hl, truth_slt_signedImm _ _ hw]

theorem State.loadImm_goes (imm : Word) : s.loadImm i d imm = .next (s.retire i fun x => x.setX d imm) :=
  State.plain_goes _ _ _ _ hl

theorem State.stageImm_goes (n : Fin 32) (imm : Word) :
    s.stageImm i n imm = .next (s.retire i fun x => { x with staging := vset x.staging n imm }) :=
  State.plain_goes _ _ _ _ hl

end

/-! ### The tables of branches, loads and stores after an IMX -/

section
variable (s : State) (i : Issue) (p : BitVec 26) (a b : XReg) (imm : BitVec 16)

theorem State.prefixed_branchTable : ∀ r ∈ branchTable,
    s.prefixed i p (r.1 a b imm) = some (s.branchIf i a b (signedImm (p ++ imm)) r.2) := by
  simp only [branchTable, List.forall_mem_cons, List.not_mem_nil, false_imp_iff, implies_true, and_true]
  have same {f g : Word → Word → Bool} (h : ∀ x y, f x y = g x y) :
      some (s.branchIf i a b (signedImm (p ++ imm)) f) = some (s.branchIf i a b (signedImm (p ++ imm)) g) := by
    rw [funext fun x => funext (h x)]
  refine ⟨rfl, same fun x y => ?_, rfl, same fun x y => ?_, rfl, same fun x y => ?_⟩
  · exact decide_not.symm
  · rw [BitVec.slt, ← decide_not, decide_eq_decide, not_lt]
  · rw [BitVec.ult, ← decide_not, decide_eq_decide, not_lt]

theorem State.prefixed_branchZTable : ∀ r ∈ branchZTable,
    s.prefixed i p (r.1 a imm) = some (s.branchZ i a (signedImm (p ++ imm)) r.2) := by
  simp only [branchZTable, List.forall_mem_cons, List.not_mem_nil, false_imp_iff, implies_true, and_true]
  refine ⟨rfl, congrArg (fun f => some (s.branchZ i a (signedImm (p ++ imm)) f)) (funext fun x => ?_)⟩
  exact decide_not.symm

theorem State.prefixed_loadTable : ∀ r ∈ loadTable,
    s.prefixed i p (r.1 b a imm) = some (s.loadAt i b a (signedImm (p ++ imm)) r.2.1 r.2.2) := by
  simp only [loadTable, List.forall_mem_cons, List.not_mem_nil, false_imp_iff, implies_true, and_true]
  exact ⟨rfl, rfl, rfl, rfl, rfl, rfl, rfl⟩

theorem State.prefixed_storeTable : ∀ r ∈ storeTable,
    s.prefixed i p (r.1 a b imm) = some (s.storeImm i a b (signedImm (p ++ imm)) r.2) := by
  simp only [storeTable, List.forall_mem_cons, List.not_mem_nil, false_imp_iff, implies_true, and_true]
  exact ⟨rfl, rfl, rfl, rfl⟩

end

/-- Settles O39: the word of a pair under each form marked X, and the words that take none. -/
theorem imxPairs : Obligations.ImxPairs := by
  unfold Obligations.ImxPairs
  refine ⟨?_, fun s p => exec_imx_last⟩
  intro s p w hpc hw goes x pair
  subst hw
  have run {j : Instr} {o : Host.Outcome State Fault Refusal} (hj : decodeDocent s.second = .ok j)
      (ho : s.prefixed pair p j = some o) : exec (.imx p) s = o := exec_imx_pair hpc hj ho
  refine ⟨?_, ?_, ?_, ?_⟩
  · intro hl d a imm g z
    exact ⟨fun h => (run h rfl).trans (State.addImm_goes pair d a _ hl),
      fun h => (run h rfl).trans (State.andImm_goes pair d a _ hl),
      fun h => (run h rfl).trans (State.orImm_goes pair d a _ hl),
      fun h => (run h rfl).trans (State.xorImm_goes pair d a _ hl),
      fun h => (run h rfl).trans (State.sltImm_goes pair d a _ hl (by decide)),
      fun h => (run h rfl).trans (State.loadImm_goes pair d hl _),
      fun n h => (run h rfl).trans (State.stageImm_goes pair hl n _)⟩
  · intro a b imm target branches
    have ht : branchTarget pair (signedImm (p ++ imm)) = target := branchTarget_eq pair _ x.pc rfl
    constructor
    · intro r hr h
      have hrun := run h (s.prefixed_branchTable pair p a b imm r hr)
      refine ⟨fun ha => ?_, fun ha => hrun.trans (s.branch_awaits _ _ _ _ _ ha)⟩
      have out := hrun.trans (s.branch_goes pair _ _ (fun _ => branchTarget pair (signedImm (p ++ imm))) ha)
      rwa [ht] at out
    · intro r hr h
      have hrun := run h (s.prefixed_branchZTable pair p a imm r hr)
      refine ⟨fun ha => ?_, fun ha => hrun.trans (s.branch_awaits _ _ _ _ _ ha)⟩
      have out := hrun.trans (s.branch_goes pair _ _ (fun _ => branchTarget pair (signedImm (p ++ imm))) ha)
      rwa [ht] at out
  · intro a b h imm va off
    have hva : x.getX a + signedImm (p ++ imm) = va := add_signedImm _ _
    refine ⟨fun r hr hj => ?_, fun r hr hj => ?_, fun hj => ?_, fun hj => ?_, fun hj => ?_, fun hj => ?_,
      fun hj => ?_⟩
    · rw [run hj (s.prefixed_loadTable pair p a b imm r hr), ← hva]
      exact s.loadAt_issues pair b a _ _ _
    · rw [run hj (s.prefixed_storeTable pair p a b imm r hr), ← hva]
      exact s.storeIssue_issues pair [a, b] _ _ _ false (fun _ _ => rfl) (fun _ _ => rfl)
    · rw [run hj rfl, ← hva]
      exact s.storeIssue_issues pair [a, b] _ _ _ true (fun _ _ => rfl) (fun _ _ => rfl)
    · rw [run hj rfl, ← hva]
      exact s.loadRef_loads pair h a _
    · rw [run hj rfl, ← hva]
      exact s.storeRef_stores pair a h _
    · rw [run hj rfl]
      exact s.loadField_loads pair b h _
    · rw [run hj rfl]
      exact s.storeField_stores pair h b _
  · rintro (h | ⟨j, hj, ht⟩)
    · exact exec_imx_undefined hpc h
    · exact exec_imx_misused hpc hj ht

end Sys2Proof.Machine
end

section
/-! PROOFS. Integer and immediate instructions: the ALU group (O9), SEL (O10), bit fields (O11), immediates (O12). -/

namespace Sys2Proof.Machine

/-! ### Words as numbers -/

/-- A word whose value is that of a number, wrapped. -/
theorem eq_ofInt {v : Word} {i : Int} (h : v.toInt = i.bmod (2 ^ 64)) : v = BitVec.ofInt 64 i :=
  BitVec.eq_of_toInt_eq (h.trans (BitVec.toInt_ofInt ..).symm)

theorem eq_ofNat {v : Word} {n : Nat} (h : v.toNat = n % 2 ^ 64) : v = BitVec.ofNat 64 n :=
  BitVec.eq_of_toNat_eq (h.trans (BitVec.toNat_ofNat ..).symm)

theorem sub_eq_ofInt (a b : Word) : a - b = BitVec.ofInt 64 (a.toInt - b.toInt) := eq_ofInt BitVec.toInt_sub

theorem mul_eq_ofInt (a b : Word) : a * b = BitVec.ofInt 64 (a.toInt * b.toInt) := eq_ofInt (BitVec.toInt_mul a b)

theorem highSigned_eq (a b : Word) : highSigned a b = BitVec.ofInt 64 (a.toInt * b.toInt / 2 ^ 64) := by
  have product : a.signExtend 128 * b.signExtend 128 = BitVec.ofInt 128 (a.toInt * b.toInt) := BitVec.ofInt_mul _ _ |>.symm
  apply BitVec.eq_of_toNat_eq
  rw [highSigned, product, BitVec.extractLsb'_toNat, BitVec.toNat_ofInt, BitVec.toNat_ofInt, Nat.shiftRight_eq_div_pow]
  omega

theorem highNatural_eq (a b : Word) : highNatural a b = BitVec.ofNat 64 (a.toNat * b.toNat / 2 ^ 64) := by
  have product : (a.zeroExtend 128 * b.zeroExtend 128).toNat = a.toNat * b.toNat := by
    rw [BitVec.toNat_mul, BitVec.toNat_setWidth_of_le (by decide), BitVec.toNat_setWidth_of_le (by decide)]
    have below : a.toNat * b.toNat < 2 ^ 64 * 2 ^ 64 := Nat.mul_lt_mul'' a.isLt b.isLt
    exact Nat.mod_eq_of_lt below
  exact eq_ofNat (by rw [highNatural, BitVec.extractLsb'_toNat, product, Nat.shiftRight_eq_div_pow])

theorem divide_eq (a b : Word) : divide a b = if b = 0 then -1 else BitVec.ofInt 64 (a.toInt.tdiv b.toInt) := by
  unfold divide
  split
  · decide
  · exact eq_ofInt (BitVec.toInt_sdiv a b)

theorem divideN_eq (a b : Word) :
    divideN a b = if b = 0 then BitVec.ofNat 64 (2 ^ 64 - 1) else BitVec.ofNat 64 (a.toNat / b.toNat) := by
  unfold divideN
  split
  · rfl
  · rw [← BitVec.toNat_udiv, BitVec.ofNat_toNat, BitVec.setWidth_eq]

theorem remainder_eq (a b : Word) : remainder a b
    = if b = 0 then a else BitVec.ofInt 64 (a.toInt - b.toInt * a.toInt.tdiv b.toInt) := by
  unfold remainder
  split
  · rfl
  · rw [← Int.tmod_def, ← BitVec.toInt_srem, BitVec.ofInt_toInt]

theorem remainderN_eq (a b : Word) : remainderN a b = if b = 0 then a else BitVec.ofNat 64 (a.toNat % b.toNat) := by
  unfold remainderN
  split
  · rfl
  · rw [← BitVec.toNat_umod, BitVec.ofNat_toNat, BitVec.setWidth_eq]

theorem shl_eq (a : Word) (n : Nat) : a <<< n = BitVec.ofNat 64 (a.toNat * 2 ^ n) :=
  eq_ofNat (by rw [BitVec.toNat_shiftLeft, Nat.shiftLeft_eq])

theorem shr_eq (a : Word) (n : Nat) : a >>> n = BitVec.ofNat 64 (a.toNat / 2 ^ n) := by
  rw [← Nat.shiftRight_eq_div_pow, ← BitVec.toNat_ushiftRight, BitVec.ofNat_toNat, BitVec.setWidth_eq]

theorem sra_eq (a : Word) (n : Nat) : a.sshiftRight n = BitVec.ofInt 64 (a.toInt / 2 ^ n) := by
  rw [← BitVec.ofInt_toInt (x := a.sshiftRight n), BitVec.toInt_sshiftRight, Int.shiftRight_eq_div_pow]
  norm_cast

/-- The two parts of a rotation have no bit in common, so that their union is their sum. -/
theorem rotl_eq (a : Word) {n : Nat} (h : n < 64) :
    a.rotateLeft n = BitVec.ofNat 64 (a.toNat * 2 ^ n + a.toNat / 2 ^ (64 - n)) := by
  have apart : a <<< n &&& a >>> (64 - n) = 0#64 := by
    apply BitVec.eq_of_getLsbD_eq
    intro i hi
    by_cases hn : i < n
    · simp [hn]
    · simp [BitVec.getLsbD_of_ge a (64 - n + i) (by omega)]
  rw [BitVec.rotateLeft_def, Nat.mod_eq_of_lt h, ← BitVec.add_eq_or_of_and_eq_zero _ _ apart, shl_eq, shr_eq,
    BitVec.ofNat_add]

/-! Shifts by a register take its low six bits. -/

theorem shl_amount (a b : Word) : a <<< amount b = BitVec.ofNat 64 (a.toNat * 2 ^ (b.toNat % 64)) := by
  rw [shl_eq, amount]

theorem shr_amount (a b : Word) : a >>> amount b = BitVec.ofNat 64 (a.toNat / 2 ^ (b.toNat % 64)) := by
  rw [shr_eq, amount]

theorem sra_amount (a b : Word) : a.sshiftRight (amount b) = BitVec.ofInt 64 (a.toInt / 2 ^ (b.toNat % 64)) := by
  rw [sra_eq, amount]

theorem rotl_amount (a b : Word) : a.rotateLeft (amount b)
    = BitVec.ofNat 64 (a.toNat * 2 ^ (b.toNat % 64) + a.toNat / 2 ^ (64 - b.toNat % 64)) := by
  rw [amount, rotl_eq a (Nat.mod_lt _ (by decide))]

theorem lesser_eq (a b : Word) : lesser a b = BitVec.ofInt 64 (min a.toInt b.toInt) := by
  rcases lt_or_ge a.toInt b.toInt with h | h
  · simp [lesser, BitVec.slt, h, h.le]
  · simp [lesser, BitVec.slt, h]

theorem greater_eq (a b : Word) : greater a b = BitVec.ofInt 64 (max a.toInt b.toInt) := by
  rcases lt_or_ge a.toInt b.toInt with h | h
  · simp [greater, BitVec.slt, h, h.le]
  · simp [greater, BitVec.slt, h]

theorem lesserN_eq (a b : Word) : lesserN a b = BitVec.ofNat 64 (min a.toNat b.toNat) := by
  rcases lt_or_ge a.toNat b.toNat with h | h
  · simp [lesserN, BitVec.ult, h, h.le]
  · simp [lesserN, BitVec.ult, h]

theorem greaterN_eq (a b : Word) : greaterN a b = BitVec.ofNat 64 (max a.toNat b.toNat) := by
  rcases lt_or_ge a.toNat b.toNat with h | h
  · simp [greaterN, BitVec.ult, h, h.le]
  · simp [greaterN, BitVec.ult, h]

theorem truth_slt (a b : Word) : truth (a.slt b) = if a.toInt < b.toInt then 1 else 0 := by
  simp only [truth, BitVec.slt, decide_eq_true_eq]

theorem truth_ult (a b : Word) : truth (a.ult b) = if a.toNat < b.toNat then 1 else 0 := by
  simp only [truth, BitVec.ult, decide_eq_true_eq]

theorem truth_beq (a b : Word) : truth (a == b) = if a = b then 1 else 0 := by
  simp only [truth, beq_iff_eq]

theorem andn_eq (a b : Word) : a &&& ~~~b = BitVec.ofNat 64 (a.toNat &&& (2 ^ 64 - 1 - b.toNat)) :=
  eq_ofNat (by
    rw [BitVec.toNat_and, BitVec.toNat_not, Nat.mod_eq_of_lt (Nat.and_lt_two_pow _ (by omega))])

/-! ### Counts of bits (Table 4.1) -/

theorem popNat_eq (n v : Nat) : popNat n v = (setBits n v).length := by
  induction n generalizing v with
  | zero => rfl
  | succ n ih =>
    rw [popNat, ih, setBits, setBits, List.range_succ_eq_map, List.filter_cons, List.filter_map, Nat.testBit_zero]
    have shifted : v.testBit ∘ Nat.succ = (v / 2).testBit := funext fun i => by simp [Nat.testBit_succ]
    rw [shifted]
    rcases Nat.mod_two_eq_zero_or_one v with h | h <;> simp [h, Nat.add_comm]

theorem leadingZeros_eq (a : Word) : ∃ n, leadingZeros a = BitVec.ofNat 64 n ∧ n ≤ 64 ∧
    (∀ i, 64 - n ≤ i → a.getLsbD i = false) ∧ (n < 64 → a.getLsbD (63 - n) = true) := by
  by_cases h : a = 0
  · exact ⟨64, by simp [leadingZeros, h], le_rfl, by simp [h], by simp⟩
  · have ha : a.toNat ≠ 0 := fun e => h (BitVec.eq_of_toNat_eq e)
    have hlog : a.toNat.log2 < 64 := (Nat.log2_lt ha).2 a.isLt
    refine ⟨63 - a.toNat.log2, by rw [leadingZeros, if_neg h], by omega, fun i hi => ?_, fun _ => ?_⟩
    · exact Nat.testBit_lt_two_pow (Nat.lt_log2_self.trans_le (Nat.pow_le_pow_right (by decide) (by omega)))
    · rw [show 63 - (63 - a.toNat.log2) = a.toNat.log2 by omega]
      exact Nat.testBit_log2 ha

theorem trailingZeros_eq (a : Word) : ∃ n, trailingZeros a = BitVec.ofNat 64 n ∧ n ≤ 64 ∧
    (∀ i < n, a.getLsbD i = false) ∧ (n < 64 → a.getLsbD n = true) := by
  refine ⟨_, rfl, ?_⟩
  cases h : (List.range 64).find? fun i => a.getLsbD i with
  | none =>
    have none_set := List.find?_range_eq_none.1 h
    exact ⟨le_rfl, by simpa using none_set, by simp⟩
  | some n =>
    obtain ⟨hbit, hn, hbelow⟩ := List.find?_range_eq_some.1 h
    exact ⟨(List.mem_range.1 hn).le, by simpa using hbelow, fun _ => hbit⟩

/-! ### Instructions as rows of their tables -/

/-- A row of a table whose operation agrees with the model's. -/
theorem alu2_row {s : State} {d a b : XReg} {o : Host.Outcome State Fault Refusal} {f g : Word → Word → Word}
    (h : ∀ x y, f x y = g x y) (ho : o = s.alu2 d a b f) : o = s.alu2 d a b g := by
  rw [ho, funext fun x => funext (h x)]

theorem alu1_row {s : State} {i : Issue} {d a : XReg} {o : Host.Outcome State Fault Refusal} {f g : Word → Word}
    (h : ∀ x, f x = g x) (ho : o = s.alu1 i d a f) : o = s.alu1 i d a g := by
  rw [ho, funext h]

section
variable (s : State) (d a b : XReg)

/-- An instruction that awaits a register stalls. -/
theorem State.plain_awaits (i : Issue) (regs : List XReg) (f : Context → Context) (h : s.acting.Awaits regs) :
    s.plain i regs f = .next s :=
  if_pos ((Context.stalls_iff _ _).2 h)

theorem State.alu2_goes (op : Word → Word → Word) (h : ¬ s.acting.Awaits [d, a, b]) :
    s.alu2 d a b op = .next (s.puts d (op (s.acting.getX a) (s.acting.getX b))) :=
  s.plain_of_not_awaits _ _ _ h

theorem State.alu1_goes (op : Word → Word) (h : ¬ s.acting.Awaits [d, a]) :
    s.alu1 s.acting.issue d a op = .next (s.puts d (op (s.acting.getX a))) :=
  s.plain_of_not_awaits _ _ _ h

theorem exec_aluTable : ∀ r ∈ aluTable, exec (r.2.1 d a b) s = s.alu2 d a b r.2.2 := by
  have natural {n : Nat} {v : Word} (h : v.toNat = n) : v = BitVec.ofNat 64 n := by
    rw [← h, BitVec.ofNat_toNat, BitVec.setWidth_eq]
  simp only [aluTable, List.forall_mem_cons, List.not_mem_nil, false_imp_iff, implies_true, and_true]
  exact ⟨rfl, alu2_row sub_eq_ofInt rfl, alu2_row mul_eq_ofInt rfl, alu2_row highSigned_eq rfl,
    alu2_row highNatural_eq rfl, alu2_row divide_eq rfl, alu2_row divideN_eq rfl, alu2_row remainder_eq rfl,
    alu2_row remainderN_eq rfl, alu2_row (fun x y => natural (BitVec.toNat_and x y)) rfl,
    alu2_row (fun x y => natural (BitVec.toNat_or x y)) rfl, alu2_row (fun x y => natural (BitVec.toNat_xor x y)) rfl,
    alu2_row andn_eq rfl, alu2_row shl_amount rfl, alu2_row shr_amount rfl, alu2_row sra_amount rfl,
    alu2_row rotl_amount rfl, alu2_row lesser_eq rfl, alu2_row greater_eq rfl, alu2_row lesserN_eq rfl,
    alu2_row greaterN_eq rfl, alu2_row truth_slt rfl, alu2_row truth_ult rfl, alu2_row truth_beq rfl⟩

theorem exec_countTable : ∀ r ∈ countTable, ∃ op, exec (r.2.1 d a) s = s.alu1 s.acting.issue d a op ∧
    ∀ x, ∃ n, r.2.2 x n ∧ op x = BitVec.ofNat 64 n := by
  simp only [countTable, List.forall_mem_cons, List.not_mem_nil, false_imp_iff, implies_true, and_true]
  refine ⟨⟨leadingZeros, rfl, fun x => ?_⟩, ⟨trailingZeros, rfl, fun x => ?_⟩, ⟨countBits, rfl, fun x => ?_⟩⟩
  · obtain ⟨n, hn, h⟩ := leadingZeros_eq x
    exact ⟨n, h, hn⟩
  · obtain ⟨n, hn, h⟩ := trailingZeros_eq x
    exact ⟨n, h, hn⟩
  · exact ⟨_, rfl, by rw [countBits, popNat_eq]; rfl⟩

theorem decode_aluTable : ∀ r ∈ aluTable, decodeDocent (BitVec.ofNat 32 (formA 0x00 d a b r.1)) = .ok (r.2.1 d a b) := by
  have reads {i : Instr} {w : Nat} (hw : i.wf = true) (he : encodeDocent i = some w) :
      decodeDocent (BitVec.ofNat 32 w) = .ok i := (docentRoundTrip i w hw he).2
  simp only [aluTable, List.forall_mem_cons, List.not_mem_nil, false_imp_iff, implies_true, and_true]
  refine ⟨?_, ?_, ?_, ?_, ?_, ?_, ?_, ?_, ?_, ?_, ?_, ?_, ?_, ?_, ?_, ?_, ?_, ?_, ?_, ?_, ?_, ?_, ?_, ?_⟩ <;>
  exact reads rfl rfl

theorem decode_countTable : ∀ r ∈ countTable, decodeDocent (BitVec.ofNat 32 (formA 0x00 d a b r.1))
    = if b = 0 then .ok (r.2.1 d a) else .reserved := by
  simp only [countTable, List.forall_mem_cons, List.not_mem_nil, false_imp_iff, implies_true, and_true]
  have reads (f : Nat) (hf : f < 2048) : FormA (formA 0x00 d a b f) 0x00 d a b f :=
    formA_fields rfl (by decide) d.isLt a.isLt b.isLt hf
  have zero : (b.val == 0) = decide (b = 0) := by
    rw [Bool.eq_iff_iff, beq_iff_eq, decide_eq_true_eq, Fin.ext_iff]
    rfl
  refine ⟨?_, ?_, ?_⟩
  · have h := reads 0x019 (by decide)
    simp only [decodeDocent_alu h.lt h.major, decodeAlu, h.fn, h.xd, h.xa, h.b, zero, okIf, decide_eq_true_eq]
  · have h := reads 0x01A (by decide)
    simp only [decodeDocent_alu h.lt h.major, decodeAlu, h.fn, h.xd, h.xa, h.b, zero, okIf, decide_eq_true_eq]
  · have h := reads 0x01B (by decide)
    simp only [decodeDocent_alu h.lt h.major, decodeAlu, h.fn, h.xd, h.xa, h.b, zero, okIf, decide_eq_true_eq]

end

/-- Settles O9: the rows of Table 4.1, as words and as outcomes. -/
theorem aluInstructions : Obligations.AluInstructions := by
  unfold Obligations.AluInstructions
  refine ⟨fun r hr s d a b => ⟨decode_aluTable d a b r hr, ?_, ?_⟩,
    fun r hr s d a b => ⟨decode_countTable d a b r hr, ?_, ?_⟩⟩
  · rw [exec_aluTable s d a b r hr]
    exact s.alu2_goes d a b r.2.2
  · rw [exec_aluTable s d a b r hr]
    exact s.plain_awaits _ _ _
  · intro h
    obtain ⟨op, hrun, hop⟩ := exec_countTable s d a r hr
    obtain ⟨n, hn, hv⟩ := hop (s.acting.getX a)
    exact ⟨n, hn, by rw [hrun, s.alu1_goes d a op h, hv]⟩
  · intro h
    obtain ⟨op, hrun, -⟩ := exec_countTable s d a r hr
    exact hrun.trans (s.plain_awaits _ _ _ h)

/-! ### SEL (R114) -/

theorem decode_sel (d c a b : XReg) (low : BitVec 6) :
    decodeDocent (BitVec.ofNat 32 (formA 0x01 d a b (64 * c.val + low.toNat)))
      = if low = 0 then .ok (.sel d c a b) else .reserved := by
  have h : FormA (formA 0x01 d a b (64 * c.val + low.toNat)) 0x01 d a b (64 * c.val + low.toNat) :=
    formA_fields rfl (by decide) d.isLt a.isLt b.isLt (by omega)
  have hc : bits (formA 0x01 d a b (64 * c.val + low.toNat)) 6 5 = c := by rw [h.low 6 5 (by decide)]; omega
  have h0 : bits (formA 0x01 d a b (64 * c.val + low.toNat)) 0 6 = low.toNat := by rw [h.low 0 6 (by decide)]; omega
  have zero : (low.toNat == 0) = decide (low = 0) := by
    rw [Bool.eq_iff_iff, beq_iff_eq, decide_eq_true_eq, ← BitVec.toNat_inj]
    rfl
  rw [decodeDocent, decodeDocent_ofNat _ h.lt, h.major, h.xd, h.xa, h.xb, xAt_eq hc, h0, zero]
  simp only [okIf, decide_eq_true_eq]

/-- Settles O10: SEL as a word and as an outcome. -/
theorem selInstruction : Obligations.SelInstruction := by
  unfold Obligations.SelInstruction
  exact fun s d c a b low => ⟨decode_sel d c a b low, s.plain_of_not_awaits _ _ _, s.plain_awaits _ _ _⟩

/-! ### Bit fields (R115) -/

theorem getLsbD_lowMask (n i : Nat) (hi : i < 64) : (lowMask n).getLsbD i = decide (i < n) := by
  rw [lowMask, BitVec.getLsbD_ofNat, Nat.testBit_two_pow_sub_one]
  simp [hi]

theorem testBit_bits (w lo len i : Nat) : (bits w lo len).testBit i = (decide (i < len) && w.testBit (lo + i)) := by
  rw [bits, Nat.testBit_mod_two_pow, Nat.testBit_shiftRight]

section
variable (a : Word) (pos w : BitVec 6) (i : Nat) (hi : i < 64)
include hi

theorem getLsbD_fieldNatural :
    (fieldNatural a pos w).getLsbD i = (decide (i < w.toNat + 1) && a.getLsbD (pos.toNat + i)) := by
  rw [fieldNatural, BitVec.getLsbD_ofNat, testBit_bits]
  simp [hi, BitVec.getLsbD]

theorem getLsbD_fieldInsert (d : Word) : (fieldInsert d a pos w).getLsbD i
    = if pos.toNat ≤ i ∧ i < pos.toNat + (w.toNat + 1) then a.getLsbD (i - pos.toNat) else d.getLsbD i := by
  have mask : (lowMask (w.toNat + 1) <<< pos.toNat).getLsbD i
      = decide (pos.toNat ≤ i ∧ i < pos.toNat + (w.toNat + 1)) := by
    rw [BitVec.getLsbD_shiftLeft, getLsbD_lowMask _ _ (by omega)]
    by_cases h : i < pos.toNat
    · simp [h, Nat.not_le.2 h]
    · simp [hi, h, Nat.not_lt.1 h, Nat.sub_lt_iff_lt_add (Nat.not_lt.1 h), Nat.add_comm]
  rw [fieldInsert]
  simp only [BitVec.getLsbD_or, BitVec.getLsbD_and, BitVec.getLsbD_not, mask, BitVec.getLsbD_shiftLeft]
  split
  · next h => simp [h, hi, Nat.not_lt.2 h.1]
  · next h => simp [h, hi]

end

theorem signed_eq_toInt {n v : Nat} (h : v < 2 ^ (n + 1)) : signed (n + 1) v = (BitVec.ofNat (n + 1) v).toInt := by
  have half : v < 2 ^ n ↔ 2 * v < 2 ^ (n + 1) := by rw [Nat.pow_succ]; omega
  simp only [BitVec.toInt_eq_toNat_cond, BitVec.toNat_ofNat, Nat.mod_eq_of_lt h, signed, Nat.add_sub_cancel, half]
  split <;> simp

/-- A field read as a signed number is the sign extension of its bits. -/
theorem fieldSigned_eq (a : Word) (pos w : BitVec 6) :
    fieldSigned a pos w = (BitVec.ofNat (w.toNat + 1) (bits a.toNat pos.toNat (w.toNat + 1))).signExtend 64 := by
  rw [fieldSigned, signed_eq_toInt (bits_lt _ _ _)]
  rfl

theorem getLsbD_fieldSigned (a : Word) (pos w : BitVec 6) (i : Nat) (hi : i < 64) :
    (fieldSigned a pos w).getLsbD i = if i < w.toNat + 1 then decide (i < w.toNat + 1) && a.getLsbD (pos.toNat + i)
      else decide (w.toNat < w.toNat + 1) && a.getLsbD (pos.toNat + w.toNat) := by
  rw [fieldSigned_eq, BitVec.getLsbD_signExtend, BitVec.msb_eq_getLsbD_last, BitVec.getLsbD_ofNat, BitVec.getLsbD_ofNat,
    testBit_bits, testBit_bits]
  simp [hi, BitVec.getLsbD]

/-- A field that passes bit 63 is reserved (Table 3.2). -/
theorem decodeField_reserved {v m : Nat} {d a : XReg} {p n : BitVec 6}
    (h : FormI v m d a (64 * p.toNat + n.toNat)) (hfit : fieldFits p n = false)
    (f : XReg → XReg → BitVec 6 → BitVec 6 → Instr) : decodeField v f = .reserved := by
  rw [Nat.mul_comm, show 64 = 2 ^ 6 from rfl, ← shl_or n.isLt] at h
  obtain ⟨-, hlow⟩ := bits_fits (n := 12) (len := 4) h.imm (Nat.or_lt_two_pow (by omega) (by omega))
  obtain ⟨hp, hn⟩ := bits_join (n := 6) (len := 6) hlow n.isLt
  have wide : ¬ p.toNat + (n.toNat + 1) ≤ 64 := by simpa [fieldFits, Nat.add_assoc] using hfit
  rw [decodeField, hp, hn]
  simp [okIf, wide]

theorem decode_field_reserved (d a : XReg) (pos width : BitVec 6) (hfit : fieldFits pos width = false) :
    ∀ m ∈ [0x0C, 0x0D, 0x0E],
      decodeDocent (BitVec.ofNat 32 (formI m d a (64 * pos.toNat + width.toNat))) = .reserved := by
  have word (m : Nat) (hm : m < 64) : FormI (formI m d a (64 * pos.toNat + width.toNat)) m d a
      (64 * pos.toNat + width.toNat) := formI_fields rfl hm d.isLt a.isLt (by omega)
  have major (m : Nat) (hm : m < 64) (f) (hd : ∀ w : Nat, w < 2 ^ 32 → bits w 26 6 = m →
      decodeDocent (BitVec.ofNat 32 w) = decodeField w f) :
      decodeDocent (BitVec.ofNat 32 (formI m d a (64 * pos.toNat + width.toNat))) = .reserved :=
    (hd _ (word m hm).lt (word m hm).major).trans (decodeField_reserved (word m hm) hfit f)
  simp only [List.forall_mem_cons, List.not_mem_nil, false_imp_iff, implies_true, and_true]
  refine ⟨major 0x0C (by decide) .exts fun w hw hm => ?_, major 0x0D (by decide) .extz fun w hw hm => ?_,
    major 0x0E (by decide) .insf fun w hw hm => ?_⟩ <;>
  · rw [decodeDocent, decodeDocent_ofNat w hw, hm]
    rfl

/-- Settles O11: each bit of the result. -/
theorem fieldInstructions : Obligations.FieldInstructions := by
  unfold Obligations.FieldInstructions
  intro s d a pos width x n field
  refine ⟨decode_field_reserved d a pos width, fun _ h => ⟨⟨fieldNatural x pos width, ?_, ?_⟩,
    ⟨fieldSigned x pos width, ?_, ?_⟩, ⟨fieldInsert (s.acting.getX d) x pos width, ?_, ?_⟩⟩, fun h => ⟨?_, ?_, ?_⟩⟩
  · exact s.alu1_goes d a (fieldNatural · pos width) h
  · exact getLsbD_fieldNatural x pos width
  · exact s.alu1_goes d a (fieldSigned · pos width) h
  · exact getLsbD_fieldSigned x pos width
  · exact s.plain_of_not_awaits _ _ _ h
  · exact fun i hi => getLsbD_fieldInsert x pos width i hi _
  · exact s.plain_awaits _ _ _ h
  · exact s.plain_awaits _ _ _ h
  · exact s.plain_awaits _ _ _ h

/-! ### Immediates (R116) -/

theorem loadHigh_eq (d : Word) (imm : BitVec 16) :
    loadHigh d imm = BitVec.ofNat 64 (imm.toNat * 2 ^ 42 + d.toNat % 2 ^ 42) := by
  have low : d.toNat &&& (lowMask 42).toNat = d.toNat % 2 ^ 42 := Nat.and_two_pow_sub_one_eq_mod d.toNat 42
  have high : (BitVec.zeroExtend 64 imm <<< 42).toNat = imm.toNat <<< 42 := by
    rw [BitVec.toNat_shiftLeft, BitVec.toNat_setWidth, Nat.shiftLeft_eq, Nat.shiftLeft_eq]
    omega
  refine eq_ofNat ?_
  rw [loadHigh, BitVec.toNat_or, BitVec.toNat_and, high, low, shl_or (Nat.mod_lt _ (by decide))]
  omega

section
variable (s : State) (d a : XReg)

theorem exec_immTable (imm : BitVec 16) : ∀ r ∈ immTable,
    exec (r.2.1 d a imm) s = s.alu1 s.acting.issue d a fun x => r.2.2 x imm := by
  simp only [immTable, List.forall_mem_cons, List.not_mem_nil, false_imp_iff, implies_true, and_true]
  exact ⟨alu1_row (fun x => add_signedImm x imm) rfl, alu1_row (fun x => and_naturalImm x imm) rfl,
    alu1_row (fun x => or_naturalImm x imm) rfl, alu1_row (fun x => xor_naturalImm x imm) rfl,
    alu1_row (fun x => truth_slt_signedImm x imm (by decide)) rfl⟩

theorem exec_shiftTable (sh : BitVec 6) : ∀ r ∈ shiftTable,
    exec (r.2.1 d a sh) s = s.alu1 s.acting.issue d a fun x => r.2.2 x sh := by
  simp only [shiftTable, List.forall_mem_cons, List.not_mem_nil, false_imp_iff, implies_true, and_true]
  exact ⟨alu1_row (fun x => shl_eq x sh.toNat) rfl, alu1_row (fun x => shr_eq x sh.toNat) rfl,
    alu1_row (fun x => sra_eq x sh.toNat) rfl⟩

end

/-- Settles O12: the rows of Table 4.2, LIL and LIH. -/
theorem immediateInstructions : Obligations.ImmediateInstructions := by
  unfold Obligations.ImmediateInstructions
  refine ⟨fun r hr s d a imm => ?_, fun r hr s d a sh => ?_, fun s d imm => ⟨fun h => ⟨?_, ?_⟩, fun h => ⟨?_, ?_⟩⟩⟩
  · rw [exec_immTable s d a imm r hr]
    exact ⟨s.alu1_goes d a _, s.plain_awaits _ _ _⟩
  · rw [exec_shiftTable s d a sh r hr]
    exact ⟨s.alu1_goes d a _, s.plain_awaits _ _ _⟩
  · exact s.plain_of_not_awaits _ _ _ h
  · rw [← loadHigh_eq]
    exact s.plain_of_not_awaits _ _ _ h
  · exact s.plain_awaits _ _ _ h
  · exact s.plain_awaits _ _ _ h

end Sys2Proof.Machine
end

section
/-! PROOFS. Transfers of control: branches (O13), NOP, TRAP and BRK (O24), and the return from a trap (O26). -/

namespace Sys2Proof.Machine

/-! ### Branches (R117) -/

/-- The target of an unprefixed branch: four times its offset from its own address. -/
theorem branchTarget_issue {w : Nat} (x : Context) (v : BitVec w) :
    branchTarget x.issue (signedImm v) = BitVec.ofInt 64 (x.pc.toInt + 4 * v.toInt) := by
  rw [branchTarget, signedImm_eq, BitVec.ofInt_add, BitVec.ofInt_toInt, BitVec.ofInt_mul, BitVec.mul_comm]
  rfl

/-- A branch of an aligned context leads to an aligned address. -/
theorem aligned_branch {w : Nat} (pc : Word) (v : BitVec w) (h : pc.toNat % 4 = 0) :
    (BitVec.ofInt 64 (pc.toInt + 4 * v.toInt)).toNat % 4 = 0 := by
  rw [BitVec.toNat_ofInt, BitVec.toInt_eq_toNat_cond]
  split <;> omega

section
variable (s : State) (i : Issue) (regs : List XReg) (target : Context → Word) (link : Bool)

/-- A branch that is always taken. -/
theorem State.branch_always (h : ¬ s.acting.Awaits regs) : s.branch i regs (fun _ => true) target link
    = if (target s.acting).toNat % 4 ≠ 0 then .next (s.trap i 0x04 (target s.acting))
      else .next (s.becomes { (if link then s.acting.setX 30 (i.at_ + 4) else s.acting) with pc := target s.acting }) := by
  simp only [State.branch, Context.stalls_of_not_awaits h, Bool.not_true, Bool.false_eq_true, if_false]
  rfl

theorem State.branch_jumps (h : ¬ s.acting.Awaits regs) (ha : (target s.acting).toNat % 4 = 0) :
    s.branch i regs (fun _ => true) target link = .next (s.becomes
      { (if link then s.acting.setX 30 (i.at_ + 4) else s.acting) with pc := target s.acting }) := by
  rw [s.branch_always _ _ _ _ h, if_neg (not_not.2 ha)]

theorem State.branch_misaligned (h : ¬ s.acting.Awaits regs) (ha : (target s.acting).toNat % 4 ≠ 0) :
    s.branch i regs (fun _ => true) target link = .next (s.trap i 0x04 (target s.acting)) := by
  rw [s.branch_always _ _ _ _ h, if_pos ha]

end

theorem Context.not_awaits_nil (x : Context) : ¬ x.Awaits [] := fun ⟨_, _, h⟩ => List.not_mem_nil h

theorem not_slt (a b : Word) : (!a.slt b) = decide (b.toInt ≤ a.toInt) := by
  rw [BitVec.slt, ← decide_not, decide_eq_decide, not_lt]

theorem not_ult (a b : Word) : (!a.ult b) = decide (b.toNat ≤ a.toNat) := by
  rw [BitVec.ult, ← decide_not, decide_eq_decide, not_lt]

section
variable (s : State) (a b : XReg) (off : BitVec 16)

theorem exec_branchTable : ∀ r ∈ branchTable,
    exec (r.1 a b off) s = s.branchIf s.acting.issue a b (signedImm off) r.2 := by
  have row {o : Host.Outcome State Fault Refusal} {f g : Word → Word → Bool} (h : ∀ x y, f x y = g x y)
      (ho : o = s.branchIf s.acting.issue a b (signedImm off) f) :
      o = s.branchIf s.acting.issue a b (signedImm off) g := by
    rw [ho, funext fun x => funext (h x)]
  simp only [branchTable, List.forall_mem_cons, List.not_mem_nil, false_imp_iff, implies_true, and_true]
  exact ⟨rfl, row (fun x y => decide_not.symm) rfl, rfl, row not_slt rfl, rfl, row not_ult rfl⟩

theorem exec_branchZTable : ∀ r ∈ branchZTable,
    exec (r.1 a off) s = s.branchZ s.acting.issue a (signedImm off) r.2 := by
  simp only [branchZTable, List.forall_mem_cons, List.not_mem_nil, false_imp_iff, implies_true, and_true]
  exact ⟨rfl, congrArg (s.branchZ s.acting.issue a (signedImm off)) (funext fun x => decide_not.symm)⟩

end

/-- A conditional branch on a condition of the acting context. -/
theorem State.branch_cases (s : State) (i : Issue) (regs : List XReg) (taken : Context → Bool) (target : Word)
    (h : ¬ s.acting.Awaits regs) :
    (taken s.acting = false → s.branch i regs taken (fun _ => target) false = .next (s.retire i id)) ∧
    (taken s.acting = true → target.toNat % 4 = 0 →
      s.branch i regs taken (fun _ => target) false = .next (s.becomes { s.acting with pc := target })) ∧
    (taken s.acting = true → target.toNat % 4 ≠ 0 →
      s.branch i regs taken (fun _ => target) false = .next (s.trap i 0x04 target)) := by
  rw [s.branch_goes i regs taken (fun _ => target) h]
  exact ⟨fun ht => if_pos ht, fun ht ha => by rw [if_neg (by simp [ht]), if_neg (not_not.2 ha)],
    fun ht ha => by rw [if_neg (by simp [ht]), if_pos ha]⟩

/-- Settles O13: conditional branches by their tables, the others by their target. -/
theorem branchInstructions : Obligations.BranchInstructions := by
  unfold Obligations.BranchInstructions
  refine ⟨?_, ?_, ?_, ?_⟩
  · intro r hr s a b off target h
    rw [exec_branchTable s a b off r hr, State.branchIf, branchTarget_issue]
    exact s.branch_cases s.acting.issue [a, b] (fun x => r.2 (x.getX a) (x.getX b)) target h
  · intro r hr s a off target h
    rw [exec_branchZTable s a off r hr, State.branchZ, branchTarget_issue]
    exact s.branch_cases s.acting.issue [a] (fun x => r.2 (x.getX a)) target h
  · intro s off hpc target
    have ht : branchTarget s.acting.issue (signedImm off) = target := branchTarget_issue _ _
    have ha : target.toNat % 4 = 0 := aligned_branch s.acting.pc off hpc
    rw [← ht] at ha ⊢
    exact ⟨s.branch_jumps _ _ (fun _ => branchTarget s.acting.issue (signedImm off)) false s.acting.not_awaits_nil ha,
      fun h => s.branch_jumps _ _ (fun _ => branchTarget s.acting.issue (signedImm off)) true h ha⟩
  · intro s a target
    exact ⟨fun h ha => s.branch_jumps _ _ (fun x => x.getX a) false h ha,
      fun h ha => s.branch_misaligned _ _ (fun x => x.getX a) false h ha,
      fun h ha => s.branch_jumps _ _ (fun x => x.getX a) true h ha,
      fun h ha => s.branch_misaligned _ _ (fun x => x.getX a) true h ha⟩

/-! ### Returning from a trap (R147) -/

theorem exec_eret_stalls (s : State) (h : s.acting.load ≠ none) : exec .eret s = .next s :=
  if_pos ((Context.stalls_listed _ _).2 h)

section
variable (s : State) (hl : s.acting.load = none)
include hl

theorem exec_eret_user (hu : s.acting.level = .u) : exec .eret s = .next (s.traps 0x09 (wordEval .eret)) := by
  change execEret s = _
  simp only [execEret, Context.stalls_none _ _ _ hl, Bool.false_eq_true, if_false]
  exact if_pos hu

theorem exec_eret_misaligned (hs : s.acting.level = .s) (ha : s.acting.epc.toNat % 4 ≠ 0) :
    exec .eret s = .next (s.traps 0x04 s.acting.epc) := by
  change execEret s = _
  simp only [execEret, Context.stalls_none _ _ _ hl, Bool.false_eq_true, if_false]
  rw [if_neg (by simp [hs]), if_pos ha]
  rfl

theorem exec_eret_returns (hs : s.acting.level = .s) (ha : s.acting.epc.toNat % 4 = 0) :
    exec .eret s = .next (s.becomes s.acting.returned) := by
  change execEret s = _
  simp only [execEret, Context.stalls_none _ _ _ hl, Bool.false_eq_true, if_false]
  rw [if_neg (by simp [hs]), if_neg (not_not.2 ha)]
  rfl

end

/-- The exchange of X31 and SSCR, register by register (R384). -/
theorem Context.returned_eq (x : Context) : x.returned = { x with
    pc := x.epc
    level := x.prev
    prev := .u
    x := if x.prev = .u then vset x.x 31 x.sscr else x.x
    sscr := if x.prev = .u then x.getX 31 else x.sscr } := by
  unfold Context.returned
  dsimp only
  split <;> rfl

/-- Settles O26: the stall, the two traps and the return. -/
theorem eretInstruction : Obligations.EretInstruction := by
  unfold Obligations.EretInstruction
  intro s
  refine ⟨exec_eret_stalls s, exec_eret_user s, exec_eret_misaligned s, fun hl hs ha => ?_⟩
  rw [exec_eret_returns s hl hs ha, Context.returned_eq]

/-! ### NOP, TRAP and BRK (R146) -/

/-- What a trap writes besides X31 and SSCR, and what it leaves (R384). -/
theorem Context.trapped_eq (x : Context) (cause : BitVec 8) (eval epc : Word) :
    ∃ (r : Vector Word 32) (q : Word) (m : List (DevNum × Plane)), x.trapped cause eval epc = { x with
      epc := epc, ecause := cause, eval := eval, prev := x.level, level := .s, pc := x.tvec, wideFault := false,
      fencing := false, markers := m, posting := false, midRef := false, x := r, sscr := q } := by
  unfold Context.trapped
  dsimp only
  split
  · exact ⟨_, _, _, rfl⟩
  · exact ⟨_, _, _, rfl⟩

/-- ERET to the EPC of a trap stands at the instruction again, at its level. -/
theorem exec_eret_after_trap (s : State) (cause : BitVec 8) (eval : Word) (hv : s.acting.tvec ≠ 0)
    (hr : s.acting.state = .running) :
    let t := s.takeTrap s.me cause eval s.acting.pc
    t.acting.epc = s.acting.pc ∧ t.acting.eval = eval ∧ t.acting.ecause = cause ∧
    (s.acting.load = none → s.acting.pc.toNat % 4 = 0 →
      ∃ q : State, exec .eret t = .next q ∧ q.acting.pc = s.acting.pc ∧ q.acting.level = s.acting.level) := by
  intro t
  have ht : t.acting = s.acting.trapped cause eval s.acting.pc := by
    simp only [t, State.takeTrap_handled s s.me cause eval s.acting.pc hv hr, State.acting, State.setCtx_me,
      State.ctx_setCtx_same]
  obtain ⟨r, q, m, hx⟩ := s.acting.trapped_eq cause eval s.acting.pc
  rw [hx] at ht
  refine ⟨by rw [ht], by rw [ht], by rw [ht], fun hl ha => ⟨t.becomes t.acting.returned, ?_, ?_⟩⟩
  · exact exec_eret_returns t (by rw [ht]; exact hl) (by rw [ht]) (by rw [ht]; exact ha)
  · have hq : (t.becomes t.acting.returned).acting = t.acting.returned := by
      simp only [State.acting, State.becomes, State.setCtx_me, State.ctx_setCtx_same]
    rw [hq, Context.returned_eq, ht]
    exact ⟨rfl, rfl⟩

/-- Settles O24: each is its outcome as it stands; ERET undoes the trap. -/
theorem nopTrapBrk : Obligations.NopTrapBrk := by
  unfold Obligations.NopTrapBrk
  exact fun s => ⟨rfl, rfl, rfl, fun cause _ hv hr => exec_eret_after_trap s cause 0 hv hr⟩

end Sys2Proof.Machine
end

section
/-! PROOFS. What docent instructions leave unchanged: all but their own registers (O14). -/

namespace Sys2Proof.Machine

/-! ### Instructions that change registers only (R111 to R117) -/

@[simp] theorem vset_vget {α : Type} {n : Nat} (v : Vector α n) (i : Fin n) : vset v i (vget v i) = v := by
  simp [vset, vget]

theorem State.setCore_core (s : State) (c : CoreId) : s.setCore c (s.core c) = s := by
  rw [State.setCore, State.core, vset_vget]

/-- A context set to what it is. -/
@[simp] theorem State.setCtx_ctx (s : State) (u : CtxRef) : s.setCtx u (s.ctx u) = s := by
  rw [State.setCtx, State.ctx, vset_vget]
  exact s.setCore_core u.core

/-- What a register-only instruction may make of a context: another destination register, staging set, class and program
counter. -/
def Context.Frame (dest : Option XReg) (x y : Context) : Prop :=
  (∀ r, some r ≠ dest → y.getX r = x.getX r) ∧
    y = { x with x := y.x, pc := y.pc, staging := y.staging, pclass := y.pclass, pused := y.pused }

theorem Context.Frame.refl (dest : Option XReg) (x : Context) : x.Frame dest x := ⟨fun _ _ => rfl, rfl⟩

/-- Going on at another word is within the frame. -/
theorem Context.Frame.moves {dest : Option XReg} {x y : Context} (h : x.Frame dest y) (pc : Word) :
    x.Frame dest { y with pc := pc } := by
  obtain ⟨hx, hy⟩ := h
  exact ⟨hx, by rw [hy]⟩

theorem Context.frame_setX (x : Context) (d : XReg) (v : Word) : x.Frame (some d) (x.setX d v) := by
  refine ⟨fun r hr => x.getX_setX_other d r v fun e => hr (congrArg some e.symm), ?_⟩
  obtain ⟨y, hy⟩ := x.setX_eq d v
  rw [hy]

/-- An instruction that names only X registers acts within its frame. -/
theorem State.plain_frame {s t : State} {i : Issue} {regs : List XReg} {f : Context → Context} {dest : Option XReg}
    (h : s.plain i regs f = .next t) (hf : s.acting.Frame dest (f s.acting)) :
    ∃ x, t = s.becomes x ∧ s.acting.Frame dest x := by
  rcases s.plain_next t i regs f h with rfl | rfl
  · exact ⟨t.acting, (t.setCtx_ctx t.me).symm, .refl dest _⟩
  · exact ⟨_, rfl, hf.moves i.next⟩

/-- An instruction that writes one X register. -/
theorem State.setX_frame {s t : State} {i : Issue} {regs : List XReg} {d : XReg} {v : Context → Word}
    (h : s.plain i regs (fun x => x.setX d (v x)) = .next t) : ∃ x, t = s.becomes x ∧ s.acting.Frame (some d) x :=
  State.plain_frame h (s.acting.frame_setX d _)

theorem exec_registerOnly {i : Instr} {s t : State} (hi : i.registerOnly = true) (h : exec i s = .next t) :
    ∃ x, t = s.becomes x ∧ s.acting.Frame i.destination x := by
  cases i with
  | add d a b | sub d a b | mul d a b | mulh d a b | mulhn d a b | div d a b | divn d a b | rem d a b | remn d a b
  | and d a b | or d a b | xor d a b | andn d a b | shl d a b | shr d a b | sra d a b | rotl d a b | min d a b
  | max d a b | minn d a b | maxn d a b | slt d a b | sltn d a b | seq d a b | sel d c a b | clz d a | ctz d a | popc d a
  | addi d a v | andi d a v | ori d a v | xori d a v | shli d a v | shri d a v | srai d a v | slti d a v | lil d v
  | lih d v | exts d a p w | extz d a p w | insf d a p w | tcoord d | getb d n | readc d n | grank d g | gsize d g
  | qstat d n => exact State.setX_frame (d := d) h
  | tset w a | tseti w v | treg n a b | tclr => exact State.plain_frame h ⟨fun _ _ => rfl, rfl⟩
  | nop => exact ⟨_, (Host.Outcome.next.inj h).symm, (Context.Frame.refl none _).moves _⟩
  | prio c => exact ⟨_, (Host.Outcome.next.inj h).symm, fun _ _ => rfl, rfl⟩
  | _ => cases hi

/-- Settles O14: each form changes its context within the frame. -/
theorem registerFrame : Obligations.RegisterFrame := by
  unfold Obligations.RegisterFrame
  exact fun i s t => exec_registerOnly

end Sys2Proof.Machine
end

section
/-! PROOFS. How loads, stores and tile accesses issue (R118, R121, R122, R130): one rule for each way in which they can go
on, and that none of them changes a memory. -/

namespace Sys2Proof.Machine

/-! ### Loads and atomics with return (R118, R121, R135) -/

/-- The fence of an access's scope, which comes first (R135). -/
def State.scopeFence (s : State) (sc : Scope) : State × Bool := if sc = .core then (s, true) else s.fenceStep s.me sc

/-- An access that writes another device marks it as written (R139). -/
def State.marksWritten (s : State) (u : CtxRef) (va : Word) (writes : Bool) : State :=
  match s.target va with
  | .remote dev => if writes then s.wrote u dev else s
  | _ => s

/-- A context's load or atomic with return becomes outstanding, and is due at its home (R121). -/
def State.sendLoad (s : State) (u : CtxRef) (next : Word) (d : XReg) (va : Context → Word) (z : Size) (nat : Bool)
    (op : Context → LoadOp) (sc : Scope) : State :=
  let x := s.ctx u
  (s.setCtx u { x with
    load := some ⟨d, va x, z, nat, op x, x.seq, x.level, sc, x.stores.length, false⟩
    seq := x.seq + 1
    pc := next }).event (.homeAccess (.load u x.seq))

/-- A store or AMOI joins its context's queue (R122). -/
def State.queueStore (s : State) (u : CtxRef) (next : Word) (va data : Context → Word) (z : Size) (amo : Option AmoOp)
    (loc : Bool) (sc : Scope) : State :=
  let x := s.ctx u
  let w : StoreReq := ⟨va x, z, data x, amo, loc, sc, x.level, x.task, x.gen, none, false, none⟩
  (s.setCtx u { x with stores := x.stores ++ [w], pc := next }).once (.event (.storePerformed u) .none)

section
variable {s : State} {i : Issue} {d : XReg} {regs : List XReg} {va data : Context → Word} {z : Size} {nat loc : Bool}
  {op : Context → LoadOp} {amo : Option AmoOp} {acc : Accepts} {sc : Scope}

theorem State.loadIssue_stalled (h : (s.acting.stalls regs true || s.fenced s.me) = true) :
    s.loadIssue i d regs va z nat op acc sc = .next s := if_pos h

theorem State.storeIssue_stalled
    (h : (s.acting.stalls regs false || s.fenced s.me || decide (16 ≤ s.acting.stores.length)) = true) :
    s.storeIssue i regs va data z amo loc acc sc = .next s := if_pos h

section
variable (h : (s.acting.stalls regs true || s.fenced s.me) = false)
include h

theorem State.loadIssue_traps {c : BitVec 8}
    (hc : s.accessFault s.me acc (va s.acting) z.bytes (op s.acting != .load) = some c) :
    s.loadIssue i d regs va z nat op acc sc = .next (s.trap i c (va s.acting)) := by
  refine (if_neg (Bool.not_eq_true _ ▸ h)).trans ?_
  rw [hc]

variable (hc : s.accessFault s.me acc (va s.acting) z.bytes (op s.acting != .load) = none)
include hc

theorem State.loadIssue_fences (hf : (s.scopeFence sc).2 = false) :
    s.loadIssue i d regs va z nat op acc sc = .next (s.scopeFence sc).1 := by
  refine (if_neg (Bool.not_eq_true _ ▸ h)).trans ?_
  rw [hc]
  exact if_pos (congrArg (!·) hf)

theorem State.loadIssue_issues (hf : (s.scopeFence sc).2 = true) : s.loadIssue i d regs va z nat op acc sc =
      let t := (s.scopeFence sc).1
      .next ((t.marksWritten s.me (va (t.ctx s.me)) (op s.acting != .load)).sendLoad s.me i.next d va z nat op sc) := by
  refine (if_neg (Bool.not_eq_true _ ▸ h)).trans ?_
  rw [hc]
  exact if_neg fun e => Bool.noConfusion (hf.symm.trans ((Bool.not_eq_true' _).mp e))

end

section
variable (h : (s.acting.stalls regs false || s.fenced s.me || decide (16 ≤ s.acting.stores.length)) = false)
include h

theorem State.storeIssue_traps {c : BitVec 8}
    (hc : s.accessFault s.me acc (va s.acting) z.bytes amo.isSome = some c) :
    s.storeIssue i regs va data z amo loc acc sc = .next (s.trap i c (va s.acting)) := by
  refine (if_neg (Bool.not_eq_true _ ▸ h)).trans ?_
  rw [hc]

variable (hc : s.accessFault s.me acc (va s.acting) z.bytes amo.isSome = none)
include hc

theorem State.storeIssue_fences (hf : (s.scopeFence sc).2 = false) :
    s.storeIssue i regs va data z amo loc acc sc = .next (s.scopeFence sc).1 := by
  refine (if_neg (Bool.not_eq_true _ ▸ h)).trans ?_
  rw [hc]
  exact if_pos (congrArg (!·) hf)

theorem State.storeIssue_queues (hf : (s.scopeFence sc).2 = true) : s.storeIssue i regs va data z amo loc acc sc
    = .next (((s.scopeFence sc).1.marksWritten s.me (va s.acting) true).queueStore s.me i.next va data z amo loc sc) := by
  refine (if_neg (Bool.not_eq_true _ ▸ h)).trans ?_
  rw [hc]
  refine (if_neg fun e => Bool.noConfusion (hf.symm.trans ((Bool.not_eq_true' _).mp e))).trans ?_
  unfold State.marksWritten
  rfl

end
end

/-! ### LDT and STT (R130) -/

section
variable {s : State} {d a b : XReg} {z : Size} {nat : Bool}

/-- What holds an LDT back: an outstanding load, an unfinished fence, or a queued AMOI of this device (R121, R135, R310). -/
def State.ldtWaits (s : State) (d a b : XReg) : Bool :=
  s.acting.stalls [d, a, b] true || s.fenced s.me || s.amoiQueued s.me 0

/-- What holds an STT back: the earlier accesses of its context to this device (R310, R312). -/
def State.sttWaits (s : State) (d a b : XReg) : Bool :=
  s.acting.stalls [d, a, b] false || s.fenced s.me || s.acting.stores.any (fun w => s.side w.addr == 0)
    || s.heldByLoad s.me 0 s.acting.stores.length

/-- The row that an LDT or STT of the acting context reaches (R130). -/
def State.actingRow (s : State) (write : Bool) (row col : Word) (z : Size) : Option Nat :=
  (s.entry s.me.core s.acting.task).tileRow write row.toNat col.toNat z.bytes

theorem execLdt_stalled (h : s.ldtWaits d a b = true) : execLdt d a b z nat s = .next s := if_pos h

theorem execStt_stalled (h : s.sttWaits d a b = true) : execStt d a b z s = .next s := if_pos h

section
variable (h : s.ldtWaits d a b = false)
include h

theorem execLdt_traps {c : BitVec 8} (hc : s.tileFault (s.acting.getX a) (s.acting.getX b) z = some c) :
    execLdt d a b z nat s = .next (s.traps c (tileEval (s.acting.getX a) (s.acting.getX b))) := by
  refine (if_neg (Bool.not_eq_true _ ▸ h)).trans ?_
  rw [hc]
  rfl

variable (hc : s.tileFault (s.acting.getX a) (s.acting.getX b) z = none)
include hc

theorem execLdt_suppressed (hr : s.actingRow false (s.acting.getX a) (s.acting.getX b) z = none) :
    execLdt d a b z nat s
      = .next (s.retire s.acting.issue fun x => { x.setX d 0 with suppressed := true }) := by
  refine (if_neg (Bool.not_eq_true _ ▸ h)).trans ?_
  rw [hc]
  unfold State.actingRow at hr
  rw [hr]

variable {r : Nat} (hr : s.actingRow false (s.acting.getX a) (s.acting.getX b) z = some r)
include hr

/-- The read itself. It becomes a variable, for the kernel would evaluate it in comparing the two sides. -/
theorem execLdt_row {t : State} {g : Got (List Byte)} :
    s.readKey (tileKey s.me.core r (s.acting.getX b).toNat) z.bytes = (t, g) → execLdt d a b z nat s
      = match g with
        | .ok l => .next (t.retire s.acting.issue fun x => x.setX d (extend z nat (ofBytes l)))
        | _ => .next (t.trap s.acting.issue 0x0B (tileEval (s.acting.getX a) (s.acting.getX b))) := by
  intro hk
  refine (if_neg (Bool.not_eq_true _ ▸ h)).trans ?_
  rw [hc]
  unfold State.actingRow at hr
  rw [hr]
  obtain ⟨read, hread⟩ : ∃ f, s.readKey = f := ⟨_, rfl⟩
  rw [hread] at hk ⊢
  dsimp only
  rw [hk]
  cases g <;> rfl

end

section
variable (h : s.sttWaits d a b = false)
include h

theorem execStt_traps {c : BitVec 8} (hc : s.tileFault (s.acting.getX a) (s.acting.getX b) z = some c) :
    execStt d a b z s = .next (s.traps c (tileEval (s.acting.getX a) (s.acting.getX b))) := by
  refine (if_neg (Bool.not_eq_true _ ▸ h)).trans ?_
  rw [hc]
  rfl

variable (hc : s.tileFault (s.acting.getX a) (s.acting.getX b) z = none)
include hc

theorem execStt_suppressed (hr : s.actingRow true (s.acting.getX a) (s.acting.getX b) z = none) :
    execStt d a b z s = .next (s.retire s.acting.issue fun x => { x with suppressed := true }) := by
  refine (if_neg (Bool.not_eq_true _ ▸ h)).trans ?_
  rw [hc]
  unfold State.actingRow at hr
  rw [hr]

variable {r : Nat} (hr : s.actingRow true (s.acting.getX a) (s.acting.getX b) z = some r)
include hr

theorem execStt_row {t : State} {ok : Bool} :
    s.verify (tileKey s.me.core r (s.acting.getX b).toNat / 64) = (t, ok) → execStt d a b z s =
      if ok then .next ((t.storeBy (dieOf s.me.core) (tileKey s.me.core r (s.acting.getX b).toNat)
        (bytesOf z.bytes (s.acting.getX d).toNat) false).retire s.acting.issue id)
      else .next (t.trap s.acting.issue 0x0B (tileEval (s.acting.getX a) (s.acting.getX b))) := by
  intro hv
  refine (if_neg (Bool.not_eq_true _ ▸ h)).trans ?_
  rw [hc]
  unfold State.actingRow at hr
  rw [hr]
  obtain ⟨verify, hverify⟩ : ∃ f, s.verify = f := ⟨_, rfl⟩
  rw [hverify] at hv ⊢
  dsimp only
  rw [hv]

end
end

end Sys2Proof.Machine
end

section
/-! PROOFS. Docent instructions that issue, compute or transfer control store nothing (O15, R118, R122). -/

namespace Sys2Proof.Machine

/-! ### Fences (R135, R138, R139) -/

theorem State.fenceDone_keeps (s : State) (u : CtxRef) (sc : Scope) : s.Keeps (s.fenceDone u sc) := by
  unfold State.fenceDone
  split
  · exact .same rfl rfl
  · exact .refl s

theorem State.sendMarkers_keeps (s : State) (u : CtxRef) (dev : DevNum) : s.Keeps (s.sendMarkers u dev) := by
  unfold State.sendMarkers
  refine State.Keeps.foldl _ (fun _ _ => ?_) _ _
  exact .same rfl rfl

theorem State.markersSent_keeps (s : State) (u : CtxRef) (l : List DevNum) :
    s.Keeps (l.foldl (fun s d => s.sendMarkers u d) s) :=
  State.Keeps.foldl _ (fun s d => s.sendMarkers_keeps u d) l s

theorem State.fenceStep_keeps (s : State) (u : CtxRef) (sc : Scope) : s.Keeps (s.fenceStep u sc).1 := by
  unfold State.fenceStep
  dsimp only
  refine .ite (.refl s) (.ite (.ite ?_ (.refl s)) (.ite ?_ (s.fenceDone_keeps u sc)))
  · exact (State.Keeps.same rfl rfl : s.Keeps (s.setCtx u _)).trans (State.fenceDone_keeps _ _ _)
  · exact (State.Keeps.same rfl rfl : s.Keeps (s.setCtx u _)).trans (State.markersSent_keeps _ _ _)

theorem State.scopeFence_keeps (s : State) (sc : Scope) : s.Keeps (s.scopeFence sc).1 :=
  .ite (.refl s) (s.fenceStep_keeps s.me sc)

theorem State.wrote_keeps (s : State) (u : CtxRef) (dev : DevNum) : s.Keeps (s.wrote u dev) := by
  unfold State.wrote
  dsimp only
  split <;> split <;> exact .same rfl rfl

theorem State.marksWritten_keeps (s : State) (u : CtxRef) (va : Word) (w : Bool) : s.Keeps (s.marksWritten u va w) := by
  unfold State.marksWritten
  split
  · split
    · exact s.wrote_keeps u _
    · exact .refl s
  · exact .refl s

theorem State.sendLoad_keeps (s : State) (u : CtxRef) (next : Word) (d : XReg) (va : Context → Word) (z : Size)
    (nat : Bool) (op : Context → LoadOp) (sc : Scope) : s.Keeps (s.sendLoad u next d va z nat op sc) :=
  .same rfl rfl

theorem State.queueStore_keeps (s : State) (u : CtxRef) (next : Word) (va data : Context → Word) (z : Size)
    (amo : Option AmoOp) (loc : Bool) (sc : Scope) : s.Keeps (s.queueStore u next va data z amo loc sc) :=
  (State.Keeps.same rfl rfl : s.Keeps (s.setCtx u _)).trans (State.once_keeps _ _)

/-! ### Where an instruction goes on -/

/-- Where an instruction goes on, the memories are kept. -/
def State.RunKeeps (s : State) (o : Host.Outcome State Fault Refusal) : Prop := ∀ t, o = .next t → s.Keeps t

namespace State.RunKeeps
variable {s t : State} {o r : Host.Outcome State Fault Refusal}

theorem next (h : s.Keeps t) : s.RunKeeps (.next t) := by
  rintro _ ⟨⟩
  exact h

theorem ite {p : Prop} [Decidable p] (h : s.RunKeeps o) (k : s.RunKeeps r) : s.RunKeeps (if p then o else r) := by
  split
  · exact h
  · exact k

theorem stall : s.RunKeeps (.next s) := .next (.refl s)

theorem retire (h : s.Keeps t) (i : Issue) (f : Context → Context) : s.RunKeeps (.next (t.retire i f)) :=
  .next (h.also rfl rfl)

theorem trap (h : s.Keeps t) (i : Issue) (cause : BitVec 8) (eval : Word) : s.RunKeeps (.next (t.trap i cause eval)) :=
  .next (h.trans (t.trap_keeps i cause eval))

end State.RunKeeps

/-! ### The shared forms: branches, loads and stores -/

section
variable (s : State) (i : Issue)

theorem State.branch_keeps (regs : List XReg) (taken : Context → Bool) (target : Context → Word) (link : Bool) :
    s.RunKeeps (s.branch i regs taken target link) :=
  .ite .stall (.ite (.retire (.refl s) i id) (.ite (.trap (.refl s) i _ _) (.next (.same rfl rfl))))

theorem State.loadIssue_keeps (d : XReg) (regs : List XReg) (va : Context → Word) (z : Size) (nat : Bool)
    (op : Context → LoadOp) (acc : Accepts) (sc : Scope) : s.RunKeeps (s.loadIssue i d regs va z nat op acc sc) := by
  cases h : s.acting.stalls regs true || s.fenced s.me with
  | true => rw [State.loadIssue_stalled h]; exact .stall
  | false =>
    cases hc : s.accessFault s.me acc (va s.acting) z.bytes (op s.acting != .load) with
    | some c => rw [State.loadIssue_traps h hc]; exact .trap (.refl s) i _ _
    | none =>
      cases hf : (s.scopeFence sc).2 with
      | false => rw [State.loadIssue_fences h hc hf]; exact .next (s.scopeFence_keeps sc)
      | true =>
        rw [State.loadIssue_issues h hc hf]
        exact .next (((s.scopeFence_keeps sc).trans (State.marksWritten_keeps _ _ _ _)).trans (State.sendLoad_keeps ..))

theorem State.storeIssue_keeps (regs : List XReg) (va data : Context → Word) (z : Size) (amo : Option AmoOp)
    (loc : Bool) (acc : Accepts) (sc : Scope) : s.RunKeeps (s.storeIssue i regs va data z amo loc acc sc) := by
  cases h : s.acting.stalls regs false || s.fenced s.me || decide (16 ≤ s.acting.stores.length) with
  | true => rw [State.storeIssue_stalled h]; exact .stall
  | false =>
    cases hc : s.accessFault s.me acc (va s.acting) z.bytes amo.isSome with
    | some c => rw [State.storeIssue_traps h hc]; exact .trap (.refl s) i _ _
    | none =>
      cases hf : (s.scopeFence sc).2 with
      | false => rw [State.storeIssue_fences h hc hf]; exact .next (s.scopeFence_keeps sc)
      | true =>
        rw [State.storeIssue_queues h hc hf]
        exact .next (((s.scopeFence_keeps sc).trans (State.marksWritten_keeps _ _ _ _)).trans (State.queueStore_keeps ..))

theorem State.loadAt_keeps (d a : XReg) (imm : Word) (z : Size) (nat : Bool) : s.RunKeeps (s.loadAt i d a imm z nat) := by
  unfold State.loadAt State.load
  exact s.loadIssue_keeps _ _ _ _ _ _ _ _ _

theorem State.storeImm_keeps (a b : XReg) (imm : Word) (z : Size) : s.RunKeeps (s.storeImm i a b imm z) := by
  unfold State.storeImm
  exact s.storeIssue_keeps _ _ _ _ _ _ _ _ _

theorem State.branchIf_keeps (a b : XReg) (off : Word) (cond : Word → Word → Bool) :
    s.RunKeeps (s.branchIf i a b off cond) := by
  unfold State.branchIf
  exact s.branch_keeps _ _ _ _ _

theorem State.branchZ_keeps (a : XReg) (off : Word) (cond : Word → Bool) : s.RunKeeps (s.branchZ i a off cond) := by
  unfold State.branchZ
  exact s.branch_keeps _ _ _ _ _

end

/-! ### The other forms -/

section
variable (s : State)

theorem execLdt_keeps (d a b : XReg) (z : Size) (nat : Bool) : s.RunKeeps (execLdt d a b z nat s) := by
  cases h : s.ldtWaits d a b with
  | true => rw [execLdt_stalled h]; exact .stall
  | false =>
    cases hc : s.tileFault (s.acting.getX a) (s.acting.getX b) z with
    | some c => rw [execLdt_traps h hc]; exact .trap (.refl s) s.acting.issue _ _
    | none =>
      cases hr : s.actingRow false (s.acting.getX a) (s.acting.getX b) z with
      | none => rw [execLdt_suppressed h hc hr]; exact .retire (.refl s) _ _
      | some r =>
        have read := s.readKey_keeps (tileKey s.me.core r (s.acting.getX b).toNat) z.bytes
        obtain ⟨⟨t, g⟩, hk⟩ : ∃ v, s.readKey (tileKey s.me.core r (s.acting.getX b).toNat) z.bytes = v := ⟨_, rfl⟩
        rw [hk] at read
        rw [execLdt_row h hc hr hk]
        cases g with
        | ok l => exact .retire read _ _
        | wait | access | data => exact .trap read _ _ _

theorem execFence_keeps (sc : Scope) : s.RunKeeps (execFence sc s) :=
  .ite (.retire (s.fenceStep_keeps _ _) _ _) (.next (s.fenceStep_keeps _ _))

theorem execTfence_keeps (sc : Scope) : s.RunKeeps (execTfence sc s) :=
  .ite .stall (.ite (.trap (.refl s) _ _ _) (.ite .stall (.retire (.same rfl rfl) _ _)))

theorem execNotify_keeps (a b : XReg) : s.RunKeeps (execNotify a b s) := by
  have fence := s.fenceStep_keeps s.me .package
  unfold execNotify
  dsimp only
  refine .ite .stall ?_
  split
  · exact .trap (.refl s) _ _ _
  · exact .ite (.next fence) (.next ((fence.also rfl rfl).trans (State.once_keeps _ _)))

theorem execEret_keeps : s.RunKeeps (execEret s) :=
  .ite .stall (.ite (.trap (.refl s) _ _ _) (.ite (.trap (.refl s) _ _ _) (.next (.same rfl rfl))))

theorem execYield_keeps : s.RunKeeps (execYield s) :=
  .next ((State.Keeps.same rfl rfl : s.Keeps (s.setCtx s.me _)).trans (State.select_keeps _ _))

theorem execTime_keeps (d : XReg) : s.RunKeeps (execTime d s) := .ite .stall (.retire (.same rfl rfl) _ _)

theorem State.observe_keeps (r : BitVec 10) : s.Keeps (s.observe r) := by
  unfold State.observe
  split
  · exact .same rfl rfl
  · split
    · exact .same rfl rfl
    · exact .refl s

theorem execSysr_keeps (d : XReg) (r : BitVec 10) : s.RunKeeps (execSysr d r s) :=
  .ite .stall (.ite (.trap (.refl s) _ _ _) (.ite (.trap (.refl s) _ _ _) (.retire (s.observe_keeps r) _ _)))

theorem execSysw_keeps (d : XReg) (r : BitVec 10) : s.RunKeeps (execSysw d r s) := by
  refine .ite .stall (.ite (.trap (.refl s) _ _ _) (.ite (.trap (.refl s) _ _ _) (.ite (.trap (.refl s) _ _ _)
    (.retire ?_ _ _))))
  split
  · exact .same rfl rfl
  · exact .refl s

theorem execSetb_keeps (n : BNum) (a : XReg) : s.RunKeeps (execSetb n a s) :=
  .ite .stall (.retire (.same rfl rfl) _ _)

theorem execGnew_keeps (d : XReg) : s.RunKeeps (execGnew d s) := by
  refine .ite .stall ?_
  split
  · exact .retire (.same rfl rfl) _ _
  · exact .retire (.refl s) _ _

end

/-! ### Every such instruction -/

/-- A form changes registers only, or goes on in a way that keeps the memories. -/
theorem exec_storesNothing {i : Instr} (s : State) (hi : i.storesNothing = true) : s.RunKeeps (exec i s) := by
  rcases (Bool.or_eq_true _ _).mp hi with hr | hi
  · intro t h
    obtain ⟨x, rfl, -⟩ := exec_registerOnly hr h
    exact .same rfl rfl
  cases i with
  | b | bl | br | blr =>
    dsimp only [exec, execB, execBl, execBr, execBlr]
    exact s.branch_keeps _ _ _ _ _
  | beq | bne | blt | bge | bltn | bgen =>
    dsimp only [exec, execBeq, execBne, execBlt, execBge, execBltn, execBgen]
    exact s.branchIf_keeps _ _ _ _ _
  | bz | bnz =>
    dsimp only [exec, execBz, execBnz]
    exact s.branchZ_keeps _ _ _ _
  | ldB | ldBn | ldH | ldHn | ldW | ldWn | ldD =>
    dsimp only [exec, execLdB, execLdBn, execLdH, execLdHn, execLdW, execLdWn, execLdD]
    exact s.loadAt_keeps _ _ _ _ _ _
  | ldx | amo | cas | famo =>
    dsimp only [exec, execLdx, State.load, execAmo, execCas, execFamo]
    exact s.loadIssue_keeps _ _ _ _ _ _ _ _ _
  | stB | stH | stW | stD =>
    dsimp only [exec, execStB, execStH, execStW, execStD]
    exact s.storeImm_keeps _ _ _ _ _
  | stloc | stx | amoi =>
    dsimp only [exec, execStloc, execStx, execAmoi, State.storeLocal]
    exact s.storeIssue_keeps _ _ _ _ _ _ _ _ _
  | ldt d a b z n => exact execLdt_keeps s d a b z n
  | fence sc => exact execFence_keeps s sc
  | tfence sc => exact execTfence_keeps s sc
  | notify a b => exact execNotify_keeps s a b
  | trap | brk => exact .trap (.refl s) _ _ _
  | eret => exact execEret_keeps s
  | yield => exact execYield_keeps s
  | done => exact .next (s.endTask_keeps _ _)
  | time d => exact execTime_keeps s d
  | sysr d r => exact execSysr_keeps s d r
  | sysw d r => exact execSysw_keeps s d r
  | setb n a => exact execSetb_keeps s n a
  | gnew d => exact execGnew_keeps s d
  | _ => cases hi

/-- Settles O15: what keeps the memories keeps each byte. -/
theorem issueLeavesMemory : Obligations.IssueLeavesMemory := by
  unfold Obligations.IssueLeavesMemory
  exact fun i s t hi h a => (exec_storesNothing s hi t h).byte a

end Sys2Proof.Machine
end

section
/-! PROOFS. What the memory system does leaves the cores, and so the docents' contexts and tasks, as they are. -/

namespace Sys2Proof.Machine

/-- The cores, and the one in focus, are as before. -/
def State.SameCores (s t : State) : Prop := t.cores = s.cores ∧ t.focus = s.focus

namespace State.SameCores
variable {s t q : State}

theorem same (hc : t.cores = s.cores) (hf : t.focus = s.focus) : s.SameCores t := ⟨hc, hf⟩

theorem refl (s : State) : s.SameCores s := ⟨rfl, rfl⟩

theorem trans (h : s.SameCores t) (k : t.SameCores q) : s.SameCores q := ⟨k.1.trans h.1, k.2.trans h.2⟩

theorem also (h : s.SameCores t) (hc : q.cores = t.cores) (hf : q.focus = t.focus) : s.SameCores q :=
  h.trans (.same hc hf)

theorem ctx (h : s.SameCores t) (u : CtxRef) : t.ctx u = s.ctx u := by
  rw [State.ctx, State.core, h.1]
  rfl

theorem entry (h : s.SameCores t) (c : CoreId) (n : Handle) : t.entry c n = s.entry c n := by
  rw [State.entry, State.core, h.1]
  rfl

theorem me (h : s.SameCores t) : t.me = s.me := by
  rw [State.me, State.core, h.1, h.2]
  rfl

theorem foldl {α : Type} (f : State → α → State) (hf : ∀ (s : State) (a : α), s.SameCores (f s a)) (l : List α)
    (s : State) : s.SameCores (l.foldl f s) :=
  foldl_keeps s.SameCores f (fun t a h => h.trans (hf t a)) l s (.refl s)

end State.SameCores

section
variable (s : State)

/-! ### Lines (R36, R37) -/

theorem State.raiseSource_cores (p : PartNum) (n : Nat) : s.SameCores (s.raiseSource p n) := by
  unfold State.raiseSource
  dsimp only
  split <;> exact .same rfl rfl

theorem State.countFailure_cores (line : Nat) : s.SameCores (s.countFailure line) := by
  unfold State.countFailure
  split
  · exact .refl s
  · next d p _ =>
    unfold State.countCheck
    dsimp only
    split
    · exact (State.SameCores.same rfl rfl : s.SameCores (s.setPart p _)).trans (State.raiseSource_cores _ _ _)
    · exact .same rfl rfl

theorem State.verify_cores (line : Nat) : s.SameCores (s.verify line).1 := by
  unfold State.verify
  dsimp only
  split
  · exact .refl s
  · split
    · exact .same rfl rfl
    · exact (s.countFailure_cores line).also rfl rfl

theorem State.verifyAll_cores (keys : List Nat) : s.SameCores (s.verifyAll keys).1 := by
  refine foldl_keeps (fun acc : State × Bool => s.SameCores acc.1) _ (fun acc k h => ?_) keys (s, true) (.refl s)
  dsimp only
  split
  · exact h
  · exact h.trans (acc.1.verify_cores _)

theorem State.readKey_cores (k n : Nat) : s.SameCores (s.readKey k n).1 := by
  unfold State.readKey
  dsimp only
  split
  · exact .refl s
  · split <;> exact s.verify_cores _

/-! ### Reads and writes (R120, R309, R327, R330) -/

theorem State.readsByte_cores (d : DieNum) (k : Nat) : s.SameCores (s.readsByte d k) := by
  unfold State.readsByte
  split
  · split
    · exact .refl s
    · exact .same rfl rfl
  · exact .refl s

theorem State.readsFrom_cores (d : DieNum) (lo n : Nat) : s.SameCores (s.readsFrom d lo n) := by
  unfold State.readsFrom
  exact .foldl _ (fun s i => s.readsByte_cores d (lo + i)) _ s

theorem State.testWaits_cores (k n : Nat) : s.SameCores (s.testWaits k n) := by
  unfold State.testWaits
  refine foldl_keeps s.SameCores _ (fun t w h => h.trans (t.readsFrom_cores _ _ _)) _ _ ?_
  exact .same rfl rfl

theorem State.mergeKey_cores (k : Nat) (d : List Byte) (ref : Bool) : s.SameCores (s.mergeKey k d ref) := by
  unfold State.mergeKey
  dsimp only
  split <;> exact .same rfl rfl

theorem State.put_cores (p : Put) (k : Nat) (d : List Byte) : s.SameCores (s.put p k d) := by
  cases p with
  | merge ref => exact s.mergeKey_cores k d ref
  | plain =>
    refine (s.mergeKey_cores k d false).trans ?_
    unfold State.put State.plainKey
    dsimp only
    split <;> exact .same rfl rfl
  | line | reloc => exact .same rfl rfl

theorem State.performedAs_cores (m : Mark) (k n : Nat) : s.SameCores (s.performedAs m k n) :=
  (State.SameCores.same rfl rfl : s.SameCores (s.stampAs m k n false)).trans (State.testWaits_cores _ _ _)

theorem State.putWhere_cores (m : Mark) (k : Nat) (d : List Byte) (p : Put) (later : Nat → Bool) :
    s.SameCores (s.putWhere m k d p later) := by
  unfold State.putWhere
  dsimp only
  split
  · exact (s.put_cores p k d).trans (State.performedAs_cores _ _ _ _)
  · refine State.SameCores.trans (.foldl _ (fun s i => ?_) _ s) (State.testWaits_cores _ _ _)
    exact (s.put_cores _ _ _).also rfl rfl

theorem State.propagate_cores (m : Mark) (keys : List Nat) (d : List Byte) (p : Put) :
    s.SameCores (keys.foldl (fun s k => s.propagateAt m k d p) s) :=
  .foldl _ (fun s k => s.putWhere_cores m k d p _) keys s

theorem State.writeAs_cores (m : Mark) (keys : List Nat) (d : List Byte) (p : Put) :
    s.SameCores (s.writeAs m keys d p) := by
  unfold State.writeAs
  split
  · exact s.putWhere_cores _ _ _ _ _
  · exact s.propagate_cores m _ d p

theorem State.spread_cores (ag : Agent) (m : Mark) (ks : List Nat) (left : List DieNum) (va : Word) (d : List Byte)
    (p : Put) : s.SameCores (s.spread ag m ks left va d p) := by
  unfold State.spread
  split
  · exact s.writeAs_cores m ks d p
  · exact (s.propagate_cores m ks d p).also rfl rfl

theorem State.storeSpread_cores (ag : Agent) (m : Option Mark) (va : Word) (a : List Nat × List DieNum) (d : List Byte)
    (ref : Bool) : s.SameCores (s.storeSpread ag m va a d ref).1 := by
  unfold State.storeSpread
  split
  · exact .same rfl rfl
  · dsimp only
    split
    · exact (s.verifyAll_cores a.1).also rfl rfl
    · refine State.SameCores.trans ?_ (State.spread_cores _ _ _ _ _ _ _ _)
      split
      · exact s.verifyAll_cores a.1
      · exact (s.verifyAll_cores a.1).also rfl rfl

theorem State.storeOwn_cores (m : Mark) (who : Requester) (k : Nat) (d : List Byte) :
    s.SameCores (s.storeOwn m who k d).1 := by
  unfold State.storeOwn
  split
  · exact .same rfl rfl
  · dsimp only
    split
    · refine State.SameCores.trans ?_ (State.testWaits_cores _ _ _)
      exact ((s.verifyAll_cores [k]).trans (State.mergeKey_cores _ _ _ _)).also rfl rfl
    · exact s.verifyAll_cores [k]

end

end Sys2Proof.Machine
end

section
/-! PROOFS. Loads and stores issue (O16, O18: R118, R121, R122), and tile accesses (O20: R130). -/

namespace Sys2Proof.Machine

/-! ### Addresses (R118) -/

theorem indexed_eq (a b : Word) (sc : BitVec 2) : indexed a b sc = BitVec.ofNat 64 (a.toNat + b.toNat * 2 ^ sc.toNat) := by
  rw [indexed, BitVec.ofNat_add, BitVec.ofNat_mul, BitVec.ofNat_toNat, BitVec.ofNat_toNat, BitVec.setWidth_eq,
    BitVec.setWidth_eq]

/-! ### Loads (R118, R121, R123) -/

/-- A plain load waits for nothing but an outstanding load and a fence. -/
theorem State.load_issues (s : State) (i : Issue) (d : XReg) (regs : List XReg) (va : Context → Word) (z : Size)
    (nat : Bool) : s.IssuesLoad (s.load i d regs va z nat) i d (va s.acting) z nat := by
  refine ⟨fun h => State.loadIssue_stalled ?_, fun hl hf => ?_⟩
  · simpa [Context.stalls_listed] using h
  · have goes : (s.acting.stalls (d :: regs) true || s.fenced s.me) = false := by simp [Context.stalls_none, hl, hf]
    refine ⟨fun c hc => State.loadIssue_traps goes hc, fun hc => (State.loadIssue_issues goes hc rfl).trans ?_⟩
    have core : (s.scopeFence .core).1 = s := rfl
    have plain : s.marksWritten s.me (va s.acting) false = s := by
      unfold State.marksWritten
      split <;> rfl
    simp only [core, bne_self_eq_false, plain]
    rfl

theorem exec_loadTable (s : State) (d a : XReg) (imm : BitVec 16) : ∀ r ∈ loadTable,
    exec (r.1 d a imm) s = s.loadAt s.acting.issue d a (signedImm imm) r.2.1 r.2.2 := by
  simp only [loadTable, List.forall_mem_cons, List.not_mem_nil, false_imp_iff, implies_true, and_true]
  exact ⟨rfl, rfl, rfl, rfl, rfl, rfl, rfl⟩

/-- Settles O16: LD and LDX are plain loads of their address. -/
theorem loadsIssue : Obligations.LoadsIssue := by
  unfold Obligations.LoadsIssue
  refine ⟨fun r hr s d a imm => ?_, fun s d a b z nat sc => ?_⟩
  · rw [exec_loadTable s d a imm r hr, ← add_signedImm]
    exact s.loadAt_issues s.acting.issue d a (signedImm imm) r.2.1 r.2.2
  · rw [← indexed_eq]
    exact s.load_issues s.acting.issue d [a, b] (fun x => indexed (x.getX a) (x.getX b) sc) z nat

/-! ### Stores (R118, R122, R129) -/

theorem exec_storeTable (s : State) (a b : XReg) (imm : BitVec 16) : ∀ r ∈ storeTable,
    exec (r.1 a b imm) s = s.storeImm s.acting.issue a b (signedImm imm) r.2 := by
  simp only [storeTable, List.forall_mem_cons, List.not_mem_nil, false_imp_iff, implies_true, and_true]
  exact ⟨rfl, rfl, rfl, rfl⟩

/-- Settles O18: ST, STLOC and STX are stores of a register at their address. -/
theorem storesIssue : Obligations.StoresIssue := by
  unfold Obligations.StoresIssue
  refine ⟨fun r hr s a b imm => ?_, fun s a b imm => ?_, fun s d a b z sc => ?_⟩
  · rw [exec_storeTable s a b imm r hr, ← add_signedImm]
    exact s.storeIssue_issues s.acting.issue [a, b] (fun x => x.getX a + signedImm imm) (fun x => x.getX b) r.2 false
      (fun _ _ => rfl) fun _ _ => rfl
  · rw [← add_signedImm]
    exact s.storeIssue_issues s.acting.issue [a, b] (fun x => x.getX a + signedImm imm) (fun x => x.getX b) .d true
      (fun _ _ => rfl) fun _ _ => rfl
  · rw [← indexed_eq]
    exact s.storeIssue_issues s.acting.issue [d, a, b] (fun x => indexed (x.getX a) (x.getX b) sc) (fun x => x.getX d) z
      false (fun _ _ => rfl) fun _ _ => rfl

/-! ### Loaded values (R45, R118) -/

/-- A number of `w` bits, read by sign. -/
theorem signExtend_ofNat {w : Nat} (hw : 0 < w) (v : Nat) : (BitVec.ofNat w v).signExtend 64 =
    if v % 2 ^ w < 2 ^ (w - 1) then BitVec.ofNat 64 (v % 2 ^ w)
    else BitVec.ofInt 64 ((v % 2 ^ w : Nat) - (2 ^ w : Nat)) := by
  have half : 2 ^ w = 2 * 2 ^ (w - 1) := by rw [← Nat.pow_succ', Nat.succ_eq_add_one, Nat.sub_add_cancel hw]
  have small : 2 * (v % 2 ^ w) < 2 ^ w ↔ v % 2 ^ w < 2 ^ (w - 1) := by omega
  rw [BitVec.signExtend, BitVec.toInt_eq_toNat_cond, BitVec.toNat_ofNat]
  simp only [small]
  split
  · exact BitVec.ofInt_natCast ..
  · rfl

theorem extend_eq (z : Size) (nat : Bool) (v : Nat) : extend z nat v =
    if nat then BitVec.ofNat 64 (v % 2 ^ (8 * z.bytes)) else (BitVec.ofNat (8 * z.bytes) v).signExtend 64 := by
  cases z with
  | b | h | w => rfl
  | d =>
    cases nat with
    | true => exact BitVec.eq_of_toNat_eq (Nat.mod_mod ..).symm
    | false => exact (BitVec.signExtend_eq _).symm

theorem bits_pos (z : Size) : 0 < 8 * z.bytes := by
  cases z <;> decide

theorem extend_eq_loadedValue (z : Size) (nat : Bool) (v : Nat) : extend z nat v = loadedValue z nat v := by
  rw [extend_eq, loadedValue, signExtend_ofNat (bits_pos z)]
  cases nat with
  | true => simp
  | false => simp

/-! ### Tile-store access (R130) -/

section
variable (s : State) (row col : Word) (z : Size)

theorem State.tileFault_outside (h : 3071 < row.toNat ∨ 2048 < col.toNat + z.bytes) :
    s.tileFault row col z = some 0x05 := if_pos h

theorem State.tileFault_misaligned (hr : row.toNat ≤ 3071) (hc : col.toNat + z.bytes ≤ 2048)
    (h : col.toNat % z.bytes ≠ 0) : s.tileFault row col z = some 0x04 :=
  (if_neg (by omega)).trans (if_pos h)

theorem State.tileFault_aligned (hr : row.toNat ≤ 3071) (hc : col.toNat + z.bytes ≤ 2048)
    (h : col.toNat % z.bytes = 0) : s.tileFault row col z
      = if s.annexRow (s.partOf s.focus) ≤ row.toNat then some 0x05 else none :=
  (if_neg (by omega)).trans (if_neg (not_not.2 h))

theorem State.tileFault_none_iff : s.tileFault row col z = none ↔ row.toNat ≤ 3071 ∧ col.toNat + z.bytes ≤ 2048 ∧
    col.toNat % z.bytes = 0 ∧ row.toNat < s.annexRow (s.partOf s.focus) := by
  by_cases inside : row.toNat ≤ 3071 ∧ col.toNat + z.bytes ≤ 2048
  · obtain ⟨hr, hc⟩ := inside
    by_cases h : col.toNat % z.bytes = 0
    · rw [s.tileFault_aligned row col z hr hc h]
      simp [hr, hc, h]
    · rw [s.tileFault_misaligned row col z hr hc h]
      simp [h]
  · rw [s.tileFault_outside row col z (by omega)]
    simp only [reduceCtorEq, false_iff]
    omega

end

section
variable {s : State} {d a b : XReg}

theorem State.not_ldtWaits (hl : s.acting.load = none) (hf : s.fenced s.me = false) (hq : s.amoiQueued s.me 0 = false) :
    s.ldtWaits d a b = false := by
  simp [State.ldtWaits, Context.stalls_none, hl, hf, hq]

theorem State.not_sttWaits (ha : ¬ s.acting.Awaits [d, a, b]) (hf : s.fenced s.me = false)
    (hs : ∀ w ∈ s.acting.stores, s.side w.addr ≠ 0) (hh : s.heldByLoad s.me 0 s.acting.stores.length = false) :
    s.sttWaits d a b = false := by
  have apart : (s.acting.stores.any fun w => s.side w.addr == 0) = false := by simpa using hs
  simp [State.sttWaits, Context.stalls_of_not_awaits ha, hf, apart, hh]

end

/-- Settles O20: the rules of LDT and STT, for the reads and writes that R130 lists. -/
theorem tileAccess : Obligations.TileAccess := by
  unfold Obligations.TileAccess
  refine ⟨?_, ?_, State.tileFault_none_iff, ?_, ?_⟩
  · intro s d a b z nat hl hf hq hc e row
    have go : s.ldtWaits d a b = false := State.not_ldtWaits hl hf hq
    refine ⟨fun hr => execLdt_suppressed go hc hr, fun r v l hr hk => ?_⟩
    rw [← extend_eq_loadedValue]
    exact execLdt_row go hc hr hk
  · intro s d a b z ha hf hs hh hc e row
    have go : s.sttWaits d a b = false := State.not_sttWaits ha hf hs hh
    refine ⟨fun hr => execStt_suppressed go hc hr, fun r hr => ?_⟩
    intro k hv
    have verified : s.verify (k / 64) = ((s.verify (k / 64)).1, true) := Prod.ext rfl hv
    exact execStt_row go hc hr verified
  · exact fun s row col z => ⟨s.tileFault_outside row col z, fun hr hc => ⟨s.tileFault_misaligned row col z hr hc,
      fun h ha => (s.tileFault_aligned row col z hr hc h).trans (if_pos ha)⟩⟩
  · intro s d a b z row col eval e loads stores
    have ldt (h : loads) : s.ldtWaits d a b = false := State.not_ldtWaits h.1 h.2.1 h.2.2
    have stt (h : stores) : s.sttWaits d a b = false := State.not_sttWaits h.1 h.2.1 h.2.2.1 h.2.2.2
    refine ⟨fun c hc => ⟨fun h nat => execLdt_traps (ldt h) hc, fun h => execStt_traps (stt h) hc⟩, fun hc r => ⟨?_, ?_⟩⟩
    · intro v g h hr hk hg nat
      have hv : v.me = s.me := (congrArg (·.1.me) hk).symm.trans (s.readKey_cores _ _).me
      refine (execLdt_row (ldt h) hc hr hk).trans ?_
      rw [← hv]
      cases g with
      | ok l => exact absurd rfl (hg l)
      | wait | access | data => rfl
    · intro v h hr hk
      have hv : v.me = s.me := (congrArg (·.1.me) hk).symm.trans (s.verify_cores _).me
      rw [← hv]
      exact execStt_row (stt h) hc hr hk

end Sys2Proof.Machine
end

section
/-! PROOFS. Fences, notices and their markers (O22: R127, R135, R138-R140, R144, R318, R353). -/

namespace Sys2Proof.Machine

/-! ### A fence's step (R127, R135, R138, R139) -/

/-- What a fence waits for before it can do anything: the context's load and stores, the fence after an earlier atomic, and
a fault on its way (R127, R135, R138). -/
def State.fenceHeld (s : State) (u : CtxRef) (sc : Scope) : Bool :=
  (s.ctx u).load.isSome || s.storesLeft u sc || (s.ctx u).trailing || s.faultDue u

section
variable {s : State} {u : CtxRef} {sc : Scope}

theorem State.fenceHeld_iff : s.fenceHeld u sc = true ↔
    (s.ctx u).load ≠ none ∨ s.storesLeft u sc = true ∨ (s.ctx u).trailing = true ∨ s.faultDue u = true := by
  simp [State.fenceHeld, Option.isSome_iff_ne_none, or_assoc]

theorem State.fenceHeld_of_clear (hl : (s.ctx u).load = none) (hs : s.storesLeft u sc = false)
    (ht : (s.ctx u).trailing = false) (hd : s.faultDue u = false) : s.fenceHeld u sc = false := by
  simp [State.fenceHeld, hl, hs, ht, hd]

theorem State.fenceStep_held (h : s.fenceHeld u sc = true) : s.fenceStep u sc = (s, false) := if_pos h

section
variable (h : s.fenceHeld u sc = false)
include h

theorem State.fenceStep_done (hf : sc = .fabric → (s.ctx u).fencing = false ∧ (s.ctx u).written = []) :
    s.fenceStep u sc = (s.fenceDone u sc, true) := by
  refine (if_neg (Bool.not_eq_true _ ▸ h)).trans ((if_neg ?_).trans (if_neg ?_))
  · rintro ⟨e, k⟩
    exact Bool.noConfusion (k.symm.trans (hf e).1)
  · rintro ⟨e, k⟩
    rw [(hf e).2] at k
    cases k

end

section
variable (h : s.fenceHeld u .fabric = false)
include h

theorem State.fenceStep_sends (hf : (s.ctx u).fencing = false) (hw : (s.ctx u).written ≠ []) : s.fenceStep u .fabric
    = ((s.ctx u).written.foldl (fun q d => q.sendMarkers u d)
        (s.setCtx u { s.ctx u with fencing := true, fseq := (s.ctx u).fseq + 1 }), false) := by
  refine (if_neg (Bool.not_eq_true _ ▸ h)).trans ((if_neg fun k => ?_).trans (if_pos ⟨rfl, ?_⟩))
  · exact Bool.noConfusion (k.2.symm.trans hf)
  · simpa using hw

theorem State.fenceStep_awaits (hf : (s.ctx u).fencing = true) (hm : (s.ctx u).markers ≠ []) :
    s.fenceStep u .fabric = (s, false) :=
  (if_neg (Bool.not_eq_true _ ▸ h)).trans ((if_pos ⟨rfl, hf⟩).trans (if_neg fun k => hm (List.isEmpty_iff.1 k)))

theorem State.fenceStep_answered (hf : (s.ctx u).fencing = true) (hm : (s.ctx u).markers = []) : s.fenceStep u .fabric
    = ((s.setCtx u { s.ctx u with fencing := false, written := [] }).fenceDone u .fabric, true) :=
  (if_neg (Bool.not_eq_true _ ▸ h)).trans ((if_pos ⟨rfl, hf⟩).trans (if_pos (List.isEmpty_iff.2 hm)))

end

theorem State.fenceDone_cores (s : State) (u : CtxRef) (sc : Scope) : s.SameCores (s.fenceDone u sc) := by
  unfold State.fenceDone
  split
  · exact .same rfl rfl
  · exact .refl s

end

/-! ### FENCE (R138, R139) -/

section
variable {s t : State} {sc : Scope}

theorem execFence_complete (h : s.fenceStep s.me sc = (t, true)) :
    exec (.fence sc) s = .next (t.retire s.acting.issue id) := by
  change (if (s.fenceStep s.me sc).2 then _ else _) = _
  rw [h]
  rfl

theorem execFence_waits (h : s.fenceStep s.me sc = (t, false)) : exec (.fence sc) s = .next t := by
  change (if (s.fenceStep s.me sc).2 then _ else _) = _
  rw [h]
  rfl

/-- A state whose acting context stands where it stood goes on. -/
theorem State.retire_onward (h : t.acting.pc = s.acting.pc) : t.retire s.acting.issue id = t.onward := by
  unfold State.onward
  rw [h]
  rfl

theorem State.SameCores.acting (h : s.SameCores t) : t.acting = s.acting := by
  rw [State.acting, h.me, h.ctx]

end

/-! ### Stores left (R138, R318) -/

section
variable {s : State} {u : CtxRef}

theorem State.storesLeft_nil (sc : Scope) (h : (s.ctx u).stores = []) : s.storesLeft u sc = false := by
  rw [State.storesLeft, h]

theorem State.storesLeft_two (sc : Scope) (h : 2 ≤ (s.ctx u).stores.length) : s.storesLeft u sc = true := by
  unfold State.storesLeft
  split
  · next e => simp [e] at h
  · next w e => simp [e] at h
  · rfl

theorem State.storesLeft_one (sc : Scope) {w : StoreReq} (h : (s.ctx u).stores = [w]) : s.storesLeft u sc
    = !(w.parted && !sc.wide && !s.partPending (s.partOf u.core) (dieOf u.core) (w.addr.toNat % 2 ^ 45 / 65536)) := by
  rw [State.storesLeft, h]

/-- Nothing of the store queue is passed over at a wide scope. -/
theorem State.storesLeft_wide {sc : Scope} (hw : sc.wide = true) (h : (s.ctx u).stores ≠ []) :
    s.storesLeft u sc = true := by
  unfold State.storesLeft
  split
  · next e => exact absurd e h
  · simp [hw]
  · rfl

end

/-! ### Markers (R345, R353) -/

/-- A sum of the powers of two that a choice admits has the bits that it admits. -/
theorem powersSum_testBit (n : Nat) (c : Fin n → Bool) :
    let a := (List.finRange n).foldl (fun a i => if c i then a + 2 ^ i.val else a) 0
    a < 2 ^ n ∧ ∀ p : Fin n, a.testBit p = c p := by
  induction n with
  | zero => exact ⟨by simp, fun p => p.elim0⟩
  | succ n ih =>
    obtain ⟨hlt, hbit⟩ := ih fun i => c i.castSucc
    simp only [List.finRange_succ_last, List.foldl_append, List.foldl_map, List.foldl_cons, List.foldl_nil,
      Fin.val_castSucc, Fin.val_last]
    generalize (List.finRange n).foldl (fun a i => if c i.castSucc then a + 2 ^ i.val else a) 0 = a at hlt hbit ⊢
    refine ⟨?_, Fin.lastCases ?_ fun p => ?_⟩
    · rw [Nat.pow_succ]
      split <;> omega
    · cases c (Fin.last n) with
      | true => simp [Nat.add_comm a, Nat.testBit_two_pow_add_eq, Nat.testBit_lt_two_pow hlt]
      | false => simpa using Nat.testBit_lt_two_pow hlt
    · split
      · rw [Nat.add_comm]
        exact (Nat.testBit_two_pow_add_gt p.isLt a).trans (hbit p)
      · exact hbit p

theorem State.planes_getLsbD (s : State) (dev : DevNum) (p : Plane) : (s.planes dev).getLsbD p.val = true ↔
    vget s.stations p = true ∧ ∃ m, (s.live.find? fun x => x.1 == dev) = some (dev, m) ∧ m.getLsbD p.val = true := by
  have bit (m : BitVec 16) := (powersSum_testBit 16 fun i => vget s.stations i && m.getLsbD i.val).2 p
  unfold State.planes
  rw [BitVec.getLsbD_ofNat, bit]
  cases h : s.live.find? fun x => x.1 == dev with
  | none => simp
  | some q =>
    obtain ⟨d, m⟩ := q
    have hd : d = dev := by simpa using List.find?_some h
    subst hd
    simp [p.isLt]

theorem mem_planeList (m : BitVec 16) (p : Plane) : p ∈ planeList m ↔ m.getLsbD p.val = true := by
  simp [planeList]

/-- A marker leaves on one plane. -/
def State.sendMarker (u : CtxRef) (dev : DevNum) (seq : BitVec 32) (w : Nat) (s : State) (p : Plane) : State :=
  let s := s.request dev p (.marker u dev p seq) fun q => .marker dev p q (s.partOf u.core) (BitVec.ofNat 64 w)
  let s := s.setCtx u { s.ctx u with markers := (s.ctx u).markers ++ [(dev, p)] }
  s.eventWith .fenceMarkerAnswer (.markerAnswer u dev p seq)

section
variable (u : CtxRef) (dev : DevNum) (seq : BitVec 32) (w : Nat)

theorem State.sendMarkers_eq (s : State) : s.sendMarkers u dev = (planeList (s.planes dev)).foldl
    (State.sendMarker u dev (s.ctx u).fseq (s.devId.toNat + 1024 * u.core.val + 2 ^ 18 * u.ctx.val
      + 2 ^ 21 * ((planeList (s.planes dev)).length % 16) + 2 ^ 32 * (s.ctx u).fseq.toNat)) s := rfl

theorem State.sendMarker_markers (s : State) (p : Plane) :
    ((s.sendMarker u dev seq w p).ctx u).markers = (s.ctx u).markers ++ [(dev, p)] :=
  congrArg Context.markers (State.ctx_setCtx_same _ u _)

/-- The markers of a list of planes, from the one whose request is the `n`th after `q`. -/
theorem State.markersSent (part : PartNum) (q : BitVec 32) (ps : List Plane) (n : Nat) (t : State)
    (hp : t.partOf u.core = part) (hq : t.reqSeq = q + BitVec.ofNat 32 n) :
    let r := ps.foldl (State.sendMarker u dev seq w) t
    (r.ctx u).markers = (t.ctx u).markers ++ ps.map (fun p => (dev, p)) ∧
      r.out = t.out ++ (ps.zipIdx n).map
        (fun x => .marker dev x.1 (q + BitVec.ofNat 32 x.2) part (BitVec.ofNat 64 w)) ∧
      r.requests = t.requests ++ (ps.zipIdx n).map
        (fun x => ⟨q + BitVec.ofNat 32 x.2, dev, x.1, .marker u dev x.1 seq⟩) ∧
      r.mem = t.mem := by
  induction ps generalizing n t with
  | nil => simp
  | cons p ps ih =>
    have hn : (t.sendMarker u dev seq w p).reqSeq = q + BitVec.ofNat 32 (n + 1) := by
      rw [BitVec.ofNat_add, ← BitVec.add_assoc, ← hq]
      rfl
    obtain ⟨hm, ho, hr, hmem⟩ := ih (n + 1) (t.sendMarker u dev seq w p) hp hn
    refine ⟨?_, ?_, ?_, hmem⟩
    · rw [List.foldl_cons, hm, State.sendMarker_markers, List.map_cons, List.append_assoc, List.singleton_append]
    · rw [List.foldl_cons, ho, List.zipIdx_cons, List.map_cons, ← hq, ← hp]
      exact List.append_assoc _ [_] _
    · rw [List.foldl_cons, hr, List.zipIdx_cons, List.map_cons, ← hq]
      exact List.append_assoc _ [_] _

end

/-! ### TFENCE and NOTIFY (R140, R144) -/

theorem execNotify_waits {s t : State} {a b : XReg} (hl : s.acting.load = none)
    (hc : s.accessFault s.me .own (s.acting.getX a) 8 false = none) (hf : s.fenceStep s.me .package = (t, false)) :
    exec (.notify a b) s = .next t := by
  refine (if_neg ?_).trans ?_
  · rw [Context.stalls_none _ _ _ hl]
    exact Bool.false_ne_true
  · rw [hc, hf]
    rfl

theorem execNotify_goes {s t : State} {a b : XReg} (hl : s.acting.load = none)
    (hc : s.accessFault s.me .own (s.acting.getX a) 8 false = none) (hf : s.fenceStep s.me .package = (t, true)) :
    exec (.notify a b) s = .next ((t.setCtx s.me { t.ctx s.me with
      stores := [⟨s.acting.getX a, .d, s.acting.getX b, none, false, .core, s.acting.level, s.acting.task, s.acting.gen,
        none, false, none⟩]
      pc := s.acting.pc + 4 }).once (.event (.storePerformed s.me) .none)) := by
  refine (if_neg ?_).trans ?_
  · rw [Context.stalls_none _ _ _ hl]
    exact Bool.false_ne_true
  · rw [hc, hf]
    rfl

/-- Settles O22: each clause is a case of the fence's step. -/
theorem fences : Obligations.Fences := by
  unfold Obligations.Fences
  refine ⟨?_, ?_, ?_, ?_, ?_, ?_⟩
  · intro s sc
    refine ⟨fun h => execFence_waits (State.fenceStep_held (State.fenceHeld_iff.2 h)), fun hl hs ht hd hf => ?_⟩
    rw [execFence_complete (State.fenceStep_done (State.fenceHeld_of_clear hl hs ht hd) hf)]
    exact congrArg _ (State.retire_onward (congrArg Context.pc (s.fenceDone_cores _ _).acting))
  · intro s hl hs ht hd
    have clear := State.fenceHeld_of_clear hl hs ht hd
    refine ⟨fun hf hw => execFence_waits (State.fenceStep_sends clear hf hw),
      fun hf hm => execFence_waits (State.fenceStep_awaits clear hf hm), fun hf hm => ?_⟩
    rw [execFence_complete (State.fenceStep_answered clear hf hm)]
    refine congrArg _ (State.retire_onward ?_)
    rw [(State.fenceDone_cores _ _ _).acting, State.acting, State.setCtx_me, State.ctx_setCtx_same]
  · intro s u dev t ps f w
    have sent := State.markersSent u dev f (s.devId.toNat + 1024 * u.core.val + 2 ^ 18 * u.ctx.val
      + 2 ^ 21 * (ps.length % 16) + 2 ^ 32 * f.toNat) (s.partOf u.core) s.reqSeq ps 0 s rfl (BitVec.add_zero _).symm
    exact ⟨fun p => (mem_planeList _ p).trans (s.planes_getLsbD dev p), sent⟩
  · intro s u sc
    refine ⟨State.storesLeft_nil sc, State.storesLeft_two sc, fun w hw => ⟨?_, fun hp hn => ?_⟩⟩
    · rintro (h | h) <;> simp [State.storesLeft_one sc hw, h]
    · simp [State.storesLeft_one sc hw, hp, hn]
  · intro s sc hl
    have open_ : ¬ s.acting.load.isSome = true := by simp [hl]
    have super (h : s.acting.level = .s) : s.acting.level ≠ .u := by simp [h]
    exact ⟨fun h => (if_neg open_).trans (if_pos h),
      fun h hs => (if_neg open_).trans ((if_neg (super h)).trans (if_pos hs)),
      fun h hs => (if_neg open_).trans ((if_neg (super h)).trans (if_neg (Bool.not_eq_true _ ▸ hs)))⟩
  · intro s a b hl hc
    refine ⟨fun h => execNotify_waits hl hc (State.fenceStep_held (State.fenceHeld_iff.2 (Or.inr ?_))),
      fun hs ht hd => ⟨_, rfl, ?_⟩⟩
    · exact h.imp_left (State.storesLeft_wide rfl)
    · have clear := State.fenceHeld_of_clear (u := s.me) (sc := .package) hl (State.storesLeft_nil _ hs) ht hd
      rw [execNotify_goes hl hc (State.fenceStep_done clear nofun), (s.fenceDone_cores _ _).ctx, State.becomes,
        (s.fenceDone_cores _ _).me]

end Sys2Proof.Machine
end

section
/-! PROOFS. Atomics: their issue, with the fence of a wider scope first, and what they write (O21: R121, R132-R135). -/

namespace Sys2Proof.Machine

/-! ### The fence before an access (R135) -/

theorem State.trailing_of_not_fenced {s : State} {u : CtxRef} (h : s.fenced u = false) : (s.ctx u).trailing = false := by
  simp only [State.fenced, Context.fenced, Bool.or_eq_false_iff] at h
  exact h.1.1.1

theorem State.scopeFence_wide (s : State) {sc : Scope} (h : sc ≠ .core) : s.scopeFence sc = s.fenceStep s.me sc :=
  if_neg h

/-- A context with nothing to wait for takes its place in fence order at once. -/
theorem State.scopeFence_done {s : State} {sc : Scope} (hl : s.acting.load = none) (hf : s.fenced s.me = false)
    (hs : sc ≠ .core → s.storesLeft s.me sc = false ∧ s.faultDue s.me = false)
    (hw : sc = .fabric → s.acting.fencing = false ∧ s.acting.written = []) :
    s.scopeFence sc = (if sc = .core then s else s.fenceDone s.me sc, true) := by
  by_cases h : sc = .core
  · rw [if_pos h]
    exact if_pos h
  · obtain ⟨hs, hd⟩ := hs h
    rw [if_neg h, s.scopeFence_wide h]
    exact State.fenceStep_done (State.fenceHeld_of_clear hl hs (State.trailing_of_not_fenced hf) hd) hw

theorem State.marksWritten_here {s : State} {va : Word} (h : ∀ dev, s.target va ≠ .remote dev) (u : CtxRef) (w : Bool) :
    s.marksWritten u va w = s := by
  unfold State.marksWritten
  split
  · next dev e => exact absurd e (h dev)
  · rfl

theorem State.fenceDone_target (s : State) (u : CtxRef) (sc : Scope) (va : Word) :
    (s.fenceDone u sc).target va = s.target va := by
  unfold State.fenceDone
  split <;> rfl

/-- The state in which an access goes on after its fence. -/
def State.fencedAt (s : State) (sc : Scope) : State := if sc = .core then s else s.fenceDone s.me sc

theorem State.fencedAt_cores (s : State) (sc : Scope) : s.SameCores (s.fencedAt sc) := by
  unfold State.fencedAt
  split
  · exact .refl s
  · exact s.fenceDone_cores _ _

theorem State.fencedAt_target (s : State) (sc : Scope) (va : Word) : (s.fencedAt sc).target va = s.target va := by
  unfold State.fencedAt
  split
  · rfl
  · exact s.fenceDone_target _ _ _

/-! ### The issue of an atomic (R121, R132, R135) -/

section
variable {s : State} {d : XReg} {regs : List XReg} {va data : Context → Word} {z : Size} {nat : Bool}
  {op : Context → LoadOp} {amo : Option AmoOp} {acc : Accepts} {sc : Scope} (hl : s.acting.load = none)
  (hf : s.fenced s.me = false)
include hl hf

theorem State.load_free : (s.acting.stalls regs true || s.fenced s.me) = false := by
  simp [Context.stalls_none, hl, hf]

theorem State.store_free (hq : s.acting.stores.length < 16) :
    (s.acting.stalls regs false || s.fenced s.me || decide (16 ≤ s.acting.stores.length)) = false := by
  simp [Context.stalls_none, hl, hf, hq]

/-- An atomic with return whose fence is not complete does what FENCE of its scope does. -/
theorem State.loadIssue_as_fence (hsc : sc ≠ .core) (hs : (s.fenceStep s.me sc).2 = false)
    (hc : s.accessFault s.me acc (va s.acting) z.bytes (op s.acting != .load) = none) :
    s.loadIssue s.acting.issue d regs va z nat op acc sc = exec (.fence sc) s := by
  rw [State.loadIssue_fences (State.load_free hl hf) hc ((congrArg Prod.snd (s.scopeFence_wide hsc)).trans hs),
    s.scopeFence_wide hsc]
  exact (execFence_waits (Prod.ext rfl hs)).symm

theorem State.storeIssue_as_fence (hq : s.acting.stores.length < 16) (hsc : sc ≠ .core)
    (hs : (s.fenceStep s.me sc).2 = false) (hc : s.accessFault s.me acc (va s.acting) z.bytes amo.isSome = none) :
    s.storeIssue s.acting.issue regs va data z amo false acc sc = exec (.fence sc) s := by
  rw [State.storeIssue_fences (State.store_free hl hf hq) hc ((congrArg Prod.snd (s.scopeFence_wide hsc)).trans hs),
    s.scopeFence_wide hsc]
  exact (execFence_waits (Prod.ext rfl hs)).symm

variable (hr : ∀ dev, s.target (va s.acting) ≠ .remote dev)
  (hs : sc ≠ .core → s.storesLeft s.me sc = false ∧ s.faultDue s.me = false)
  (hw : sc = .fabric → s.acting.fencing = false ∧ s.acting.written = [])
include hr hs hw

/-- An atomic with return of this device, after its fence, is outstanding. -/
theorem State.loadIssue_goes (hc : s.accessFault s.me acc (va s.acting) z.bytes (op s.acting != .load) = none) :
    s.loadIssue s.acting.issue d regs va z nat op acc sc = .next (((s.fencedAt sc).becomes { s.acting with
      load := some ⟨d, va s.acting, z, nat, op s.acting, s.acting.seq, s.acting.level, sc, s.acting.stores.length, false⟩
      seq := s.acting.seq + 1
      pc := s.acting.pc + 4 }).event (.homeAccess (.load s.me s.acting.seq))) := by
  have fence : s.scopeFence sc = (s.fencedAt sc, true) := State.scopeFence_done hl hf hs hw
  have same := s.fencedAt_cores sc
  rw [State.loadIssue_issues (State.load_free hl hf) hc (congrArg Prod.snd fence), fence]
  simp only [same.ctx]
  rw [State.marksWritten_here (by simpa only [s.fencedAt_target] using hr), State.becomes, same.me]
  simp only [State.sendLoad, same.ctx]
  rfl

/-- An AMOI of this device, after its fence, is queued. -/
theorem State.storeIssue_goes (hq : s.acting.stores.length < 16)
    (hc : s.accessFault s.me acc (va s.acting) z.bytes amo.isSome = none) :
    s.storeIssue s.acting.issue regs va data z amo false acc sc = .next (((s.fencedAt sc).becomes { s.acting with
      stores := s.acting.stores ++ [⟨va s.acting, z, data s.acting, amo, false, sc, s.acting.level, s.acting.task,
        s.acting.gen, none, false, none⟩]
      pc := s.acting.pc + 4 }).once (.event (.storePerformed s.me) .none)) := by
  have fence : s.scopeFence sc = (s.fencedAt sc, true) := State.scopeFence_done hl hf hs hw
  have same := s.fencedAt_cores sc
  rw [State.storeIssue_queues (State.store_free hl hf hq) hc (congrArg Prod.snd fence), fence]
  dsimp only
  rw [State.marksWritten_here (by simpa only [s.fencedAt_target] using hr), State.becomes, same.me]
  simp only [State.queueStore, same.ctx]
  rfl

end

/-! ### What atomics write (Table 4.6, R133) -/

theorem signed_min (w m v : Nat) :
    signed w (if signed w v < signed w m then v else m) = min (signed w m) (signed w v) := by
  split <;> omega

theorem signed_max (w m v : Nat) :
    signed w (if signed w m < signed w v then v else m) = max (signed w m) (signed w v) := by
  split <;> omega

section
variable (s : State) (d a b : XReg) (z : ASize) (sc : Scope)

theorem exec_amo (op : AmoOp) : exec (.amo d a b op z sc) s
    = s.loadIssue s.acting.issue d [d, a, b] (fun x => x.getX a) z.size op.natural (fun x => .amo op (x.getX b))
      .atomic sc := rfl

theorem exec_cas : exec (.cas d a b z sc) s
    = s.loadIssue s.acting.issue d [d, a, b] (fun x => x.getX a) z.size false (fun x => .cas (x.getX d) (x.getX b))
      .atomic sc := rfl

theorem exec_famo (op : FamoOp) (rm : Rm) (r : Bool) : exec (.famo d a b op rm z sc r) s
    = s.loadIssue s.acting.issue d [d, a, b] (fun x => x.getX a) z.size true (fun x => .famo op rm (x.getX b) r)
      .own sc := rfl

theorem exec_amoi (op : AmoOp) : exec (.amoi a b op z sc) s
    = s.storeIssue s.acting.issue [a, b] (fun x => x.getX a) (fun x => x.getX b) z.size (some op) false .atomic sc := rfl

end

/-! ### At the home (R121, R132, R310) -/

section
variable {s : State} {u : CtxRef} {l : PendingLoad}

theorem exec_homeAccess_load (h : (s.ctx u).load = some l) (hp : l.op ≠ .postr) (ho : l.open_ = true) :
    exec (.homeAccess (.load u l.seq)) s = .next (s.homeLoad u l) := by
  change execHomeAccess (.load u l.seq) s = _
  unfold execHomeAccess
  dsimp only
  rw [h]
  exact if_pos ⟨rfl, hp, ho⟩

/-- The agent of an outstanding load or atomic. -/
def State.loadAgent (s : State) (u : CtxRef) (l : PendingLoad) : Agent :=
  { s.docentAgent u (.load u l.seq) with sup := l.level == .s }

/-- The stores that precede an outstanding load or atomic in program order and are still queued. -/
def State.earlier (s : State) (u : CtxRef) (l : PendingLoad) : List StoreReq := (s.ctx u).stores.take l.before

/-- Those of them that its bytes meet. -/
def State.laidOver (s : State) (u : CtxRef) (l : PendingLoad) : List (StoreReq × Int) :=
  s.overlaps u l.addr l.size.bytes (s.earlier u l)

/-- What an access at its home waits for: an AMOI whose bytes it meets, and an AMOI of its side, or for an atomic any store
of it (R310, R320). -/
def State.homeHeld (s : State) (u : CtxRef) (l : PendingLoad) : Bool :=
  ((s.laidOver u l).any fun w => w.1.amo.isSome)
    || (s.earlier u l).any fun w => (l.op != .load || w.amo.isSome) && s.side w.addr == s.side l.addr

/- The reads stay variables in the proofs below, and `split` is not used: the kernel would evaluate them in comparing two
forms of `homeLoad`. -/
variable (h : s.homeHeld u l = false) (hr : ∀ dev, s.target l.addr ≠ .remote dev)
include h hr

theorem State.homeLoad_rmw {t : State} {old : Nat} (hop : l.op ≠ .load) :
    s.rmw (s.loadAgent u l) l.addr l.size.bytes (fun s old => s.atomicValue u l.op l.size.bytes old) = (t, .ok old) →
    s.homeLoad u l = t.loadHomed u l (BitVec.ofNat 64 old) := by
  intro hk
  refine (if_neg (Bool.not_eq_true _ ▸ h)).trans ?_
  obtain ⟨rmw, hrmw⟩ : ∃ f, s.rmw = f := ⟨_, rfl⟩
  unfold State.loadAgent at hk
  rw [hrmw] at hk ⊢
  cases e : s.target l.addr with
  | remote dev => exact absurd e (hr dev)
  | bad | host | commons | aperture | mem =>
    refine (if_neg hop).trans ?_
    rw [hk]

theorem State.homeLoad_reads {t : State} {b : List Byte} (hop : l.op = .load) :
    s.readVa (s.loadAgent u l) l.addr l.size.bytes = (t, .ok b) →
    s.homeLoad u l = t.loadHomed u l (BitVec.ofNat 64 (ofBytes (overlay b (s.laidOver u l)))) := by
  intro hk
  refine (if_neg (Bool.not_eq_true _ ▸ h)).trans ?_
  obtain ⟨read, hread⟩ : ∃ f, s.readVa = f := ⟨_, rfl⟩
  unfold State.loadAgent at hk
  rw [hread] at hk ⊢
  cases e : s.target l.addr with
  | remote dev => exact absurd e (hr dev)
  | bad | host | commons | aperture | mem =>
    refine (if_pos hop).trans ?_
    rw [hk]
    rfl

end

/-- Settles O21: the rules of issue with each atomic's operation, and Table 4.6 as `amoResult` has it. -/
theorem atomics : Obligations.Atomics := by
  unfold Obligations.Atomics
  refine ⟨fun s d a b z sc => ?_, ?_, ?_, ?_⟩
  · intro va
    refine ⟨fun h => ?_, fun h op => ?_, fun hl hf c => ⟨fun hc => ?_, fun hc op rm r => ?_⟩,
      fun hl hf hsc hq hs => ⟨fun hc => ?_, fun hc op rm r => ?_⟩, fun hl hf hr hs hw => ?_⟩
    · have stalled : (s.acting.stalls [d, a, b] true || s.fenced s.me) = true := by
        simpa [Context.stalls_listed] using h
      refine ⟨?_, fun op => ?_, fun op rm r => ?_⟩
      · rw [exec_cas, State.loadIssue_stalled stalled]
      · rw [exec_amo, State.loadIssue_stalled stalled]
      · rw [exec_famo, State.loadIssue_stalled stalled]
    · rw [exec_amoi]
      refine State.storeIssue_stalled ?_
      rcases h with h | h <;> simp [h]
    · have free := State.load_free (regs := [d, a, b]) hl hf
      refine ⟨?_, fun op => ?_, fun hq op => ?_⟩
      · rw [exec_cas]
        exact State.loadIssue_traps free hc
      · rw [exec_amo]
        exact State.loadIssue_traps free hc
      · rw [exec_amoi]
        exact State.storeIssue_traps (State.store_free hl hf hq) hc
    · rw [exec_famo]
      exact State.loadIssue_traps (State.load_free hl hf) hc
    · rw [exec_cas]
      refine ⟨fun op => ?_, State.loadIssue_as_fence hl hf hsc hs hc⟩
      rw [exec_amo, exec_amoi]
      exact ⟨State.loadIssue_as_fence hl hf hsc hs hc, State.storeIssue_as_fence hl hf hq hsc hs hc⟩
    · rw [exec_famo]
      exact State.loadIssue_as_fence hl hf hsc hs hc
    · intro f goes
      refine ⟨fun hc => ⟨fun op => ?_, ?_, fun hq op => ?_⟩, fun hc op rm r => ?_⟩
      · rw [exec_amo]
        exact State.loadIssue_goes hl hf hr hs hw hc
      · rw [exec_cas]
        exact State.loadIssue_goes hl hf hr hs hw hc
      · rw [exec_amoi]
        exact State.storeIssue_goes hl hf hr hs hw hq hc
      · rw [exec_famo]
        exact State.loadIssue_goes hl hf hr hs hw hc
  · intro w m v hw hm hv
    have hm' : m % 2 ^ w = m := Nat.mod_eq_of_lt hm
    have hv' : v % 2 ^ w = v := Nat.mod_eq_of_lt hv
    simp only [amoResult, hm', hv', true_and]
    refine ⟨?_, ?_, signed_min w m v, signed_max w m v⟩
    · split <;> omega
    · split <;> omega
  · intro s u c v n old
    by_cases h : old = c.toNat % 2 ^ (8 * n) <;> simp [State.atomicValue, h]
  · intro s t u l old h hload hp ho hr hside hover hk
    have free : s.homeHeld u l = false := by
      simp only [State.homeHeld, Bool.or_eq_false_iff, List.any_eq_false]
      refine ⟨fun w hw => by simp [hover w hw], fun w hw => by simp [hside w hw]⟩
    rw [exec_homeAccess_load h hp ho]
    exact congrArg _ (State.homeLoad_rmw free hr hload hk)

end Sys2Proof.Machine
end

section
/-! PROOFS. Loads read their home and reply (O17: R118, R121, R122, R124, R135, R310). -/

namespace Sys2Proof.Machine

theorem PendingLoad.failure_none {l : PendingLoad} (h : ∀ c, l.op ≠ .failed c) : l.failure = none := by
  unfold PendingLoad.failure
  split
  · next c e => exact absurd e (h c)
  · rfl

/-- A context that has written no other device has its fence after an atomic at once (R135). -/
theorem State.trailFence_clear {s : State} {u : CtxRef} {sc : Scope} (h : sc = .fabric → (s.ctx u).written = []) :
    s.trailFence u sc = if sc = .core then s else s.fenceDone u sc := by
  unfold State.trailFence
  dsimp only
  congr 1
  refine if_neg ?_
  rintro ⟨e, k⟩
  rw [h e] at k
  cases k

section
variable {s : State} {u : CtxRef}

theorem execLoadReply_stale {n : Nat} {v : Word} (h : ∀ l, (s.ctx u).load = some l → l.seq ≠ n) :
    exec (.loadReply u n v) s = .next s := by
  change execLoadReply u n v s = _
  unfold execLoadReply
  dsimp only
  cases e : (s.ctx u).load with
  | none => rfl
  | some l => exact if_neg fun k => h l e k.1

theorem execLoadReply_returns {l : PendingLoad} {v : Word} (hl : (s.ctx u).load = some l) (hh : l.homed = true)
    (hf : ∀ c, l.op ≠ .failed c) : exec (.loadReply u l.seq v) s =
      let t := ({ s with requests := s.requests.filter fun r => r.who != Waiter.load u l.seq }.setCtx u
        { (s.ctx u).setX l.dest (extend l.size l.nat v.toNat) with load := none }).trailFence u l.scope
      .next (if (s.ctx u).state = .parked ∧ (s.ctx u).park = .load then t.ready u else t) := by
  change execLoadReply u l.seq v s = _
  unfold execLoadReply
  dsimp only
  rw [hl]
  exact if_pos ⟨rfl, hh, PendingLoad.failure_none hf⟩

end

/-- Settles O17: the rules of a load at its home and of its reply. -/
theorem loadsReturn : Obligations.LoadsReturn := by
  unfold Obligations.LoadsReturn
  refine ⟨?_, ?_, fun s u n v h => execLoadReply_stale h⟩
  · intro s t u l b hl hop hh hr own hside hown hk
    have free : s.homeHeld u l = false := by
      simp only [State.homeHeld, State.laidOver, State.earlier, hop, bne_self_eq_false, Bool.false_or,
        Bool.or_eq_false_iff, List.any_eq_false]
      simp only [List.all_eq_true] at hside hown
      exact ⟨fun w hw => by simpa using hown w hw, fun w hw => by simpa [imp_iff_not_or] using hside w hw⟩
    have going : l.open_ = true := by simp [PendingLoad.open_, hop, hh]
    rw [exec_homeAccess_load hl (by simp [hop]) going]
    exact congrArg _ (State.homeLoad_reads free hr hop hk)
  · intro s u l v hl hh hf hw x r t
    rw [execLoadReply_returns hl hh hf, State.trailFence_clear, extend_eq_loadedValue]
    intro e
    rw [State.ctx_setCtx_same, ← hw e]
    obtain ⟨y, hy⟩ := (s.ctx u).setX_eq l.dest (extend l.size l.nat v.toNat)
    rw [hy]

end Sys2Proof.Machine
end

section
/-! PROOFS. WAITA: its issue, its test, its entry, the write that wakes it and its reply (O23: R125, R141, R142). -/

namespace Sys2Proof.Machine

/-! ### Issue (R121, R141) -/

section
variable {s t : State} {d a b : XReg} {c : Cmp}

theorem execWaita_stalled (h : s.acting.load ≠ none ∨ s.fenced s.me = true) : exec (.waita d a b c) s = .next s := by
  refine if_pos ?_
  simpa [Context.stalls_listed] using h

section
variable (hl : s.acting.load = none) (hf : s.fenced s.me = false)
include hl hf

theorem waita_free : ¬ (s.acting.stalls [d, a, b] true || s.fenced s.me) = true := by
  simp [Context.stalls_none, hl, hf]

theorem execWaita_traps {k : BitVec 8} (hc : s.accessFault s.me .own (s.acting.getX a) 8 false = some k) :
    exec (.waita d a b c) s = .next (s.traps k (s.acting.getX a)) := by
  refine (if_neg (waita_free hl hf)).trans ?_
  rw [hc]
  rfl

/-- What a WAITA does with the outcome of its test. -/
def State.waitGoes (t : State) (u : CtxRef) (va : Word) (next : Word) (p : Park) :
    Got Unit → Host.Outcome State Fault Refusal
  | .ok _ => .next (t.parkCtx u p)
  | .wait => .next (t.parkCtx u .load)
  | .access => .next (t.takeTrap u 0x05 va next)
  | .data => .next (t.takeTrap u 0x0B va next)

theorem execWaita_tests {g : Got Unit} (hc : s.accessFault s.me .own (s.acting.getX a) 8 false = none)
    (hs : s.overlaps s.me (s.acting.getX a) 8 s.acting.stores = [])
    (hq : s.amoiQueued s.me (s.side (s.acting.getX a)) = false) :
    s.waitTest s.me (s.acting.getX a) (s.acting.getX d) (s.acting.getX b) c (.retry s.me) = (t, g) →
    exec (.waita d a b c) s = t.waitGoes s.me (s.acting.getX a) (s.acting.pc + 4)
      (.waita d (s.acting.getX a) (s.acting.getX d) (s.acting.getX b) c) g := by
  intro ht
  refine (if_neg (waita_free hl hf)).trans ?_
  obtain ⟨test, htest⟩ : ∃ f, s.waitTest = f := ⟨_, rfl⟩
  rw [htest] at ht ⊢
  rw [hc]
  refine (if_neg ?_).trans ?_
  · simp only [hs, hq, List.isEmpty_nil, Bool.not_true, Bool.or_self, Bool.false_eq_true, not_false_eq_true]
  · rw [ht]
    cases g <;> rfl

end
end

/-! ### The test at the home (R141, R142) -/

section
variable {s s1 s2 : State} {u : CtxRef} {va m e : Word} {c : Cmp} {who : Requester} {k : Nat} {l : List Byte}

/-- The state in which a word has been read for a wait, with the number that its reply takes. -/
def State.waitRead (s2 : State) (u : CtxRef) (k : Nat) : State :=
  let x := s2.readsFrom (dieOf u.core) k 8
  x.setCtx u { x.ctx u with seq := (x.ctx u).seq + 1 }

theorem State.waitTest_reads : s.locateRead (s.docentAgent u who) va = (s1, .ok k) → s1.readKey k 8 = (s2, .ok l) →
    s.waitTest u va m e c who =
      let n := ((s2.readsFrom (dieOf u.core) k 8).ctx u).seq
      let q := s2.waitRead u k
      if waitHolds c m e (wordOf l) then (q.event (.waitaReply u n false), .ok ())
      else (q.enterWait ⟨q.waitHome (s.docentAgent u who) va, k, va, m, e, c, u, n⟩, .ok ()) := by
  intro hloc hread
  unfold State.waitTest
  obtain ⟨locate, hlocate⟩ : ∃ f, s.locateRead = f := ⟨_, rfl⟩
  obtain ⟨read, hr⟩ : ∃ f, State.readKey = f := ⟨_, rfl⟩
  rw [hlocate] at hloc ⊢
  rw [hr] at hread ⊢
  dsimp only
  rw [hloc]
  dsimp only
  rw [hread]
  rfl

end

/-! ### Entries (R142) -/

section
variable {s : State} {e : WaitEntry}

theorem State.enterWait_free (h : (s.waits.filter fun w => w.home == e.home).length < 32) :
    s.enterWait e = { s with waits := s.waits ++ [e] } := by
  unfold State.enterWait
  dsimp only
  split
  · rfl
  · exact if_pos h

theorem State.enterWait_full {o : WaitEntry} {r : List WaitEntry}
    (hm : (s.waits.filter fun w => w.home == e.home) = o :: r) (h : 32 ≤ (o :: r).length) :
    s.enterWait e = { s with waits := s.waits.erase o ++ [e] }.event (.waitaReply o.who o.seq true) := by
  unfold State.enterWait
  dsimp only
  rw [hm]
  exact if_neg (by omega)

end

/-! ### The write that wakes a wait (R309, R327) -/

/-- A write to a range makes the comparison of an entry hold. -/
def State.hitsWait (s : State) (k n : Nat) (w : WaitEntry) : Bool :=
  decide (w.key < k + n) && decide (k < w.key + 8)
    && waitHolds w.c w.mask w.expected (wordOf (s.mem.read w.key 8))

/-- The wait entries and the agenda are as before. -/
def State.SameWaits (s t : State) : Prop := t.waits = s.waits ∧ t.agenda = s.agenda

theorem State.SameWaits.trans {s t q : State} (h : s.SameWaits t) (k : t.SameWaits q) : s.SameWaits q :=
  ⟨k.1.trans h.1, k.2.trans h.2⟩

section
variable (s : State)

theorem State.readsFrom_waits (d : DieNum) (lo n : Nat) : s.SameWaits (s.readsFrom d lo n) := by
  refine foldl_keeps s.SameWaits _ (fun t i h => h.trans ?_) _ s ⟨rfl, rfl⟩
  unfold State.readsByte
  split
  · split <;> exact ⟨rfl, rfl⟩
  · exact ⟨rfl, rfl⟩

theorem State.put_waits (p : Put) (k : Nat) (d : List Byte) : s.SameWaits (s.put p k d) := by
  have merge (r : Bool) : s.SameWaits (s.mergeKey k d r) := by
    unfold State.mergeKey
    dsimp only
    split <;> exact ⟨rfl, rfl⟩
  cases p with
  | merge ref => exact merge ref
  | plain =>
    refine (merge false).trans ?_
    unfold State.put State.plainKey
    dsimp only
    split <;> exact ⟨rfl, rfl⟩
  | line | reloc => exact ⟨rfl, rfl⟩

/-- The entries that a write makes hold are taken away and their replies sent; the others stay. -/
theorem State.testWaits_eq (k n : Nat) : State.SameWaits { s with
    waits := s.waits.filter fun w => !s.hitsWait k n w
    agenda := s.agenda ++ (s.waits.filter (s.hitsWait k n)).map fun w => .event (.waitaReply w.who w.seq false) .none }
    (s.testWaits k n) := by
  unfold State.testWaits
  exact foldl_keeps (State.SameWaits _) _ (fun t w h => h.trans (t.readsFrom_waits _ _ _)) _ _ ⟨rfl, rfl⟩

/-- What the end of a write makes of an entry, by the memory as it then is. -/
theorem State.testWaits_mem_iff (k n : Nat) {w : WaitEntry} (hw : w ∈ s.waits) :
    (s.hitsWait k n w = true → w ∉ (s.testWaits k n).waits ∧
      .event (.waitaReply w.who w.seq false) .none ∈ (s.testWaits k n).agenda) ∧
    (s.hitsWait k n w = false → w ∈ (s.testWaits k n).waits) := by
  obtain ⟨hwaits, hagenda⟩ := s.testWaits_eq k n
  rw [hwaits, hagenda]
  refine ⟨fun h => ⟨fun hm => ?_, List.mem_append_right _ ?_⟩, fun h => List.mem_filter.2 ⟨hw, by simp [h]⟩⟩
  · simpa [h] using (List.mem_filter.1 hm).2
  · exact List.mem_map.2 ⟨w, List.mem_filter.2 ⟨hw, h⟩, rfl⟩

/-- A write at one location ends with the test of its words' entries, which stood as before until then. -/
theorem State.putWhere_tests (m : Mark) (k : Nat) (d : List Byte) (p : Put) (later : Nat → Bool) :
    ∃ q : State, s.putWhere m k d p later = q.testWaits k d.length ∧ q.waits = s.waits := by
  unfold State.putWhere
  dsimp only
  split
  · exact ⟨(s.put p k d).stampAs m k d.length false, rfl, (s.put_waits p k d).1⟩
  · refine ⟨_, rfl, (foldl_keeps s.SameWaits _ (fun t i h => h.trans ?_) _ s ⟨rfl, rfl⟩).1⟩
    exact (t.put_waits _ _ _).trans ⟨rfl, rfl⟩

theorem State.writeAs_wakes (m : Mark) (k : Nat) (d : List Byte) (p : Put) {w : WaitEntry} (hw : w ∈ s.waits) :
    let t := s.writeAs m [k] d p
    let hit : Prop := w.key < k + d.length ∧ k < w.key + 8 ∧
      waitHolds w.c w.mask w.expected (wordOf (Memory.read t.mem w.key 8)) = true
    (hit → w ∉ t.waits ∧ .event (.waitaReply w.who w.seq false) .none ∈ t.agenda) ∧ (¬ hit → w ∈ t.waits) := by
  obtain ⟨q, ht, hq⟩ := s.putWhere_tests m k d p (s.followsAt m)
  have written : s.writeAs m [k] d p = q.testWaits k d.length := ht
  intro t hit
  have hits : q.hitsWait k d.length w = true ↔ hit := by
    simp only [State.hitsWait, hit, t, written, State.testWaits_mem, Bool.and_eq_true, decide_eq_true_eq, and_assoc]
  obtain ⟨taken, kept⟩ := q.testWaits_mem_iff k d.length (hq ▸ hw)
  rw [← hits, Bool.not_eq_true]
  simp only [t, written]
  exact ⟨taken, kept⟩

end

/-! ### The reply (R141) -/

section
variable {s : State} {u : CtxRef} {d : XReg} {va m e : Word} {c : Cmp} {n : Nat}

theorem execWaitaReply_returns (ev : Bool) (hp : (s.ctx u).park = .waita d va m e c) (hs : (s.ctx u).state = .parked)
    (hn : (s.ctx u).seq = n + 1) : exec (.waitaReply u n ev) s
      = .next ((s.setCtx u { (s.ctx u).setX d (if ev then 1 else 0) with pc := (s.ctx u).pc + 4 }).ready u) := by
  change execWaitaReply u n ev s = _
  unfold execWaitaReply
  dsimp only
  rw [hp]
  exact if_pos ⟨hs, hn⟩

theorem execHomeAccess_waits {t : State} (hp : (s.ctx u).park = .waita d va m e c) (hs : (s.ctx u).state = .parked)
    (hn : (s.ctx u).seq = n) : s.waitTest u va m e c (.waita u n) = (t, .ok ()) →
    exec (.homeAccess (.waita u n)) s = .next t := by
  intro ht
  change Host.Outcome.next (s.homeWait u n) = _
  unfold State.homeWait
  obtain ⟨test, htest⟩ : ∃ f, s.waitTest = f := ⟨_, rfl⟩
  rw [htest] at ht ⊢
  dsimp only
  rw [hp]
  dsimp only
  rw [if_pos ⟨hs, hn⟩, ht]

end

/-! ### The comparison (R141) -/

theorem waitHolds_eq (c : Cmp) (mask expected v : Word) : waitHolds c mask expected v = match c with
    | .eq => decide (v &&& mask = expected &&& mask)
    | .ne => decide (v &&& mask ≠ expected &&& mask)
    | .lt => decide ((v &&& mask).toInt < (expected &&& mask).toInt)
    | .ge => decide ((expected &&& mask).toInt ≤ (v &&& mask).toInt)
    | .ltn => decide ((v &&& mask).toNat < (expected &&& mask).toNat)
    | .gen => decide ((expected &&& mask).toNat ≤ (v &&& mask).toNat) := by
  cases c with
  | eq | lt | ltn => rfl
  | ne => exact decide_not.symm
  | ge => exact not_slt ..
  | gen => exact not_ult ..

/-- Settles O23: the rules of the issue, the test, the entry, the waking write, the reply and the comparison. -/
theorem waitInstruction : Obligations.WaitInstruction := by
  unfold Obligations.WaitInstruction
  refine ⟨?_, ?_, ?_, ?_, ?_, ?_, ?_, waitHolds_eq⟩
  · intro s t d a b c hl hf hc hs hq ht
    exact execWaita_tests hl hf hc hs hq ht
  · intro s d a b c va
    refine ⟨execWaita_stalled, fun hl hf => ⟨fun k hc => execWaita_traps hl hf hc, fun hc hs hq t => ?_⟩⟩
    intro test
    exact ⟨fun ht => execWaita_tests hl hf hc hs hq ht, fun ht => execWaita_tests hl hf hc hs hq ht,
      fun ht => execWaita_tests hl hf hc hs hq ht⟩
  · intro s s1 s2 u va m e c who k l hloc hread x n q
    have test := State.waitTest_reads (m := m) (e := e) (c := c) hloc hread
    exact ⟨fun h => test.trans (if_pos h), fun h => test.trans (if_neg (Bool.not_eq_true _ ▸ h))⟩
  · intro s e mine
    exact ⟨State.enterWait_free, fun o r hm h => State.enterWait_full hm (hm ▸ h)⟩
  · exact fun s m k d p w => s.writeAs_wakes m k d p
  · exact fun s u d va m e c n ev hp hs hn => execWaitaReply_returns ev hp hs hn
  · exact fun s t u d va m e c n hp hs hn ht => execHomeAccess_waits hp hs hn ht

end Sys2Proof.Machine
end

section
/-! PROOFS. DONE: what becomes of its context, its task, its load and its stores (O29: R131, R150, R311). -/

namespace Sys2Proof.Machine

/-! ### What leaves a context, the tasks and the memories as they are -/

/-- A context, every task and the memories are as before. -/
structure State.SameTask (u : CtxRef) (s t : State) : Prop where
  ctx : t.ctx u = s.ctx u
  entry : ∀ c h, t.entry c h = s.entry c h
  mem : t.mem = s.mem
  tags : t.tags = s.tags

namespace State.SameTask
variable {u : CtxRef} {s t q : State}

theorem refl : State.SameTask u s s := ⟨rfl, fun _ _ => rfl, rfl, rfl⟩

theorem trans (h : State.SameTask u s t) (k : State.SameTask u t q) : State.SameTask u s q :=
  ⟨k.ctx.trans h.ctx, fun c n => (k.entry c n).trans (h.entry c n), k.mem.trans h.mem, k.tags.trans h.tags⟩

theorem ofCores (h : t.cores = s.cores) (hm : t.mem = s.mem) (ht : t.tags = s.tags) : State.SameTask u s t :=
  ⟨by rw [State.ctx, State.core, h]; rfl, fun c n => by rw [State.entry, State.core, h]; rfl, hm, ht⟩

theorem once (s : State) (a : Act) : State.SameTask u s (s.once a) := by
  unfold State.once
  split
  · exact refl
  · exact ofCores rfl rfl rfl

end State.SameTask

section
variable {u : CtxRef} (s : State)

theorem State.docentComplete_task (v : CtxRef) (h : Handle) (gen : BitVec 16) :
    State.SameTask u s (s.docentComplete v h gen) := by
  unfold State.docentComplete
  dsimp only
  split
  · exact .once s _
  · exact .refl

theorem State.poke_task (c : CoreId) : State.SameTask u s (s.poke c) := by
  have step (t : State) (k : Kind) : State.SameTask u t
      (if ((s.core c).entries.toList.any fun e => (e.state == .pending || e.state == .ready) && e.kind == kindCode k) = true
        then t.once (.event (.taskRelease c k) .none) else t) := by
    split
    · exact .once t _
    · exact .refl
  exact (((((step s .join).trans (step _ .docent)).trans (step _ .vector)).trans (step _ .matrix)).trans
    (step _ .transpose)).trans (step _ .copy)

theorem State.setCore_task (c : CoreId) (x : Core) (hx : x.ctxs = (s.core c).ctxs) (he : x.entries = (s.core c).entries) :
    State.SameTask u s (s.setCore c x) := by
  refine ⟨?_, fun d n => ?_, rfl, rfl⟩
  · by_cases h : c = u.core
    · subst h
      rw [State.ctx, State.core_setCore_same, hx]
      rfl
    · rw [State.ctx, State.core_setCore_other _ _ _ _ h]
      rfl
  · by_cases h : c = d
    · subst h
      rw [State.entry, State.core_setCore_same, he]
      rfl
    · rw [State.entry, State.core_setCore_other _ _ _ _ h]
      rfl

theorem State.setCtx_task {v : CtxRef} (h : v ≠ u) (x : Context) : State.SameTask u s (s.setCtx v x) :=
  ⟨State.ctx_setCtx_other _ _ _ _ h, fun _ _ => State.entry_setCtx .., rfl, rfl⟩

/-- The docent chooses among READY contexts: any other stays as it is (R14). -/
theorem State.select_task (c : CoreId) (h : (s.ctx u).state ≠ .ready) : State.SameTask u s (s.select c) := by
  unfold State.select
  dsimp only
  split
  · exact .refl
  · next a e =>
    have ready : (s.ctx ⟨c, a⟩).state = .ready := by
      simpa using (List.mem_filter.1 (List.mem_filter.1 (List.mem_of_find?_eq_some e)).1).2
    have apart : (⟨c, a⟩ : CtxRef) ≠ u := fun k => h (k ▸ ready)
    exact (s.setCtx_task apart _).trans (State.setCore_task _ _ _ rfl rfl)

theorem State.dispatch_task (c : CoreId) (h : (s.ctx u).state ≠ .ready) : State.SameTask u s (s.dispatch c) := by
  unfold State.dispatch
  split
  · exact .refl
  · exact s.select_task c h

theorem State.dropLoad_task (v : CtxRef) : State.SameTask u s (s.dropLoad v) := by
  unfold State.dropLoad
  dsimp only
  split
  · split
    · exact .ofCores rfl rfl rfl
    · exact .refl
  · exact .refl

end

/-! ### The atomic that is owed (R311, log 65) -/

/-- The store in which a task's outstanding atomic is owed. -/
def Context.owed (x : Context) (l : PendingLoad) : StoreReq :=
  ⟨l.addr, l.size, 0, none, false, .core, l.level, x.task, x.gen, none, false, some l.op⟩

/-- The context with that store in its queue, after the first `n`. -/
def Context.owes (x : Context) (l : PendingLoad) (n : Nat) : Context :=
  { x with stores := x.stores.take n ++ x.owed l :: x.stores.drop n }

/-- An outstanding access is an atomic that has still to be performed. -/
def PendingLoad.isOwed (l : PendingLoad) : Prop := l.open_ = true ∧ l.op ≠ .load ∧ l.op ≠ .postr

/-- The place of that store in the queue: first when the atomic waits at a walker, else where the atomic stood. -/
def State.owedPlace (s : State) (u : CtxRef) (l : PendingLoad) : Nat := if s.waiting (.load u l.seq) then 0 else l.before

/-- An access is to be performed when it is an atomic that has not failed and has not left for its home. -/
theorem PendingLoad.isOwed_iff {l : PendingLoad} : l.isOwed ↔
    l.homed = false ∧ l.op ≠ .load ∧ l.op ≠ .postr ∧ ∀ c, l.op ≠ .failed c := by
  unfold PendingLoad.isOwed PendingLoad.open_
  cases l.op <;> simp

section
variable {s : State} {u : CtxRef}

theorem State.owedAtomic_none (h : (s.ctx u).load = none) : s.owedAtomic u = s := by
  unfold State.owedAtomic
  dsimp only
  rw [h]

variable {l : PendingLoad} (hl : (s.ctx u).load = some l)
include hl

/-- An access that is no atomic, has failed, or is on its way back, is owed nothing in the store queue. -/
theorem State.owedAtomic_settled (h : ¬ l.isOwed) : State.SameTask u s (s.owedAtomic u) := by
  unfold State.owedAtomic
  dsimp only
  rw [hl]
  dsimp only
  split
  · exact .refl
  · exact .refl
  · exact .refl
  · next hload hpostr hfailed =>
    have homed : l.homed = true := by
      by_contra hh
      exact h (PendingLoad.isOwed_iff.2 ⟨Bool.not_eq_true _ ▸ hh, hload, hpostr, hfailed⟩)
    rw [if_pos homed]
    split
    · exact .refl
    · exact .ofCores rfl rfl rfl

/-- An atomic that has still to be performed joins the store queue; nothing else changes what its context holds. -/
theorem State.owedAtomic_owed (h : l.isOwed) :
    State.SameTask u (s.setCtx u ((s.ctx u).owes l (s.owedPlace u l))) (s.owedAtomic u) := by
  unfold State.owedAtomic
  dsimp only
  rw [hl]
  dsimp only
  obtain ⟨hh, hload, hpostr, hfailed⟩ := PendingLoad.isOwed_iff.1 h
  split
  · next e => exact absurd e hload
  · next e => exact absurd e hpostr
  · next c e => exact absurd e (hfailed c)
  · rw [if_neg (Bool.not_eq_true _ ▸ hh)]
    refine State.SameTask.trans ?_ (.once _ _)
    refine .ofCores ?_ rfl rfl
    rw [Context.owes, hl]
    rfl

end

/-! ### DONE (R150) -/

/-- A context that has left its task. -/
def Context.left (x : Context) : Context := { x with state := .empty, park := .none, load := none }

/-- A task whose context has left it, with causes beside those it has met (R131, R150). -/
def Entry.left (e : Entry) (x : Context) (k : Causes) : Entry :=
  { e with done := true, flags := x.tflags, causes := e.causes.or (if x.suppressed then k.or causeUndeclared else k) }

/-- A context waits for nothing any more (R150). -/
def State.quits (s : State) (u : CtxRef) : State :=
  let q := { s.unpark (.retry u) with waits := s.waits.filter fun w => w.who != u }
  q.setCore u.core { q.core u.core with posters := (q.core u.core).posters.filter fun k => k != u.ctx }

theorem State.quits_task (s : State) (u : CtxRef) : State.SameTask u s (s.quits u) := by
  have waits : State.SameTask u s { s.unpark (.retry u) with waits := s.waits.filter fun w => w.who != u } :=
    .ofCores rfl rfl rfl
  exact waits.trans (State.setCore_task _ _ _ rfl rfl)

/-- A task is left, once its outstanding access has been dealt with. -/
def State.quitsTask (r : State) (u : CtxRef) (k : Causes) : State :=
  let x := r.ctx u
  (((((r.setEntry u.core x.task ((r.entry u.core x.task).left x k)).setCtx u x.left).quits u).docentComplete u x.task
    x.gen).poke u.core)

theorem State.leaveTask_eq (s : State) (u : CtxRef) (k : Causes) :
    s.leaveTask u k = ((s.owedAtomic u).dropLoad u).quitsTask u k := rfl

theorem State.quitsTask_task (r : State) (u : CtxRef) (k : Causes) : State.SameTask u
    ((r.setEntry u.core (r.ctx u).task ((r.entry u.core (r.ctx u).task).left (r.ctx u) k)).setCtx u (r.ctx u).left)
    (r.quitsTask u k) :=
  ((State.quits_task _ u).trans (State.docentComplete_task _ u _ _)).trans (State.poke_task _ _)

/-- What DONE leaves of a context and its task, where its outstanding access has made it `y`. -/
theorem State.endTask_task {s : State} {u : CtxRef} {y : Context} (k : Causes)
    (h : State.SameTask u (s.setCtx u y) (s.owedAtomic u)) :
    (s.endTask u k).ctx u = y.left ∧ (s.endTask u k).entry u.core y.task = (s.entry u.core y.task).left y k ∧
      (s.endTask u k).mem = s.mem ∧ (s.endTask u k).tags = s.tags := by
  have dropped := h.trans (State.dropLoad_task (s.owedAtomic u) u)
  have ended : s.endTask u k = (((s.owedAtomic u).dropLoad u).quitsTask u k).dispatch u.core := rfl
  generalize (s.owedAtomic u).dropLoad u = r at dropped ended
  have hctx : r.ctx u = y := dropped.ctx.trans (State.ctx_setCtx_same _ _ _)
  have hentry : r.entry u.core y.task = s.entry u.core y.task := (dropped.entry _ _).trans (State.entry_setCtx ..)
  have left := r.quitsTask_task u k
  rw [hctx, hentry] at left
  have empty : (r.quitsTask u k).ctx u = y.left := left.ctx.trans (State.ctx_setCtx_same _ _ _)
  have all := left.trans (State.dispatch_task (u := u) (r.quitsTask u k) u.core (by rw [empty]; nofun))
  rw [ended]
  refine ⟨all.ctx.trans (State.ctx_setCtx_same _ _ _), (all.entry _ _).trans ?_, all.mem.trans dropped.mem,
    all.tags.trans dropped.tags⟩
  rw [State.entry_setCtx, State.entry_setEntry_same]

theorem Causes.or_undeclared (a b : Causes) : (a.or (b.or causeUndeclared)).undeclared = true := by
  simp [Causes.or, causeUndeclared]

/-- DONE, where the outstanding access has made `ws` of the queued stores. -/
theorem State.done_leaves {s : State} {ws : List StoreReq}
    (h : State.SameTask s.me (s.setCtx s.me { s.acting with stores := ws }) (s.owedAtomic s.me)) :
    let t := s.endTask s.me Causes.none
    (t.ctx s.me).state = .empty ∧ (t.ctx s.me).load = none ∧ (t.entry s.focus s.acting.task).done = true ∧
      (t.entry s.focus s.acting.task).flags = s.acting.tflags ∧
      (s.acting.suppressed = true → (t.entry s.focus s.acting.task).causes.undeclared = true) ∧
      (t.ctx s.me).stores = ws ∧ t.mem = s.mem ∧ t.tags = s.tags := by
  obtain ⟨hctx, hentry, hmem, htags⟩ := State.endTask_task Causes.none h
  have entry : (s.endTask s.me Causes.none).entry s.focus s.acting.task
      = (s.entry s.focus s.acting.task).left { s.acting with stores := ws } Causes.none := hentry
  dsimp only
  rw [hctx, entry]
  refine ⟨rfl, rfl, rfl, rfl, fun hs => ?_, rfl, hmem, htags⟩
  simp only [Entry.left, hs, if_true, Causes.or_undeclared]

/-- Settles O29: the context, the task and the stores that DONE leaves, whether or not an atomic is owed. -/
theorem doneEndsTask : Obligations.DoneEndsTask := by
  unfold Obligations.DoneEndsTask
  intro s
  refine ⟨s.endTask s.me Causes.none, rfl, ?_⟩
  by_cases owed : ∃ l, s.acting.load = some l ∧ l.isOwed
  · obtain ⟨l, hl, ho⟩ := owed
    obtain ⟨hstate, hload, hdone, hflags, hsup, hstores, hmem, htags⟩ := State.done_leaves (State.owedAtomic_owed hl ho)
    have mem (w : StoreReq) : w ∈ ((s.endTask s.me Causes.none).ctx s.me).stores ↔
        w = s.acting.owed l ∨ w ∈ s.acting.stores := by
      rw [hstores, List.mem_append, List.mem_cons, or_left_comm, ← List.mem_append, List.take_append_drop]
    refine ⟨hstate, hload, hdone, hflags, hsup, fun w hw => (mem w).2 (.inr hw), fun h => ?_, fun k hk hop h1 h2 => ?_,
      hmem, htags⟩
    · exact absurd (h l hl ho.1) (not_or.2 ⟨ho.2.1, ho.2.2⟩)
    · obtain rfl : l = k := Option.some.inj (hl.symm.trans hk)
      exact ⟨s.acting.owed l, (mem _).2 (.inl rfl), rfl, rfl, rfl⟩
  · have same : State.SameTask s.me s (s.owedAtomic s.me) := by
      cases hl : s.acting.load with
      | none => rw [State.owedAtomic_none hl]; exact .refl
      | some l => exact State.owedAtomic_settled hl fun h => owed ⟨l, hl, h⟩
    have kept : State.SameTask s.me (s.setCtx s.me { s.acting with stores := s.acting.stores }) s :=
      .ofCores (congrArg State.cores (s.setCtx_ctx s.me)).symm rfl rfl
    obtain ⟨hstate, hload, hdone, hflags, hsup, hstores, hmem, htags⟩ :=
      State.done_leaves (kept.trans same)
    refine ⟨hstate, hload, hdone, hflags, hsup, fun w hw => ?_, fun _ => hstores,
      fun l hl hop h1 h2 => absurd ⟨l, hl, hop, h1, h2⟩ owed, hmem, htags⟩
    rw [hstores]
    exact hw

end Sys2Proof.Machine
end

section
/-! PROOFS. Faults and packets that are delivered late (O51: R125, R217, R287, R289, R352). -/

namespace Sys2Proof.Machine

/-! ### Delayed faults (R125) -/

/-- A context without the load that a fault report is for. -/
def Context.reported (x : Context) (cause : BitVec 8) (va : Word) : Context :=
  match x.load with
  | some l => if l.op = LoadOp.failed cause ∧ l.addr = va then { x with load := none } else x
  | none => x

theorem Context.reported_other {x : Context} {cause : BitVec 8} {va : Word}
    (h : ∀ l, x.load = some l → l.op ≠ .failed cause ∨ l.addr ≠ va) : x.reported cause va = x := by
  unfold Context.reported
  cases e : x.load with
  | none => rfl
  | some l => exact if_neg (not_and_or.2 (h l e))

theorem Context.reported_failed {x : Context} {cause : BitVec 8} {va : Word} {l : PendingLoad} (hl : x.load = some l)
    (ho : l.op = .failed cause) (ha : l.addr = va) : x.reported cause va = { x with load := none } := by
  unfold Context.reported
  rw [hl]
  exact if_pos ⟨ho, ha⟩

section
variable {s : State} {u : CtxRef} {h : Handle} {gen : BitVec 16} {cause : BitVec 8} {va : Word}

theorem State.finds_iff : s.finds u h gen = true ↔ (s.ctx u).state ≠ .empty ∧ (s.ctx u).task = h ∧ (s.ctx u).gen = gen ∧
    (s.entry u.core h).done = false := by
  simp [State.finds, and_assoc]

theorem State.deliverFault_traps (hf : s.finds u h gen = true) : s.deliverFault u h gen cause va
    = (s.setCtx u ((s.ctx u).reported cause va)).takeTrap u cause va (s.ctx u).pc := by
  have arrives : s.faultArrives u h gen cause va
      = (s.setCtx u ((s.ctx u).reported cause va)).enterTrap u cause va (s.ctx u).pc := if_pos hf
  unfold State.deliverFault State.takeTrap
  rw [arrives, hf]
  generalize (s.setCtx u ((s.ctx u).reported cause va)).enterTrap u cause va (s.ctx u).pc = t
  by_cases running : (t.ctx u).state = .running
  · simp [running]
  · simp [running]

theorem State.deliverFault_done (hd : (s.entry u.core h).done = true) (hg : (s.entry u.core h).gen = gen) :
    s.deliverFault u h gen cause va
      = (s.cause u.core h (if cause = 0x0B then causeData else causeAccess)).docentComplete u h gen := by
  have lost : s.finds u h gen = false := by simp [State.finds, hd]
  have arrives : s.faultArrives u h gen cause va
      = (s.cause u.core h (if cause = 0x0B then causeData else causeAccess)).docentComplete u h gen :=
    (if_neg (Bool.not_eq_true _ ▸ lost)).trans (if_pos ⟨hd, hg⟩)
  unfold State.deliverFault
  rw [arrives, lost]
  rfl

theorem State.deliverFault_stale (hf : s.finds u h gen = false)
    (hd : ¬ ((s.entry u.core h).done = true ∧ (s.entry u.core h).gen = gen)) : s.deliverFault u h gen cause va = s := by
  have arrives : s.faultArrives u h gen cause va = s :=
    (if_neg (Bool.not_eq_true _ ▸ hf)).trans (if_neg hd)
  unfold State.deliverFault
  rw [arrives, hf]
  rfl

end

/-! ### Held packets (R352) -/

section
variable {s : State} {c : CoreId} {x : HeldPacket}

/-- A held packet may be tried: it waits for no shadow room, and stands first of its pair. -/
def State.mayGo (s : State) (c : CoreId) (z : HeldPacket) : Bool :=
  s.wantsEntry c z && (s.heldOfPair z.packet).head? == some z

/-- A post of the core has waited longer than a held packet. -/
def State.olderPost (s : State) (c : CoreId) (x : HeldPacket) : Bool :=
  (s.core c).waitingPosts.any fun i => decide ((s.ctx ⟨c, i⟩).postAt ≤ x.at_)

/-- Whatever waits for an entry of the core goes on. -/
def State.postsGo (s : State) (c : CoreId) : State := s.once (.event (.parkedPostResume c) .none)

/-- What becomes of a held packet that has been tried. -/
def State.tried (t : State) (c : CoreId) (x : HeldPacket) : Taken → State
  | .hold false => t
  | .hold true => State.postsGo { t with
      heldPackets := t.heldPackets.map fun z => if z == x then { z with cramped := true } else z } c
  | .parked => (t.unhold x).postsGo c
  | .answered n => ((t.unhold x).answerPacket x.packet n).postsGo c

variable (hx : s.heldPackets.find? (s.mayGo c) = some x)
include hx

theorem execHeldPacketAccept_older
    (h : (s.olderPost c x && !s.holdsPackets x.packet.part && !x.packet.isSignal) = true) :
    exec (.heldPacketAccept c) s = .next (s.postsGo c) := by
  change execHeldPacketAccept c s = _
  unfold execHeldPacketAccept
  unfold State.mayGo at hx
  dsimp only
  rw [hx]
  exact if_pos h

theorem execHeldPacketAccept_tries
    (h : (s.olderPost c x && !s.holdsPackets x.packet.part && !x.packet.isSignal) = false) {t : State} {r : Taken} :
    s.takePacket x.packet true = (t, r) → exec (.heldPacketAccept c) s = .next (t.tried c x r) := by
  intro hk
  change execHeldPacketAccept c s = _
  unfold execHeldPacketAccept
  unfold State.mayGo at hx
  obtain ⟨take, htake⟩ : ∃ f, s.takePacket = f := ⟨_, rfl⟩
  rw [htake] at hk ⊢
  dsimp only
  rw [hx]
  refine (if_neg (Bool.not_eq_true _ ▸ h)).trans ?_
  rw [hk]
  cases r with
  | hold cramped => cases cramped <;> rfl
  | parked | answered n => rfl

end

/-- Settles O51: the report that finds its context, its task or neither, and the held packet that may be tried. -/
theorem delayedEvents : Obligations.DelayedEvents := by
  unfold Obligations.DelayedEvents
  refine ⟨fun s u h gen cause va => ?_, fun s t c x hx => ?_⟩
  · intro x e
    refine ⟨fun y hs ht hg hd hy => ?_, fun hd hg => congrArg Host.Outcome.next (State.deliverFault_done hd hg),
      fun hx he => ?_⟩
    · have reported : x.reported cause va = y := by
        rcases hy with ⟨rfl, hl⟩ | ⟨rfl, l, hl, ho, ha⟩
        · exact Context.reported_other hl
        · exact Context.reported_failed hl ho ha
      rw [← reported]
      exact congrArg Host.Outcome.next (State.deliverFault_traps (State.finds_iff.2 ⟨hs, ht, hg, hd⟩))
    · refine congrArg Host.Outcome.next (State.deliverFault_stale ?_ ?_)
      · rw [← Bool.not_eq_true, State.finds_iff]
        rintro ⟨hs, ht, hg, -⟩
        rcases hx with h | h | h
        · exact hs h
        · exact h ht
        · exact h hg
      · rintro ⟨hd, hg⟩
        rcases he with h | h
        · exact Bool.noConfusion (hd.symm.trans h)
        · exact h hg
  · intro i next older
    have older_iff : s.olderPost c x = true ↔ older := by
      simp only [State.olderPost, List.any_eq_true, decide_eq_true_eq, older]
    refine ⟨fun ho hh hs => execHeldPacketAccept_older hx ?_, fun h => ?_⟩
    · simp [older_iff.2 ho, hh, hs]
    · have tries : (s.olderPost c x && !s.holdsPackets x.packet.part && !x.packet.isSignal) = false := by
        rcases h with h | h | h
        · rw [← older_iff, Bool.not_eq_true] at h
          simp [h]
        · simp [h]
        · simp [h]
      exact ⟨fun hk => execHeldPacketAccept_tries hx tries hk, fun hk => execHeldPacketAccept_tries hx tries hk,
        fun hk => execHeldPacketAccept_tries hx tries hk, fun n hk => execHeldPacketAccept_tries hx tries hk⟩

end Sys2Proof.Machine
end

section
/-! PROOFS. Located writes: the docents stay as they are, the bytes written stand where they were put, and no others change
(R120, R316, R330, R376-R378). -/

namespace Sys2Proof.Machine

/-! ### Translation leaves the cores as they are (R373-R380) -/

theorem State.SameCores.ite {α : Type} {s : State} {t q : State × α} {p : Prop} [Decidable p] (h : s.SameCores t.1)
    (k : s.SameCores q.1) : s.SameCores (if p then t else q).1 := by
  split
  · exact h
  · exact k

section
variable (s : State)

theorem State.copied_cores (p : PartNum) (key : Nat) (v : Word) : s.SameCores (s.copied p key v).1 := by
  unfold State.copied
  split
  · exact .refl s
  · exact .same rfl rfl

theorem State.remember_cores (p : PartNum) (key : Nat) (v : Word) : s.SameCores (s.remember p key v) := by
  unfold State.remember
  split
  · exact .refl s
  · exact .same rfl rfl

theorem State.walkFrom_cores (ag : Agent) (write : Bool) (die : DieNum) (off : Nat) (l : List (Nat × Nat × Nat × Nat))
    (table : Nat) : s.SameCores (s.walkFrom ag write die off l table).1 := by
  induction l generalizing s table with
  | nil => exact .refl s
  | cons a rest ih =>
    obtain ⟨lvl, shift, width, align⟩ := a
    have read := s.verify_cores (devKey die (table + 8 * bits off shift width) / 64)
    have entry (k : Nat) (w : Word) := read.trans (State.copied_cores _ ag.part k w)
    have leaf (k : Nat) (w x : Word) := (entry k w).trans (State.remember_cores _ ag.part k x)
    have below (k : Nat) (w : Word) (a : Nat) := (entry k w).trans (ih _ a)
    unfold State.walkFrom
    dsimp only
    refine .ite read (.ite (entry _ _) (.ite (entry _ _) (.ite (.ite (entry _ _) (.ite (leaf _ _ _) (leaf _ _ _)))
      (.ite (entry _ _) ?_))))
    split
    · exact below _ _ _
    · exact (below _ _ _).trans (State.remember_cores _ _ _ _)

theorem State.walk_cores (ag : Agent) (write : Bool) (die : DieNum) (off : Nat) :
    s.SameCores (s.walk ag write die off).1 := by
  unfold State.walk
  exact .ite (.refl s) (.ite (.refl s) (s.walkFrom_cores _ _ _ _ _ _))

theorem State.record_cores (ag : Agent) (kind : Nat) (write : Bool) (lvl : Nat) (va : Word) (die : DieNum) (slice : Nat) :
    s.SameCores (s.record ag kind write lvl va die slice) := .same rfl rfl

theorem State.unpark_cores (who : Requester) : s.SameCores (s.unpark who) := .same rfl rfl

theorem State.parkMiss_cores (ag : Agent) (write : Bool) (lvl : Nat) (va : Word) (die : DieNum) (off : Nat) :
    s.SameCores (s.parkMiss ag write lvl va die off) := by
  unfold State.parkMiss
  dsimp only
  split <;> exact .same rfl rfl

theorem State.locateOn_cores (ag : Agent) (write : Bool) (va : Word) (die : DieNum) (off : Nat) (r : Bool) :
    s.SameCores (s.locateOn ag write va die off r).1 := by
  have walked := s.walk_cores ag (write && !ag.who.ofHost) die off
  unfold State.locateOn
  dsimp only
  refine .ite (.same rfl rfl) ?_
  split
  · exact .ite (walked.trans (State.record_cores ..)) (.ite (walked.also rfl rfl) walked)
  · exact walked.trans (State.parkMiss_cores ..)
  · exact walked.trans (State.record_cores ..)
  · exact walked.trans (State.record_cores ..)
  · exact walked.trans (State.record_cores ..)

theorem State.walkCopies_cores (ag : Agent) (va : Word) (off : Nat) (l : List DieNum) :
    s.SameCores (s.walkCopies ag va off l).1 := by
  induction l generalizing s with
  | nil => exact .refl s
  | cons d r ih => exact (s.locateOn_cores ag true va d off true).trans (ih _)

/-- A write that leaves some dies unwritten has walked their copies. -/
theorem State.locateAll_cores_of_left {s t : State} {ag : Agent} {va : Word} {ks : List Nat} {left : List DieNum}
    (h : s.locateAll ag va = (t, .ok (ks, left))) (hleft : left ≠ []) : s.SameCores t := by
  have here : s.SameCores (s.locateAll ag va).1 ∨ ∀ ks left, (s.locateAll ag va).2 = .ok (ks, left) → left = [] := by
    unfold State.locateAll
    split
    · next die off _ =>
      have walked := s.locateOn_cores ag true va die off false
      have all (l : List DieNum) := walked.trans (State.walkCopies_cores _ ag va off l)
      left
      dsimp only
      split
      · refine .ite walked ?_
        split
        · exact (all _).trans (State.unpark_cores ..)
        · exact (all _).trans (State.unpark_cores ..)
        · exact all _
      · exact walked
      · exact walked
      · exact walked
    · right
      intro ks left e
      dsimp only at e
      split at e
      · exact (Prod.mk.inj (Got.ok.inj e)).2.symm
      · cases e
      · cases e
      · cases e
  rcases here with same | none
  · rw [h] at same
    exact same
  · exact absurd (none ks left (congrArg Prod.snd h)) hleft

end

/-! ### The bytes of a value (R45) -/

@[simp] theorem bytesOf_length (n v : Nat) : (bytesOf n v).length = n := by
  induction n generalizing v with
  | zero => rfl
  | succ n ih => rw [bytesOf, List.length_cons, ih]

theorem bytesOf_getD (n v i : Nat) (h : i < n) : (bytesOf n v).getD i 0 = BitVec.ofNat 8 (v / 256 ^ i) := by
  induction n generalizing v i with
  | zero => omega
  | succ n ih =>
    cases i with
    | zero => simp [bytesOf]
    | succ i =>
      rw [bytesOf, List.getD_cons_succ, ih _ _ (by omega), Nat.div_div_eq_div_mul, Nat.pow_succ']

/-- The bytes of a value, written at a key, stand there. -/
theorem Memory.byte_write_bytesOf (m : Memory) (k n v i : Nat) (h : i < n) :
    Memory.byte (m.write k (bytesOf n v)) (k + i) = BitVec.ofNat 8 (v / 256 ^ i) := by
  rw [Memory.byte_write, if_pos (by rw [bytesOf_length]; omega), Nat.add_sub_cancel_left, bytesOf_getD n v i h]

/-! ### Verification leaves the order of writes as it is (R316) -/

section
variable (s : State)

theorem State.raiseSource_stamps (p : PartNum) (n : Nat) : (s.raiseSource p n).stamps = s.stamps := by
  unfold State.raiseSource
  dsimp only
  split <;> rfl

theorem State.countFailure_stamps (line : Nat) : (s.countFailure line).stamps = s.stamps := by
  unfold State.countFailure
  split
  · rfl
  · unfold State.countCheck
    dsimp only
    split
    · exact State.raiseSource_stamps _ _ _
    · rfl

theorem State.verify_stamps (line : Nat) : (s.verify line).1.stamps = s.stamps := by
  unfold State.verify
  dsimp only
  split
  · rfl
  · split
    · rfl
    · exact s.countFailure_stamps line

theorem State.verifyAll_stamps (ks : List Nat) : (s.verifyAll ks).1.stamps = s.stamps := by
  refine foldl_keeps (fun acc : State × Bool => acc.1.stamps = s.stamps) _ (fun acc k h => ?_) ks (s, true) rfl
  dsimp only
  split
  · exact h
  · exact (acc.1.verify_stamps _).trans h

/-- Whether a write follows at a byte turns on the stamps alone. -/
theorem State.followsAt_of_stamps {s t : State} (h : t.stamps = s.stamps) (m : Mark) (k : Nat) :
    t.followsAt m k = s.followsAt m k := by
  rw [State.followsAt, State.followsAt, State.stampAt, State.stampAt, h]

theorem State.verifyAll_single {k : Nat} (h : isHostKey k = false → (s.verify (k / 64)).2 = true) :
    (s.verifyAll [k]).2 = true := by
  change (if isHostKey k then (s, true) else ((s.verify (k / 64)).1, true && (s.verify (k / 64)).2)).2 = true
  split
  · rfl
  · next hk => exact h (Bool.not_eq_true _ ▸ hk)

/-! ### Writes at one location (R120, R316) -/

theorem State.putWhere_all {m : Mark} {k : Nat} {d : List Byte} {later : Nat → Bool} (ref : Bool)
    (h : ∀ i < d.length, later (k + i) = true) : (s.putWhere m k d (.merge ref) later).mem = s.mem.write k d := by
  have every : ((List.range d.length).filter fun i => later (k + i)) = List.range d.length :=
    List.filter_eq_self.2 fun i hi => h i (List.mem_range.1 hi)
  unfold State.putWhere
  dsimp only
  rw [every, List.length_range, if_pos rfl]
  simp only [State.performedAs, State.testWaits_mem, State.stampAs_mem, State.put, State.mergeKey_mem]

/-- A write that follows at each of its bytes is made. -/
theorem State.writeAs_all {m : Mark} {k : Nat} {d : List Byte} (ref : Bool)
    (h : ∀ i < d.length, s.followsAt m (k + i) = true) : (s.writeAs m [k] d (.merge ref)).mem = s.mem.write k d :=
  s.putWhere_all ref h

theorem State.find_moving_single {k : Nat} (hm : s.moving k = false) : [k].find? s.moving = none := by
  simp [hm]

section
variable {k n v : Nat} (hm : s.moving k = false) (hv : isHostKey k = false → (s.verify (k / 64)).2 = true)
include hm hv

theorem State.storeOwn_made (m : Mark) (who : Requester) :
    (s.storeOwn m who k (bytesOf n v)).2 = .ok () ∧ ∀ i < n,
      Memory.byte (s.storeOwn m who k (bytesOf n v)).1.mem (k + i) = BitVec.ofNat 8 (v / 256 ^ i) := by
  have verified := s.verifyAll_single hv
  unfold State.storeOwn
  rw [if_neg (Bool.not_eq_true _ ▸ hm)]
  dsimp only
  rw [if_pos verified]
  refine ⟨rfl, fun i hi => ?_⟩
  simp only [State.testWaits_mem, State.stampAs_mem, State.mergeKey_mem]
  exact Memory.byte_write_bytesOf _ _ _ _ _ hi

end

theorem State.storeSpread_ok {ag : Agent} {m : Mark} {va : Word} {ks : List Nat} {left : List DieNum} {d : List Byte}
    {ref : Bool} (hm : ks.find? s.moving = none) (hv : (s.verifyAll ks).2 = true) :
    s.storeSpread ag (some m) va (ks, left) d ref
      = ((s.verifyAll ks).1.spread ag m ks left va d (.merge ref), .ok ()) := by
  unfold State.storeSpread
  dsimp only
  rw [hm]
  dsimp only
  rw [hv]
  rfl

end

end Sys2Proof.Machine
end

section
/-! PROOFS. How the head of a store queue is performed: one rule for each way in which it can go (R120, R122, R129, R316,
R330, R346, R378). -/

namespace Sys2Proof.Machine

/-! ### A store at its home (R120, R129, R330, R378) -/

section
variable {s t : State} {u : CtxRef} {ag : Agent} {w : StoreReq}

/-- An STLOC. -/
theorem State.storeHome_local {g : Got (List Nat)} (hw : w.loc = true) :
    (s.leaves u w).1.locateWrite ag w.addr .own = (t, g) → s.storeHome u ag w = match g with
      | .ok ks =>
        if s.replicated ag w.addr then
          t.storeOwn (s.leaves u w).2 ag.who (ks.headD 0) (bytesOf w.size.bytes w.data.toNat)
        else t.storeSpread ag (some (s.leaves u w).2) w.addr (ks, []) (bytesOf w.size.bytes w.data.toNat) false
      | .wait => (t, .wait)
      | .access => (t, .access)
      | .data => (t, .data) := by
  intro h
  unfold State.storeHome
  obtain ⟨locate, hlocate⟩ : ∃ f, State.locateWrite = f := ⟨_, rfl⟩
  rw [hlocate] at h ⊢
  dsimp only
  rewrite [if_pos hw, h]
  cases g <;> rfl

/-- Any other store: it stays at the head of its queue while other copies have still to be written. -/
theorem State.storeHome_spread {g : Got (List Nat × List DieNum)} (hw : w.loc = false) :
    (s.leaves u w).1.locateAll ag w.addr = (t, g) → s.storeHome u ag w = match g with
      | .ok p =>
        let r := t.storeSpread ag (some (s.leaves u w).2) w.addr p (bytesOf w.size.bytes w.data.toNat) false
        match r.2 with
        | .ok _ => if p.2.isEmpty then r else (r.1.setHead u fun w => { w with parted := true }, .wait)
        | _ => r
      | .wait => (t, .wait)
      | .access => (t, .access)
      | .data => (t, .data) := by
  intro h
  unfold State.storeHome
  obtain ⟨locate, hlocate⟩ : ∃ f, State.locateAll = f := ⟨_, rfl⟩
  rw [hlocate] at h ⊢
  dsimp only
  rewrite [if_neg (Bool.not_eq_true _ ▸ hw), h]
  cases g <;> rfl

end

/-! ### The head of the queue (R122, R310) -/

/-- How a store or atomic ends at its home. -/
def State.endsStore {α : Type} (t : State) (u : CtxRef) (w : StoreReq) : Got α → State
  | .ok _ => t.storeDone u w
  | .wait => t
  | .access => t.storeFails u w 0x05
  | .data => t.storeFails u w 0x0B

/-- What a queued atomic does at its home (R132, log 65). -/
def State.storeRmw (s : State) (u : CtxRef) (w : StoreReq) : State × Got Nat :=
  s.rmw (s.storeAgent u w) w.addr w.size.bytes fun s old => s.storeValue u w w.size.bytes old

section
variable {s t : State} {u : CtxRef} {w : StoreReq} {r : List StoreReq}

theorem execStorePerformed_nil (h : (s.ctx u).stores = []) : exec (.storePerformed u) s = .next s := by
  change execStorePerformed u s = _
  unfold execStorePerformed
  rw [h]

variable (h : (s.ctx u).stores = w :: r)
include h

theorem execStorePerformed_held (hw : (s.waiting (.store u) || s.heldByLoad u (s.side w.addr) 0) = true) :
    exec (.storePerformed u) s = .next s := by
  change execStorePerformed u s = _
  unfold execStorePerformed
  rw [h]
  exact if_pos hw

variable (hw : (s.waiting (.store u) || s.heldByLoad u (s.side w.addr) 0) = false)
include hw

theorem execStorePerformed_parted (hp : w.parted = true) : exec (.storePerformed u) s = .next (s.storeDone u w) := by
  change execStorePerformed u s = _
  unfold execStorePerformed
  rw [h]
  exact (if_neg (Bool.not_eq_true _ ▸ hw)).trans (if_pos hp)

variable (hp : w.parted = false)
include hp

section
variable (hr : ∀ dev, s.target w.addr ≠ .remote dev)
include hr

theorem execStorePerformed_atomic {g : Got Nat} (ha : (w.amo.isSome || w.ret.isSome) = true) :
    s.storeRmw u w = (t, g) → exec (.storePerformed u) s = .next (t.endsStore u w g) := by
  intro hg
  change execStorePerformed u s = _
  unfold execStorePerformed
  unfold State.storeRmw State.storeAgent at hg
  obtain ⟨rmw, hrmw⟩ : ∃ f, s.rmw = f := ⟨_, rfl⟩
  obtain ⟨home, hhome⟩ : ∃ f, s.storeHome = f := ⟨_, rfl⟩
  obtain ⟨ag, hag⟩ : ∃ ag, s.docentAgent u (.store u) = ag := ⟨_, rfl⟩
  rw [hrmw, hag] at hg
  rw [hrmw, hhome, hag, h]
  refine (if_neg (Bool.not_eq_true _ ▸ hw)).trans ((if_neg (Bool.not_eq_true _ ▸ hp)).trans ?_)
  cases e : s.target w.addr with
  | remote dev => exact absurd e (hr dev)
  | bad | host | commons | aperture | mem =>
    dsimp only
    rw [if_pos ha, hg]
    cases g <;> rfl

theorem execStorePerformed_plain {g : Got Unit} (ha : (w.amo.isSome || w.ret.isSome) = false) :
    s.storeHome u (s.storeAgent u w) w = (t, g) → exec (.storePerformed u) s = .next (t.endsStore u w g) := by
  intro hg
  change execStorePerformed u s = _
  unfold execStorePerformed
  unfold State.storeAgent at hg
  obtain ⟨rmw, hrmw⟩ : ∃ f, s.rmw = f := ⟨_, rfl⟩
  obtain ⟨home, hhome⟩ : ∃ f, s.storeHome = f := ⟨_, rfl⟩
  obtain ⟨ag, hag⟩ : ∃ ag, s.docentAgent u (.store u) = ag := ⟨_, rfl⟩
  rw [hhome, hag] at hg
  rw [hrmw, hhome, hag, h]
  refine (if_neg (Bool.not_eq_true _ ▸ hw)).trans ((if_neg (Bool.not_eq_true _ ▸ hp)).trans ?_)
  cases e : s.target w.addr with
  | remote dev => exact absurd e (hr dev)
  | bad | host | commons | aperture | mem =>
    dsimp only
    rw [if_neg (Bool.not_eq_true _ ▸ ha), hg]
    cases g <;> rfl

end

/-! ### A store to another device (R346) -/

section
variable {dev : DevNum} (hr : s.target w.addr = .remote dev)
include hr

theorem execStorePerformed_left (hq : ∃ q ∈ s.requests, q.who = .store u) :
    exec (.storePerformed u) s = .next (s.storeDone u w) := by
  have sent : (s.requests.any fun q => q.who == Waiter.store u) = true := by simpa using hq
  change execStorePerformed u s = _
  unfold execStorePerformed
  rw [h]
  refine (if_neg (Bool.not_eq_true _ ▸ hw)).trans ((if_neg (Bool.not_eq_true _ ▸ hp)).trans ?_)
  rw [hr]
  exact if_pos sent

/-- The request in which a store leaves for another device (Table 12.1). -/
def State.storeRequest (s : State) (u : CtxRef) (w : StoreReq) (dev : DevNum) (p : Plane) (q : BitVec 32) : Out :=
  let z : ASize := if w.size.bytes = 4 then .w else .d
  match w.amo, w.ret with
  | some op, _ => .atomic dev p q (s.partOf u.core) w.addr (some op) z w.data 0
  | none, some op => .atomic dev p q (s.partOf u.core) w.addr op.wire.1 z op.wire.2.1 op.wire.2.2
  | none, none => .write dev p q (s.partOf u.core) w.addr (bytesOf w.size.bytes w.data.toNat) []

variable (hq : ∀ q ∈ s.requests, q.who ≠ .store u)
include hq

theorem execStorePerformed_unreached (hn : s.planeFor dev (docentStart dev u) = none) :
    exec (.storePerformed u) s = .next (s.storeFails u w 0x05) := by
  have unsent : ¬ (s.requests.any fun q => q.who == Waiter.store u) = true := by simpa using hq
  change execStorePerformed u s = _
  unfold execStorePerformed
  rw [h]
  refine (if_neg (Bool.not_eq_true _ ▸ hw)).trans ((if_neg (Bool.not_eq_true _ ▸ hp)).trans ?_)
  rw [hr]
  refine (if_neg unsent).trans ?_
  rw [hn]

theorem execStorePerformed_sent {p : Plane} (hs : s.planeFor dev (docentStart dev u) = some p) :
    exec (.storePerformed u) s
      = .next ((s.request dev p (.store u) (s.storeRequest u w dev p)).event (.storePerformed u)) := by
  have unsent : ¬ (s.requests.any fun q => q.who == Waiter.store u) = true := by simpa using hq
  change execStorePerformed u s = _
  unfold execStorePerformed
  rw [h]
  refine (if_neg (Bool.not_eq_true _ ▸ hw)).trans ((if_neg (Bool.not_eq_true _ ▸ hp)).trans ?_)
  rw [hr]
  refine (if_neg unsent).trans ?_
  rw [hs]
  rfl

end

end

end Sys2Proof.Machine
end

section
/-! PROOFS. Performing a store changes no byte of memory outside the copies that are reached (R330, R378). -/

namespace Sys2Proof.Machine

/-! ### What a store leaves the memories as they are in (R122, R125, R135) -/

section
variable (s : State) (u : CtxRef)

theorem State.storesGo_keeps : s.Keeps (s.storesGo u) := by
  unfold State.storesGo
  split
  · exact .refl s
  · exact s.once_keeps _

theorem State.endTrail_keeps : s.Keeps (s.endTrail u) := by
  unfold State.endTrail
  dsimp only
  split
  · exact (State.Keeps.same rfl rfl : s.Keeps (s.setCtx u _)).trans (State.fenceDone_keeps ..)
  · exact .refl s

theorem State.trailFence_keeps (sc : Scope) : s.Keeps (s.trailFence u sc) := by
  unfold State.trailFence
  dsimp only
  split
  · exact .refl s
  · split
    · exact ((State.Keeps.same rfl rfl : s.Keeps (s.setCtx u _)).trans (State.markersSent_keeps ..)).trans
        (State.endTrail_keeps ..)
    · exact s.fenceDone_keeps u sc

theorem State.popStore_keeps : s.Keeps (s.popStore u) := by
  unfold State.popStore
  dsimp only
  split
  · exact .refl s
  · refine State.Keeps.trans ?_ (State.docentComplete_keeps ..)
    have gone (q : State) (h : s.Keeps q) : s.Keeps (q.storesGo u) := h.trans (q.storesGo_keeps u)
    split
    · split
      · refine State.Keeps.trans ?_ (State.once_keeps ..)
        exact gone _ (.same rfl rfl)
      · exact gone _ (.same rfl rfl)
    · exact gone _ (.same rfl rfl)

theorem State.storeDone_keeps (w : StoreReq) : s.Keeps (s.storeDone u w) :=
  (s.popStore_keeps u).trans (State.trailFence_keeps ..)

theorem State.delay_keeps (h : Handle) (gen : BitVec 16) (cause : BitVec 8) (va : Word) :
    s.Keeps (s.delay u h gen cause va) := by
  unfold State.delay
  split <;> exact .same rfl rfl

theorem State.storeFails_keeps (w : StoreReq) (cause : BitVec 8) : s.Keeps (s.storeFails u w cause) := by
  have popped := (s.delay_keeps u w.handle w.gen cause w.addr).trans (State.popStore_keeps _ u)
  unfold State.storeFails
  dsimp only
  split
  · exact popped.also rfl rfl
  · exact popped

theorem State.endsStore_keeps {α : Type} (w : StoreReq) (g : Got α) : s.Keeps (s.endsStore u w g) := by
  cases g with
  | ok => exact s.storeDone_keeps u w
  | wait => exact .refl s
  | access => exact s.storeFails_keeps u w _
  | data => exact s.storeFails_keeps u w _

theorem State.setHead_keeps (f : StoreReq → StoreReq) : s.Keeps (s.setHead u f) := by
  unfold State.setHead
  dsimp only
  split
  · exact .refl s
  · exact .same rfl rfl

theorem State.leaves_keeps (w : StoreReq) : s.Keeps (s.leaves u w).1 := by
  unfold State.leaves
  split
  · exact .refl s
  · exact (State.Keeps.same rfl rfl : s.Keeps (s.advanceClock _)).trans (State.setHead_keeps ..)

theorem State.atomicValue_keeps (op : LoadOp) (n old : Nat) : s.Keeps (s.atomicValue u op n old).1 := by
  cases op with
  | load | postr | failed | amo => exact .refl s
  | cas c v => exact .ite (.refl s) (.refl s)
  | famo o rm v r =>
    unfold State.atomicValue
    dsimp only
    split <;> exact .same rfl rfl

theorem State.storeValue_keeps (w : StoreReq) (n old : Nat) : s.Keeps (s.storeValue u w n old).1 := by
  unfold State.storeValue
  split
  · exact .refl s
  · dsimp only
    split <;> exact .same rfl rfl
  · exact s.atomicValue_keeps u _ n old
  · exact .refl s

end

/-! ### Read-modify-writes (R132-R135) -/

/-- A read-modify-write of a location that has been found. -/
def State.rmwAt (s : State) (ag : Agent) (keys : List Nat) (n : Nat) (f : State → Nat → State × Option Nat) :
    State × Got Nat :=
  if s.moving (keys.headD 0) then (s.hold (keys.headD 0) ag.who, .wait)
  else
    let r := s.readKey (keys.headD 0) n
    match r.2 with
    | .ok l =>
      let w := f (r.1.readsFrom ag.die (keys.headD 0) n) (ofBytes l)
      match w.2 with
      | some v => ((w.1.storeAt ag keys (bytesOf n v) false).1, .ok (ofBytes l))
      | none => (w.1, .ok (ofBytes l))
    | .wait => (r.1, .wait)
    | .access => (r.1, .access)
    | .data => (r.1, .data)

section
variable {s t : State} {ag : Agent} {va : Word} {n : Nat} {f : State → Nat → State × Option Nat}

theorem State.rmw_here (hr : ∀ dev, s.target va ≠ .remote dev) : s.rmw ag va n f = s.rmwHere ag va n f := by
  unfold State.rmw
  obtain ⟨here, hhere⟩ : ∃ f, State.rmwHere = f := ⟨_, rfl⟩
  rw [hhere]
  cases e : s.target va with
  | remote dev => exact absurd e (hr dev)
  | bad | host | commons | aperture | mem => rfl

theorem State.rmwHere_located {g : Got (List Nat)} :
    s.locateWrite ag va .never = (t, g) → s.rmwHere ag va n f = match g with
      | .ok keys => t.rmwAt ag keys n f
      | .wait => (t, .wait)
      | .access => (t, .access)
      | .data => (t, .data) := by
  intro h
  unfold State.rmwHere State.rmwAt
  obtain ⟨locate, hlocate⟩ : ∃ f, State.locateWrite = f := ⟨_, rfl⟩
  obtain ⟨read, hread⟩ : ∃ f, State.readKey = f := ⟨_, rfl⟩
  rw [hlocate] at h ⊢
  rw [hread]
  dsimp only
  rewrite [h]
  cases g <;> rfl

theorem State.storeAt_byte (s : State) (ag : Agent) (keys : List Nat) (d : List Byte) (ref : Bool) (a : Nat)
    (h : ∀ k ∈ keys, Apart a k d.length) :
    Memory.byte (s.storeAt ag keys d ref).1.mem a = Memory.byte s.mem a := by
  unfold State.storeAt
  split
  · rfl
  · dsimp only
    split
    · refine (State.writeAs_byte _ _ _ _ _ _ h).trans ?_
      rw [State.advanceClock_mem, State.verifyAll_mem]
    · rw [State.verifyAll_mem]

/-- A read-modify-write changes no byte apart from its copies. -/
theorem State.rmwAt_byte (s : State) (ag : Agent) (keys : List Nat) (n : Nat) (f : State → Nat → State × Option Nat)
    (hf : ∀ (s : State) (old : Nat), s.Keeps (f s old).1) (a : Nat) (h : ∀ k ∈ keys, Apart a k n) :
    Memory.byte (s.rmwAt ag keys n f).1.mem a = Memory.byte s.mem a := by
  have read := s.readKey_keeps (keys.headD 0) n
  have valued (old : Nat) := (read.trans (State.readsFrom_keeps _ ag.die (keys.headD 0) n)).trans (hf _ old)
  unfold State.rmwAt
  split
  · rfl
  · dsimp only
    split
    · split
      · refine (State.storeAt_byte _ _ _ _ _ _ (by simpa using h)).trans ((valued _).byte a)
      · exact (valued _).byte a
    · exact read.byte a
    · exact read.byte a
    · exact read.byte a

end

end Sys2Proof.Machine
end

section
/-! PROOFS. Whatever becomes of a store, no byte outside the copies that are reached changes (R330, R378). -/

namespace Sys2Proof.Machine

/-! ### The copy of an STLOC (R129, R331) -/

section
variable (s : State)

theorem State.locateWrite_own_ne_nil {ag : Agent} {va : Word} {ks : List Nat}
    (h : (s.locateWrite ag va .own).2 = .ok ks) : ks ≠ [] := by
  have copy (t : State) (off : Nat) (ks : List Nat) (h : (t.copiesOn ag va off [ag.die]).2 = .ok ks) : ks ≠ [] := by
    unfold State.copiesOn State.walkCopies State.walkCopies at h
    dsimp only at h
    cases e : (t.locateOn ag true va ag.die off true).2 with
    | ok p =>
      rw [e] at h
      exact (Got.ok.inj h) ▸ List.cons_ne_nil _ _
    | wait => rw [e] at h; cases h
    | access => rw [e] at h; cases h
    | data => rw [e] at h; cases h
  unfold State.locateWrite at h
  split at h
  · cases h
  · cases h
  · cases h
  · dsimp only at h
    split at h
    · exact (Got.ok.inj h) ▸ List.cons_ne_nil _ _
    · cases h
    · cases h
    · cases h
  · split at h
    · exact (Got.ok.inj h) ▸ List.cons_ne_nil _ _
    · cases h
  · dsimp only at h
    split at h
    · split at h
      · exact (Got.ok.inj h) ▸ List.cons_ne_nil _ _
      · exact copy _ _ _ h
    · cases h
    · cases h
    · cases h

theorem State.storeOwn_byte (m : Mark) (who : Requester) (k : Nat) (d : List Byte) (a : Nat) (h : Apart a k d.length) :
    Memory.byte (s.storeOwn m who k d).1.mem a = Memory.byte s.mem a := by
  unfold State.storeOwn
  split
  · rfl
  · dsimp only
    split
    · simp only [State.testWaits_mem, State.stampAs_mem, State.mergeKey_mem, State.verifyAll_mem]
      exact Memory.byte_write_apart _ _ _ _ h
    · rw [State.verifyAll_mem]

end

/-! ### A store and an atomic at their home -/

section
variable {s : State} {u : CtxRef} {w : StoreReq} {a : Nat}
  (h : ∀ k ∈ s.storePlaces u w, Apart a k w.size.bytes)
include h

theorem State.storeHome_local_byte (ha : (w.amo.isSome || w.ret.isSome) = false) (hl : w.loc = true) :
    Memory.byte (s.storeHome u (s.storeAgent u w) w).1.mem a = Memory.byte s.mem a := by
  unfold State.storePlaces at h
  dsimp only at h
  rw [if_neg (Bool.not_eq_true _ ▸ ha), if_pos hl] at h
  obtain ⟨⟨t, g⟩, e⟩ : ∃ r, (s.leaves u w).1.locateWrite (s.storeAgent u w) w.addr .own = r := ⟨_, rfl⟩
  have located := (s.leaves_keeps u w).trans (State.locateWrite_keeps _ (s.storeAgent u w) w.addr .own)
  have nonempty (ks : List Nat) :=
    State.locateWrite_own_ne_nil (s.leaves u w).1 (ag := s.storeAgent u w) (va := w.addr) (ks := ks)
  rw [e] at h located
  simp only [e] at nonempty
  rw [State.storeHome_local hl e]
  cases g with
  | ok ks =>
    have apart : ∀ k ∈ ks, Apart a k (bytesOf w.size.bytes w.data.toNat).length := by
      simpa only [bytesOf_length] using h
    dsimp only
    split
    · obtain ⟨k, ks, rfl⟩ := List.exists_cons_of_ne_nil (nonempty ks rfl)
      exact (State.storeOwn_byte _ _ _ _ _ _ (apart k (List.mem_cons_self ..))).trans (located.byte a)
    · exact (State.storeSpread_byte _ _ _ _ _ _ _ _ apart).trans (located.byte a)
  | wait | access | data => exact located.byte a

theorem State.storeHome_spread_byte (ha : (w.amo.isSome || w.ret.isSome) = false) (hl : w.loc = false) :
    Memory.byte (s.storeHome u (s.storeAgent u w) w).1.mem a = Memory.byte s.mem a := by
  unfold State.storePlaces at h
  dsimp only at h
  rw [if_neg (Bool.not_eq_true _ ▸ ha), if_neg (Bool.not_eq_true _ ▸ hl)] at h
  obtain ⟨⟨t, g⟩, e⟩ : ∃ r, (s.leaves u w).1.locateAll (s.storeAgent u w) w.addr = r := ⟨_, rfl⟩
  have located := (s.leaves_keeps u w).trans (State.locateAll_keeps _ (s.storeAgent u w) w.addr)
  rw [e] at h located
  rw [State.storeHome_spread hl e]
  cases g with
  | ok p =>
    have stored := (t.storeSpread_byte (s.storeAgent u w) (some (s.leaves u w).2) w.addr p
      (bytesOf w.size.bytes w.data.toNat) false a (by simpa only [bytesOf_length] using h)).trans (located.byte a)
    dsimp only
    split
    · split
      · exact stored
      · exact ((State.setHead_keeps _ u _).byte a).trans stored
    · exact stored
  | wait | access | data => exact located.byte a

theorem State.storeRmw_byte (ha : (w.amo.isSome || w.ret.isSome) = true) (hr : ∀ dev, s.target w.addr ≠ .remote dev) :
    Memory.byte (s.storeRmw u w).1.mem a = Memory.byte s.mem a := by
  unfold State.storePlaces at h
  dsimp only at h
  rw [if_pos ha] at h
  obtain ⟨⟨t, g⟩, e⟩ : ∃ r, s.locateWrite (s.storeAgent u w) w.addr .never = r := ⟨_, rfl⟩
  have located := s.locateWrite_keeps (s.storeAgent u w) w.addr .never
  rw [e] at h located
  unfold State.storeRmw
  rw [State.rmw_here hr, State.rmwHere_located e]
  cases g with
  | ok ks =>
    exact (State.rmwAt_byte _ _ _ _ _ (fun s old => s.storeValue_keeps u w _ old) a h).trans (located.byte a)
  | wait | access | data => exact located.byte a

/-- What is done at the home changes no byte outside the copies reached. -/
theorem execStorePerformed_home_byte {r : List StoreReq} {t : State} (hs : (s.ctx u).stores = w :: r)
    (hw : (s.waiting (.store u) || s.heldByLoad u (s.side w.addr) 0) = false) (hp : w.parted = false)
    (hr : ∀ dev, s.target w.addr ≠ .remote dev) (ht : exec (.storePerformed u) s = .next t) :
    Memory.byte t.mem a = Memory.byte s.mem a := by
  cases ha : w.amo.isSome || w.ret.isSome with
  | true =>
    have stored := State.storeRmw_byte h ha hr
    obtain ⟨⟨q, g⟩, e⟩ : ∃ r, s.storeRmw u w = r := ⟨_, rfl⟩
    rw [e] at stored
    rw [execStorePerformed_atomic hs hw hp hr ha e] at ht
    exact Host.Outcome.next.inj ht ▸ ((q.endsStore_keeps u w g).byte a).trans stored
  | false =>
    have stored : Memory.byte (s.storeHome u (s.storeAgent u w) w).1.mem a = Memory.byte s.mem a := by
      cases hl : w.loc with
      | true => exact State.storeHome_local_byte h ha hl
      | false => exact State.storeHome_spread_byte h ha hl
    obtain ⟨⟨q, g⟩, e⟩ : ∃ r, s.storeHome u (s.storeAgent u w) w = r := ⟨_, rfl⟩
    rw [e] at stored
    rw [execStorePerformed_plain hs hw hp hr ha e] at ht
    exact Host.Outcome.next.inj ht ▸ ((q.endsStore_keeps u w g).byte a).trans stored

end

/-! ### A store to another device -/

theorem execStorePerformed_remote_keeps {s t : State} {u : CtxRef} {w : StoreReq} {r : List StoreReq} {dev : DevNum}
    (hs : (s.ctx u).stores = w :: r) (hw : (s.waiting (.store u) || s.heldByLoad u (s.side w.addr) 0) = false)
    (hp : w.parted = false) (hr : s.target w.addr = .remote dev) (ht : exec (.storePerformed u) s = .next t) :
    s.Keeps t := by
  by_cases hq : ∃ q ∈ s.requests, q.who = .store u
  · rw [execStorePerformed_left hs hw hp hr hq] at ht
    exact Host.Outcome.next.inj ht ▸ s.storeDone_keeps u w
  · have unsent : ∀ q ∈ s.requests, q.who ≠ .store u := fun q hm e => hq ⟨q, hm, e⟩
    cases hpl : s.planeFor dev (docentStart dev u) with
    | none =>
      rw [execStorePerformed_unreached hs hw hp hr unsent hpl] at ht
      exact Host.Outcome.next.inj ht ▸ s.storeFails_keeps u w _
    | some p =>
      rw [execStorePerformed_sent hs hw hp hr unsent hpl] at ht
      exact Host.Outcome.next.inj ht ▸ .same rfl rfl

/-- The whole step. -/
theorem execStorePerformed_byte {s t : State} {u : CtxRef} {w : StoreReq} {r : List StoreReq} {a : Nat}
    (hs : (s.ctx u).stores = w :: r) (ht : exec (.storePerformed u) s = .next t)
    (h : ∀ k ∈ s.storePlaces u w, Apart a k w.size.bytes) : Memory.byte t.mem a = Memory.byte s.mem a := by
  cases hw : s.waiting (.store u) || s.heldByLoad u (s.side w.addr) 0 with
  | true =>
    rw [execStorePerformed_held hs hw] at ht
    exact Host.Outcome.next.inj ht ▸ rfl
  | false =>
    cases hp : w.parted with
    | true =>
      rw [execStorePerformed_parted hs hw hp] at ht
      exact Host.Outcome.next.inj ht ▸ (s.storeDone_keeps u w).byte a
    | false =>
      by_cases hr : ∃ dev, s.target w.addr = .remote dev
      · obtain ⟨dev, hr⟩ := hr
        exact (execStorePerformed_remote_keeps hs hw hp hr ht).byte a
      · exact execStorePerformed_home_byte h hs hw hp (fun dev e => hr ⟨dev, e⟩) ht

end Sys2Proof.Machine
end

section
/-! PROOFS. What a store and an atomic write at their home (R120, R132-R135, R316, R330, R378). -/

namespace Sys2Proof.Machine

/-! ### A store at its home -/

section
variable {s t : State} {k n v : Nat} (hm : t.moving k = false) (hv : isHostKey k = false → (t.verify (k / 64)).2 = true)
include hm hv

theorem State.storeSpread_single_made (ag : Agent) {m : Mark} (va : Word)
    (hf : ∀ i < n, t.followsAt m (k + i) = true) :
    (t.storeSpread ag (some m) va ([k], []) (bytesOf n v) false).2 = .ok () ∧ ∀ i < n,
      Memory.byte (t.storeSpread ag (some m) va ([k], []) (bytesOf n v) false).1.mem (k + i)
        = BitVec.ofNat 8 (v / 256 ^ i) := by
  have follows : ∀ i < (bytesOf n v).length, (t.verifyAll [k]).1.followsAt m (k + i) = true := by
    intro i hi
    rw [State.followsAt_of_stamps (t.verifyAll_stamps [k])]
    exact hf i (by rwa [bytesOf_length] at hi)
  rw [t.storeSpread_ok (t.find_moving_single hm) (t.verifyAll_single hv)]
  refine ⟨rfl, fun i hi => ?_⟩
  change Memory.byte ((t.verifyAll [k]).1.writeAs m [k] (bytesOf n v) (.merge false)).mem (k + i) = _
  rw [State.writeAs_all _ false follows]
  exact Memory.byte_write_bytesOf _ _ _ _ _ hi

variable {u : CtxRef} {ag : Agent} {w : StoreReq} (hw : bytesOf w.size.bytes w.data.toNat = bytesOf n v)
include hw

theorem State.storeHome_local_made (hl : w.loc = true)
    (hf : ∀ i < n, s.replicated ag w.addr = true ∨ t.followsAt (s.leaves u w).2 (k + i) = true)
    (e : (s.leaves u w).1.locateWrite ag w.addr .own = (t, .ok [k])) :
    ∃ q : State, s.storeHome u ag w = (q, .ok ()) ∧
      (∀ i < n, Memory.byte q.mem (k + i) = BitVec.ofNat 8 (v / 256 ^ i)) ∧ q.ctx u = t.ctx u := by
  rw [State.storeHome_local hl e, hw]
  dsimp only
  split
  · obtain ⟨ok, bytes⟩ := t.storeOwn_made (n := n) (v := v) hm hv (s.leaves u w).2 ag.who
    exact ⟨_, Prod.ext rfl ok, bytes, (t.storeOwn_cores _ _ _ _).ctx u⟩
  · next repl =>
    obtain ⟨ok, bytes⟩ := State.storeSpread_single_made (n := n) (v := v) hm hv ag w.addr
      fun i hi => (hf i hi).resolve_left repl
    exact ⟨_, Prod.ext rfl ok, bytes, (t.storeSpread_cores _ _ _ _ _ _).ctx u⟩

theorem State.storeHome_single_made (hl : w.loc = false)
    (hf : ∀ i < n, t.followsAt (s.leaves u w).2 (k + i) = true)
    (e : (s.leaves u w).1.locateAll ag w.addr = (t, .ok ([k], []))) :
    ∃ q : State, s.storeHome u ag w = (q, .ok ()) ∧
      (∀ i < n, Memory.byte q.mem (k + i) = BitVec.ofNat 8 (v / 256 ^ i)) ∧ q.ctx u = t.ctx u := by
  obtain ⟨ok, bytes⟩ := State.storeSpread_single_made (n := n) (v := v) hm hv ag w.addr hf
  have same := (t.storeSpread_cores ag (some (s.leaves u w).2) w.addr ([k], []) (bytesOf n v) false).ctx u
  refine ⟨_, ?_, bytes, same⟩
  rw [State.storeHome_spread hl e, hw]
  dsimp only
  rw [ok]
  exact Prod.ext rfl ok

end

/-! ### A store that reaches some copies of its page (R378) -/

section
variable {s t : State} {u : CtxRef} {w : StoreReq} {r : List StoreReq} (h : (s.ctx u).stores = w :: r)
include h

theorem State.setHead_stores (f : StoreReq → StoreReq) : ((s.setHead u f).ctx u).stores = f w :: r := by
  unfold State.setHead
  dsimp only
  rw [h]
  simp

/-- A store that leaves for its home carries its place in the order of R316. -/
theorem State.leaves_stores :
    ∃ x : StoreReq, ((s.leaves u w).1.ctx u).stores = x :: r ∧ x.mark = some (s.leaves u w).2 := by
  unfold State.leaves
  split
  · next m hm => exact ⟨w, h, hm⟩
  · exact ⟨_, State.setHead_stores (s := s.advanceClock (dieOf u.core)) h _, rfl⟩

theorem State.storeHome_partial {ag : Agent} {ks : List Nat} {left : List DieNum} (hl : w.loc = false)
    (e : (s.leaves u w).1.locateAll ag w.addr = (t, .ok (ks, left))) (hm : ks.find? t.moving = none)
    (hv : (t.verifyAll ks).2 = true) (hleft : left ≠ []) :
    ∃ q : State, s.storeHome u ag w = (q, .wait) ∧
      ∃ x : StoreReq, (q.ctx u).stores = x :: r ∧ x.parted = true ∧ x.mark = some (s.leaves u w).2 := by
  obtain ⟨x, hx, mark⟩ := State.leaves_stores h
  have stores (d : List Byte) :
      ((t.storeSpread ag (some (s.leaves u w).2) w.addr (ks, left) d false).1.ctx u).stores = x :: r := by
    rw [(t.storeSpread_cores ag _ w.addr (ks, left) d false).ctx u, (State.locateAll_cores_of_left e hleft).ctx u]
    exact hx
  have ok (d : List Byte) := congrArg Prod.snd
    (t.storeSpread_ok (ag := ag) (m := (s.leaves u w).2) (va := w.addr) (left := left) (d := d) (ref := false) hm hv)
  rw [State.storeHome_spread hl e]
  dsimp only
  rw [ok]
  dsimp only
  rw [if_neg (by simpa using hleft)]
  exact ⟨_, rfl, { x with parted := true }, State.setHead_stores (stores _) _, rfl, mark⟩

end

/-! ### An atomic at its home (R132-R135) -/

section
variable {s s' t : State} {ag : Agent} {k n : Nat} {l : List Byte} {x : Option Nat}
  {f : State → Nat → State × Option Nat}

/-- A write of an atomic that follows at each of its bytes is made. -/
theorem State.storeAt_made {v : Nat} (hm : s.moving k = false)
    (hv : isHostKey k = false → (s.verify (k / 64)).2 = true)
    (hf : ∀ i < n, ((s.verifyAll [k]).1.advanceClock ag.die).followsAt
      (((s.verifyAll [k]).1.advanceClock ag.die).markOf ag.die) (k + i) = true) (i : Nat) (hi : i < n) :
    Memory.byte (s.storeAt ag [k] (bytesOf n v) false).1.mem (k + i) = BitVec.ofNat 8 (v / 256 ^ i) := by
  unfold State.storeAt
  rw [s.find_moving_single hm]
  dsimp only
  rw [if_pos (s.verifyAll_single hv)]
  unfold State.writeAt
  rw [State.writeAs_all _ false fun j hj => hf j (by rwa [bytesOf_length] at hj)]
  exact Memory.byte_write_bytesOf _ _ _ _ _ hi

/-- What becomes of a read-modify-write whose word is read. -/
theorem State.rmwAt_ok (hm : s.moving k = false) :
    s.readKey k n = (s', .ok l) → f (s'.readsFrom ag.die k n) (ofBytes l) = (t, x) → s.rmwAt ag [k] n f
      = (match x with
        | some v => (t.storeAt ag [k] (bytesOf n v) false).1
        | none => t, .ok (ofBytes l)) := by
  intro hk hx
  unfold State.rmwAt
  obtain ⟨read, hread⟩ : ∃ f, s.readKey = f := ⟨_, rfl⟩
  rw [hread] at hk ⊢
  rw [List.headD_cons, hm]
  dsimp only
  rw [hk]
  dsimp only
  rw [hx]
  cases x <;> rfl

end

end Sys2Proof.Machine
end

section
/-! PROOFS. Stores and queued atomics are performed at their homes, or leave for their devices (O19). -/

namespace Sys2Proof.Machine

/-! ### What a queued atomic writes (R132-R134) -/

section
variable {s : State} {u : CtxRef} {w : StoreReq} {n old : Nat}

theorem State.storeValue_amo {op : AmoOp} (h : w.amo = some op) :
    s.storeValue u w n old = (s, some (amoResult op (8 * n) old w.data.toNat)) := by
  unfold State.storeValue
  rw [h]

theorem State.storeValue_owed_amo {op : AmoOp} {v : Word} (ha : w.amo = none) (hr : w.ret = some (.amo op v)) :
    s.storeValue u w n old = (s, some (amoResult op (8 * n) old v.toNat)) := by
  unfold State.storeValue
  rw [ha, hr]
  rfl

theorem State.storeValue_owed_cas {x v : Word} (ha : w.amo = none) (hr : w.ret = some (.cas x v)) :
    s.storeValue u w n old
      = (s, if old = x.toNat % 2 ^ (8 * n) then some (v.toNat % 2 ^ (8 * n)) else none) := by
  unfold State.storeValue
  rw [ha, hr]
  exact (apply_ite (Prod.mk s) _ _ _).symm

theorem State.storeValue_owed_famo {op : FamoOp} {rm : Rm} {v : Word} {b : Bool} (ha : w.amo = none)
    (hr : w.ret = some (.famo op rm v b)) :
    ∃ (t : State) (draw : Nat),
      (rm ≠ .rsr → t = s) ∧ (rm = .rsr → (t, draw) = s.otherDraw u.core w.handle) ∧
      let k := famoResult op rm (if n = 4 then .f32 else .f64) draw old v.toNat
      s.storeValue u w n old = (t.raiseTask u.core w.handle k.flags, some k.code) := by
  have value : s.storeValue u w n old =
      let d := if rm = .rsr then s.otherDraw u.core w.handle else (s, 0)
      let k := famoResult op rm (if n = 4 then .f32 else .f64) d.2 old v.toNat
      (d.1.raiseTask u.core w.handle k.flags, some k.code) := by
    unfold State.storeValue
    rw [ha, hr]
  by_cases hm : rm = .rsr
  · rw [if_pos hm] at value
    exact ⟨_, _, fun hn => absurd hm hn, fun _ => rfl, value⟩
  · rw [if_neg hm] at value
    exact ⟨s, 0, fun _ => rfl, fun e => absurd e hm, value⟩

end

/-! ### The request of a store (Table 12.1) -/

section
variable {s : State} {u : CtxRef} {w : StoreReq} {dev : DevNum} {p : Plane} {q : BitVec 32}

theorem State.storeRequest_write (ha : w.amo = none) (hr : w.ret = none) :
    s.storeRequest u w dev p q
      = .write dev p q (s.partOf u.core) w.addr (bytesOf w.size.bytes w.data.toNat) [] := by
  unfold State.storeRequest
  rw [ha, hr]

theorem State.storeRequest_amo {op : AmoOp} (ha : w.amo = some op) :
    s.storeRequest u w dev p q
      = .atomic dev p q (s.partOf u.core) w.addr (some op) (if w.size.bytes = 4 then .w else .d) w.data 0 := by
  unfold State.storeRequest
  rw [ha]

theorem State.storeRequest_owed {op : LoadOp} (ha : w.amo = none) (hr : w.ret = some op) :
    s.storeRequest u w dev p q
      = .atomic dev p q (s.partOf u.core) w.addr op.wire.1 (if w.size.bytes = 4 then .w else .d) op.wire.2.1
          op.wire.2.2 := by
  unfold State.storeRequest
  rw [ha, hr]

end

/-! ### The step (R120, R122, R132, R378) -/

section
variable {s : State} {u : CtxRef} {w : StoreReq} {r : List StoreReq} (h : (s.ctx u).stores = w :: r)
  (hw : (s.waiting (.store u) || s.heldByLoad u (s.side w.addr) 0) = false) (hp : w.parted = false)
  (hr : ∀ dev, s.target w.addr ≠ .remote dev)
include h hw hp hr

theorem execStorePerformed_made {t : State} {k : Nat} (ha : w.amo = none) (hret : w.ret = none)
    (e : if w.loc then (s.leaves u w).1.locateWrite (s.storeAgent u w) w.addr .own = (t, .ok [k])
      else (s.leaves u w).1.locateAll (s.storeAgent u w) w.addr = (t, .ok ([k], [])))
    (hm : t.moving k = false) (hv : isHostKey k = false → (t.verify (k / 64)).2 = true)
    (hf : ∀ i < w.size.bytes, w.loc = true ∧ s.replicated (s.storeAgent u w) w.addr = true ∨
      t.followsAt (s.leaves u w).2 (k + i) = true) :
    ∃ q : State, exec (.storePerformed u) s = .next (q.storeDone u w) ∧
      (∀ i < w.size.bytes, Memory.byte q.mem (k + i) = BitVec.ofNat 8 (w.data.toNat / 256 ^ i)) ∧
      q.ctx u = t.ctx u := by
  have plain : (w.amo.isSome || w.ret.isSome) = false := by simp [ha, hret]
  have made : ∃ q : State, s.storeHome u (s.storeAgent u w) w = (q, .ok ()) ∧
      (∀ i < w.size.bytes, Memory.byte q.mem (k + i) = BitVec.ofNat 8 (w.data.toNat / 256 ^ i)) ∧
      q.ctx u = t.ctx u := by
    cases hl : w.loc with
    | true =>
      rw [if_pos hl] at e
      exact State.storeHome_local_made hm hv rfl hl (fun i hi => (hf i hi).imp_left And.right) e
    | false =>
      rw [if_neg (Bool.not_eq_true _ ▸ hl)] at e
      refine State.storeHome_single_made hm hv rfl hl (fun i hi => (hf i hi).resolve_left fun hloc => ?_) e
      exact Bool.false_ne_true (hl.symm.trans hloc.1)
  obtain ⟨q, hq, bytes, same⟩ := made
  exact ⟨q, execStorePerformed_plain h hw hp hr plain hq, bytes, same⟩

theorem execStorePerformed_partial {t : State} {ks : List Nat} {left : List DieNum} (ha : w.amo = none)
    (hret : w.ret = none) (hl : w.loc = false)
    (e : (s.leaves u w).1.locateAll (s.storeAgent u w) w.addr = (t, .ok (ks, left)))
    (hm : ks.find? t.moving = none) (hv : (t.verifyAll ks).2 = true) (hleft : left ≠ []) :
    ∃ q : State, exec (.storePerformed u) s = .next q ∧
      ∃ x : StoreReq, (q.ctx u).stores = x :: r ∧ x.parted = true ∧ x.mark = some (s.leaves u w).2 := by
  have plain : (w.amo.isSome || w.ret.isSome) = false := by simp [ha, hret]
  obtain ⟨q, hq, x⟩ := State.storeHome_partial h hl e hm hv hleft
  exact ⟨q, execStorePerformed_plain h hw hp hr plain hq, x⟩

theorem execStorePerformed_rmw {s1 s2 s3 : State} {k : Nat} {l : List Byte} {x : Option Nat}
    (ha : w.amo ≠ none ∨ w.ret ≠ none) (e : s.locateWrite (s.storeAgent u w) w.addr .never = (s1, .ok [k]))
    (hm : s1.moving k = false) : s1.readKey k w.size.bytes = (s2, .ok l) →
    (s2.readsFrom (s.storeAgent u w).die k w.size.bytes).storeValue u w w.size.bytes (ofBytes l) = (s3, x) →
    exec (.storePerformed u) s = .next (State.storeDone (match x with
      | some v => (s3.storeAt (s.storeAgent u w) [k] (bytesOf w.size.bytes v) false).1
      | none => s3) u w) := by
  intro hk hx
  have atomic : (w.amo.isSome || w.ret.isSome) = true := by
    simpa [Option.isSome_iff_ne_none] using ha
  refine execStorePerformed_atomic (g := .ok (ofBytes l)) h hw hp hr atomic ?_
  unfold State.storeRmw
  rw [State.rmw_here hr, State.rmwHere_located e]
  exact State.rmwAt_ok (f := fun s old => s.storeValue u w w.size.bytes old) hm hk hx

end

/-- Settles O19: each way in which the head of a queue can go, by the rule of that way. -/
theorem storesPerform : Obligations.StoresPerform := by
  have free {s : State} {u : CtxRef} {w : StoreReq} (hw : s.waiting (.store u) = false)
      (hh : s.heldByLoad u (s.side w.addr) 0 = false) :
      (s.waiting (.store u) || s.heldByLoad u (s.side w.addr) 0) = false := by rw [hw, hh]; rfl
  unfold Obligations.StoresPerform
  refine ⟨?_, ?_, ?_, ?_, ?_, ?_, ?_, ?_⟩
  · intro s t u w r k h hw hh ha hret hp hr ag l e hm hv hf
    exact execStorePerformed_made h (free hw hh) hp hr ha hret e hm hv hf
  · exact fun s t u w r h ht a => execStorePerformed_byte h ht
  · intro s u w r h
    refine ⟨fun hh => execStorePerformed_held h ?_, fun hw => execStorePerformed_held h ?_,
      fun hh hw hp => execStorePerformed_parted h (free hw hh) hp⟩
    · rw [hh, Bool.or_true]
    · rw [hw, Bool.true_or]
  · intro s t u w r ks left h hw hh ha hret hp hl hr l e hm hv hleft
    exact execStorePerformed_partial h (free hw hh) hp hr ha hret hl e hm hv hleft
  · exact fun s u h => execStorePerformed_nil h
  · intro s u w r dev h hw hh hp hr z part
    refine ⟨execStorePerformed_left h (free hw hh) hp hr, fun hq =>
      ⟨execStorePerformed_unreached h (free hw hh) hp hr hq, fun p hs =>
        ⟨_, execStorePerformed_sent h (free hw hh) hp hr hq hs, fun q => ⟨?_, ?_, ?_, ?_⟩⟩⟩⟩
    · exact State.storeRequest_write
    · exact fun op ha => State.storeRequest_amo ha
    · exact fun op v ha hret => State.storeRequest_owed ha hret
    · exact fun x v ha hret => State.storeRequest_owed ha hret
  · intro s s1 s2 s3 u w r k l x h hw hh ha hp hr ag n e hm hk hx
    refine ⟨_, execStorePerformed_rmw h (free hw hh) hp hr ha e hm hk hx, ?_, ?_⟩
    · rintro rfl
      rfl
    · rintro v rfl hm3 hv hf i hi
      exact State.storeAt_made hm3 hv hf i hi
  · exact fun s u w n old => ⟨fun op => State.storeValue_amo, fun op v => State.storeValue_owed_amo,
      fun x v => State.storeValue_owed_cas, fun op rm v b => State.storeValue_owed_famo⟩

end Sys2Proof.Machine
end

section
/-! PROOFS. The staging set and bound registers (O31: R153, R161, Table 5.1), and guards (O34: R160, Table 5.2). -/

namespace Sys2Proof.Machine

/-! ### The staging set (Table 5.1) -/

/-- The staging set after a TREG (Table 5.1). -/
def stagedPair (g : Vector Word 32) (n : Fin 8) (v v' : Word) : Vector Word 32 :=
  vset (vset g (Fin.ofNat 32 (3 + 2 * n.val)) v) (Fin.ofNat 32 (4 + 2 * n.val)) v'

theorem vget_stagedPair (g : Vector Word 32) (n : Fin 8) (v v' : Word) (w : Fin 32) : vget (stagedPair g n v v') w
    = if w.val = 3 + 2 * n.val then v else if w.val = 4 + 2 * n.val then v' else vget g w := by
  have place (k : Nat) (hk : k < 32) : Fin.ofNat 32 k = w ↔ w.val = k := by
    rw [Fin.ext_iff, Fin.val_ofNat, Nat.mod_eq_of_lt hk, eq_comm]
  simp only [stagedPair, vget_vset, place (3 + 2 * n.val) (by omega), place (4 + 2 * n.val) (by omega)]
  by_cases h : w.val = 3 + 2 * n.val
  · rw [if_pos h, if_pos h, if_neg (by omega)]
  · rw [if_neg h, if_neg h]

section
variable (s : State)

theorem exec_tset (w : Fin 32) (a : XReg) (h : ¬ s.acting.Awaits [a]) :
    exec (.tset w a) s = .next (s.retire s.acting.issue fun x => x.stage w (x.getX a)) :=
  s.plain_of_not_awaits _ _ _ h

theorem exec_tseti (w : Fin 32) (imm : BitVec 16) :
    exec (.tseti w imm) s = .next (s.retire s.acting.issue fun x => x.stage w (signedImm imm)) :=
  s.plain_of_not_awaits _ _ _ s.acting.not_awaits_nil

theorem exec_treg (n : Fin 8) (a b : XReg) (h : ¬ s.acting.Awaits [a, b]) :
    exec (.treg n a b) s = .next (s.becomes { s.acting with
      staging := stagedPair s.acting.staging n (s.acting.getX a) (s.acting.getX b), pc := s.acting.pc + 4 }) := by
  change execTreg n a b s = _
  rw [execTreg, s.plain_of_not_awaits _ _ _ h, State.retire]
  unfold Context.stage
  rfl

theorem exec_tclr :
    exec .tclr s = .next (s.retire s.acting.issue fun x => { x with staging := Vector.replicate 32 0 }) :=
  s.plain_of_not_awaits _ _ _ s.acting.not_awaits_nil

/-! ### A change of a core apart from its contexts -/

section
variable (c : CoreId) (k : Core)

/-- A context stays as it is when its core changes otherwise. -/
theorem State.ctx_setCore (h : k.ctxs = (s.core c).ctxs) (u : CtxRef) : (s.setCore c k).ctx u = s.ctx u := by
  by_cases hc : c = u.core
  · subst hc
    rw [State.ctx, State.core_setCore_same, h]
    rfl
  · rw [State.ctx, State.core_setCore_other _ _ _ _ hc]
    rfl

theorem State.me_setCore (h : k.cur = (s.core c).cur) : (s.setCore c k).me = s.me := by
  by_cases hc : c = s.focus
  · subst hc
    rw [State.me, setCore_focus, State.core_setCore_same, h]
    rfl
  · rw [State.me, setCore_focus, State.core_setCore_other _ _ _ _ hc]
    rfl

theorem State.acting_setCore (hx : k.ctxs = (s.core c).ctxs) (hu : k.cur = (s.core c).cur) :
    (s.setCore c k).acting = s.acting := by
  rw [State.acting, s.me_setCore c k hu, s.ctx_setCore c k hx]

end

/-- A context's core differs in its contexts alone once one is set. -/
theorem State.core_setCtx (u : CtxRef) (x : Context) (c : CoreId) :
    ∃ l, (s.setCtx u x).core c = { s.core c with ctxs := l } := by
  by_cases hc : u.core = c
  · subst hc
    exact ⟨_, s.core_setCtx_same u x⟩
  · exact ⟨(s.core c).ctxs, s.core_setCtx_other u x c hc⟩

/-- A register is written by an acting context that stands where it stood. -/
theorem State.retire_puts {t : State} (h : t.acting.pc = s.acting.pc) (d : XReg) (v : Word) :
    t.retire s.acting.issue (fun x => x.setX d v) = t.puts d v := by
  unfold State.puts
  rw [h]
  rfl

/-! ### Bound registers (R161) -/

theorem exec_setb (n : BNum) (a : XReg) (h : ¬ s.acting.Awaits [a]) : exec (.setb n a) s
    = .next (s.setCore s.focus { s.core s.focus with
        bregs := vset (s.core s.focus).bregs n (BitVec.ofNat 32 (s.acting.getX a).toNat) }).onward := by
  change execSetb n a s = _
  simp only [execSetb, Context.stalls_of_not_awaits h, BitVec.ofNat_toNat]
  exact congrArg Host.Outcome.next (State.retire_onward (congrArg Context.pc (State.acting_setCore _ _ _ rfl rfl)))

theorem exec_getb (d : XReg) (n : BNum) (h : ¬ s.acting.Awaits [d]) :
    exec (.getb d n) s = .next (s.puts d (BitVec.ofNat 64 (vget (s.core s.focus).bregs n).toNat)) := by
  rw [← naturalImm_eq]
  exact s.plain_of_not_awaits _ _ _ h

end

/-- Settles O31: each form by its effect, a register's value being a word of its width. -/
theorem stagingAndBounds : Obligations.StagingAndBounds := by
  unfold Obligations.StagingAndBounds
  exact ⟨exec_tset, exec_tseti, fun s n a b h => ⟨_, exec_treg s n a b h, vget_stagedPair _ n _ _⟩, exec_tclr, exec_setb,
    exec_getb⟩

/-! ### Guards (R160) -/

section
variable {n : Nat} (p : Fin n → Bool)

theorem firstFin_eq_some_iff (i : Fin n) : firstFin p = some i ↔ p i ∧ ∀ j, j < i → p j = false := by
  rw [firstFin, ← Fin.find?_eq_find?_finRange, Fin.find?_eq_some_iff]

theorem firstFin_eq_none_iff : firstFin p = none ↔ ∀ i, p i = false := by
  rw [firstFin, ← Fin.find?_eq_find?_finRange, Fin.find?_eq_none_iff]

end

section
variable (s : State)

section
variable (d : XReg) (h : ¬ s.acting.Awaits [d])
include h

/-- GNEW opens the guard that it finds (R160). -/
theorem exec_gnew_opens {g : GuardNum}
    (hg : (firstFin fun g : GuardNum => vget (s.core s.focus).guards g == .free) = some g) :
    exec (.gnew d) s = .next ((s.setCore s.focus { s.core s.focus with
      guards := vset (s.core s.focus).guards g .opened }).puts d (BitVec.ofNat 64 g.val)) := by
  change execGnew d s = _
  simp only [execGnew, Context.stalls_of_not_awaits h, Bool.false_eq_true, if_false, hg]
  refine congrArg Host.Outcome.next (s.retire_puts ?_ d _)
  exact congrArg Context.pc (State.acting_setCore _ _ _ rfl rfl)

theorem exec_gnew_none (hg : (firstFin fun g : GuardNum => vget (s.core s.focus).guards g == .free) = none) :
    exec (.gnew d) s = .next (s.puts d (BitVec.ofNat 64 (2 ^ 64 - 1))) := by
  change execGnew d s = _
  simp only [execGnew, Context.stalls_of_not_awaits h, Bool.false_eq_true, if_false, hg]
  rfl

end

/-- The guards of a core stay as they are while its context goes on. -/
theorem State.onward_guards (c : CoreId) : (s.onward.core c).guards = (s.core c).guards := by
  obtain ⟨l, hl⟩ := s.core_setCtx s.me { s.acting with pc := s.acting.pc + 4 } c
  exact (congrArg Core.guards hl).trans rfl

variable (a : XReg) (h : ¬ s.acting.Awaits [a])
include h

theorem exec_gok : exec (.gok a) s
    = .next (if vget (s.core s.focus).guards (Fin.ofNat 32 (s.acting.getX a).toNat) = .opened
      then s.onward.commit s.focus (Fin.ofNat 32 (s.acting.getX a).toNat) else s.onward) := by
  rw [← s.onward_guards]
  change execGok a s = _
  simp only [execGok, Context.stalls_of_not_awaits h]
  rfl

theorem exec_gno : exec (.gno a) s
    = .next (if vget (s.core s.focus).guards (Fin.ofNat 32 (s.acting.getX a).toNat) = .opened
      then s.onward.squashGuard s.focus (Fin.ofNat 32 (s.acting.getX a).toNat) else s.onward) := by
  rw [← s.onward_guards]
  change execGno a s = _
  simp only [execGno, Context.stalls_of_not_awaits h]
  rfl

end

/-- Settles O34: the guard that GNEW finds is the lowest FREE one, and GOK and GNO turn on the guard's state. -/
theorem guards : Obligations.Guards := by
  unfold Obligations.Guards
  refine ⟨fun s d g h hg hlow => ?_, fun s d h hg => ?_, fun s a h => ⟨fun hg => ⟨?_, ?_⟩, fun hg => ⟨?_, ?_⟩⟩⟩
  · refine exec_gnew_opens s d h ((firstFin_eq_some_iff _ g).2 ⟨beq_iff_eq.2 hg, fun j hj => ?_⟩)
    exact beq_eq_false_iff_ne.2 (hlow j hj)
  · exact exec_gnew_none s d h ((firstFin_eq_none_iff _).2 fun g => beq_eq_false_iff_ne.2 (hg g))
  · rw [exec_gok s a h, if_neg hg]
  · rw [exec_gno s a h, if_neg hg]
  · rw [exec_gok s a h, if_pos hg]
  · rw [exec_gno s a h, if_pos hg]

end Sys2Proof.Machine
end

section
/-! PROOFS. Groups and priority (O36: R165-R167, Table 5.5). -/

namespace Sys2Proof.Machine

/-! ### Contexts that a step changes one after another -/

/-- The last value set in a context stands. -/
@[simp] theorem State.setCtx_setCtx (s : State) (u : CtxRef) (x y : Context) :
    (s.setCtx u x).setCtx u y = s.setCtx u y := by
  simp [State.setCtx, State.setCore, State.core, vget, vset]

/-- A change of each context of a list, made once, leaves the others as they are. -/
theorem State.foldl_setCtx_ctx {F : State → CtxRef → State} {f : Nat → Context → Context}
    (hF : ∀ s u, F s u = s.setCtx u (f s.now (s.ctx u))) {l : List CtxRef} (hl : l.Nodup) (s : State) (v : CtxRef) :
    (l.foldl F s).ctx v = if v ∈ l then f s.now (s.ctx v) else s.ctx v := by
  induction l generalizing s with
  | nil => rfl
  | cons a r ih =>
    obtain ⟨ha, hr⟩ := List.nodup_cons.1 hl
    rw [List.foldl_cons, ih hr, hF]
    change (if v ∈ r then f s.now ((s.setCtx a _).ctx v) else (s.setCtx a _).ctx v) = _
    by_cases hv : v = a
    · subst hv
      rw [if_neg ha, State.ctx_setCtx_same, if_pos List.mem_cons_self]
    · rw [State.ctx_setCtx_other _ _ _ _ (Ne.symm hv)]
      simp only [List.mem_cons, hv, false_or]

/-! ### The docent's choice leaves what waits and where it stands (R14) -/

/-- A choice sets one context running, or none. -/
theorem State.dispatch_ctx (s : State) (c : CoreId) (u : CtxRef) :
    (s.dispatch c).ctx u = s.ctx u ∨ (s.dispatch c).ctx u = { s.ctx u with state := .running, ranAt := s.now } := by
  unfold State.dispatch
  split
  · exact .inl rfl
  · unfold State.select
    dsimp only
    split
    · exact .inl rfl
    · next a _ =>
      have set : (s.runs c a).ctx u
          = (s.setCtx ⟨c, a⟩ { s.ctx ⟨c, a⟩ with state := .running, ranAt := s.now }).ctx u :=
        State.ctx_setCore _ _ _ (by rfl) u
      rw [set]
      by_cases h : (⟨c, a⟩ : CtxRef) = u
      · subst h
        exact .inr (State.ctx_setCtx_same ..)
      · exact .inl (State.ctx_setCtx_other _ _ _ _ h)

/-- The groups and the cores' arrived bits are as before. -/
def State.SameBarriers (s t : State) : Prop := t.groups = s.groups ∧ ∀ c, (t.core c).arrived = (s.core c).arrived

theorem State.SameBarriers.refl (s : State) : s.SameBarriers s := ⟨rfl, fun _ => rfl⟩

theorem State.SameBarriers.trans {s t q : State} (h : s.SameBarriers t) (k : t.SameBarriers q) : s.SameBarriers q :=
  ⟨k.1.trans h.1, fun c => (k.2 c).trans (h.2 c)⟩

theorem State.setCore_barriers (s : State) (c : CoreId) (k : Core) (h : k.arrived = (s.core c).arrived) :
    s.SameBarriers (s.setCore c k) := by
  refine ⟨rfl, fun d => ?_⟩
  by_cases hc : c = d
  · subst hc
    rw [State.core_setCore_same, h]
  · rw [State.core_setCore_other _ _ _ _ hc]

theorem State.setCtx_barriers (s : State) (u : CtxRef) (x : Context) : s.SameBarriers (s.setCtx u x) :=
  s.setCore_barriers u.core _ rfl

theorem State.dispatch_barriers (s : State) (c : CoreId) : s.SameBarriers (s.dispatch c) := by
  unfold State.dispatch
  split
  · exact .refl s
  · unfold State.select
    dsimp only
    split
    · exact .refl s
    · exact (s.setCtx_barriers _ _).trans (State.setCore_barriers _ _ _ rfl)

/-! ### A generation completes (R166) -/

/-- A context that a generation of a group releases: a first arrival goes on, another stands at its GBAR again. -/
def Context.released (again : Bool) (now : Nat) (x : Context) : Context :=
  { x with pc := if again then x.pc else x.pc + 4, state := .ready, park := .none, readyAt := now }

/-- A core's contexts that wait in a barrier, first arrivals or again, are released. -/
def State.releases (s : State) (c : CoreId) (g : GroupNum) (again : Bool) : State :=
  (s.inBarrier c g again).foldl
    (fun s u => if again then s.wakes u else (s.setCtx u { s.ctx u with pc := (s.ctx u).pc + 4 }).wakes u) s

/-- A core takes a generation's clock, and has arrived no more. -/
def State.clears (g : GroupNum) (k : Clock) (s : State) (c : CoreId) : State :=
  let t := s.mergeClock (dieOf c) k
  t.setCore c { t.core c with arrived := (t.core c).arrived.filter fun x => x != g }

/-- A core passes a generation. -/
def State.passes (g : GroupNum) (k : Clock) (s : State) (c : CoreId) : State :=
  ((s.clears g k c).releases c g false).releases c g true

/-- A group begins its next generation. -/
def State.nextGeneration (s : State) (g : GroupNum) : State :=
  s.setGroup g { s.group g with
    gen := (s.group g).gen + 1, arrived := 0, state := .idle, clock := Vector.replicate 4 0 }

theorem State.ctx_nextGeneration (s : State) (g : GroupNum) (u : CtxRef) : (s.nextGeneration g).ctx u = s.ctx u := rfl

theorem State.memberCores_nextGeneration (s : State) (g : GroupNum) :
    (s.nextGeneration g).memberCores g = s.memberCores g := by
  unfold State.memberCores State.nextGeneration
  rw [State.group_setGroup_same]
  rfl

theorem State.generation_eq (s : State) (g : GroupNum) : s.generation g
    = ((s.memberCores g).foldl (State.passes g (s.group g).clock) (s.nextGeneration g)).choose (s.memberCores g) := by
  rw [← s.memberCores_nextGeneration]
  rfl

theorem State.mem_inBarrier_iff (s : State) (c : CoreId) (g : GroupNum) (again : Bool) (u : CtxRef) :
    u ∈ s.inBarrier c g again ↔ u.core = c ∧ (s.ctx u).state = .parked ∧ (s.ctx u).park = .gbar g again := by
  obtain ⟨d, k⟩ := u
  simp only [State.inBarrier, List.mem_filter, List.mem_map, List.mem_finRange, true_and, CtxRef.mk.injEq,
    exists_eq_right, Bool.and_eq_true, beq_iff_eq, eq_comm (a := c)]

theorem State.inBarrier_nodup (s : State) (c : CoreId) (g : GroupNum) (again : Bool) : (s.inBarrier c g again).Nodup :=
  ((List.nodup_finRange 8).map fun _ _ e => congrArg CtxRef.ctx e).filter _

/-- The step that releases a context is one change of it. -/
theorem State.release_eq (again : Bool) (s : State) (u : CtxRef) :
    (if again then s.wakes u else (s.setCtx u { s.ctx u with pc := (s.ctx u).pc + 4 }).wakes u)
      = s.setCtx u ((s.ctx u).released again s.now) := by
  cases again with
  | true => rfl
  | false =>
    simp only [Bool.false_eq_true, if_false, State.wakes, State.ctx_setCtx_same, State.setCtx_setCtx]
    rfl

theorem State.releases_ctx (s : State) (c : CoreId) (g : GroupNum) (again : Bool) (u : CtxRef) :
    (s.releases c g again).ctx u = if u.core = c ∧ (s.ctx u).state = .parked ∧ (s.ctx u).park = .gbar g again
      then (s.ctx u).released again s.now else s.ctx u := by
  unfold State.releases
  rw [State.foldl_setCtx_ctx (State.release_eq again) (s.inBarrier_nodup c g again)]
  simp only [State.mem_inBarrier_iff]

theorem State.releases_barriers (s : State) (c : CoreId) (g : GroupNum) (again : Bool) :
    s.SameBarriers (s.releases c g again) := by
  unfold State.releases
  refine foldl_keeps s.SameBarriers _ (fun t u h => h.trans ?_) _ s (.refl s)
  rw [State.release_eq]
  exact t.setCtx_barriers _ _

/-- What one element of a list brings about, and the others keep or bring about, holds after the list. -/
theorem foldl_reaches {α β : Type} {P Q : β → Prop} {f : β → α → β} {a : α} (hP : ∀ b x, P b → P (f b x) ∨ Q (f b x))
    (hQ : ∀ b x, Q b → Q (f b x)) (ha : ∀ b, P b → Q (f b a)) {l : List α} (mem : a ∈ l) {b : β} (h : P b ∨ Q b) :
    Q (l.foldl f b) := by
  induction l generalizing b with
  | nil => cases mem
  | cons x r ih =>
    rcases List.mem_cons.1 mem with rfl | hr
    · exact foldl_keeps Q f hQ r _ (h.elim (ha b) (hQ b a))
    · exact ih hr (h.elim (hP b x) fun q => .inr (hQ b x q))

section
variable {u : CtxRef} {g : GroupNum} {again : Bool} {pc : Word} {s : State} {c : CoreId}

/-- A context waits in a group's barrier, at an instruction. -/
def State.WaitsIn (u : CtxRef) (g : GroupNum) (again : Bool) (pc : Word) (s : State) : Prop :=
  (s.ctx u).state = .parked ∧ (s.ctx u).park = .gbar g again ∧ (s.ctx u).pc = pc

/-- A context waits no more, and stands at an instruction. -/
def State.StandsAt (u : CtxRef) (pc : Word) (s : State) : Prop := (s.ctx u).state ≠ .parked ∧ (s.ctx u).pc = pc

theorem State.releases_stands (b : Bool) (h : s.StandsAt u pc) : (s.releases c g b).StandsAt u pc := by
  unfold State.StandsAt
  rw [State.releases_ctx, if_neg fun w => h.1 w.2.1]
  exact h

/-- Those that wait in the barrier otherwise, or on another core, wait on. -/
theorem State.releases_waits (b : Bool) (h : s.WaitsIn u g again pc) (hb : u.core ≠ c ∨ b ≠ again) :
    (s.releases c g b).WaitsIn u g again pc := by
  obtain ⟨hs, hp, hc⟩ := h
  unfold State.WaitsIn
  rw [State.releases_ctx, if_neg]
  · exact ⟨hs, hp, hc⟩
  · rintro ⟨hu, -, hg⟩
    rcases hb with hb | hb
    · exact hb hu
    · exact hb (Park.gbar.inj (hg.symm.trans hp)).2

theorem State.releases_released (h : s.WaitsIn u g again pc) (hu : u.core = c) :
    (s.releases c g again).StandsAt u (if again then pc else pc + 4) := by
  obtain ⟨hs, hp, hc⟩ := h
  unfold State.StandsAt
  rw [State.releases_ctx, if_pos ⟨hu, hs, hp⟩, ← hc]
  exact ⟨nofun, rfl⟩

theorem State.clears_ctx (k : Clock) (u : CtxRef) : (s.clears g k c).ctx u = s.ctx u :=
  State.ctx_setCore _ _ _ (by rfl) u

theorem State.passes_stands (k : Clock) (h : s.StandsAt u pc) : (s.passes g k c).StandsAt u pc := by
  have cleared : (s.clears g k c).StandsAt u pc := by
    unfold State.StandsAt
    rw [State.clears_ctx]
    exact h
  exact State.releases_stands true (State.releases_stands false cleared)

theorem State.clears_waits (k : Clock) (h : s.WaitsIn u g again pc) : (s.clears g k c).WaitsIn u g again pc := by
  unfold State.WaitsIn
  rw [State.clears_ctx]
  exact h

/-- The contexts of other cores wait on. -/
theorem State.passes_waits (k : Clock) (h : s.WaitsIn u g again pc) (hu : u.core ≠ c) :
    (s.passes g k c).WaitsIn u g again pc :=
  State.releases_waits true (State.releases_waits false (State.clears_waits k h) (.inl hu)) (.inl hu)

/-- A member's contexts that wait in the barrier wait no more. -/
theorem State.passes_released (k : Clock) (h : s.WaitsIn u g again pc) (hu : u.core = c) :
    (s.passes g k c).StandsAt u (if again then pc else pc + 4) := by
  have cleared : (s.clears g k c).WaitsIn u g again pc := State.clears_waits k h
  cases again with
  | false => exact State.releases_stands true (State.releases_released cleared hu)
  | true => exact State.releases_released (State.releases_waits false cleared (.inr nofun)) hu

theorem State.dispatch_stands (h : s.StandsAt u pc) : (s.dispatch c).StandsAt u pc := by
  obtain ⟨hs, hp⟩ := h
  unfold State.StandsAt
  rcases s.dispatch_ctx c u with e | e
  · rw [e]
    exact ⟨hs, hp⟩
  · rw [e]
    exact ⟨nofun, hp⟩

theorem State.choose_stands (h : s.StandsAt u pc) (l : List CoreId) : (s.choose l).StandsAt u pc :=
  foldl_keeps (State.StandsAt u pc) State.dispatch (fun _ _ => State.dispatch_stands) l s h

/-- A generation releases every context that waits in its group's barrier (R166). -/
theorem State.generation_stands (h : s.WaitsIn u g again pc) (hu : u.core ∈ s.memberCores g) :
    (s.generation g).StandsAt u (if again then pc else pc + 4) := by
  have begun : (s.nextGeneration g).WaitsIn u g again pc := by
    unfold State.WaitsIn
    rw [State.ctx_nextGeneration]
    exact h
  have released : ((s.memberCores g).foldl (State.passes g (s.group g).clock) (s.nextGeneration g)).StandsAt u
      (if again then pc else pc + 4) := by
    refine foldl_reaches (P := State.WaitsIn u g again pc) (Q := State.StandsAt u (if again then pc else pc + 4))
      (f := State.passes g (s.group g).clock) (fun t c ht => ?_) (fun t c ht => ?_) (fun t ht => ?_) hu (.inl begun)
    · by_cases hc : u.core = c
      · exact .inr (State.passes_released (s.group g).clock ht hc)
      · exact .inl (State.passes_waits (s.group g).clock ht hc)
    · exact State.passes_stands (s.group g).clock ht
    · exact State.passes_released (s.group g).clock ht rfl
  rw [State.generation_eq]
  exact State.choose_stands released _

end

section
variable (s : State) (g : GroupNum)

theorem State.clears_arrived (k : Clock) (c : CoreId) :
    ((s.clears g k c).core c).arrived = (s.core c).arrived.filter fun x => x != g := by
  unfold State.clears
  rw [State.core_setCore_same]
  rfl

theorem State.clears_arrived_other (k : Clock) {c d : CoreId} (h : c ≠ d) :
    ((s.clears g k c).core d).arrived = (s.core d).arrived := by
  unfold State.clears
  rw [State.core_setCore_other _ _ _ _ h]
  rfl

theorem State.passes_barriers (k : Clock) (c : CoreId) : (s.clears g k c).SameBarriers (s.passes g k c) :=
  (State.releases_barriers _ _ _ _).trans (State.releases_barriers _ _ _ _)

theorem State.choose_barriers (l : List CoreId) : s.SameBarriers (s.choose l) :=
  foldl_keeps s.SameBarriers _ (fun t c h => h.trans (t.dispatch_barriers c)) l s (.refl s)

/-- A generation begins the next one, and its members' arrived bits are clear (R166). -/
theorem State.generation_group : (s.generation g).group g = { s.group g with
    gen := (s.group g).gen + 1, arrived := 0, state := .idle, clock := Vector.replicate 4 0 } := by
  have groups : (s.generation g).groups = (s.nextGeneration g).groups := by
    rw [State.generation_eq, (State.choose_barriers _ _).1]
    exact foldl_keeps (fun t : State => t.groups = (s.nextGeneration g).groups) _
      (fun t c h => (t.passes_barriers g _ c).1.trans h) _ _ rfl
  rw [State.group, groups]
  exact State.group_setGroup_same ..

theorem State.generation_arrived {c : CoreId} (hc : c ∈ s.memberCores g) :
    ((s.generation g).core c).arrived.contains g = false := by
  rw [State.generation_eq, (State.choose_barriers _ _).2]
  refine foldl_reaches (P := fun _ => True) (Q := fun t : State => (t.core c).arrived.contains g = false)
    (fun _ _ _ => .inl trivial) (fun t d h => ?_) (fun t _ => ?_) hc (.inl trivial)
  · rw [(t.passes_barriers g _ d).2]
    by_cases hd : d = c
    · subst hd
      rw [State.clears_arrived]
      simp
    · rw [State.clears_arrived_other _ _ _ hd]
      exact h
  · rw [(t.passes_barriers g _ c).2, State.clears_arrived]
    simp

/-! ### GBAR (R166) -/

/-- The acting context's core arrives at a barrier, with its clock (R166, R316). -/
def State.arrives : State :=
  (s.setCore s.focus { s.core s.focus with arrived := g :: (s.core s.focus).arrived }).setGroup g { s.group g with
    arrived := (s.group g).arrived + 1
    state := .opened
    clock := Clock.max (s.group g).clock (s.clock (dieOf s.focus)) }

theorem exec_gbar : exec (.gbar g) s
    = if s.rankOf s.focus g = none then .next (s.trapFree s.acting.issue 0x05)
      else if (s.group g).state = .broken then .next (s.trapFree s.acting.issue 0x0C)
      else if (s.core s.focus).arrived.contains g then .next (s.parkCtx s.me (.gbar g true))
      else if (s.group g).arrived.toNat + 1 = (s.group g).size then
        .next (((s.arrives g).retire s.acting.issue id).generation g)
      else .next ((s.arrives g).parkCtx s.me (.gbar g false)) := rfl

/-! ### GRANK, GSIZE, PRIO (Table 5.5, R167) -/

theorem exec_grank (d : XReg) (h : ¬ s.acting.Awaits [d]) : exec (.grank d g) s
    = .next (s.puts d (match s.rankOf s.focus g with
      | some r => BitVec.ofNat 64 r
      | none => BitVec.allOnes 64)) :=
  s.plain_of_not_awaits _ _ _ h

theorem exec_gsize (d : XReg) (h : ¬ s.acting.Awaits [d]) : exec (.gsize d g) s
    = .next (s.puts d (if s.owns s.focus g then BitVec.ofNat 64 (s.group g).size else 0)) :=
  s.plain_of_not_awaits _ _ _ h

theorem State.owns_iff (c : CoreId) : s.owns c g = true ↔ (s.group g).part.toNat = (s.partOf c).val := by
  rw [State.owns, beq_iff_eq]

theorem exec_prio (c : BitVec 2) : exec (.prio c) s
    = .next (s.becomes { s.acting with pclass := c, pused := true, pc := s.acting.pc + 4 }) := rfl

end

/-- Settles O36: GBAR by its checks in order, and what a generation does to its group, its members and those that wait. -/
theorem groups : Obligations.Groups := by
  unfold Obligations.Groups
  refine ⟨fun s g hr => ?_, fun s g hr hb => ?_, fun s g hr hb ha => ⟨fun hn => ?_, fun hn => ?_⟩, fun s g hr hb ha => ?_,
    fun s g => ?_, fun s d g h => ⟨fun r hr => ?_, fun hr => ?_, fun ho => ?_, fun ho => ?_⟩, fun s c => exec_prio s c⟩
  · obtain ⟨e, he⟩ := s.trapFree_eq 0x05
    exact ⟨e, by rw [exec_gbar, if_pos hr, he]⟩
  · obtain ⟨e, he⟩ := s.trapFree_eq 0x0C
    exact ⟨e, by rw [exec_gbar, if_neg hr, if_pos hb, he]⟩
  · rw [exec_gbar, if_neg hr, if_neg hb, if_neg (Bool.not_eq_true _ ▸ ha), if_pos hn]
    rfl
  · rw [exec_gbar, if_neg hr, if_neg hb, if_neg (Bool.not_eq_true _ ▸ ha), if_neg hn]
    rfl
  · rw [exec_gbar, if_neg hr, if_neg hb, if_pos ha]
  · have next := s.generation_group g
    refine ⟨?_, ?_, ?_, fun c => s.generation_arrived g, fun u again hu hs hp => ?_⟩
    · rw [next]
    · rw [next]
    · rw [next]
    · exact State.generation_stands ⟨hs, hp, rfl⟩ hu
  · rw [exec_grank s g d h, hr]
  · rw [exec_grank s g d h, hr]
    rfl
  · rw [exec_gsize s g d h, if_pos ((s.owns_iff g _).2 ho)]
  · rw [exec_gsize s g d h, if_neg (mt (s.owns_iff g _).1 ho)]

end Sys2Proof.Machine
end

section
/-! PROOFS. Posting: what a task's entry answers, the instructions that post, and parked posts that go on (O32: R155,
R157, R159, R287). -/

namespace Sys2Proof.Machine

/-! ### What a catalogue answers before it looks at a task (R155) -/

section
variable {s : State} {c : CoreId} {image : Vector Word 32} {extra : List Word} {grant : Bool} {who : Requester}

theorem State.enterTask_closed (hc : (s.core c).closed = true) :
    s.enterTask c image extra grant who = (s, .closed) := by
  have refused : s.tryEnter c image extra grant who = (s, .closed) := if_pos hc
  rw [State.enterTask, refused]

theorem State.enterTask_badKind (hc : (s.core c).closed = false) (hk : 6 ≤ (vget image 0).toNat % 8) :
    s.enterTask c image extra grant who = (s, .badKind) := by
  have refused : s.tryEnter c image extra grant who = (s, .badKind) :=
    (if_neg (Bool.not_eq_true _ ▸ hc)).trans (if_pos hk)
  rw [State.enterTask, refused]

theorem State.enterTask_full (hc : (s.core c).closed = false) (hk : (vget image 0).toNat % 8 < 6)
    (hf : ∀ h, (s.entry c h).state ≠ .free) : s.enterTask c image extra grant who = (s, .full) := by
  have none_free : firstFin (fun h : Handle => (vget (s.core c).entries h).state == .free) = none :=
    (firstFin_eq_none_iff _).2 fun h => beq_eq_false_iff_ne.2 (hf h)
  have refused : s.tryEnter c image extra grant who = (s, .full) := by
    refine ((if_neg (Bool.not_eq_true _ ▸ hc)).trans (if_neg (Nat.not_le.2 hk))).trans ?_
    rw [none_free]
  rw [State.enterTask, refused]

end

/-! ### What becomes of a context whose task does not enter (R155) -/

section
variable (s : State) (u : CtxRef) (op : PostOp) (grant : Bool)

theorem State.posted_closed : s.posted u op grant .closed
    = some ({ s with free := s.free + 1 }.takeTrap u 0x0D s.draw.2 (s.ctx u).pc) := rfl

theorem State.posted_badKind : s.posted u op grant .badKind
    = some (s.takeTrap u 0x02 (wordEval op.instr) (s.ctx u).pc) := rfl

theorem State.posted_full : s.posted u op grant .full = some (s.parkPost u op grant) := rfl

theorem State.posted_wait : s.posted u op grant .wait = some (s.parkCtx u .load) := rfl

end

/-! ### POST, TRYPOST and JOIN (R155, R159) -/

section
variable {s t : State} {u : CtxRef} {d : XReg} {m : BitVec 5} {grant : Bool} {h : Handle}

theorem State.runPost_post (he : s.enterTask u.core (s.ctx u).staging [] grant (.retry u) = (t, .entered h)) :
    s.runPost u (.post d) grant = (t.setCtx u { (t.ctx u).setX d (handleWord (t.entry u.core h) h) with
      posting := false }).proceed u ((t.ctx u).pc + 4) := by
  simp only [State.runPost, he]

theorem State.runPost_join (he : s.enterTask u.core (joinImage m) [] grant (.retry u) = (t, .entered h)) :
    s.runPost u (.join m) grant = (t.setCtx u { t.ctx u with posting := false }).proceed u ((t.ctx u).pc + 4) := by
  simp only [State.runPost, he]

/-- The image that POST or JOIN enters (R155, R159). -/
def Context.posts (x : Context) : PostOp → Option (Vector Word 32)
  | .post _ => some x.staging
  | .join m => some (joinImage m)
  | .list _ _ _ => none

variable {op : PostOp} {image : Vector Word 32}

/-- A task that does not enter leaves its context parked or trapped. -/
theorem State.runPost_refused {p : Posting} {q : State} (hi : (s.ctx u).posts op = some image)
    (he : s.enterTask u.core image [] grant (.retry u) = (t, p)) (hq : t.posted u op grant p = some q) :
    s.runPost u op grant = q := by
  have refused : ∀ h, p ≠ .entered h := by
    rintro h rfl
    cases hq
  cases op with
  | post d =>
    obtain rfl : (s.ctx u).staging = image := Option.some.inj hi
    simp only [State.runPost, he, hq, Option.getD_some]
  | join m =>
    obtain rfl : joinImage m = image := Option.some.inj hi
    simp only [State.runPost, he, hq, Option.getD_some]
  | list d a b => cases hi

variable (hi : s.acting.posts op = some image)
include hi

theorem State.runPost_closed (hc : (s.core s.focus).closed = true) :
    s.runPost s.me op false = s.trapFree s.acting.issue 0x0D :=
  State.runPost_refused hi (State.enterTask_closed hc) (State.posted_closed ..)

theorem State.runPost_badKind (hc : (s.core s.focus).closed = false) (hk : 6 ≤ (vget image 0).toNat % 8) :
    s.runPost s.me op false = s.traps 0x02 (wordEval op.instr) :=
  State.runPost_refused hi (State.enterTask_badKind hc hk) (State.posted_badKind ..)

theorem State.runPost_full (hc : (s.core s.focus).closed = false) (hk : (vget image 0).toNat % 8 < 6)
    (hf : ∀ h, (s.entry s.focus h).state ≠ .free) : s.runPost s.me op false = s.parkPost s.me op false :=
  State.runPost_refused hi (State.enterTask_full hc hk hf) (State.posted_full ..)

end

section
variable {s t : State} {d : XReg} {m : BitVec 5} {p : Posting} {h : Handle}

theorem exec_post (ha : ¬ s.acting.Awaits [d]) : exec (.post d) s = .next (s.runPost s.me (.post d) false) :=
  if_neg (Bool.not_eq_true _ ▸ Context.stalls_of_not_awaits ha)

theorem exec_join (hm : m ≠ 0) : exec (.join m) s = .next (s.runPost s.me (.join m) false) := if_neg hm

/-- A JOIN is a task of kind 5 (R159). -/
theorem joinImage_kind (m : BitVec 5) : (vget (joinImage m) 0).toNat % 8 = 5 := by
  simp [joinImage, vget]

theorem exec_join_none : exec (.join 0) s = .next (s.traps 0x02 (wordEval (.join 0))) := rfl

/-- What TRYPOST does with what its posting answers (R155). -/
def State.tryPosted (s t : State) (d : XReg) : Posting → State
  | .entered h => t.retire s.acting.issue fun x => x.setX d (handleWord (t.entry s.focus h) h)
  | .full => t.retire s.acting.issue fun x => x.setX d 0
  | .closed => t.trapFree s.acting.issue 0x0D
  | .badKind => t.trap s.acting.issue 0x02 (wordEval (.trypost d))
  | .wait => t.parkCtx s.me .load

section
variable (ha : ¬ s.acting.Awaits [d])
include ha

theorem exec_trypost (he : s.enterTask s.focus s.acting.staging [] false (.retry s.me) = (t, p)) :
    exec (.trypost d) s = .next (s.tryPosted t d p) := by
  change execTrypost d s = _
  have here : s.enterTask s.me.core (s.ctx s.me).staging [] false (.retry s.me) = (t, p) := he
  simp only [execTrypost, Context.stalls_of_not_awaits ha, here]
  cases p <;> rfl

theorem exec_trypost_closed (hc : (s.core s.focus).closed = true) :
    exec (.trypost d) s = .next (s.trapFree s.acting.issue 0x0D) := by
  rw [exec_trypost ha (State.enterTask_closed hc), State.tryPosted]

theorem exec_trypost_badKind (hc : (s.core s.focus).closed = false) (hk : 6 ≤ (vget s.acting.staging 0).toNat % 8) :
    exec (.trypost d) s = .next (s.traps 0x02 (wordEval (.trypost d))) := by
  rw [exec_trypost ha (State.enterTask_badKind hc hk), State.tryPosted]
  rfl

theorem exec_trypost_full (hc : (s.core s.focus).closed = false) (hk : (vget s.acting.staging 0).toNat % 8 < 6)
    (hf : ∀ h, (s.entry s.focus h).state ≠ .free) : exec (.trypost d) s = .next (s.puts d 0) := by
  rw [exec_trypost ha (State.enterTask_full hc hk hf), State.tryPosted]
  rfl

end

end

/-! ### POSTL (R98, R157) -/

section
variable {s s1 t : State} {u : CtxRef} {d a b : XReg} {grant : Bool} {l : List Byte}

/-- What a POSTL does once an entry that it has read and staged has been posted (R157, log 50). -/
def State.listPosted (t : State) (u : CtxRef) (d a b : XReg) (va : Word) (n : Nat) (grant : Bool) : Posting → State
  | .entered h => t.entryPosted u d a b va n h
  | p => (t.posted u (.list d a b) grant p).getD t

theorem State.listPosted_refused {va : Word} {n : Nat} {p : Posting} {q : State}
    (hq : t.posted u (.list d a b) grant p = some q) : t.listPosted u d a b va n grant p = q := by
  have refused : ∀ h, p ≠ .entered h := by
    rintro h rfl
    cases hq
  simp only [State.listPosted, hq, Option.getD_some]

theorem State.postList_empty (hb : (s.ctx u).getX b = 0) : s.postList u d a b grant
    = (s.setCtx u { s.ctx u with posting := false }).proceed u ((s.ctx u).pc + 4) := if_pos hb

/-- What a POSTL does when the words of its entry have been read, or cannot be. -/
def State.listReads (t : State) (u : CtxRef) (d a b : XReg) (va pc : Word) (ws : List Nat) (grant : Bool) : Words → State
  | .stall => t
  | .park => t.parkCtx u .load
  | .trap c v => t.takeTrap u c v pc
  | .ok vs =>
    let s := t.setCtx u ((t.ctx u).stagedWords ws vs)
    let e := s.enterTask u.core (s.ctx u).staging [] grant (.retry u)
    e.1.listPosted u d a b va ws.length grant e.2

/-- What a POSTL does when the head of its entry has been read, or cannot be. -/
def State.listHead (t : State) (u : CtxRef) (d a b : XReg) (va pc : Word) (grant : Bool) : Sync → State
  | .stall => t
  | .park => t.parkCtx u .load
  | .trap c => t.takeTrap u c va pc
  | .ok l =>
    if (wordOf l).toNat / 2 ^ 32 ≠ 0 then t.takeTrap u 0x02 va pc
    else
      let ws := setBits 32 (wordOf l).toNat
      let r := t.syncWords u (va + 8) ws.length
      r.1.listReads u d a b va pc ws grant r.2

theorem State.postList_eq (hb : (s.ctx u).getX b ≠ 0) : s.postList u d a b grant
    = (s.syncRead u ((s.ctx u).getX a) 8).1.listHead u d a b ((s.ctx u).getX a) (s.ctx u).pc grant
        (s.syncRead u ((s.ctx u).getX a) 8).2 := by
  refine (if_neg hb).trans ?_
  generalize s.syncRead u ((s.ctx u).getX a) 8 = r
  obtain ⟨q, o⟩ := r
  cases o with
  | stall | park | trap c => rfl
  | ok l =>
    dsimp only [State.listHead]
    split
    · rfl
    · generalize q.syncWords u ((s.ctx u).getX a + 8) (setBits 32 (wordOf l).toNat).length = w
      obtain ⟨z, w⟩ := w
      cases w with
      | stall | park | trap c v => rfl
      | ok vs =>
        dsimp only [State.listReads, Context.stagedWords]
        generalize State.enterTask _ _ _ _ _ _ = e
        obtain ⟨t, p⟩ := e
        cases p <;> rfl

/-- An entry whose head is legal has its words read. -/
theorem State.listHead_words {va pc : Word} {q : State} {w : Words} (hz : (wordOf l).toNat / 2 ^ 32 = 0)
    (hw : t.syncWords u (va + 8) (setBits 32 (wordOf l).toNat).length = (q, w)) :
    t.listHead u d a b va pc grant (.ok l) = q.listReads u d a b va pc (setBits 32 (wordOf l).toNat) grant w := by
  simp only [State.listHead, hz, ne_eq, not_true_eq_false, if_false, hw]

/-- An entry that has been read and staged is posted. -/
theorem State.postList_readsEntry {va : Word} {ws : List Nat} {s2 : State} {p : Posting} (hb : (s.ctx u).getX b ≠ 0)
    (hva : (s.ctx u).getX a = va) (hr : s.ReadsEntry u va ws s2)
    (hp : s2.enterTask u.core (s2.ctx u).staging [] grant (.retry u) = (t, p)) :
    s.postList u d a b grant = t.listPosted u d a b va ws.length grant p := by
  subst hva
  obtain ⟨s1, q, l, vs, hh, hz, rfl, hw, rfl⟩ := hr
  rw [State.postList_eq hb, hh, State.listHead_words hz hw, State.listReads, hp]

end

/-! ### POSTL issues (R157) -/

section
variable {s : State} {d a b : XReg}

/-- A POSTL begins: Xd is 0 until a task has entered (log 50). -/
def State.listBegins (s : State) (d : XReg) : State :=
  if s.acting.posting then s else s.becomes (s.acting.setX d 0)

theorem State.listBegins_getX {r : XReg} (h : d = 0 ∨ d ≠ r) :
    ((s.listBegins d).ctx s.me).getX r = s.acting.getX r := by
  unfold State.listBegins
  split
  · rfl
  · rw [State.becomes, State.ctx_setCtx_same]
    rcases h with rfl | h
    · rw [Context.setX_zero]
    · exact Context.getX_setX_other _ _ _ _ h

theorem State.listBegins_pc : ((s.listBegins d).ctx s.me).pc = s.acting.pc := by
  unfold State.listBegins
  split
  · rfl
  · obtain ⟨y, hy⟩ := s.acting.setX_eq d 0
    rw [State.becomes, State.ctx_setCtx_same, hy]

variable (ha : ¬ s.acting.Awaits [d, a, b])
include ha

theorem exec_postl_named (hd : d ≠ 0 ∧ (d = a ∨ d = b)) :
    exec (.postl d a b) s = .next (s.traps 0x02 (wordEval (.postl d a b))) :=
  (if_neg (Bool.not_eq_true _ ▸ Context.stalls_of_not_awaits ha)).trans (if_pos hd)

variable (hd : d = 0 ∨ d ≠ a ∧ d ≠ b)
include hd

theorem exec_postl_misaligned (hm : (s.acting.getX a).toNat % 8 ≠ 0) :
    exec (.postl d a b) s = .next (s.traps 0x04 (s.acting.getX a)) := by
  have apart : ¬ (d ≠ 0 ∧ (d = a ∨ d = b)) := by tauto
  exact ((if_neg (Bool.not_eq_true _ ▸ Context.stalls_of_not_awaits ha)).trans (if_neg apart)).trans (if_pos hm)

theorem exec_postl (hm : (s.acting.getX a).toNat % 8 = 0) :
    exec (.postl d a b) s = .next ((s.listBegins d).postList s.me d a b false) := by
  have apart : ¬ (d ≠ 0 ∧ (d = a ∨ d = b)) := by tauto
  exact ((if_neg (Bool.not_eq_true _ ▸ Context.stalls_of_not_awaits ha)).trans (if_neg apart)).trans
    (if_neg (not_not.2 hm))

/-- An empty list is posted at once (R157). -/
theorem exec_postl_empty (hm : (s.acting.getX a).toNat % 8 = 0) (hb : s.acting.getX b = 0)
    (hs : s.acting.state = .running) (hp : s.acting.posting = false) :
    exec (.postl d a b) s = .next (s.puts d 0) := by
  have begun : s.listBegins d = s.becomes (s.acting.setX d 0) := if_neg (Bool.not_eq_true _ ▸ hp)
  have empty : ((s.listBegins d).ctx s.me).getX b = 0 := (State.listBegins_getX (by tauto)).trans hb
  obtain ⟨y, hy⟩ := s.acting.setX_eq d 0
  rw [exec_postl ha hd hm, State.postList_empty empty, begun, State.proceed, State.becomes, State.puts, hy]
  simp only [State.ctx_setCtx_same, State.setCtx_setCtx]
  rw [if_neg (by rw [hs]; nofun), ← hp]
  rfl

variable (hm : (s.acting.getX a).toNat % 8 = 0) (hb : s.acting.getX b ≠ 0)
include hm hb

theorem exec_postl_head {t : State} {o : Sync} (hr : (s.listBegins d).syncRead s.me (s.acting.getX a) 8 = (t, o)) :
    exec (.postl d a b) s = .next (t.listHead s.me d a b (s.acting.getX a) s.acting.pc false o) := by
  have ga : ((s.listBegins d).ctx s.me).getX a = s.acting.getX a := State.listBegins_getX (by tauto)
  have gb : ((s.listBegins d).ctx s.me).getX b ≠ 0 := by
    rw [State.listBegins_getX (by tauto)]
    exact hb
  rw [exec_postl ha hd hm, State.postList_eq gb, ga, State.listBegins_pc, hr]

theorem exec_postl_words {s1 t : State} {l : List Byte} {w : Words}
    (hr : (s.listBegins d).syncRead s.me (s.acting.getX a) 8 = (s1, .ok l)) (hz : (wordOf l).toNat / 2 ^ 32 = 0)
    (hw : s1.syncWords s.me (s.acting.getX a + 8) (setBits 32 (wordOf l).toNat).length = (t, w)) :
    exec (.postl d a b) s = .next (t.listReads s.me d a b (s.acting.getX a) s.acting.pc (setBits 32 (wordOf l).toNat)
      false w) := by
  rw [exec_postl_head ha hd hm hb hr, State.listHead_words hz hw]

/-- The head and the words of the next entry are read, or end the instruction (R98, R157). -/
theorem exec_postl_reads {s1 : State} {l : List Byte}
    (hr : (s.listBegins d).syncRead s.me (s.acting.getX a) 8 = (s1, .ok l)) :
    ((wordOf l).toNat / 2 ^ 32 ≠ 0 →
      exec (.postl d a b) s = .next (s1.takeTrap s.me 0x02 (s.acting.getX a) s.acting.pc)) ∧
    ((wordOf l).toNat / 2 ^ 32 = 0 → ∀ t : State,
      let words := s1.syncWords s.me (s.acting.getX a + 8) (setBits 32 (wordOf l).toNat).length
      (words = (t, .stall) → exec (.postl d a b) s = .next t) ∧
      (words = (t, .park) → exec (.postl d a b) s = .next (t.parkCtx s.me .load)) ∧
      ∀ c v, words = (t, .trap c v) → exec (.postl d a b) s = .next (t.takeTrap s.me c v s.acting.pc)) := by
  refine ⟨fun hz => ?_, fun hz t => ?_⟩
  · rw [exec_postl_head ha hd hm hb hr, State.listHead, if_pos hz]
  · have words {w : Words} := exec_postl_words ha hd hm hb (t := t) (w := w) hr hz
    exact ⟨words, words, fun c v => words⟩

/-- The next entry, read and staged, enters the catalogue, or its context waits or traps (R155, R157). -/
theorem exec_postl_enters {ws : List Nat} {s2 t : State} {p : Posting}
    (hr : (s.listBegins d).ReadsEntry s.me (s.acting.getX a) ws s2)
    (hp : s2.enterTask s.me.core (s2.ctx s.me).staging [] false (.retry s.me) = (t, p)) : exec (.postl d a b) s
    = .next (t.listPosted s.me d a b (s.acting.getX a) ws.length false p) := by
  have ga : ((s.listBegins d).ctx s.me).getX a = s.acting.getX a := State.listBegins_getX (by tauto)
  have gb : ((s.listBegins d).ctx s.me).getX b ≠ 0 := by
    rw [State.listBegins_getX (by tauto)]
    exact hb
  rw [exec_postl ha hd hm, State.postList_readsEntry gb ga hr hp]

end

/-! ### Parked posts go on (R287) -/

/-- A write of an X register leaves the state of the context. -/
@[simp] theorem Context.setX_state (x : Context) (r : XReg) (v : Word) : (x.setX r v).state = x.state := by
  obtain ⟨y, hy⟩ := x.setX_eq r v
  rw [hy]

section
variable {s t : State} {u : CtxRef}

/-- A parked context that goes on waits for nothing. -/
theorem State.proceed_park (hs : (s.ctx u).state = .parked) (pc : Word) : ((s.proceed u pc).ctx u).park = .none := by
  have parked : ((s.setCtx u { s.ctx u with pc := pc }).ctx u).state = .parked := by
    rw [State.ctx_setCtx_same]
    exact hs
  unfold State.proceed
  dsimp only
  rw [if_pos parked, State.ready]
  rcases State.dispatch_ctx (State.wakes _ u) u.core u with e | e <;> rw [e, State.wakes, State.ctx_setCtx_same]

/-- A context is no poster of its core any more. -/
def State.dropsPoster (s : State) (c : CoreId) (k : CtxId) : State :=
  s.setCore c { s.core c with posters := (s.core c).posters.filter fun j => j != k }

theorem State.dropsPoster_waits (s : State) (c : CoreId) (k : CtxId) :
    ((s.dropsPoster c k).core c).waitingPosts.contains k = false := by
  rw [State.dropsPoster, State.core_setCore_same]
  simp [Core.waitingPosts]

/-- A context that waits to post no more leaves the posters of its core (R287). -/
theorem State.leavePosters_none (hp : (s.ctx u).park = .none) : s.leavePosters u = s.dropsPoster u.core u.ctx := by
  unfold State.leavePosters
  rw [hp]
  rfl

/-- The poster that parked first goes on, and then those behind it. -/
theorem State.resumePosts_goes {c : CoreId} {k : CtxId} {r : List CtxId} {op : PostOp}
    (hop : (s.ctx ⟨c, k⟩).park = .post op) (hh : s.heldPackets = []) (hq : s.runPost ⟨c, k⟩ op true = t)
    (hp : (t.ctx ⟨c, k⟩).park = .none) : s.resumePosts c (k :: r) = (t.dropsPoster c k).resumePosts c r := by
  simp only [State.resumePosts, hop, hh, List.any_nil, Bool.false_eq_true, if_false, hq, State.leavePosters_none hp,
    State.dropsPoster_waits]

/-- An entry that a parked POSTL posts sets its context going. -/
theorem State.entryPosted_park (d a b : XReg) (va : Word) (n : Nat) (h : Handle) (hs : (t.ctx u).state = .parked) :
    ((t.entryPosted u d a b va n h).ctx u).park = .none := by
  unfold State.entryPosted
  dsimp only
  split
  · refine State.proceed_park ?_ _
    rw [State.ctx_setCtx_same, State.ctx_setCtx_same]
    simpa only [Context.setX_state] using hs
  · refine State.proceed_park ?_ _
    rw [State.ctx_setCtx_same]
    simpa only [Context.setX_state] using hs

section
variable {c : CoreId} {k : CtxId} {r : List CtxId} {h : Handle} (hk : (s.core c).posters = k :: r)
  (hh : s.heldPackets = [])
include hk hh

/-- The post that parked first goes on once its task enters (R287). -/
theorem exec_parkedPostResume {op : PostOp} (hop : (s.ctx ⟨c, k⟩).park = .post op)
    (hq : s.runPost ⟨c, k⟩ op true = t) (hp : (t.ctx ⟨c, k⟩).park = .none) :
    exec (.parkedPostResume c) s = .next ((t.dropsPoster c k).resumePosts c r) := by
  change Host.Outcome.next (s.resumePosts c (s.core c).posters) = _
  rw [hk, State.resumePosts_goes hop hh hq hp]

variable (hs : (t.ctx ⟨c, k⟩).state = .parked)
include hs

theorem exec_parkedPostResume_post {d : XReg} (hop : (s.ctx ⟨c, k⟩).park = .post (.post d))
    (he : s.enterTask c (s.ctx ⟨c, k⟩).staging [] true (.retry ⟨c, k⟩) = (t, .entered h)) :
    exec (.parkedPostResume c) s = .next ((((t.setCtx ⟨c, k⟩ { (t.ctx ⟨c, k⟩).setX d (handleWord (t.entry c h) h) with
      posting := false }).proceed ⟨c, k⟩ ((t.ctx ⟨c, k⟩).pc + 4)).dropsPoster c k).resumePosts c r) := by
  refine exec_parkedPostResume hk hh hop (State.runPost_post he) (State.proceed_park ?_ _)
  rw [State.ctx_setCtx_same]
  simpa only [Context.setX_state] using hs

theorem exec_parkedPostResume_join {m : BitVec 5} (hop : (s.ctx ⟨c, k⟩).park = .post (.join m))
    (he : s.enterTask c (joinImage m) [] true (.retry ⟨c, k⟩) = (t, .entered h)) :
    exec (.parkedPostResume c) s = .next ((((t.setCtx ⟨c, k⟩ { t.ctx ⟨c, k⟩ with posting := false }).proceed ⟨c, k⟩
      ((t.ctx ⟨c, k⟩).pc + 4)).dropsPoster c k).resumePosts c r) := by
  refine exec_parkedPostResume hk hh hop (State.runPost_join he) (State.proceed_park ?_ _)
  rw [State.ctx_setCtx_same]
  exact hs

theorem exec_parkedPostResume_list {d a b : XReg} {ws : List Nat} {s2 : State}
    (hop : (s.ctx ⟨c, k⟩).park = .post (.list d a b)) (hb : (s.ctx ⟨c, k⟩).getX b ≠ 0)
    (hr : s.ReadsEntry ⟨c, k⟩ ((s.ctx ⟨c, k⟩).getX a) ws s2)
    (he : s2.enterTask c (s2.ctx ⟨c, k⟩).staging [] true (.retry ⟨c, k⟩) = (t, .entered h)) :
    exec (.parkedPostResume c) s = .next (((t.entryPosted ⟨c, k⟩ d a b ((s.ctx ⟨c, k⟩).getX a) ws.length h).dropsPoster
      c k).resumePosts c r) :=
  exec_parkedPostResume hk hh hop (State.postList_readsEntry hb rfl hr he) (State.entryPosted_park d a b _ _ h hs)

end

end

/-- Settles O32: what the catalogue answers, for each instruction that posts, and the posts that wait for an entry. -/
theorem posting : Obligations.Posting := by
  unfold Obligations.Posting
  refine ⟨fun s t d h ha he => ⟨exec_trypost ha he, ?_⟩, fun s d ha hc => ?_,
    fun s d ha hc hk => ⟨exec_trypost_badKind ha hc hk, ?_⟩, fun s d ha hc hk hf => ⟨exec_trypost_full ha hc hk hf, ?_⟩,
    fun s t m h hm he => ?_, fun s => exec_join_none, fun s m hm => ⟨fun hc => ?_, fun hc hf => ?_⟩,
    fun s d a b ha hd hal hb hs hp => exec_postl_empty ha hd hal hb hs hp,
    fun s d a b ha => ⟨fun h0 hd => exec_postl_named ha ⟨h0, hd⟩, fun hd hal => exec_postl_misaligned ha hd hal⟩,
    fun s d a b ha hd hal hb => ⟨fun s1 l hr => exec_postl_reads ha hd hal hb hr, fun s1 => ?_, fun ws s2 t hr => ?_⟩, ?_⟩
  · rw [exec_post ha, State.runPost_post (u := s.me) he]
    rfl
  · obtain ⟨e, he⟩ := s.trapFree_eq 0x0D
    exact ⟨⟨e, by rw [exec_trypost_closed ha hc, he]⟩, ⟨e, by rw [exec_post ha, State.runPost_closed rfl hc, he]⟩⟩
  · rw [exec_post ha, State.runPost_badKind rfl hc hk]
    rfl
  · rw [exec_post ha, State.runPost_full rfl hc hk hf]
  · rw [exec_join hm, State.runPost_join (u := s.me) he]
  · obtain ⟨e, he⟩ := s.trapFree_eq 0x0D
    exact ⟨e, by rw [exec_join hm, State.runPost_closed rfl hc, he]⟩
  · rw [exec_join hm, State.runPost_full rfl hc (by rw [joinImage_kind]; decide) hf]
  · exact ⟨exec_postl_head ha hd hal hb, exec_postl_head ha hd hal hb, fun c => exec_postl_head ha hd hal hb⟩
  · have enters {p : Posting} := exec_postl_enters ha hd hal hb (t := t) (p := p) hr
    refine ⟨fun h => enters, fun hp => ⟨t.draw.2, ?_⟩, fun hp => ?_, fun hp => ?_, fun hp => ?_⟩
    · rw [enters hp, State.listPosted_refused (State.posted_closed ..)]
    · rw [enters hp, State.listPosted_refused (State.posted_badKind ..)]
      rfl
    · rw [enters hp, State.listPosted_refused (State.posted_full ..)]
    · rw [enters hp, State.listPosted_refused (State.posted_wait ..)]
  · intro s t q c k r h u hk hh hs hgo
    rcases hgo with ⟨d, hop, he, rfl⟩ | ⟨m, hop, he, rfl⟩ | ⟨d, a, b, ws, s2, hop, hb, hr, he, rfl⟩
    · exact exec_parkedPostResume_post hk hh hs hop he
    · exact exec_parkedPostResume_join hk hh hs hop he
    · exact exec_parkedPostResume_list hk hh hs hop hb hr he

end Sys2Proof.Machine
end

section
/-! PROOFS. POSTR: its checks, its packet and its reply (O33: R158, R346). -/

namespace Sys2Proof.Machine

/-! ### Reads leave the cores as they are (R36, R309, R348, R376) -/

section
variable (s : State)

theorem State.readCopy_cores (ag : Agent) (die : DieNum) (off k : Nat) (r : Bool) :
    s.SameCores (s.readCopy ag die off k r).1 := by
  unfold State.readCopy
  exact .ite (.same rfl rfl) (.refl s)

theorem State.locateRead_cores (ag : Agent) (va : Word) : s.SameCores (s.locateRead ag va).1 := by
  unfold State.locateRead
  split
  · exact .refl s
  · exact .refl s
  · exact .refl s
  · exact .same rfl rfl
  · exact .ite (.refl s) (.refl s)
  · next die off _ =>
    have walked := s.locateOn_cores ag false va die off false
    dsimp only
    split
    · refine .ite ?_ (walked.trans (State.readCopy_cores _ ..))
      have own := walked.trans (State.locateOn_cores _ ag false va ag.die off true)
      split
      · exact own.trans (State.readCopy_cores _ ..)
      · exact own
      · exact own
      · exact own
    · exact walked
    · exact walked
    · exact walked

theorem State.drawBytes_cores (n : Nat) : s.SameCores (s.drawBytes n).1 := by
  induction n with
  | zero => exact .refl s
  | succ n ih => exact ih.also rfl rfl

theorem State.readVa_cores (ag : Agent) (va : Word) (n : Nat) : s.SameCores (s.readVa ag va n).1 := by
  unfold State.readVa
  split
  · split
    · exact .refl s
    · have answered : s.SameCores s.answerThere.1 := .same rfl rfl
      exact (answered.trans (State.drawBytes_cores _ n)).also rfl rfl
  · have located := s.locateRead_cores ag va
    dsimp only
    split
    · exact (located.trans (State.readKey_cores _ _ _)).trans (State.readsFrom_cores _ _ _ _)
    · exact located
    · exact located
    · exact located

theorem State.syncRead_cores (u : CtxRef) (va : Word) (n : Nat) : s.SameCores (s.syncRead u va n).1 := by
  unfold State.syncRead
  split
  · exact .refl s
  · exact .ite (.refl s) (s.readVa_cores _ va n)

end

/-! ### Addresses (Table 4.5) -/

/-- An address that names something is misaligned before it is anything else. -/
theorem State.accessFault_misaligned {s : State} {u : CtxRef} {acc : Accepts} {va : Word} {n : Nat} {rmw : Bool}
    (ht : s.target va ≠ .bad) (hm : va.toNat % n ≠ 0) : s.accessFault u acc va n rmw = some 0x04 :=
  (if_neg ht).trans (if_pos hm)

/-! ### POSTR issues (R158) -/

theorem postrBad_iff (w : Nat) : postrBad w = true ↔ w / 2 ^ 18 % 2 ^ 26 ≠ 0 ∨ w / 2 ^ 48 % 2 ^ 16 ≠ 0 := by
  rw [postrBad, Bool.or_eq_true, bne_iff_ne, bne_iff_ne, bits, bits, Nat.shiftRight_eq_div_pow, Nat.shiftRight_eq_div_pow]

/-- The device that Xb names (Table 3.15). -/
def postrDev (w : Nat) : DevNum := BitVec.ofNat 10 (bits w 0 10)

/-- The packet of a POSTR, whose words have been read (R99, R158, Table 3.15). -/
def State.postrPacket (s : State) (u : CtxRef) (w : Nat) (words : List Word) : Packet :=
  { srcDev := s.devId, srcPart := s.partOf u.core
    sender := if postrDev w = s.devId then some (u, (s.ctx u).seq) else none
    host := false, part := Fin.ofNat 16 (bits w 44 4)
    core := if bits w 12 6 ≤ 39 then 40 * bits w 10 2 + bits w 12 6 else 255
    words := words, seq := s.reqSeq, clock := s.clock (dieOf u.core), plane := none }

/-- The reply of a POSTR is outstanding, and its context goes on (R121, R158). -/
def State.awaitsPostr (s : State) (u : CtxRef) (d : XReg) (va : Word) : State :=
  s.setCtx u { s.ctx u with
    load := some ⟨d, va, .d, true, .postr, (s.ctx u).seq, (s.ctx u).level, .core, 0, true⟩
    seq := (s.ctx u).seq + 1
    pc := (s.ctx u).pc + 4 }

/-- The reply of another device is free (log 10). -/
def State.postReply (q : State) (u : CtxRef) (dev : DevNum) : BitVec 3 :=
  BitVec.ofNat 3 ((q.wrote u dev).draw.2.toNat % 5)

/-- It is one of the five of R158. -/
theorem State.postReply_le (q : State) (u : CtxRef) (dev : DevNum) : (q.postReply u dev).toNat ≤ 4 := by
  rw [State.postReply, BitVec.toNat_ofNat]
  omega

/-- The request that carries a packet to another device (R158, R346). -/
def State.requestsPost (q : State) (u : CtxRef) (dev : DevNum) (p : Plane) (n : Nat) (k : Packet) : State :=
  ((q.wrote u dev).draw.1.request dev p (.postr u n) fun z => .packet dev p z k.padded).event
    (.postrReply u n (q.postReply u dev))

/-- A POSTR's packet leaves (R158, R346). -/
def State.sendsPostr (q : State) (u : CtxRef) (dev : DevNum) (n : Nat) (k : Packet) (head : Word) :
    Host.Outcome State Fault Refusal :=
  if dev = q.devId then .next (q.eventWith (if head.toNat % 256 = 2 then .signalPacket else .postPacket) (.packet k))
  else .next ((q.planeFor dev (docentStart dev u)).elim (q.event (.postrReply u n 3)) fun p => q.requestsPost u dev p n k)

section
variable {q : State} {u : CtxRef} {dev : DevNum} {n : Nat} {k : Packet} {head : Word}

theorem State.sendsPostr_here (hd : dev = q.devId) : q.sendsPostr u dev n k head
    = .next (q.eventWith (if head.toNat % 256 = 2 then .signalPacket else .postPacket) (.packet k)) := if_pos hd

theorem State.sendsPostr_unreached (hd : dev ≠ q.devId) (hp : q.planeFor dev (docentStart dev u) = none) :
    q.sendsPostr u dev n k head = .next (q.event (.postrReply u n 3)) := by
  rw [State.sendsPostr, if_neg hd, hp, Option.elim_none]

theorem State.sendsPostr_reached {p : Plane} (hd : dev ≠ q.devId) (hp : q.planeFor dev (docentStart dev u) = some p) :
    q.sendsPostr u dev n k head = .next (q.requestsPost u dev p n k) := by
  rw [State.sendsPostr, if_neg hd, hp, Option.elim_some]

end

section
variable {s : State} {d a b : XReg} (hl : s.acting.load = none) (hf : s.acting.fenced = false)
include hl hf

theorem State.postr_free : ¬ (s.acting.stalls [d, a, b] true || s.acting.fenced) = true := by
  simp [Context.stalls_none _ _ _ hl, hf]

theorem exec_postr_reserved (hb : postrBad (s.acting.getX b).toNat = true) :
    exec (.postr d a b) s = .next (s.traps 0x02 (wordEval (.postr d a b))) :=
  (if_neg (State.postr_free hl hf)).trans (if_pos hb)

variable (hb : postrBad (s.acting.getX b).toNat = false)
include hb

theorem exec_postr_faults {c : BitVec 8} (hc : s.accessFault s.me .any (s.acting.getX a) 16 false = some c) :
    exec (.postr d a b) s = .next (s.traps c (s.acting.getX a)) := by
  refine ((if_neg (State.postr_free hl hf)).trans (if_neg (Bool.not_eq_true _ ▸ hb))).trans ?_
  rw [hc]
  rfl

variable (hc : s.accessFault s.me .any (s.acting.getX a) 16 false = none)
include hc

theorem exec_postr_unread {t : State} {c : BitVec 8} (hr : s.syncRead s.me (s.acting.getX a) 8 = (t, .trap c)) :
    exec (.postr d a b) s = .next (t.takeTrap s.me c (s.acting.getX a) s.acting.pc) := by
  have me : t.me = s.me := by
    have same := s.syncRead_cores s.me (s.acting.getX a) 8
    rw [hr] at same
    exact same.me
  refine ((if_neg (State.postr_free hl hf)).trans (if_neg (Bool.not_eq_true _ ▸ hb))).trans ?_
  rw [hc, hr]
  exact congrArg (fun u => Host.Outcome.next (t.takeTrap u c (s.acting.getX a) s.acting.pc)) me

/-- A packet that has been read leaves, and its reply is outstanding. -/
theorem exec_postr_sends {s1 t : State} {l : List Byte} {ws : List Word}
    (hr : s.syncRead s.me (s.acting.getX a) 8 = (s1, .ok l))
    (hw : s1.syncWords s.me (s.acting.getX a + 8) (2 * bits (wordOf l).toNat 8 5 - 1) = (t, .ok ws)) :
    exec (.postr d a b) s = (t.awaitsPostr s.me d (s.acting.getX a)).sendsPostr s.me (postrDev (s.acting.getX b).toNat)
      (t.ctx s.me).seq (t.postrPacket s.me (s.acting.getX b).toNat (wordOf l :: ws)) (wordOf l) := by
  change execPostr d a b s = _
  unfold execPostr
  simp only [if_neg (State.postr_free hl hf), hb, hc, hr, hw, Bool.false_eq_true, if_false, State.sendsPostr,
    State.requestsPost, State.postReply, State.awaitsPostr, State.postrPacket, postrDev,
    State.acting]
  generalize State.planeFor _ _ _ = plane
  cases plane <;> rfl

end

/-! ### The reply (R121, R158) -/

theorem exec_postrReply {s : State} {u : CtxRef} {l : PendingLoad} (n : BitVec 3) (hl : (s.ctx u).load = some l)
    (ho : l.op = .postr) : exec (.postrReply u l.seq n) s = .next ({ s with
      requests := s.requests.filter fun r => r.who != Waiter.postr u l.seq }.setCtx u
        { (s.ctx u).setX l.dest (BitVec.ofNat 64 n.toNat) with load := none }) := by
  change execPostrReply u l.seq n s = _
  simp only [execPostrReply, hl, ho, and_self, if_true, BitVec.ofNat_toNat, BitVec.truncate_eq_setWidth]

theorem exec_postrReply_stale {s : State} {u : CtxRef} (n : Nat) (v : BitVec 3) (hl : (s.ctx u).load = none) :
    exec (.postrReply u n v) s = .next s := by
  change execPostrReply u n v s = _
  simp only [execPostrReply, hl]

/-- Settles O33: the checks of POSTR in order, where its packet leaves to, and the reply that finds it outstanding or not. -/
theorem postRemote : Obligations.PostRemote := by
  unfold Obligations.PostRemote
  refine ⟨fun s d a b hl hf => ⟨exec_postr_reserved hl hf, fun hb => ⟨fun c => exec_postr_faults hl hf hb, fun ht hm => ?_,
    fun hc s1 c => exec_postr_unread hl hf hb hc⟩⟩, postrBad_iff, fun s s1 t d a b l ws hl hf hb hc hr hw => ?_,
    fun s u l n hl ho => exec_postrReply n hl ho, fun s u n v hl => exec_postrReply_stale n v hl⟩
  · exact exec_postr_faults hl hf hb (State.accessFault_misaligned ht hm)
  · intro u x w dev q k
    have packet : t.postrPacket u w (wordOf l :: ws) = k := by
      simp only [State.postrPacket, bits_eq]
      rfl
    have sent : exec (.postr d a b) s = q.sendsPostr u dev x.seq k (wordOf l) := by
      rw [← packet]
      exact exec_postr_sends hl hf hb hc hr hw
    refine ⟨fun hd => sent.trans (State.sendsPostr_here hd), fun hd =>
      ⟨fun hp => sent.trans (State.sendsPostr_unreached hd hp), fun p hp => ⟨_, q.postReply_le u dev, ?_⟩⟩⟩
    exact sent.trans (State.sendsPostr_reached hd hp)

end Sys2Proof.Machine
end

section
/-! PROOFS. References (O37: R168-R175). -/

namespace Sys2Proof.Machine

/-! ### A settled context (R138, R168) -/

theorem State.settled_iff (s : State) (u : CtxRef) : s.settled u = true ↔ (s.ctx u).load = none ∧
    s.storesLeft u .core = false ∧ (s.ctx u).trailing = false ∧ s.faultDue u = false := by
  simp only [State.settled, Bool.and_eq_true, Option.isNone_iff_eq_none, Bool.not_eq_true', and_assoc]

/-- An unsettled context waits at its reference instruction (R168). -/
theorem exec_reference_waits {s : State} (h : s.settled s.me = false) (d b : HReg) (a e : XReg) :
    ∀ i ∈ [Instr.cash d a b, .refeq e d b, .mkref d a, .pin e d, .unpin d], exec i s = .next s := by
  have waits : (!s.settled s.me) = true := by rw [h]; rfl
  simp only [List.forall_mem_cons, List.not_mem_nil, false_imp_iff, implies_true, and_true]
  exact ⟨if_pos waits, if_pos waits, if_pos waits, if_pos waits, if_pos waits⟩

/-! ### References with an unprefixed immediate (R170-R172) -/

section
variable (s : State)

theorem exec_ldref (d : HReg) (a : XReg) (imm : BitVec 16) :
    s.LoadsReference (exec (.ldref d a imm) s) s.acting.issue d
      (BitVec.ofInt 64 ((s.acting.getX a).toInt + imm.toInt)) := by
  rw [← add_signedImm]
  exact s.loadRef_loads s.acting.issue d a (signedImm imm)

theorem exec_stref (a : XReg) (b : HReg) (imm : BitVec 16) :
    s.StoresReference (exec (.stref a b imm) s) s.acting.issue b
      (BitVec.ofInt 64 ((s.acting.getX a).toInt + imm.toInt)) := by
  rw [← add_signedImm]
  exact s.storeRef_stores s.acting.issue a b (signedImm imm)

theorem exec_ldh (d : XReg) (a : HReg) (imm : BitVec 16) :
    s.LoadsField (exec (.ldh d a imm) s) s.acting.issue d a (BitVec.ofInt 64 imm.toInt) :=
  s.loadField_loads s.acting.issue d a (signedImm imm)

theorem exec_sth (a : HReg) (b : XReg) (imm : BitVec 16) :
    s.StoresField (exec (.sth a b imm) s) s.acting.issue a b (BitVec.ofInt 64 imm.toInt) :=
  s.storeField_stores s.acting.issue a b (signedImm imm)

end

/-! ### The reference group (R173-R175) -/

section
variable {s : State} (h : s.settled s.me = true)
include h

theorem State.goes_settled : ¬ (!s.settled s.me) = true := by
  rw [h]
  nofun

theorem exec_refeq {s1 t : State} {d : XReg} {a b : HReg} {p q : Word} {g g' : Option Gallery}
    (ha : s.refPresent (s.acting.getH a) = (s1, .ok (p, g)))
    (hb : s1.resumed.refPresent (s.acting.getH b) = (t, .ok (q, g'))) :
    exec (.refeq d a b) s = .next (t.resumed.retire s.acting.issue fun x =>
      ((x.setH a p).setH b q).setX d (if p.toNat / 2 ^ 22 = q.toNat / 2 ^ 22 then 1 else 0)) := by
  simp only [← Nat.shiftRight_eq_div_pow]
  refine (if_neg (State.goes_settled h)).trans ?_
  simp only [ha, State.refStep_ok, hb]

theorem exec_mkref {t : State} {d : HReg} {a : XReg} {p : Word} {g : Option Gallery}
    (ha : s.refPresent (s.acting.getX a) = (t, .ok (p, g))) :
    exec (.mkref d a) s = .next (t.resumed.retire s.acting.issue fun x => x.setH d p) := by
  refine (if_neg (State.goes_settled h)).trans ?_
  simp only [ha, State.refStep_ok]

/-- PIN and UNPIN of null (R175). -/
theorem exec_pin_null (d : XReg) {a : HReg} (ha : s.acting.getH a = 0) :
    ∀ i ∈ [Instr.pin d a, .unpin a], exec i s = .next (s.trapFree s.acting.issue 0x07) := by
  simp only [List.forall_mem_cons, List.not_mem_nil, false_imp_iff, implies_true, and_true]
  exact ⟨(if_neg (State.goes_settled h)).trans (if_pos ha), (if_neg (State.goes_settled h)).trans (if_pos ha)⟩

section
variable {t q : State} {d : XReg} {a : HReg} {p : Word} {g : Gallery} (ha : s.acting.getH a ≠ 0)
  (hp : s.refPresent (s.acting.getH a) = (t, .ok (p, some g)))
include ha hp

theorem exec_pin (hq : t.resumed.pinWord t.resumed.refAgent g p.toNat true = (q, .ok ())) : exec (.pin d a) s
    = .next (q.resumed.retire s.acting.issue fun x => (x.setH a p).setX d (objectAddress g p.toNat + 16)) := by
  refine ((if_neg (State.goes_settled h)).trans (if_neg ha)).trans ?_
  simp only [hp, State.refStep_ok, hq, Got.asAccess_ok]

theorem exec_unpin (hq : t.resumed.pinWord t.resumed.refAgent g p.toNat false = (q, .ok ())) :
    exec (.unpin a) s = .next (q.resumed.retire s.acting.issue fun x => x.setH a p) := by
  refine ((if_neg (State.goes_settled h)).trans (if_neg ha)).trans ?_
  simp only [hp, State.refStep_ok, hq, Got.asAccess_ok]

end

/-! ### CASH (R174) -/

section
variable {s1 s2 : State} {d b : HReg} {a : XReg} {keys : List Nat}
  (hc : s.accessFault s.me .any (s.acting.getX a) 8 true = none) (ht : ∀ dev, s.target (s.acting.getX a) ≠ .remote dev)
  (hl : s.locateWrite s.refAgent (s.acting.getX a) .never = (s1, .ok keys))
  (hm : s1.resumed.moving (keys.headD 0) = false)
include hc ht hl hm

/-- A CASH at an aligned word of this device, whose line does not move, is made there. -/
theorem exec_cash_here : exec (.cash d a b) s
    = s1.resumed.cashAt s.acting.issue d (s.acting.getX a) (s.acting.getH d) (s.acting.getH b) := by
  refine (if_neg (State.goes_settled h)).trans ?_
  rw [hc]
  dsimp only
  split
  · next dev e => exact absurd e (ht dev)
  · simp only [hl, Got.asAccess_ok, State.refStep_ok, hm, Bool.false_eq_true, if_false]

variable {w : Word}

theorem exec_cash_plain (hr : s1.resumed.readRef (s.acting.getX a) = (s2, .ok (w, false))) :
    exec (.cash d a b) s = .next (s2.resumed.trapFree s.acting.issue 0x06) := by
  rw [exec_cash_here h hc ht hl hm]
  simp only [State.cashAt, hr, Got.asAccess_ok, State.refStep_ok, Bool.not_false, if_true]

/-- The comparison of R174: the present forms name one object, and the generation bits are those given. -/
def cashMatches (old p hd : Word) : Prop :=
  old.toNat / 2 ^ 22 = p.toNat / 2 ^ 22 ∧ old.toNat % 2 ^ 22 = hd.toNat % 2 ^ 22

variable {s3 t q : State} {old p : Word} {g g' : Option Gallery}
  (hr : s1.resumed.readRef (s.acting.getX a) = (s2, .ok (w, true)))
  (ho : s2.resumed.refPresent w = (s3, .ok (old, g)))
  (hp : s3.resumed.refPresent (s.acting.getH d) = (t, .ok (p, g')))
include hr ho hp

theorem exec_cash_differs (hd : ¬ cashMatches old p (s.acting.getH d)) :
    exec (.cash d a b) s = .next (t.resumed.retire s.acting.issue fun x => x.setH d old) := by
  rw [exec_cash_here h hc ht hl hm]
  unfold cashMatches at hd
  simp only [State.cashAt, hr, Got.asAccess_ok, State.refStep_ok, Bool.not_true, Bool.false_eq_true, if_false, ho, hp,
    Nat.shiftRight_eq_div_pow, if_neg hd]

theorem exec_cash_swaps (hd : cashMatches old p (s.acting.getH d)) {parts : Bool}
    (hw : t.resumed.writeRef (s.acting.getX a) (s.acting.getH b) true = (q, .ok parts)) :
    exec (.cash d a b) s = .next (q.resumed.retire s.acting.issue fun x => x.setH d old) := by
  rw [exec_cash_here h hc ht hl hm]
  unfold cashMatches at hd
  simp only [State.cashAt, hr, Got.asAccess_ok, State.refStep_ok, Bool.not_true, Bool.false_eq_true, if_false, ho, hp,
    Nat.shiftRight_eq_div_pow, if_pos hd, hw]

end

end

/-- Settles O37: each reference instruction by what its reads, lookups and writes answer. -/
theorem references : Obligations.References := by
  unfold Obligations.References
  refine ⟨fun s d b a e h => exec_reference_waits h d b a e, State.settled_iff,
    fun s d b a imm => ⟨exec_ldref s d a imm, exec_stref s a b imm⟩,
    fun s d b a imm => ⟨exec_ldh s d a imm, exec_sth s a b imm⟩, ?_, ?_,
    fun s s1 t d a b p q g g' h ha hb => exec_refeq h ha hb, fun s t d a p g h ha => exec_mkref h ha,
    fun s d a h ha i hi => ?_, fun s t q d a p g h ha hp => ⟨exec_pin h ha hp, exec_unpin h ha hp⟩⟩
  · intro s s1 s2 s3 t q d b a w old p keys g g' va h hc ht hl hm hr ho hp
    exact ⟨fun parts hd hw => exec_cash_swaps h hc ht hl hm hr ho hp hd hw,
      fun hd => exec_cash_differs h hc ht hl hm hr ho hp hd⟩
  · intro s s1 s2 d b a w keys va h hc ht hl hm hr
    exact ⟨s2.resumed.draw.2, exec_cash_plain h hc ht hl hm hr⟩
  · obtain ⟨e, he⟩ := s.trapFree_eq 0x07
    exact ⟨e, he ▸ exec_pin_null h d ha i hi⟩

end Sys2Proof.Machine
end

section
/-! PROOFS. Link queues: QOPEN, QCLOSE and its completion, QSTAT (O38: R176-R181, Tables 5.7 and 5.8). -/

namespace Sys2Proof.Machine

/-! ### QOPEN (R177, R178) -/

/-- A queue of the core but the one given is in use, and its box meets another (R178). -/
def State.boxMeets (t : State) (c : CoreId) (n : QNum) (b : Box) : Prop :=
  ∃ m, m ≠ n ∧ (t.queue c m).state ≠ .closed ∧ (t.queue c m).box.meets b = true

theorem State.boxMeets_iff (t : State) (c : CoreId) (n : QNum) (b : Box) : ((List.finRange 16).any fun m =>
    m != n && (t.queue c m).state != .closed && (t.queue c m).box.meets b) = true ↔ t.boxMeets c n b := by
  simp only [List.any_eq_true, List.mem_finRange, true_and, Bool.and_eq_true, bne_iff_ne, and_assoc, State.boxMeets]

section
variable {s : State} {n : QNum} {a : XReg} (h : ¬ s.acting.Awaits [a])
include h

theorem exec_qopen_faults {k : BitVec 8} (hc : s.accessFault s.me .any (s.acting.getX a) 16 false = some k) :
    exec (.qopen n a) s = .next (s.traps k (s.acting.getX a)) := by
  refine (if_neg (Bool.not_eq_true _ ▸ Context.stalls_of_not_awaits h)).trans ?_
  rw [hc]
  rfl

variable {t : State} {w0 w1 : Word} (hc : s.accessFault s.me .any (s.acting.getX a) 16 false = none)
  (hw : s.syncWords s.me (s.acting.getX a) 2 = (t, .ok [w0, w1]))
include hc hw

/-- A QOPEN that has read its descriptor looks at the queue, the descriptor and the boxes, in this order (R178). -/
theorem exec_qopen : exec (.qopen n a) s
    = if (t.queue s.focus n).state = .broken then .next (t.trapFree s.acting.issue 0x0F)
      else if (t.queue s.focus n).state ≠ .closed ∨ descriptorBad (t.annexRow (t.partOf s.focus)) w0 w1 = true ∨
          ((List.finRange 16).any fun m => m != n && (t.queue s.focus m).state != .closed
            && (t.queue s.focus m).box.meets (boxOf w1.toNat)) = true then
        .next (t.trap s.acting.issue 0x02 (wordEval (.qopen n a)))
      else .next ((t.bindQueue s.focus n w0 w1).retire s.acting.issue id) := by
  refine (if_neg (Bool.not_eq_true _ ▸ Context.stalls_of_not_awaits h)).trans ?_
  rw [hc]
  dsimp only
  rw [hw]
  rfl

theorem exec_qopen_broken (hq : (t.queue s.focus n).state = .broken) :
    exec (.qopen n a) s = .next (t.trapFree s.acting.issue 0x0F) := by
  rw [exec_qopen h hc hw, if_pos hq]

theorem exec_qopen_refused (hq : (t.queue s.focus n).state = .opened ∨ (t.queue s.focus n).state = .closed ∧
      (descriptorBad (t.annexRow (t.partOf s.focus)) w0 w1 = true ∨ t.boxMeets s.focus n (boxOf w1.toNat))) :
    exec (.qopen n a) s = .next (t.trap s.acting.issue 0x02 (wordEval (.qopen n a))) := by
  rw [exec_qopen h hc hw]
  rcases hq with hq | ⟨hq, bad⟩
  · rw [hq, if_neg nofun, if_pos (.inl nofun)]
  · rw [hq, if_neg nofun, if_pos (.inr (bad.imp_right (t.boxMeets_iff s.focus n _).2))]

theorem exec_qopen_binds (hq : (t.queue s.focus n).state = .closed)
    (hd : descriptorBad (t.annexRow (t.partOf s.focus)) w0 w1 = false)
    (hm : ∀ m, m ≠ n → (t.queue s.focus m).state ≠ .closed → (t.queue s.focus m).box.meets (boxOf w1.toNat) = false) :
    exec (.qopen n a) s = .next ((t.bindQueue s.focus n w0 w1).retire s.acting.issue id) := by
  have apart : ¬ t.boxMeets s.focus n (boxOf w1.toNat) :=
    fun ⟨m, hn, hs, meets⟩ => Bool.false_ne_true ((hm m hn hs).symm.trans meets)
  rw [exec_qopen h hc hw, hq, hd, if_neg nofun, if_neg]
  rintro (e | e | e)
  · exact e rfl
  · cases e
  · exact apart ((t.boxMeets_iff s.focus n _).1 e)

end

/-! ### QCLOSE (R179) -/

section
variable {s : State} {n : QNum}

theorem exec_qclose_closed (hq : (s.queue s.focus n).state = .closed) : exec (.qclose n) s = .next s.onward := by
  change execQclose n s = _
  simp only [execQclose, hq]
  rfl

theorem exec_qclose_broken (hq : (s.queue s.focus n).state = .broken) :
    exec (.qclose n) s = .next ((s.setQueue s.focus n Queue.reset).retire s.acting.issue id) := by
  change execQclose n s = _
  simp only [execQclose, hq]

theorem exec_qclose_quiet (hq : (s.queue s.focus n).state = .opened)
    (hn : s.queueQuiet s.focus n s.acting.task = true) :
    exec (.qclose n) s = .next ((s.closeQueue s.focus n).retire s.acting.issue id) := by
  change execQclose n s = _
  simp only [execQclose, hq, hn, if_true]

theorem exec_qclose_named (hq : (s.queue s.focus n).state = .opened)
    (hn : s.queueQuiet s.focus n s.acting.task = false) :
    exec (.qclose n) s = .next (s.once (.event (.qcloseCompletion s.me n) .none)) := by
  change execQclose n s = _
  simp only [execQclose, hq, hn, Bool.false_eq_true, if_false]

theorem State.closeQueue_state (s : State) (c : CoreId) (n : QNum) : ((s.closeQueue c n).queue c n).state = .closed := by
  rw [State.closeQueue, State.queue_setQueue_same]
  rfl

/-- A context that stalls in QCLOSE goes on once the queue is quiet (R179). -/
theorem exec_qcloseCompletion {s1 : State} {u : CtxRef} {w w' : Word32}
    (hf : s.fetch u (s.ctx u).pc = (s1, .ok (w, w'))) (hd : decodeDocent w = .ok (.qclose n))
    (hs : (s.ctx u).state = .running ∨ (s.ctx u).state = .ready) (hq : (s.queue u.core n).state = .opened)
    (hn : s.queueQuiet u.core n (s.ctx u).task = true) : exec (.qcloseCompletion u n) s
    = .next ((s.closeQueue u.core n).setCtx u { (s.closeQueue u.core n).ctx u with pc := (s.ctx u).pc + 4 }) := by
  have issues : ((s.ctx u).state == .running || (s.ctx u).state == .ready) = true := by
    simpa only [Bool.or_eq_true, beq_iff_eq] using hs
  change execQcloseCompletion u n s = _
  simp only [execQcloseCompletion, hf, hd, issues, hq, hn, beq_self_eq_true, Bool.and_self, if_true]

end

/-! ### QSTAT (R180, Table 5.8) -/

/-- A sum of shifted pairs of bits, from bit 8 on, is the number that has them as its digits. -/
theorem foldl_pairs_eq_ofDigits (f : Nat → Nat) (n : Nat) :
    (List.range n).foldl (fun a i => a + f i * 2 ^ (8 + 2 * i)) 0 = 2 ^ 8 * Nat.ofDigits 4 ((List.range n).map f) := by
  induction n with
  | zero => rfl
  | succ n ih =>
    have four : (4 : Nat) ^ n = 2 ^ (2 * n) := by rw [Nat.pow_mul]
    rw [List.range_succ, List.foldl_append, ih, List.map_append, Nat.ofDigits_append, List.length_map, List.length_range,
      four]
    simp only [List.foldl_cons, List.foldl_nil, List.map_cons, List.map_nil, Nat.ofDigits_singleton]
    ring

/-- A digit of a number is one of its lower part. -/
theorem digit_add_high {b : Nat} (hb : 0 < b) {i k : Nat} (h : i < k) (x r : Nat) :
    (x + b ^ k * r) / b ^ i % b = x / b ^ i % b := by
  obtain ⟨j, rfl⟩ := Nat.exists_eq_add_of_lt h
  have high : b ^ (i + j + 1) * r = b ^ i * (b * (b ^ j * r)) := by ring
  rw [high, Nat.add_mul_div_left _ _ (Nat.pow_pos hb), Nat.add_mul_mod_self_left]

section
variable (q : Queue)

/-- The codes of a queue's slots, as the digits of a number. -/
def Queue.slotField : Nat := Nat.ofDigits 4 ((List.range q.nslot).map fun i => slotCode (vget q.slots (Fin.ofNat 8 i)))

theorem slotCode_lt (x : Slot) : slotCode x < 4 := by
  cases x <;> decide

theorem Queue.slotCodes_lt : ∀ x ∈ (List.range q.nslot).map fun i => slotCode (vget q.slots (Fin.ofNat 8 i)), x < 4 := by
  intro x hx
  obtain ⟨i, -, rfl⟩ := List.mem_map.1 hx
  exact slotCode_lt _

theorem Queue.slotField_digit (i : Nat) :
    q.slotField / 4 ^ i % 4 = if i < q.nslot then slotCode (vget q.slots (Fin.ofNat 8 i)) else 0 := by
  rw [Queue.slotField, ofDigits_digit 4 (by decide) _ q.slotCodes_lt, List.getD, List.getElem?_map]
  by_cases h : i < q.nslot
  · rw [List.getElem?_range h, if_pos h]
    rfl
  · rw [List.getElem?_eq_none (by simpa using h), if_neg h]
    rfl

theorem Queue.slotField_lt (h : q.nslot ≤ 8) : q.slotField < 2 ^ 16 :=
  calc q.slotField < 4 ^ ((List.range q.nslot).map fun i => slotCode (vget q.slots (Fin.ofNat 8 i))).length :=
        Nat.ofDigits_lt_base_pow_length (by decide) q.slotCodes_lt
    _ ≤ 4 ^ 8 := Nat.pow_le_pow_right (by decide) (by simpa using h)
    _ = 2 ^ 16 := by decide

theorem Queue.qstat_closed (h : q.state = .closed) : q.qstat = 0 := by
  rw [Queue.qstat, h]

/-- The permits that QSTAT shows. -/
def Queue.permitField : Nat := if q.outbound then q.permits.length else 0

/-- The state that QSTAT shows of a queue that is not CLOSED. -/
def Queue.stateField : Nat := if q.state = .opened then 1 else 2

theorem Queue.stateField_le : q.stateField ≤ 2 := by
  unfold Queue.stateField
  split <;> decide

theorem Queue.permitField_lt (hp : q.outbound = true → q.permits.length < 16) : q.permitField < 16 := by
  unfold Queue.permitField
  split
  · next h => exact hp h
  · decide

variable (h : q.state ≠ .closed) (hn : q.nslot ≤ 8) (hp : q.outbound = true → q.permits.length < 16)
include h hn hp

theorem Queue.qstat_toNat : q.qstat.toNat = q.stateField + 4 * q.outbound.toNat + 8 * q.nslot + 128 * q.bound.toNat
    + 2 ^ 8 * q.slotField + 2 ^ 24 * q.permitField + 2 ^ 28 * q.cause.toNat := by
  have ho := q.outbound.toNat_le
  have hb := q.bound.toNat_le
  have hf := q.slotField_lt hn
  have hm := q.permitField_lt hp
  have hc := q.cause.isLt
  have hs : q.stateField ≤ 2 := q.stateField_le
  have word : q.qstat = BitVec.ofNat 64 (q.stateField + 4 * q.outbound.toNat + 8 * q.nslot + 128 * q.bound.toNat
      + 2 ^ 8 * q.slotField + 2 ^ 24 * q.permitField + 2 ^ 28 * q.cause.toNat) := by
    rw [Queue.slotField, ← foldl_pairs_eq_ofDigits, Queue.qstat, Queue.stateField, Queue.permitField]
    cases hq : q.state with
    | closed => exact absurd hq h
    | opened | broken => rfl
  rw [word, BitVec.toNat_ofNat, Nat.mod_eq_of_lt (by omega)]

/-- The fields of QSTAT's result. -/
theorem Queue.qstat_fields : q.qstat.toNat % 4 = q.stateField ∧ q.qstat.getLsbD 2 = q.outbound ∧
    q.qstat.toNat / 8 % 16 = q.nslot ∧ q.qstat.getLsbD 7 = q.bound ∧
    (∀ i < 8, q.qstat.toNat / 2 ^ (8 + 2 * i) % 4
      = if i < q.nslot then slotCode (vget q.slots (Fin.ofNat 8 i)) else 0) ∧
    q.qstat.toNat / 2 ^ 24 % 16 = q.permitField ∧ q.qstat.toNat / 2 ^ 28 % 16 = q.cause.toNat ∧
    q.qstat.toNat < 2 ^ 32 := by
  have hv := q.qstat_toNat h hn hp
  have ho := q.outbound.toNat_le
  have hb := q.bound.toNat_le
  have hf := q.slotField_lt hn
  have hm := q.permitField_lt hp
  have hc := q.cause.isLt
  have hs : q.stateField ≤ 2 := q.stateField_le
  refine ⟨?_, getLsbD_eq_of_div_mod ?_, ?_, getLsbD_eq_of_div_mod ?_, fun i hi => ?_, ?_, ?_, ?_⟩
  case refine_5 =>
    have above : q.qstat.toNat / 2 ^ 8 = q.slotField + 4 ^ 8 * (q.permitField + 16 * q.cause.toNat) := by omega
    have place : 2 ^ (8 + 2 * i) = 2 ^ 8 * 4 ^ i := by rw [Nat.pow_add, Nat.pow_mul]
    rw [place, ← Nat.div_div_eq_div_mul, above, digit_add_high (by decide) hi, q.slotField_digit]
  all_goals omega

end

/-- Settles O38: QOPEN by the first check that fails, QCLOSE by the queue's state, and QSTAT's word field by field. -/
theorem queueInstructions : Obligations.QueueInstructions := by
  unfold Obligations.QueueInstructions
  refine ⟨fun s n a h ht hm => exec_qopen_faults h (State.accessFault_misaligned ht hm), ?_,
    fun s n => ⟨exec_qclose_closed, exec_qclose_broken,
      fun hq hn => ⟨exec_qclose_quiet hq hn, s.closeQueue_state s.focus n⟩, exec_qclose_named⟩,
    fun s s1 u n w w' hf hd hs hq hn => exec_qcloseCompletion hf hd hs hq hn, fun s d n h => ?_⟩
  · intro s t n a w0 w1 h hc hw
    exact ⟨exec_qopen_binds h hc hw, exec_qopen_refused h hc hw, fun hq => ⟨t.draw.2, exec_qopen_broken h hc hw hq⟩⟩
  · exact ⟨_, s.plain_of_not_awaits _ _ _ h, Queue.qstat_closed _, Queue.qstat_fields _⟩

end Sys2Proof.Machine
end

section
/-! PROOFS. Vector words that compute a tile, element by element (O41: R182-R211). -/

namespace Sys2Proof.Machine

/-! ### Operands, position by position (R182) -/

@[simp] theorem rowsOf_length (n : Nat) (ls : List (List Nat)) : (rowsOf n ls).length = n := by
  induction n generalizing ls with
  | zero => rfl
  | succ n ih => rw [rowsOf, List.length_cons, ih]

theorem rowsOf_getElem? (n k : Nat) (ls : List (List Nat)) (h : k < n) :
    (rowsOf n ls)[k]? = some (ls.map fun l => l.getD k 0) := by
  induction n generalizing ls k with
  | zero => omega
  | succ n ih =>
    cases k with
    | zero => simp [rowsOf, List.headD_eq_head?_getD, List.head?_eq_getElem?]
    | succ k => simp [rowsOf, ih k _ (by omega)]

section
variable (s : State) (f : VWord)

@[simp] theorem State.vectorResults_length (ops : List (BitVec 8 × Nat)) (fn : Nat → List Nat → Coded) :
    (s.vectorResults f ops fn).length = s.vec.size := by simp [State.vectorResults]

theorem State.vectorResults_getElem? (ops : List (BitVec 8 × Nat)) (fn : Nat → List Nat → Coded) (k : Nat)
    (h : k < s.vec.size) : (s.vectorResults f ops fn)[k]? = some (if s.vec.governs f.pred k
      then some (fn (s.vectorDraw f k) (ops.map fun o => (s.vec.operand o.1 o.2).getD k 0)) else none) := by
  simp [State.vectorResults, List.getElem?_zipIdx, rowsOf_getElem? _ _ _ h, Function.comp_def]

/-- A word that maps a function over its operands computes that function's values at its governed positions. -/
theorem State.vectorMap_computes {i : Instr} {b : Nat} {ops : List (BitVec 8 × Nat)} {fn : Nat → List Nat → Coded}
    {value : Nat → (Nat → Nat) → Coded} (hi : exec i s = s.vectorMap f b ops fn)
    (hv : ∀ draw l, fn draw l = value draw (nth l)) : s.Computes i f b ops value := by
  refine ⟨fun h => ⟨s.vectorResults f ops fn, hi.trans (if_pos h), s.vectorResults_length f ops fn, fun k hk => ?_⟩,
    fun h => hi.trans (if_neg (by simp [h]))⟩
  rw [s.vectorResults_getElem? f ops fn k hk, hv]
  rfl

end

/-! ### The rows of the tables -/

/-- The instruction of a row maps the row's function over its operands, all of the word's TYPE. -/
def MapsOperands (r : VRow) : Prop :=
  ∀ f : VWord, ∃ fn : Nat → List Nat → Coded, (∀ s, exec (r.instr f) s = s.vectorTyped f (r.operands f) fn) ∧
    ∀ draw l, fn draw l = r.value f draw (nth l)

theorem MapsOperands.computes {r : VRow} (h : MapsOperands r) (s : State) (f : VWord) :
    s.Computes (r.instr f) f (elOf f.type).bytes ((r.operands f).map fun o => (o, (elOf f.type).bytes)) (r.value f) := by
  obtain ⟨fn, hi, hv⟩ := h f
  exact s.vectorMap_computes f (hi s) hv

/-- Sums, products, quotients and roots (R192, R193) mean what the table says as it stands. -/
theorem floatTable_mapsOperands : ∀ r ∈ floatTable, MapsOperands r := by
  simp only [floatTable, List.forall_mem_cons, List.not_mem_nil, false_implies, implies_true, and_true]
  refine ⟨?_, ?_, ?_, ?_, ?_, ?_, ?_, ?_, ?_⟩ <;> exact fun f => ⟨_, fun s => rfl, fun draw l => rfl⟩

theorem Fl.signBit_true (g : Fl) : g.signBit true = 2 ^ (g.width - 1) := Nat.one_shiftLeft _

/-- Minimum, maximum, sign changes, scaling and integral values (R196-R200). -/
theorem codeTable_mapsOperands : ∀ r ∈ codeTable, MapsOperands r := by
  simp only [codeTable, List.forall_mem_cons, List.not_mem_nil, false_implies, implies_true, and_true]
  refine ⟨?_, ?_, ?_, ?_, ?_, ?vneg, ?_, ?_, ?_⟩
  case vneg => exact fun f => ⟨_, fun s => rfl, fun draw l => by rw [Fl.signBit_true]⟩
  all_goals exact fun f => ⟨_, fun s => rfl, fun draw l => rfl⟩

/-- Bounded functions (R194, R203-R208). -/
theorem functionTable_mapsOperands : ∀ r ∈ functionTable, MapsOperands r := by
  simp only [functionTable, List.forall_mem_cons, List.not_mem_nil, false_implies, implies_true, and_true]
  refine ⟨?_, ?_, ?_, ?_, ?_, ?_, ?_, ?_, ?_, ?_, ?_⟩ <;> exact fun f => ⟨_, fun s => rfl, fun draw l => rfl⟩

theorem natAbs_cast_eq_ite (x : Int) : (x.natAbs : Int) = if x < 0 then -x else x := by
  split <;> omega

/-- Integers, shifts and logic (R209-R211). -/
theorem integerTable_mapsOperands : ∀ r ∈ integerTable, MapsOperands r := by
  simp only [integerTable, List.forall_mem_cons, List.not_mem_nil, false_implies, implies_true, and_true]
  refine ⟨?_, ?_, ?_, ?_, ?_, ?_, ?_, ?viabs, ?_, ?vshr, ?_, ?_, ?_, ?_, ?_⟩
  case viabs => exact fun f => ⟨_, fun s => rfl, fun draw l => by simp only [natAbs_cast_eq_ite]; rfl⟩
  case vshr => exact fun f => ⟨_, fun s => rfl, fun draw l => by rw [Nat.shiftRight_eq_div_pow]⟩
  all_goals exact fun f => ⟨_, fun s => rfl, fun draw l => rfl⟩

/-- The rows of chapter 6. -/
theorem arithmetic_mapsOperands : ∀ r ∈ floatTable ++ codeTable ++ functionTable ++ integerTable, MapsOperands r := by
  simp only [List.forall_mem_append]
  exact ⟨⟨⟨floatTable_mapsOperands, codeTable_mapsOperands⟩, functionTable_mapsOperands⟩, integerTable_mapsOperands⟩

/-- Settles O41: each row maps its function over its operands, and a map is taken element by element. -/
theorem vectorArithmetic : Obligations.VectorArithmetic := by
  unfold Obligations.VectorArithmetic
  exact fun r hr s f => (arithmetic_mapsOperands r hr).computes s f

end Sys2Proof.Machine
end

section
/-! PROOFS. Comparisons, classes and predicate logic (O42: R201, R202, R234, R235). -/

namespace Sys2Proof.Machine

/-! ### Tests of elements (R201, R202) -/

/-- The tests of the positions in order: false where they are not governed. -/
def State.vectorTests (s : State) (f : VWord) (ops : List (BitVec 8)) (fn : List Nat → Bool × Sticky) :
    List (Bool × Sticky) :=
  (rowsOf s.vec.size (ops.map fun o => s.vec.operand o (elOf f.type).bytes)).zipIdx.map fun p =>
    if s.vec.governs f.pred p.2 then fn p.1 else (false, 0)

section
variable (s : State) (f : VWord) (ops : List (BitVec 8)) (fn : List Nat → Bool × Sticky)

@[simp] theorem State.vectorTests_length : (s.vectorTests f ops fn).length = s.vec.size := by simp [State.vectorTests]

theorem State.vectorTests_getElem? (k : Nat) (h : k < s.vec.size) : (s.vectorTests f ops fn)[k]? = some
    (if s.vec.governs f.pred k then fn (ops.map fun o => (s.vec.operand o (elOf f.type).bytes).getD k 0)
      else (false, 0)) := by
  simp [State.vectorTests, List.getElem?_zipIdx, rowsOf_getElem? _ _ _ h, Function.comp_def]

theorem State.vectorTest_passes
    (h : s.vec.operandsOk (elOf f.type).bytes (ops.map fun o => (o, (elOf f.type).bytes)) = true) :
    s.vectorTest f ops fn = .next (s.vectorDone
      (s.vec.setPred (f.aux.toNat % 8) s.vec.size (bitsOf ((s.vectorTests f ops fn).map fun r => r.1)))
      ((s.vectorTests f ops fn).foldl (fun a r => a ||| r.2) 0) false) := by
  have all : s.vectorTest f ops fn = .next (s.vectorDone
      (s.vec.setPred (f.aux.toNat % 8) (s.vectorTests f ops fn).length
        (bitsOf ((s.vectorTests f ops fn).map fun r => r.1)))
      ((s.vectorTests f ops fn).foldl (fun a r => a ||| r.2) 0) false) := if_pos h
  rwa [s.vectorTests_length] at all

theorem State.vectorTest_fails
    (h : s.vec.operandsOk (elOf f.type).bytes (ops.map fun o => (o, (elOf f.type).bytes)) = false) :
    s.vectorTest f ops fn = .next (s.vectorFail s.focus causeFormat) := if_neg (by simp [h])

end

/-- A word that sets the bits of the shape to a test of its operands' elements, or stops with FORMAT (R201, R202). -/
def State.SetsTests (s : State) (i : Instr) (f : VWord) (ops : List (BitVec 8)) (test : (Nat → Nat) → Bool × Sticky) :
    Prop :=
  let b := (elOf f.type).bytes
  (s.vec.operandsOk b (ops.map fun o => (o, b)) = true → ∃ out : List (Bool × Sticky),
    exec i s = .next (s.vectorDone (s.vec.setPred (f.aux.toNat % 8) s.vec.size (bitsOf (out.map fun r => r.1)))
      (out.foldl (fun a r => a ||| r.2) 0) false) ∧
    out.length = s.vec.size ∧
    ∀ k < s.vec.size, out[k]? = some (if s.vec.governs f.pred k
      then test fun n => (ops.map fun o => (s.vec.operand o b).getD k 0).getD n 0 else (false, 0))) ∧
  (s.vec.operandsOk b (ops.map fun o => (o, b)) = false → exec i s = .next (s.vectorFail s.focus causeFormat))

theorem State.vectorTest_sets {s : State} {f : VWord} {ops : List (BitVec 8)} {fn : List Nat → Bool × Sticky} {i : Instr}
    {test : (Nat → Nat) → Bool × Sticky} (hi : exec i s = s.vectorTest f ops fn) (hv : ∀ l, fn l = test (nth l)) :
    s.SetsTests i f ops test := by
  refine ⟨fun h => ⟨s.vectorTests f ops fn, hi.trans (s.vectorTest_passes f ops fn h), s.vectorTests_length f ops fn,
    fun k hk => ?_⟩, fun h => hi.trans (s.vectorTest_fails f ops fn h)⟩
  rw [s.vectorTests_getElem? f ops fn k hk, hv]
  rfl

/-- Table 6.3 on an order and on unordered values. -/
theorem holdsFor_eq_comparison (cmp : Nat) (unordered : Bool) (o : Ordering) :
    holdsFor cmp unordered o = comparison cmp (if unordered then none else some o) := by
  match cmp with
  | 0 | 1 | 2 | 3 | 4 | 5 | 6 => cases unordered <;> cases o <;> rfl
  | n + 7 => cases unordered <;> rfl

section
variable (s : State) (f : VWord)

theorem exec_vcls : s.SetsTests (.vcls f) f [f.a] fun o =>
    ((f.aux.toNat / 8 % 1024).testBit ((flOf f.type).classOf (o 0)), 0) := by
  refine State.vectorTest_sets (fn := fun l => ((bits f.aux.toNat 3 10).testBit ((flOf f.type).classOf (nth l 0)), 0)) rfl
    fun l => ?_
  rw [bits, Nat.shiftRight_eq_div_pow]
  rfl

theorem exec_vcmp_float {g : Fl} (hg : elOf f.type = .fl g) :
    let cmp := f.aux.toNat / 8 % 16
    s.SetsTests (.vcmp f) f [f.a, f.b] fun o =>
      let x := g.decode (o 0)
      let y := g.decode (o 1)
      (comparison cmp (if x.isNan || y.isNan then none else some (compareVal x y)),
        if (if 2 ≤ cmp ∧ cmp ≤ 5 then x.isNan || y.isNan else x.isSnan || y.isSnan) then invalidFlag else 0) := by
  have run : exec (.vcmp f) s = execVcmp f s := rfl
  rw [execVcmp, hg] at run
  refine State.vectorTest_sets run fun l => ?_
  simp only [bits, Nat.shiftRight_eq_div_pow, holdsFor_eq_comparison, Bool.and_eq_true, decide_eq_true_eq]
  rfl

theorem exec_vcmp_int {t : ITy} (ht : elOf f.type = .int t) :
    s.SetsTests (.vcmp f) f [f.a, f.b] fun o =>
      (comparison (f.aux.toNat / 8 % 16) (some (compare (t.read (o 0)) (t.read (o 1)))), 0) := by
  have run : exec (.vcmp f) s = execVcmp f s := rfl
  rw [execVcmp, ht] at run
  refine State.vectorTest_sets run fun l => ?_
  simp only [bits, Nat.shiftRight_eq_div_pow, holdsFor_eq_comparison]
  rfl

end

/-! ### Predicate registers (R21, R234) -/

/-- Bits of a predicate register are what it governs; P0 is all true. -/
theorem VectorUnit.pred_testBit (v : VectorUnit) (sp : BitVec 8) (k : Nat) (h : k < 32768) :
    (v.pred sp.toNat).testBit k = v.governs (BitVec.ofNat 3 sp.toNat) k := by
  have number : (BitVec.ofNat 3 sp.toNat == 0#3) = decide (sp.toNat % 8 = 0) := by
    rw [Bool.eq_iff_iff, beq_iff_eq, decide_eq_true_iff, BitVec.toNat_eq, BitVec.toNat_ofNat]
    rfl
  have register : Fin.ofNat 8 (BitVec.ofNat 3 sp.toNat).toNat = Fin.ofNat 8 sp.toNat := by
    simp [Fin.ext_iff]
  rw [VectorUnit.governs, number, register, VectorUnit.pred]
  split
  · next zero => simp only [Nat.testBit_two_pow_sub_one, h, zero, decide_true, Bool.true_or]
  · next other => simp only [other, decide_false, Bool.false_or]; rfl

theorem VectorUnit.pred_lt (v : VectorUnit) (p : Nat) : v.pred p < 2 ^ 32768 := by
  rw [VectorUnit.pred]
  split
  · exact Nat.sub_one_lt (Nat.two_pow_pos _).ne'
  · exact BitVec.isLt _

theorem bitsOf_testBit (l : List Bool) (k : Nat) : (bitsOf l).testBit k = l.getD k false := by
  induction l generalizing k with
  | nil => simp [bitsOf]
  | cons b l ih =>
    have step : bitsOf (b :: l) = b.toNat + 2 * bitsOf l := rfl
    cases k with
    | zero => cases b <;> simp [step, Nat.testBit_zero, Nat.add_mod]
    | succ k =>
      rw [List.getD_cons_succ, ← ih, step, Nat.testBit_succ]
      congr 1
      cases b with
      | false => simp
      | true => simp; omega

/-- Rows of one length laid end to end. -/
theorem flatten_rows_getElem? {α : Type} (g : Nat → Nat → α) (n c k : Nat) (h : k < n * c) :
    ((List.range n).map fun r => (List.range c).map (g r)).flatten[k]? = some (g (k / c) (k % c)) := by
  induction n with
  | zero => omega
  | succ n ih =>
    have before : ((List.range n).map fun r => (List.range c).map (g r)).flatten.length = n * c := by
      simp [List.length_flatten, Function.comp_def]
    rw [List.range_succ, List.map_append, List.flatten_append]
    rcases Nat.lt_or_ge k (n * c) with low | high
    · rw [List.getElem?_append_left (before ▸ low), ih low]
    · obtain ⟨j, rfl⟩ := Nat.exists_eq_add_of_le high
      have hj : j < c := by rw [Nat.succ_mul] at h; omega
      rw [List.getElem?_append_right (by omega), before, Nat.add_sub_cancel_left, Nat.mul_comm n c,
        Nat.mul_add_div (by omega), Nat.mul_add_mod, Nat.div_eq_of_lt hj, Nat.mod_eq_of_lt hj]
      simp [hj]

/-- The positions of a shape by linear index (R182). -/
theorem VectorUnit.positions_getElem? (v : VectorUnit) (k : Nat) (h : k < v.size) :
    v.positions[k]? = some (k / v.cols, k % v.cols) := flatten_rows_getElem? Prod.mk _ _ _ h

theorem VectorUnit.bitsOf_positions_testBit (v : VectorUnit) (p : Nat → Nat → Bool) (k : Nat) (h : k < v.size) :
    (bitsOf (v.positions.map fun q => p q.1 q.2)).testBit k = p (k / v.cols) (k % v.cols) := by
  rw [bitsOf_testBit, List.getD_eq_getElem?_getD, List.getElem?_map, v.positions_getElem? k h]
  rfl

/-! ### Predicate words (R234, R235) -/

theorem VectorUnit.size_le_of_predOk {v : VectorUnit} (h : v.predOk = true) : v.size ≤ 32768 :=
  of_decide_eq_true (Bool.and_eq_true_iff.mp h).2

section
variable {s : State} (f : VWord) {value : VectorUnit → Nat}

/-- A predicate word whose shape passes sets the bits of the shape to those of its value. -/
theorem State.vectorPred_gives {bit : Nat → Bool} (h : s.vec.predOk = true)
    (hv : ∀ k < s.vec.size, (value s.vec).testBit k = bit k) :
    ∃ n : Nat, s.vectorPred f value = .next (s.vectorDone (s.vec.setPred f.dst.toNat s.vec.size n) 0 false) ∧
      ∀ k < s.vec.size, n.testBit k = bit k :=
  ⟨value s.vec, if_pos h, hv⟩

theorem State.vectorPred_fails (h : s.vec.predOk = false) :
    s.vectorPred f value = .next (s.vectorFail s.focus causeFormat) := if_neg (by simp [h])

end

/-- What PSET writes, by its condition (Table 7.9). -/
def VectorUnit.psetBit (v : VectorUnit) (cond : Nat) (n : Int) (k : Nat) : Bool :=
  match cond with
  | 0 => false
  | 1 => true
  | 2 => decide ((k : Int) < n)
  | 3 => decide ((k : Int) / v.cols < n)
  | 4 => decide ((k : Int) % v.cols < n)
  | _ => decide ((k : Int) % v.cols ≤ (k : Int) / v.cols + n)

section
variable (s : State) (f : VWord)

theorem exec_pand : exec (.pand f) s = s.vectorPred f fun v => v.pred f.a.toNat &&& v.pred f.b.toNat := rfl

theorem exec_por : exec (.por f) s = s.vectorPred f fun v => v.pred f.a.toNat ||| v.pred f.b.toNat := rfl

theorem exec_pxor : exec (.pxor f) s = s.vectorPred f fun v => v.pred f.a.toNat ^^^ v.pred f.b.toNat := rfl

theorem exec_pnot : exec (.pnot f) s = s.vectorPred f fun v => 2 ^ 32768 - 1 - v.pred f.a.toNat := rfl

/-- Each condition of PSET is on the row, the column or the linear index of a position. -/
theorem exec_pset : ∃ value : VectorUnit → Nat, exec (.pset f) s = s.vectorPred f value ∧
    ∀ (v : VectorUnit), ∀ k < v.size, (value v).testBit k = v.psetBit (f.aux.toNat % 8) (v.scalar f.a).toInt k := by
  have run : exec (.pset f) s = execPset f s := rfl
  rw [run, execPset]
  refine ⟨_, rfl, fun v k hk => ?_⟩
  have code : bits f.aux.toNat 0 3 = f.aux.toNat % 8 := rfl
  dsimp only
  rw [code]
  generalize f.aux.toNat % 8 = c
  match c with
  | 0 => exact Nat.zero_testBit k
  | 1 => simp [VectorUnit.psetBit, Nat.testBit_two_pow_sub_one, hk]
  | 2 =>
    have index : ((k / v.cols : Nat) : Int) * v.cols + (k % v.cols : Nat) = k := by
      exact_mod_cast Nat.div_add_mod' k v.cols
    have set := v.bitsOf_positions_testBit (fun r c => decide ((r * v.cols + c : Int) < (v.scalar f.a).toInt)) k hk
    rwa [index] at set
  | 3 => exact v.bitsOf_positions_testBit (fun r _ => decide ((r : Int) < (v.scalar f.a).toInt)) k hk
  | 4 => exact v.bitsOf_positions_testBit (fun _ c => decide ((c : Int) < (v.scalar f.a).toInt)) k hk
  | n + 5 => exact v.bitsOf_positions_testBit (fun r c => decide ((c : Int) ≤ r + (v.scalar f.a).toInt)) k hk

end

/-- Settles O42: the tests element by element, and the predicate words bit by bit. -/
theorem predicateResults : Obligations.PredicateResults := by
  unfold Obligations.PredicateResults
  refine ⟨fun s f => ⟨fun g hg => exec_vcmp_float s f hg, fun t ht => exec_vcmp_int s f ht, exec_vcls s f⟩,
    fun s f h => ?_, fun s f h i hi => ?_⟩
  · have low (sp : BitVec 8) (k : Nat) (hk : k < s.vec.size) :=
      s.vec.pred_testBit sp k (Nat.lt_of_lt_of_le hk (VectorUnit.size_le_of_predOk h))
    obtain ⟨pset, run, set⟩ := exec_pset s f
    dsimp only
    rw [exec_pand, exec_por, exec_pxor, exec_pnot, run]
    refine ⟨State.vectorPred_gives f h fun k hk => ?_, State.vectorPred_gives f h fun k hk => ?_,
      State.vectorPred_gives f h fun k hk => ?_, State.vectorPred_gives f h fun k hk => ?_,
      State.vectorPred_gives f h fun k hk => set s.vec k hk⟩
    · rw [Nat.testBit_and, low _ k hk, low _ k hk]
    · rw [Nat.testBit_or, low _ k hk, low _ k hk]
    · rw [Nat.testBit_xor, low _ k hk, low _ k hk]
    · rw [Nat.sub_sub, Nat.add_comm 1, Nat.testBit_two_pow_sub_succ (s.vec.pred_lt _), low _ k hk]
      simp [Nat.lt_of_lt_of_le hk (VectorUnit.size_le_of_predOk h)]
  · obtain ⟨pset, run, -⟩ := exec_pset s f
    simp only [List.mem_cons, List.not_mem_nil, or_false] at hi
    rcases hi with rfl | rfl | rfl | rfl | rfl
    · exact (exec_pand s f).trans (State.vectorPred_fails f h)
    · exact (exec_por s f).trans (State.vectorPred_fails f h)
    · exact (exec_pxor s f).trans (State.vectorPred_fails f h)
    · exact (exec_pnot s f).trans (State.vectorPred_fails f h)
    · exact run.trans (State.vectorPred_fails f h)

end Sys2Proof.Machine
end

section
/-! PROOFS. What a vector word that goes on leaves unchanged (O47: R182-R189, R237). -/

namespace Sys2Proof.Machine

/-! ### Results in the register file (R185) -/

/-- A tile's results change the V registers and Z alone. -/
theorem VectorUnit.setTile_eq (v : VectorUnit) (dst : BitVec 8) (d : List Byte) :
    ∃ m z : Memory, v.setTile dst d = { v with v := m, z := z } := by
  unfold VectorUnit.setTile
  split
  · exact ⟨v.v, _, rfl⟩
  · exact ⟨_, _, rfl⟩

theorem VectorUnit.setCodes_eq (v : VectorUnit) (dst : BitVec 8) (b : Nat) (l : List (Option Nat)) :
    ∃ m z : Memory, v.setCodes dst b l = { v with v := m, z := z } := v.setTile_eq dst _

/-- What places an engine in its kernel: the task, the kernel's words, the next of them, and the loops. -/
structure VectorUnit.Steady (v w : VectorUnit) : Prop where
  kernel : w.kernel = v.kernel
  task : w.task = v.task
  next : w.next = v.next
  loops : w.loops = v.loops
  lc : w.lc = v.lc

theorem VectorUnit.setCodes_steady (v : VectorUnit) (dst : BitVec 8) (b : Nat) (l : List (Option Nat)) :
    v.Steady (v.setCodes dst b l) := by
  obtain ⟨m, z, e⟩ := v.setCodes_eq dst b l
  rw [e]
  exact ⟨rfl, rfl, rfl, rfl, rfl⟩

theorem VectorUnit.setPred_steady (v : VectorUnit) (p n low : Nat) : v.Steady (v.setPred p n low) := by
  unfold VectorUnit.setPred
  split <;> exact ⟨rfl, rfl, rfl, rfl, rfl⟩

theorem VectorUnit.setLine_steady (v : VectorUnit) (dst : BitVec 8) (b : Nat) (l : List (Option Nat)) :
    v.Steady (v.setLine dst b l) := ⟨rfl, rfl, rfl, rfl, rfl⟩

/-! ### The words that compute -/

/-- A word has computed in the engine's registers, or its checks have failed (R189). -/
def State.Computed (s : State) (o : Host.Outcome State Fault Refusal) : Prop :=
  (∃ (v : VectorUnit) (flags : Sticky) (draws : Bool), s.vec.Steady v ∧ o = .next (s.vectorDone v flags draws)) ∨
    o = .next (s.vectorFail s.focus causeFormat)

namespace State.Computed
variable {s : State} {o r : Host.Outcome State Fault Refusal}

theorem done {v : VectorUnit} {flags : Sticky} {draws : Bool} (h : s.vec.Steady v) :
    s.Computed (.next (s.vectorDone v flags draws)) := .inl ⟨v, flags, draws, h, rfl⟩

theorem fail : s.Computed (.next (s.vectorFail s.focus causeFormat)) := .inr rfl

theorem ite {p : Prop} [Decidable p] (h : s.Computed o) (k : s.Computed r) : s.Computed (if p then o else r) := by
  split
  · exact h
  · exact k

end State.Computed

section
variable (s : State) (f : VWord)

theorem State.vectorMap_computed (b : Nat) (ops : List (BitVec 8 × Nat)) (fn : Nat → List Nat → Coded) :
    s.Computed (s.vectorMap f b ops fn) := .ite (.done (VectorUnit.setCodes_steady ..)) .fail

theorem State.vectorTest_computed (ops : List (BitVec 8)) (fn : List Nat → Bool × Sticky) :
    s.Computed (s.vectorTest f ops fn) := .ite (.done (VectorUnit.setPred_steady ..)) .fail

theorem State.vectorPut_computed (codes : List Nat) : s.Computed (s.vectorPut f codes) :=
  .done (VectorUnit.setCodes_steady ..)

theorem State.vectorReduce_computed (byRow : Bool) : s.Computed (s.vectorReduce f byRow) :=
  .ite .fail (.done (VectorUnit.setLine_steady ..))

theorem State.vectorPred_computed (value : VectorUnit → Nat) : s.Computed (s.vectorPred f value) :=
  .ite (.done (VectorUnit.setPred_steady ..)) .fail

end

/-- The words of the arithmetic tables, the moves, the folds, the conversions, the predicate words and the control words
that do not loop compute in the engine's registers. -/
theorem exec_vectorComputes {i : Instr} (s : State) (hi : i.vectorComputes = true) : s.Computed (exec i s) := by
  cases i with
  | vadd f | vsub f | vmul f | vfma f | vfms f | vfnma f | vfnms f | vdiv f | vsqrt f | vrcp f | vrsq f | vmin f | vmax f
  | vminm f | vmaxm f | vabs f | vneg f | vcps f | vscl f | vrnd f | vexp f | vexp2 f | vlog f | vlog2 f | vsin f
  | vcos f | vtanh f | vsigm f | verf f | viadd f | visub f | vimul f | vimulh f | vimad f | vimin f | vimax f | viabs f
  | vshl f | vshr f | vsra f | vand f | vor f | vxor f | vnot f | vmov f | vcvt f | vqnt f =>
    exact s.vectorMap_computed f _ _ _
  | vcmp f | vcls f =>
    dsimp only [exec, execVcmp, execVcls]
    exact s.vectorTest_computed f _ _
  | pand f | por f | pxor f | pnot f | pset f =>
    dsimp only [exec, execPand, execPor, execPxor, execPnot, execPset]
    exact s.vectorPred_computed f _
  | vredr f | vredc f => exact s.vectorReduce_computed f _
  | vbcast f => exact .ite .fail (s.vectorPut_computed f _)
  | vtrn f => exact .ite (s.vectorPut_computed f _) .fail
  | vsel f => exact .ite (.done (VectorUnit.setCodes_steady ..)) .fail
  | vscan f => exact .ite .fail (.done (VectorUnit.setCodes_steady ..))
  | vshape f | rot f | vsets f => exact .done ⟨rfl, rfl, rfl, rfl, rfl⟩
  | _ => cases hi

/-! ### A word that the next word follows (R237) -/

theorem State.SameCores.core {s t : State} (h : s.SameCores t) (c : CoreId) : t.core c = s.core c := by
  rw [State.core, h.1]
  rfl

theorem State.once_cores (s : State) (a : Act) : s.SameCores (s.once a) := by
  unfold State.once
  split
  · exact .refl s
  · exact .same rfl rfl

/-- Only the registers of the core in focus, its tasks' entries and the agenda may have changed. -/
structure State.VectorOnly (s t : State) : Prop where
  mem : t.mem = s.mem
  tags : t.tags = s.tags
  focus : t.focus = s.focus
  ctx : ∀ u, t.ctx u = s.ctx u
  core : ∀ c, c ≠ s.focus → t.core c = s.core c
  part : ∀ p, t.part p = s.part p

namespace State.VectorOnly
variable {s t q : State}

theorem refl (s : State) : s.VectorOnly s := ⟨rfl, rfl, rfl, fun _ => rfl, fun _ _ => rfl, fun _ => rfl⟩

theorem trans (h : s.VectorOnly t) (k : t.VectorOnly q) : s.VectorOnly q :=
  ⟨k.mem.trans h.mem, k.tags.trans h.tags, k.focus.trans h.focus, fun u => (k.ctx u).trans (h.ctx u),
    fun c hc => (k.core c (h.focus ▸ hc)).trans (h.core c hc), fun p => (k.part p).trans (h.part p)⟩

theorem setCore (k : Core) (hk : k.ctxs = (s.core s.focus).ctxs) : s.VectorOnly (s.setCore s.focus k) :=
  ⟨rfl, rfl, rfl, State.ctx_setCore s s.focus k hk, fun _ hc => State.core_setCore_other _ _ _ _ hc.symm, fun _ => rfl⟩

theorem once (a : Act) : s.VectorOnly (s.once a) := by
  unfold State.once
  split
  · exact .refl s
  · exact ⟨rfl, rfl, rfl, fun _ => rfl, fun _ _ => rfl, fun _ => rfl⟩

end State.VectorOnly

/-- The engine's registers after a word that leaves `v` (R186, R237). -/
def VectorUnit.issued (v : VectorUnit) (draws : Bool) : VectorUnit :=
  { v with next := v.next + 1, waiting := false, after := none, x := if draws then (v.x + 1) % 2 ^ 32 else v.x }

/-- A word has taken effect, before it is asked what follows. -/
def State.vectorStepped (s : State) (v : VectorUnit) (flags : Sticky) (draws : Bool) : State :=
  match v.task with
  | some h => (s.setVec s.focus (v.issued draws)).raiseTask s.focus h flags
  | none => s.setVec s.focus (v.issued draws)

section
variable (s : State) (v : VectorUnit) (flags : Sticky) (draws : Bool)

theorem State.vectorDone_eq : s.vectorDone v flags draws = (s.vectorStepped v flags draws).vectorGo s.focus := rfl

@[simp] theorem State.vectorStepped_vec : ((s.vectorStepped v flags draws).core s.focus).vec = v.issued draws := by
  unfold State.vectorStepped
  split <;> simp [State.raiseTask, State.setEntry, State.setVec]

theorem State.vectorStepped_only : s.VectorOnly (s.vectorStepped v flags draws) := by
  have registers : s.VectorOnly (s.setVec s.focus (v.issued draws)) := .setCore _ rfl
  unfold State.vectorStepped
  split
  · exact registers.trans (.setCore _ rfl)
  · exact registers

/-- Where no loop ends and the kernel goes on, the next word is due. -/
theorem State.vectorGo_follows {s : State} {c : CoreId} (hk : (s.core c).vec.next < (s.core c).vec.kernel.length)
    (hl : ((s.core c).vec.loops.toList.any fun l => l.active && l.last + 1 == (s.core c).vec.next) = false) :
    s.vectorGo c = s.once (.unit (.vector c)) := by
  unfold State.vectorGo
  dsimp only
  rw [hl, if_neg Bool.false_ne_true, if_neg (by omega)]

end

/-- A word that the next word follows changes the engine's registers, its task's flags and the agenda alone. -/
theorem State.vectorDone_follows {s : State} {v : VectorUnit} (flags : Sticky) (draws : Bool) (hf : s.Follows)
    (hv : s.vec.Steady v) :
    s.VectorOnly (s.vectorDone v flags draws) ∧ (s.vectorDone v flags draws).vec = v.issued draws := by
  obtain ⟨more, loops⟩ := hf
  have next : s.vectorDone v flags draws = (s.vectorStepped v flags draws).once (.unit (.vector s.focus)) := by
    rw [State.vectorDone_eq, State.vectorGo_follows]
    · rw [State.vectorStepped_vec]
      simpa [VectorUnit.issued, hv.next, hv.kernel] using more
    · rw [State.vectorStepped_vec]
      simpa [VectorUnit.issued, hv.next, hv.loops] using loops
  have stepped := s.vectorStepped_only v flags draws
  have due := (s.vectorStepped v flags draws).once_cores (.unit (.vector s.focus))
  rw [next]
  refine ⟨stepped.trans (.once _), ?_⟩
  rw [State.vec, due.2, due.core, stepped.focus, State.vectorStepped_vec]

end Sys2Proof.Machine
end

section
/-! PROOFS. The rest of the memory system leaves the cores and, where it stores nothing, the memories as they are (R36, R309,
R333-R335, R348, R376-R378). -/

namespace Sys2Proof.Machine

section
variable (s : State)

/-! ### Lines read (R37, R348) -/

theorem State.countCheck_cores (d : DieNum) (p : PartNum) : s.SameCores (s.countCheck d p) := by
  unfold State.countCheck
  dsimp only
  split
  · exact (State.SameCores.same rfl rfl : s.SameCores (s.setPart p _)).trans (State.raiseSource_cores _ _ _)
  · exact .same rfl rfl

theorem State.countCheck_keeps (d : DieNum) (p : PartNum) : s.Keeps (s.countCheck d p) := by
  unfold State.countCheck
  dsimp only
  split
  · exact (State.Keeps.same rfl rfl : s.Keeps (s.setPart p _)).trans (State.raiseSource_keeps _ _ _)
  · exact .same rfl rfl

theorem State.lineArrives_cores (ag : Agent) (d : List Byte) (t : Word) : s.SameCores (s.lineArrives ag d t).1 :=
  .ite (.refl s) (by
    dsimp only
    split
    · exact .refl s
    · exact s.countCheck_cores _ _)

theorem State.lineArrives_keeps (ag : Agent) (d : List Byte) (t : Word) : s.Keeps (s.lineArrives ag d t).1 :=
  .ite (.refl s) (by
    dsimp only
    split
    · exact .refl s
    · exact s.countCheck_keeps _ _)

theorem State.readLineKey_cores (k : Nat) : s.SameCores (s.readLineKey k).1 := by
  unfold State.readLineKey
  dsimp only
  split
  · exact .refl s
  · split <;> exact s.verify_cores _

/-- The answer of another device to a read: free bytes and a free tag (log 10). -/
theorem State.answered_cores (n : Nat) : s.SameCores (s.answerThere.1.drawBytes n).1.draw.1 :=
  ((State.SameCores.same rfl rfl : s.SameCores s.answerThere.1).trans (State.drawBytes_cores _ n)).also rfl rfl

theorem State.answered_keeps (n : Nat) : s.Keeps (s.answerThere.1.drawBytes n).1.draw.1 :=
  ((State.Keeps.same rfl rfl : s.Keeps s.answerThere.1).trans (State.drawBytes_keeps _ n)).also rfl rfl

theorem State.readLineVa_cores (ag : Agent) (va : Word) : s.SameCores (s.readLineVa ag va).1 := by
  unfold State.readLineVa
  split
  · split
    · exact .refl s
    · have asked := s.answered_cores 64
      dsimp only
      split
      · exact asked.also rfl rfl
      · exact asked.also rfl rfl
      · exact asked.also rfl rfl
      · refine State.SameCores.trans ?_ (State.lineArrives_cores _ _ _ _)
        exact asked.also rfl rfl
  · have located := s.locateRead_cores ag va
    dsimp only
    split
    · dsimp only
      exact (located.trans (State.readLineKey_cores _ _)).trans (State.readsFrom_cores _ _ _ _)
    · exact located
    · exact located
    · exact located

theorem State.readLineVa_keeps (ag : Agent) (va : Word) : s.Keeps (s.readLineVa ag va).1 := by
  unfold State.readLineVa
  split
  · split
    · exact .refl s
    · have asked := s.answered_keeps 64
      dsimp only
      split
      · exact asked.also rfl rfl
      · exact asked.also rfl rfl
      · exact asked.also rfl rfl
      · refine State.Keeps.trans ?_ (State.lineArrives_keeps _ _ _ _)
        exact asked.also rfl rfl
  · have located := s.locateRead_keeps ag va
    dsimp only
    split
    · dsimp only
      exact (located.trans (State.readLineKey_keeps _ _)).trans (State.readsFrom_keeps _ _ _ _)
    · exact located
    · exact located
    · exact located

/-! ### Writes located (R329, R330, R376-R378) -/

theorem State.copiesOn_cores (ag : Agent) (va : Word) (off : Nat) (l : List DieNum) :
    s.SameCores (s.copiesOn ag va off l).1 := by
  have walked := s.walkCopies_cores ag va off l
  unfold State.copiesOn
  dsimp only
  split
  · exact walked.trans (State.unpark_cores ..)
  · exact walked.trans (State.unpark_cores ..)
  · exact walked

theorem State.locateWrite_cores (ag : Agent) (va : Word) (sp : Spread) : s.SameCores (s.locateWrite ag va sp).1 := by
  unfold State.locateWrite
  split
  · exact .refl s
  · exact .refl s
  · exact .refl s
  · exact .same rfl rfl
  · exact .ite (.refl s) (.refl s)
  · next die off _ =>
    have walked := s.locateOn_cores ag true va die off false
    have copies (l : List DieNum) := walked.trans (State.copiesOn_cores _ ag va off l)
    dsimp only
    split
    · refine .ite walked ?_
      cases sp with
      | all => exact copies _
      | own => exact copies _
      | never => exact walked
    · exact walked
    · exact walked
    · exact walked

theorem State.locateAll_cores (ag : Agent) (va : Word) : s.SameCores (s.locateAll ag va).1 := by
  unfold State.locateAll
  split
  · next die off _ =>
    have walked := s.locateOn_cores ag true va die off false
    have copies (l : List DieNum) := walked.trans (State.walkCopies_cores _ ag va off l)
    dsimp only
    split
    · refine .ite walked ?_
      split
      · exact (copies _).trans (State.unpark_cores ..)
      · exact (copies _).trans (State.unpark_cores ..)
      · exact copies _
    · exact walked
    · exact walked
    · exact walked
  · have located := s.locateWrite_cores ag va .own
    dsimp only
    exact located

theorem State.storeAt_cores (ag : Agent) (keys : List Nat) (d : List Byte) (ref : Bool) :
    s.SameCores (s.storeAt ag keys d ref).1 := by
  unfold State.storeAt
  split
  · exact .same rfl rfl
  · have verified := s.verifyAll_cores keys
    dsimp only
    refine .ite ?_ verified
    exact (verified.also rfl rfl).trans (State.writeAs_cores _ _ _ _ _)

/-! ### The heap's structures (R333, R334) -/

theorem State.readStructure_cores (ag : Agent) (va : Word) (n : Nat) : s.SameCores (s.readStructure ag va n).1 := by
  unfold State.readStructure
  dsimp only
  split
  · exact s.readVa_cores _ va n
  · have located := s.locateRead_cores { ag with source := 3 } va
    have read (k : Nat) := located.trans (State.readKey_cores _ k n)
    split
    · split
      · exact ((read _).trans (State.copied_cores _ _ _ _)).trans (State.remember_cores _ _ _ _)
      · exact read _
      · exact read _
      · exact read _
    · exact located
    · exact located
    · exact located

theorem State.readWords_cores (ag : Agent) (va : Word) (n : Nat) : s.SameCores (s.readWords ag va n).1 := by
  induction n generalizing s va with
  | zero => exact .refl s
  | succ n ih =>
    have first := s.readStructure_cores ag va 8
    have rest := first.trans (ih (s.readStructure ag va 8).1 (va + 8))
    unfold State.readWords
    dsimp only
    split
    · split <;> exact rest
    · exact first
    · exact first
    · exact first

theorem State.gallery_cores (ag : Agent) (g : Nat) : s.SameCores (s.gallery ag g).1 := by
  unfold State.gallery
  refine .ite (.refl s) ?_
  dsimp only
  split <;> exact s.readWords_cores ag _ 4

theorem State.checkRef_cores (ag : Agent) (w : Nat) : s.SameCores (s.checkRef ag w).1 := by
  have named := s.gallery_cores ag (refGallery w)
  unfold State.checkRef
  refine .ite (.refl s) (.ite (.refl s) ?_)
  dsimp only
  split
  · exact .ite named named
  · exact named
  · exact named
  · exact named
  · exact named

end

end Sys2Proof.Machine
end

section
/-! PROOFS. A task completes (R44, R272, R300, R301): its release of what it holds moves no vector engine to another word,
and a task without pins stores nothing as it ends. -/

namespace Sys2Proof.Machine

/-! ### The word that each engine comes to -/

/-- No core comes into focus, and no vector engine comes to another word. -/
def State.SameNext (s t : State) : Prop := t.focus = s.focus ∧ ∀ c, (t.core c).vec.next = (s.core c).vec.next

namespace State.SameNext
variable {s t q : State}

theorem refl (s : State) : s.SameNext s := ⟨rfl, fun _ => rfl⟩

theorem trans (h : s.SameNext t) (k : t.SameNext q) : s.SameNext q :=
  ⟨k.1.trans h.1, fun c => (k.2 c).trans (h.2 c)⟩

theorem ofCores (h : s.SameCores t) : s.SameNext t := ⟨h.2, fun c => by rw [h.core]⟩

theorem setCore (c : CoreId) (k : Core) (hk : k.vec.next = (s.core c).vec.next) : s.SameNext (s.setCore c k) := by
  refine ⟨rfl, fun d => ?_⟩
  by_cases hc : c = d
  · subst hc
    rw [State.core_setCore_same, hk]
  · rw [State.core_setCore_other _ _ _ _ hc]

theorem setCtx (u : CtxRef) (x : Context) : s.SameNext (s.setCtx u x) := setCore _ _ rfl

theorem setEntry (c : CoreId) (h : Handle) (e : Entry) : s.SameNext (s.setEntry c h e) := setCore _ _ rfl

end State.SameNext

/-! ### Pins released (R175, R300) -/

section
variable (s : State)

theorem State.wrote_next (u : CtxRef) (dev : DevNum) : s.SameNext (s.wrote u dev) := by
  unfold State.wrote
  dsimp only
  split
  · split
    · exact .refl s
    · exact .ofCores (.same rfl rfl)
  · split
    · exact .setCtx u _
    · exact (State.SameNext.setCtx u _).trans (.ofCores (.same rfl rfl))

theorem State.partWrote_cores (p : PartNum) (dev : DevNum) : s.SameCores (s.partWrote p dev) := by
  unfold State.partWrote
  dsimp only
  split
  · exact .refl s
  · exact .same rfl rfl

theorem State.wroteBy_next (ag : Agent) (dev : DevNum) : s.SameNext (s.wroteBy ag dev) := by
  unfold State.wroteBy
  split
  · exact s.wrote_next _ _
  · exact .ofCores (s.partWrote_cores _ _)

section
variable (ag : Agent) (va : Word) (n : Nat) (f : State → Nat → State × Option Nat)
  (hf : ∀ (s : State) (old : Nat), s.SameNext (f s old).1)
include hf

theorem State.rmwThere_next (dev : DevNum) : s.SameNext (s.rmwThere ag dev va n f).1 := by
  have asked : s.SameNext s.answerThere.1 := .ofCores (.same rfl rfl)
  have drawn : s.SameNext s.answerThere.1.draw.1 := .ofCores (.same rfl rfl)
  unfold State.rmwThere
  split
  · exact .refl s
  · dsimp only
    split
    · exact ((drawn.trans (hf _ _)).trans (State.wroteBy_next _ ag dev)).trans (.ofCores (.same rfl rfl))
    · exact asked
    · exact asked
    · exact asked

theorem State.rmwAt_next (keys : List Nat) : s.SameNext (s.rmwAt ag keys n f).1 := by
  have read := s.readKey_cores (keys.headD 0) n
  have valued (old : Nat) := (State.SameNext.ofCores (read.trans (State.readsFrom_cores _ ag.die (keys.headD 0) n))).trans
    (hf _ old)
  unfold State.rmwAt
  split
  · exact .ofCores (.same rfl rfl)
  · dsimp only
    split
    · split
      · exact (valued _).trans (.ofCores (State.storeAt_cores _ _ _ _ _))
      · exact valued _
    · exact .ofCores read
    · exact .ofCores read
    · exact .ofCores read

theorem State.rmwHere_next : s.SameNext (s.rmwHere ag va n f).1 := by
  obtain ⟨⟨t, g⟩, e⟩ : ∃ r, s.locateWrite ag va .never = r := ⟨_, rfl⟩
  have located := State.SameNext.ofCores (s.locateWrite_cores ag va .never)
  rw [e] at located
  rw [State.rmwHere_located e]
  cases g with
  | ok keys => exact located.trans (State.rmwAt_next _ _ _ _ hf keys)
  | wait | access | data => exact located

theorem State.rmw_next : s.SameNext (s.rmw ag va n f).1 := by
  unfold State.rmw
  split
  · exact s.rmwThere_next ag va n f hf _
  · exact s.rmwHere_next ag va n f hf

end

theorem State.pinWord_next (ag : Agent) (g : Gallery) (w : Nat) (up : Bool) : s.SameNext (s.pinWord ag g w up).1 :=
  s.rmw_next _ _ _ _ fun t _ => .refl t

/-- One pin is released (R300): `.wait` where its lookup or its access waits. -/
def State.unpinOne (s : State) (c : CoreId) (who : Requester) (w : Word) : State × Got Unit :=
  let a := s.checkRef (s.registrarAgent c who) w.toNat
  match a.2 with
  | .ok (.ok v, some g) => a.1.pinWord (s.registrarAgent c who) g v false
  | .ok _ => (a.1, .ok ())
  | .wait => (a.1, .wait)
  | .access => (a.1, .ok ())
  | .data => (a.1, .ok ())

theorem State.unpinOne_next (c : CoreId) (who : Requester) (w : Word) : s.SameNext (s.unpinOne c who w).1 := by
  have checked := State.SameNext.ofCores (s.checkRef_cores (s.registrarAgent c who) w.toNat)
  unfold State.unpinOne
  dsimp only
  split
  · exact checked.trans (State.pinWord_next _ _ _ _ _)
  · exact checked
  · exact checked
  · exact checked
  · exact checked

theorem State.unpinAll_cons (c : CoreId) (h : Handle) (who : Requester) (w : Word) (r : List Word) :
    let b := s.unpinOne c who w
    s.unpinAll c h who (w :: r) =
      if b.2 = .wait then
        if s.lookupStuck b.1 who then (s.setEntry c h { s.entry c h with pins := r }).unpinAll c h who r else (b.1, false)
      else (b.1.setEntry c h { b.1.entry c h with pins := r }).unpinAll c h who r := by
  rw [State.unpinAll]
  change (match (s.unpinOne c who w).2 with | .wait => _ | _ => _) = _
  cases (s.unpinOne c who w).2 <;> rfl

theorem State.unpinAll_next (c : CoreId) (h : Handle) (who : Requester) (l : List Word) :
    s.SameNext (s.unpinAll c h who l).1 := by
  induction l generalizing s with
  | nil => exact .refl s
  | cons w r ih =>
    have one := s.unpinOne_next c who w
    rw [State.unpinAll_cons]
    dsimp only
    split
    · split
      · exact (State.SameNext.setEntry c h _).trans (ih _)
      · exact one
    · exact (one.trans (.setEntry c h _)).trans (ih _)

end

end Sys2Proof.Machine
end

section
/-! PROOFS. What a task's completion does beyond its pins stores nothing and moves no vector engine to another word (R44,
R272, R279, R284, R289, R291, R301). -/

namespace Sys2Proof.Machine

/-- Nothing is stored, and no vector engine comes to another word. -/
def State.Spares (s t : State) : Prop := s.Keeps t ∧ s.SameNext t

namespace State.Spares
variable {s t q : State}

theorem refl (s : State) : s.Spares s := ⟨.refl s, .refl s⟩

theorem trans (h : s.Spares t) (k : t.Spares q) : s.Spares q := ⟨h.1.trans k.1, h.2.trans k.2⟩

/-- A change outside the memories and the cores. -/
theorem same (hm : t.mem = s.mem) (ht : t.tags = s.tags) (hc : t.cores = s.cores) (hf : t.focus = s.focus) : s.Spares t :=
  ⟨.same hm ht, .ofCores (.same hc hf)⟩

theorem setCore (c : CoreId) (k : Core) (hk : k.vec.next = (s.core c).vec.next) : s.Spares (s.setCore c k) :=
  ⟨.same rfl rfl, .setCore c k hk⟩

theorem setEntry (c : CoreId) (h : Handle) (e : Entry) : s.Spares (s.setEntry c h e) := setCore _ _ rfl

theorem once (s : State) (a : Act) : s.Spares (s.once a) := ⟨s.once_keeps a, .ofCores (s.once_cores a)⟩

theorem foldl {α : Type} (f : State → α → State) (hf : ∀ (s : State) (a : α), s.Spares (f s a)) (l : List α)
    (s : State) : s.Spares (l.foldl f s) :=
  foldl_keeps s.Spares f (fun t a h => h.trans (hf t a)) l s (.refl s)

theorem ite {p : Prop} [Decidable p] (h : s.Spares t) (k : s.Spares q) : s.Spares (if p then t else q) := by
  split
  · exact h
  · exact k

end State.Spares

section
variable (s : State) (c : CoreId)

/-! ### The registrar is told (R296, R297) -/

theorem State.poke_spares : s.Spares (s.poke c) := by
  unfold State.poke
  dsimp only
  have add (t : State) (k : Kind) : t.Spares
      (if ((s.core c).entries.toList.any fun e => (e.state == .pending || e.state == .ready) && e.kind == kindCode k) = true
        then t.once (.event (.taskRelease c k) .none) else t) := .ite (.once t _) (.refl t)
  exact (((((add s .join).trans (add _ .docent)).trans (add _ .vector)).trans (add _ .matrix)).trans
    (add _ .transpose)).trans (add _ .copy)

theorem State.pokeAll_spares : s.Spares (s.pokeAll c) :=
  (s.poke_spares c).trans (.ite (.refl _) (.once _ _))

/-! ### Signals (R27, R44) -/

theorem State.dispatch_spares : s.Spares (s.dispatch c) := by
  refine ⟨s.dispatch_keeps c, ?_⟩
  unfold State.dispatch State.select
  dsimp only
  split
  · exact .refl s
  · split
    · exact .refl s
    · exact (State.SameNext.setCtx _ _).trans (.setCore _ _ rfl)

theorem State.passCounter_spares (n : CtrNum) (p : Bool) : s.Spares (s.passCounter c n p) := by
  refine .foldl _ (fun t k => ?_) _ s
  dsimp only
  refine .ite ?_ (.refl t)
  exact (State.Spares.setCore _ _ rfl : t.Spares (t.setCtx ⟨c, k⟩ _)).trans (.setCore _ _ rfl)

theorem State.latch_spares (n : CtrNum) (p : Bool) : s.Spares (s.latch c n p) := by
  unfold State.latch
  exact .foldl _ (fun t h => .setEntry c h _) _ s

theorem State.arrival_spares (n : CtrNum) (v : Int) (err aband : Bool) : s.Spares (s.arrival c n v err aband) := by
  unfold State.arrival State.setCounter
  have count (k : Counter) : s.Spares (s.setCore c { s.core c with counters := vset (s.core c).counters n k }) :=
    .setCore c _ rfl
  refine .ite ?_ (count _)
  exact ((((count _).trans (State.passCounter_spares _ c n _)).trans (State.dispatch_spares _ c)).trans
    (State.latch_spares _ c n _)).trans (State.poke_spares _ c)

theorem State.sendHandle_spares (w : Nat) : s.Spares (s.sendHandle c w) := by
  unfold State.sendHandle State.sendHandleFrom
  dsimp only
  split
  · exact .same rfl rfl rfl rfl
  · split
    · exact .refl s
    · exact .same rfl rfl rfl rfl

theorem State.signals_spares (e : Entry) (status : BitVec 4) : s.Spares (s.signals c e status) := by
  have counted (p : Prop) [Decidable p] (n : CtrNum) (v : Int) (err aband : Bool) :
      s.Spares (if p then s.arrival c n v err aband else s) := .ite (s.arrival_spares c n v err aband) (.refl s)
  unfold State.signals
  dsimp only
  refine .ite ((counted _ _ _ _ _).trans (.foldl _ (fun t w => ?_) _ _)) (counted _ _ _ _ _)
  exact .ite (.refl t) (t.sendHandle_spares c _)

/-! ### The catalogue and the rename table (R279, R284) -/

theorem Core.idle_next (k : Core) (kind : Nat) (h : Handle) : (k.idle kind h).vec.next = k.vec.next := by
  unfold Core.idle
  repeat' split
  all_goals rfl

theorem State.satisfy_spares (h : Handle) (p : Entry → Bool) : s.Spares (s.satisfy c h p) := .setCore c _ rfl

theorem State.leaveRenames_spares (h : Handle) : s.Spares (s.leaveRenames c h) := .setCore c _ rfl

theorem State.closeRenames_spares : s.Spares (s.closeRenames c) := by
  unfold State.closeRenames
  refine .foldl _ (fun t i => ?_) _ s
  exact .ite (.setCore c _ rfl) (.refl t)

theorem State.offer_spares : s.Spares (s.offer c) := by
  have room : s.Spares (s.setCore c { s.core c with cramped := [] }) := .setCore c _ rfl
  have posts (t : State) : t.Spares (if (t.core c).posters.isEmpty then t
      else t.once (.event (.parkedPostResume c) .none)) :=
    .ite (.refl t) (.once t _)
  have packets (t : State) : t.Spares (if t.heldPackets.any (t.heldFor c) then t.once (.event (.heldPacketAccept c) .none)
      else t) := .ite (.once t _) (.refl t)
  refine State.Spares.trans ?_ (packets _)
  refine State.Spares.trans ?_ (posts _)
  exact room.trans (.same rfl rfl rfl rfl)

/-- A task that completes stores nothing as its entry becomes FREE. -/
theorem State.finish_spares (h : Handle) (status : BitVec 4) : s.Spares (s.finish c h status) := by
  have acts := (s.signals_spares c (s.entry c h) status).trans (State.leaveRenames_spares _ c h)
  have freed (t : State) (e : Entry) : t.Spares ((t.setEntry c h e).satisfy c h fun _ => true) :=
    (State.Spares.setEntry c h e).trans (State.satisfy_spares _ c h _)
  have closes (t : State) : t.Spares (t.closeRenames c) := t.closeRenames_spares c
  have guards (t : State) : t.Spares (t.setCore c (t.core c).freeGuards) := .setCore c _ rfl
  have told (t : State) : t.Spares ((t.offer c).pokeAll c) := (t.offer_spares c).trans (State.pokeAll_spares _ c)
  unfold State.finish
  dsimp only
  refine State.Spares.trans ?_ (told _)
  refine State.Spares.trans ?_ (guards _)
  refine State.Spares.trans ?_ (closes _)
  refine State.Spares.trans ?_ (.setCore c _ (Core.idle_next _ (s.entry c h).kind h))
  exact acts.trans (freed _ _)

/-- A running task completes once its pins are released, and then stores nothing (R44, R291, R300). -/
theorem State.complete_cases (h : Handle) :
    s.complete c h = s ∨ (s.unpinAll c h (.entry c h) (s.entry c h).pins).1.Spares (s.complete c h) := by
  unfold State.complete
  dsimp only
  split
  · exact .inl rfl
  · right
    generalize s.unpinAll c h (.entry c h) (s.entry c h).pins = u
    have idle (t : State) (kind : Nat) : t.Spares (t.setCore c ((t.core c).idle kind h)) :=
      .setCore c _ (Core.idle_next _ _ _)
    refine .ite (.refl u.1) (.ite ?_ (State.finish_spares _ c h _))
    exact (((State.Spares.setEntry c h _).trans (idle _ _)).trans (State.satisfy_spares _ c h _)).trans
      (State.pokeAll_spares _ c)

theorem State.complete_next (h : Handle) : s.SameNext (s.complete c h) := by
  rcases s.complete_cases c h with e | spares
  · rw [e]
    exact .refl s
  · exact (s.unpinAll_next c h _ _).trans spares.2

/-- A task without pins stores nothing as it completes. -/
theorem State.complete_keeps {h : Handle} (hp : (s.entry c h).pins = []) : s.Keeps (s.complete c h) := by
  rcases s.complete_cases c h with e | spares
  · rw [e]
    exact .refl s
  · rw [hp] at spares
    exact spares.1

/-! ### The end of a kernel (R189, R217, R237) -/

theorem State.completeUnit_next (u : UnitId) (h : Handle) : s.SameNext (s.completeUnit u c h) := by
  unfold State.completeUnit
  split
  · exact .refl s
  · split
    · exact .ofCores (s.once_cores _)
    · exact s.complete_next c h

theorem State.completeUnit_keeps (u : UnitId) {h : Handle} (hp : (s.entry c h).pins = []) :
    s.Keeps (s.completeUnit u c h) := by
  unfold State.completeUnit
  split
  · exact .refl s
  · split
    · exact s.once_keeps _
    · exact s.complete_keeps c hp

theorem State.vectorEnd_next : s.SameNext (s.vectorEnd c) := by
  unfold State.vectorEnd
  split
  · exact s.completeUnit_next c _ _
  · exact .refl s

/-- A word that fails leaves its engine at that word. -/
theorem State.vectorFail_next (k : Causes) : s.SameNext (s.vectorFail c k) := by
  unfold State.vectorFail
  split
  · have dropped : s.SameNext (s.setVec c { (s.core c).vec with after := none }) := .setCore c _ rfl
    exact ((dropped.trans (.ofCores (State.unpark_cores _ _))).trans (.setEntry c _ _)).trans (State.vectorEnd_next _ c)
  · exact .refl s

end

end Sys2Proof.Machine
end

section
/-! PROOFS. A vector word that stores nothing, of a task without pins, changes no byte of memory (R215-R219, R237, R300). -/

namespace Sys2Proof.Machine

/-! ### A vector task without pins (R300) -/

/-- The vector task of the core in focus holds no pins. -/
def State.Unpinned (s : State) : Prop := (s.vectorEntry s.focus).pins = []

theorem State.setEntry_vec (s : State) (c : CoreId) (h : Handle) (e : Entry) (d : CoreId) :
    ((s.setEntry c h e).core d).vec = (s.core d).vec := by
  unfold State.setEntry
  by_cases hc : c = d
  · subst hc
    rw [State.core_setCore_same]
  · rw [State.core_setCore_other _ _ _ _ hc]

theorem State.setEntry_pins {s : State} {c : CoreId} {h : Handle} {e : Entry} (he : e.pins = (s.entry c h).pins)
    (d : CoreId) (g : Handle) : ((s.setEntry c h e).entry d g).pins = (s.entry d g).pins := by
  unfold State.setEntry State.entry
  by_cases hc : c = d
  · subst hc
    rw [State.core_setCore_same, vget_vset]
    split
    · next same => exact same ▸ he
    · rfl
  · rw [State.core_setCore_other _ _ _ _ hc]

namespace State.Unpinned
variable {s t : State}

theorem ofCores (hu : s.Unpinned) (h : s.SameCores t) : t.Unpinned := by
  rw [State.Unpinned, State.vectorEntry, h.2, h.entry, h.core]
  exact hu

theorem setEntry (hu : s.Unpinned) {c : CoreId} {h : Handle} {e : Entry} (he : e.pins = (s.entry c h).pins) :
    (s.setEntry c h e).Unpinned := by
  rw [State.Unpinned, State.vectorEntry, State.setEntry_pins he, State.setEntry_focus, State.setEntry_vec]
  exact hu

theorem cause (hu : s.Unpinned) (c : CoreId) (h : Handle) (k : Causes) : (s.cause c h k).Unpinned := hu.setEntry rfl

theorem setVec (hu : s.Unpinned) {v : VectorUnit} (hv : v.task = s.vec.task) : (s.setVec s.focus v).Unpinned := by
  have registers : (s.setVec s.focus v).core s.focus = { s.core s.focus with vec := v } := State.core_setCore_same _ _ _
  rw [State.Unpinned, State.vectorEntry, State.entry, State.setVec, State.setCore_focus, ← State.setVec, registers]
  dsimp only
  rw [hv]
  exact hu

end State.Unpinned

/-! ### What follows a word, or ends its task (R189, R217, R237) -/

section
variable {s : State} (hu : s.Unpinned)
include hu

theorem State.vectorEnd_keeps : s.Keeps (s.vectorEnd s.focus) := by
  unfold State.vectorEnd
  split
  · next h task =>
    refine s.completeUnit_keeps _ _ ?_
    rw [State.Unpinned, State.vectorEntry, task] at hu
    exact hu
  · exact .refl s

theorem State.vectorFail_keeps (k : Causes) : s.Keeps (s.vectorFail s.focus k) := by
  unfold State.vectorFail
  split
  · next h _ =>
    have dropped : (s.setVec s.focus { (s.core s.focus).vec with after := none }).Unpinned := hu.setVec rfl
    have left := (dropped.ofCores (State.unpark_cores _ (.unit (.vector s.focus)))).cause s.focus h k
    refine State.Keeps.trans ?_ (State.vectorEnd_keeps left)
    exact .same rfl rfl
  · exact .refl s

theorem State.vectorGo_keeps : s.Keeps (s.vectorGo s.focus) := by
  unfold State.vectorGo
  dsimp only
  split
  · exact s.once_keeps _
  · split
    · exact State.vectorEnd_keeps hu
    · exact s.once_keeps _

theorem State.vectorStepped_unpinned {v : VectorUnit} (hv : v.task = s.vec.task) (flags : Sticky) (draws : Bool) :
    (s.vectorStepped v flags draws).Unpinned := by
  have registers : (s.setVec s.focus (v.issued draws)).Unpinned := hu.setVec hv
  unfold State.vectorStepped
  split
  · exact registers.setEntry rfl
  · exact registers

theorem State.vectorDone_keeps {v : VectorUnit} (hv : v.task = s.vec.task) (flags : Sticky) (draws : Bool) :
    s.Keeps (s.vectorDone v flags draws) := by
  have stepped := s.vectorStepped_only v flags draws
  rw [State.vectorDone_eq, ← stepped.focus]
  exact (State.Keeps.same stepped.mem stepped.tags).trans
    (State.vectorGo_keeps (State.vectorStepped_unpinned hu hv flags draws))

/-- A word that computes stores nothing. -/
theorem State.Computed.keeps {o : Host.Outcome State Fault Refusal} (h : s.Computed o) : s.RunKeeps o := by
  rcases h with ⟨v, flags, draws, hv, rfl⟩ | rfl
  · exact .next (State.vectorDone_keeps hu hv.task flags draws)
  · exact .next (State.vectorFail_keeps hu _)

end

/-! ### Loads (R213-R221) -/

section
variable (s : State) (ag : Agent)

theorem State.readLoc_cores (l : Loc) : s.SameCores (s.readLoc ag l).1 := by
  unfold State.readLoc
  cases l with
  | tile c row col => exact .ite (.refl s) (s.readLineKey_cores _)
  | va a =>
    have read := s.readLineVa_cores ag (a &&& ~~~63#64)
    dsimp only
    split <;> exact read

theorem State.readLoc_keeps (l : Loc) : s.Keeps (s.readLoc ag l).1 := by
  unfold State.readLoc
  cases l with
  | tile c row col => exact .ite (.refl s) (s.readLineKey_keeps _)
  | va a =>
    have read := s.readLineVa_keeps ag (a &&& ~~~63#64)
    dsimp only
    split <;> exact read

/-- Storage is looked at: nothing is stored, and the cores stay as they are. -/
def State.Looks (s t : State) : Prop := s.Keeps t ∧ s.SameCores t

theorem State.Looks.refl (s : State) : s.Looks s := ⟨.refl s, .refl s⟩

theorem State.Looks.trans {s t q : State} (h : s.Looks t) (k : t.Looks q) : s.Looks q :=
  ⟨h.1.trans k.1, h.2.trans k.2⟩

theorem State.Looks.unpinned {s t : State} (h : s.Looks t) (hu : s.Unpinned) : t.Unpinned := hu.ofCores h.2

/-- The line of a position, read unless it is the last line read (R215). -/
def State.readNext (s : State) (ag : Agent) (a : Reads) (l : Loc) : State × Got (List Byte × Word) :=
  match a.line with
  | some (m, g) => if m = l.line then (s, g) else s.readLoc ag l
  | none => s.readLoc ag l

theorem State.readNext_looks (a : Reads) (l : Loc) : s.Looks (s.readNext ag a l).1 := by
  have read : s.Looks (s.readLoc ag l).1 := ⟨s.readLoc_keeps ag l, s.readLoc_cores ag l⟩
  unfold State.readNext
  split
  · split
    · exact .refl s
    · exact read
  · exact read

theorem State.readAll_looks (places : List (Option Reach)) (a : Reads) : s.Looks (s.readAll ag places a).1 := by
  induction places generalizing s a with
  | nil => exact .refl s
  | cons p r ih =>
    match p with
    | none => exact ih s _
    | some .bad => exact ih s _
    | some .suppressed => exact ih s _
    | some (.found l) =>
      have read := s.readNext_looks ag a l
      have rest (b : Reads) := read.trans (ih (s.readNext ag a l).1 b)
      unfold State.readAll
      change s.Looks (match (s.readNext ag a l).2 with
        | .ok (_, _) => (_ : State × Option Reads)
        | .wait => _
        | _ => _).1
      split
      · exact rest _
      · exact rest _
      · exact rest _

theorem State.vectorWait_keeps : s.Keeps s.vectorWait := .same rfl rfl

/-- A load of a task without pins stores nothing. -/
theorem State.vectorLoad_keeps {s : State} (hu : s.Unpinned) (f : VWord) (places : List (Option Reach))
    (value : Nat → List Byte × Word × Nat → Option Coded) (put : VectorUnit → List (Option Nat) → VectorUnit)
    (hp : ∀ (v : VectorUnit) (l : List (Option Nat)), v.Steady (put v l)) :
    s.RunKeeps (s.vectorLoad f places value put) := by
  have read := s.readAll_looks (s.taskAgent s.focus (.vector s.focus)) places ⟨none, Causes.none, []⟩
  obtain ⟨⟨t, o⟩, e⟩ : ∃ p, s.readAll (s.taskAgent s.focus (.vector s.focus)) places ⟨none, Causes.none, []⟩ = p := ⟨_, rfl⟩
  rw [e] at read
  have unpinned := read.unpinned hu
  unfold State.vectorLoad
  dsimp only at read unpinned ⊢
  rw [e]
  cases o with
  | none => exact .next (read.1.trans t.vectorWait_keeps)
  | some a =>
    dsimp only
    rw [← read.2.2]
    refine .ite (.next (read.1.trans (State.vectorFail_keeps unpinned _))) (.next ?_)
    have noted (k : Causes) : s.Keeps (t.cause t.focus (t.vec.task.getD 0) k) := read.1.also rfl rfl
    exact (noted _).trans (State.vectorDone_keeps (unpinned.cause _ _ _) (hp _ _).task _ _)

end

/-! ### Every word that stores nothing -/

/-- A kernel word that stores nothing, for a task without pins, leaves every byte of memory as it is. -/
theorem exec_kernel_keeps {i : Instr} {s : State} (hk : (encodeKernel i).isSome = true) (hn : i.vectorStores = false)
    (hu : s.Unpinned) : s.RunKeeps (exec i s) := by
  cases h : i.vectorComputes with
  | true => exact (exec_vectorComputes s h).keeps hu
  | false =>
    unfold Instr.vectorComputes at h
    rw [hk, hn] at h
    cases i with
    | vld f | vgath f | vunpk f =>
      dsimp only [exec, execVld, execVgath, execVunpk]
      exact .ite (.next (State.vectorFail_keeps hu _))
        (State.vectorLoad_keeps hu f _ _ _ fun v l => v.setCodes_steady _ _ l)
    | vldl f =>
      dsimp only [exec, execVldl]
      exact .ite (.next (State.vectorFail_keeps hu _))
        (State.vectorLoad_keeps hu f _ _ _ fun v l => v.setLine_steady _ _ l)
    | loop f =>
      dsimp only [exec, execLoop]
      refine .ite (.next (State.vectorDone_keeps hu ?_ _ _)) (.next (State.vectorDone_keeps hu ?_ _ _))
      · rfl
      · rfl
    | vdone f => exact .next (State.vectorEnd_keeps hu)
    | _ => cases h

end Sys2Proof.Machine
end

section
/-! PROOFS. What a vector store may change: the bytes that it is aimed at (O47: R216, R217, R219, R330, R378). -/

namespace Sys2Proof.Machine

/-! ### Aims (R219, R338, R376) -/

section
variable (s : State) (ag : Agent)

theorem State.verifyAll_keeps (keys : List Nat) : s.Keeps (s.verifyAll keys).1 := by
  refine foldl_keeps (fun acc : State × Bool => s.Keeps acc.1) _ (fun acc k h => ?_) keys (s, true) (.refl s)
  dsimp only
  split
  · exact h
  · exact h.trans (acc.1.verify_keeps _)

theorem State.aimKeys_looks (ks : List Nat) (left : List DieNum) (va : Word) (merges : Bool) :
    s.Looks (s.aimKeys ag ks left va merges).1 := by
  unfold State.aimKeys
  split
  · exact ⟨.same rfl rfl, .same rfl rfl⟩
  · dsimp only
    split
    · exact ⟨s.verifyAll_keeps ks, s.verifyAll_cores ks⟩
    · exact .refl s

theorem State.aim_looks (l : Loc) (merges : Bool) : s.Looks (s.aim ag l merges).1 := by
  unfold State.aim
  cases l with
  | tile c row col => exact s.aimKeys_looks ag _ _ _ _
  | va a =>
    have located : s.Looks (s.locateAll ag a).1 := ⟨s.locateAll_keeps ag a, s.locateAll_cores ag a⟩
    dsimp only
    split
    · split <;> exact .refl s
    · split
      · exact located.trans (State.aimKeys_looks _ ag _ _ _ _)
      · exact located
      · exact located
      · exact located

/-- Whatever the aim of a position finds, the rest are aimed after it. -/
theorem State.aimAll_found (p : Loc) (d : List Byte) (r : List (Reach × List Byte)) (k : Causes)
    (l : List (Aim × List Byte)) : ∃ (k' : Causes) (l' : List (Aim × List Byte)), (l' = l ∨ ∃ m, l' = (m, d) :: l) ∧
      (s.aimAll ag ((.found p, d) :: r) k l = (s.aim ag p true).1.aimAll ag r k' l' ∨
        s.aimAll ag ((.found p, d) :: r) k l = (((s.aim ag p true).1.aimAll ag r k' l').1, none)) := by
  rw [State.aimAll]
  split
  · exact ⟨_, _, .inr ⟨_, rfl⟩, .inl rfl⟩
  · exact ⟨_, _, .inl rfl, .inr rfl⟩
  · exact ⟨_, _, .inl rfl, .inl rfl⟩

theorem State.aimAll_looks (writes : List (Reach × List Byte)) (k : Causes) (l : List (Aim × List Byte)) :
    s.Looks (s.aimAll ag writes k l).1 := by
  induction writes generalizing s k l with
  | nil => exact .refl s
  | cons w r ih =>
    match w with
    | (.bad, _) => exact ih s _ _
    | (.suppressed, _) => exact ih s _ _
    | (.found p, d) =>
      have rest (k' : Causes) (l' : List (Aim × List Byte)) := (s.aim_looks ag p true).trans (ih (s.aim ag p true).1 k' l')
      obtain ⟨k', l', -, e | e⟩ := s.aimAll_found ag p d r k l
      · rw [e]
        exact rest k' l'
      · rw [e]
        exact rest k' l'

/-- What is aimed is what was to be written. -/
theorem State.aimAll_bytes {P : List Byte → Prop} {writes : List (Reach × List Byte)} (hw : ∀ w ∈ writes, P w.2)
    {k : Causes} {l : List (Aim × List Byte)} (hl : ∀ w ∈ l, P w.2) {q : State} {k' : Causes}
    {l' : List (Aim × List Byte)} (h : s.aimAll ag writes k l = (q, some (k', l'))) : ∀ w ∈ l', P w.2 := by
  induction writes generalizing s k l with
  | nil =>
    obtain ⟨-, e⟩ := Prod.mk.inj h
    obtain ⟨-, rfl⟩ := Prod.mk.inj (Option.some.inj e)
    exact fun w hm => hl w (List.mem_reverse.mp hm)
  | cons w r ih =>
    have later : ∀ x ∈ r, P x.2 := fun x hx => hw x (List.mem_cons_of_mem _ hx)
    match w with
    | (.bad, _) => exact ih s later hl h
    | (.suppressed, _) => exact ih s later hl h
    | (.found p, d) =>
      have here : P d := hw _ (List.mem_cons_self ..)
      obtain ⟨k₁, l₁, hl₁, e | e⟩ := s.aimAll_found ag p d r k l
      · refine ih (s.aim ag p true).1 later (fun x hx => ?_) (e.symm.trans h)
        rcases hl₁ with rfl | ⟨m, rfl⟩
        · exact hl x hx
        · rcases List.mem_cons.mp hx with rfl | hx
          · exact here
          · exact hl x hx
      · rw [e] at h
        cases h

end

/-! ### Bytes put at the copies of a place (R216, R330) -/

/-- A write that is no part of a relocated line puts its bytes where it is made. -/
theorem State.put_mem (s : State) {p : Put} (hp : ∀ t, p ≠ .reloc t) (k : Nat) (d : List Byte) :
    (s.put p k d).mem = s.mem.write k d := by
  cases p with
  | merge ref => exact s.mergeKey_mem k d ref
  | plain =>
    unfold State.put State.plainKey
    dsimp only
    split <;> exact s.mergeKey_mem k d false
  | line t => rfl
  | reloc t => exact absurd rfl (hp t)

section
variable (s : State) (ag : Agent) (m : Mark) (d : List Byte) {p : Put} (hp : ∀ t, p ≠ .reloc t) (a : Nat)
include hp

theorem State.putWhere_apart (k : Nat) (later : Nat → Bool) (h : Apart a k d.length) :
    Memory.byte (s.putWhere m k d p later).mem a = Memory.byte s.mem a := by
  by_cases all : ((List.range d.length).filter fun i => later (k + i)).length = d.length
  · have whole : s.putWhere m k d p later = (s.put p k d).performedAs m k d.length := if_pos all
    rw [whole, State.performedAs, State.testWaits_mem]
    exact (congrArg (Memory.byte · a) (s.put_mem hp k d)).trans (Memory.byte_write_apart _ _ _ _ h)
  · have pieces : s.putWhere m k d p later = s.putWhere m k d (.merge false) later :=
      (if_neg all).trans (if_neg all).symm
    rw [pieces]
    exact s.putWhere_byte _ _ _ _ _ _ h

theorem State.propagate_apart (ks : List Nat) (h : ∀ k ∈ ks, Apart a k d.length) :
    Memory.byte (ks.foldl (fun s k => s.propagateAt m k d p) s).mem a = Memory.byte s.mem a := by
  induction ks generalizing s with
  | nil => rfl
  | cons k ks ih =>
    rw [List.foldl_cons, ih _ fun j hj => h j (List.mem_cons_of_mem _ hj)]
    exact s.putWhere_apart m d hp a k _ (h k (List.mem_cons_self ..))

theorem State.spread_apart (ks : List Nat) (left : List DieNum) (va : Word) (h : ∀ k ∈ ks, Apart a k d.length) :
    Memory.byte (s.spread ag m ks left va d p).mem a = Memory.byte s.mem a := by
  unfold State.spread State.writeAs
  split
  · split
    · exact s.putWhere_apart m d hp a _ _ (h _ (List.mem_cons_self ..))
    · exact s.propagate_apart m d hp a _ h
  · exact s.propagate_apart m d hp a _ h

theorem State.putAt_apart (ks : List Nat) (left : List DieNum) (va : Word) (h : ∀ k ∈ ks, Apart a k d.length) :
    Memory.byte (s.putAt ag ks left va d p).mem a = Memory.byte s.mem a :=
  State.spread_apart _ ag _ d hp a ks left va h

end

theorem State.putAt_cores (s : State) (ag : Agent) (ks : List Nat) (left : List DieNum) (va : Word) (d : List Byte)
    (p : Put) : s.SameCores (s.putAt ag ks left va d p) :=
  (State.SameCores.same rfl rfl : s.SameCores (s.advanceClock ag.die)).trans (State.spread_cores _ ..)

/-! ### Writes to other devices (R216, R217, R348) -/

section
variable (s : State) (ag : Agent) (w : Waiter) (dev : DevNum) (pl : Plane)

theorem State.noteSent_keeps (va : Word) (d : List Byte) (tags : List Word) : s.Keeps (s.noteSent w va d tags) := by
  unfold State.noteSent
  split
  · exact .same rfl rfl
  · exact .refl s

theorem State.noteSent_unpinned (hu : s.Unpinned) (va : Word) (d : List Byte) (tags : List Word) :
    (s.noteSent w va d tags).Unpinned := by
  unfold State.noteSent
  split
  · exact hu.setEntry rfl
  · exact hu

theorem State.partWrote_keeps (p : PartNum) (dev : DevNum) : s.Keeps (s.partWrote p dev) := by
  unfold State.partWrote
  dsimp only
  split
  · exact .refl s
  · exact .same rfl rfl

theorem State.writeRemote_keeps (va : Word) (d : List Byte) (tags : List Word) :
    s.Keeps (s.writeRemote ag w dev pl va d tags) := by
  have noted : s.Keeps ((s.advanceClock ag.die).noteSent w va d tags) :=
    (State.Keeps.same rfl rfl : s.Keeps (s.advanceClock ag.die)).trans (State.noteSent_keeps _ w va d tags)
  have sent := (noted.trans (State.request_keeps _ dev pl w fun q => .write dev pl q ag.part va d tags)).trans
    (State.partWrote_keeps _ ag.part dev)
  exact sent.also rfl rfl

theorem State.writeRemote_unpinned (hu : s.Unpinned) (va : Word) (d : List Byte) (tags : List Word) :
    (s.writeRemote ag w dev pl va d tags).Unpinned := by
  have noted : ((s.advanceClock ag.die).noteSent w va d tags).Unpinned :=
    State.noteSent_unpinned (s.advanceClock ag.die) w (hu.ofCores (.same rfl rfl)) va d tags
  have asked := noted.ofCores (t := State.request _ dev pl w fun q => .write dev pl q ag.part va d tags) (.same rfl rfl)
  have sent := asked.ofCores (State.partWrote_cores _ ag.part dev)
  exact sent.ofCores (.same rfl rfl)

theorem State.putRemoteLine_keeps (line : Nat) (ws : List (Aim × List Byte)) :
    s.Keeps (s.putRemoteLine ag w dev pl line ws) := by
  have read := s.readLoc_keeps ag (.va (BitVec.ofNat 64 (64 * line)))
  unfold State.putRemoteLine
  dsimp only
  split
  · exact s.writeRemote_keeps ag w dev pl _ _ _
  · split
    · exact read.trans (State.writeRemote_keeps _ ag _ dev pl _ _ _)
    · exact read
    · exact read.also rfl rfl
    · exact read

theorem State.putRemoteLine_unpinned (hu : s.Unpinned) (line : Nat) (ws : List (Aim × List Byte)) :
    (s.putRemoteLine ag w dev pl line ws).Unpinned := by
  have read := hu.ofCores (s.readLoc_cores ag (.va (BitVec.ofNat 64 (64 * line))))
  unfold State.putRemoteLine
  dsimp only
  split
  · exact s.writeRemote_unpinned ag w dev pl hu _ _ _
  · split
    · exact State.writeRemote_unpinned _ ag _ dev pl read _ _ _
    · exact read
    · exact read.cause _ _ _
    · exact read

end

theorem State.putRemoteLines_keeps (s : State) (ag : Agent) (w : Waiter) (ws : List (Aim × List Byte))
    (l : List (DevNum × Plane × Nat)) : s.Keeps (l.foldl (fun s x => s.putRemoteLine ag w x.1 x.2.1 x.2.2 ws) s) := by
  induction l generalizing s with
  | nil => exact .refl s
  | cons x l ih => exact (s.putRemoteLine_keeps ag w x.1 x.2.1 x.2.2 ws).trans (ih _)

theorem State.putRemoteLines_unpinned (s : State) (ag : Agent) (w : Waiter) (ws : List (Aim × List Byte))
    (hu : s.Unpinned) (l : List (DevNum × Plane × Nat)) :
    (l.foldl (fun s x => s.putRemoteLine ag w x.1 x.2.1 x.2.2 ws) s).Unpinned := by
  induction l generalizing s with
  | nil => exact hu
  | cons x l ih => exact ih _ (s.putRemoteLine_unpinned ag w x.1 x.2.1 hu x.2.2 ws)

/-! ### The writes of one word -/

/-- A byte lies apart from every place where writes are aimed in this device, each of a line at most. -/
def ApartFromAims (a : Nat) (l : List (Aim × List Byte)) : Prop :=
  ∀ ks left va d, (Aim.keys ks left va, d) ∈ l → ∀ k ∈ ks, Apart a k (min 64 d.length)

theorem ApartFromAims.tail {a : Nat} {w : Aim × List Byte} {l : List (Aim × List Byte)} (h : ApartFromAims a (w :: l)) :
    ApartFromAims a l := fun ks left va d hm => h ks left va d (List.mem_cons_of_mem _ hm)

/-- How a vector store makes its writes: it changes no byte apart from where they are aimed, and no task's pins. -/
def PutsApart (put : State → Agent → Waiter → List (Aim × List Byte) → State) (P : List Byte → Prop) : Prop :=
  ∀ (s : State) (ag : Agent) (w : Waiter) (l : List (Aim × List Byte)), (∀ x ∈ l, P x.2) →
    (s.Unpinned → (put s ag w l).Unpinned) ∧
    ∀ a, ApartFromAims a l → Memory.byte (put s ag w l).mem a = Memory.byte s.mem a

/-- Writes made one after another, each apart from a byte and sparing the task's pins. -/
theorem foldl_putsApart {P : List Byte → Prop} {f : State → Aim × List Byte → State} {a : Nat}
    (hf : ∀ (s : State) (x : Aim × List Byte), P x.2 → (s.Unpinned → (f s x).Unpinned) ∧
      (ApartFromAims a [x] → Memory.byte (f s x).mem a = Memory.byte s.mem a))
    (s : State) (l : List (Aim × List Byte)) (hl : ∀ x ∈ l, P x.2) :
    (s.Unpinned → (l.foldl f s).Unpinned) ∧
      (ApartFromAims a l → Memory.byte (l.foldl f s).mem a = Memory.byte s.mem a) := by
  induction l generalizing s with
  | nil => exact ⟨id, fun _ => rfl⟩
  | cons x l ih =>
    obtain ⟨pins, bytes⟩ := hf s x (hl x (List.mem_cons_self ..))
    obtain ⟨pinsAfter, bytesAfter⟩ := ih (f s x) fun y hy => hl y (List.mem_cons_of_mem _ hy)
    refine ⟨fun hu => pinsAfter (pins hu), fun h => (bytesAfter h.tail).trans (bytes ?_)⟩
    exact fun ks left va d hm => h ks left va d (List.mem_singleton.mp hm ▸ List.mem_cons_self ..)

/-- A write of a vector store that is aimed in this device is put there; one for another device leaves later (R216). -/
def State.putHere (s : State) (ag : Agent) (x : Aim × List Byte) : State :=
  match x.1 with
  | .keys ks left va => s.putAt ag ks left va x.2 .plain
  | .remote _ _ _ => s

theorem State.putRuns_eq (s : State) (ag : Agent) (w : Waiter) (l : List (Aim × List Byte)) :
    s.putRuns ag w l = (remoteLines l).foldl (fun s x => s.putRemoteLine ag w x.1 x.2.1 x.2.2 l)
      (l.foldl (fun s x => s.putHere ag x) s) := rfl

theorem State.putHere_putsApart (ag : Agent) (a : Nat) (s : State) (x : Aim × List Byte) (hx : x.2.length ≤ 64) :
    (s.Unpinned → (s.putHere ag x).Unpinned) ∧
      (ApartFromAims a [x] → Memory.byte (s.putHere ag x).mem a = Memory.byte s.mem a) := by
  obtain ⟨m, d⟩ := x
  cases m with
  | keys ks left va =>
    refine ⟨fun hu => hu.ofCores (s.putAt_cores ag ks left va d .plain), fun h => ?_⟩
    refine s.putAt_apart ag d (fun t => Put.noConfusion) a ks left va fun k hk => ?_
    have apart := h ks left va d (List.mem_singleton_self _) k hk
    rwa [Nat.min_eq_right hx] at apart
  | remote dev pl va => exact ⟨id, fun _ => rfl⟩

/-- The bytes of a vector store become plain where they are aimed in this device, and those for other devices leave as
lines. -/
theorem putRuns_putsApart : PutsApart State.putRuns fun d => d.length ≤ 64 := by
  intro s ag w l short
  have here (a : Nat) := foldl_putsApart (P := fun d => d.length ≤ 64) (State.putHere_putsApart ag a) s l short
  rw [State.putRuns_eq]
  exact ⟨fun hu => State.putRemoteLines_unpinned _ ag w l ((here 0).1 hu) _,
    fun a h => ((State.putRemoteLines_keeps _ ag w l _).byte a).trans ((here a).2 h)⟩

theorem State.putLine_putsApart (ag : Agent) (w : Waiter) (tag : Word) (a : Nat) (s : State) (x : Aim × List Byte) :
    (s.Unpinned → (s.putLine ag w x.1 (x.2.take 64) tag).Unpinned) ∧
      (ApartFromAims a [x] → Memory.byte (s.putLine ag w x.1 (x.2.take 64) tag).mem a = Memory.byte s.mem a) := by
  obtain ⟨m, d⟩ := x
  cases m with
  | keys ks left va =>
    refine ⟨fun hu => hu.ofCores (s.putAt_cores ag ks left va _ _), fun h => ?_⟩
    refine s.putAt_apart ag _ (fun t => Put.noConfusion) a ks left va fun k hk => ?_
    rw [List.length_take]
    exact h ks left va d (List.mem_singleton_self _) k hk
  | remote dev pl va =>
    exact ⟨fun hu => s.writeRemote_unpinned ag w dev pl hu _ _ _,
      fun _ => (s.writeRemote_keeps ag w dev pl _ _ _).byte a⟩

/-- Whole lines are put where they are aimed in this device, or leave. -/
theorem putTagged_putsApart : PutsApart State.putTagged fun _ => True := by
  intro s ag w l whole
  have lines (a : Nat) := foldl_putsApart (P := fun _ => True)
    (fun s x _ => State.putLine_putsApart ag w (wordOf (x.2.drop 64)) a s x) s l whole
  exact ⟨(lines 0).1, fun a => (lines a).2⟩

/-! ### A store as a whole (R215-R217, R219) -/

/-- A store that has been made goes on, waits or ends its task without storing anything more. -/
theorem State.storeEnds_keeps {s : State} (hu : s.Unpinned) (flags : Sticky) (draws : Bool) :
    s.RunKeeps (s.storeEnds flags draws) := by
  unfold State.storeEnds
  exact .ite (.next (State.vectorFail_keeps hu _))
    (.ite (.next (.same rfl rfl)) (.next (State.vectorDone_keeps hu rfl flags draws)))

/-- A store that has not begun, of a task without pins, changes no byte apart from where it is aimed. -/
theorem State.vectorStore_byte {s t : State} (hu : s.Unpinned) (ha : s.vec.after = none) {f : VWord}
    {writes : List (Reach × List Byte)} {flags : Sticky}
    {put : State → Agent → Waiter → List (Aim × List Byte) → State} {P : List Byte → Prop} (hp : PutsApart put P)
    (hw : ∀ x ∈ writes, P x.2) {a : Nat}
    (apart : ∀ q k l, s.aimAll (s.taskAgent s.focus (.vector s.focus)) writes Causes.none [] = (q, some (k, l)) →
      ApartFromAims a l)
    (run : s.vectorStore f writes flags put = .next t) : Memory.byte t.mem a = Memory.byte s.mem a := by
  obtain ⟨⟨q, o⟩, e⟩ : ∃ p, s.aimAll (s.taskAgent s.focus (.vector s.focus)) writes Causes.none [] = p := ⟨_, rfl⟩
  have aimed := s.aimAll_looks (s.taskAgent s.focus (.vector s.focus)) writes Causes.none []
  unfold State.vectorStore at run
  dsimp only at run
  rw [ha] at run
  dsimp only at run
  rw [e] at aimed run
  have unpinned := aimed.unpinned hu
  cases o with
  | none =>
    cases run
    exact (aimed.1.trans q.vectorWait_keeps).byte a
  | some x =>
    obtain ⟨k, l⟩ := x
    have bytes := s.aimAll_bytes (s.taskAgent s.focus (.vector s.focus)) hw (fun x hx => absurd hx List.not_mem_nil) e
    dsimp only at run
    split at run
    · cases run
      rw [← aimed.2.2]
      exact (aimed.1.trans (State.vectorFail_keeps unpinned k)).byte a
    · obtain ⟨pins, put⟩ := hp (q.cause s.focus (s.vec.task.getD 0) k) (s.taskAgent s.focus (.vector s.focus))
        (.unit (.vector s.focus) s.focus (s.vec.task.getD 0)) l bytes
      have ended := (State.storeEnds_keeps (pins (unpinned.cause _ _ _)) _ _ t run).byte a
      exact ended.trans ((put a (apart q k l e)).trans (aimed.1.byte a))

theorem elOf_bytes_le (t : BitVec 5) : (elOf t).bytes ≤ 64 := by
  revert t
  decide

/-- A word that stores fails its checks, or makes the writes that `storesOf` names. -/
theorem exec_vectorStores_byte {i : Instr} {s t : State} (hi : i.vectorStores = true) (hu : s.Unpinned)
    (ha : s.vec.after = none) {a : Nat}
    (apart : ∀ q k l, s.aimAll (s.taskAgent s.focus (.vector s.focus)) (s.storesOf i).2 Causes.none []
      = (q, some (k, l)) → ApartFromAims a l) (run : exec i s = .next t) : Memory.byte t.mem a = Memory.byte s.mem a := by
  cases i with
  | vst f | vstl f | vscat f =>
    dsimp only [exec, execVst, execVstl, execVscat] at run
    split at run
    · cases run
      exact (State.vectorFail_keeps hu _).byte a
    · refine State.vectorStore_byte hu ha putRuns_putsApart (fun x hx => ?_) apart run
      obtain ⟨y, -, hy⟩ := List.mem_filterMap.mp hx
      split at hy
      · cases hy
        exact (bytesOf_length _ _).trans_le (elOf_bytes_le f.type)
      · cases hy
  | vpack f =>
    dsimp only [exec, execVpack] at run
    split at run
    · cases run
      exact (State.vectorFail_keeps hu _).byte a
    · exact State.vectorStore_byte hu ha putTagged_putsApart (fun _ _ => trivial) apart run
  | _ => cases hi

end Sys2Proof.Machine
end

section
/-! PROOFS. What a vector word may change (O47). -/

namespace Sys2Proof.Machine

/-- Settles O47: a word that computes and is followed changes its engine, its task's flags and the agenda alone; what ends,
waits or loads stores nothing; a store puts bytes where it is aimed. -/
theorem vectorFrame : Obligations.VectorFrame := by
  unfold Obligations.VectorFrame
  refine ⟨fun r s t f hr hf run ok => ?_, fun i s t hi hf run next => ?_, fun i s t hk hn hu run a => ?_,
    fun i s t hi ha hu run a apart => ?_⟩
  · obtain ⟨out, goes, -, -⟩ := ((arithmetic_mapsOperands r hr).computes s f).1 ok
    obtain ⟨m, z, codes⟩ := s.vec.setCodes_eq f.dst (elOf f.type).bytes (out.map fun r => r.map Coded.code)
    obtain rfl : t = _ := Host.Outcome.next.inj (run.symm.trans goes)
    obtain ⟨only, vec⟩ := State.vectorDone_follows (flagsOf (out.filterMap id)) (f.mode == .rsr) hf
      (s.vec.setCodes_steady f.dst (elOf f.type).bytes (out.map fun r => r.map Coded.code))
    rw [vec.trans (congrArg (VectorUnit.issued · (f.mode == .rsr)) codes)]
    exact ⟨only.mem, only.tags, only.ctx, only.core, only.part, rfl, rfl, rfl, rfl, rfl, rfl, rfl⟩
  · rcases exec_vectorComputes s hi with ⟨v, flags, draws, steady, goes⟩ | fails
    · obtain rfl : t = _ := Host.Outcome.next.inj (run.symm.trans goes)
      obtain ⟨only, vec⟩ := State.vectorDone_follows flags draws hf steady
      rw [vec]
      exact ⟨only.mem, only.tags, only.ctx, only.core, only.part, steady.kernel, steady.task, steady.loops, steady.lc⟩
    · obtain rfl : t = _ := Host.Outcome.next.inj (run.symm.trans fails)
      obtain ⟨focus, stands⟩ := s.vectorFail_next s.focus causeFormat
      rw [State.vec, focus, stands] at next
      exact absurd next (Nat.succ_ne_self _).symm
  · exact (exec_kernel_keeps hk hn hu t run).byte a
  · exact exec_vectorStores_byte hi hu ha (fun q k l e ks left va d hm x hx => apart q k l ks left va d e hm x hx) run

end Sys2Proof.Machine
end

section
/-! PROOFS. Tiles by rows: the codes of an operand, cut into rows, turned, and put back (R182, R185, R213). -/

namespace Sys2Proof.Machine

/-! ### How many codes and positions there are -/

@[simp] theorem codesOf_length (b n : Nat) (d : List Byte) : (codesOf b n d).length = n := by
  induction n generalizing d with
  | zero => rfl
  | succ n ih => rw [codesOf, List.length_cons, ih]

@[simp] theorem VectorUnit.line_length (v : VectorUnit) (sp : BitVec 8) (b n : Nat) : (v.line sp b n).length = n :=
  codesOf_length _ _ _

theorem position_lt {n m r c : Nat} (hr : r < n) (hc : c < m) : r * m + c < n * m :=
  calc r * m + c < (r + 1) * m := by rw [Nat.succ_mul]; omega
    _ ≤ n * m := Nat.mul_le_mul_right m hr

/-- Rows of one length laid end to end have as many elements as there are positions. -/
theorem flatten_rows_length {α : Type} (g : Nat → Nat → α) (n c : Nat) :
    ((List.range n).map fun r => (List.range c).map (g r)).flatten.length = n * c := by
  simp [List.length_flatten, Function.comp_def]

/-- An operand of any class has a code for each position of the shape (R182). -/
@[simp] theorem VectorUnit.operand_length (v : VectorUnit) (sp : BitVec 8) (b : Nat) :
    (v.operand sp b).length = v.size := by
  unfold VectorUnit.operand
  split
  · exact codesOf_length _ _ _
  · split
    · split <;> simp [List.length_flatten, Function.comp_def, VectorUnit.size]
    · split <;> exact List.length_replicate

/-! ### Rows of a list -/

/-- A row within a list, by its elements. -/
theorem take_drop_eq_map (l : List Nat) {k n : Nat} (h : k + n ≤ l.length) :
    (l.drop k).take n = (List.range n).map fun j => l.getD (k + j) 0 := by
  refine List.ext_getElem (by simp; omega) fun j hj _ => ?_
  have inside : k + j < l.length := by simp at hj; omega
  simp [inside]

theorem replicate_eq_map {α : Type} (n : Nat) (a : α) : List.replicate n a = (List.range n).map fun _ => a := by
  rw [List.map_const', List.length_range]

/-- A list of `n` rows of `c` elements, cut into them. -/
theorem runsOf_eq_rows {c : Nat} (hc : c ≠ 0) (n : Nat) (l : List Nat) (h : l.length = n * c) :
    runsOf c n l = (List.range n).map fun r => (List.range c).map fun j => l.getD (r * c + j) 0 := by
  induction n generalizing l with
  | zero => rfl
  | succ n ih =>
    rw [Nat.succ_mul] at h
    have more : l ≠ [] := by rintro rfl; simp at h; omega
    rw [runsOf, if_neg (by simpa using more), ih _ (by simp [h]), List.range_succ_eq_map, List.map_cons, List.map_map]
    congr 1
    · simpa using take_drop_eq_map l (k := 0) (n := c) (by omega)
    · refine List.map_congr_left fun r _ => List.map_congr_left fun j _ => ?_
      simp [Nat.succ_mul, Nat.add_comm c, Nat.add_right_comm _ c, Nat.add_assoc]

/-- Columns of rows: the element of each at every index. -/
theorem rowsOf_eq_columns (n : Nat) (ls : List (List Nat)) :
    rowsOf n ls = (List.range n).map fun k => ls.map fun l => l.getD k 0 := by
  refine List.ext_getElem? fun k => ?_
  rcases Nat.lt_or_ge k n with h | h
  · rw [rowsOf_getElem? n k ls h]
    simp [h]
  · simp [h]

/-- The columns of a tile given by rows. -/
theorem rowsOf_rows (n c : Nat) (g : Nat → Nat → Nat) :
    rowsOf c ((List.range n).map fun r => (List.range c).map (g r))
      = (List.range c).map fun j => (List.range n).map fun r => g r j := by
  rw [rowsOf_eq_columns]
  refine List.map_congr_left fun j hj => ?_
  simp [List.mem_range.mp hj]

theorem VectorUnit.rows_ne_zero {v : VectorUnit} {b : Nat} (h : v.shapeOk b = true) : v.rows ≠ 0 := by
  simp only [VectorUnit.shapeOk, Bool.and_eq_true, bne_iff_ne] at h
  exact h.1.1

theorem VectorUnit.cols_ne_zero {v : VectorUnit} {b : Nat} (h : v.shapeOk b = true) : v.cols ≠ 0 := by
  simp only [VectorUnit.shapeOk, Bool.and_eq_true, bne_iff_ne] at h
  exact h.1.2

/-- The rows of an operand. -/
theorem VectorUnit.operand_rows (v : VectorUnit) (sp : BitVec 8) (b : Nat) (hc : v.cols ≠ 0) :
    runsOf v.cols v.rows (v.operand sp b)
      = (List.range v.rows).map fun r => (List.range v.cols).map fun c => (v.operand sp b).getD (r * v.cols + c) 0 :=
  runsOf_eq_rows hc _ _ (v.operand_length sp b)

end Sys2Proof.Machine
end

section
/-! PROOFS. Moves and conversions (O43: R224, R225, R229-R231). -/

namespace Sys2Proof.Machine

/-! ### A tile put by its codes (R185, R225) -/

section
variable {s : State} {f : VWord} {i : Instr}

/-- The codes of a tile at the positions that are governed. -/
def VectorUnit.placed (v : VectorUnit) (f : VWord) (codes : List Nat) : List (Option Nat) :=
  codes.zipIdx.map fun p => if v.governs f.pred p.2 then some p.1 else none

theorem State.vectorPut_eq (s : State) (f : VWord) (codes : List Nat) : s.vectorPut f codes
    = .next (s.vectorDone (s.vec.setCodes f.dst (elOf f.type).bytes (s.vec.placed f codes)) 0 false) := rfl

theorem VectorUnit.placed_getElem? (v : VectorUnit) (f : VWord) {codes : List Nat} {k x : Nat} (h : codes[k]? = some x) :
    (v.placed f codes)[k]? = some (if v.governs f.pred k then some x else none) := by
  simp [VectorUnit.placed, List.getElem?_zipIdx, h]

/-- Codes given for every position are placed where the predicate governs. -/
theorem State.vectorPut_places {codes : List Nat} {code : Nat → Nat} (hi : exec i s = s.vectorPut f codes)
    (length : codes.length = s.vec.size) (at_ : ∀ k < s.vec.size, codes[k]? = some (code k)) : s.Places i f code :=
  ⟨s.vec.placed f codes, hi.trans (s.vectorPut_eq f codes), by simp [VectorUnit.placed, length],
    fun k hk => s.vec.placed_getElem? f (at_ k hk)⟩

/-- Codes given by rows are placed by the row and column of a position. -/
theorem State.vectorPut_rows_places {n c : Nat} {g : Nat → Nat → Nat}
    (hi : exec i s = s.vectorPut f ((List.range n).map fun r => (List.range c).map (g r)).flatten)
    (size : n * c = s.vec.size) : s.Places i f fun k => g (k / c) (k % c) :=
  vectorPut_places hi ((flatten_rows_length g n c).trans size) fun k hk => flatten_rows_getElem? g n c k (size ▸ hk)

end

section
variable {s : State} {f : VWord}

/-! ### VBCAST (R225) -/

/-- The bound on the index of VBCAST, by its mode. -/
def VectorUnit.broadcastLimit (v : VectorUnit) : Nat → Nat
  | 0 => v.size
  | 1 => v.rows
  | _ => v.cols

/-- The codes that VBCAST puts, by its mode. -/
def VectorUnit.broadcast (v : VectorUnit) (l : List Nat) (k : Nat) : Nat → List Nat
  | 0 => List.replicate v.size (l.getD k 0)
  | 1 => (List.replicate v.rows ((l.drop (k * v.cols)).take v.cols)).flatten
  | _ => ((runsOf v.cols v.rows l).map fun r => List.replicate v.cols (r.getD k 0)).flatten

theorem VectorUnit.broadcast_row {v : VectorUnit} {l : List Nat} {k : Nat} (hl : l.length = v.size) (hk : k < v.rows) :
    v.broadcast l k 1
      = ((List.range v.rows).map fun _ => (List.range v.cols).map fun c => l.getD (k * v.cols + c) 0).flatten := by
  have inside : (k + 1) * v.cols ≤ v.rows * v.cols := Nat.mul_le_mul_right _ hk
  rw [VectorUnit.broadcast, take_drop_eq_map l (by rwa [hl, ← Nat.succ_mul]), replicate_eq_map]

theorem VectorUnit.broadcast_col {v : VectorUnit} {l : List Nat} {k : Nat} (hl : l.length = v.size) (hk : k < v.cols) :
    v.broadcast l k 2
      = ((List.range v.rows).map fun r => (List.range v.cols).map fun _ => l.getD (r * v.cols + k) 0).flatten := by
  change ((runsOf v.cols v.rows l).map fun r => List.replicate v.cols (r.getD k 0)).flatten = _
  rw [runsOf_eq_rows (by omega) _ _ hl, List.map_map]
  simp [Function.comp_def, hk]

theorem exec_vbcast (s : State) (f : VWord) :
    let v := s.vec
    let k := (v.scalar f.b).toNat % 2 ^ 32
    let b := (elOf f.type).bytes
    exec (.vbcast f) s = if !v.shapeOk b || decide (v.broadcastLimit (f.aux.toNat % 4) ≤ k)
      then .next (s.vectorFail s.focus causeFormat)
      else s.vectorPut f (v.broadcast (v.operand f.a b) k (f.aux.toNat % 4)) := by
  have run : exec (.vbcast f) s = execVbcast f s := rfl
  have mode : bits f.aux.toNat 0 2 = f.aux.toNat % 4 := rfl
  rw [run, execVbcast, mode]
  generalize f.aux.toNat % 4 = m
  match m with
  | 0 | 1 | _ + 2 => rfl

theorem exec_vbcast_within {m : Nat} (hm : f.aux.toNat % 4 = m) (hs : s.vec.shapeOk (elOf f.type).bytes = true)
    (hk : (s.vec.scalar f.b).toNat % 2 ^ 32 < s.vec.broadcastLimit m) :
    exec (.vbcast f) s = s.vectorPut f
      (s.vec.broadcast (s.vec.operand f.a (elOf f.type).bytes) ((s.vec.scalar f.b).toNat % 2 ^ 32) m) := by
  subst hm
  rw [exec_vbcast, if_neg (by simpa [hs] using hk)]

/-- VBCAST of an element. -/
theorem exec_vbcast_elem (hs : s.vec.shapeOk (elOf f.type).bytes = true) (hm : f.aux.toNat % 4 = 0)
    (hk : (s.vec.scalar f.b).toNat % 2 ^ 32 < s.vec.size) :
    s.Places (.vbcast f) f fun _ =>
      (s.vec.operand f.a (elOf f.type).bytes).getD ((s.vec.scalar f.b).toNat % 2 ^ 32) 0 :=
  State.vectorPut_places (exec_vbcast_within hm hs hk) List.length_replicate fun _ h =>
    List.getElem?_replicate_of_lt h

/-- VBCAST of a row. -/
theorem exec_vbcast_row (hs : s.vec.shapeOk (elOf f.type).bytes = true) (hm : f.aux.toNat % 4 = 1)
    (hk : (s.vec.scalar f.b).toNat % 2 ^ 32 < s.vec.rows) :
    s.Places (.vbcast f) f fun k => (s.vec.operand f.a (elOf f.type).bytes).getD
      ((s.vec.scalar f.b).toNat % 2 ^ 32 * s.vec.cols + k % s.vec.cols) 0 := by
  have put := exec_vbcast_within hm hs hk
  rw [VectorUnit.broadcast_row (s.vec.operand_length _ _) hk] at put
  exact State.vectorPut_rows_places put rfl

/-- VBCAST of a column. -/
theorem exec_vbcast_col (hs : s.vec.shapeOk (elOf f.type).bytes = true) (hm : f.aux.toNat % 4 = 2)
    (hk : (s.vec.scalar f.b).toNat % 2 ^ 32 < s.vec.cols) :
    s.Places (.vbcast f) f fun k => (s.vec.operand f.a (elOf f.type).bytes).getD
      (k / s.vec.cols * s.vec.cols + (s.vec.scalar f.b).toNat % 2 ^ 32) 0 := by
  have put := exec_vbcast_within hm hs hk
  rw [VectorUnit.broadcast_col (s.vec.operand_length _ _) hk] at put
  exact State.vectorPut_rows_places put rfl

/-- An index at or above the bound of its mode fails, and so does one above the whole shape. -/
theorem exec_vbcast_outside (h : s.vec.size ≤ (s.vec.scalar f.b).toNat % 2 ^ 32 ∨
      f.aux.toNat % 4 = 1 ∧ s.vec.rows ≤ (s.vec.scalar f.b).toNat % 2 ^ 32 ∨
      f.aux.toNat % 4 = 2 ∧ s.vec.cols ≤ (s.vec.scalar f.b).toNat % 2 ^ 32) :
    exec (.vbcast f) s = .next (s.vectorFail s.focus causeFormat) := by
  rw [exec_vbcast]
  refine if_pos ?_
  rw [Bool.or_eq_true, Bool.not_eq_true', decide_eq_true_eq, or_iff_not_imp_left, Bool.not_eq_false]
  intro hs
  have rows : s.vec.rows ≤ s.vec.size := Nat.le_mul_of_pos_right _ (Nat.pos_of_ne_zero (VectorUnit.cols_ne_zero hs))
  have cols : s.vec.cols ≤ s.vec.size := Nat.le_mul_of_pos_left _ (Nat.pos_of_ne_zero (VectorUnit.rows_ne_zero hs))
  rcases h with whole | ⟨mode, row⟩ | ⟨mode, col⟩
  · generalize f.aux.toNat % 4 = m
    match m with
    | 0 => exact whole
    | 1 => exact rows.trans whole
    | _ + 2 => exact cols.trans whole
  · rwa [mode]
  · rwa [mode]

/-! ### VTRN and VSEL (R225) -/

theorem exec_vtrn_places (hs : s.vec.shapeOk (elOf f.type).bytes = true) :
    s.Places (.vtrn f) f fun k => (s.vec.operand f.a (elOf f.type).bytes).getD
      (k % s.vec.rows * s.vec.cols + k / s.vec.rows) 0 := by
  have put : exec (.vtrn f) s = s.vectorPut f
      (rowsOf s.vec.cols (runsOf s.vec.cols s.vec.rows (s.vec.operand f.a (elOf f.type).bytes))).flatten := if_pos hs
  rw [s.vec.operand_rows _ _ (VectorUnit.cols_ne_zero hs), rowsOf_rows] at put
  exact State.vectorPut_rows_places put (Nat.mul_comm _ _)

/-- The codes that VSEL selects at every position. -/
def VectorUnit.selected (v : VectorUnit) (f : VWord) (b : Nat) : List (Option Nat) :=
  ((v.operand f.a b).zip (v.operand f.b b)).zipIdx.map fun p => some (if v.governs f.pred p.2 then p.1.1 else p.1.2)

theorem exec_vsel (h : s.vec.operandsOk (elOf f.type).bytes
      [(f.a, (elOf f.type).bytes), (f.b, (elOf f.type).bytes)] = true) :
    exec (.vsel f) s = .next (s.vectorDone
      (s.vec.setCodes f.dst (elOf f.type).bytes (s.vec.selected f (elOf f.type).bytes)) 0 false) := if_pos h

@[simp] theorem VectorUnit.selected_length (v : VectorUnit) (f : VWord) (b : Nat) : (v.selected f b).length = v.size := by
  simp [VectorUnit.selected]

theorem VectorUnit.selected_getElem? (v : VectorUnit) (f : VWord) (b : Nat) {k : Nat} (hk : k < v.size) :
    (v.selected f b)[k]? = some (some (if v.governs f.pred k then (v.operand f.a b).getD k 0
      else (v.operand f.b b).getD k 0)) := by
  simp [VectorUnit.selected, hk]

end

/-- Settles O43: a map is taken element by element, and a move puts codes that are given by row and column. -/
theorem vectorMoves : Obligations.VectorMoves := by
  unfold Obligations.VectorMoves
  refine ⟨fun s f => ⟨s.vectorMap_computes f rfl fun _ _ => rfl, ⟨fun hs _ => ⟨exec_vbcast_elem hs, exec_vbcast_row hs,
    exec_vbcast_col hs⟩, exec_vbcast_outside⟩, fun hs _ => exec_vtrn_places hs, fun h => ?_⟩, fun s f => ⟨?_, ?_⟩⟩
  · exact ⟨_, exec_vsel h, s.vec.selected_length f _, fun k hk => s.vec.selected_getElem? f _ hk⟩
  · exact s.vectorMap_computes f rfl fun _ _ => rfl
  · exact s.vectorMap_computes f rfl fun _ _ => rfl

end Sys2Proof.Machine
end

section
/-! PROOFS. Reductions and scans (O44: R226-R228, R70, R71). -/

namespace Sys2Proof.Machine

/-! ### Leaves, by position (R227) -/

/-- The leaf of a position: the identity where it is not governed. -/
def VectorUnit.leafAt (v : VectorUnit) (f : VWord) (k : Nat) : Nat :=
  if v.governs f.pred k then (foldOp f).leaf ((v.operand f.a (elOf f.type).bytes).getD k 0) else (foldOp f).identity

@[simp] theorem VectorUnit.leaves_length (v : VectorUnit) (f : VWord) (o : FoldOp) : (v.leaves f o).length = v.size := by
  simp [VectorUnit.leaves]

theorem VectorUnit.leaves_getD {v : VectorUnit} {f : VWord} {k : Nat} (h : k < v.size) :
    (v.leaves f (foldOp f)).getD k 0 = v.leafAt f k := by
  simp [VectorUnit.leaves, VectorUnit.leafAt, h]

/-- The rows of the leaves. -/
theorem VectorUnit.leaves_rows {v : VectorUnit} (f : VWord) (hc : v.cols ≠ 0) :
    runsOf v.cols v.rows (v.leaves f (foldOp f))
      = (List.range v.rows).map fun r => (List.range v.cols).map fun c => v.leafAt f (r * v.cols + c) := by
  rw [runsOf_eq_rows hc _ _ (v.leaves_length f _)]
  refine List.map_congr_left fun r hr => List.map_congr_left fun c hc => ?_
  exact VectorUnit.leaves_getD (position_lt (List.mem_range.mp hr) (List.mem_range.mp hc))

/-! ### Reductions (R227) -/

section
variable {s : State} {f : VWord}

/-- The reductions of the lanes, given how many they are, their length, and the position of each of their elements. -/
def State.reduceLanes (s : State) (f : VWord) (lanes steps : Nat) (index : Nat → Nat → Nat) : List Coded :=
  (List.range lanes).map fun i => s.reduceLane f (foldOp f) (index i)
    ((List.range steps).map fun j => s.vec.leafAt f (index i j))

theorem zipIdx_map_range {α β : Type} (n : Nat) (g : Nat → α) (h : α × Nat → β) :
    ((List.range n).map g).zipIdx.map h = (List.range n).map fun i => h (g i, i) :=
  List.ext_getElem (by simp) fun i _ _ => by simp

theorem exec_vredr (hs : s.vec.shapeOk (elOf f.type).bytes = true) (hl : s.vec.rows * (elOf f.type).bytes ≤ 2048) :
    let rs := s.reduceLanes f s.vec.rows s.vec.cols fun i j => i * s.vec.cols + j
    exec (.vredr f) s = .next (s.vectorDone (s.vec.setLine f.dst (elOf f.type).bytes (rs.map fun r => some r.code))
      (flagsOf rs) (f.mode == .rsr)) := by
  have run : exec (.vredr f) s = s.vectorReduce f true := rfl
  rw [run, State.vectorReduce]
  dsimp only
  rw [if_neg (by simpa [hs] using hl), if_pos rfl, s.vec.leaves_rows f (VectorUnit.cols_ne_zero hs), zipIdx_map_range]
  rfl

theorem exec_vredc (hs : s.vec.shapeOk (elOf f.type).bytes = true) (hl : s.vec.cols * (elOf f.type).bytes ≤ 2048) :
    let rs := s.reduceLanes f s.vec.cols s.vec.rows fun i j => j * s.vec.cols + i
    exec (.vredc f) s = .next (s.vectorDone (s.vec.setLine f.dst (elOf f.type).bytes (rs.map fun r => some r.code))
      (flagsOf rs) (f.mode == .rsr)) := by
  have run : exec (.vredc f) s = s.vectorReduce f false := rfl
  rw [run, State.vectorReduce]
  dsimp only
  rw [if_neg (by simpa [hs] using hl), if_neg Bool.false_ne_true, s.vec.leaves_rows f (VectorUnit.cols_ne_zero hs),
    rowsOf_rows, zipIdx_map_range]
  rfl

@[simp] theorem State.reduceLanes_length (lanes steps : Nat) (index : Nat → Nat → Nat) :
    (s.reduceLanes f lanes steps index).length = lanes := by simp [State.reduceLanes]

theorem State.reduceLanes_getElem? {lanes steps i : Nat} (index : Nat → Nat → Nat) (h : i < lanes) :
    (s.reduceLanes f lanes steps index)[i]? = some (s.reduceLane f (foldOp f) (index i)
      ((List.range steps).map fun j => s.vec.leafAt f (index i j))) := by simp [State.reduceLanes, h]

end

/-! ### The recurrence of R71 -/

section
variable (o : FoldOp) (draw : Nat → Nat)

@[simp] theorem scanLane_length (i : Nat) (before : Option Nat) (l : List Nat) :
    (scanLane o draw i before l).length = l.length := by
  induction l generalizing i before with
  | nil => cases before <;> rfl
  | cons x l ih => cases before <;> simp [scanLane, ih]

/-- The first sum is the first leaf, or takes it to the value before. -/
theorem scanLane_first (i : Nat) (before : Option Nat) {l : List Nat} (h : l ≠ []) :
    (scanLane o draw i before l)[0]? = some (before.elim ⟨l.getD 0 0, 0⟩ fun p => o.pair (draw i) p (l.getD 0 0)) := by
  cases l with
  | nil => exact absurd rfl h
  | cons x l => cases before <;> rfl

/-- Each later sum takes its leaf to the sum before it. -/
theorem scanLane_next (i j : Nat) (before : Option Nat) {l : List Nat} {a : Coded}
    (ha : (scanLane o draw i before l)[j]? = some a) (h : j + 1 < l.length) :
    (scanLane o draw i before l)[j + 1]? = some (o.pair (draw (i + (j + 1))) a.code (l.getD (j + 1) 0)) := by
  induction j generalizing i before l with
  | zero =>
    match l, before with
    | [], _ | [x], _ => simp at h
    | x :: y :: l, none | x :: y :: l, some p => cases ha; rfl
  | succ j ih =>
    match l, before with
    | [], _ => simp at h
    | x :: l, none | x :: l, some p =>
      have after := ih (i + 1) _ (l := l) ha (by simpa using h)
      rw [Nat.add_right_comm i 1 (j + 1)] at after
      exact after

end

/-! ### The output of a lane (R71, R228) -/

section
variable (o : FoldOp) (draw leaf : Nat → Nat) (first : Nat) (start : Option Nat) {n j : Nat} {a : Coded}

/-- The output of a lane of `n` leaves. -/
def laneOut (o : FoldOp) (draw leaf : Nat → Nat) (excl : Bool) (first : Nat) (start : Option Nat) (n : Nat) :
    List Coded :=
  scanOut o draw excl first start ((List.range n).map leaf)

theorem map_range_getD (h : j < n) : ((List.range n).map leaf).getD j 0 = leaf j := by simp [h]

theorem map_range_ne_nil (h : 0 < n) : (List.range n).map leaf ≠ [] := by simp; omega

theorem laneOut_inclusive : laneOut o draw leaf false first start n = scanLane o draw 0 start ((List.range n).map leaf) :=
  rfl

/-- An exclusive scan shows what it starts with, then the sums of all leaves but the last, each one site further on. -/
theorem laneOut_exclusive : laneOut o draw leaf true first start n = ⟨start.getD first, 0⟩ ::
    scanLane o (fun i => draw (i + 1)) 0 start ((List.range (n - 1)).map leaf) := by
  have others : ((List.range n).map leaf).dropLast = (List.range (n - 1)).map leaf := by
    cases n with
    | zero => rfl
    | succ n => simp [List.range_succ]
  rw [← others]
  rfl

theorem laneOut_length (excl : Bool) (h : n ≠ 0) : (laneOut o draw leaf excl first start n).length = n := by
  cases excl
  · simp [laneOut_inclusive]
  · simp [laneOut_exclusive]
    omega

theorem laneOut_inclusive_zero (h : 0 < n) : (laneOut o draw leaf false first start n)[0]?
    = some (start.elim ⟨leaf 0, 0⟩ fun p => o.pair (draw 0) p (leaf 0)) := by
  rw [laneOut_inclusive, scanLane_first o draw 0 start (map_range_ne_nil leaf h), map_range_getD leaf h]

theorem laneOut_inclusive_succ (ha : (laneOut o draw leaf false first start n)[j]? = some a) (h : j + 1 < n) :
    (laneOut o draw leaf false first start n)[j + 1]? = some (o.pair (draw (j + 1)) a.code (leaf (j + 1))) := by
  rw [laneOut_inclusive] at ha ⊢
  rw [scanLane_next o draw 0 j start ha (by simpa using h), map_range_getD leaf h, Nat.zero_add]

theorem laneOut_exclusive_zero : (laneOut o draw leaf true first start n)[0]? = some ⟨start.getD first, 0⟩ := by
  rw [laneOut_exclusive, List.getElem?_cons_zero]

theorem laneOut_exclusive_one (h : 1 < n) : (laneOut o draw leaf true first start n)[1]?
    = some (start.elim ⟨leaf 0, 0⟩ fun p => o.pair (draw 1) p (leaf 0)) := by
  have some_leaf : 0 < n - 1 := by omega
  rw [laneOut_exclusive, List.getElem?_cons_succ, scanLane_first _ _ 0 start (map_range_ne_nil leaf some_leaf),
    map_range_getD leaf some_leaf]

theorem laneOut_exclusive_succ (ha : (laneOut o draw leaf true first start n)[j + 1]? = some a) (h : j + 2 < n) :
    (laneOut o draw leaf true first start n)[j + 2]? = some (o.pair (draw (j + 2)) a.code (leaf (j + 1))) := by
  have more : j + 1 < n - 1 := by omega
  rw [laneOut_exclusive, List.getElem?_cons_succ] at ha ⊢
  rw [scanLane_next _ _ 0 j start ha (by simpa using more), map_range_getD leaf more, Nat.zero_add]

end

/-! ### VSCAN (R228) -/

/-- The lanes of a scan: how many, their length, and the linear index of each of their elements. -/
def VectorUnit.scanLanes (v : VectorUnit) (f : VWord) : Nat := if f.auxBit 4 then v.cols else v.rows

def VectorUnit.scanSteps (v : VectorUnit) (f : VWord) : Nat := if f.auxBit 4 then v.rows else v.cols

def VectorUnit.scanIndex (v : VectorUnit) (f : VWord) (i j : Nat) : Nat :=
  if f.auxBit 4 then j * v.cols + i else i * v.cols + j

/-- The value that a lane starts with: an element of the CARRY line. -/
def VectorUnit.carried (v : VectorUnit) (f : VWord) (i : Nat) : Nat :=
  (v.line f.b (elOf f.type).bytes (v.scanLanes f)).getD i 0

def VectorUnit.scanStart (v : VectorUnit) (f : VWord) (i : Nat) : Option Nat :=
  if f.auxBit 6 then some (v.carried f i) else none

/-- What an exclusive scan without CARRY shows first. -/
def scanEmpty (f : VWord) : Nat := if f.aux.toNat % 4 = 0 then 0 else (foldOp f).identity

/-- The output of a lane of VSCAN, and one element of it. -/
def State.scanned (s : State) (f : VWord) (i : Nat) : List Coded :=
  laneOut (foldOp f) (fun j => s.vectorDraw f (s.vec.scanIndex f i j)) (fun j => s.vec.leafAt f (s.vec.scanIndex f i j))
    (f.auxBit 5) (scanEmpty f) (s.vec.scanStart f i) (s.vec.scanSteps f)

def State.scanVal (s : State) (f : VWord) (i j : Nat) : Coded := (s.scanned f i).getD j ⟨0, 0⟩

/-- The codes of all lanes, by rows of the tile. -/
def State.scanCodes (s : State) (f : VWord) : List Nat :=
  ((List.range s.vec.rows).map fun r => (List.range s.vec.cols).map fun c =>
    (if f.auxBit 4 then s.scanVal f c r else s.scanVal f r c).code).flatten

section
variable {s : State} {f : VWord}

theorem VectorUnit.scanSteps_ne_zero {v : VectorUnit} {b : Nat} (hs : v.shapeOk b = true) : v.scanSteps f ≠ 0 := by
  unfold VectorUnit.scanSteps
  split
  · exact VectorUnit.rows_ne_zero hs
  · exact VectorUnit.cols_ne_zero hs

theorem State.scanVal_of {i j : Nat} {a : Coded} (h : (s.scanned f i)[j]? = some a) : s.scanVal f i j = a := by
  simp [State.scanVal, h]

section
variable {b : Nat} (hs : s.vec.shapeOk b = true)
include hs

theorem State.scanned_length (i : Nat) : (s.scanned f i).length = s.vec.scanSteps f :=
  laneOut_length _ _ _ _ _ _ (VectorUnit.scanSteps_ne_zero hs)

theorem State.scanned_getElem? (i : Nat) {j : Nat} (hj : j < s.vec.scanSteps f) :
    (s.scanned f i)[j]? = some (s.scanVal f i j) := by
  simp [State.scanVal, State.scanned_length hs i, hj]

theorem State.scanned_eq (i : Nat) : s.scanned f i = (List.range (s.vec.scanSteps f)).map (s.scanVal f i) := by
  refine List.ext_getElem? fun j => ?_
  rcases Nat.lt_or_ge j (s.vec.scanSteps f) with h | h
  · rw [State.scanned_getElem? hs i h]
    simp [h]
  · simp [h, State.scanned_length hs i]

end

theorem VectorUnit.scanStarts_eq (v : VectorUnit) (f : VWord) :
    (if f.auxBit 6 then (v.line f.b (elOf f.type).bytes (v.scanLanes f)).map some
      else List.replicate (v.scanLanes f) none) = (List.range (v.scanLanes f)).map (v.scanStart f) := by
  cases carry : f.auxBit 6
  · have empty : v.scanStart f = fun _ => none := by funext i; simp [VectorUnit.scanStart, carry]
    rw [if_neg Bool.false_ne_true, replicate_eq_map, empty]
  · have carries : v.scanStart f = fun i => some (v.carried f i) := by funext i; simp [VectorUnit.scanStart, carry]
    rw [if_pos rfl, carries]
    refine List.ext_getElem (by simp) fun i hi _ => ?_
    rw [List.length_map, VectorUnit.line_length] at hi
    simp [VectorUnit.carried, hi]

/-- The leaves of the lanes. -/
theorem VectorUnit.scanLeaves_eq {v : VectorUnit} (f : VWord) (hc : v.cols ≠ 0) :
    (if f.auxBit 4 then rowsOf v.cols (runsOf v.cols v.rows (v.leaves f (foldOp f)))
      else runsOf v.cols v.rows (v.leaves f (foldOp f)))
    = (List.range (v.scanLanes f)).map fun i => (List.range (v.scanSteps f)).map fun j => v.leafAt f (v.scanIndex f i j) := by
  rw [v.leaves_rows f hc, rowsOf_rows]
  unfold VectorUnit.scanLanes VectorUnit.scanSteps VectorUnit.scanIndex
  split <;> rfl

theorem State.scanFlat_eq {b : Nat} (hs : s.vec.shapeOk b = true) :
    (if f.auxBit 4 then rowsOf s.vec.rows (((List.range (s.vec.scanLanes f)).map (s.scanned f)).map fun l => l.map (·.code))
      else ((List.range (s.vec.scanLanes f)).map (s.scanned f)).map fun l => l.map (·.code)).flatten = s.scanCodes f := by
  have codes : ((List.range (s.vec.scanLanes f)).map (s.scanned f)).map (fun l => l.map (·.code))
      = (List.range (s.vec.scanLanes f)).map fun i => (List.range (s.vec.scanSteps f)).map fun j => (s.scanVal f i j).code := by
    rw [List.map_map]
    refine List.map_congr_left fun i _ => ?_
    rw [Function.comp_apply, State.scanned_eq hs, List.map_map]
    rfl
  rw [codes]
  unfold VectorUnit.scanLanes VectorUnit.scanSteps State.scanCodes
  split
  · rw [rowsOf_rows]
  · rfl

/-- VSCAN places the codes of its lanes, with the flags of all their sums. -/
theorem exec_vscan (hs : s.vec.shapeOk (elOf f.type).bytes = true)
    (hl : f.auxBit 6 = false ∨ s.vec.scanLanes f * (elOf f.type).bytes ≤ 2048) :
    exec (.vscan f) s = .next (s.vectorDone (s.vec.setCodes f.dst (elOf f.type).bytes (s.vec.placed f (s.scanCodes f)))
      (flagsOf ((List.range (s.vec.scanLanes f)).map (s.scanned f)).flatten) (f.mode == .rsr)) := by
  have run : exec (.vscan f) s = execVscan f s := rfl
  have short : ¬ (!s.vec.shapeOk (elOf f.type).bytes ||
      f.auxBit 6 && decide (s.vec.scanLanes f * (elOf f.type).bytes > 2048)) = true := by
    rcases hl with none | fits
    · simp [hs, none]
    · simp [hs, fits]
  have lanes : (if f.auxBit 4 then s.vec.cols else s.vec.rows) = s.vec.scanLanes f := rfl
  rw [run, execVscan]
  dsimp only
  rw [lanes, if_neg short, s.vec.scanLeaves_eq f (VectorUnit.cols_ne_zero hs), s.vec.scanStarts_eq f, List.zip_map',
    zipIdx_map_range, ← State.scanFlat_eq hs]
  rfl

/-! ### The values of a scan, one by one (R71, R228) -/

/-- The sum of a position: its leaf taken to the value before, at the site of the position that shows it. -/
def State.scanSum (s : State) (f : VWord) (i j : Nat) (before : Nat) (k : Nat) : Coded :=
  (foldOp f).pair (s.vectorDraw f (s.vec.scanIndex f i j)) before (s.vec.leafAt f k)

section
variable {i : Nat} {b : Nat} (hs : s.vec.shapeOk b = true)

theorem State.scanned_eq_laneOut {excl : Bool} (he : f.auxBit 5 = excl) (i : Nat) :
    s.scanned f i = laneOut (foldOp f) (fun j => s.vectorDraw f (s.vec.scanIndex f i j))
      (fun j => s.vec.leafAt f (s.vec.scanIndex f i j)) excl (scanEmpty f) (s.vec.scanStart f i) (s.vec.scanSteps f) := by
  rw [State.scanned, he]

/-- What the first leaf of a lane gives. -/
def State.scanBegin (s : State) (f : VWord) (i j : Nat) : Coded :=
  if f.auxBit 6 then s.scanSum f i j (s.vec.carried f i) (s.vec.scanIndex f i 0)
  else ⟨s.vec.leafAt f (s.vec.scanIndex f i 0), 0⟩

theorem State.scanBegin_eq (s : State) (f : VWord) (i j : Nat) : (s.vec.scanStart f i).elim
    ⟨s.vec.leafAt f (s.vec.scanIndex f i 0), 0⟩ (fun p => s.scanSum f i j p (s.vec.scanIndex f i 0))
      = s.scanBegin f i j := by
  unfold VectorUnit.scanStart State.scanBegin
  split <;> rfl

theorem State.scanVal_inclusive_zero (he : f.auxBit 5 = false) (h : 0 < s.vec.scanSteps f) :
    s.scanVal f i 0 = s.scanBegin f i 0 := by
  rw [← State.scanBegin_eq]
  apply State.scanVal_of
  rw [State.scanned_eq_laneOut he]
  exact laneOut_inclusive_zero _ _ _ _ _ h

theorem State.scanVal_exclusive_zero (he : f.auxBit 5 = true) :
    s.scanVal f i 0 = ⟨if f.auxBit 6 then s.vec.carried f i else scanEmpty f, 0⟩ := by
  apply State.scanVal_of
  rw [State.scanned_eq_laneOut he, laneOut_exclusive_zero, VectorUnit.scanStart]
  split <;> rfl

theorem State.scanVal_exclusive_one (he : f.auxBit 5 = true) (h : 1 < s.vec.scanSteps f) :
    s.scanVal f i 1 = s.scanBegin f i 1 := by
  rw [← State.scanBegin_eq]
  apply State.scanVal_of
  rw [State.scanned_eq_laneOut he]
  exact laneOut_exclusive_one _ _ _ _ _ h

include hs

theorem State.scanVal_inclusive_succ (he : f.auxBit 5 = false) {j : Nat} (h : j + 1 < s.vec.scanSteps f) :
    s.scanVal f i (j + 1) = s.scanSum f i (j + 1) (s.scanVal f i j).code (s.vec.scanIndex f i (j + 1)) := by
  have before := State.scanned_getElem? (f := f) hs i (j := j) (by omega)
  apply State.scanVal_of
  rw [State.scanned_eq_laneOut he] at before ⊢
  exact laneOut_inclusive_succ _ _ _ _ _ before h

theorem State.scanVal_exclusive_succ (he : f.auxBit 5 = true) {j : Nat} (h : j + 2 < s.vec.scanSteps f) :
    s.scanVal f i (j + 2) = s.scanSum f i (j + 2) (s.scanVal f i (j + 1)).code (s.vec.scanIndex f i (j + 1)) := by
  have before := State.scanned_getElem? (f := f) hs i (j := j + 1) (by omega)
  apply State.scanVal_of
  rw [State.scanned_eq_laneOut he] at before ⊢
  exact laneOut_exclusive_succ _ _ _ _ _ before h

/-- After its first sum, an exclusive scan with CARRY, and any from its second, takes each leaf to the value before. -/
theorem State.scanVal_exclusive_next (he : f.auxBit 5 = true) {j : Nat} (h : j + 1 < s.vec.scanSteps f)
    (hj : f.auxBit 6 = true ∨ 0 < j) :
    s.scanVal f i (j + 1) = s.scanSum f i (j + 1) (s.scanVal f i j).code (s.vec.scanIndex f i j) := by
  cases j with
  | zero =>
    have carry : f.auxBit 6 = true := hj.resolve_right (lt_irrefl 0)
    rw [State.scanVal_exclusive_one he h, State.scanVal_exclusive_zero he, State.scanBegin, if_pos carry, if_pos carry]
  | succ j => exact State.scanVal_exclusive_succ hs he h

end

/-! ### Where the values stand (R228) -/

/-- An element of rows laid end to end, by its row and column. -/
theorem flatten_rows_at {α : Type} (g : Nat → Nat → α) {n m r c : Nat} (hr : r < n) (hc : c < m) :
    ((List.range n).map fun r => (List.range m).map (g r)).flatten[r * m + c]? = some (g r c) := by
  rw [flatten_rows_getElem? g n m _ (position_lt hr hc), Nat.mul_comm r m, Nat.mul_add_div (by omega), Nat.mul_add_mod,
    Nat.div_eq_of_lt hc, Nat.mod_eq_of_lt hc, Nat.add_zero]

theorem State.scanCodes_getElem? {i j : Nat} (hi : i < s.vec.scanLanes f) (hj : j < s.vec.scanSteps f) :
    (s.scanCodes f)[s.vec.scanIndex f i j]? = some (s.scanVal f i j).code := by
  unfold VectorUnit.scanLanes at hi
  unfold VectorUnit.scanSteps at hj
  unfold State.scanCodes VectorUnit.scanIndex
  cases down : f.auxBit 4
  · rw [down] at hi hj
    exact flatten_rows_at (fun r c => (s.scanVal f r c).code) hi hj
  · rw [down] at hi hj
    exact flatten_rows_at (fun r c => (s.scanVal f c r).code) hj hi

theorem VectorUnit.placed_length (v : VectorUnit) (f : VWord) (codes : List Nat) :
    (v.placed f codes).length = codes.length := by simp [VectorUnit.placed]

/-- A flag is raised where one of the results raises it. -/
theorem flagsOf_getLsbD (l : List Coded) (n : Nat) : (flagsOf l).getLsbD n = l.any fun k => k.flags.getLsbD n := by
  have started (a : Sticky) : (l.foldl (fun f c => f ||| c.flags) a).getLsbD n
      = (a.getLsbD n || l.any fun k => k.flags.getLsbD n) := by
    induction l generalizing a with
    | nil => simp
    | cons k l ih => rw [List.foldl_cons, ih, BitVec.getLsbD_or, Bool.or_assoc, List.any_cons]
  simpa [flagsOf] using started 0

theorem State.scanFlags {b : Nat} (hs : s.vec.shapeOk b = true) (n : Nat) :
    (flagsOf ((List.range (s.vec.scanLanes f)).map (s.scanned f)).flatten).getLsbD n = true ↔
      ∃ i < s.vec.scanLanes f, ∃ j < s.vec.scanSteps f, (s.scanVal f i j).flags.getLsbD n = true := by
  rw [flagsOf_getLsbD, List.any_flatten]
  simp [State.scanned_eq hs]

end

/-- Settles O44: the reductions lane by lane; the scan by its codes, its flags and its recurrence. -/
theorem reductions : Obligations.Reductions := by
  unfold Obligations.Reductions
  intro s f
  dsimp only
  intro hs _
  refine ⟨fun hl => ⟨_, exec_vredr hs hl, State.reduceLanes_length _ _ _, fun i hi => State.reduceLanes_getElem? _ hi⟩,
    fun hl => ⟨_, exec_vredc hs hl, State.reduceLanes_length _ _ _, fun i hi => State.reduceLanes_getElem? _ hi⟩,
    fun hl => ⟨s.scanVal f, _, _, exec_vscan hs hl, ?_, fun i hi j hj => ?_, fun n _ => State.scanFlags hs n,
      fun i hi => ⟨fun he => ⟨?_, fun j hj => ?_⟩, fun he => ⟨?_, fun plain more => ?_, fun j hj first => ?_⟩⟩⟩⟩
  · exact (s.vec.placed_length f _).trans (flatten_rows_length _ _ _)
  · exact s.vec.placed_getElem? f (State.scanCodes_getElem? hi hj)
  · exact State.scanVal_inclusive_zero he (Nat.pos_of_ne_zero (VectorUnit.scanSteps_ne_zero hs))
  · exact State.scanVal_inclusive_succ hs he hj
  · exact State.scanVal_exclusive_zero he
  · exact (State.scanVal_exclusive_one he more).trans (if_neg (by simp [plain]))
  · exact State.scanVal_exclusive_next hs he hj first

end Sys2Proof.Machine
end

section
/-! PROOFS. Control words and loops (O45: R236-R238). -/

namespace Sys2Proof.Machine

section
variable (s : State) (f : VWord)

/-! ### VSHAPE, ROT and LOOP (R237, R238) -/

theorem exec_vshape : exec (.vshape f) s
    = .next (s.vectorDone { s.vec with shape := BitVec.ofNat 32 (s.vec.scalar f.a).toNat } 0 false) := by
  have run : exec (.vshape f) s = execVshape f s := rfl
  rw [run, execVshape, BitVec.truncate_eq_setWidth, ← BitVec.ofNat_toNat]

theorem exec_rot : exec (.rot f) s = .next (s.vectorDone { s.vec with
    wb := Fin.ofNat 48 (f.aux.toNat % 64 + if f.auxBit 6 then 0 else s.vec.wb.val) } 0 false) := by
  have run : exec (.rot f) s = execRot f s := rfl
  have count : bits f.aux.toNat 0 6 = f.aux.toNat % 64 := rfl
  rw [run, execRot, count]
  dsimp only
  split
  · rfl
  · rw [Nat.add_comm]

/-- The count of a LOOP, and its body's last word. -/
def VectorUnit.loopCount (v : VectorUnit) (f : VWord) : Nat :=
  if f.auxBit 12 then f.b.toNat * 256 + f.c.toNat else (v.scalar f.a).toNat % 2 ^ 32

def VectorUnit.loopLast (v : VectorUnit) (f : VWord) : Nat := v.next + 1 + f.aux.toNat % 256

theorem exec_loop_none (h : s.vec.loopCount f = 0) : exec (.loop f) s = .next (s.vectorDone { s.vec with
    lc := vset s.vec.lc (Fin.ofNat 3 s.vec.depth) 0, next := s.vec.loopLast f } 0 false) := if_pos h

theorem exec_loop_opens (h : s.vec.loopCount f ≠ 0) : exec (.loop f) s = .next (s.vectorDone { s.vec with
    lc := vset s.vec.lc (Fin.ofNat 3 s.vec.depth) 0
    loops := vset s.vec.loops (Fin.ofNat 3 s.vec.depth)
      ⟨s.vec.next + 1, s.vec.loopLast f, f.aux.toNat / 512 % 8, true, s.vec.loopCount f⟩ } 0 false) := by
  have step : f.aux.toNat / 512 % 8 = bits f.aux.toNat 9 3 := (bits_eq _ 9 3).symm
  rw [step]
  exact if_neg h

/-! ### VSETS (R237) -/

/-- The immediate of VSETS, of 34 bits. -/
def vsetsImmediate (f : VWord) : BitVec 34 := BitVec.ofNat 34 (vsetsImm f)

/-- What VSETS sets its register to, by its mode. -/
def VectorUnit.vsetsValue (v : VectorUnit) (f : VWord) : Nat → Word
  | 0 => (vsetsImmediate f).signExtend 64
  | 1 => BitVec.ofNat 64 (vsetsImm f % 2 ^ 30 * 2 ^ 34 + (v.scalar f.dst).toNat % 2 ^ 34)
  | 2 => v.scalar f.dst + (vsetsImmediate f).signExtend 64
  | 3 => (vget v.lc (Fin.ofNat 3 (vsetsImm f))).zeroExtend 64
  | 4 => BitVec.ofNat 64 v.wb.val
  | _ => v.shape.zeroExtend 64

theorem exec_vsets : exec (.vsets f) s = .next (s.vectorDone { s.vec with
    s := vset s.vec.s (Fin.ofNat 16 f.dst.toNat) (s.vec.vsetsValue f (f.aux.toNat / 1024)) } 0 false) := by
  have run : exec (.vsets f) s = execVsets f s := rfl
  have mode : bits f.aux.toNat 10 3 = f.aux.toNat / 1024 := by
    have := f.aux.isLt
    rw [bits_eq]
    omega
  rw [run, execVsets, mode]
  generalize f.aux.toNat / 1024 = m
  match m with
  | 0 | 1 | 2 | 3 | 4 | _ + 5 => rfl

end

section
variable (v : VectorUnit) (f : VWord)

theorem signExtend_immediate_toInt (i : BitVec 34) : (i.signExtend 64).toInt = i.toInt :=
  BitVec.toInt_signExtend_of_le (by decide)

/-- Mode hi: the upper 30 bits are the immediate's, the lower 34 the register's. -/
theorem VectorUnit.vsetsValue_hi :
    (v.vsetsValue f 1).toNat / 2 ^ 34 = (vsetsImmediate f).toNat % 2 ^ 30 ∧
    (v.vsetsValue f 1).toNat % 2 ^ 34 = (v.scalar f.dst).toNat % 2 ^ 34 := by
  have imm : (vsetsImmediate f).toNat % 2 ^ 30 = vsetsImm f % 2 ^ 30 := by
    rw [vsetsImmediate, BitVec.toNat_ofNat]
    exact Nat.mod_mod_of_dvd _ (by decide)
  rw [imm, VectorUnit.vsetsValue, BitVec.toNat_ofNat]
  omega

theorem VectorUnit.vsetsValue_add :
    v.vsetsValue f 2 = BitVec.ofInt 64 ((v.scalar f.dst).toInt + (vsetsImmediate f).toInt) := by
  apply BitVec.eq_of_toInt_eq
  rw [VectorUnit.vsetsValue, BitVec.toInt_add, BitVec.toInt_ofInt, signExtend_immediate_toInt]

theorem VectorUnit.vsetsValue_lc (n : Fin 3) (h : vsetsImm f = n.val) :
    (v.vsetsValue f 3).toNat = (vget v.lc n).toNat := by
  have number : Fin.ofNat 3 (vsetsImm f) = n := by rw [h]; exact Fin.ofNat_val_eq_self n
  rw [VectorUnit.vsetsValue, number]
  exact BitVec.toNat_setWidth_of_le (by decide)

theorem VectorUnit.vsetsValue_wb : (v.vsetsValue f 4).toNat = v.wb.val := by
  have := v.wb.isLt
  rw [VectorUnit.vsetsValue, BitVec.toNat_ofNat]
  omega

theorem VectorUnit.vsetsValue_shape : (v.vsetsValue f 5).toNat = v.shape.toNat :=
  BitVec.toNat_setWidth_of_le (by decide)

end

/-! ### The end of an iteration (R238) -/

section
variable {s : State} {c : CoreId}

/-- Whether the body of the loop at a depth has just ended. -/
def VectorUnit.ended (v : VectorUnit) (d : Fin 3) : Bool := (vget v.loops d).active && (vget v.loops d).last + 1 == v.next

/-- The innermost loop whose body has just ended is the one that the engine finds. -/
theorem VectorUnit.find_ended {v : VectorUnit} {d : Fin 3} (h : v.ended d = true) (inner : ∀ e, d < e → v.ended e = false) :
    ([2, 1, 0] : List (Fin 3)).find? v.ended = some d := by
  match d with
  | 0 => simp [h, inner 1 (by decide), inner 2 (by decide)]
  | 1 => simp [h, inner 2 (by decide)]
  | 2 => simp [h]

/-- The engine after an iteration of the loop at a depth has been counted and the window stepped. -/
def VectorUnit.counted (v : VectorUnit) (d : Fin 3) : VectorUnit :=
  { v with lc := vset v.lc d (vget v.lc d + 1), wb := Fin.ofNat 48 (v.wb.val + (vget v.loops d).step) }

theorem exec_loopIterationEnd {d : Fin 3} (h : (s.core c).vec.ended d = true)
    (inner : ∀ e, d < e → (s.core c).vec.ended e = false) :
    let v := (s.core c).vec
    let l := vget v.loops d
    exec (.loopIterationEnd c) s = .next ((s.setVec c (if (vget v.lc d + 1).toNat < l.count
      then { v.counted d with next := l.first }
      else { v.counted d with loops := vset v.loops d { l with active := false } })).vectorGo c) := by
  have run : exec (.loopIterationEnd c) s = execLoopIterationEnd c s := rfl
  have found : List.find? (fun d => (vget (s.core c).vec.loops d).active &&
    (vget (s.core c).vec.loops d).last + 1 == (s.core c).vec.next) ([2, 1, 0] : List (Fin 3)) = some d :=
    VectorUnit.find_ended h inner
  rw [run, execLoopIterationEnd]
  dsimp only
  rw [found]
  rfl

end

/-- Settles O45: each word by its effect, and the loop that an iteration end finds. -/
theorem vectorControl : Obligations.VectorControl := by
  unfold Obligations.VectorControl
  refine ⟨exec_vshape, exec_rot, fun _ _ => rfl, fun s f => ⟨exec_loop_none s f, exec_loop_opens s f⟩, fun s f => ?_,
    fun s c d => ?_⟩
  · refine ⟨_, exec_vsets s f, fun m => ?_, fun m => ?_, fun m => ?_, fun m => ?_, fun m => ?_, fun m => ?_⟩ <;> rw [m]
    · exact signExtend_immediate_toInt _
    · exact s.vec.vsetsValue_hi f
    · exact s.vec.vsetsValue_add f
    · exact s.vec.vsetsValue_lc f
    · exact s.vec.vsetsValue_wb f
    · exact s.vec.vsetsValue_shape f
  · intro v l n u active last inner
    have ended : v.ended d = true := Bool.and_eq_true_iff.mpr ⟨active, beq_iff_eq.mpr last⟩
    refine ⟨fun more => ?_, fun done => ?_⟩
    · rw [exec_loopIterationEnd ended inner, if_pos more]
      rfl
    · rw [exec_loopIterationEnd ended inner, if_neg (Nat.not_lt.mpr done)]
      rfl

end Sys2Proof.Machine
end

section
/-! PROOFS. Vector loads and stores (O46: R212-R223, R232, R233). -/

namespace Sys2Proof.Machine

/-! ### Causes that stop (R42, R214) -/

theorem Causes.or_when_data (k : Causes) (b : Bool) :
    k.or (Causes.when b causeData) = if b then k.or causeData else k := by
  cases b
  · simp [Causes.when, Causes.or, Causes.none]
  · rfl

theorem Causes.stops_or_data (k : Causes) : (k.or causeData).stops = true := by
  simp [Causes.stops, Causes.or, causeData]

/-! ### What a load makes of what it has read (R215, R221) -/

/-- What a position of a load becomes, by what is found there: nothing where it is not governed, zero where it is
suppressed, and DATA (`some none`) where the line found does not describe its type. -/
def foundValue (value : Nat → List Byte × Word × Nat → Option Coded) (k : Nat) : Option Found → Option (Option Coded)
  | none => none
  | some none => some (some ⟨0, 0⟩)
  | some (some x) => some (value k x)

def Reads.valued (a : Reads) (value : Nat → List Byte × Word × Nat → Option Coded) : List (Option (Option Coded)) :=
  a.found.reverse.zipIdx.map fun p => foundValue value p.2 p.1

section
variable (a : Reads) (value : Nat → List Byte × Word × Nat → Option Coded)

@[simp] theorem Reads.valued_length : (a.valued value).length = a.found.length := by simp [Reads.valued]

/-- Every line found describes its type. -/
def Reads.Described : Prop :=
  ∀ (k : Nat) (x : List Byte × Word × Nat), a.found.reverse[k]? = some (some (some x)) → value k x ≠ none

theorem Reads.valued_getElem? (k : Nat) :
    (a.valued value)[k]? = a.found.reverse[k]?.map (foundValue value k) := by
  simp [Reads.valued, List.getElem?_zipIdx, Function.comp_def]

theorem foundValue_eq_data {value : Nat → List Byte × Word × Nat → Option Coded} {k : Nat} {q : Option Found} :
    foundValue value k q = some none ↔ ∃ x, q = some (some x) ∧ value k x = none := by
  match q with
  | none | some none | some (some x) => simp [foundValue]

/-- A position becomes DATA exactly where a line found does not describe its type. -/
theorem Reads.valued_any_data :
    ((a.valued value).any fun g => g == some none) = true ↔ ¬ a.Described value := by
  have data : ((a.valued value).any fun g => g == some none) = true ↔ some none ∈ a.valued value := by
    simp [List.any_eq_true]
  rw [data, List.mem_iff_getElem?, Reads.Described]
  simp only [a.valued_getElem? value, Option.map_eq_some_iff, foundValue_eq_data]
  push Not
  constructor
  · rintro ⟨k, q, at_, x, rfl, no⟩
    exact ⟨k, x, at_, no⟩
  · rintro ⟨k, x, at_, no⟩
    exact ⟨k, _, at_, x, rfl, no⟩

end

/-! ### Loads (R214-R219) -/

section
variable {s t : State} {f : VWord} {places : List (Option Reach)}
  {value : Nat → List Byte × Word × Nat → Option Coded} {put : VectorUnit → List (Option Nat) → VectorUnit}

/-- The reads of a load of the vector engine. -/
def State.vectorReads (s : State) (places : List (Option Reach)) : State × Option Reads :=
  s.readAll (s.taskAgent s.focus (.vector s.focus)) places ⟨none, Causes.none, []⟩

theorem State.vectorLoad_waits (h : s.vectorReads places = (t, none)) :
    s.vectorLoad f places value put = .next t.vectorWait := by
  unfold State.vectorLoad
  rw [State.vectorReads] at h
  dsimp only
  rw [h]

theorem State.vectorLoad_read {a : Reads} (h : s.vectorReads places = (t, some a)) :
    let causes := if (a.valued value).any (fun g => g == some none) then a.causes.or causeData else a.causes
    let codes := (a.valued value).map fun g => g.bind id
    let q := t.cause s.focus (t.vec.task.getD 0) causes
    s.vectorLoad f places value put = if causes.stops then .next (t.vectorFail s.focus causes)
      else .next (q.vectorDone (put q.vec (codes.map fun g => g.map Coded.code)) (flagsOf (codes.filterMap id))
        (f.mode == .rsr)) := by
  rw [State.vectorReads] at h
  dsimp only
  rw [← Causes.or_when_data]
  unfold State.vectorLoad
  dsimp only
  rw [h]
  rfl

/-- A word that checks, then loads. -/
theorem State.loadsTile {i : Instr} {issue : Causes}
    (hi : exec i s = if issue.stops then .next (s.vectorFail s.focus issue) else s.vectorLoad f places value put) :
    s.LoadsTile i f issue places value put := by
  refine ⟨fun h => hi.trans (if_pos h), fun h t => ?_⟩
  rw [if_neg (by simp [h])] at hi
  refine ⟨fun read => hi.trans (State.vectorLoad_waits read), fun a read => ?_⟩
  have run := hi.trans (State.vectorLoad_read read)
  dsimp only at run ⊢
  refine ⟨fun no => ?_, fun yes stops => ?_, fun yes goes => ?_⟩
  · rwa [if_pos ((a.valued_any_data value).mpr no), if_pos a.causes.stops_or_data] at run
  · rwa [if_neg fun data => (a.valued_any_data value).mp data yes, if_pos stops] at run
  · rw [if_neg fun data => (a.valued_any_data value).mp data yes, if_neg (by simp [goes])] at run
    refine ⟨_, run, by simp, fun k hk => ?_⟩
    have inside : k < a.found.reverse.length := by simpa using hk
    rw [List.getElem?_map, a.valued_getElem? value k, List.getElem?_eq_getElem inside]
    generalize a.found.reverse[k] = q
    match q with
    | none | some none | some (some x) => rfl

end

/-! ### Stores (R216-R219) -/

section
variable {s : State} {f : VWord} {writes : List (Reach × List Byte)} {flags : Sticky}
  {put : State → Agent → Waiter → List (Aim × List Byte) → State}

/-- A word that checks, then stores. -/
theorem State.storesTile {i : Instr} {issue : Causes}
    (hi : exec i s = if issue.stops then .next (s.vectorFail s.focus issue) else s.vectorStore f writes flags put) :
    s.StoresTile i f issue writes flags put := by
  refine ⟨fun h => hi.trans (if_pos h), fun h first t => ?_⟩
  rw [if_neg (by simp [h]), State.vectorStore] at hi
  dsimp only at hi ⊢
  rw [first] at hi
  refine ⟨fun aimed => ?_, fun k l aimed => ?_⟩
  · rwa [aimed] at hi
  · rw [aimed] at hi
    refine ⟨fun stops => hi.trans (if_pos stops), fun goes => ?_⟩
    have run := hi.trans (if_neg (by simp [goes]))
    refine ⟨fun met => run.trans (if_pos met), fun clear free => ?_, fun clear held => ?_⟩
    · exact run.trans ((if_neg (by simp [clear])).trans (if_neg (by simpa using free)))
    · exact run.trans ((if_neg (by simp [clear])).trans (if_pos (by simpa using held)))

end

/-- Settles O46: each load and each store is its checks, then its reads or its writes. -/
theorem vectorStorage : Obligations.VectorStorage := by
  unfold Obligations.VectorStorage
  intro s f
  refine ⟨State.loadsTile rfl, State.loadsTile rfl, State.loadsTile rfl, fun i hi => ?_, State.storesTile rfl, ?_⟩
  · simp only [List.mem_cons, List.not_mem_nil, or_false] at hi
    rcases hi with rfl | rfl | rfl
    · exact State.storesTile rfl
    · exact State.storesTile rfl
    · exact State.storesTile rfl
  · have width : f.aux.toNat / 512 % 4 = bits f.aux.toNat 9 2 := (bits_eq _ 9 2).symm
    dsimp only
    rw [width]
    exact State.loadsTile rfl

end Sys2Proof.Machine
end

section
/-! PROOFS. A lookup of the heap leaves the device's number and the clusters of its partitions as they are, and so the agent
that a unit's task acts as (R10, R169, R394). -/

namespace Sys2Proof.Machine

/-- The device's number and the clusters of each partition are as before. -/
def State.SameMap (s t : State) : Prop := t.devId = s.devId ∧ ∀ p, (t.part p).clmask = (s.part p).clmask

namespace State.SameMap
variable {s t q : State}

theorem same (hd : t.devId = s.devId) (hp : t.parts = s.parts) : s.SameMap t :=
  ⟨hd, fun p => by rw [State.part, hp]; rfl⟩

theorem refl (s : State) : s.SameMap s := ⟨rfl, fun _ => rfl⟩

theorem trans (h : s.SameMap t) (k : t.SameMap q) : s.SameMap q := ⟨k.1.trans h.1, fun p => (k.2 p).trans (h.2 p)⟩

theorem also (h : s.SameMap t) (hd : q.devId = t.devId) (hp : q.parts = t.parts) : s.SameMap q := h.trans (.same hd hp)

theorem setPart {p : PartNum} {x : Partition} (h : x.clmask = (s.part p).clmask) : s.SameMap (s.setPart p x) := by
  refine ⟨rfl, fun q => ?_⟩
  by_cases e : q = p
  · rw [e, State.part_setPart_same, h]
  · rw [State.part_setPart_other _ _ _ _ (Ne.symm e)]

theorem ite {α : Type} {t q : State × α} {p : Prop} [Decidable p] (h : s.SameMap t.1) (k : s.SameMap q.1) :
    s.SameMap (if p then t else q).1 := by
  split
  · exact h
  · exact k

theorem partOf (h : s.SameMap t) (c : CoreId) : t.partOf c = s.partOf c := by
  simp only [State.partOf, h.2]

/-- A task of a unit acts as the same agent. -/
theorem taskAgent (h : s.SameMap t) (c : CoreId) (u : UnitId) : t.taskAgent c u = s.taskAgent c u := by
  simp only [State.taskAgent, State.logical, h.partOf, h.2, h.1]

end State.SameMap

section
variable (s : State)

theorem State.setEngine_map (c : CoreId) (kind : Kind) (x : Engine) : s.SameMap (s.setEngine c kind x) := .same rfl rfl

/-! ### Lines and translation (R37, R373-R380, R414) -/

theorem State.raiseSource_map (p : PartNum) (n : Nat) : s.SameMap (s.raiseSource p n) := by
  have raised (x : BitVec 8) : s.SameMap (s.setPart p { s.part p with istat := x }) := .setPart rfl
  unfold State.raiseSource
  dsimp only
  split
  · exact .refl s
  · exact (raised _).also rfl rfl

theorem State.countCheck_map (d : DieNum) (p : PartNum) : s.SameMap (s.countCheck d p) := by
  have counted (n : Vector Nat 4) : s.SameMap (s.setPart p { s.part p with checkFails := n }) := .setPart rfl
  unfold State.countCheck
  dsimp only
  split
  · exact (counted _).trans (State.raiseSource_map _ _ _)
  · exact counted _

theorem State.countFailure_map (line : Nat) : s.SameMap (s.countFailure line) := by
  unfold State.countFailure
  split
  · exact .refl s
  · exact s.countCheck_map _ _

theorem State.verify_map (line : Nat) : s.SameMap (s.verify line).1 := by
  unfold State.verify
  dsimp only
  split
  · exact .refl s
  · split
    · exact .same rfl rfl
    · exact (s.countFailure_map line).also rfl rfl

theorem State.readKey_map (k n : Nat) : s.SameMap (s.readKey k n).1 := by
  unfold State.readKey
  dsimp only
  split
  · exact .refl s
  · split <;> exact s.verify_map _

theorem State.readLineKey_map (k : Nat) : s.SameMap (s.readLineKey k).1 := by
  unfold State.readLineKey
  dsimp only
  split
  · exact .refl s
  · split <;> exact s.verify_map _

theorem State.readsFrom_map (d : DieNum) (lo n : Nat) : s.SameMap (s.readsFrom d lo n) := by
  unfold State.readsFrom
  refine foldl_keeps s.SameMap _ (fun t i h => h.trans ?_) _ s (.refl s)
  unfold State.readsByte
  split
  · split
    · exact .refl t
    · exact .same rfl rfl
  · exact .refl t

theorem State.copied_map (p : PartNum) (key : Nat) (v : Word) : s.SameMap (s.copied p key v).1 := by
  unfold State.copied
  split
  · exact .refl s
  · exact .same rfl rfl

theorem State.remember_map (p : PartNum) (key : Nat) (v : Word) : s.SameMap (s.remember p key v) := by
  unfold State.remember
  split
  · exact .refl s
  · exact .same rfl rfl

theorem State.walkFrom_map (ag : Agent) (write : Bool) (die : DieNum) (off : Nat) (l : List (Nat × Nat × Nat × Nat))
    (table : Nat) : s.SameMap (s.walkFrom ag write die off l table).1 := by
  induction l generalizing s table with
  | nil => exact .refl s
  | cons a rest ih =>
    obtain ⟨lvl, shift, width, align⟩ := a
    have read := s.verify_map (devKey die (table + 8 * bits off shift width) / 64)
    have entry (k : Nat) (w : Word) := read.trans (State.copied_map _ ag.part k w)
    have leaf (k : Nat) (w x : Word) := (entry k w).trans (State.remember_map _ ag.part k x)
    have below (k : Nat) (w : Word) (a : Nat) := (entry k w).trans (ih _ a)
    unfold State.walkFrom
    dsimp only
    refine .ite read (.ite (entry _ _) (.ite (entry _ _) (.ite (.ite (entry _ _) (.ite (leaf _ _ _) (leaf _ _ _)))
      (.ite (entry _ _) ?_))))
    split
    · exact below _ _ _
    · exact (below _ _ _).trans (State.remember_map _ _ _ _)

theorem State.walk_map (ag : Agent) (write : Bool) (die : DieNum) (off : Nat) : s.SameMap (s.walk ag write die off).1 := by
  unfold State.walk
  exact .ite (.refl s) (.ite (.refl s) (s.walkFrom_map _ _ _ _ _ _))

theorem State.record_map (ag : Agent) (kind : Nat) (write : Bool) (lvl : Nat) (va : Word) (die : DieNum) (slice : Nat) :
    s.SameMap (s.record ag kind write lvl va die slice) := by
  unfold State.record
  refine State.SameMap.also (t := State.setPart { s with records := _ } ag.part _) ?_ rfl rfl
  exact (State.SameMap.same rfl rfl : s.SameMap { s with records := _ }).trans (.setPart rfl)

theorem State.parkMiss_map (ag : Agent) (write : Bool) (lvl : Nat) (va : Word) (die : DieNum) (off : Nat) :
    s.SameMap (s.parkMiss ag write lvl va die off) := by
  unfold State.parkMiss
  dsimp only
  split
  · exact .same rfl rfl
  · exact (s.record_map ..).also rfl rfl

theorem State.locateOn_map (ag : Agent) (write : Bool) (va : Word) (die : DieNum) (off : Nat) (r : Bool) :
    s.SameMap (s.locateOn ag write va die off r).1 := by
  have walked := s.walk_map ag (write && !ag.who.ofHost) die off
  unfold State.locateOn
  dsimp only
  refine .ite (.same rfl rfl) ?_
  split
  · exact .ite (walked.trans (State.record_map ..)) (.ite (walked.also rfl rfl) walked)
  · exact walked.trans (State.parkMiss_map ..)
  · exact walked.trans (State.record_map ..)
  · exact walked.trans (State.record_map ..)
  · exact walked.trans (State.record_map ..)

theorem State.readCopy_map (ag : Agent) (die : DieNum) (off k : Nat) (r : Bool) :
    s.SameMap (s.readCopy ag die off k r).1 := by
  unfold State.readCopy
  exact .ite (.same rfl rfl) (.refl s)

theorem State.locateRead_map (ag : Agent) (va : Word) : s.SameMap (s.locateRead ag va).1 := by
  unfold State.locateRead
  split
  · exact .refl s
  · exact .refl s
  · exact .refl s
  · exact .same rfl rfl
  · exact .ite (.refl s) (.refl s)
  · next die off _ =>
    have walked := s.locateOn_map ag false va die off false
    dsimp only
    split
    · refine .ite ?_ (walked.trans (State.readCopy_map _ ..))
      have own := walked.trans (State.locateOn_map _ ag false va ag.die off true)
      split
      · exact own.trans (State.readCopy_map _ ..)
      · exact own
      · exact own
      · exact own
    · exact walked
    · exact walked
    · exact walked

/-! ### Reads (R309, R348) -/

theorem State.drawBytes_map (n : Nat) : s.SameMap (s.drawBytes n).1 := by
  induction n with
  | zero => exact .refl s
  | succ n ih => exact ih.also rfl rfl

/-- The answer of another device to a read: free bytes (log 10). -/
theorem State.answered_map (n : Nat) : s.SameMap (s.answerThere.1.drawBytes n).1 :=
  (State.SameMap.same rfl rfl : s.SameMap s.answerThere.1).trans (State.drawBytes_map _ n)

theorem State.readVa_map (ag : Agent) (va : Word) (n : Nat) : s.SameMap (s.readVa ag va n).1 := by
  unfold State.readVa
  split
  · split
    · exact .refl s
    · exact (s.answered_map n).also rfl rfl
  · have located := s.locateRead_map ag va
    dsimp only
    split
    · exact (located.trans (State.readKey_map _ _ _)).trans (State.readsFrom_map _ _ _ _)
    · exact located
    · exact located
    · exact located

theorem State.lineArrives_map (ag : Agent) (d : List Byte) (t : Word) : s.SameMap (s.lineArrives ag d t).1 :=
  .ite (.refl s) (by
    dsimp only
    split
    · exact .refl s
    · exact s.countCheck_map _ _)

theorem State.readLineVa_map (ag : Agent) (va : Word) : s.SameMap (s.readLineVa ag va).1 := by
  unfold State.readLineVa
  split
  · split
    · exact .refl s
    · have asked := s.answered_map 64
      dsimp only
      split
      · exact asked.also rfl rfl
      · exact asked.also rfl rfl
      · exact asked.also rfl rfl
      · refine State.SameMap.trans ?_ (State.lineArrives_map _ _ _ _)
        exact asked.also rfl rfl
  · have located := s.locateRead_map ag va
    dsimp only
    split
    · dsimp only
      exact (located.trans (State.readLineKey_map _ _)).trans (State.readsFrom_map _ _ _ _)
    · exact located
    · exact located
    · exact located

/-! ### Lookups (R169, R333-R337) -/

theorem State.readStructure_map (ag : Agent) (va : Word) (n : Nat) : s.SameMap (s.readStructure ag va n).1 := by
  unfold State.readStructure
  dsimp only
  split
  · exact s.readVa_map _ va n
  · have located := s.locateRead_map { ag with source := 3 } va
    have read (k : Nat) := located.trans (State.readKey_map _ k n)
    split
    · split
      · exact ((read _).trans (State.copied_map _ _ _ _)).trans (State.remember_map _ _ _ _)
      · exact read _
      · exact read _
      · exact read _
    · exact located
    · exact located
    · exact located

theorem State.readWords_map (ag : Agent) (va : Word) (n : Nat) : s.SameMap (s.readWords ag va n).1 := by
  induction n generalizing s va with
  | zero => exact .refl s
  | succ n ih =>
    have first := s.readStructure_map ag va 8
    have rest := first.trans (ih (s.readStructure ag va 8).1 (va + 8))
    unfold State.readWords
    dsimp only
    split
    · split <;> exact rest
    · exact first
    · exact first
    · exact first

theorem State.gallery_map (ag : Agent) (g : Nat) : s.SameMap (s.gallery ag g).1 := by
  unfold State.gallery
  refine .ite (.refl s) ?_
  dsimp only
  split <;> exact s.readWords_map ag _ 4

theorem State.checkRef_map (ag : Agent) (w : Nat) : s.SameMap (s.checkRef ag w).1 := by
  have named := s.gallery_map ag (refGallery w)
  unfold State.checkRef
  refine .ite (.refl s) (.ite (.refl s) ?_)
  dsimp only
  split
  · exact .ite named named
  · exact named
  · exact named
  · exact named
  · exact named

end

/-! ### Objects followed (R337) -/

/-- An access whose answer leaves the map as it is. A definition of its own, so that two answers are compared as they stand and
neither is computed: the bucket of a granule is a hash, too deep for the kernel to unfold. -/
def State.LooksUp {α : Type} (s : State) (r : State × α) : Prop := s.SameMap r.1

namespace State.LooksUp
variable {α : Type} {s : State}

theorem mk {t : State} {o : α} (h : s.SameMap t) : s.LooksUp (t, o) := h

theorem ite {t q : State × α} {p : Prop} [Decidable p] (h : s.LooksUp t) (k : s.LooksUp q) :
    s.LooksUp (if p then t else q) := State.SameMap.ite h k

end State.LooksUp

/-- Cases on a number, for a value that depends on it. -/
theorem match_nat {β : Nat → Type} {γ : Type} {P : γ → Prop} {n : Nat} {x : β n} {a : β 0 → γ}
    {b : (k : Nat) → β (k + 1) → γ} (zero : ∀ y, P (a y)) (succ : ∀ k (e : n = k + 1), P (b k (e ▸ x))) :
    P ((match (motive := (n : Nat) → β n → γ) n with
      | 0 => a
      | k + 1 => b k) x) := by
  cases n with
  | zero => exact zero x
  | succ k => exact succ k rfl

/-- Cases on what a lookup of the provenance table answers. -/
theorem match_found {γ : Type} {P : γ → Prop} {o : Got (Option Nat)} {a : Nat → γ} {b c d e : γ}
    (some : ∀ n, P (a n)) (none : P b) (wait : P c) (access : P d) (data : P e) :
    P (match o with
      | .ok (.some n) => a n
      | .ok .none => b
      | .wait => c
      | .access => d
      | .data => e) := by
  rcases o with (_ | n) | _ | _ | _
  · exact none
  · exact some n
  · exact wait
  · exact access
  · exact data

theorem State.lookup_map (s : State) (ag : Agent) (g : Gallery) (w : Nat) : s.LooksUp (s.lookup ag g w) := by
  unfold State.lookup
  exact .mk (s.readLineVa_map _ _)

/-- What follows a reference from the lookups that remain. -/
abbrev LookupsLeft (n : Nat) : Type :=
  Nat.below (motive := fun _ => State → Nat → Gallery → State × Got (Resolved × Option Gallery)) n

/-- One step of `follow`, whatever is done in the lookups that remain. Each access is named before the answer is split, so that
the kernel meets a variable there. -/
theorem State.follow_step_map (s : State) (ag : Agent) (fuel w : Nat) (g : Gallery) (rest : LookupsLeft fuel)
    (below : ∀ k (e : fuel = k + 1) (s : State) (w : Nat) (g : Gallery), s.LooksUp ((e ▸ rest : LookupsLeft (k + 1)).1 s w g)) :
    s.LooksUp (follow._f ag fuel rest s w g) := by
  delta follow._f
  dsimp -zeta only
  obtain ⟨x, hx⟩ : ∃ x, x = s.spanState ag g (refOffset w) := ⟨_, rfl⟩
  have span : s.SameMap x.1 := hx ▸ s.readStructure_map _ _ _
  rw [← hx]
  extract_lets -underBinder sp
  split
  · refine .ite (.mk span) (match_nat (fun _ => .mk span) fun k e => ?_)
    obtain ⟨y, hy⟩ : ∃ y, y = sp.1.lookup ag g w := ⟨_, rfl⟩
    have looked : s.SameMap y.1 := hy ▸ span.trans (sp.1.lookup_map ag g w)
    rw [← hy]
    extract_lets -underBinder l
    refine match_found (fun new => ?_) (.ite (.mk looked) (.mk looked)) (.mk looked) (.mk looked) (.mk looked)
    obtain ⟨z, hz⟩ : ∃ z, z = l.1.checkRef ag (new * 2 ^ 22) := ⟨_, rfl⟩
    have named : s.SameMap z.1 := hz ▸ looked.trans (l.1.checkRef_map ag _)
    rw [← hz]
    extract_lets -underBinder w' c
    split
    · exact named.trans (below _ _ _ _ _)
    · exact .mk named
    · exact .mk named
    · exact .mk named
    · exact .mk named
    · exact .mk named
  · exact .mk span
  · exact .mk span
  · exact .mk span

theorem State.follow_eq_brecOn (s : State) (ag : Agent) (fuel w : Nat) (g : Gallery) :
    s.follow ag fuel w g = Nat.brecOn fuel (follow._f ag) s w g := by
  delta State.follow
  rfl

theorem State.follow_eq_step (s : State) (ag : Agent) (fuel w : Nat) (g : Gallery) :
    s.follow ag fuel w g = follow._f ag fuel (Nat.brecOn.go fuel (follow._f ag)).2 s w g :=
  (s.follow_eq_brecOn ag fuel w g).trans (congrFun (congrFun (congrFun (Nat.brecOn.eq fuel (follow._f ag)) s) w) g)

theorem State.follow_map (s : State) (ag : Agent) (fuel w : Nat) (g : Gallery) : s.LooksUp (s.follow ag fuel w g) := by
  induction fuel generalizing s w g with
  | zero =>
    rw [State.follow_eq_step]
    exact s.follow_step_map ag 0 w g _ fun k e => absurd e (by omega)
  | succ n ih =>
    rw [State.follow_eq_step]
    refine s.follow_step_map ag (n + 1) w g _ fun k e s w g => ?_
    cases e
    have done := ih s w g
    rwa [State.follow_eq_brecOn] at done

section
variable (s : State)

theorem State.present_map (ag : Agent) (w : Nat) : s.SameMap (s.present ag w).1 := by
  have named := s.checkRef_map ag w
  unfold State.present
  dsimp only
  split
  · exact named.trans (State.follow_map _ _ _ _ _)
  · exact named
  · exact named
  · exact named
  · exact named

/-- The lookup of a RELOC's object (R269, R342). -/
theorem State.declared_map (ag : Agent) (e : Entry) (w : Nat) : s.SameMap (s.declared ag e w).1 := by
  have looked := s.present_map { ag with source := 3 } w
  unfold State.declared
  refine .ite (.refl s) ?_
  dsimp only
  split
  · exact looked
  · exact looked
  · exact looked

end

end Sys2Proof.Machine
end

section
/-! PROOFS. Gangs, rings and relocations (O49: R253, R262, R269, R338). -/

namespace Sys2Proof.Machine

/-! ### Causes (R42) -/

theorem Causes.or_when (k x : Causes) (b : Bool) : k.or (Causes.when b x) = if b then k.or x else k := by
  cases b
  · simp [Causes.when, Causes.or, Causes.none]
  · rfl

theorem Causes.or_format (k : Causes) : (k.or causeFormat).format = true := by
  simp [Causes.or, causeFormat]

theorem Causes.stops_of_format {k : Causes} (h : k.format = true) : k.stops = true := by
  simp [Causes.stops, h]

/-! ### The group form of MMA and DMMA (R253) -/

section
variable {s : State} {r : Rec} {h : Handle}

/-- A record of the group form waits, and starts its gang when it is the last to be released. -/
theorem State.multiply_waits {l : List CoreId} (double : Bool) (hh : (s.engine s.focus .matrix).handle = some h)
    (group : r.specBits 28 1 = 1) (hl : s.gangCores s.focus (r.tailBits 0 8) 4 = some l) :
    let q := s.setEngine s.focus .matrix { s.engine s.focus .matrix with waiting := true }
    s.multiply r double = .next (if (q.gang s.focus r).isSome then q.once (.event (.gangStart s.focus) .none) else q) := by
  unfold State.multiply
  simp [hh, group, hl]

end

/-- What R90 and R253 find in the records of a gang. -/
def State.gangBad (s : State) (l : List (CoreId × Handle × Rec × Bool)) : Causes :=
  ((l.map s.gangCauses).foldl (fun a k => a.or k.1) Causes.none).or (Causes.when (!s.gangAgrees l) causeFormat)

/-- What the release checks of a gang's records find (R243). -/
def State.gangHull (s : State) (l : List (CoreId × Handle × Rec × Bool)) : Causes :=
  (l.map s.gangCauses).foldl (fun a k => a.or k.2) Causes.none

theorem State.gangBad_format {s : State} {l : List (CoreId × Handle × Rec × Bool)} (h : s.gangAgrees l = false) :
    (s.gangBad l).format = true := by
  rw [State.gangBad, h]
  exact Causes.or_format _

theorem all_started_iff {s : State} {l : List (CoreId × Handle × Rec × Bool)} :
    (!l.all fun x => (s.engine x.1 .matrix).started) = true ↔ ∃ x ∈ l, (s.engine x.1 .matrix).started = false := by
  simp

section
variable {s : State} {c : CoreId} {h : Handle} {i : Instr} {r : Rec} {d : Bool} {l : List (CoreId × Handle × Rec × Bool)}
  (taken : s.taken .matrix c = some (h, i)) (form : gangOf i = some (r, d)) (gang : s.gang c r = some l)
include taken form gang

/-- A gang all of whose records have been released: its checks, unless it has started, then its units. -/
theorem exec_gangStart : exec (.gangStart c) s
    = if (!l.all fun x => (s.engine x.1 .matrix).started) && (s.gangBad l).stops then .next (s.endGang l (s.gangBad l))
      else if (!l.all fun x => (s.engine x.1 .matrix).started) && (s.gangHull l).status != 0 then
        .next (s.endGang l ((s.gangBad l).or (s.gangHull l)))
      else .next (gangRun l (((s.entry c h).mma r d).units - (s.engine c .matrix).progress) (s.engine c .matrix).progress
        (l.foldl (fun s x => (s.cause x.1 x.2.1 (s.gangCauses x).1).setEngine x.1 .matrix
          { s.engine x.1 .matrix with started := true, waiting := false }) s)) := by
  change execGangStart c s = _
  unfold execGangStart
  rw [taken]
  dsimp only
  rw [form]
  dsimp only
  rw [gang]
  rfl

theorem exec_gangStart_stops (fresh : ∃ x ∈ l, (s.engine x.1 .matrix).started = false) (stops : (s.gangBad l).stops = true) :
    exec (.gangStart c) s = .next (s.endGang l (s.gangBad l)) := by
  rw [exec_gangStart taken form gang, all_started_iff.2 fresh, stops]
  rfl

theorem exec_gangStart_refused (fresh : ∃ x ∈ l, (s.engine x.1 .matrix).started = false)
    (passes : (s.gangBad l).stops = false) (refused : (s.gangHull l).status ≠ 0) :
    exec (.gangStart c) s = .next (s.endGang l ((s.gangBad l).or (s.gangHull l))) := by
  rw [exec_gangStart taken form gang, all_started_iff.2 fresh, passes, bne_iff_ne.2 refused]
  rfl

theorem exec_gangStart_runs (ready : ¬ (∃ x ∈ l, (s.engine x.1 .matrix).started = false) ∨
      (s.gangBad l).stops = false ∧ (s.gangHull l).status = 0) :
    exec (.gangStart c) s
      = .next (gangRun l (((s.entry c h).mma r d).units - (s.engine c .matrix).progress) (s.engine c .matrix).progress
          (l.foldl (fun s x => (s.cause x.1 x.2.1 (s.gangCauses x).1).setEngine x.1 .matrix
            { s.engine x.1 .matrix with started := true, waiting := false }) s)) := by
  rw [exec_gangStart taken form gang]
  rcases ready with started | ⟨passes, accepted⟩
  · rw [Bool.eq_false_iff.2 fun fresh => started (all_started_iff.1 fresh)]
    rfl
  · rw [passes, accepted, Bool.and_false, bne_self_eq_false, Bool.and_false]
    rfl

end

/-! ### Rings (R262) -/

theorem exec_ring {s : State} {r : Rec} {h : Handle} {e : Entry} {l : List CoreId} (copying : s.copying = some (h, e))
    (hl : s.gangCores s.focus (r.tailBits 9 8) 160 = some l) :
    let q := s.setEngine s.focus .copy { s.engine s.focus .copy with waiting := true }
    exec (.ring r) s = .next (if (q.ringOf s.focus r).isSome then q.once (.event (.ringStart s.focus) .none) else q) := by
  change execRing r s = _
  unfold execRing
  simp [copying, hl]

/-- What the members of a ring must agree in (R262): SHIFT and the trip counts. -/
def State.ringView (s : State) (x : CoreId × Handle × Rec) : Nat × Nat × Nat × Nat × Nat :=
  let t := (s.entry x.1 x.2.1).trips x.2.2
  (x.2.2.specBits 0 8, t.t0, t.t1, t.t2, t.t3)

/-- The release checks of a ring's records, and each record with what R90 finds in it. -/
def State.ringChecked (s : State) (l : List (CoreId × Handle × Rec)) : List (Causes × Causes) :=
  l.map fun x => s.ringChecks x.1 (s.entry x.1 x.2.1) x.2.2

def State.ringCaused (s : State) (l : List (CoreId × Handle × Rec)) : State :=
  l.foldl (fun s x => s.cause x.1 x.2.1 (s.ringChecks x.1 (s.entry x.1 x.2.1) x.2.2).1) s

/-- What stops a ring (R90, R262), and what else its checks find (R243). -/
def State.ringBad (s : State) (l : List (CoreId × Handle × Rec)) : Causes :=
  (s.ringChecked l).foldl (fun a k => a.or k.1) Causes.none

def State.ringHull (s : State) (l : List (CoreId × Handle × Rec)) : Causes :=
  (s.ringChecked l).foldl (fun a k => a.or k.2) Causes.none

def State.endRing (s : State) (l : List (CoreId × Handle × Rec)) (k : Causes) : State :=
  l.foldl (fun s x => s.endRecord x.1 .copy k) (s.ringCaused l)

/-- A task that meets causes keeps every task's bound values, and so every record's trip counts. -/
theorem State.cause_bounds (s : State) (c c' : CoreId) (h h' : Handle) (k : Causes) :
    ((s.cause c h k).entry c' h').bounds = (s.entry c' h').bounds := by
  by_cases core : c = c'
  · subst core
    rw [State.cause, State.setEntry, State.entry, State.core_setCore_same, vget_vset]
    split
    · next task => subst task; rfl
    · rfl
  · rw [State.cause, State.setEntry, State.entry, State.core_setCore_other _ _ _ _ core, State.entry]

theorem Entry.trips_congr {e e' : Entry} (h : e'.bounds = e.bounds) (r : Rec) : e'.trips r = e.trips r := by
  have value (b : Nat) : e'.boundValue b = e.boundValue b := by rw [Entry.boundValue, h, Entry.boundValue]
  have count (n : Nat) : e'.count n = e.count n := by simp only [Entry.count, value]
  simp only [Entry.trips, count]

theorem State.ringCaused_trips (s : State) (l : List (CoreId × Handle × Rec)) (c : CoreId) (h : Handle) (r : Rec) :
    ((s.ringCaused l).entry c h).trips r = (s.entry c h).trips r := by
  refine Entry.trips_congr ?_ r
  exact foldl_keeps (fun t => (t.entry c h).bounds = (s.entry c h).bounds) _
    (fun t x same => (t.cause_bounds x.1 c x.2.1 h _).trans same) l s rfl

section
variable {s : State} {c : CoreId} {h : Handle} {r : Rec} {l : List (CoreId × Handle × Rec)}
  (taken : s.taken .copy c = some (h, .ring r)) (ring : s.ringOf c r = some l)
include taken ring

/-- A ring all of whose records have been released: its checks, then its lines. -/
theorem exec_ringStart :
    let differ := l.any fun x => s.ringView x != s.ringView (c, h, r)
    let bad := if differ then (s.ringBad l).or causeFormat else s.ringBad l
    exec (.ringStart c) s
      = if bad.stops then .next (s.endRing l bad)
        else if (s.ringHull l).status != 0 then .next (s.endRing l (bad.or (s.ringHull l)))
        else .next (ringRun l (r.specBits 0 8) ((s.entry c h).trips r).all 0 (s.ringCaused l)) := by
  dsimp only
  rw [← Causes.or_when, ← s.ringCaused_trips l]
  change execRingStart c s = _
  unfold execRingStart
  rw [taken]
  dsimp only
  rw [ring]
  rfl

theorem exec_ringStart_differs (differ : (l.any fun x => s.ringView x != s.ringView (c, h, r)) = true) :
    exec (.ringStart c) s = .next (s.endRing l ((s.ringBad l).or causeFormat)) := by
  rw [exec_ringStart taken ring, differ]
  exact if_pos (Causes.stops_of_format (Causes.or_format _))

variable (agree : (l.any fun x => s.ringView x != s.ringView (c, h, r)) = false)
include agree

theorem exec_ringStart_stops (stops : (s.ringBad l).stops = true) :
    exec (.ringStart c) s = .next (s.endRing l (s.ringBad l)) := by
  rw [exec_ringStart taken ring, agree]
  exact if_pos stops

variable (passes : (s.ringBad l).stops = false)
include passes

theorem exec_ringStart_refused (refused : (s.ringHull l).status ≠ 0) :
    exec (.ringStart c) s = .next (s.endRing l ((s.ringBad l).or (s.ringHull l))) := by
  rw [exec_ringStart taken ring, agree, if_neg Bool.false_ne_true, passes, bne_iff_ne.2 refused]
  rfl

theorem exec_ringStart_runs (accepted : (s.ringHull l).status = 0) :
    exec (.ringStart c) s
      = .next (ringRun l (r.specBits 0 8) ((s.entry c h).trips r).all 0 (s.ringCaused l)) := by
  rw [exec_ringStart taken ring, agree, if_neg Bool.false_ne_true, passes, accepted]
  rfl

end

theorem rings_agree_iff {s : State} {x : CoreId × Handle × Rec} {l : List (CoreId × Handle × Rec)} :
    let t (x : CoreId × Handle × Rec) := (s.entry x.1 x.2.1).trips x.2.2
    (l.any fun y => s.ringView y != s.ringView x) = false ↔
      ∀ y ∈ l, y.2.2.specBits 0 8 = x.2.2.specBits 0 8 ∧ (t y).t0 = (t x).t0 ∧ (t y).t1 = (t x).t1 ∧
        (t y).t2 = (t x).t2 ∧ (t y).t3 = (t x).t3 := by
  simp [State.ringView]

/-! ### A relocation before its move point (R269, R338) -/

/-- A RELOC's record is legal (R90, R269). -/
def State.relocOk (s : State) (e : Entry) (r : Rec) : Bool :=
  r.unusedOk {} && r.tailBits 10 6 == 0 && r.tailBits 23 25 == 0 && r.trips == 0x0001000100010001#64
    && r.a.ok [0] && r.b.ok [3] && r.b.unstrided && r.c.ok [0] && bits (e.region r.b.slot) 0 3 == 2 && s.slotOk e r.b

/-- Where a RELOC moves its object. -/
def State.relocDest (s : State) (e : Entry) (r : Rec) : Nat := (s.slotStart e r.b.slot).getD 0 + r.b.offset

/-- A RELOC's place, queues and regions (R243, R269). -/
def State.relocHull (s : State) (e : Entry) (r : Rec) (declared : Bool) : Causes :=
  ((Causes.when (decide (s.relocDest e r ≥ 2 ^ 58)) causeAccess).or (s.queueGate s.focus e)).or
    (Causes.when (!declared) causeUndeclared)

/-- What a RELOC does once its checks have answered: it ends, waits, or passes its move point and copies. -/
def State.relocGoes (s : State) (h : Handle) (e : Entry) (r : Rec) : State × Got Move → State
  | (t, .ok (.result n)) => t.relocResult s.focus h r n
  | (t, .ok (.go (.moved old new len lines entry ow nw))) =>
    let m := t.setMoving s.focus lines (lines.headD 0 + old % 64) true
    let m := { m with reserved := m.reserved ++ [entry] }
    relocRun s.focus h e old new len lines entry lines.length 0 (m.setEngine s.focus .copy
      { m.engine s.focus .copy with reloc := .moved old new len lines entry ow nw, progress := 0 })
  | (t, .ok (.go _)) => t
  | (t, .wait) => t
  | (t, .access) => t.endRecord s.focus .copy causeAccess
  | (t, .data) => t.endRecord s.focus .copy causeData

/-- What a RELOC does once its object's region has been looked up. -/
def State.relocStarts (s : State) (h : Handle) (e : Entry) (r : Rec) : State × Got Bool → State
  | (d, .ok b) =>
    if (s.relocHull e r b).status ≠ 0 then d.endRecord s.focus .copy (s.relocHull e r b)
    else s.relocGoes h e r ((d.setEngine s.focus .copy { d.engine s.focus .copy with started := true }).relocChecks
      (s.taskAgent s.focus (.copy s.focus)) r.object (s.relocDest e r))
  | (d, _) => d

theorem State.declared_mayMove {s : State} {ag : Agent} {e : Entry} {w : Nat} (h : e.mayMove w = true) :
    s.declared ag e w = (s, .ok true) := by
  rw [State.declared, h]
  rfl

section
variable {s : State} {r : Rec} {h : Handle} {e : Entry} (copying : s.copying = some (h, e))
  (fresh : (s.engine s.focus .copy).reloc = .none)
include copying fresh

/- The lets of `execReloc` stay folded (`-zeta`) until the access that each names is a variable: opened on its call, the kernel
would compute the lookup. -/

/-- A relocation that has not passed its move point: the checks of its record, of its place and regions, and of its object. -/
theorem exec_reloc_fresh : exec (.reloc r) s
    = .next (if s.relocOk e r then s.relocStarts h e r (s.declared (s.taskAgent s.focus (.copy s.focus)) e r.object)
        else s.endRecord s.focus .copy causeFormat) := by
  have map := s.declared_map (s.taskAgent s.focus (.copy s.focus)) e r.object
  change execReloc r s = _
  unfold execReloc
  rw [copying]
  dsimp -zeta only
  extract_lets +onlyGivenNames c x ok dest checks
  rw [show x.reloc = .none from fresh]
  cases legal : s.relocOk e r
  · exact if_pos (by rw [Bool.not_eq_true']; exact legal)
  refine (if_neg (by rw [Bool.not_eq_true']; exact (ne_of_eq_of_ne legal (by decide)))).trans ?_
  rw [if_pos rfl]
  extract_lets +onlyGivenNames looked
  have same : looked = s.declared (s.taskAgent s.focus (.copy s.focus)) e r.object := rfl
  rw [← same] at map ⊢
  clear_value looked
  obtain ⟨d, (b | _ | _ | _)⟩ := looked
  · replace map : s.SameMap (d.setEngine c .copy { d.engine c .copy with started := true }) := map.trans (State.setEngine_map ..)
    change _ = Host.Outcome.next (if (checks b).status ≠ 0 then d.endRecord c .copy (checks b)
      else s.relocGoes h e r ((d.setEngine c .copy { d.engine c .copy with started := true }).relocChecks
        (s.taskAgent c (.copy c)) r.object dest))
    dsimp -zeta only
    generalize State.setEngine d _ _ _ = t at map ⊢
    by_cases refused : (checks b).status = 0
    · rw [if_neg (not_not.2 refused)]
      refine (if_neg (by rw [bne_iff_ne]; exact not_not.2 refused)).trans ?_
      rw [← map.taskAgent c (.copy c)]
      extract_lets +onlyGivenNames q found
      have same : found = State.relocChecks _ _ r.object dest := rfl
      rw [← same]
      clear_value found
      obtain ⟨t, (((_ | _ | _) | n) | _ | _ | _)⟩ := found <;> rfl
    · rw [if_pos refused]
      exact if_pos (bne_iff_ne.2 refused)
  · rfl
  · rfl
  · rfl

theorem exec_reloc_illegal (illegal : s.relocOk e r = false) :
    exec (.reloc r) s = .next (s.endRecord s.focus .copy causeFormat) := by
  rw [exec_reloc_fresh copying fresh, illegal, if_neg Bool.false_ne_true]

variable (legal : s.relocOk e r = true) {d : State}
include legal

theorem exec_reloc_waits (declared : s.declared (s.taskAgent s.focus (.copy s.focus)) e r.object = (d, .wait)) :
    exec (.reloc r) s = .next d := by
  rw [exec_reloc_fresh copying fresh, legal, if_pos rfl, declared]
  rfl

variable {b : Bool} (declared : s.declared (s.taskAgent s.focus (.copy s.focus)) e r.object = (d, .ok b))
include declared

theorem exec_reloc_refused (refused : (s.relocHull e r b).status ≠ 0) :
    exec (.reloc r) s = .next (d.endRecord s.focus .copy (s.relocHull e r b)) := by
  rw [exec_reloc_fresh copying fresh, legal, if_pos rfl, declared]
  exact congrArg Host.Outcome.next (if_pos refused)

theorem exec_reloc_goes (passes : (s.relocHull e r b).status = 0) :
    exec (.reloc r) s = .next (s.relocGoes h e r
      ((d.setEngine s.focus .copy { d.engine s.focus .copy with started := true }).relocChecks
        (s.taskAgent s.focus (.copy s.focus)) r.object (s.relocDest e r))) := by
  rw [exec_reloc_fresh copying fresh, legal, if_pos rfl, declared]
  exact congrArg Host.Outcome.next (if_neg (not_not.2 passes))

end

/-! ### The move point (step 1 of R338) -/

section
variable {s s1 s2 s3 s4 : State} {ag : Agent} {w old len dest dn key : Nat} {g dg : Gallery} {ks : List Nat}
  {d x : List Byte} {tag : Word} {lines : List Nat}
  (located : s.locateWrite { ag with source := 3 } (BitVec.ofNat 64 (g.ptab + 64 * bucketOf g (refOffset w))) .never
    = (s1, .ok (key :: ks))) (bucket : s1.readLineKey key = (s2, .ok (d, tag)))
include located bucket

/- `movePoint` is unfolded as a function, before it is applied: applied, the kernel would compute the bucket it looks in. -/

/-- An object whose bucket holds an entry for it has been moved before. -/
theorem State.movePoint_moved (found : (matchEntry (bits w 22 42) (elements d 64)).isSome = true) :
    s.movePoint ag w old len dest g dn dg = (s2, .ok (.result 2)) := by
  obtain ⟨f, hf⟩ : ∃ f, f = @State.movePoint := ⟨_, rfl⟩
  rw [← hf]
  delta State.movePoint at hf
  rw [hf]
  beta_reduce
  extract_lets +onlyGivenNames there b
  rw [show b = (s1, .ok (key :: ks)) from located]
  dsimp -zeta only
  extract_lets +onlyGivenNames k l
  rw [show l = (s2, .ok (d, tag)) from bucket]
  exact if_pos found

variable (absent : matchEntry (bits w 22 42) (elements d 64) = none)
  (line : s2.lineKeys ag (old / 64 * 64) ((old % 64 + len + 63) / 64) = (s3, .ok lines))
  (header : s3.readKey (lines.headD 0 + old % 64) 16 = (s4, .ok x))
include absent line header

/-- What the move point does once it has read the header: pins refuse, and a full bucket. -/
theorem State.movePoint_header : s.movePoint ag w old len dest g dn dg
    = if bits (ofBytes x) 64 16 ≠ 0 then (s4, .ok (.result 1))
      else match s4.freeEntries key d with
        | [] => (s4, .access)
        | o :: _ =>
          (s4, .ok (.go (.moved old dest len lines (key + o)
            (BitVec.ofNat 64 (bits w 22 42 * 2 ^ 22 + 1))
            (BitVec.ofNat 64 (dn * 2 ^ 58 + (dest - dg.base) / 16 * 2 ^ 22))))) := by
  obtain ⟨f, hf⟩ : ∃ f, f = @State.movePoint := ⟨_, rfl⟩
  rw [← hf]
  delta State.movePoint at hf
  rw [hf]
  beta_reduce
  extract_lets +onlyGivenNames there b
  rw [show b = (s1, .ok (key :: ks)) from located]
  dsimp -zeta only
  extract_lets +onlyGivenNames k l
  rw [show l = (s2, .ok (d, tag)) from bucket]
  refine (if_neg (by rw [absent]; exact Bool.false_ne_true)).trans ?_
  extract_lets +onlyGivenNames ls
  rw [show ls = (s3, .ok lines) from line]
  dsimp -zeta only
  extract_lets +onlyGivenNames at_ hd
  rw [show hd = (s4, .ok x) from header]
  rfl

theorem State.movePoint_pinned (pins : bits (ofBytes x) 64 16 ≠ 0) :
    s.movePoint ag w old len dest g dn dg = (s4, .ok (.result 1)) :=
  (State.movePoint_header located bucket absent line header).trans (if_pos pins)

variable (unpinned : bits (ofBytes x) 64 16 = 0)
include unpinned

theorem State.movePoint_full (full : s4.freeEntries key d = []) : s.movePoint ag w old len dest g dn dg = (s4, .access) := by
  rw [State.movePoint_header located bucket absent line header, if_neg (not_not.2 unpinned), full]

theorem State.movePoint_go {o : Nat} {os : List Nat} (free : s4.freeEntries key d = o :: os) :
    s.movePoint ag w old len dest g dn dg
      = (s4, .ok (.go (.moved old dest len lines (key + o) (BitVec.ofNat 64 (bits w 22 42 * 2 ^ 22 + 1))
          (BitVec.ofNat 64 (dn * 2 ^ 58 + (dest - dg.base) / 16 * 2 ^ 22))))) := by
  rw [State.movePoint_header located bucket absent line header, if_neg (not_not.2 unpinned), free]

end

/-- The OLD word of an entry: IN_USE, and the object's own place (Table 11.4). -/
theorem oldWord_fields (w : Nat) :
    (BitVec.ofNat 64 (bits w 22 42 * 2 ^ 22 + 1)).getLsbD 0 = true ∧
      (BitVec.ofNat 64 (bits w 22 42 * 2 ^ 22 + 1)).toNat / 2 ^ 22 = bits w 22 42 := by
  have small := bits_lt w 22 42
  constructor
  · rw [BitVec.getLsbD_ofNat]
    simp [Nat.testBit_zero]
    omega
  · rw [BitVec.toNat_ofNat]
    omega

/-! ### A relocation past its move point -/

section
variable {s : State} {r : Rec} {h : Handle} {e : Entry} {old new len entry : Nat} {lines : List Nat} {ow nw : Word}

theorem exec_reloc_moved (copying : s.copying = some (h, e))
    (moved : (s.engine s.focus .copy).reloc = .moved old new len lines entry ow nw) :
    let done := (s.engine s.focus .copy).progress
    exec (.reloc r) s = if e.causes.data || e.causes.access then
        .next ((s.settle s.focus lines (lines.headD 0 + old % 64) entry).endRecord s.focus .copy Causes.none)
      else .next (relocRun s.focus h e old new len lines entry (lines.length - done) done s) := by
  change execReloc r s = _
  unfold execReloc
  rw [copying]
  dsimp -zeta only
  extract_lets +onlyGivenNames c x ok dest checks
  rw [show x.reloc = .moved old new len lines entry ow nw from moved]

end

section
variable {s : State} {c : CoreId} {r : Rec} {h : Handle} {old new len entry : Nat} {lines : List Nat} {ow nw : Word}
  (taken : s.taken .copy c = some (h, .reloc r))
  (moved : (s.engine c .copy).reloc = .moved old new len lines entry ow nw)
include taken moved

/-- A copy that has been performed, or waits to be, or has met an error. -/
theorem exec_relocSettle : exec (.relocSettle c) s
    = if s.waiting (.unit (.copy c)) then .next s
      else if s.unanswered (.copy c) c h then .next (s.once (.event (.relocSettle c) .none))
      else if (s.entry c h).causes.access || (s.entry c h).causes.data then .next (s.once (.unit (.copy c)))
      else
        let t := s.storeBy (s.taskAgent c (.copy c)).die entry (bytesOf 8 ow.toNat ++ bytesOf 8 nw.toNat) false
        .next ((t.settle c lines (lines.headD 0 + old % 64) entry).relocResult c h r 0) := by
  change execRelocSettle c s = _
  unfold execRelocSettle
  rw [taken, moved]

end

/-! ### The obligation -/

/-- Settles O49: each rule above, in the statement's order. -/
theorem jointRecords : Obligations.JointRecords := by
  unfold Obligations.JointRecords
  refine ⟨fun s r h l hh group hl i form => ?_, fun s c h i r d l taken form gang => ?_, fun s r h e l => exec_ring,
    fun s c h r l taken ring => ?_, fun s r h e copying fresh => ?_,
    fun s s1 s2 s3 s4 ag w old len dest dn key g dg ks d x tag lines located bucket => ?_,
    fun s r h e old new len entry lines ow nw copying moved => ?_,
    fun s c r h old new len entry lines ow nw taken moved => ?_⟩
  · rcases form with rfl | rfl
    · exact State.multiply_waits false hh group hl
    · exact State.multiply_waits true hh group hl
  · exact ⟨State.gangBad_format, exec_gangStart_stops taken form gang, exec_gangStart_refused taken form gang,
      exec_gangStart_runs taken form gang⟩
  · have agreed := rings_agree_iff (s := s) (x := (c, h, r)) (l := l)
    exact ⟨fun differ => exec_ringStart_differs taken ring (Bool.of_not_eq_false (mt agreed.1 differ)),
      fun agree => exec_ringStart_stops taken ring (agreed.2 agree),
      fun agree => exec_ringStart_refused taken ring (agreed.2 agree),
      fun agree => exec_ringStart_runs taken ring (agreed.2 agree)⟩
  · refine ⟨exec_reloc_illegal copying fresh, State.declared_mayMove, fun legal d => exec_reloc_waits copying fresh legal,
      fun legal d b => exec_reloc_refused copying fresh legal, fun legal d b declared passes t => ?_⟩
    have go := exec_reloc_goes copying fresh legal declared passes
    refine ⟨fun n found => ?_, fun found => ?_, fun found => ?_, fun found => ?_, fun old new len entry lines ow nw found => ?_⟩
    all_goals exact go.trans (congrArg (fun m => Host.Outcome.next (s.relocGoes h e r m)) found)
  · exact ⟨State.movePoint_moved located bucket, fun absent line header =>
      ⟨State.movePoint_pinned located bucket absent line header, State.movePoint_full located bucket absent line header,
        fun o os unpinned free => ⟨_, _, State.movePoint_go located bucket absent line header unpinned free,
          oldWord_fields w⟩⟩⟩
  · have go := exec_reloc_moved (r := r) copying moved
    refine ⟨fun data access => ?_, fun failed => ?_⟩
    · rw [go, data, access]
      rfl
    · rw [go, if_pos (by rwa [Bool.or_eq_true])]
  · have go := exec_relocSettle taken moved
    refine ⟨fun held => ?_, fun held asked => ?_, fun held answered access data => ?_⟩
    · rw [go, if_pos held]
    · rw [go, held, asked]
      rfl
    · rw [go, held, answered, access, data]
      rfl

end Sys2Proof.Machine
end

section
/-! PROOFS. Rows of the accumulator: what a write leaves, and what stands in a row after several (R248, R251, R255, R256). -/

namespace Sys2Proof.Machine

/-! ### Codes as bytes (R45) -/

theorem bytesOf_eq_map (n v : Nat) : bytesOf n v = (List.range n).map fun i => BitVec.ofNat 8 (v / 256 ^ i) := by
  refine List.ext_getElem (by simp) fun i hi _ => ?_
  have written := bytesOf_getD n v i (by simpa using hi)
  rw [List.getD_eq_getElem _ _ hi] at written
  simpa using written

theorem ofBytes_bytesOf (n v : Nat) : ofBytes (bytesOf n v) = v % 256 ^ n := by
  induction n generalizing v with
  | zero => simp [bytesOf, ofBytes, Nat.mod_one]
  | succ n ih => rw [bytesOf, ofBytes, ih, BitVec.toNat_ofNat, pow_succ' 256, Nat.mod_mul]

theorem ofBytes_lt (l : List Byte) : ofBytes l < 256 ^ l.length := by
  induction l with
  | nil => simp [ofBytes]
  | cons b l ih =>
    have low := b.isLt
    rw [ofBytes, List.length_cons, Nat.pow_succ]
    omega

@[simp] theorem bytesOfCodes_length (b : Nat) (l : List Nat) : (bytesOfCodes b l).length = b * l.length := by
  simp [bytesOfCodes, List.length_flatten, Function.comp_def, Nat.mul_comm]

/-- A byte of a code among codes laid end to end. -/
theorem bytesOfCodes_getD {b x y : Nat} {l : List Nat} (hx : x < l.length) (hy : y < b) :
    (bytesOfCodes b l).getD (b * x + y) 0 = BitVec.ofNat 8 (l.getD x 0 / 256 ^ y) := by
  induction l generalizing x with
  | nil => simp at hx
  | cons v l ih =>
    rw [show bytesOfCodes b (v :: l) = bytesOf b v ++ bytesOfCodes b l from rfl]
    cases x with
    | zero =>
      rw [Nat.mul_zero, Nat.zero_add, List.getD_append _ _ _ _ (by simpa using hy), bytesOf_getD _ _ _ hy]
      rfl
    | succ x =>
      rw [List.getD_append_right _ _ _ _ (by simp [Nat.mul_succ]; omega), bytesOf_length,
        show b * (x + 1) + y - b = b * x + y by rw [Nat.mul_succ]; omega, ih (by simpa using hx)]
      rfl

/-! ### One row written -/

theorem accRead_lt (m : Memory) (row col b : Nat) : accRead m row col b < 256 ^ b := by
  simpa [accRead] using ofBytes_lt ((List.range b).map fun i => Memory.byte m (4 * (row * 512 + col) + i))

/-- An element is read from the bytes at its place alone. -/
theorem accRead_congr {m m' : Memory} {row col b : Nat}
    (same : ∀ i < b, Memory.byte m' (4 * (row * 512 + col) + i) = Memory.byte m (4 * (row * 512 + col) + i)) :
    accRead m' row col b = accRead m row col b := by
  rw [accRead, accRead, List.map_congr_left fun i hi => same i (List.mem_range.1 hi)]

/-- An element whose place holds the bytes of a code reads as that code. -/
theorem accRead_of_bytes {m : Memory} {row col b v : Nat} (small : v < 256 ^ b)
    (stands : ∀ i < b, Memory.byte m (4 * (row * 512 + col) + i) = BitVec.ofNat 8 (v / 256 ^ i)) :
    accRead m row col b = v := by
  rw [accRead, List.map_congr_left fun i hi => stands i (List.mem_range.1 hi), ← bytesOf_eq_map, ofBytes_bytesOf,
    Nat.mod_eq_of_lt small]

section
variable {m : Memory} {row col b : Nat} {l : List Nat}

theorem accWrite_apart {a : Nat} (apart : Apart a (4 * (row * 512 + col)) (b * l.length)) :
    Memory.byte (accWrite m row col b l) a = Memory.byte m a :=
  Memory.byte_write_apart _ _ _ _ (by simpa using apart)

theorem accWrite_stands {x y : Nat} (hx : x < l.length) (hy : y < b) :
    Memory.byte (accWrite m row col b l) (4 * (row * 512 + col) + b * x + y) = BitVec.ofNat 8 (l.getD x 0 / 256 ^ y) := by
  have inside := position_lt hx hy
  rw [Nat.mul_comm x, Nat.mul_comm l.length] at inside
  rw [accWrite, Memory.byte_write, if_pos (by rw [bytesOfCodes_length]; omega), ← bytesOfCodes_getD hx hy]
  congr 1
  omega

end

/-! ### Rows written one after another -/

/-- Codes written to `n` rows from row `first` on, each row's codes given by the accumulator as the rows before left it. -/
def accRows (first col b : Nat) (codes : Memory → Nat → List Nat) : Nat → Memory → Memory
  | 0, m => m
  | n + 1, m =>
    let a := accRows first col b codes n m
    accWrite a (first + n) col b (codes a n)

section
variable {first col b : Nat} {codes : Memory → Nat → List Nat}

theorem foldl_accWrite (n : Nat) (m : Memory) :
    (List.range n).foldl (fun a row => accWrite a (first + row) col b (codes a row)) m = accRows first col b codes n m := by
  induction n with
  | zero => rfl
  | succ n ih => rw [List.range_succ, List.foldl_append, ih]; rfl

variable {len : Nat} (length : ∀ m row, b * (codes m row).length = len)
include length

/-- No byte apart from the rows changes. -/
theorem accRows_apart {n : Nat} {m : Memory} {a : Nat} (apart : ∀ row < n, Apart a (4 * ((first + row) * 512 + col)) len) :
    Memory.byte (accRows first col b codes n m) a = Memory.byte m a := by
  induction n with
  | zero => rfl
  | succ n ih =>
    rw [accRows, accWrite_apart (by rw [length]; exact apart n (by omega)), ih fun row h => apart row (by omega)]

variable (fits : 4 * col + len ≤ 2048)
include fits

/-- A byte of a row stays while other rows are written. -/
theorem accRows_other {n row : Nat} {m : Memory} {x : Nat} (after : n ≤ row) :
    Memory.byte (accRows first col b codes n m) (4 * ((first + row) * 512 + col) + x)
      = Memory.byte m (4 * ((first + row) * 512 + col) + x) :=
  accRows_apart length fun r hr => Or.inr (by omega)

/-- A row holds what was written there. -/
theorem accRows_stands {n row : Nat} {m : Memory} {x y : Nat} (hr : row < n)
    (hx : x < (codes (accRows first col b codes row m) row).length) (hy : y < b) :
    Memory.byte (accRows first col b codes n m) (4 * ((first + row) * 512 + col) + b * x + y)
      = BitVec.ofNat 8 ((codes (accRows first col b codes row m) row).getD x 0 / 256 ^ y) := by
  have inside := position_lt hx hy
  rw [Nat.mul_comm x, Nat.mul_comm _ b, length] at inside
  induction n with
  | zero => omega
  | succ n ih =>
    rw [accRows]
    rcases Nat.lt_succ_iff_lt_or_eq.1 hr with before | rfl
    · rw [accWrite_apart (Or.inl (by omega)), ih before]
    · exact accWrite_stands hx hy

end

/-- Zeros written to rows stand there, whether or not the rows overlap. -/
theorem accRows_zero {first col n k row x : Nat} {m : Memory} (hr : row < n) (hx : x < 4 * k) :
    Memory.byte (accRows first col 4 (fun _ _ => List.replicate k 0) n m) (4 * ((first + row) * 512 + col) + x) = 0 := by
  induction n with
  | zero => omega
  | succ n ih =>
    rw [accRows]
    by_cases apart : Apart (4 * ((first + row) * 512 + col) + x) (4 * ((first + n) * 512 + col)) (4 * k)
    · rw [accWrite_apart (by simpa using apart)]
      refine ih (Nat.lt_of_le_of_ne (by omega) ?_)
      rintro rfl
      unfold Apart at apart
      omega
    · unfold Apart at apart
      obtain ⟨z, hz, at_⟩ : ∃ z < 4 * k, 4 * ((first + row) * 512 + col) + x
          = 4 * ((first + n) * 512 + col) + 4 * (z / 4) + z % 4 :=
        ⟨4 * ((first + row) * 512 + col) + x - 4 * ((first + n) * 512 + col), by omega, by omega⟩
      rw [at_, accWrite_stands (by simp; omega) (by omega)]
      simp

end Sys2Proof.Machine
end

section
/-! PROOFS. The codes of the matrix engine fit their formats (R60, R68, R69), and what a K-step makes of an accumulator element
(R251). -/

namespace Sys2Proof.Machine

/-! ### Rounded codes -/

/-- A format of the accumulator has room for what it encodes. -/
theorem Fl.codes_lt {f : Fl} (hf : f = .f32 ∨ f = .f64) :
    (∀ n, f.signBit n < 2 ^ f.width) ∧ f.maxCode < 2 ^ f.width ∧ f.infCode < 2 ^ f.width ∧ f.canon < 2 ^ f.width ∧
      f ≠ .e4m3 := by
  rcases hf with rfl | rfl <;> decide

/-- Every NaN of an accumulator is made with no payload: what the engine rounds is a number, an infinity or Canon (R64). -/
def Val.NoPayload (v : Val) : Prop := ∀ n s p, v = .nan n s p → p = 0

section
variable {f : Fl} (hf : f = .f32 ∨ f = .f64)
include hf

theorem Fl.overflowCode_lt (sat : Bool) (rm : Rm) (neg : Bool) : f.overflowCode sat rm neg < 2 ^ f.width := by
  obtain ⟨_, max, inf, _, other⟩ := Fl.codes_lt hf
  unfold Fl.overflowCode
  rw [if_neg other]
  cases sat <;> cases rm <;> cases neg <;> assumption

theorem Fl.round_code_lt (sat : Bool) (rm : Rm) (draw : Nat) {v : Val} (plain : v.NoPayload) :
    (f.round sat rm draw v).code < 2 ^ f.width := by
  obtain ⟨sign, max, inf, canon, other⟩ := Fl.codes_lt hf
  cases v with
  | nan n s p =>
    rw [plain n s p rfl, Fl.round, Fl.nanCode, if_neg other, Nat.zero_shiftRight, Nat.or_zero]
    exact Nat.or_lt_two_pow (sign n) canon
  | inf n =>
    rw [Fl.round, if_neg other]
    exact Nat.or_lt_two_pow (sign n) inf
  | fin n m e =>
    rw [Fl.round]
    split
    · exact sign n
    · dsimp only
      split
      · exact Nat.or_lt_two_pow (sign n) (Fl.overflowCode_lt hf sat rm n)
      · next fits =>
        refine Nat.or_lt_two_pow (sign n) (Nat.lt_of_le_of_lt ?_ max)
        simp only [Bool.or_eq_true, decide_eq_true_eq, not_or, Nat.not_lt] at fits
        exact fits.2

end

theorem wrapTo_lt (w : Nat) (v : Int) : wrapTo w v < 2 ^ w := by
  have positive : (0 : Int) < (2 ^ w : Nat) := by positivity
  have below := Int.emod_lt_of_pos v positive
  have above := Int.emod_nonneg v (ne_of_gt positive)
  unfold wrapTo
  omega

theorem ITy.round_code_lt (t : ITy) (sat : Bool) (rm : Rm) (draw : Nat) (v : Val) :
    (t.round sat rm draw v).code < 2 ^ t.w := by
  cases v with
  | nan n s p => exact Nat.two_pow_pos _
  | inf n =>
    rw [ITy.round]
    split
    · exact wrapTo_lt _ _
    · exact Nat.two_pow_pos _
  | fin n m e => exact wrapTo_lt _ _

/-! ### The matrix disciplines (R68, R69) -/

theorem noPayload_canon : Val.canon.NoPayload := fun _ _ _ same => (Val.nan.inj same).2.2.symm

theorem exactSum_noPayload (rm : Rm) (l : List Val) : (exactSum rm l).val.NoPayload := by
  unfold exactSum
  dsimp only
  split
  · exact noPayload_canon
  · split
    · exact nofun
    · split
      · exact nofun
      · split <;> exact nofun

theorem canonical_noPayload (v : Valued) : v.canonical.val.NoPayload := by
  unfold Valued.canonical
  split
  · exact noPayload_canon
  · next number =>
    rintro n s p same
    rw [same] at number
    exact absurd rfl number

theorem fusedStep_code_lt {f : Fl} (hf : f = .f32 ∨ f = .f64) (rm : Rm) (draw : Nat) (c x y : Val) :
    (fusedStep f rm draw c x y).code < 2 ^ f.width :=
  Fl.round_code_lt hf _ _ _ (canonical_noPayload _)

theorem exactStep_code_lt (f32 : Bool) (rm : Rm) (sat : Bool) (draw : Nat) (c : Val) (xy : List (Val × Val)) :
    (exactStep f32 rm sat draw c xy).code < 2 ^ 32 := by
  unfold exactStep
  dsimp only
  split
  · change (if f32 then Fl.f32.canon else 0) < 2 ^ 32
    cases f32 <;> decide
  · split
    · next infinite =>
      generalize (c :: _).any _ = n
      cases f32 <;> cases sat <;> cases n <;> decide
    · cases f32
      · exact ITy.round_code_lt ⟨true, 32⟩ _ _ _ _
      · exact Fl.round_code_lt (f := .f32) (Or.inl rfl) _ _ _ (exactSum_noPayload _ _)

/-! ### One accumulator element (R251) -/

/-- The types of the accumulator: f64 in two columns, f32 and i32 in one. -/
theorem accType_cases {t : BitVec 5} (h : accType t = true) :
    (t = 0x00#5 ∧ elOf t = .fl .f64 ∧ accCols t = 2) ∨ (t = 0x01#5 ∧ elOf t = .fl .f32 ∧ accCols t = 1) ∨
      (t = 0x0B#5 ∧ elOf t = .int ⟨true, 32⟩ ∧ accCols t = 1) := by
  simp only [accType, Bool.or_eq_true, beq_iff_eq, or_assoc] at h
  rcases h with rfl | rfl | rfl
  · exact Or.inl ⟨rfl, rfl, rfl⟩
  · exact Or.inr (Or.inl ⟨rfl, rfl, rfl⟩)
  · exact Or.inr (Or.inr ⟨rfl, rfl, rfl⟩)

section
variable {r : Rec} (type : accType r.fc = true)
include type

/-- The engine's element takes the step of R251, its flags apart. -/
theorem mmaElement_code (e : Entry) (x site code : Nat) (terms : List (Val × Val)) :
    (mmaElement r e x site code terms).code = r.stepped (e.draw r.mode x site) code terms := by
  have fused (g : Fl) (draw : Nat) (terms : List (Val × Val)) : (terms.foldl (fun (a : Coded) p =>
      let k := fusedStep g r.mode draw (g.decode a.code) p.1 p.2
      ⟨k.code, a.flags ||| k.flags⟩) ⟨code, 0⟩).code
      = terms.foldl (fun a p => (fusedStep g r.mode draw (g.decode a) p.1 p.2).code) code :=
    (List.foldl_hom Coded.code fun _ _ => rfl).symm
  cases terms with
  | nil => rfl
  | cons p terms =>
    have floating {g : Fl} (fc : r.fc ≠ 0x0B#5) (el : elOf r.fc = .fl g) :
        (mmaElement r e x site code (p :: terms)).code = r.stepped (e.draw r.mode x site) code (p :: terms) := by
      unfold mmaElement Rec.stepped flOf
      rw [el, if_neg (List.cons_ne_nil _ _), if_neg fc]
      dsimp only [List.isEmpty_cons]
      rw [if_neg Bool.false_ne_true]
      split
      · exact fused g _ _
      · rfl
    rcases accType_cases type with ⟨fc, el, _⟩ | ⟨fc, el, _⟩ | ⟨fc, el, _⟩
    · exact floating (by rw [fc]; decide) el
    · exact floating (by rw [fc]; decide) el
    · unfold mmaElement Rec.stepped
      rw [el, if_neg (List.cons_ne_nil _ _), if_pos fc]
      rfl

theorem fused_lt {draw code : Nat} (small : code < 256 ^ (4 * accCols r.fc)) (terms : List (Val × Val)) :
    terms.foldl (fun a p => (fusedStep (flOf r.fc) r.mode draw ((flOf r.fc).decode a) p.1 p.2).code) code
      < 256 ^ (4 * accCols r.fc) := by
  obtain ⟨format, room⟩ : (flOf r.fc = .f32 ∨ flOf r.fc = .f64) ∧ 2 ^ (flOf r.fc).width ≤ 256 ^ (4 * accCols r.fc) := by
    rcases accType_cases type with ⟨fc, _, _⟩ | ⟨fc, _, _⟩ | ⟨fc, _, _⟩ <;> rw [fc] <;> decide
  induction terms generalizing code with
  | nil => exact small
  | cons p terms ih => exact ih (Nat.lt_of_lt_of_le (fusedStep_code_lt format ..) room)

/-- A step leaves a code that the element has room for. -/
theorem stepped_lt {draw code : Nat} (small : code < 256 ^ (4 * accCols r.fc)) (terms : List (Val × Val)) :
    r.stepped draw code terms < 256 ^ (4 * accCols r.fc) := by
  have room : 2 ^ 32 ≤ 256 ^ (4 * accCols r.fc) := by
    rcases accType_cases type with ⟨_, _, cols⟩ | ⟨_, _, cols⟩ | ⟨_, _, cols⟩ <;> rw [cols] <;> decide
  unfold Rec.stepped
  dsimp only
  split
  · exact small
  · split
    · exact Nat.lt_of_lt_of_le (exactStep_code_lt ..) room
    · split
      · exact fused_lt type small terms
      · exact Nat.lt_of_lt_of_le (exactStep_code_lt ..) room

end

end Sys2Proof.Machine
end

section
/-! PROOFS. A record runs by its plan (R242-R245, R248, R181). -/

namespace Sys2Proof.Machine

section
variable {s : State} {i : Instr} {kind : Kind} {plan : Entry → Plan} {h : Handle}
  (run : exec i s = s.runPlan kind plan) (task : (s.engine s.focus kind).handle = some h)
include run task

/-- The engine's record: checked unless it has started, and then its units, unless its chain has failed. -/
theorem exec_runPlan :
    let e := s.entry s.focus h
    let p := plan e
    let x := s.engine s.focus kind
    let hull := p.hull.or (s.queueGate s.focus e)
    let t := (s.cause s.focus h p.bad).setEngine s.focus kind { x with started := true, waiting := false }
    ∃ rest : Host.Outcome State Fault Refusal, exec i s =
        (if !x.started && (p.bad.stops || e.chain.illegal) then
          .next (s.endRecord s.focus kind (p.bad.or (Causes.when e.chain.illegal causeFormat)))
        else if !x.started && hull.status != 0 then .next (s.endRecord s.focus kind (p.bad.or hull))
        else rest) ∧
      (((s.core s.focus).chains.failed.find? fun f => kind == .matrix && f.1 == e.chain.id) = none →
        rest = .next (runUnits s.focus kind h (p.unit s.focus h e) (p.units - x.progress) x.progress t)) := by
  rw [run, State.runPlan]
  simp only [task, State.runRecord]
  exact ⟨_, rfl, fun sound => by rw [sound]⟩

end

theorem State.RunsRecord.of {s : State} {i : Instr} {kind : Kind} {plan : Entry → Plan}
    (run : exec i s = s.runPlan kind plan) : s.RunsRecord i kind plan := by
  intro h task
  obtain ⟨rest, checked, runs⟩ := exec_runPlan run task
  dsimp only at checked runs ⊢
  refine ⟨fun fresh illegal => ?_, fun fresh legal refused => ?_, fun ready sound => ?_⟩
  · rw [checked, fresh, if_pos (by simpa using illegal)]
  · rw [checked, fresh, if_neg (by simpa using legal), if_pos (by simpa using refused)]
  · have none_failed : ((s.core s.focus).chains.failed.find? fun f => kind == .matrix && f.1 == (s.entry s.focus h).chain.id)
        = none := by
      rw [List.find?_eq_none]
      intro f member
      simpa using fun matrix => sound matrix f member
    rw [checked, if_neg, if_neg, runs none_failed]
    · rcases ready with started | ⟨_, accepted⟩
      · simp [started]
      · simp [accepted]
    · rcases ready with started | ⟨legal, _⟩
      · simp [started]
      · simpa using fun _ => legal

/-- A multiply record in no gang runs by its plan. -/
theorem State.multiply_alone {s : State} {r : Rec} (double : Bool) (alone : r.specBits 28 1 = 0) :
    s.multiply r double = s.runPlan .matrix fun e => s.mmaPlan e r double := by
  cases task : (s.engine s.focus .matrix).handle <;> simp only [State.multiply, State.runPlan, task, alone, if_true]

end Sys2Proof.Machine
end

section
/-! PROOFS. One unit of MMA and DMMA (R249, R251). -/

namespace Sys2Proof.Machine

/-! ### Operands that are no queues (R254) -/

section
variable {s : State} {c : CoreId} {kind : Kind} {d : Desc} (storage : d.cls ≠ 4) (produces : Bool)
include storage

theorem State.takeSlot_storage : s.takeSlot c kind d produces = (s, some none) := if_pos storage

theorem State.dropSlot_storage : s.dropSlot c kind d produces = s := by
  have held : ((s.engine c kind).held.find? fun p => d.cls == 4 && p.1 == d.queue) = none := by
    rw [List.find?_eq_none]
    simp [storage]
  rw [State.dropSlot, held]

end

/-! ### What a task's causes and flags leave (R42, R43) -/

@[simp] theorem State.acc_cause (s : State) (c : CoreId) (h : Handle) (k : Causes) : (s.cause c h k).acc c = s.acc c := by
  simp [State.acc, State.cause, State.setEntry]

@[simp] theorem State.acc_raiseTask (s : State) (c : CoreId) (h : Handle) (f : Sticky) :
    (s.raiseTask c h f).acc c = s.acc c := by
  simp [State.acc, State.raiseTask, State.setEntry]

@[simp] theorem State.acc_setAcc (s : State) (c : CoreId) (m : Memory) : (s.setAcc c m).acc c = m := by
  simp [State.acc, State.setAcc]

@[simp] theorem State.acc_countStep (s : State) (c : CoreId) : (s.countStep c .matrix).acc c = s.acc c := by
  simp [State.acc, State.countStep, State.setEngine]

/-! ### A column group of a K-step (R251) -/

/-- The columns of rows, by their index. -/
theorem columns_eq {α : Type} (n : Nat) (ls : List (List α)) :
    columns n ls = (List.range n).map fun col => ls.filterMap fun l => l[col]? := by
  induction n generalizing ls with
  | zero => rfl
  | succ n ih =>
    rw [columns, ih, List.range_succ_eq_map, List.map_cons, List.map_map]
    congr 1
    · simp [List.head?_eq_getElem?]
    · refine List.map_congr_left fun col _ => ?_
      simp [List.filterMap_map, List.getElem?_tail]

theorem mmaColumns_eq (n : Nat) (ls : List (List Valued)) :
    State.mmaGroup.rowsOfVals n ls = (List.range n).map fun col => ls.filterMap fun l => l[col]? := by
  rw [← columns_eq]
  induction n generalizing ls with
  | zero => rfl
  | succ n ih => rw [State.mmaGroup.rowsOfVals, columns, ih]

/-- The codes that a K-step makes of a row of the accumulator: `draw` and the terms of each column are given. -/
def steppedRow (r : Rec) (n cc : Nat) (draw : Nat → Nat → Nat) (terms : Nat → Nat → List (Val × Val)) (a : Memory)
    (row : Nat) : List Nat :=
  (List.range n).map fun col => r.stepped (draw row col)
    (accRead a (r.c.accRow + row) (cc + accCols r.fc * col) (4 * accCols r.fc)) (terms row col)

/-- After the rows of a K-step, each element is what the step makes of it as it stood before. -/
theorem accRows_stepped {r : Rec} (type : accType r.fc = true) {n cc rows : Nat} (draw : Nat → Nat → Nat)
    (terms : Nat → Nat → List (Val × Val)) (m : Memory) (fits : cc + accCols r.fc * n ≤ 512) {row col : Nat} (hr : row < rows)
    (hc : col < n) :
    let read (a : Memory) := accRead a (r.c.accRow + row) (cc + accCols r.fc * col) (4 * accCols r.fc)
    read (accRows r.c.accRow cc (4 * accCols r.fc) (steppedRow r n cc draw terms) rows m)
      = r.stepped (draw row col) (read m) (terms row col) := by
  intro read
  have length (m : Memory) (row : Nat) : 4 * accCols r.fc * (steppedRow r n cc draw terms m row).length
      = 4 * accCols r.fc * n := by simp [steppedRow]
  have room : 4 * cc + 4 * accCols r.fc * n ≤ 2048 := by rw [Nat.mul_assoc]; omega
  have place (i : Nat) : 4 * ((r.c.accRow + row) * 512 + (cc + accCols r.fc * col)) + i
      = 4 * ((r.c.accRow + row) * 512 + cc) + 4 * accCols r.fc * col + i := by ring
  have before : read (accRows r.c.accRow cc (4 * accCols r.fc) (steppedRow r n cc draw terms) row m) = read m := by
    refine accRead_congr fun i _ => ?_
    rw [place i, Nat.add_assoc]
    exact accRows_other length room (Nat.le_refl row)
  refine accRead_of_bytes (stepped_lt type (accRead_lt ..) _) fun i hi => ?_
  have stands := accRows_stands (first := r.c.accRow) length room (m := m) hr (x := col) (by simpa [steppedRow] using hc) hi
  rw [place i, stands, ← before]
  simp [steppedRow, hc, read]

/-- A list with its indexes, by them. -/
theorem zipIdx_eq_map_range {α : Type} (l : List α) (d : α) :
    l.zipIdx = (List.range l.length).map fun i => (l.getD i d, i) :=
  List.ext_getElem (by simp) fun i hi _ => by
    have inside : i < l.length := by simpa using hi
    simp [inside]

section
variable {s s1 s2 : State} {c : CoreId} {h : Handle} {e : Entry} {r : Rec} {m : Mma} {step g : Nat} {ka kb : Causes}
  {ea eb : List Elem} {xs ys : List (List Valued)} (type : accType r.fc = true)
include type

/-- A column group whose operands have been read takes a step in every row. -/
theorem State.mmaGroup_done (valid : m.valid (m.trips.at3 step).1 ≠ 0)
    (readA : s.readElems (s.taskAgent c (.matrix c)) (((List.range m.mrows).map fun (row : Nat) =>
      (s.operandRow c e r.a false (r.a.shift row (m.trips.at3 step).1 (m.trips.at3 step).2.1 (m.trips.at3 step).2.2)).elems
        m.wa 0 (m.valid (m.trips.at3 step).1)).flatten) = (s1, some (ka, ea)))
    (readB : s1.readElems (s.taskAgent c (.matrix c)) (((List.range (m.valid (m.trips.at3 step).1)).map fun (row : Nat) =>
      (s.operandRow c e r.b false (r.b.shift row (m.trips.at3 step).1 (m.trips.at3 step).2.1 (m.trips.at3 step).2.2)).elems
        m.wb (16 * g) (min 16 (m.trips.t0 - 16 * g))).flatten) = (s2, some (kb, eb)))
    (sound : (ka.or kb).stops = false)
    (rowsA : mmaRows r.fa m.wa r.sa (r.fc != 0x0B#5) 0 (m.valid (m.trips.at3 step).1) ea = some xs)
    (rowsB : mmaRows r.fb m.wb r.sb (r.fc != 0x0B#5) (16 * g) (min 16 (m.trips.t0 - 16 * g)) eb = some ys) :
    let j := m.trips.at3 step
    let n := min 16 (m.trips.t0 - 16 * g)
    let cc := accColAt r.c j.1 j.2.1 j.2.2 + accCols r.fc * 16 * g
    ∃ q : State, s.mmaGroup c e h r m none none step g = .done q ∧
      q.acc c = accRows r.c.accRow cc (4 * accCols r.fc) (steppedRow r n cc
        (fun row col => e.draw r.mode (s.engine c .matrix).x ((r.c.accRow + row) * 512 + (cc + accCols r.fc * col)))
        fun row col => ((xs.getD row []).map (·.val)).zip ((ys.filterMap fun y => y[col]?).map (·.val))) xs.length (s2.acc c) := by
  dsimp only
  unfold State.mmaGroup State.mmaRow
  simp only [if_neg valid, readA, readB, sound, rowsA, rowsB, Bool.false_eq_true, if_false]
  refine ⟨_, rfl, ?_⟩
  rw [State.acc_raiseTask, State.acc_cause, State.acc_setAcc]
  rw [← foldl_accWrite, zipIdx_eq_map_range xs [], List.foldl_map]
  refine (List.foldl_hom Prod.fst fun a row => ?_).symm
  rw [mmaColumns_eq, zipIdx_map_range, List.map_map]
  congr 1
  refine List.map_congr_left fun col _ => ?_
  exact (mmaElement_code type ..).symm

end

/-- A unit whose operands are no queues is its column group; the K-step's last group counts it. -/
theorem State.mmaUnit_done {s q : State} {c : CoreId} {h : Handle} {e : Entry} {r : Rec} {m : Mma} {i : Nat}
    (storageA : r.a.cls ≠ 4) (storageB : r.b.cls ≠ 4)
    (group : s.mmaGroup c e h r m none none (i / m.groups) (i % m.groups) = .done q) :
    ∃ z : State, s.mmaUnit c h e r m i = .done z ∧ z.acc c = q.acc c := by
  have slots : s.mmaSlots c r = (s, some (none, none)) := by
    simp [State.mmaSlots, State.takeSlot_storage storageA, State.takeSlot_storage storageB]
  simp only [State.mmaUnit, slots, group, State.dropSlot_storage storageA, State.dropSlot_storage storageB]
  refine ⟨_, rfl, ?_⟩
  split
  · exact State.acc_countStep q c
  · rfl

end Sys2Proof.Machine
end

section
/-! PROOFS. One unit of MZERO, MLDC and MDRAIN (R255-R257). -/

namespace Sys2Proof.Machine

/-! ### Elements read (R244) -/

theorem Row.elems_length (row : Row) (w first n : Nat) : (row.elems w first n).length = n := by simp [Row.elems]

theorem gather_length (es : List (List (Nat × Reach))) (fs : List (Option Found)) : (gather es fs).length = es.length := by
  induction es generalizing fs with
  | nil => rfl
  | cons p es ih => rw [gather, List.length_cons, ih, List.length_cons]

/-- As many elements are read as were asked for. -/
theorem State.readElems_length {s t : State} {ag : Agent} {es : List (List (Nat × Reach))} {k : Causes} {l : List Elem}
    (read : s.readElems ag es = (t, some (k, l))) : l.length = es.length := by
  have answer := congrArg Prod.snd read
  rw [State.readElems, Option.map_eq_some_iff] at answer
  obtain ⟨a, _, same⟩ := answer
  rw [← (Prod.mk.inj same).2, gather_length]

/-- As many elements are read of a block as it has. -/
theorem State.readElems_block {s t : State} {ag : Agent} {k : Causes} {l : List Elem} {rows w n : Nat} {row : Nat → Row}
    (read : s.readElems ag ((List.range rows).map fun q => (row q).elems w 0 n).flatten = (t, some (k, l))) :
    l.length = rows * n := by
  rw [State.readElems_length read]
  simp [List.length_flatten, Function.comp_def, Row.elems_length]

theorem length_of_mapM {α β : Type} {f : α → Option β} {l : List α} {r : List β} (h : l.mapM f = some r) :
    r.length = l.length := by
  induction l generalizing r with
  | nil => cases h; rfl
  | cons a l ih =>
    simp only [List.mapM_cons, Option.bind_eq_bind, Option.bind_eq_some_iff] at h
    obtain ⟨b, _, bs, rest, same⟩ := h
    cases same
    rw [List.length_cons, List.length_cons, ih rest]

/-! ### MZERO (R255) -/

section
variable (p s : State) (c : CoreId) (h : Handle) (e : Entry) (r : Rec) (i : Nat)

theorem State.mzero_unit :
    let t := e.trips r
    let j := t.at3 i
    (p.mzeroPlan e r).unit c h e i s = .done (s.setAcc c (accRows r.c.accRow (accColAt r.c j.1 j.2.1 j.2.2) 4
      (fun _ _ => List.replicate (accCols r.fc * t.t0) 0) (e.mrows (r.specBits 0 8)).1 (s.acc c))) := by
  dsimp only
  rw [← foldl_accWrite]
  rfl

end

/-! ### MLDC (R256) -/

/-- The codes of a row of `n` of a block. -/
def rowCodes (n : Nat) (l : List Nat) (row : Nat) : List Nat := (List.range n).map fun j => l.getD (row * n + j) 0

/-- A block of codes loaded row by row. -/
theorem foldl_runsOf_accWrite {first col b n rows : Nat} {l : List Nat} (length : l.length = rows * n) (hn : n ≠ 0)
    (m : Memory) : (runsOf n rows l).zipIdx.foldl (fun a p => accWrite a (first + p.2) col b p.1) m
      = accRows first col b (fun _ row => rowCodes n l row) rows m := by
  rw [runsOf_eq_rows hn rows l length, ← List.map_id (List.zipIdx _), zipIdx_map_range, List.foldl_map, ← foldl_accWrite]
  rfl

section
variable {p s s1 : State} {c : CoreId} {h : Handle} {e : Entry} {r : Rec} {i : Nat} {got : Option (Causes × List Elem)}
  (read : s.readElems (s.taskAgent c (.matrix c)) (((List.range (e.mrows (r.specBits 0 8)).1).map fun (row : Nat) =>
    (s.operandRow c e r.a false (r.a.shift row ((e.trips r).at3 i).1 ((e.trips r).at3 i).2.1 ((e.trips r).at3 i).2.2)).elems
      (32 * accCols r.fc) 0 (e.trips r).t0).flatten) = (s1, got))
include read

theorem State.mldc_waits (waits : got = none) : (p.mldcPlan e r).unit c h e i s = .wait s1 false := by
  subst waits
  simp only [State.mldcPlan, read]

variable {k : Causes} {es : List Elem} (found : got = some (k, es))
include found

theorem State.mldc_stops (stops : k.stops = true) : (p.mldcPlan e r).unit c h e i s = .stop s1 k := by
  subst found
  simp only [State.mldcPlan, read, stops, if_true]

variable (sound : k.stops = false)
include sound

theorem State.mldc_data (bad : es.mapM (fun x => (x.read (.el (elOf r.fa)) (32 * accCols r.fc) 0).map (·.2)) = none) :
    (p.mldcPlan e r).unit c h e i s = .stop s1 (k.or causeData) := by
  subst found
  simp only [State.mldcPlan, read, sound, bad, Bool.false_eq_true, if_false]

variable {l : List Nat} (codes : es.mapM (fun x => (x.read (.el (elOf r.fa)) (32 * accCols r.fc) 0).map (·.2)) = some l)
include codes

/-- The codes of a block, loaded: row by row, if it has columns. -/
theorem State.mldc_done : ∃ acc, (p.mldcPlan e r).unit c h e i s = .done ((s1.setAcc c acc).cause c h k) ∧
    ((e.trips r).t0 ≠ 0 → acc = accRows r.c.accRow
      (accColAt r.c ((e.trips r).at3 i).1 ((e.trips r).at3 i).2.1 ((e.trips r).at3 i).2.2) (4 * accCols r.fc)
      (fun _ row => rowCodes (e.trips r).t0 l row) (e.mrows (r.specBits 0 8)).1 (s1.acc c)) ∧
    ((e.trips r).t0 = 0 → acc = s1.acc c) := by
  subst found
  have length : l.length = (e.mrows (r.specBits 0 8)).1 * (e.trips r).t0 := by
    rw [length_of_mapM codes, State.readElems_block read]
  simp only [State.mldcPlan, read, sound, codes, Bool.false_eq_true, if_false]
  refine ⟨_, rfl, fun columns => foldl_runsOf_accWrite length columns _, fun empty => ?_⟩
  rw [empty, Nat.mul_zero, List.length_eq_zero_iff] at length
  subst length
  cases (e.mrows (r.specBits 0 8)).1 <;> rfl

end

/-- A code of a block stands at its place. -/
theorem mldc_stands {first col cols n rows row x y : Nat} {l : List Nat} {m : Memory} (fits : col + cols * n ≤ 512)
    (hr : row < rows) (hx : x < n) (hy : y < 4 * cols) :
    Memory.byte (accRows first col (4 * cols) (fun _ row => rowCodes n l row) rows m)
        (4 * ((first + row) * 512 + col) + 4 * cols * x + y)
      = BitVec.ofNat 8 (l.getD (row * n + x) 0 / 256 ^ y) := by
  rw [accRows_stands (codes := fun _ row => rowCodes n l row) (len := 4 * cols * n) (fun _ _ => by simp [rowCodes])
    (by rw [Nat.mul_assoc]; omega) hr (by simpa [rowCodes] using hx) hy]
  simp [rowCodes, hx]

/-! ### MDRAIN (R257) -/

/-- No shift is out of range. -/
theorem drain_shifts {ps : List (Option (Val × Int × Val))}
    (shifts : ∀ x ∈ ps, ∀ y, x = some y → -63 ≤ y.2.1 ∧ y.2.1 ≤ 63) {x : Option (Val × Int × Val)} (hx : x ∈ ps)
    {y : Val × Int × Val} (some : x = some y) : (decide (y.2.1 < -63) || decide (63 < y.2.1)) = false := by
  obtain ⟨low, high⟩ := shifts x hx y some
  simp
  omega

/-- The rows that a unit of MDRAIN drains, of the accumulator of a state. -/
def State.drained (s : State) (c : CoreId) (e : Entry) (r : Rec) (i : Nat) (ps : List (Option (Val × Int × Val))) :
    List (List Coded) :=
  let j := (e.trips r).at3 i
  let at_ (n : Nat) : Nat := accColAt r.c j.1 j.2.1 j.2.2 + accCols r.fa * n
  (List.range (e.mrows (r.specBits 0 8)).1).map fun row => ps.zipIdx.map fun x =>
    drainElement r (e.draw r.mode (s.engine c .matrix).x ((r.c.accRow + row) * 512 + at_ x.2))
      ((elOf r.fa).decode (accRead (s.acc c) (r.c.accRow + row) (at_ x.2) (4 * accCols r.fa))) x.1

/-- Drained rows written where they were aimed: as described lines or as plain ones. -/
def State.putDrained (s : State) (ag : Agent) (w : Waiter) (r : Rec) (l : List (Aim × List Byte)) : State :=
  if r.specBits 10 1 = 1 then l.foldl (fun s a => s.putLine ag w a.1 a.2
      (makeTag (((Ty.el (elOf r.fc)).fmt).getD 0) (r.specBits 11 6) 0 a.2)) s
  else s.putRuns ag w l

section
variable {p s s1 s2 : State} {c : CoreId} {h : Handle} {e : Entry} {r : Rec} {i : Nat} {k kw : Causes} {es : List Elem}
  {ps : List (Option (Val × Int × Val))} {l : List (Aim × List Byte)}

/-- The elements of an iteration, drained with their parameters and written where they are aimed. -/
theorem State.mdrain_done (storage : r.a.cls ≠ 4)
    (read : s.readElems (s.taskAgent c (.matrix c)) (if r.specBits 8 2 = 1 then ((List.range 3).map fun (q : Nat) =>
      (s.operandRow c e r.b false (r.b.shift q ((e.trips r).at3 i).1 ((e.trips r).at3 i).2.1 ((e.trips r).at3 i).2.2)).elems 32 0
        (e.trips r).t0).flatten else []) = (s1, some (k, es)))
    (sound : k.stops = false)
    (params : (if r.specBits 8 2 = 1 then (drainParams r (e.trips r).t0 es).map fun x => x.map some
      else some (List.replicate (e.trips r).t0 none)) = some ps)
    (shifts : ∀ x ∈ ps, ∀ y, x = some y → -63 ≤ y.2.1 ∧ y.2.1 ≤ 63)
    (aims : s1.aimAll (s.taskAgent c (.matrix c)) (((s1.drained c e r i ps).zipIdx.map fun x => drainWrites r
      (s1.operandRow c e r.a true (r.a.shift x.2 ((e.trips r).at3 i).1 ((e.trips r).at3 i).2.1 ((e.trips r).at3 i).2.2))
        (elOf r.fc).width (x.1.map Coded.code)).flatten) Causes.none [] = (s2, some (kw, l)))
    (passes : kw.stops = false) :
    let put := s2.putDrained (s.taskAgent c (.matrix c)) (writerOf c .matrix h) r l
    (p.mdrainPlan e r).unit c h e i s = .done ((((put.countStep c .matrix).cause c h (k.or kw))).raiseTask c h
      ((s1.drained c e r i ps).foldl (fun a x => a ||| flagsOf x) 0)) := by
  unfold State.drained at aims ⊢
  unfold State.putDrained
  dsimp only at aims ⊢
  simp only [State.mdrainPlan, State.takeSlot_storage storage, State.dropSlot_storage storage, beq_iff_eq, read, sound, params,
    Bool.false_eq_true, if_false]
  rw [if_neg]
  · simp only [aims, passes, Bool.false_eq_true, if_false]
  · rw [Bool.not_eq_true, List.any_eq_false]
    rintro (_ | y) hx
    · exact Bool.false_ne_true
    · rw [Bool.not_eq_true]
      exact drain_shifts shifts hx rfl

end

end Sys2Proof.Machine
end

section
/-! PROOFS. One unit of TRN (R258). -/

namespace Sys2Proof.Machine

/-! ### A block and its columns -/

theorem rowRuns_eq {α : Type} (n count : Nat) (l : List α) :
    rowRuns n count l = (List.range count).map fun row => (l.drop (row * n)).take n := by
  induction count generalizing l with
  | zero => rfl
  | succ count ih =>
    rw [rowRuns, ih, List.range_succ_eq_map, List.map_cons, List.map_map, Nat.zero_mul, List.drop_zero]
    congr 1
    refine List.map_congr_left fun row _ => ?_
    rw [List.drop_drop, Function.comp_apply, Nat.succ_mul, Nat.add_comm n]

/-- The columns of a block of whole rows. -/
theorem block_columns {α : Type} (d : α) {n rows : Nat} {l : List α} (length : l.length = rows * n) :
    columns n (rowRuns n rows l) = (List.range n).map fun col => (List.range rows).map fun row => l.getD (row * n + col) d := by
  rw [columns_eq, rowRuns_eq]
  refine List.map_congr_left fun col hc => ?_
  rw [List.filterMap_map, ← List.filterMap_eq_map]
  refine List.filterMap_congr fun row hr => ?_
  have inside : row * n + col < l.length := length ▸ position_lt (List.mem_range.1 hr) (List.mem_range.1 hc)
  simp [List.mem_range.1 hc, inside]

section
variable (same : Bool) (dst : El) (sat : Bool) (rm : Rm) (draw : Nat → Nat) {n rows : Nat} {vs : List (El × Valued × Nat)}
  (x : Nat) (length : vs.length = rows * n)

/-- An element written by TRN: its code as it was read, or converted. -/
def trnCode (site : Nat) (y : El × Valued × Nat) : Coded :=
  if same then ⟨y.2.2, 0⟩ else trnConvert y.1 dst sat rm (draw site) y.2.1

include length

/-- The rows that TRN writes are the block's columns. -/
theorem trnRows_block (d : El × Valued × Nat) :
    trnRows same dst sat rm draw (columns n (rowRuns n rows vs)) x = (List.range n).map fun col =>
      (List.range rows).map fun row => trnCode same dst sat rm draw (x + col * rows + row) (vs.getD (row * n + col) d) := by
  rw [trnRows, block_columns d length, zipIdx_map_range]
  refine List.map_congr_left fun col _ => ?_
  rw [zipIdx_map_range, List.length_map, List.length_range]
  rfl

theorem trnRows_length : (trnRows same dst sat rm draw (columns n (rowRuns n rows vs)) x).length = n := by
  simp [trnRows_block same dst sat rm draw x length (dst, ⟨.canon, 0⟩, 0)]

/-- A row that TRN writes has an element of each row it read, exchanged and converted. -/
theorem trnRows_row {col : Nat} (hc : col < n) :
    let row := (trnRows same dst sat rm draw (columns n (rowRuns n rows vs)) x).getD col []
    row.length = rows ∧ ∀ q < rows, row[q]? = (vs[q * n + col]?).map (trnCode same dst sat rm draw (x + col * rows + q)) := by
  rw [trnRows_block same dst sat rm draw x length (dst, ⟨.canon, 0⟩, 0)]
  refine ⟨by simp [hc], fun q hq => ?_⟩
  have inside : q * n + col < vs.length := length ▸ position_lt hq hc
  simp [hc, hq, inside]

end

/-! ### The unit -/

/-- The rows that a unit of TRN writes, of the elements that it has read. -/
def Entry.trnOut (e : Entry) (r : Rec) (x : Nat) (vs : List (El × Valued × Nat)) : List (List Coded) :=
  trnRows (r.fa == r.fc) (elOf r.fc) r.sat r.mode (fun n => e.draw r.mode n 0)
    (columns (e.trips r).t0 (rowRuns (e.trips r).t0 (e.count (r.specBits 0 16)).1 vs)) x

section
variable {p s s1 : State} {c : CoreId} {h : Handle} {e : Entry} {r : Rec} {i : Nat} {got : Option (Causes × List Elem)}
  (read : s.readElems (s.taskAgent c (.transpose c)) (((List.range (e.count (r.specBits 0 16)).1).map fun (q : Nat) =>
    (s.operandRow c e r.a false (r.a.shift q ((e.trips r).at3 i).1 ((e.trips r).at3 i).2.1 ((e.trips r).at3 i).2.2)).elems
      (elOf r.fa).width 0 (e.trips r).t0).flatten) = (s1, got))
include read

theorem State.trn_waits (waits : got = none) : (p.trnPlan e r).unit c h e i s = .wait s1 false := by
  subst waits
  simp only [State.trnPlan, read]

variable {k : Causes} {l : List Elem} (found : got = some (k, l))
include found

theorem State.trn_stops (stops : k.stops = true) : (p.trnPlan e r).unit c h e i s = .stop s1 k := by
  subst found
  simp only [State.trnPlan, read, stops]

variable (sound : k.stops = false)
include sound

theorem State.trn_data (bad : l.mapM (trnElem (r.fa == r.fc) (elOf r.fc).isFloat r.fa) = none) :
    (p.trnPlan e r).unit c h e i s = .stop s1 (k.or causeData) := by
  subst found
  simp only [State.trnPlan, read, sound, bad]

variable {vs : List (El × Valued × Nat)} (codes : l.mapM (trnElem (r.fa == r.fc) (elOf r.fc).isFloat r.fa) = some vs)
  {q : State} {aimed : Option (Causes × List (Aim × List Byte))}
  (aims : s1.aimAll (s.taskAgent c (.transpose c)) (((e.trnOut r (s1.engine c .transpose).x vs).zipIdx.map fun y =>
    (s1.operandRow c e r.c true (r.c.shift y.2 ((e.trips r).at3 i).1 ((e.trips r).at3 i).2.1 ((e.trips r).at3 i).2.2)).writes
      (elOf r.fc).width (y.1.map Coded.code)).flatten) Causes.none [] = (q, aimed))
include codes aims

theorem State.trn_aimWaits (waits : aimed = none) : (p.trnPlan e r).unit c h e i s = .wait q false := by
  subst found waits
  unfold Entry.trnOut at aims
  simp only [State.trnPlan, read, sound, codes, aims]

variable {kw : Causes} {ws : List (Aim × List Byte)} (placed : aimed = some (kw, ws))
include placed

theorem State.trn_aimStops (stops : kw.stops = true) : (p.trnPlan e r).unit c h e i s = .stop q (k.or kw) := by
  subst found placed
  unfold Entry.trnOut at aims
  simp only [State.trnPlan, read, sound, codes, aims, stops, if_true]

theorem State.trn_done (passes : kw.stops = false) :
    let z := q.putRuns (s.taskAgent c (.transpose c)) (writerOf c .transpose h) ws
    let x := (s1.engine c .transpose).x
    (p.trnPlan e r).unit c h e i s = .done (((z.setEngine c .transpose { z.engine c .transpose with
      x := x + (if r.mode = .rsr then (e.count (r.specBits 0 16)).1 * (e.trips r).t0 else 0) }).cause c h (k.or kw)).raiseTask c h
        ((e.trnOut r x vs).foldl (fun f row => f ||| flagsOf row) 0)) := by
  subst found placed
  unfold Entry.trnOut at aims ⊢
  simp only [State.trnPlan, read, sound, codes, aims, passes, Bool.false_eq_true, if_false]

end

end Sys2Proof.Machine
end

section
/-! PROOFS. One unit of CPY, CPYX, MCAST, FILL and CPYQ (R259-R261, R263, R264, R266). -/

namespace Sys2Proof.Machine

/-! ### Lines (R259) -/

section
variable (t : State) (c : CoreId) (h : Handle) (r : Rec)

/-- What putting a line comes to, once its place has answered: it is put, and delivered if it stands there. -/
def State.putAimed (q : State) (ag : Agent) (l : Loc) (d : List Byte) (tag : Word) (k : Causes) : Got Aim → Work
  | .ok m =>
    let p := q.putLine ag (writerOf c .copy h) m d tag
    .done ((if m.now then p.deliver r (l.receiver c) else p).cause c h k)
  | .wait => .wait q false
  | .access => .stop q (k.or causeAccess)
  | .data => .stop q (k.or causeData)

/-- A line that goes to no aperture is put where it is aimed. -/
theorem State.putWhole_located {l : Loc} (memory : ∀ a off, l = .va a → t.target a ≠ .aperture off) (d : List Byte)
    (tag : Word) (k : Causes) {q : State} {got : Got Aim} (aims : t.aim (t.taskAgent c (.copy c)) l false = (q, got)) :
    t.putWhole c h r (.found l) d tag k = q.putAimed c h r (t.taskAgent c (.copy c)) l d tag k got := by
  unfold State.putWhole
  dsimp -zeta only
  extract_lets +onlyGivenNames off
  have outside : off = none := by
    cases l with
    | tile m row col => rfl
    | va a =>
      cases target : t.target a with
      | aperture o => exact absurd target (memory a o rfl)
      | _ => simp only [off, target]
  rw [outside]
  dsimp -zeta only
  extract_lets +onlyGivenNames ag there
  rw [show there = (q, got) from aims]
  cases got <;> rfl

theorem State.putWhole_putsWhole (dst : Reach) (d : List Byte) (tag : Word) (k : Causes) :
    t.PutsWhole (t.putWhole c h r dst d tag k) c h r dst d tag k := by
  refine ⟨?_, ?_, ?_⟩
  · rintro rfl
    rfl
  · rintro rfl
    rfl
  · rintro l rfl memory q
    have put {got : Got Aim} := t.putWhole_located c h r (q := q) (got := got) memory d tag k
    exact ⟨fun m aims => put aims, put, put, put⟩

theorem State.moveLine_movesLine (src dst : Reach) : t.MovesLine (t.moveLine c h r src dst) c h r src dst := by
  intro q
  refine ⟨fun waits => ?_, fun k d g found => ⟨fun stops => ?_, fun sound => ?_⟩⟩
  · simp only [State.moveLine, waits]
  · simp only [State.moveLine, found, stops, if_true]
  · simp only [State.moveLine, found, sound, Bool.false_eq_true, if_false]
    exact q.putWhole_putsWhole c h r dst d (movedTag g) k

end

/-! ### CPYX (R261) -/

section
variable {s t : State} {c : CoreId} {e : Entry} {r : Rec} {fresh : Bool} {n i2 i3 : Nat}

/-- Within a row the index is the one that the engine keeps. -/
theorem State.rowIndex_kept (later : fresh = false) (kept : (s.engine c .copy).x ≠ 0) :
    s.rowIndex c e r fresh n i2 i3 = (s, some (Causes.none, signed 32 ((s.engine c .copy).x - 1))) := by
  unfold State.rowIndex
  exact if_pos (by simp [later, kept])

variable (reads : fresh = true ∨ (s.engine c .copy).x = 0)
include reads

theorem State.rowIndex_waits
    (read : s.readElems (s.taskAgent c (.copy c)) [[(4, s.operandAt c e r.b false (r.b.shift 0 0 i2 i3) (4 * n) 4)]] = (t, none)) :
    s.rowIndex c e r fresh n i2 i3 = (t, none) := by
  unfold State.rowIndex
  rw [if_neg (by simpa [or_iff_not_imp_left] using reads)]
  simp only [read]

theorem State.rowIndex_read {k : Causes} {l : List Elem}
    (read : s.readElems (s.taskAgent c (.copy c)) [[(4, s.operandAt c e r.b false (r.b.shift 0 0 i2 i3) (4 * n) 4)]]
      = (t, some (k, l))) :
    let v := ofBytes ((l.map fun y => y.data).flatten)
    s.rowIndex c e r fresh n i2 i3 = (t.setEngine c .copy { t.engine c .copy with x := v + 1 }, some (k, signed 32 v)) := by
  unfold State.rowIndex
  rw [if_neg (by simpa [or_iff_not_imp_left] using reads)]
  simp only [read]

end

section
variable {p s q : State} {c : CoreId} {h : Handle} {e : Entry} {r : Rec} {i : Nat} {got : Option (Causes × Int)}
  (indexed : s.rowIndex c e r (((e.trips r).at4 i).1 == 0) ((e.trips r).at4 i).2.1 ((e.trips r).at4 i).2.2.1
    ((e.trips r).at4 i).2.2.2 = (q, got))
include indexed

theorem State.cpyx_waits (waits : got = none) : (p.cpyxPlan e r).unit c h e i s = .wait q false := by
  subst waits
  simp only [State.cpyxPlan, indexed]

variable {k : Causes} {x : Int} (found : got = some (k, x))
include found

theorem State.cpyx_stops (stops : k.stops = true) : (p.cpyxPlan e r).unit c h e i s = .stop q k := by
  subst found
  simp only [State.cpyxPlan, indexed, stops, if_true]

variable (sound : k.stops = false)
include sound

theorem State.cpyx_skips (skips : r.specBits 1 1 = 1 ∧ x = -1) :
    (p.cpyxPlan e r).unit c h e i s = .done (q.cause c h k) := by
  subst found
  simp [State.cpyxPlan, indexed, sound, skips]

/-- The line of the row that the index names moves. -/
theorem State.cpyx_moves (moves : ¬ (r.specBits 1 1 = 1 ∧ x = -1)) :
    let j := (e.trips r).at4 i
    let scat := r.specBits 0 1 == 1
    let z := q.cause c h k
    z.MovesLine ((p.cpyxPlan e r).unit c h e i s) c h r
      (z.lineAtIndex c e r.a false j.1 (if scat then j.2.1 else x) j.2.2.1 j.2.2.2)
      (z.lineAtIndex c e r.c true j.1 (if scat then x else j.2.1) j.2.2.1 j.2.2.2) := by
  subst found
  simp only [State.cpyxPlan, indexed, sound, Bool.false_eq_true, if_false]
  rw [if_neg (by simpa using moves)]
  exact State.moveLine_movesLine _ c h r _ _

end

/-! ### MCAST (R263) -/

/-- A line put at one member after another: what a put that waits or stops comes to is what the record comes to. -/
def State.putAfter (c : CoreId) (h : Handle) (r : Rec) (dst : State → CoreId → Reach) (d : List Byte) (tag : Word) (k : Causes)
    (w : Work) (m : CoreId) : Work :=
  match w with
  | .done s => s.putWhole c h r (dst s m) d tag k
  | w => w

theorem State.foldl_putAfter_of_not_done {c : CoreId} {h : Handle} {r : Rec} {dst : State → CoreId → Reach} {d : List Byte}
    {tag : Word} {k : Causes} {w : Work} (rest : ∀ q, w ≠ .done q) (l : List CoreId) :
    l.foldl (State.putAfter c h r dst d tag k) w = w := by
  induction l with
  | nil => rfl
  | cons m l ih =>
    have same : State.putAfter c h r dst d tag k w m = w := by
      cases w with
      | done q => exact absurd rfl (rest q)
      | wait q b => rfl
      | stop q j => rfl
    rw [List.foldl_cons, same, ih]

theorem State.foldl_putAfter_putsEach (c : CoreId) (h : Handle) (r : Rec) (dst : State → CoreId → Reach) (d : List Byte)
    (tag : Word) (k : Causes) (l : List CoreId) (t : State) :
    State.PutsEach c h r dst d tag k (l.foldl (State.putAfter c h r dst d tag k) (.done t)) l t := by
  induction l generalizing t with
  | nil => rfl
  | cons m l ih =>
    refine ⟨t.putWhole c h r (dst t m) d tag k, t.putWhole_putsWhole .., fun q done => ?_,
      State.foldl_putAfter_of_not_done (l := l)⟩
    have next := ih q
    rw [← done] at next
    exact next

section
variable {p s t : State} {c : CoreId} {h : Handle} {e : Entry} {r : Rec} {i : Nat} {got : Option (Causes × List Byte × Word)}
  (read : s.readWhole (s.taskAgent c (.copy c)) (s.lineAtIndex c e r.a false ((e.trips r).at4 i).1 ((e.trips r).at4 i).2.1
    ((e.trips r).at4 i).2.2.1 ((e.trips r).at4 i).2.2.2) = (t, got))
include read

theorem State.mcast_waits (waits : got = none) : (p.mcastPlan e r).unit c h e i s = .wait t false := by
  subst waits
  simp only [State.mcastPlan, read]

variable {k : Causes} {d : List Byte} {g : Word} (found : got = some (k, d, g))
include found

theorem State.mcast_stops (stops : k.stops = true) : (p.mcastPlan e r).unit c h e i s = .stop t k := by
  subst found
  simp only [State.mcastPlan, read, stops, if_true]

theorem State.mcast_puts (sound : k.stops = false) :
    let j := (e.trips r).at4 i
    let group := r.tailBits 9 8
    let lam : Int := r.c.base + r.c.shift j.1 j.2.1 j.2.2.1 j.2.2.2
    State.PutsEach c h r (fun q m => if lam < 0 then .bad
        else q.reachPeer c e true true group 255 m (lam.toNat / 2048) (lam.toNat % 2048) 64) d (movedTag g) k
      ((p.mcastPlan e r).unit c h e i s)
      (((p.gangCores p.focus group 160).getD []).filter fun m => r.specBits 0 1 == 1 || m != p.focus) t := by
  subst found
  simp only [State.mcastPlan, read, sound, Bool.false_eq_true, if_false]
  exact State.foldl_putAfter_putsEach ..

end

/-! ### CPYQ (R266) -/

section
variable {p s t : State} {c : CoreId} {h : Handle} {e : Entry} {r : Rec} {i : Nat} {took : Option (Option (Fin 8))}
  (takes : s.takeSlot c .copy (if r.c.cls == 4 then r.c else r.a) (r.c.cls == 4) = (t, took))
include takes

theorem State.cpyq_waits (waits : took = none) : (p.cpyqPlan e r).unit c h e i s = .wait t true := by
  subst waits
  simp only [State.cpyqPlan, takes]

/-- The line of an operand of CPYQ: of the slot that the unit holds, or of storage. -/
def State.cpyqLine (t : State) (c : CoreId) (e : Entry) (slot : Option (Fin 8)) (j : Nat × Nat × Nat × Nat) (x : Desc)
    (write : Bool) : Reach :=
  if x.cls = 4 then t.slotLine c x slot j.1 else t.lineAtIndex c e x write j.1 j.2.1 j.2.2.1 j.2.2.2

variable {slot : Option (Fin 8)} (found : took = some slot)
include found

theorem State.cpyq_ends {w : Work} (moved : t.moveLine c h r (t.cpyqLine c e slot ((e.trips r).at4 i) r.a false)
      (t.cpyqLine c e slot ((e.trips r).at4 i) r.c true) = w) (rest : ∀ q, w ≠ .done q) :
    (p.cpyqPlan e r).unit c h e i s = w := by
  subst found
  unfold State.cpyqLine at moved
  simp only [State.cpyqPlan, takes, moved]

variable {q : State} (moved : t.moveLine c h r (t.cpyqLine c e slot ((e.trips r).at4 i) r.a false)
  (t.cpyqLine c e slot ((e.trips r).at4 i) r.c true) = .done q)
include moved

/-- A line put in a slot is written there for the queue too (R181). -/
theorem State.cpyq_fills {n : Fin 8} (produces : (r.c.cls == 4) = true) (holds : slot = some n) :
    (p.cpyqPlan e r).unit c h e i s = .done ((q.wroteSlot c (if r.c.cls == 4 then r.c else r.a).queue n
      ((e.trips r).at4 i).1).cpyqEnd c r (((e.trips r).at4 i).1 + 1 == (e.trips r).t0)) := by
  subst found holds
  unfold State.cpyqLine at moved
  simp only [State.cpyqPlan, takes, moved]
  simp only [produces, if_true]

theorem State.cpyq_done (drains : (r.c.cls == 4) = false ∨ slot = none) :
    (p.cpyqPlan e r).unit c h e i s
      = .done (q.cpyqEnd c r (((e.trips r).at4 i).1 + 1 == (e.trips r).t0)) := by
  subst found
  unfold State.cpyqLine at moved
  simp only [State.cpyqPlan, takes, moved]
  rcases drains with consumes | rfl
  · cases slot <;> simp only [consumes, Bool.false_eq_true, if_false]
  · rfl

end

end Sys2Proof.Machine
end

section
/-! PROOFS. One unit of CPYA, LDBND and SCANREF (R265, R267, R268). -/

namespace Sys2Proof.Machine

/-! ### CPYA (R265) -/

theorem cpyaResult_integer (t : BitVec 5) (rm : Rm) (draw m v : Nat) :
    ∀ o ∈ [(0, AmoOp.add), (1, .and), (2, .or), (3, .xor), (4, .min), (5, .max), (6, .minn), (7, .maxn)],
      cpyaResult o.1 t rm draw m v = ⟨amoResult o.2 (elOf t).width m v, 0⟩ := by
  simp [cpyaResult]

/-- The lines and the bytes of a unit of CPYA: the elements of a line one after another. -/
def Entry.cpyaIndex (e : Entry) (r : Rec) (i : Nat) : Nat × Nat × Nat × Nat := (e.trips r).at4 (i / (64 / (elOf r.fa).bytes))

def cpyaByte (r : Rec) (i : Nat) : Nat := (elOf r.fa).bytes * (i % (64 / (elOf r.fa).bytes))

/-- The displacement of an operand of CPYA. -/
def Entry.cpyaShift (e : Entry) (r : Rec) (d : Desc) (i : Nat) : Int :=
  d.shift (e.cpyaIndex r i).1 (e.cpyaIndex r i).2.1 (e.cpyaIndex r i).2.2.1 (e.cpyaIndex r i).2.2.2

section
variable {p s t : State} {c : CoreId} {h : Handle} {e : Entry} {r : Rec} {i : Nat} {got : Option (Causes × List Elem)}
  (read : s.readElems (s.taskAgent c (.copy c)) [[((elOf r.fa).bytes,
    s.operandAt c e r.a false (e.cpyaShift r r.a i) (cpyaByte r i) (elOf r.fa).bytes)]] = (t, got))
include read

theorem State.cpya_waits (waits : got = none) : (p.cpyaPlan e r).unit c h e i s = .wait t false := by
  subst waits
  unfold Entry.cpyaShift Entry.cpyaIndex cpyaByte at read
  simp only [State.cpyaPlan, read]

variable {k : Causes} {y : Elem} (found : got = some (k, [y]))
include found

theorem State.cpya_stops (stops : k.stops = true) : (p.cpyaPlan e r).unit c h e i s = .stop t k := by
  subst found
  unfold Entry.cpyaShift Entry.cpyaIndex cpyaByte at read
  simp only [State.cpyaPlan, read, stops, if_true]

variable (sound : k.stops = false)
include sound

theorem State.cpya_data (bad : (y.read (.el (elOf r.fa)) (8 * (elOf r.fa).bytes) 0).map (·.2) = none) :
    (p.cpyaPlan e r).unit c h e i s = .stop t (k.or causeData) := by
  subst found
  unfold Entry.cpyaShift Entry.cpyaIndex cpyaByte at read
  simp only [State.cpyaPlan, read, sound, bad, Bool.false_eq_true, if_false]

variable {v : Nat} (code : (y.read (.el (elOf r.fa)) (8 * (elOf r.fa).bytes) 0).map (·.2) = some v) {dst : Reach}
  (aims : t.operandAt c e r.c true (e.cpyaShift r r.c i) (cpyaByte r i) (elOf r.fa).bytes = dst)
include code aims

theorem State.cpya_bad (bad : dst = .bad) : (p.cpyaPlan e r).unit c h e i s = .stop t (k.or causeAccess) := by
  subst found bad
  unfold Entry.cpyaShift Entry.cpyaIndex cpyaByte at read aims
  simp only [State.cpyaPlan, read, sound, code, aims, Bool.false_eq_true, if_false]

theorem State.cpya_suppressed (suppressed : dst = .suppressed) :
    (p.cpyaPlan e r).unit c h e i s = .done (t.cause c h (k.or causeUndeclared)) := by
  subst found suppressed
  unfold Entry.cpyaShift Entry.cpyaIndex cpyaByte at read aims
  simp only [State.cpyaPlan, read, sound, code, aims, Bool.false_eq_true, if_false]

variable {va : Word} (named : dst = .found (.va va))
include named

theorem State.cpya_foreign (foreign : t.ownMemory va = false) :
    (p.cpyaPlan e r).unit c h e i s = .stop t (k.or causeAccess) := by
  subst found named
  unfold Entry.cpyaShift Entry.cpyaIndex cpyaByte at read aims
  simp only [State.cpyaPlan, read, sound, code, aims, foreign, Bool.false_eq_true, if_false, Bool.not_false, if_true]

variable (own : t.ownMemory va = true) {q : State} {answer : Got Nat}
  (home : t.rmw (s.taskAgent c (.copy c)) va (elOf r.fa).bytes (fun q m =>
    (q.raiseTask c h (cpyaResult (r.specBits 0 4) r.fa r.mode (e.draw r.mode (t.engine c .copy).x 0) m v).flags,
      some (cpyaResult (r.specBits 0 4) r.fa r.mode (e.draw r.mode (t.engine c .copy).x 0) m v).code)) = (q, answer))
include own home

theorem State.cpya_homeWaits (waits : answer = .wait) : (p.cpyaPlan e r).unit c h e i s = .wait q false := by
  subst found named waits
  unfold Entry.cpyaShift Entry.cpyaIndex cpyaByte at read aims
  simp only [State.cpyaPlan, read, sound, code, aims, own, home, Bool.false_eq_true, if_false, Bool.not_true]

/-- The line's last element is delivered if the whole line was reached (R265). -/
theorem State.cpya_done {old : Nat} (done : answer = .ok old) :
    let z := q.setEngine c .copy { q.engine c .copy with x := (t.engine c .copy).x + (if r.mode = .rsr then 1 else 0) }
    let per := 64 / (elOf r.fa).bytes
    let whole : Prop := i % per + 1 = per ∧ ∀ m < per, ∃ l,
      z.operandAt c e r.c true (e.cpyaShift r r.c i) ((elOf r.fa).bytes * m) (elOf r.fa).bytes = .found l
    (whole → (p.cpyaPlan e r).unit c h e i s = .done ((z.deliver r c).cause c h k)) ∧
    (¬ whole → (p.cpyaPlan e r).unit c h e i s = .done (z.cause c h k)) := by
  subst found named done
  unfold Entry.cpyaShift Entry.cpyaIndex cpyaByte at read aims
  intro z per whole
  simp only [State.cpyaPlan, read, sound, code, aims, own, home, Bool.false_eq_true, if_false, Bool.not_true]
  refine ⟨fun ⟨last, reached⟩ => ?_, fun part => ?_⟩
  · rw [if_pos]
    refine ⟨last, List.all_eq_true.2 fun m hm => ?_⟩
    obtain ⟨l, place⟩ := reached m (List.mem_range.1 hm)
    split
    · rfl
    · next other => exact absurd place (other l)
  · rw [if_neg]
    rintro ⟨last, all⟩
    refine part ⟨last, fun m hm => ?_⟩
    have reached := List.all_eq_true.1 all m (List.mem_range.2 hm)
    split at reached
    · next l place => exact ⟨l, place⟩
    · cases reached

end

/-! ### LDBND (R267) -/

section
variable {p s t : State} {c : CoreId} {h : Handle} {e : Entry} {r : Rec} {i : Nat} {got : Option (Causes × List Elem)}
  (read : s.readElems (s.taskAgent c (.copy c)) [[(4, s.operandAt c e r.a false 0 (4 * i) 4)]] = (t, got))
include read

theorem State.ldbnd_waits (waits : got = none) : (p.ldbndPlan e r).unit c h e i s = .wait t false := by
  subst waits
  simp only [State.ldbndPlan, read]

variable {k : Causes} {l : List Elem} (found : got = some (k, l))
include found

theorem State.ldbnd_stops (stops : k.stops = true) : (p.ldbndPlan e r).unit c h e i s = .stop t k := by
  subst found
  simp only [State.ldbndPlan, read, stops, if_true]

theorem State.ldbnd_done (sound : k.stops = false) :
    (p.ldbndPlan e r).unit c h e i s = .done ((t.writeBound c h (r.specBits 0 6 + i)
      (ofBytes ((l.map fun y => y.data).flatten))).cause c h k) := by
  subst found
  simp only [State.ldbndPlan, read, sound, Bool.false_eq_true, if_false]

end

section
variable (s : State) (c : CoreId) (h : Handle) (n : BNum) (v : Nat)

theorem State.writeBound_bound (binds : (s.entry c h).bindsBound n = true) : s.writeBound c h n.val v
    = s.setCore c { s.core c with bregs := vset (s.core c).bregs n (BitVec.ofNat 32 v) } := by
  simp only [State.writeBound, Fin.ofNat_val_eq_self, binds, if_true]

theorem State.writeBound_unbound (unbound : (s.entry c h).bindsBound n = false) :
    s.writeBound c h n.val v = s.cause c h causeUndeclared := by
  simp only [State.writeBound, Fin.ofNat_val_eq_self, unbound, Bool.false_eq_true, if_false]

end

/-! ### SCANREF (R268) -/

section
variable {p s : State} {c : CoreId} {h : Handle} {e : Entry} {r : Rec} {i : Nat}

/-- The references that a unit finds in a line. -/
def State.scanFound (s : State) (e : Entry) (r : Rec) (i : Nat) (d : List Byte) (g : Word) : List (List Byte) :=
  let j := (e.trips r).at4 i
  let shift := r.a.shift j.1 j.2.1 j.2.2.1 j.2.2.2
  let base : Int := if r.a.cls = 3 then ((s.slotStart e r.a.slot).getD 0 : Nat) + r.a.offset + shift
    else 2 ^ 63 + r.a.base + shift
  scanEntries base.toNat d g (r.specBits 7 1 == 1)

/-- The list of a SCANREF, from a byte on. -/
def State.scanRow (t : State) (c : CoreId) (e : Entry) (r : Rec) (off : Nat) : Row :=
  if r.c.cls = 3 then t.operandRow c e r.c true off
  else ⟨fun o n => t.reachTile c e true ((r.c.base + off) / 2048) ((r.c.base + off) % 2048 + o) n, (r.c.base + off) % 64⟩

/-- The writes of entries to the list, after the `x` that stand there. -/
def State.scanWrites (t : State) (c : CoreId) (e : Entry) (r : Rec) (x : Nat) (found : List (List Byte)) :
    List (Reach × List Byte) :=
  let size := if r.specBits 7 1 == 1 then 16 else 8
  ((found.take (r.tailBits 0 16 - x)).zipIdx.map fun y =>
    (pieces (t.scanRow c e r (size * (x + y.2))).col size).map fun z =>
      ((t.scanRow c e r (size * (x + y.2))).reach z.1 z.2, (y.1.drop z.1).take z.2)).flatten

/-- The last unit writes the count. -/
theorem State.scanref_counts (last : i = (e.trips r).all) (counts : r.specBits 6 1 = 1 ∧ (e.trips r).all ≠ 0) :
    (p.scanrefPlan e r).unit c h e i s
      = .done (s.writeBound c h (r.specBits 0 6) (min (s.engine c .copy).x (2 ^ 32 - 1))) := by
  subst last
  simp [State.scanrefPlan, counts]

theorem State.scanref_ends (last : i = (e.trips r).all) (counts : ¬ (r.specBits 6 1 = 1 ∧ (e.trips r).all ≠ 0)) :
    (p.scanrefPlan e r).unit c h e i s = .done s := by
  subst last
  simp only [State.scanrefPlan, if_true]
  rw [if_neg (by simpa using counts)]

variable {t : State} {got : Option (Causes × List Byte × Word)} (line : i ≠ (e.trips r).all)
  (read : s.readWhole (s.taskAgent c (.copy c)) (s.operandAt c e r.a false (r.a.shift ((e.trips r).at4 i).1
    ((e.trips r).at4 i).2.1 ((e.trips r).at4 i).2.2.1 ((e.trips r).at4 i).2.2.2) 0 64) = (t, got))
include line read

theorem State.scanref_waits (waits : got = none) : (p.scanrefPlan e r).unit c h e i s = .wait t false := by
  subst waits
  simp only [State.scanrefPlan, if_neg line, read]

variable {k : Causes} {d : List Byte} {g : Word} (found : got = some (k, d, g))
include found

theorem State.scanref_stops (stops : k.stops = true) : (p.scanrefPlan e r).unit c h e i s = .stop t k := by
  subst found
  simp only [State.scanrefPlan, if_neg line, read, stops, if_true]

variable (sound : k.stops = false) {q : State} {aimed : Option (Causes × List (Aim × List Byte))}
  (aims : t.aimAll (s.taskAgent c (.copy c)) (t.scanWrites c e r (t.engine c .copy).x (s.scanFound e r i d g)) Causes.none []
    = (q, aimed))
include sound aims

theorem State.scanref_listWaits (waits : aimed = none) : (p.scanrefPlan e r).unit c h e i s = .wait q false := by
  subst found waits
  unfold State.scanWrites State.scanRow State.scanFound at aims
  dsimp only at aims
  simp only [State.scanrefPlan, if_neg line, read, sound, aims, Bool.false_eq_true, if_false]

variable {kw : Causes} {ws : List (Aim × List Byte)} (placed : aimed = some (kw, ws))
include placed

theorem State.scanref_listStops (stops : kw.stops = true) : (p.scanrefPlan e r).unit c h e i s = .stop q (k.or kw) := by
  subst found placed
  unfold State.scanWrites State.scanRow State.scanFound at aims
  dsimp only at aims
  simp only [State.scanrefPlan, if_neg line, read, sound, aims, stops, Bool.false_eq_true, if_false, if_true]

theorem State.scanref_lists (passes : kw.stops = false) :
    let z := q.putRuns (s.taskAgent c (.copy c)) (writerOf c .copy h) ws
    (p.scanrefPlan e r).unit c h e i s = .done ((z.setEngine c .copy
      { z.engine c .copy with x := (t.engine c .copy).x + (s.scanFound e r i d g).length }).cause c h (k.or kw)) := by
  subst found placed
  unfold State.scanWrites State.scanRow State.scanFound at aims
  unfold State.scanFound
  dsimp only at aims
  simp only [State.scanrefPlan, if_neg line, read, sound, aims, passes, Bool.false_eq_true, if_false]

end

end Sys2Proof.Machine
end

section
/-! PROOFS. A line put at one copy stands there with its tag (R244, R259, R316). -/

namespace Sys2Proof.Machine

theorem Tags.get_set_same (t : Tags) (line : Nat) (w : Word) : (t.set line w).get line = w := by
  have below : (t.filter fun c => decide (c.1 < line)).find? (fun p => p.1 == line) = none := by
    rw [List.find?_eq_none]
    rintro c hc here
    have lower : c.1 < line := of_decide_eq_true (List.mem_filter.1 hc).2
    exact absurd (beq_iff_eq.1 here) (by omega)
  have above : (t.filter fun c => decide (line < c.1)).find? (fun p => p.1 == line) = none := by
    rw [List.find?_eq_none]
    rintro c hc here
    have higher : line < c.1 := of_decide_eq_true (List.mem_filter.1 hc).2
    exact absurd (beq_iff_eq.1 here) (by omega)
  unfold Tags.get Tags.set lookupKey
  rw [List.find?_append, below, List.find?_append, above]
  split
  · next zero => rw [zero]; rfl
  · simp

/-- A write that every byte of its place admits is made whole. -/
theorem State.putWhere_whole (s : State) {m : Mark} {k : Nat} {d : List Byte} {later : Nat → Bool} (p : Put)
    (h : ∀ i < d.length, later (k + i) = true) : s.putWhere m k d p later = (s.put p k d).performedAs m k d.length := by
  have every : ((List.range d.length).filter fun i => later (k + i)) = List.range d.length :=
    List.filter_eq_self.2 fun i hi => h i (List.mem_range.1 hi)
  unfold State.putWhere
  dsimp only
  rw [every, List.length_range, if_pos rfl]

section
variable (s : State) (ag : Agent) (w : Waiter) (k : Nat) (va : Word) (d : List Byte) (tag : Word)
  (follows : ∀ i < d.length, (s.advanceClock ag.die).followsAt ((s.advanceClock ag.die).markOf ag.die) (k + i) = true)
include follows

theorem State.putLine_mem : (s.putLine ag w (.keys [k] [] va) d tag).mem = s.mem.write k d := by
  change ((s.advanceClock ag.die).putWhere _ k d (.line tag) _).mem = _
  rw [State.putWhere_whole _ _ follows]
  simp only [State.performedAs, State.testWaits_mem, State.stampAs_mem]
  rfl

theorem State.putLine_tags (device : isHostKey k = false) :
    (s.putLine ag w (.keys [k] [] va) d tag).tags = s.tags.set (k / 64) tag := by
  change ((s.advanceClock ag.die).putWhere _ k d (.line tag) _).tags = _
  rw [State.putWhere_whole _ _ follows]
  simp only [State.performedAs, State.testWaits_tags, State.stampAs_tags]
  simp only [State.put, State.setLine, device, Bool.false_eq_true, if_false]
  rfl

end

end Sys2Proof.Machine
end

section
/-! PROOFS. The engine records (O48): each rule of the records, in the statement's order. -/

namespace Sys2Proof.Machine

/-- Settles O48: each rule above, in the statement's order. -/
theorem engineRecords : Obligations.EngineRecords := by
  unfold Obligations.EngineRecords
  refine ⟨?records, ?mma, ?mdrain, ?cpy, ?fill, ?mzero, ?mldc, ?trn, ?cpyx, ?rowIndex, ?mcast, ?cpyq, ?cpya, ?combine, ?ldbnd,
    ?bound, ?scanref, ?line⟩
  case records =>
    exact fun s r => ⟨fun alone => ⟨.of (State.multiply_alone false alone), .of (State.multiply_alone true alone)⟩,
      .of rfl, .of rfl, .of rfl, .of rfl, .of rfl, .of rfl, .of rfl, .of rfl, .of rfl, .of rfl, .of rfl, .of rfl⟩
  case cpy => exact fun p s c h e r i => s.moveLine_movesLine c h r _ _
  case fill => exact fun p s c h e r i => s.putWhole_putsWhole c h r _ _ _ _
  case combine =>
    exact fun t rm draw m v => ⟨cpyaResult_integer t rm draw m v, rfl, rfl, rfl⟩
  case bound => exact fun s c h n v => ⟨s.writeBound_bound c h n v, s.writeBound_unbound c h n v⟩
  case ldbnd =>
    exact fun p s t c h e r i got read => ⟨State.ldbnd_waits read, fun k l found =>
      ⟨State.ldbnd_stops read found, State.ldbnd_done read found⟩⟩
  case mcast =>
    exact fun p s t c h e r i got read => ⟨State.mcast_waits read, fun k d g found =>
      ⟨State.mcast_stops read found, State.mcast_puts read found⟩⟩
  case rowIndex =>
    exact fun s t c e r fresh n i2 i3 => ⟨State.rowIndex_kept, fun reads =>
      ⟨State.rowIndex_waits reads, fun k l => State.rowIndex_read reads⟩⟩
  case cpyx =>
    exact fun p s q c h e r i got indexed => ⟨State.cpyx_waits indexed, fun k x found =>
      ⟨State.cpyx_stops indexed found, State.cpyx_skips indexed found, State.cpyx_moves indexed found⟩⟩
  case mma =>
    intro p s s1 s2 c h e r double i ka kb ea eb xs ys m g j kv n at_ read type storageA storageB valid fits readA readB sound
      rowsA rowsB
    obtain ⟨q, done, acc⟩ := State.mmaGroup_done (h := h) type valid readA readB sound rowsA rowsB
    obtain ⟨z, unit, same⟩ := State.mmaUnit_done storageA storageB done
    refine ⟨z, unit, fun row hr col hc => ?_⟩
    rw [Nat.mul_assoc] at acc
    change accRead (z.acc c) _ _ _ = _
    rw [same, acc]
    exact accRows_stepped type (fun row col => e.draw r.mode (s.engine c .matrix).x ((r.c.accRow + row) * 512 + at_ col))
      (fun row col => ((xs.getD row []).map (·.val)).zip ((ys.filterMap fun y => y[col]?).map (·.val))) (s2.acc c) fits hr hc
  case mdrain =>
    intro p s s1 s2 c h e r i k kw es ps l
    dsimp only
    intro storage read sound params shifts aimed passes
    exact State.mdrain_done storage read sound params shifts aimed passes
  case mzero =>
    intro p s c h e r i t j rows bytes start
    refine ⟨_, p.mzero_unit s c h e r i, rfl, fun row hr x hx => ?_, fun a apart => ?_⟩
    · rw [State.acc_setAcc]
      exact accRows_zero hr hx
    · rw [State.acc_setAcc]
      exact accRows_apart (fun _ _ => by rw [List.length_replicate]) apart
  case mldc =>
    intro p s s1 c h e r i got t j rows b first start unit read
    refine ⟨State.mldc_waits read, fun k es found => ⟨State.mldc_stops read found, State.mldc_data read found,
      fun l sound codes fits => ?_⟩⟩
    obtain ⟨acc, done, loaded, empty⟩ := State.mldc_done (p := p) (h := h) read found sound codes
    have length (m : Memory) (row : Nat) : b * (rowCodes t.t0 l row).length = b * t.t0 := by simp [rowCodes]
    refine ⟨acc, done, fun row hr x hx y hy => ?_, fun a apart => ?_⟩
    · rw [loaded (Nat.ne_zero_of_lt hx)]
      exact mldc_stands fits hr hx hy
    · by_cases columns : t.t0 = 0
      · rw [empty columns]
      · rw [loaded columns]
        exact accRows_apart (codes := fun _ row => rowCodes t.t0 l row) length apart
  case trn =>
    intro p s s1 c h e r i got t j ag rows dst same unit read
    refine ⟨State.trn_waits read, fun k l found => ⟨State.trn_stops read found, State.trn_data read found,
      fun vs sound codes => ?_⟩⟩
    have length : vs.length = rows * t.t0 := (length_of_mapM codes).trans (State.readElems_block (read.trans (by rw [found])))
    exact ⟨e.trnOut r (s1.engine c .transpose).x vs, trnRows_length _ _ _ _ _ _ length,
      fun col hc => trnRows_row _ _ _ _ _ _ length hc, fun q aimed aims =>
        ⟨State.trn_aimWaits read found sound codes aims, fun kw ws placed =>
          ⟨State.trn_aimStops read found sound codes aims placed, State.trn_done read found sound codes aims placed⟩⟩⟩
  case cpyq =>
    exact fun p s t c h e r i took takes => ⟨State.cpyq_waits takes, fun slot found =>
      ⟨t.moveLine c h r (t.cpyqLine c e slot ((e.trips r).at4 i) r.a false) (t.cpyqLine c e slot ((e.trips r).at4 i) r.c true),
        t.moveLine_movesLine c h r _ _, fun q moved => ⟨fun n => State.cpyq_fills takes found moved,
          State.cpyq_done takes found moved⟩, State.cpyq_ends takes found rfl⟩⟩
  case cpya =>
    exact fun p s t c h e r i got read => ⟨State.cpya_waits read, fun k y found =>
      ⟨State.cpya_stops read found, State.cpya_data read found, fun v sound code =>
        ⟨State.cpya_bad read found sound code rfl, State.cpya_suppressed read found sound code rfl, fun va named =>
          ⟨State.cpya_foreign read found sound code rfl named, fun own q =>
            ⟨fun home => State.cpya_homeWaits read found sound code rfl named own home rfl,
              fun old home => State.cpya_done read found sound code rfl named own home rfl⟩⟩⟩⟩⟩
  case scanref =>
    exact fun p s t c h e r i got => ⟨State.scanref_counts, State.scanref_ends, fun line read =>
      ⟨State.scanref_waits line read, fun k d g found => ⟨State.scanref_stops line read found, fun sound q =>
        ⟨fun aims => State.scanref_listWaits line read found sound aims rfl, fun kw ws aims =>
          ⟨State.scanref_listStops line read found sound aims rfl, State.scanref_lists line read found sound aims rfl⟩⟩⟩⟩⟩
  case line =>
    intro s ag w k va d tag _ length _ device q follows t
    have all : ∀ i < d.length, q.followsAt (q.markOf ag.die) (k + i) = true := length ▸ follows
    have mem : t.mem = s.mem.write k d := s.putLine_mem ag w k va d tag all
    refine ⟨fun i hi => ?_, ?_, fun a apart => ?_⟩
    · rw [mem, Memory.byte_write, if_pos (by omega), Nat.add_sub_cancel_left]
    · rw [show t.tags = _ from s.putLine_tags ag w k va d tag all device, Tags.get_set_same]
    · rw [mem, Memory.byte_write_apart _ _ _ _ (length ▸ apart)]

end Sys2Proof.Machine
end
